-- ==== Sys2Proof/Word.lean ====
section
/-! DEFINITION. The word types of the Rentar DX-48 and their plainest views. -/

namespace Sys2Proof

/-- One byte. -/
abbrev Byte := BitVec 8
/-- A scalar register or CSR (R52). -/
abbrev W64 := BitVec 64
/-- A vector register, 8 chunks of 256 bits (R52, R105). -/
abbrev VWord := BitVec 2048
/-- A predicate register, a token beat or one chunk (R52). -/
abbrev Chunk := BitVec 256
/-- A slot word (R38, R66). -/
abbrev SlotWord := BitVec 80
/-- One accumulator's storage, 8 KiB (R133). -/
abbrev AccWord := BitVec 65536

end Sys2Proof
end

