-- ==== Sys2Proof/Config.lean ====
section
/-! DEFINITION. What an implementation fixes and the spec leaves open: constants with no body, so that no proof can
rest on a value of one. Each is applied to what it depends on, or to the counter `fresh` of the state. -/

namespace Sys2Proof.Config

/-- Does the unit whose turn it is act on this beat? The spec bounds the timing of engines, mesh and memory without
fixing it (R235, R287, R291, R296). Applied to `fresh`. (log 4) -/
opaque choice : Nat → Bool


/-- A DM8 tie whose two neighbours both have payload bit 0 equal to 0 or both equal to 1: does it go to the larger
magnitude? Applied to the smaller neighbour's payload. (log 10) -/
opaque dm8TieUp : Nat → Bool

/-- A 64-bit value the spec leaves unstated. Applied to `fresh`. -/
opaque freeWord : Nat → W64

/-- A byte the spec leaves unstated. Applied to `fresh`. -/
opaque freeByte : Nat → Byte

/-- SHA-256 of a byte string (R358), left free (log 22). -/
opaque sha256 : List Byte → BitVec 256

/-- SLH-DSA signature check of the firmware: fused key hash, image, signature (R358), left free (log 22). -/
opaque slhVerify : BitVec 256 → List Byte → Bool

/-- The boot ROM's bytes (R358), left free (log 22). -/
opaque bootRom : List Byte

/-- The device identity key that firmware derives from the fused secrets (R358), left free (log 22). -/
opaque identityKey : Nat → Nat

/-- The signature over measurement blocks with an identity key (R358), left free (log 22). -/
opaque slhSign : Nat → List Byte → List Byte

/-- AES-XTS of a data unit of device memory under a key slot's key: key identity, physical address of the unit, its bytes (R348),
left free (log 22). -/
opaque aesXts : Nat → Nat → List Byte → List Byte

/-- The inverse direction, for a unit that was not stored under the key: key, physical address, bytes (R348, log 22). -/
opaque aesXtsDec : Nat → Nat → List Byte → List Byte

/-- The numbers that the 60 bytes of a flit's payload stand for, and the payload that stands for some numbers: R362 gives a flit no
payload format. (log 31) -/
opaque flitNums : List Byte → List Nat
opaque flitBytes : List Nat → List Byte

/-- The power island of its die that holds a core (R359, R360); the spec does not lay the islands out. Applied to the core's
index. (log 27) -/
opaque islandOf : Nat → Nat

end Sys2Proof.Config
end

