-- ==== Sys2Proof/Syntax.lean ====
section
/-! DEFINITION. The rows of the opcode table as one inductive: the slot words of the four columns with their operands
(03_encoding.md to 07_exchange.md), and the part's own steps with the identity of the unit that acts
(95_what_each_step_holds.md). -/

namespace Sys2Proof

/-- The four function columns of a core (R38). -/
inductive Col | s | v | m | x
deriving DecidableEq, Repr, Inhabited

/-- The 32 format codes in code order (R14). -/
inductive Fmt
  | fp32 | fp64 | fp16 | bf16 | e4m3 | e5m2 | e3m2 | e2m3 | e2m1 | dm8 | int32 | int16 | int8 | uint8 | int4 | uint4
  | mxfp8e4m3 | mxfp8e5m2 | mxfp6e3m2 | mxfp6e2m3 | mxfp4 | mxint8 | dm8b32 | e2m1b16d | int8b16h | int4b32h | ternb32h
  | e4m3t | e5m2t | dm8t | int8r | binb64h
deriving DecidableEq, Repr, Inhabited

/-- Rounding modes (R23). -/
inductive Rm | rne | rtz | down | dither
deriving DecidableEq, Repr, Inhabited

/-- Comparison conditions (R89, R121). -/
inductive Cc | eq | ne | lt | le | ltz | lez | un | ord
deriving DecidableEq, Repr, Inhabited

/-- Reduction operations (R123). -/
inductive RedOp | sum | min | max | absmax | and | or | xor
deriving DecidableEq, Repr, Inhabited

/-- Accumulator types (R133). -/
inductive Tacc | fp32 | int32 | fp64
deriving DecidableEq, Repr, Inhabited

/-- Drain functions (R71, R143). -/
inductive Dfn | none | exp2 | relu | scale | rowmax
deriving DecidableEq, Repr, Inhabited

/-- ORD of an F6 word (R168). -/
inductive Ord3 | none | acq | rel | both
deriving DecidableEq, Repr, Inhabited

/-- Scopes (R169). -/
inductive Scope | lane | core | quad | die | package | pod | system
deriving DecidableEq, Repr, Inhabited

/-- Types of an atomic word (R177). -/
inductive AtomTy | i32 | i64 | f32 | z32 | z64
deriving DecidableEq, Repr, Inhabited

/-- The header of a slot word without OP and FMT (R66). `hold` and `fold` are the field values. -/
structure Hdr where
  hold : Fin 4 := 0
  rp : Bool := false
  pq : Fin 16 := 0
  pn : Bool := false
  fold : Fin 4 := 0
deriving DecidableEq, Repr, Inhabited

/-- A vector source: a v register or an rx port (R78). -/
inductive VSrc | v (r : Fin 32) | rx (p : Fin 8)
deriving DecidableEq, Repr, Inhabited

/-- A vector destination: a v register or a tx port (R78). -/
inductive VDst | v (r : Fin 32) | tx (p : Fin 8)
deriving DecidableEq, Repr, Inhabited

/-- A vector operand that SB or SC may turn into a scalar register (R108). -/
inductive VOpd | src (x : VSrc) | s (r : Fin 32)
deriving DecidableEq, Repr, Inhabited

/-- The data operand of an X load or store: a scalar register or a port (R165). -/
inductive SPort | s (r : Fin 32) | port (p : Fin 8)
deriving DecidableEq, Repr, Inhabited

/-- Destination of `mdrain`: a ring tail or a tx port (R143). -/
inductive MDst | ring (g : Fin 8) | tx (p : Fin 8)
deriving DecidableEq, Repr, Inhabited

/-- One-source V operands (R112, R115, R117). -/
structure V1 where
  d : VDst
  a : VSrc
  ty : Fmt
  rm : Rm := .rne
  sat : Bool := false
deriving DecidableEq, Repr, Inhabited

/-- Two-source V operands (R112, R116, R117). -/
structure V2 where
  d : VDst
  a : VSrc
  b : VOpd
  ty : Fmt
  rm : Rm := .rne
  sat : Bool := false
deriving DecidableEq, Repr, Inhabited

/-- Fused V operands (R112). -/
structure V3 where
  d : VDst
  a : VSrc
  b : VOpd
  c : VOpd
  ty : Fmt
  rm : Rm := .rne
  sat : Bool := false
deriving DecidableEq, Repr, Inhabited

/-- V operands of the logic, shift and selection words, which never round (R121). -/
structure VB where
  d : VDst
  a : VSrc
  b : VOpd
  ty : Fmt
deriving DecidableEq, Repr, Inhabited

/-- Near-space operands of an F2 word besides D (R70). -/
structure Ns where
  br : Fin 16
  x : Fin 32
  ty : Fmt
  sp : Fin 4 := 0
  lb : Fin 256 := 0
  ofs : BitVec 24 := 0
deriving DecidableEq, Repr, Inhabited

/-- Operands of `mma` and `mmat` (R140). -/
structure Mma where
  ad : Fin 8
  ga : Fin 8
  gb : Fin 8
  ta : Fmt
  tb : Fmt
  tacc : Tacc
  kt : Fin 64
  byp : Bool
  za : Bool
  ret : Bool
  xp : Bool
  sata : Bool
deriving DecidableEq, Repr, Inhabited

/-- Operands of `mdrain` (R143). -/
structure Mdrain where
  ad : Fin 8
  tacc : Tacc
  ta : Fmt
  dst : MDst
  dfn : Dfn
  vr : Fin 32
  sr : Fin 32
  rm : Rm
  sat : Bool
  za : Bool
  xp : Bool
deriving DecidableEq, Repr, Inhabited

/-- Operands of an F6 word (R74); fields an instruction does not use are 0 (R77, R173). SUB is `sub`. -/
structure F6 where
  cmd : Fin 32 := 0
  cp : Fin 8 := 0
  ord : Ord3 := .none
  sc : Scope := .core
  a : Fin 32 := 0
  b : Fin 32 := 0
  imm : BitVec 16 := 0
  sub : Fin 256 := 0
  tag : Fin 256 := 0
deriving DecidableEq, Repr, Inhabited

/-- One constructor per row of spec/opcode_table.json. -/
inductive Instr
  -- any column
  | nop (c : Col) (h : Hdr)
  -- S column, register form (R86)
  | add (h : Hdr) (d a b : Fin 32) (sat : Bool)
  | sub (h : Hdr) (d a b : Fin 32) (sat : Bool)
  | mul (h : Hdr) (d a b : Fin 32) (sat : Bool)
  | mulh (h : Hdr) (d a b : Fin 32)
  | mulhz (h : Hdr) (d a b : Fin 32)
  | div (h : Hdr) (d a b : Fin 32)
  | divz (h : Hdr) (d a b : Fin 32)
  | rem (h : Hdr) (d a b : Fin 32)
  | remz (h : Hdr) (d a b : Fin 32)
  | and (h : Hdr) (d a b : Fin 32)
  | or (h : Hdr) (d a b : Fin 32)
  | xor (h : Hdr) (d a b : Fin 32)
  | andn (h : Hdr) (d a b : Fin 32)
  | shl (h : Hdr) (d a b : Fin 32)
  | shr (h : Hdr) (d a b : Fin 32)
  | sra (h : Hdr) (d a b : Fin 32)
  | rotl (h : Hdr) (d a b : Fin 32)
  | min (h : Hdr) (d a b : Fin 32)
  | max (h : Hdr) (d a b : Fin 32)
  | minz (h : Hdr) (d a b : Fin 32)
  | maxz (h : Hdr) (d a b : Fin 32)
  | clz (h : Hdr) (d a : Fin 32)
  | ctz (h : Hdr) (d a : Fin 32)
  | popc (h : Hdr) (d a : Fin 32)
  | bext (h : Hdr) (d a b : Fin 32)
  | bins (h : Hdr) (d a b c : Fin 32)
  | sel (h : Hdr) (d a b : Fin 32) (qc : Fin 16)
  | cmp (h : Hdr) (cc : Cc) (qd : Fin 16) (a b : Fin 32)
  | sext (h : Hdr) (ty : Fmt) (d a : Fin 32)
  | mad (h : Hdr) (d a b c : Fin 32) (sat : Bool)
  | addsh (h : Hdr) (d a b : Fin 32) (k : Fin 256)
  -- S column, immediate forms (R91, R92)
  | addi (h : Hdr) (d a : Fin 32) (imm : BitVec 32)
  | muli (h : Hdr) (d a : Fin 32) (imm : BitVec 32)
  | andi (h : Hdr) (d a : Fin 32) (imm : BitVec 32)
  | ori (h : Hdr) (d a : Fin 32) (imm : BitVec 32)
  | xori (h : Hdr) (d a : Fin 32) (imm : BitVec 32)
  | shli (h : Hdr) (d a : Fin 32) (imm : BitVec 32)
  | shri (h : Hdr) (d a : Fin 32) (imm : BitVec 32)
  | srai (h : Hdr) (d a : Fin 32) (imm : BitVec 32)
  | cmpi (h : Hdr) (cc : Cc) (qd : Fin 16) (a : Fin 32) (imm : BitVec 32)
  | mini (h : Hdr) (d a : Fin 32) (imm : BitVec 32)
  | maxi (h : Hdr) (d a : Fin 32) (imm : BitVec 32)
  | li (h : Hdr) (d : Fin 32) (imm : BitVec 32)
  | lih (h : Hdr) (d a : Fin 32) (imm : BitVec 32)
  | lil (h : Hdr) (d : Fin 32) (imm : BitVec 53)
  -- S column, predicates (R93)
  | qand (h : Hdr) (d a b : Fin 16)
  | qor (h : Hdr) (d a b : Fin 16)
  | qxor (h : Hdr) (d a b : Fin 16)
  | qandn (h : Hdr) (d a b : Fin 16)
  | qnot (h : Hdr) (d a : Fin 16)
  | qsetRange (h : Hdr) (d : Fin 16) (a b : Fin 32)
  | qsetWord (h : Hdr) (d : Fin 16) (a b : Fin 32)
  | qget (h : Hdr) (d : Fin 32) (a : Fin 16) (w : Fin 4)
  | qfirst (h : Hdr) (d : Fin 32) (a : Fin 16)
  -- S column, addresses and records (R94 to R96)
  | lea (h : Hdr) (ty : Fmt) (d : Fin 32) (br : Fin 16) (x : Fin 32) (ofs : BitVec 24)
  | bld (h : Hdr) (d : Fin 16) (a : Fin 32) (idx : BitVec 12) (lb : Fin 256)
  | bset (h : Hdr) (d : Fin 16) (w : Fin 4) (a : Fin 32)
  | bget (h : Hdr) (d : Fin 32) (a : Fin 16) (w : Fin 4)
  -- S column, CSRs, regions, stops (R98 to R102)
  | mfc (h : Hdr) (d : Fin 32) (csr : Fin 256)
  | mtc (h : Hdr) (csr : Fin 256) (a : Fin 32)
  | rgnin (h : Hdr) (id : BitVec 32)
  | rgnout (h : Hdr)
  | trap (h : Hdr) (code : BitVec 32) (a : Fin 32)
  | brk (h : Hdr) (code : BitVec 32)
  | fin (h : Hdr) (code : BitVec 32)
  -- V column (R112 to R131)
  | vadd (h : Hdr) (o : V2)
  | vsub (h : Hdr) (o : V2)
  | vmul (h : Hdr) (o : V2)
  | vfma (h : Hdr) (o : V3)
  | vfms (h : Hdr) (o : V3)
  | vfnma (h : Hdr) (o : V3)
  | vmin (h : Hdr) (o : V2)
  | vmax (h : Hdr) (o : V2)
  | vabs (h : Hdr) (o : V1)
  | vneg (h : Hdr) (o : V1)
  | vrcp (h : Hdr) (o : V1)
  | vrsq (h : Hdr) (o : V1)
  | vrcps (h : Hdr) (o : V2)
  | vrsqs (h : Hdr) (o : V2)
  | vexp2 (h : Hdr) (o : V1)
  | vlog2 (h : Hdr) (o : V1)
  | vscale (h : Hdr) (o : V2)
  | vfrexpFrac (h : Hdr) (d : VDst) (a : VSrc) (ty : Fmt)
  | vfrexpExp (h : Hdr) (d : VDst) (a : VSrc) (ty : Fmt)
  | vround (h : Hdr) (d : VDst) (a : VSrc) (ty : Fmt) (rm : Rm)
  | vcvt (h : Hdr) (d : VDst) (a : VSrc) (td ts : Fmt) (c : Fin 32) (rm : Rm) (sat : Bool)
  | vcmp (h : Hdr) (cc : Cc) (qd : Fin 16) (a : VSrc) (b : VOpd) (ty : Fmt)
  | vsel (h : Hdr) (o : VB) (qc : Fin 16)
  | vand (h : Hdr) (o : VB)
  | vor (h : Hdr) (o : VB)
  | vxor (h : Hdr) (o : VB)
  | vshl (h : Hdr) (o : VB)
  | vshr (h : Hdr) (o : VB)
  | vsra (h : Hdr) (o : VB)
  | vclamp (h : Hdr) (o : VB) (c : VOpd)
  | vdot (h : Hdr) (o : V2) (c : VSrc)
  | vred (h : Hdr) (op : RedOp) (d : Fin 32) (a : VSrc) (ty : Fmt) (rm : Rm) (sat : Bool)
  | vscan (h : Hdr) (op : RedOp) (d : Fin 32) (a : VSrc) (ty : Fmt) (rm : Rm) (sat : Bool)
  | vmred (h : Hdr) (op : RedOp) (d : Fin 32) (a b : VSrc) (qc : Fin 16) (ty : Fmt) (rm : Rm) (sat : Bool)
  | vtopk (h : Hdr) (d : Fin 32) (a : VSrc) (ty : Fmt) (km1 : Fin 64) (val : Bool)
  | vqcnt (h : Hdr) (d : Fin 32) (a : Fin 16) (ty : Fmt)
  | vperm (h : Hdr) (d : VDst) (a : Fin 32) (b : VSrc) (ty : Fmt)
  | vbcastElem (h : Hdr) (d : VDst) (a : Fin 32) (b : Fin 32) (ty : Fmt)
  | vbcastScalar (h : Hdr) (d : VDst) (b : Fin 32) (ty : Fmt)
  | vslide (h : Hdr) (d : VDst) (a b : Fin 32) (ty : Fmt) (n : Fin 256)
  | vcompress (h : Hdr) (d : VDst) (a : Fin 32) (ty : Fmt)
  | vexpand (h : Hdr) (d : VDst) (a : Fin 32) (ty : Fmt)
  | vidx (h : Hdr) (d : VDst) (a : Fin 32) (ty : Fmt)
  | vmov (h : Hdr) (d : VDst) (a : VSrc) (ty : Fmt)
  | vins (h : Hdr) (d : Fin 32) (a : Fin 32) (ty : Fmt) (n : Fin 256)
  | vext (h : Hdr) (d : Fin 32) (a : Fin 32) (ty : Fmt) (n : Fin 256)
  | vli (h : Hdr) (d : VDst) (ty : Fmt) (imm : BitVec 32)
  | vld (h : Hdr) (d : VDst) (n : Ns)
  | vst (h : Hdr) (d : VSrc) (n : Ns)
  | vgth (h : Hdr) (d : VDst) (n : Ns)
  | vsct (h : Hdr) (d : VSrc) (n : Ns)
  | vhouse (h : Hdr) (d : Fin 32) (a : VSrc) (c : Fin 32)
  | vnorm (h : Hdr) (d a c : Fin 32) (ty : Fmt) (rm : Rm) (sat : Bool) (t : BitVec 8)
  | vpack (h : Hdr) (d : VDst) (a b : Fin 32) (td ts : Fmt) (rm : Rm) (sat : Bool)
  | vunpk (h : Hdr) (d : VDst) (a : Fin 32) (td ts : Fmt) (hi : Bool) (rm : Rm) (sat : Bool)
  -- M column (R137 to R158)
  | mma (h : Hdr) (o : Mma)
  | mmat (h : Hdr) (o : Mma)
  | mzero (h : Hdr) (ad : Fin 8)
  | mdrain (h : Hdr) (o : Mdrain)
  | mld (h : Hdr) (ad : Fin 8) (n : Ns)
  | mst (h : Hdr) (ad : Fin 8) (n : Ns)
  | mmov (h : Hdr) (ad ga : Fin 8) (tacc : Tacc) (xp : Bool)
  | madd (h : Hdr) (ad ga : Fin 8) (tacc : Tacc)
  | mscl (h : Hdr) (ad ga : Fin 8) (sr : Fin 32)
  | mrowmax (h : Hdr) (vr : Fin 32) (ga : Fin 8) (tacc : Tacc)
  | mrowsum (h : Hdr) (vr : Fin 32) (ga : Fin 8) (tacc : Tacc)
  | ginit (h : Hdr) (g : Fin 8) (a : Fin 32) (ty : Fmt) (cap : Fin 256) (kbm1 : Fin 64)
  | gadv (h : Hdr) (g : Fin 8) (n : Fin 256)
  | gpop (h : Hdr) (g : Fin 8) (n : Fin 256)
  | gstat (h : Hdr) (d : Fin 32) (g : Fin 8)
  | gfill (h : Hdr) (g : Fin 8) (p : Fin 8) (ty : Fmt) (cnt : Fin 32)
  | oaclr (h : Hdr) (o : Fin 4)
  | oaapp (h : Hdr) (o : Fin 4) (vr sr : Fin 32) (kt : Fin 64)
  | oahh (h : Hdr) (o : Fin 4) (vr sr : Fin 32) (kt : Fin 64)
  | oaml (h : Hdr) (o : Fin 4) (ga : Fin 8) (xp : Bool)
  | oamr (h : Hdr) (o : Fin 4) (ga : Fin 8) (xp : Bool)
  | oamv (h : Hdr) (o : Fin 4) (vr : Fin 32) (xp : Bool)
  | oarc (h : Hdr) (o : Fin 4)
  | oastat (h : Hdr) (o : Fin 4) (sr : Fin 32)
  | oacfg (h : Hdr) (o : Fin 4) (sr : Fin 32)
  | oaform (h : Hdr) (o : Fin 4) (ga : Fin 8) (xp : Bool)
  | oasave (h : Hdr) (o : Fin 4) (n : Ns)
  | oaload (h : Hdr) (o : Fin 4) (n : Ns)
  -- X column, ports (R161)
  | recvS (h : Hdr) (d : Fin 32) (p : Fin 8) (ty : Fmt)
  | recvV (h : Hdr) (d : Fin 32) (p : Fin 8) (ty : Fmt) (cnt : Fin 8)
  | recvQ (h : Hdr) (d : Fin 16) (p : Fin 8)
  | sendS (h : Hdr) (p : Fin 8) (a : Fin 32) (ty : Fmt) (tag : Fin 16)
  | sendV (h : Hdr) (p : Fin 8) (a : Fin 32) (ty : Fmt) (cnt : Fin 8) (tag : Fin 16)
  | peekS (h : Hdr) (d : Fin 32) (p : Fin 8) (ty : Fmt)
  | peekQ (h : Hdr) (d : Fin 16) (p : Fin 8)
  | sendq (h : Hdr) (p : Fin 8) (a : Fin 16) (tag : Fin 16)
  | rxstat (h : Hdr) (d : Fin 32) (p : Fin 8)
  | drop (h : Hdr) (p : Fin 8) (cnt : Fin 64)
  | ld (h : Hdr) (d : SPort) (n : Ns)
  | st (h : Hdr) (d : SPort) (n : Ns)
  -- X column, asynchronous and synchronisation words (R173)
  | lcopy (h : Hdr) (o : F6)
  | lcopyShort (h : Hdr) (o : F6)
  | lgath (h : Hdr) (o : F6)
  | lscat (h : Hdr) (o : F6)
  | lwin (h : Hdr) (o : F6)
  | lfill (h : Hdr) (o : F6)
  | lprf (h : Hdr) (o : F6)
  | lprfShort (h : Hdr) (o : F6)
  | lexp (h : Hdr) (o : F6)
  | limp (h : Hdr) (o : F6)
  | aadd (h : Hdr) (o : F6)
  | amin (h : Hdr) (o : F6)
  | amax (h : Hdr) (o : F6)
  | aand (h : Hdr) (o : F6)
  | aor (h : Hdr) (o : F6)
  | axor (h : Hdr) (o : F6)
  | aswap (h : Hdr) (o : F6)
  | acas (h : Hdr) (o : F6)
  | ald (h : Hdr) (o : F6)
  | ast (h : Hdr) (o : F6)
  | awaitSync (h : Hdr) (o : F6)
  | awaitAsync (h : Hdr) (o : F6)
  | apop (h : Hdr) (o : F6)
  | apush (h : Hdr) (o : F6)
  | bar (h : Hdr) (o : F6)
  | arrive (h : Hdr) (o : F6)
  | bwait (h : Hdr) (o : F6)
  | fenceSync (h : Hdr) (o : F6)
  | fenceAsync (h : Hdr) (o : F6)
  | dsend (h : Hdr) (o : F6)
  | dtw (h : Hdr) (o : F6)
  | dtd (h : Hdr) (o : F6)
  | dcommit (h : Hdr) (o : F6)
  | dtr (h : Hdr) (o : F6)
  | dmd (h : Hdr) (o : F6)
  | dabn (h : Hdr) (o : F6)
  | dret (h : Hdr) (o : F6)
  | dstat (h : Hdr) (o : F6)
  | ckpt (h : Hdr) (o : F6)
  | liter (h : Hdr) (o : F6)
  | tlk (h : Hdr) (d a : Fin 32)
  | tins (h : Hdr) (a b c : Fin 32)
  | tinv (h : Hdr) (a : Fin 32)
  | tclr (h : Hdr)
  | cfgld (h : Hdr) (o : F6)
  | swap (h : Hdr) (o : F6)
  | trmark (h : Hdr) (imm : BitVec 32) (a : Fin 32)
  -- the pen's own steps: `p` a pen, `c` a core of the package
  | slotStart (p : Nat)
  | chunkIssue (c : Nat) (k : Col)
  | rewindResume (p : Nat)
  | restartHoldExpiry (p : Nat)
  | resultReady (c : Nat)
  | loadResponse (c : Nat)
  | recompactionEnd (c : Nat)
  | remoteAccessArrive (src dst : Nat)
  | remoteWriteApply (die : Nat)
  | tokenArrival (edge : Nat)
  -- engines
  | engineAccept (c : Nat)
  | ladleExecute (die e : Nat)
  | bellwetherOp (die : Nat)
  | awaitRecheck (die n : Nat)
  | awaitTimeout (die n : Nat)
  | barrierCount (die : Nat)
  | demandUnitCommand (p : Nat)
  | demandRequest (p out : Nat)
  | outputDelivery (p out : Nat)
  | droveAccept (die ch : Nat)
  | droveStage (die ch stage : Nat)
  | droveExit (die ch : Nat)
  | droveTableOp (die ch : Nat)
  | dcommitDrained (die ch : Nat)
  | configLoad (die : Nat)
  | planeFlip (p : Nat)
  | completionTokenDelivery (c port : Nat)
  | finRecord (p : Nat)
  | penEnd (p : Nat)
  | preemptRestore (n : Nat)
  | scrubComplete (ctx : Nat)
  | levelChangeDone (die island : Nat)
  -- steps whose operands stand in the state's `bus`: the shepherd's entries in progress, the pod's messages
  | shepherdTake | launch | demand | patch | replay | exportRec | importRec | freeze | thaw | teardown | table
  | wait | signal | podCountMessage | podRelease | podFlush
  -- register writes by the host and the driver, their operands in `bus`
  | qtailWrite | queueDescWrite | contextWrite | keyInstall | inval | invalComplete | frptrWrite | hbaseWrite
  | podcfgWrite | bpctlWrite | registerWrite
  -- service and the outside world, their operands in `bus`
  | patrolScrub | powerSample | alarmClassA | alarmClassB | coldReset | warmReset | functionLevelReset | bringupStep
  | recoveryImageWrite | spdmMeasurements | flitReceive | cxlMemAccess | cxlCacheLineLoss | countMessageSend
deriving DecidableEq, Repr, Inhabited

end Sys2Proof
end

