-- ==== Sys2Proof/Machine/Formats.lean ====
section
/-! DEFINITION. The facts of the 32 format codes: code, widths, classes, scales, tile layout (R14, R20, R105, R106,
R135, R140). -/

namespace Sys2Proof

/-- The format codes in code order (R14). -/
def Fmt.all : List Fmt :=
  [.fp32, .fp64, .fp16, .bf16, .e4m3, .e5m2, .e3m2, .e2m3, .e2m1, .dm8, .int32, .int16, .int8, .uint8, .int4, .uint4,
   .mxfp8e4m3, .mxfp8e5m2, .mxfp6e3m2, .mxfp6e2m3, .mxfp4, .mxint8, .dm8b32, .e2m1b16d, .int8b16h, .int4b32h, .ternb32h,
   .e4m3t, .e5m2t, .dm8t, .int8r, .binb64h]

/-- The format of a 5-bit code (R14). -/
def Fmt.ofCode (n : Nat) : Fmt := Fmt.all.getD (n % 32) .fp32

/-- The 5-bit code of a format (R14). -/
def Fmt.code : Fmt → Nat
  | .fp32 => 0 | .fp64 => 1 | .fp16 => 2 | .bf16 => 3 | .e4m3 => 4 | .e5m2 => 5 | .e3m2 => 6 | .e2m3 => 7
  | .e2m1 => 8 | .dm8 => 9 | .int32 => 10 | .int16 => 11 | .int8 => 12 | .uint8 => 13 | .int4 => 14 | .uint4 => 15
  | .mxfp8e4m3 => 16 | .mxfp8e5m2 => 17 | .mxfp6e3m2 => 18 | .mxfp6e2m3 => 19 | .mxfp4 => 20 | .mxint8 => 21
  | .dm8b32 => 22 | .e2m1b16d => 23 | .int8b16h => 24 | .int4b32h => 25 | .ternb32h => 26 | .e4m3t => 27
  | .e5m2t => 28 | .dm8t => 29 | .int8r => 30 | .binb64h => 31

/-- Width of one element code in bits (R14). -/
def Fmt.bits : Fmt → Nat
  | .fp64 => 64
  | .fp32 | .int32 => 32
  | .fp16 | .bf16 | .int16 => 16
  | .e3m2 | .e2m3 | .mxfp6e3m2 | .mxfp6e2m3 => 6
  | .e2m1 | .int4 | .uint4 | .mxfp4 | .e2m1b16d | .int4b32h => 4
  | .ternb32h => 2
  | .binb64h => 1
  | .e4m3 | .e5m2 | .dm8 | .int8 | .uint8 | .mxfp8e4m3 | .mxfp8e5m2 | .mxint8 | .dm8b32 | .int8b16h | .e4m3t | .e5m2t
  | .dm8t | .int8r => 8

/-- Lane width of a format in the V column and of an element in a token (R105, R13). -/
def Fmt.lane (f : Fmt) : Nat := if f.bits ≤ 8 then 8 else f.bits

/-- Is the code scaled, 0x10 to 0x1F (R14)? -/
def Fmt.scaled (f : Fmt) : Bool := 16 ≤ f.code

/-- FP of R106. -/
def Fmt.isFP : Fmt → Bool
  | .fp32 | .fp16 | .bf16 => true
  | _ => false

/-- INT of R106. -/
def Fmt.isINT : Fmt → Bool
  | .int32 | .int16 | .int8 | .uint8 => true
  | _ => false

/-- NAT of R106. -/
def Fmt.isNAT (f : Fmt) : Bool := f.isFP || f.isINT

/-- Unscaled formats of 8 bits or more (R94, R165). -/
def Fmt.byteWide (f : Fmt) : Bool := !f.scaled && 8 ≤ f.bits

/-- The unscaled integer formats (R32). -/
def Fmt.unscaledInt : Fmt → Bool
  | .int32 | .int16 | .int8 | .uint8 | .int4 | .uint4 => true
  | _ => false

/-- The format in which the element code of a format is read (R14); ternary and binary codes are read apart (R22). -/
def Fmt.elem : Fmt → Fmt
  | .mxfp8e4m3 | .e4m3t => .e4m3
  | .mxfp8e5m2 | .e5m2t => .e5m2
  | .mxfp6e3m2 => .e3m2
  | .mxfp6e2m3 => .e2m3
  | .mxfp4 | .e2m1b16d => .e2m1
  | .mxint8 | .int8b16h | .int8r => .int8
  | .dm8b32 | .dm8t => .dm8
  | .int4b32h => .int4
  | f => f

/-- The scale formats (R20). -/
inductive ScaleFmt | e8m0 | fp16 | dm8 | fp32
deriving DecidableEq, Repr, Inhabited

/-- The scale format of a scaled format (R14). -/
def Fmt.scale : Fmt → ScaleFmt
  | .e2m1b16d => .dm8
  | .int8b16h | .int4b32h | .ternb32h | .binb64h => .fp16
  | .e4m3t | .e5m2t | .dm8t | .int8r => .fp32
  | _ => .e8m0

/-- Width of a scale in bytes (R20). -/
def ScaleFmt.bytes : ScaleFmt → Nat
  | .e8m0 | .dm8 => 1
  | .fp16 => 2
  | .fp32 => 4

/-- Is the scale one per 32x32 tile (R14)? -/
def Fmt.tileScaled : Fmt → Bool
  | .e4m3t | .e5m2t | .dm8t => true
  | _ => false

/-- Block size of a block-scaled format (R14); 0 for the tile and row formats and the unscaled ones. -/
def Fmt.block : Fmt → Nat
  | .e2m1b16d | .int8b16h => 16
  | .binb64h => 64
  | .mxfp8e4m3 | .mxfp8e5m2 | .mxfp6e3m2 | .mxfp6e2m3 | .mxfp4 | .mxint8 | .dm8b32 | .int4b32h | .ternb32h => 32
  | _ => 0

/-- Bytes of element data of a 32x32 tile (R135). -/
def Fmt.tileData (f : Fmt) : Nat := 128 * f.bits

/-- Scales of one 32-element row of a tile slot (R135): 0 unscaled, and 0 for a tile scale, which is one per tile. -/
def Fmt.rowScales (f : Fmt) : Nat :=
  if !f.scaled || f.tileScaled then 0 else if f.block = 16 then 2 else 1

/-- Bytes of scales in a tile slot (R135). -/
def Fmt.tileScaleBytes (f : Fmt) : Nat :=
  if !f.scaled then 0 else if f.tileScaled then 4 else 32 * f.rowScales * f.scale.bytes

/-- Bytes of a tile slot, rounded up to a multiple of 64 (R135). -/
def Fmt.slotBytes (f : Fmt) : Nat := (f.tileData + f.tileScaleBytes + 63) / 64 * 64

/-- Operand class of the matrix node in beats per k-block (R140). -/
def Fmt.kb (f : Fmt) : Nat :=
  if f.bits = 64 then 256 else if f.bits = 32 then 64 else if f.bits = 16 then 8 else if f.bits = 8 then 4 else 2

/-- May the format not be read transposed by `mma` and `mmat` (R141)? -/
def Fmt.noTranspose (f : Fmt) : Bool := f.scaled && !f.tileScaled

end Sys2Proof
end

