-- ==== Sys2Proof/Machine/State.lean ====
section
/-! DEFINITION. The state of the part, as plain data: cores, pens and their demand units, engines, the drove, the
shepherd, contexts, memory, and the model's own fields. INVENTORY.md names the rule behind every field. -/

namespace Sys2Proof.Machine

open Sys2Proof

/-- A sorted association list: keys strictly rising. Everything absent has the default of its kind. -/
abbrev Tab (α : Type) := List (Nat × α)

/-- Memory: bytes that differ from 0, by key, keys strictly rising. A key below 2^52 is a physical address (R340, R365);
2^52 plus a near-space address is a scratchpad byte (R232). (log 3) -/
abbrev Mem := List Host.Cell

/-- One token beat (R49, R51, R170, R220). `tick` and `org` say which pen's tick pushed it (R186, R371), `col` which column (R315). -/
structure Tok where
  data : Chunk := 0
  pred : BitVec 32 := 0
  tag : Fin 16 := 0
  raw : Bool := false
  inval : Bool := false
  tick : Int := 0
  org : Option Nat := none
  col : Col := .x
  /-- the command a completion token answers (R292) -/
  cmd : Option Nat := none
deriving DecidableEq, Repr, Inhabited

/-- An rx port: tokens in the buffer, the oldest first; the first `taken` are popped but not final (R49). -/
structure Rx where
  q : List Tok := []
  taken : Nat := 0
deriving DecidableEq, Repr, Inhabited

/-- The state word of a ring register (R136); TAIL is computed. -/
structure Ring where
  cap : BitVec 8 := 0
  count : BitVec 8 := 0
  head : BitVec 8 := 0
  fillrow : BitVec 5 := 0
  fmt : Fmt := .fp32
  kbm1 : BitVec 6 := 0
  base : BitVec 14 := 0
deriving DecidableEq, Repr, Inhabited

/-- One entry of the tag table (R188, R240). -/
structure TagEntry where
  valid : Bool := false
  key : BitVec 48 := 0
  slot : BitVec 16 := 0
deriving DecidableEq, Repr, Inhabited

/-- The bypass buffer (R146): the tile slot's bytes and format. -/
structure Bypass where
  /-- a tile has been drained into it -/
  valid : Bool := false
  fmt : Fmt := .fp32
  /-- the accumulator its tile came from (R153) -/
  src : Fin 8 := 0
  data : List Byte := []
deriving DecidableEq, Repr, Inhabited

/-- Why a pen stopped (R59). -/
inductive Cause | flagTrap | alias_ | trap | brk | machineCheck | timingStuck
deriving DecidableEq, Repr, Inhabited

/-- One effect of a result on its ready beat (R43). -/
inductive Write
  | s (r : Fin 32) (v : W64)
  | v (r : Fin 32) (data mask : VWord)
  | q (r : Fin 16) (data mask : Chunk)
  | b (r : Fin 16) (v : Chunk)
  | bw (r : Fin 16) (w : Fin 4) (v : W64)
  | csr (n : Nat) (v : W64)
  | acc (r : Fin 8) (v : AccWord)
  /-- the low 4 KiB only (R133) -/
  | accLo (r : Fin 8) (v : BitVec 32768)
  | ring (g : Fin 8) (r : Ring)
  | ringAdv (g : Fin 8) (n : Nat)
  | ringPop (g : Fin 8) (n : Nat)
  /-- FILLROW of a `gfill` (R139) -/
  | ringRow (g : Fin 8) (row : BitVec 5)
  | push (p : Fin 8) (t : Tok)
  /-- own scratchpad bytes from an offset -/
  | mem (ofs : Nat) (bytes : List Byte)
  | bypRow (fmt : Fmt) (src : Fin 8) (ofs : Nat) (bytes : List Byte)
  | tagSet (i : Fin 64) (e : TagEntry)
  | tagInv (key : BitVec 48)
  | tagClr
  | oStat (o : Fin 4) (v : W64)
  | oPiv (o : Fin 4) (v : BitVec 160)
  /-- a recompaction starts on this beat, with the pending reflector: v, tau, pivot (R157) -/
  | recomp (o : Fin 4) (pend : Option (VWord × BitVec 32 × Nat))
  /-- the pen stops before its next slot (R369), with the value an event carries -/
  | stop (cause : Cause) (code : W64)
deriving DecidableEq, Repr, Inhabited

/-- How the bytes of a load become writes (R128, R149, R158, R162, R95). -/
inductive LoadKind
  | vchunk (d : VDst) (ty : Fmt) (chunk : Nat)
  | scalar (d : Fin 32) (ty : Fmt)
  | tx (p : Fin 8) (ty : Fmt)
  | acc (ad : Fin 8) (ty : Fmt)
  | oa (o : Fin 4)
  | desc (b : Fin 16)
deriving DecidableEq, Repr, Inhabited

/-- One element of an outstanding load: its index and the bytes once they have returned, `none` before. A poisoned or
faulting response is `bad` (R95, R128). -/
structure LoadElem where
  i : Nat
  got : Option (List Byte) := none
  bad : Bool := false
deriving DecidableEq, Repr, Inhabited

/-- The load behind an in-flight result (R43, R45, R55): `resp` beats of its nominal latency still to run, `ext` beats of
the extension already used. -/
structure Load where
  kind : LoadKind
  budget : Nat
  elems : List LoadElem
  resp : Nat := 0
  ext : Nat := 0
deriving DecidableEq, Repr, Inhabited

/-- An in-flight result (R43, R62): the word that produced it, its program order, pen beats to its ready beat, and what it
writes. `old`: issued before the last restart point, so that it also lands in the snapshot (R53, R54). -/
structure Flight where
  col : Col
  slot : Nat
  it : BitVec 32
  ord : Nat
  sub : Nat := 0
  remain : Nat
  old : Bool := false
  writes : List Write := []
  flags : BitVec 5 := 0
  load : Option Load := none
deriving DecidableEq, Repr, Inhabited

/-- A word that goes on over several beats: later chunks of a V word (R40), later pops of `recv.v`, `drop` and `gfill`
(R139, R160). Operands read on the issue beat are kept: the mask, whole sources, scalars, the dither phase. -/
structure Stream where
  col : Col
  instr : Instr
  slot : Nat
  it : BitVec 32
  ord : Nat
  next : Nat
  total : Nat
  mask : Chunk := 0
  w1 : VWord := 0
  w2 : VWord := 0
  x1 : W64 := 0
  x2 : W64 := 0
  /-- the predicate register or buffer record that is an operand -/
  x3 : Chunk := 0
  phase : BitVec 16 := 0
  /-- chunks collected so far and their lane mask, for words whose result waits for the last chunk -/
  acc1 : VWord := 0
  acc2 : VWord := 0
  lanes : Chunk := 0
  flags : BitVec 5 := 0
  old : Bool := false
deriving DecidableEq, Repr, Inhabited

/-- An asynchronous command or synchronisation word as it leaves a core, its registers captured (R166). `host` names the
queue entry of a command the shepherd posted (R322). -/
structure Cmd where
  id : Nat
  core : Nat := 0
  pen : Nat := 0
  ctx : Nat := 0
  tick : Int := 0
  word : Instr := .slotStart 0
  o : F6 := {}
  cmd : W64 := 0
  a : W64 := 0
  b : W64 := 0
  sync : Bool := false
  /-- the word was inactive: nothing is sent and the token is all zeros (R50) -/
  zero : Bool := false
  /-- program order, slot and iteration of its word -/
  ord : Nat := 0
  slot : Nat := 0
  it : BitVec 32 := 0
  host : Option (Nat × Nat) := none
  /-- rgn of the issuing pen when the word issued (R314) -/
  rgn : W64 := 0
  /-- the ladle record captured at release (R174); empty before -/
  ldl : List Byte := []
  /-- bytes read in near space at release for engines that read them (R183, R184) -/
  img : List Byte := []
  /-- earlier commands whose tokens had not been popped when the word issued (R292) -/
  opens : List Nat := []
  /-- the chain that built the command (R274), and whether its faults count against no tick (R305) -/
  chain : Option (Nat × Nat) := none
  noTick : Bool := false
  /-- the clock of an arrival's release at package scope, which every die must have applied before it counts (R291) -/
  clock : List Nat := []
deriving DecidableEq, Repr, Inhabited

/-- A commit-queue entry (R56). The addresses of a store are absolute; `prel` says that its record named them relative to the pen, so
that they follow it (R234). -/
inductive Effect
  | push (p : Fin 8) (t : Tok)
  | store (elems : List (Nat × List Byte)) (prel : Bool := false)
  | cmd (c : Cmd)
deriving DecidableEq, Repr, Inhabited

/-- `ord` and `sub` give the program order of the entry, `col` its word's column. -/
structure CqEntry where
  ord : Nat
  sub : Nat := 0
  col : Col := .x
  eff : Effect
deriving DecidableEq, Repr, Inhabited

/-- The restart snapshot of one core (R53). -/
structure Snap where
  s : Vector W64 32 := Vector.replicate 32 0
  q : Vector Chunk 16 := Vector.replicate 16 0
  g : Vector Ring 8 := Vector.replicate 8 {}
  dith : BitVec 16 := 0
  /-- words going on over the restart point -/
  streams : List Stream := []
deriving DecidableEq, Repr, Inhabited

/-- A slot-word table of one plane of one core: key 32·column + slot; absent words are all-zero (R38, R84). -/
abbrev Plane := Tab SlotWord

/-- One core (R38, R52). -/
structure Core where
  s : Vector W64 32 := Vector.replicate 32 0
  v : Vector VWord 32 := Vector.replicate 32 0
  q : Vector Chunk 16 := Vector.replicate 16 0
  a : Vector AccWord 8 := Vector.replicate 8 0
  /-- status words of o0 to o3 (R152): SGN all ones -/
  oStat : Vector W64 4 := Vector.replicate 4 0xFFFFFFFF00000000
  oPiv : Vector (BitVec 160) 4 := Vector.replicate 4 0
  g : Vector Ring 8 := Vector.replicate 8 {}
  b : Vector Chunk 16 := Vector.replicate 16 0
  rx : Vector Rx 8 := Vector.replicate 8 {}
  /-- released pushes waiting for room (R49, R215) -/
  tx : Vector (List Tok) 8 := Vector.replicate 8 []
  fsr : BitVec 5 := 0
  fen : BitVec 5 := 0
  dith : BitVec 16 := 0
  pal : Vector (BitVec 5) 16 := Vector.replicate 16 0
  evc : Vector W64 8 := Vector.replicate 8 0
  /-- what each counter has counted on the beat `evcT` (R316) -/
  evcAdd : Vector W64 8 := Vector.replicate 8 0
  evcT : Nat := 0
  evs : Vector W64 8 := Vector.replicate 8 0
  /-- the selects as they stood before this beat's writes, and that beat (R316) -/
  evsPrev : Vector W64 8 := Vector.replicate 8 0
  evsT : Nat := 0
  tags : Tab TagEntry := []
  byp : Bypass := {}
  /-- beats the matrix node stays busy, and whether with an orthogonal operation (R134) -/
  busy : Nat := 0
  busyOa : Bool := false
  /-- the operation was issued before the last restart point (R306) -/
  busyOld : Bool := false
  /-- a recompaction: beats left and its result (R157) -/
  recomp : Option (Nat × Flight) := none
  live : Plane := []
  shadow : Plane := []
  flights : List Flight := []
  streams : List Stream := []
  cq : List CqEntry := []
  /-- released commands no engine has taken yet, in release order (R166) -/
  out : List Cmd := []
  snap : Snap := {}
  /-- program order of the next word -/
  ord : Nat := 0
  /-- flags raised on the beat `raisedT`, for an `mtc` to fsr of that beat (R37) -/
  raised : BitVec 5 := 0
  raisedT : Nat := 0
  /-- flags that took a flag trap on that beat (R54) -/
  trapF : BitVec 5 := 0
  /-- ladle engine assigned at placement (R241, R328) -/
  eng : Nat := 0
  /-- generation of the most recent `arrive` by barrier key (R181) -/
  arrGen : Tab Nat := []
deriving DecidableEq, Repr, Inhabited

/-- Reasons of a hold, in the stall hash's order (R48). -/
inductive Hold | sync | ring | portEmpty | portFull | oa | noDemand | freeze | restart
deriving DecidableEq, Repr, Inhabited

/-- Where an output's tokens go (R205, R215, R329). -/
inductive Dest
  | none_
  | sink
  | edge (n : Nat)
deriving DecidableEq, Repr, Inhabited

/-- Who asked for a delivery (R208): a consumer's input, or a posted demand. -/
inductive Asker
  | edge
  | dmd (id : Nat)
deriving DecidableEq, Repr, Inhabited

/-- Intervals of ticks, rising and apart. -/
abbrev Ivs := List (Nat × Nat)

/-- One queued delivery request: the ticks still to deliver, who asked, and what has been lost or withdrawn (R185, R208). -/
structure Req where
  ticks : Ivs
  asker : Asker
  lost : Nat := 0
  firstLost : Nat := 0
  retracted : Bool := false
  /-- beats already delivered of the first tick, when it is replayed beat by beat -/
  done : Nat := 0
  /-- its place in the order in which requests reached the pen's outputs (R212) -/
  seq : Nat := 0
deriving DecidableEq, Repr, Inhabited

/-- An output of a pen and its demand unit's state (R205, R208 to R211, R215). -/
structure Output where
  port : Fin 8
  dest : Dest := .none_
  w : Nat := 0
  len : Nat := 0xFFFFFFFFFFFF
  /-- beats one tick pushes and the window's offset, for each core in pen-relative order, fixed at LAUNCH (R210) -/
  ks : List Nat := []
  bases : List Nat := []
  h : Nat := 0
  queue : List Req := []
  /-- requests waiting in the demand net (R208) -/
  net : List Req := []
  pend : Ivs := []
  /-- ticks to be delivered as lost when their turn comes (R220) -/
  lost : Ivs := []
  /-- the tick in progress is delivered as it is released (R371) -/
  streaming : Bool := false
  /-- beats released so far in the current tick, per pen-relative core (R371) -/
  rel : List Nat := []
deriving DecidableEq, Repr, Inhabited

/-- Range-transfer modes (R206). -/
inductive RtfMode | affine | stateful | cached | all
deriving DecidableEq, Repr, Inhabited

/-- An input of a pen (R206, R207, R213, R231). -/
structure Input where
  port : Fin 8
  mode : RtfMode := .affine
  mul : Nat := 1
  div : Nat := 1
  off : Int := 0
  hlo : Nat := 0
  hhi : Nat := 0
  edge : Nat := 0
  /-- upper end of what has been asked for -/
  asked : Nat := 0
deriving DecidableEq, Repr, Inhabited

/-- Kinds of ticks of a run (R213). -/
inductive TickKind | lead | warm | demanded
deriving DecidableEq, Repr, Inhabited

/-- A run in progress (R212, R213). -/
structure Run where
  first : Int
  s : Nat
  n0 : Nat
  n1 : Nat
deriving DecidableEq, Repr, Inhabited

/-- The demand unit of a pen (R205 to R231). -/
structure Demand where
  outs : List Output := []
  ins : List Input := []
  run : Option Run := none
  last : Option Int := none
  /-- abandoned ticks not yet requeued (R186) -/
  abandoned : List Int := []
  /-- producer pens and ticks whose tokens this pen has popped, with its own tick then (R186) -/
  pops : List (Nat × Int × Int) := []
  curAbandoned : Bool := false
  /-- an abandoned tick has altered the registers since the last restore (R225) -/
  spoiled : Bool := false
  curLost : Bool := false
  w : Nat := 0
  /-- the operator has a `.state` (R217) -/
  keeps : Bool := false
  ckptWord : W64 := 0
  /-- checkpoint log: label and image (R217, R218) -/
  log : Tab (List Byte) := []
  /-- the offsets of poison in the images of the log, by label (R353, log 102) -/
  logBad : Tab (List Nat) := []
  /-- commands accepted and not yet performed, at most 16 (R166) -/
  inbox : List Cmd := []
  /-- commands waiting for a tick boundary: `ckpt`, `lexp`, `limp` (R176, R221) -/
  atBoundary : List Cmd := []
  /-- demands posted and not completed, with the index of their output -/
  posted : List (Cmd × Nat) := []
  /-- fault an access of the demand unit is parked on (R344) -/
  parked : Option Nat := none
deriving DecidableEq, Repr, Inhabited

/-- What a frozen pen waits for (R62, R101, R347, R369). -/
inductive Frozen | running | wave | reporting | cast
deriving DecidableEq, Repr, Inhabited

/-- A stop on its way (R59, R101, R369): what tstat and the event say, the beat it was taken, and whether a result raised it
after its word had issued. -/
structure Stop where
  tstat : W64
  code : W64 := 0
  value : W64 := 0
  time : Nat := 0
  late : Bool := false
deriving DecidableEq, Repr, Inhabited

/-- A pen (R39, R57 to R61). -/
structure Pen where
  live : Bool := false
  qid : Nat := 0
  seq : Nat := 0
  ctx : Nat := 0
  pid : BitVec 16 := 0
  die : Nat := 0
  row : Nat := 0
  col : Nat := 0
  /-- height and width in cores -/
  h : Nat := 1
  w : Nat := 1
  n : Nat := 1
  lens : List Nat := [1]
  shN : Nat := 1
  shLens : List Nat := [1]
  liveStat : W64 := 0
  shStat : W64 := 0
  slot : Nat := 0
  beat : Nat := 0
  started : Bool := false
  it : BitVec 32 := 0
  iter : BitVec 32 := 1
  iterNext : BitVec 32 := 1
  tick : Int := 0
  /-- a tick is in progress -/
  inTick : Bool := false
  rpc : BitVec 32 := 0
  /-- restarts of the interval; lbs shows at most 255 (R55) -/
  cons : Nat := 0
  shift : Nat := 0
  tstat : W64 := 0
  /-- ids on the region stack, the bottom first, and those above its top that no push has overwritten (R100) -/
  rgn : List (BitVec 16) := []
  rgnGone : List (BitVec 16) := []
  rgnOv : Nat := 0
  /-- what the slot in progress does to the stack: push an id, or pop (R100) -/
  rgnPend : Option (Option (BitVec 16)) := none
  /-- BPCTL as of the last slot boundary (R310) -/
  bp : W64 := 0
  snapRgn : Nat := 0
  snapRgnOv : Nat := 0
  rsSlot : Nat := 0
  rsIt : BitVec 32 := 0
  rewind : Nat := 0
  hold : Option Hold := none
  ran : Bool := false
  /-- the next slot is a restart point because of a HOLD 10 word (R53) -/
  afterSync : Bool := false
  /-- the restart slot starts again after a rewind: no restart point passes (R54, R55) -/
  resuming : Bool := false
  /-- synchronisation words sent and not released, and the cores that have sent the one of this interval (R53, R167) -/
  syncs : List Cmd := []
  sent : List Nat := []
  frozen : Frozen := .running
  /-- the stop that takes effect before the next slot (R101, R153, R369), and of a beat's stops the one that no replay would raise again -/
  stop : Option Stop := none
  stopKept : Option Stop := none
  /-- beats on which the pen-wide CSRs were last written (R99) -/
  csrT : Tab Nat := []
  /-- active `fin` words of this interval: code by pen-relative core; the recorded one with its beat (R102, R372) -/
  finNew : List (Nat × BitVec 32) := []
  finRec : Option (BitVec 32) := none
  finTime : Nat := 0
  finReported : Bool := false
  ended : Bool := false
  swap : Option Cmd := none
  /-- commands released and not completed (R102) -/
  cmds : List Nat := []
  /-- beats a checkpoint or a restore still holds the pen (R217, R219) -/
  ckpt : Nat := 0
  du : Demand := {}
  tdt : W64 := 0
  sbuf : W64 := 0
  ssize : W64 := 0
  trk : Nat := 0
  /-- template of the pen in its image -/
  tmpl : Nat := 0
  /-- the cores of a pen whose cores a casting has released, and whether its scratchpad went with it (R346, R347, log 20) -/
  held : List Core := []
  withPad : Bool := false
  /-- loaded since the casting was written: the shadow plane, a swap token (R336); and it reported when it was pre-empted (R325) -/
  shNew : Bool := false
  swapNew : Bool := false
  reports : Bool := false
deriving DecidableEq, Repr, Inhabited

/-- An edge between two pens (R215, R329). -/
structure Edge where
  src : Nat
  out : Nat
  dst : Nat
  inp : Nat
  full : Nat := 64
  empty : Nat := 63
  /-- per consumer core: occupancy counts tokens in flight and in the rx buffer; open flag; tokens on the way -/
  isOpen : List Bool := []
  flight : List (List Tok) := []
deriving DecidableEq, Repr, Inhabited

/-- Who writes or reads memory (R285): the core whose command it is (1024 the host, 1025 and up another member of the pod by its
number), the ladle engine that performs it, the command, the chain that built it, and the pod tag of its context, 0 none. -/
structure Agent where
  core : Nat
  eng : Option Nat := none
  cmd : Option Nat := none
  chain : Option (Nat × Nat) := none
  tag : Nat := 0
deriving DecidableEq, Repr, Inhabited

/-- A write that some agents may still read around (R287, R288): who made it, its die's clock then (R291), the bytes it replaced
by key, and the scopes at which it has been released with who released it. `seq` is the release at package scope or wider that covers it, 0
none, and `by_` the die of that release. `seen` are the cores that have acquired it (R290), `read` the ladle engines that have read it
(R288), `flush` the flushes, member and number, that it arrived before (R364). -/
structure ViewWrite where
  agent : Agent
  stamp : List Nat := []
  seq : Nat := 0
  by_ : Nat := 0
  olds : List (Nat × Byte) := []
  rel : List (Nat × Agent) := []
  seen : List Nat := []
  read : List Nat := []
  flush : List (Nat × Nat) := []
deriving DecidableEq, Repr, Inhabited

/-- A near-space message between cores or to a die's memory port (R235). -/
structure Msg where
  src : Nat
  dst : Nat
  /-- 0 load, 1 store -/
  store : Bool := false
  addr : Nat
  bytes : List Byte := []
  len : Nat := 0
  ord : Nat := 0
  sub : Nat := 0
  i : Nat := 0
deriving DecidableEq, Repr, Inhabited

/-- A completion token on its way to a CP port (R170, R172), or a completion for a queue entry. -/
structure Done where
  cmd : Cmd
  /-- the engine, its die and its number there -/
  eng : Nat
  die : Nat := 0
  inst : Nat := 0
  code : Nat := 0
  detail : BitVec 32 := 0
  value : W64 := 0
  e4 : BitVec 32 := 0
  e5 : BitVec 32 := 0
  e6 : BitVec 32 := 0
  e7 : BitVec 32 := 0
  /-- the clock up to which every die must have applied the writes of a release before the token is delivered (R291); empty none -/
  clock : List Nat := []
  /-- a POISON that answers a chunk which does not decode (log 99), no uncorrectable error -/
  undec : Bool := false
deriving DecidableEq, Repr, Inhabited

/-- A command in an engine, with its progress when a fault has parked it (R344). -/
structure Job where
  cmd : Cmd
  /-- elements already read: code, scale, and 0 or how the read failed; index-list entries; elements already written -/
  got : List (Nat × Nat × Nat) := []
  list : List Nat := []
  pos : Nat := 0
  /-- fault record index it waits for -/
  parked : Option Nat := none
  /-- bits written so far, and destination chunks that could not be merged: address, and whether by poison (R256) -/
  wrote : Nat := 0
  bad : List (Nat × Bool) := []
  /-- source chunks that failed when they were read: virtual page, and whether by poison (R256); requests returned so far (R314) -/
  fails : List (Nat × Bool) := []
  noted : Nat := 0
  /-- places of the word a waiter watches, and the values written there since it was last tested (R179) -/
  watch : List (Nat × Nat) := []
  seen : List Nat := []
  /-- a fence has released, up to a clock every die must have applied (R182, R291) -/
  clock : Option (List Nat) := none
  /-- its place in the bellwether's SRAM holds an uncorrectable error (R352) -/
  upset : Bool := false
deriving DecidableEq, Repr, Inhabited

/-- A drove record in a chain (R263, R264, R270): header fields, f0 to f15, the next stage, the beat it was accepted, the
`dsend` it came by with its context, core, pen and tick, and the stage and value of its first fault. -/
structure DRec where
  tag : BitVec 16 := 0
  dest : BitVec 12 := 0
  stat : BitVec 8 := 0
  rc : Nat := 0
  ver : Nat := 0
  f : List (BitVec 32) := []
  stage : Nat := 0
  t0 : Nat := 0
  id : Nat := 0
  ctx : Nat := 0
  pen : Nat := 0
  tick : Int := 0
  fst : Nat := 0
  fval : W64 := 0
  /-- an append at pod scope whose slot is written: its command and the WIDX it found, which rises once the flush is answered (R275,
  R364) -/
  app : Option (Cmd × Nat) := none
deriving DecidableEq, Repr, Inhabited

/-- An entry of a stage (R267): image, the versions it is valid in (VM), counter, and an uncorrectable error (R352). -/
structure DEnt where
  img : BitVec 512 := 0
  vm : BitVec 2 := 0
  cnt : BitVec 32 := 0
  bad : Bool := false
deriving DecidableEq, Repr, Inhabited

/-- One stage of a chain (R265 to R267): its configuration image in both versions, entries by index, miss counter. -/
structure DStage where
  cfg : Vector (BitVec 512) 2 := Vector.replicate 2 0
  ents : Tab DEnt := []
  miss : BitVec 32 := 0
deriving DecidableEq, Repr, Inhabited

/-- A drove chain (R262 to R282). -/
structure Chain where
  owner : Option Nat := none
  /-- the current version -/
  ver : Fin 2 := 0
  stages : Vector DStage 12 := Vector.replicate 12 {}
  routes : Vector (Tab (BitVec 512)) 2 := Vector.replicate 2 []
  /-- routes with an uncorrectable error, by version (R352) -/
  badRt : Vector (List Nat) 2 := Vector.replicate 2 []
  ctl : Vector (BitVec 512) 2 := Vector.replicate 2 0
  /-- records sent and not yet accepted; recirculating; in the stages; past stage 11 (R281) -/
  waiting : List DRec := []
  recirc : List DRec := []
  recs : List DRec := []
  exits : List DRec := []
  /-- `dsend` commands with records still to be accepted -/
  sends : List (Cmd × Nat) := []
  ops : List Cmd := []
  /-- the commit whose token has not been delivered, and whether the old-version records have left (R279) -/
  commit : Option Cmd := none
  settled : Bool := false
  /-- beat of the last entry into stage 0 -/
  acc : Option Nat := none
  quar : Bool := false
deriving DecidableEq, Repr, Inhabited

/-- A barrier counter (R181): expected, count, generation, arrivals waiting with their ordering. -/
structure Barrier where
  expected : Nat := 0
  count : Nat := 0
  gen : Nat := 0
  waiting : List Cmd := []
deriving DecidableEq, Repr, Inhabited

/-- One die. -/
structure Die where
  ladle : Vector (List Job) 16 := Vector.replicate 16 []
  /-- memory requests an engine has issued, for the tags of R314 -/
  trail : Vector Nat 16 := Vector.replicate 16 0
  bell : List Job := []
  /-- waiting awaits and liters (R179, R187), and barrier arrivals on their way -/
  waits : List Job := []
  arrivals : List Cmd := []
  bars : Tab Barrier := []
  chains : Vector Chain 4 := Vector.replicate 4 {}
  loader : List Cmd := []
  /-- vector clock (R291) and the writes of device and host memory its view does not hold yet, the oldest first -/
  vc : Vector Nat 4 := Vector.replicate 4 0
  remote : List ViewWrite := []
  sprctl : Vector W64 8 := Vector.replicate 8 0x10
  devc : Vector W64 16 := Vector.replicate 16 0
  devs : Vector W64 16 := Vector.replicate 16 0
  /-- key word, count, rgn on the last counted beat (R315) -/
  stall : Tab (W64 × Nat × W64) := []
  /-- the service counters word CE, UE, POIS (R354) and the alarm log (R356) -/
  errs : W64 := 0
  almlog : W64 := 0
  /-- levels the power controller requires of the die's islands, those they run at, and which are changing (R359, R360) -/
  req : Vector Nat 32 := Vector.replicate 32 0
  levels : Vector Nat 32 := Vector.replicate 32 0
  changing : Vector Bool 32 := Vector.replicate 32 false
deriving DecidableEq, Repr, Inhabited

/-- A queue (R319, R320, R324). -/
structure Queue where
  w0 : W64 := 0
  w1 : W64 := 0
  w2 : W64 := 0
  tail : W64 := 0
  taken : W64 := 0
  compseq : W64 := 0
  /-- entries completed above COMPSEQ -/
  comp : List Nat := []
  clock : Nat := 0
  /-- eligible when last looked at; the fault the shepherd's read of the next entry is parked on (R344) -/
  elig : Bool := false
  parked : Option Nat := none
deriving DecidableEq, Repr, Inhabited

/-- An entry in progress (R322, R323). -/
structure Entry where
  qid : Nat
  seq : Nat
  ctx : Nat := 0
  level : Nat := 0
  w : List W64 := []
  /-- steps done; what it waits for -/
  phase : Nat := 0
  aux : Nat := 0
  pens : List Nat := []
  exit : Option (BitVec 32) := none
  /-- the fault an access of the shepherd is parked on (R344) -/
  parked : Option Nat := none
  /-- code, detail, AUX and VALUE of an entry that has completed and is still to be written -/
  res : Option (Nat × Nat × Nat × W64) := none
  /-- the placement, images and castings an entry works on -/
  nums : List Nat := []
  va : Nat := 0
deriving DecidableEq, Repr, Inhabited

/-- A captured graph (R331): launch block words, versions with the instances bound. -/
structure Graph where
  qid : Nat
  seq : Nat
  ctx : Nat
  blk : List W64
  newest : Nat := 0
  /-- instances bound to a version that have not completed: version, queue and number -/
  bound : List (Nat × Nat × Nat) := []
deriving DecidableEq, Repr, Inhabited

/-- A context (R337 to R339, R310, R348 to R350). -/
structure Ctx where
  w : Vector W64 8 := Vector.replicate 8 0
  status : W64 := 0
  bp : W64 := 0
  /-- range entries in force (R339): q0 to q3 each -/
  ranges : List (W64 × W64 × W64 × W64) := []
  /-- the entries read as poison, each by the number of entries that follow it (R352, log 122) -/
  badRanges : List Nat := []
  quar : Bool := false
  scrub : List (Nat × Nat) := []
  scrubPos : Nat := 0
  tearing : Option (Nat × Nat) := none
deriving DecidableEq, Repr, Inhabited

/-- A fault record and the access parked on it (R342 to R345). -/
structure FaultRec where
  idx : Nat
  w : List W64
  pen : Option (Nat × Int) := none
  inBuf : Bool := true
deriving DecidableEq, Repr, Inhabited

/-- The operands of an outside event, or of a step of the shepherd. -/
structure Bus where
  a : Nat := 0
  b : Nat := 0
  c : Nat := 0
  v : W64 := 0
  w : W64 := 0
  data : List Byte := []
  nums : List Nat := []
deriving DecidableEq, Repr, Inhabited

/-- The word being executed: core of the package, column, slot, and the iteration in which it issued. -/
structure Cur where
  core : Nat := 0
  col : Col := .s
  slot : Nat := 0
  it : BitVec 32 := 0
deriving DecidableEq, Repr, Inhabited

/-- A row of the beat's agenda (log 7). -/
inductive Turn
  | word (core : Nat) (col : Col)
  | ev (i : Instr) (b : Bus)
deriving DecidableEq, Repr, Inhabited

/-- A request to a pod member under way (R365): the command it serves, its flit, and the answer's code and detail. -/
structure PeerReq where
  cmd : Nat
  flit : List Nat
  ans : Option (Nat × Nat) := none
deriving DecidableEq, Repr, Inhabited

/-- An arrival at a pod barrier (R366): its member, its command, the number it names, and whose it is. -/
structure PodArr where
  member : Nat
  id : Nat
  num : Nat
  ctx : Nat := 0
  pid : Nat := 0
  rel : Nat := 0
  die : Nat := 0
deriving DecidableEq, Repr, Inhabited

/-- A count message (R366): the barrier's key, whether it withdraws, and its arrivals. -/
structure CountMsg where
  key : Nat
  back : Bool := false
  arrs : List PodArr := []
deriving DecidableEq, Repr, Inhabited

/-- A release at pod scope under way (R364): the clock of its package release, whether its flush has gone out, and the members
that have still to answer. -/
structure Flush where
  clock : List Nat := []
  sent : Bool := false
  left : List Nat := []
deriving DecidableEq, Repr, Inhabited

/-- Service and pod state (R354 to R368). -/
structure Service where
  plim : Nat := 3000
  tthr : Nat := 100
  talm : Nat := 110
  floor : Nat := 0
  boot : Nat := 0
  /-- the scrubs that a function-level reset has left go before any enable (R350) -/
  scrubFirst : Bool := false
  status : W64 := 0
  recovery : Bool := false
  flash : List Byte := []
  fusedKey : BitVec 256 := 0
  /-- the fused secret's number, and the identity key that firmware has derived from it (R358) -/
  secret : Nat := 0
  ident : Nat := 0
  fw : List Byte := []
  meas : List Byte := []
  podcfg : W64 := 0xFFFF
  /-- EXPWIN0 to EXPWIN15, three words each (R365) -/
  expwin : Vector W64 48 := Vector.replicate 48 0
  /-- flits delivered, by link; flushes of other members not yet answered: member, number, tag, links they came in on (R362, R364) -/
  flitNext : Tab Nat := []
  flushIn : List (Nat × Nat × Nat × List Nat) := []
  resend : List Nat := []
  /-- flits sent: link, kind, and what the kind needs; a link sends them in order, each with its CRC (R362, log 31) -/
  flitOut : List (List Nat) := []
  /-- flits sent again: link, number, and the 64 bytes (R362) -/
  again : List (Nat × Nat × List Byte) := []
  /-- requests to members that engines wait for, by number (R365) -/
  peers : Tab PeerReq := []
  /-- count messages at the pod switch not yet applied, in order of age (R366) -/
  countOut : List CountMsg := []
  /-- the pod switch's counters by key: the arrivals counted and the expected number (R366) -/
  podBars : Tab (List PodArr × Nat) := []
  /-- pod arrivals gathered and not yet sent, and withdrawals of those sent (R366) -/
  gather : Tab (List PodArr × List PodArr) := []
  /-- releases at pod scope, twice the command's number, and one more for its own writes (R364) -/
  flush : Tab Flush := []
deriving DecidableEq, Repr, Inhabited

/-- The state of the part. -/
structure State where
  cores : Tab Core := []
  pens : List Pen := []
  edges : List Edge := []
  mem : Mem := []
  /-- poisoned byte keys (R352, R353) -/
  poison : List Nat := []
  mesh : List Msg := []
  /-- ladle writes of near space performed at core scope only (R287), the oldest first -/
  late : List ViewWrite := []
  /-- responses on their way back to the requester (R43) -/
  resps : List Msg := []
  dones : List Done := []
  dies : Vector Die 4 := Vector.replicate 4 {}
  queues : Tab Queue := []
  lastQid : Vector Nat 8 := Vector.replicate 8 65535
  entries : List Entry := []
  graphs : List Graph := []
  ctxs : Tab Ctx := []
  /-- key slots: the key and the context it serves, 4096 none (R348) -/
  keys : Tab (Nat × Nat) := []
  /-- the key under which a byte of device memory was stored, by its address; plain where absent (R348) -/
  crypt : Tab Nat := []
  /-- cores and key slots under quarantine, with the context they were of (R349) -/
  quarCores : List (Nat × Nat) := []
  quarSlots : List (Nat × Nat) := []
  fbase : W64 := 0
  fwptr : W64 := 0
  frptr : W64 := 0
  faults : List FaultRec := []
  hbase : W64 := 0
  invseq : W64 := 0
  /-- invalidations in progress (R341) -/
  invs : List W64 := []
  /-- translation cache: context, virtual page, leaf as page address plus attributes (R341) -/
  tlb : List (Nat × Nat × Nat) := []
  hostLines : List Nat := []
  svc : Service := {}
  time : Nat := 0
  /-- the model's own fields: the beat's rows still to run, the row's place and operands, the external events to come, the
  counter the free values are applied to -/
  todo : List Turn := []
  cur : Cur := {}
  bus : Bus := {}
  inputs : List (Nat × Instr × Bus) := []
  fresh : Nat := 0
deriving DecidableEq, Repr, Inhabited

/-- Why a run of the model stops. -/
inductive Fault
  /-- Raised by `step` when the word at a pen's slot is one that R82 rejects. Safe: the loader lets no such word issue
  (R83), so only a state no load can make gets here. -/
  | rejectedWord (reason : Nat)
deriving DecidableEq, Repr, Inhabited

/-- Why the model refuses. -/
inductive Refusal
  /-- An instruction without a meaning yet, by the table's mnemonic. Safe: nothing is claimed of it. -/
  | notModelled (mnemonic : String)
deriving DecidableEq, Repr, Inhabited

/-- The part right after reset (R57, R367): no pen placed, no queue or context enabled, memory empty; values the spec
states no reset for are 0 (logs 1, 2). -/
def State.reset : State := {}

end Sys2Proof.Machine
end

