-- ==== Sys2Proof/Machine/Flags.lean ====
section
/-! DEFINITION. The floating-point flags of fsr and fen (R35, R36), and the words that read and write tstat, lbs and the
other status registers (R26, R58, R59, R60, R61, R309). -/

namespace Sys2Proof.Machine

open Sys2Proof

/-- Flags in the layout of fsr (R35). -/
abbrev Flags := BitVec 5

def Flags.iv : Flags := 16
def Flags.dz : Flags := 8
def Flags.of : Flags := 4
def Flags.uf : Flags := 2
def Flags.nx : Flags := 1
def Flags.none : Flags := 0

/-- A flag when a condition holds. -/
def Flags.when (b : Bool) (f : Flags) : Flags := if b then f else 0

/-- The CAUSE code of tstat (R59). -/
def Cause.code : Cause → Nat
  | .flagTrap => 1 | .alias_ => 2 | .trap => 3 | .brk => 4 | .machineCheck => 5 | .timingStuck => 6

def colCode : Col → Nat
  | .s => 0 | .v => 1 | .m => 2 | .x => 3

/-- tstat without FRZ (R59). -/
def tstatWord (cause : Cause) (core : Nat) (col : Col) (slot : Nat) (it : BitVec 32) : W64 :=
  BitVec.ofNat 64 (cause.code * 2 ^ 48 + core % 256 * 2 ^ 40 + colCode col * 2 ^ 38 + slot % 32 * 2 ^ 33 + it.toNat)

/-- The FRZ bit of tstat (R59). -/
def tstatFrz : W64 := BitVec.ofNat 64 (2 ^ 32)

/-- lbs (R61). -/
def lbsWord (p : Pen) : W64 := BitVec.ofNat 64 (Nat.min p.cons 255 * 256 + p.shift)

/-- log2 of a slot length (R57). -/
def log2Len (l : Nat) : Nat := if l = 8 then 3 else if l = 4 then 2 else if l = 2 then 1 else 0

/-- slen: two bits a slot, 0 for slots at N and above (R57). -/
def slenWord (p : Pen) : W64 :=
  BitVec.ofNat 64 ((p.lens.take p.n).foldr (fun l acc => log2Len l + 4 * acc) 0)

/-- Initiation interval (R41). -/
def Pen.interval (p : Pen) : Nat := (p.lens.take p.n).foldl (· + ·) 0

/-- ii (R58). -/
def iiWord (p : Pen) : W64 := BitVec.ofNat 64 ((p.n - 1) % 32 * 2 ^ 16 + p.interval % 512)

/-- rgn: the top four region ids (R308). -/
def rgnWord (p : Pen) : W64 :=
  let ids := p.rgn.reverse
  BitVec.ofNat 64 ((ids.getD 0 0).toNat + (ids.getD 1 0).toNat * 2 ^ 16 + (ids.getD 2 0).toNat * 2 ^ 32
    + (ids.getD 3 0).toNat * 2 ^ 48)

/-- rgnd (R309). -/
def rgndWord (p : Pen) : W64 := BitVec.ofNat 64 (p.rgnOv % 2048 * 32 + p.rgn.length % 32)

/-- The most the overflow count of the region stack holds (R309, log 97). -/
def rgnOvMax : Nat := 2047

/-- A push onto the region stack (R100). -/
def Pen.rgnPush (p : Pen) (id : BitVec 16) : Pen :=
  if p.rgn.length < 16 then { p with rgn := p.rgn ++ [id], rgnGone := p.rgnGone.drop 1 }
  else { p with rgnOv := Nat.min rgnOvMax (p.rgnOv + 1) }

/-- A pop of the region stack (R100); the id stays above the top. -/
def Pen.rgnPop (p : Pen) : Pen :=
  if 0 < p.rgnOv then { p with rgnOv := p.rgnOv - 1 }
  else { p with rgn := p.rgn.dropLast, rgnGone := p.rgn.getLast?.toList ++ p.rgnGone }

/-- A rewind gives the stack back its depth and overflow count (R100). -/
def Pen.rgnBack (p : Pen) : Pen :=
  let ids := p.rgn ++ p.rgnGone
  { p with rgn := ids.take p.snapRgn, rgnGone := ids.drop p.snapRgn, rgnOv := p.snapRgnOv, rgnPend := none }

/-- The edge of the slot that has ended takes effect (R100, R308). -/
def Pen.rgnStep (p : Pen) : Pen :=
  let q := match p.rgnPend with
    | some (some id) => p.rgnPush id
    | some none => p.rgnPop
    | none => p
  { q with rgnPend := none }

/-- rgn as trace and sample records carry it: words of an `rgnin` slot carry the new id, words of an `rgnout` slot the one being
closed (R100). -/
def recRgn (p : Pen) : W64 :=
  rgnWord (match p.rgnPend with
    | some (some id) => p.rgnPush id
    | _ => p)

/-- core (R60); `rel` is the pen-relative index. -/
def coreWord (die idx rel width : Nat) : W64 :=
  BitVec.ofNat 64 (die % 4 * 2 ^ 30 + idx % 256 * 2 ^ 22 + rel / width % 16 * 2 ^ 18 + rel % width % 16 * 2 ^ 14)

/-- pen (R60). -/
def penWord (p : Pen) : W64 :=
  BitVec.ofNat 64 (p.pid.toNat * 2 ^ 32 + p.row % 16 * 2 ^ 28 + p.col % 16 * 2 ^ 24 + (p.h - 1) % 16 * 2 ^ 20
    + (p.w - 1) % 16 * 2 ^ 16)

/-- The tick CSR: the tick modulo 2^48 (R203). -/
def tickWord (t : Int) : W64 := BitVec.ofNat 64 (t % (2 ^ 48 : Nat)).toNat

end Sys2Proof.Machine
end

