-- ==== Sys2Proof/Machine/Legal.lean ====
section
/-! DEFINITION. The checks of R82 that stand on the decoded instruction: HOLD (R67), RP (R66), and the fields' permitted
values (R104, R132, R159, R191). -/

namespace Sys2Proof

def VSrc.isPort : VSrc → Bool
  | .rx _ => true
  | .v _ => false

def VDst.isPort : VDst → Bool
  | .tx _ => true
  | .v _ => false

def VOpd.isPort : VOpd → Bool
  | .src x => x.isPort
  | .s _ => false

def SPort.isPort : SPort → Bool
  | .port _ => true
  | .s _ => false

def MDst.isPort : MDst → Bool
  | .tx _ => true
  | .ring _ => false

def V1.port (o : V1) : Bool := o.d.isPort || o.a.isPort
def V2.port (o : V2) : Bool := o.d.isPort || o.a.isPort || o.b.isPort
def V3.port (o : V3) : Bool := o.d.isPort || o.a.isPort || o.b.isPort || o.c.isPort
def VB.port (o : VB) : Bool := o.d.isPort || o.a.isPort || o.b.isPort

/-- Fold in beats (R66). -/
def Hdr.beats (h : Hdr) : Nat := 2 ^ h.fold.val

/-- Elements a word of fold f covers at lane width w (R105). -/
def Hdr.elems (h : Hdr) (w : Nat) : Nat := 256 * h.beats / w

/-- Does the word name a port (R67)? -/
def Instr.namesPort : Instr → Bool
  | .vadd _ o | .vsub _ o | .vmul _ o | .vmin _ o | .vmax _ o | .vrcps _ o | .vrsqs _ o | .vscale _ o => o.port
  | .vfma _ o | .vfms _ o | .vfnma _ o => o.port
  | .vabs _ o | .vneg _ o | .vrcp _ o | .vrsq _ o | .vexp2 _ o | .vlog2 _ o => o.port
  | .vfrexpFrac _ d a _ | .vfrexpExp _ d a _ | .vround _ d a _ _ | .vmov _ d a _ => d.isPort || a.isPort
  | .vcvt _ d a _ _ _ _ _ => d.isPort || a.isPort
  | .vcmp _ _ _ a b _ => a.isPort || b.isPort
  | .vsel _ o _ | .vand _ o | .vor _ o | .vxor _ o | .vshl _ o | .vshr _ o | .vsra _ o => o.port
  | .vclamp _ o c => o.port || c.isPort
  | .vdot _ o c => o.port || c.isPort
  | .vred _ _ _ a _ _ _ | .vscan _ _ _ a _ _ _ | .vtopk _ _ a _ _ _ | .vhouse _ _ a _ => a.isPort
  | .vmred _ _ _ a b _ _ _ _ => a.isPort || b.isPort
  | .vperm _ d _ b _ => d.isPort || b.isPort
  | .vbcastElem _ d _ _ _ | .vbcastScalar _ d _ _ | .vslide _ d _ _ _ _ | .vcompress _ d _ _ | .vexpand _ d _ _
  | .vidx _ d _ _ | .vli _ d _ _ | .vld _ d _ | .vgth _ d _ | .vpack _ d _ _ _ _ _ _ | .vunpk _ d _ _ _ _ _ _ => d.isPort
  | .vst _ d _ | .vsct _ d _ => d.isPort
  | .mdrain _ o => o.dst.isPort
  | .gfill .. | .recvS .. | .recvV .. | .recvQ .. | .sendS .. | .sendV .. | .peekS .. | .peekQ .. | .sendq ..
  | .rxstat .. | .drop .. => true
  | .ld _ d _ | .st _ d _ => d.isPort
  | _ => false

/-- The header of a slot word; a step of the part has none. -/
def Instr.hdr? : Instr → Option Hdr
  | .nop _ h | .add h .. | .sub h .. | .mul h .. | .mulh h .. | .mulhz h .. | .div h .. | .divz h .. | .rem h ..
  | .remz h .. | .and h .. | .or h .. | .xor h .. | .andn h .. | .shl h .. | .shr h .. | .sra h .. | .rotl h ..
  | .min h .. | .max h .. | .minz h .. | .maxz h .. | .clz h .. | .ctz h .. | .popc h .. | .bext h .. | .bins h ..
  | .sel h .. | .cmp h .. | .sext h .. | .mad h .. | .addsh h .. | .addi h .. | .muli h .. | .andi h .. | .ori h ..
  | .xori h .. | .shli h .. | .shri h .. | .srai h .. | .cmpi h .. | .mini h .. | .maxi h .. | .li h .. | .lih h ..
  | .lil h .. | .qand h .. | .qor h .. | .qxor h .. | .qandn h .. | .qnot h .. | .qsetRange h .. | .qsetWord h ..
  | .qget h .. | .qfirst h .. | .lea h .. | .bld h .. | .bset h .. | .bget h .. | .mfc h .. | .mtc h .. | .rgnin h ..
  | .rgnout h | .trap h .. | .brk h .. | .fin h .. => some h
  | .vadd h .. | .vsub h .. | .vmul h .. | .vfma h .. | .vfms h .. | .vfnma h .. | .vmin h .. | .vmax h .. | .vabs h ..
  | .vneg h .. | .vrcp h .. | .vrsq h .. | .vrcps h .. | .vrsqs h .. | .vexp2 h .. | .vlog2 h .. | .vscale h ..
  | .vfrexpFrac h .. | .vfrexpExp h .. | .vround h .. | .vcvt h .. | .vcmp h .. | .vsel h .. | .vand h .. | .vor h ..
  | .vxor h .. | .vshl h .. | .vshr h .. | .vsra h .. | .vclamp h .. | .vdot h .. | .vred h .. | .vscan h ..
  | .vmred h .. | .vtopk h .. | .vqcnt h .. | .vperm h .. | .vbcastElem h .. | .vbcastScalar h .. | .vslide h ..
  | .vcompress h .. | .vexpand h .. | .vidx h .. | .vmov h .. | .vins h .. | .vext h .. | .vli h .. | .vld h ..
  | .vst h .. | .vgth h .. | .vsct h .. | .vhouse h .. | .vnorm h .. | .vpack h .. | .vunpk h .. => some h
  | .mma h .. | .mmat h .. | .mzero h .. | .mdrain h .. | .mld h .. | .mst h .. | .mmov h .. | .madd h .. | .mscl h ..
  | .mrowmax h .. | .mrowsum h .. | .ginit h .. | .gadv h .. | .gpop h .. | .gstat h .. | .gfill h .. | .oaclr h ..
  | .oaapp h .. | .oahh h .. | .oaml h .. | .oamr h .. | .oamv h .. | .oarc h .. | .oastat h .. | .oacfg h ..
  | .oaform h .. | .oasave h .. | .oaload h .. => some h
  | .recvS h .. | .recvV h .. | .recvQ h .. | .sendS h .. | .sendV h .. | .peekS h .. | .peekQ h .. | .sendq h ..
  | .rxstat h .. | .drop h .. | .ld h .. | .st h .. | .lcopy h .. | .lcopyShort h .. | .lgath h .. | .lscat h ..
  | .lwin h .. | .lfill h .. | .lprf h .. | .lprfShort h .. | .lexp h .. | .limp h .. | .aadd h .. | .amin h ..
  | .amax h .. | .aand h .. | .aor h .. | .axor h .. | .aswap h .. | .acas h .. | .ald h .. | .ast h ..
  | .awaitSync h .. | .awaitAsync h .. | .apop h .. | .apush h .. | .bar h .. | .arrive h .. | .bwait h ..
  | .fenceSync h .. | .fenceAsync h .. | .dsend h .. | .dtw h .. | .dtd h .. | .dcommit h .. | .dtr h .. | .dmd h ..
  | .dabn h .. | .dret h .. | .dstat h .. | .ckpt h .. | .liter h .. | .tlk h .. | .tins h .. | .tinv h .. | .tclr h
  | .cfgld h .. | .swap h .. | .trmark h .. => some h
  | _ => none

/-- Is the word a synchronisation word (R67)? -/
def Instr.isSync : Instr → Bool
  | .awaitSync .. | .bar .. | .bwait .. | .fenceSync .. | .liter .. => true
  | _ => false

/-- May the word carry RP (R66): only in the S column, judged by the column's words. -/
def Instr.inS : Instr → Bool
  | .nop c _ => c = .s
  | .add .. | .sub .. | .mul .. | .mulh .. | .mulhz .. | .div .. | .divz .. | .rem ..
  | .remz .. | .and .. | .or .. | .xor .. | .andn .. | .shl .. | .shr .. | .sra .. | .rotl ..
  | .min .. | .max .. | .minz .. | .maxz .. | .clz .. | .ctz .. | .popc .. | .bext .. | .bins ..
  | .sel .. | .cmp .. | .sext .. | .mad .. | .addsh .. | .addi .. | .muli .. | .andi .. | .ori ..
  | .xori .. | .shli .. | .shri .. | .srai .. | .cmpi .. | .mini .. | .maxi .. | .li .. | .lih ..
  | .lil .. | .qand .. | .qor .. | .qxor .. | .qandn .. | .qnot .. | .qsetRange .. | .qsetWord ..
  | .qget .. | .qfirst .. | .lea .. | .bld .. | .bset .. | .bget .. | .mfc .. | .mtc .. | .rgnin ..
  | .rgnout .. | .trap .. | .brk .. | .fin .. => true
  | _ => false

/-- HOLD of R67 on the decoded word. -/
def Instr.holdOk (i : Instr) : Bool :=
  match i.hdr? with
  | none => true
  | some h =>
    if i.isSync then h.hold = 2 else h.hold = 0 || (h.hold = 1 && i.namesPort)

/-- RP of R66 and R82 check 6. -/
def Instr.rpOk (i : Instr) : Bool :=
  match i.hdr? with
  | none => true
  | some h => !h.rp || i.inS

/-- RM may be non-zero only where the word rounds in a floating-point type (R111). -/
def rmFP (ty : Fmt) (rm : Rm) : Bool := ty.isFP || rm = .rne

/-- Known CSR numbers (R57). -/
def csrKnown (n : Nat) : Bool := n ≤ 0x0D || (0x10 ≤ n && n ≤ 0x31)

/-- The F6 constraints common to a row of R173: which of CMD, A, B, IMM16, CP must be 0, and SUB's value. -/
def F6.ok (o : F6) (cmd a b imm cp : Bool) : Bool :=
  (cmd || o.cmd = 0) && (a || o.a = 0) && (b || o.b = 0) && (imm || o.imm = 0) && (cp || o.cp = 0)

/-- The type code of an atomic word (R177). -/
def AtomTy.ofCode : Nat → Option AtomTy
  | 0 => some .i32 | 1 => some .i64 | 2 => some .f32 | 3 => some .z32 | 4 => some .z64 | _ => none

def F6.atomOk (o : F6) (f32 : Bool) : Bool :=
  o.sub.val < 5 && (f32 || o.sub.val != 2)

/-- Barrier scope and id (R181). -/
def F6.barOk (o : F6) : Bool :=
  (match o.sc with | .quad | .die | .package | .pod => true | _ => false) && o.imm.toNat < 256

/-- Stage select of R184. -/
def F6.stageOk (o : F6) : Bool := o.imm.toNat % 16 < 12 && o.imm.toNat / 512 % 64 = 0

def Mma.ok (o : Mma) (tr : Bool) : Bool :=
  (!o.sata || o.tacc = .int32) && (o.tacc != .int32 || (o.ta.unscaledInt && o.tb.unscaledInt)) &&
  (!o.byp || (o.ga = 0 && o.kt = 0)) && !(o.xp && o.tb.noTranspose) && !(tr && o.ta.noTranspose)

/-- The permitted field values of each word, checks 3 and 8 of R82 on the decoded word. -/
def Instr.fieldsOk : Instr → Bool
  | .cmp _ cc .. | .cmpi _ cc .. => match cc with | .un | .ord => false | _ => true
  | .sext _ ty .. => match ty with | .int32 | .int16 | .int8 | .uint8 | .int4 | .uint4 => true | _ => false
  | .addsh _ _ _ _ k => k.val < 64
  | .shli _ _ _ imm | .shri _ _ _ imm | .srai _ _ _ imm => imm.toNat < 64
  | .lea _ ty .. => ty.byteWide
  | .mfc _ _ c | .mtc _ c _ => csrKnown c.val
  | .rgnin _ id => 0 < id.toNat && id.toNat < 65536
  | .vadd _ o | .vsub _ o | .vmul _ o => o.ty.isNAT && rmFP o.ty o.rm
  | .vfma _ o | .vfms _ o | .vfnma _ o => o.ty.isNAT && rmFP o.ty o.rm
  | .vmin _ o | .vmax _ o => o.ty.isNAT && o.rm = .rne
  | .vabs _ o | .vneg _ o => o.ty.isNAT && o.rm = .rne
  | .vrcp _ o | .vrsq _ o => o.ty.isFP && !o.sat
  | .vrcps _ o | .vrsqs _ o | .vscale _ o => o.ty.isFP
  | .vexp2 _ o | .vlog2 _ o => o.ty.isFP
  | .vfrexpFrac _ _ _ ty | .vfrexpExp _ _ _ ty | .vround _ _ _ ty _ => ty.isFP
  | .vcvt _ _ a td ts c _ _ =>
    !(td.scaled && ts.scaled) && (td.scaled || ts.scaled || c = 0) &&
    !(a.isPort && (td.scaled || ts.scaled || td.lane != ts.lane))
  | .vcmp _ cc _ _ _ ty =>
    ty.isNAT && (match cc with | .ltz | .lez => ty.isINT | .un | .ord => ty.isFP | _ => true)
  | .vsel _ o _ | .vand _ o | .vor _ o | .vxor _ o => o.ty.isNAT
  | .vclamp _ o _ => o.ty.isNAT
  | .vshl _ o | .vshr _ o => o.ty.isINT
  | .vsra _ o => o.ty.isINT && o.ty != .uint8
  | .vdot _ o _ => (match o.ty with | .fp16 | .bf16 | .int16 | .int8 | .uint8 => true | _ => false) && rmFP o.ty o.rm
  | .vred _ op _ _ ty rm _ =>
    ty.isNAT && rmFP ty rm && (match op with | .and | .or | .xor => ty.isINT | _ => true)
  | .vscan _ op _ _ ty rm _ =>
    ty.isNAT && rmFP ty rm && (match op with | .sum | .min | .max => true | _ => false)
  | .vmred _ op _ _ _ _ ty rm _ =>
    ty.isNAT && rmFP ty rm && (match op with | .sum | .min | .max => true | _ => false)
  | .vtopk h _ _ ty k _ => ty.isNAT && k.val < h.elems ty.lane
  | .vqcnt _ _ _ ty | .vperm _ _ _ _ ty | .vbcastElem _ _ _ _ ty | .vbcastScalar _ _ _ ty | .vcompress _ _ _ ty
  | .vexpand _ _ _ ty | .vmov _ _ _ ty | .vli _ _ ty _ => ty.isNAT
  | .vslide h _ _ _ ty n => ty.isNAT && n.val ≤ h.elems ty.lane
  | .vidx _ _ _ ty => ty.isINT
  | .vins _ _ _ ty n | .vext _ _ _ ty n => ty.isNAT && n.val < 2048 / ty.lane
  | .vld _ _ n | .vgth _ _ n => n.ty.isNAT
  | .vst _ _ n | .vsct _ _ n => n.ty.isNAT && n.lb = 0
  | .vhouse h .. => h.fold != 3
  | .vnorm _ _ _ _ ty .. => ty.isFP
  | .vpack _ _ _ _ td ts .. => td.isNAT && ts.isNAT && 2 * td.lane = ts.lane
  | .vunpk _ _ _ td ts .. => td.isNAT && ts.isNAT && td.lane = 2 * ts.lane
  | .mma _ o => o.ok false
  | .mmat _ o => o.ok true
  | .mdrain _ o =>
    (match o.dfn with | .exp2 | .scale | .rowmax => o.tacc = .fp32 | _ => true) &&
    !(o.dst.isPort && (o.ta.scaled || 8 < o.ta.bits))
  | .mld _ _ n => n.ty = .fp32 || n.ty = .int32 || n.ty = .fp64
  | .mst _ _ n => (n.ty = .fp32 || n.ty = .int32 || n.ty = .fp64) && n.lb = 0
  | .mrowmax _ _ _ t | .mrowsum _ _ _ t => t != .fp64
  | .ginit _ _ _ _ cap _ => cap != 0
  | .gadv _ _ n | .gpop _ _ n => n != 0
  | .gfill _ _ _ ty cnt => !ty.scaled && ty != .fp64 && (cnt.val + 1) * (ty.lane / 8) ≤ 64
  | .oaapp _ _ _ _ kt | .oahh _ _ _ _ kt => kt.val ≤ 32
  | .oasave _ _ n => n.ty = .fp32 && n.lb = 0
  | .oaload _ _ n => n.ty = .fp32
  | .recvS _ _ _ ty | .recvV _ _ _ ty _ | .sendS _ _ _ ty _ | .sendV _ _ _ ty _ _ | .peekS _ _ _ ty => ty.isNAT
  | .ld _ d n => n.ty.byteWide && !(d.isPort && n.ty = .fp64)
  | .st _ d n => n.ty.byteWide && !(d.isPort && n.ty = .fp64) && n.lb = 0
  | .lcopy _ o => o.ok true false false false true && o.sub = 0
  | .lcopyShort _ o => o.ok false true true true true && o.sub = 1
  | .lgath _ o | .lscat _ o | .lwin _ o | .lfill _ o => o.ok true false false false true && o.sub = 0
  | .lprf _ o => o.ok true false false false true && o.sub = 0
  | .lprfShort _ o => o.ok false true false true true && o.sub = 1
  | .lexp _ o | .limp _ o => o.ok true true false false true && o.sub = 0
  | .aadd _ o | .amin _ o | .amax _ o | .aswap _ o => o.ok true true false false true && o.atomOk true
  | .aand _ o | .aor _ o | .axor _ o => o.ok true true false false true && o.atomOk false
  | .acas _ o => o.ok true true true false true && o.atomOk false
  | .ald _ o => o.ok true false false false true && o.atomOk true && o.ord != .rel
  | .ast _ o => o.ok true true false false true && o.atomOk true && o.ord != .acq
  | .awaitSync _ o =>
    o.ok true true false true false && (o.sub.val % 8 < 5 && o.sub.val % 8 != 2) && o.sub.val / 8 < 6 && o.imm = 0 && o.tag = 0 &&
    (o.ord = .none || o.ord = .acq)
  | .awaitAsync _ o =>
    o.ok true true false true true && (o.sub.val % 8 < 5 && o.sub.val % 8 != 2) && o.sub.val / 8 < 6 &&
    (o.ord = .none || o.ord = .acq)
  | .apop _ o | .apush _ o => o.ok true true false false true && o.sub = 0
  | .bar _ o => o.ok false true false true false && o.sub = 0 && o.tag = 0 && o.barOk
  | .arrive _ o => o.ok false true false true true && o.sub = 0 && o.barOk
  | .bwait _ o => o.ok false false false true false && o.sub = 0 && o.tag = 0 && o.barOk && (o.ord = .none || o.ord = .acq)
  | .fenceSync _ o => o.ok false false false false false && o.sub = 0 && o.tag = 0 && o.ord != .none
  | .fenceAsync _ o => o.ok false false false false true && o.sub = 0 && o.ord != .none
  | .dsend _ o => o.ok true true false true true && o.sub = 0 && o.imm.toNat < 32
  | .dtw _ o | .dtd _ o => o.ok true true false true true && o.sub = 0 && o.stageOk
  | .dcommit _ o => o.ok false false false true true && o.sub = 0 && o.imm.toNat < 32
  | .dtr _ o => o.ok false true false true true && o.sub.val < 2 && o.stageOk
  | .dmd _ o | .dret _ o => o.ok true true true false true && o.sub = 0
  | .dabn _ o => o.ok false false false false true && o.sub = 0 && o.ord = .none
  | .dstat _ o | .ckpt _ o => o.ok true false false false true && o.sub = 0
  | .liter _ o => o.ok true true false false false && o.sub = 0 && o.tag = 0 && (o.ord = .acq || o.ord = .both)
  | .cfgld _ o => o.ok true true false false true && o.sub = 0
  | .swap _ o => o.ok false true false false true && o.sub = 0
  | _ => true

/-- Does the word pass every check of R82 that stands on the decoded instruction? -/
def Instr.legal (i : Instr) : Bool := i.rpOk && i.holdOk && i.fieldsOk

end Sys2Proof
end

