-- ==== Sys2Proof/WellFormed.lean ====
section
/-! DEFINITION. Well-formed instructions: those the configuration loader accepts (R82). -/

namespace Sys2Proof

/-- A well-formed instruction passes the checks of R82 (R66, R67, R104, R132, R159, R191). -/
def WellFormed (i : Instr) : Bool := i.legal

end Sys2Proof
end

