-- ==== Sys2Proof/Decode.lean ====
section
/-! DEFINITION. The decoder of slot words (R66 to R83), total on every word and column, rejecting by the REASON of R82, and
the encoder written from the same encoding tables. -/

namespace Sys2Proof

/-- Field names of the header and the formats F0 to F7 (R66, R68 to R75). IMM32, IMM53 and IMM16 are `imm`. -/
inductive Fld
  | rsv | op | fmt | hold | rp | pq | pn | fold | d | a | b | c | ty | rm | sat | sub | imm | x | br | sp | lb | ofs
  | ad | ga | gb | ta | tb | tacc | kt | byp | za | ret | xp | dfn | vr | sr | srb | dst | reg | port | tag | cnt | csr
  | cmd | cp | ord | sc
deriving DecidableEq, Repr, Inhabited

/-- The header fields from bit 59 upward (R66). -/
def hdrLayout : List (Fld × Nat) :=
  [(.fold, 2), (.pn, 1), (.pq, 4), (.rp, 1), (.hold, 2), (.fmt, 3), (.op, 8)]

/-- The operand fields of a format from bit 0 upward (R68 to R75). -/
def opLayout : Nat → List (Fld × Nat)
  | 0 => [(.rsv, 19), (.sub, 8), (.sat, 1), (.rm, 2), (.ty, 5), (.c, 6), (.b, 6), (.a, 6), (.d, 6)]
  | 1 => [(.rsv, 2), (.sub, 8), (.imm, 32), (.ty, 5), (.a, 6), (.d, 6)]
  | 2 => [(.sub, 4), (.ofs, 24), (.lb, 8), (.sp, 2), (.ty, 5), (.br, 4), (.x, 6), (.d, 6)]
  | 3 => [(.dst, 6), (.srb, 6), (.sr, 6), (.vr, 6), (.dfn, 4), (.xp, 1), (.ret, 1), (.za, 1), (.byp, 1), (.kt, 6),
          (.tacc, 2), (.tb, 5), (.ta, 5), (.gb, 3), (.ga, 3), (.ad, 3)]
  | 4 => [(.sub, 8), (.rsv, 25), (.cnt, 8), (.tag, 4), (.ty, 5), (.port, 3), (.reg, 6)]
  | 5 => [(.sub, 13), (.imm, 32), (.reg, 6), (.csr, 8)]
  | 6 => [(.tag, 8), (.sub, 8), (.imm, 16), (.b, 6), (.a, 6), (.sc, 3), (.ord, 3), (.cp, 3), (.cmd, 6)]
  | _ => [(.imm, 53), (.d, 6)]

/-- All fields of a word of a format, low bits first. -/
def layout (f : Nat) : List (Fld × Nat) := opLayout f ++ hdrLayout

/-- Cut a number into the fields of a layout. -/
def unpack : List (Fld × Nat) → Nat → List (Fld × Nat)
  | [], _ => []
  | (f, n) :: ls, w => (f, w % 2 ^ n) :: unpack ls (w / 2 ^ n)

/-- Join field values, each taken below its width, into a number. -/
def pack : List (Fld × Nat) → (Fld → Nat) → Nat
  | [], _ => 0
  | (f, n) :: ls, g => g f % 2 ^ n + 2 ^ n * pack ls g

/-- The value of a field in a list; 0 where the list has it not. -/
def fldGet (vs : List (Fld × Nat)) (f : Fld) : Nat :=
  match vs with
  | [] => 0
  | (k, v) :: r => if k = f then v else fldGet r f

/-- A 6-bit register field: its class size, the port codes its position takes (0 none, 32 rx, 40 tx), and whether the
word accepts a port there (R78, R107 to R109). -/
structure RegFld where
  f : Fld
  size : Nat
  win : Nat := 0
  port : Bool := false
deriving DecidableEq, Repr, Inhabited

/-- What R82 needs to know of an opcode, and the instruction its fields build (none where a code has no meaning,
REASON 8). `sync`: 1 the word needs HOLD 10, 2 it takes HOLD 00 or 10 (R67). -/
structure Row where
  ofmt : Nat
  used : List Fld := []
  regs : List RegFld := []
  csr : Bool := false
  sync : Nat := 0
  port : Bool := false
  inst : Option Instr
deriving DecidableEq, Repr, Inhabited

def Rm.ofCode : Nat → Rm
  | 0 => .rne | 1 => .rtz | 2 => .down | _ => .dither

def Rm.code : Rm → Nat
  | .rne => 0 | .rtz => 1 | .down => 2 | .dither => 3

def Cc.ofCode : Nat → Option Cc
  | 0 => some .eq | 1 => some .ne | 2 => some .lt | 3 => some .le | 4 => some .ltz | 5 => some .lez | 6 => some .un
  | 7 => some .ord | _ => none

def Cc.code : Cc → Nat
  | .eq => 0 | .ne => 1 | .lt => 2 | .le => 3 | .ltz => 4 | .lez => 5 | .un => 6 | .ord => 7

def RedOp.ofCode : Nat → Option RedOp
  | 0 => some .sum | 1 => some .min | 2 => some .max | 3 => some .absmax | 4 => some .and | 5 => some .or
  | 6 => some .xor | _ => none

def RedOp.code : RedOp → Nat
  | .sum => 0 | .min => 1 | .max => 2 | .absmax => 3 | .and => 4 | .or => 5 | .xor => 6

def Tacc.ofCode : Nat → Option Tacc
  | 0 => some .fp32 | 1 => some .int32 | 2 => some .fp64 | _ => none

def Tacc.code : Tacc → Nat
  | .fp32 => 0 | .int32 => 1 | .fp64 => 2

def Dfn.ofCode : Nat → Option Dfn
  | 0 => some .none | 1 => some .exp2 | 2 => some .relu | 3 => some .scale | 4 => some .rowmax | _ => Option.none

def Dfn.code : Dfn → Nat
  | .none => 0 | .exp2 => 1 | .relu => 2 | .scale => 3 | .rowmax => 4

def Ord3.ofCode : Nat → Option Ord3
  | 0 => some .none | 1 => some .acq | 2 => some .rel | 3 => some .both | _ => Option.none

def Ord3.code : Ord3 → Nat
  | .none => 0 | .acq => 1 | .rel => 2 | .both => 3

def Scope.ofCode : Nat → Option Scope
  | 0 => some .lane | 1 => some .core | 2 => some .quad | 3 => some .die | 4 => some .package | 5 => some .pod
  | 6 => some .system | _ => none

def Scope.code : Scope → Nat
  | .lane => 0 | .core => 1 | .quad => 2 | .die => 3 | .package => 4 | .pod => 5 | .system => 6

def MDst.ofCode (n : Nat) : Option MDst :=
  if n < 8 then some (.ring (Fin.ofNat 8 n)) else if 40 ≤ n && n < 48 then some (.tx (Fin.ofNat 8 n)) else none

def MDst.code : MDst → Nat
  | .ring g => g.val
  | .tx p => 40 + p.val

def VSrc.ofCode (n : Nat) : VSrc := if n < 32 then .v (Fin.ofNat 32 n) else .rx (Fin.ofNat 8 n)
def VSrc.code : VSrc → Nat
  | .v r => r.val
  | .rx p => 32 + p.val
def VDst.ofCode (n : Nat) : VDst := if n < 32 then .v (Fin.ofNat 32 n) else .tx (Fin.ofNat 8 n)
def VDst.code : VDst → Nat
  | .v r => r.val
  | .tx p => 40 + p.val
def SPort.ofCode (n : Nat) : SPort := if n < 32 then .s (Fin.ofNat 32 n) else .port (Fin.ofNat 8 n)
/-- `base` is 32 for an rx port, 40 for a tx port. -/
def SPort.code (base : Nat) : SPort → Nat
  | .s r => r.val
  | .port p => base + p.val
/-- `sc` is the SB or SC bit (R108). -/
def VOpd.ofCode (sc : Bool) (n : Nat) : VOpd := if sc then .s (Fin.ofNat 32 n) else .src (VSrc.ofCode n)
def VOpd.code : VOpd → Nat
  | .s r => r.val
  | .src x => x.code
def VOpd.isS : VOpd → Bool
  | .s _ => true
  | .src _ => false

def r32 (n : Nat) : Fin 32 := Fin.ofNat 32 n
def r16 (n : Nat) : Fin 16 := Fin.ofNat 16 n
def r8 (n : Nat) : Fin 8 := Fin.ofNat 8 n

/-- Bit `k` of a number. -/
def bitAt (n k : Nat) : Bool := n / 2 ^ k % 2 = 1

def Hdr.ofFlds (g : Fld → Nat) : Hdr :=
  { hold := Fin.ofNat 4 (g .hold), rp := g .rp = 1, pq := r16 (g .pq), pn := g .pn = 1, fold := Fin.ofNat 4 (g .fold) }

def Ns.ofFlds (g : Fld → Nat) : Ns :=
  { br := r16 (g .br), x := r32 (g .x), ty := Fmt.ofCode (g .ty), sp := Fin.ofNat 4 (g .sp), lb := Fin.ofNat 256 (g .lb),
    ofs := BitVec.ofNat 24 (g .ofs) }

def F6.ofFlds (g : Fld → Nat) : Option F6 := do
  let ord ← Ord3.ofCode (g .ord)
  let sc ← Scope.ofCode (g .sc)
  some { cmd := r32 (g .cmd), cp := r8 (g .cp), ord := ord, sc := sc, a := r32 (g .a), b := r32 (g .b),
         imm := BitVec.ofNat 16 (g .imm), sub := Fin.ofNat 256 (g .sub), tag := Fin.ofNat 256 (g .tag) }

def sReg (f : Fld) : RegFld := { f := f, size := 32 }
def qReg (f : Fld) : RegFld := { f := f, size := 16 }
/-- A per-chunk source that takes a v register or an rx port. -/
def vSrcReg (f : Fld) : RegFld := { f := f, size := 32, win := 32, port := true }
/-- A whole source: a port code there is REASON 8 (R107). -/
def vWhole (f : Fld) : RegFld := { f := f, size := 32, win := 32 }
/-- A destination marked P. -/
def vDstReg (f : Fld) : RegFld := { f := f, size := 32, win := 40, port := true }
/-- A register destination of the V column not marked P: a port code is REASON 8 (R109). -/
def vDstNoPort (f : Fld) : RegFld := { f := f, size := 32, win := 40 }
/-- A source that SB or SC may turn into a scalar (R108). -/
def vOpdReg (sc : Bool) (f : Fld) : RegFld := if sc then sReg f else vSrcReg f

/-- An S word in F0 with three s registers. -/
def rowS3 (g : Fld → Nat) (ex : List Fld) (k : Fin 32 → Fin 32 → Fin 32 → Option Instr) : Row :=
  { ofmt := 0, used := [.d, .a, .b] ++ ex, regs := [sReg .d, sReg .a, sReg .b],
    inst := k (r32 (g .d)) (r32 (g .a)) (r32 (g .b)) }

/-- An S word in F0 with two s registers. -/
def rowS2 (g : Fld → Nat) (k : Fin 32 → Fin 32 → Instr) : Row :=
  { ofmt := 0, used := [.d, .a], regs := [sReg .d, sReg .a], inst := some (k (r32 (g .d)) (r32 (g .a))) }

/-- An S word in F1. -/
def rowSI (g : Fld → Nat) (k : Fin 32 → Fin 32 → BitVec 32 → Instr) : Row :=
  { ofmt := 1, used := [.d, .a, .imm], regs := [sReg .d, sReg .a],
    inst := some (k (r32 (g .d)) (r32 (g .a)) (BitVec.ofNat 32 (g .imm))) }

/-- A predicate word of two sources (R93). -/
def rowQ3 (g : Fld → Nat) (k : Fin 16 → Fin 16 → Fin 16 → Instr) : Row :=
  { ofmt := 0, used := [.d, .a, .b, .sub], regs := [qReg .d, qReg .a, qReg .b],
    inst := if g .sub = 0 then some (k (r16 (g .d)) (r16 (g .a)) (r16 (g .b))) else none }

/-- The S column (R81, R86 to R102). -/
def rowS (op : Nat) (h : Hdr) (g : Fld → Nat) : Option Row :=
  let sat : Bool := g .sat = 1
  match op with
  | 0x00 => some { ofmt := 0, inst := some (.nop .s h) }
  | 0x01 => some (rowS3 g [.sat] (fun d a b => some (.add h d a b sat)))
  | 0x02 => some (rowS3 g [.sat] (fun d a b => some (.sub h d a b sat)))
  | 0x03 => some (rowS3 g [.sat] (fun d a b => some (.mul h d a b sat)))
  | 0x04 => some (rowS3 g [] (fun d a b => some (.mulh h d a b)))
  | 0x05 => some (rowS3 g [] (fun d a b => some (.mulhz h d a b)))
  | 0x06 => some (rowS3 g [] (fun d a b => some (.div h d a b)))
  | 0x07 => some (rowS3 g [] (fun d a b => some (.divz h d a b)))
  | 0x08 => some (rowS3 g [] (fun d a b => some (.rem h d a b)))
  | 0x09 => some (rowS3 g [] (fun d a b => some (.remz h d a b)))
  | 0x0a => some (rowS3 g [] (fun d a b => some (.and h d a b)))
  | 0x0b => some (rowS3 g [] (fun d a b => some (.or h d a b)))
  | 0x0c => some (rowS3 g [] (fun d a b => some (.xor h d a b)))
  | 0x0d => some (rowS3 g [] (fun d a b => some (.andn h d a b)))
  | 0x0e => some (rowS3 g [] (fun d a b => some (.shl h d a b)))
  | 0x0f => some (rowS3 g [] (fun d a b => some (.shr h d a b)))
  | 0x10 => some (rowS3 g [] (fun d a b => some (.sra h d a b)))
  | 0x11 => some (rowS3 g [] (fun d a b => some (.rotl h d a b)))
  | 0x12 => some (rowS3 g [] (fun d a b => some (.min h d a b)))
  | 0x13 => some (rowS3 g [] (fun d a b => some (.max h d a b)))
  | 0x14 => some (rowS3 g [] (fun d a b => some (.minz h d a b)))
  | 0x15 => some (rowS3 g [] (fun d a b => some (.maxz h d a b)))
  | 0x16 => some (rowS2 g (fun d a => .clz h d a))
  | 0x17 => some (rowS2 g (fun d a => .ctz h d a))
  | 0x18 => some (rowS2 g (fun d a => .popc h d a))
  | 0x19 => some (rowS3 g [] (fun d a b => some (.bext h d a b)))
  | 0x1a => some { ofmt := 0, used := [.d, .a, .b, .c], regs := [sReg .d, sReg .a, sReg .b, sReg .c],
                      inst := some (.bins h (r32 (g .d)) (r32 (g .a)) (r32 (g .b)) (r32 (g .c))) }
  | 0x1b => some { ofmt := 0, used := [.d, .a, .b, .c], regs := [sReg .d, sReg .a, sReg .b, qReg .c],
                      inst := some (.sel h (r32 (g .d)) (r32 (g .a)) (r32 (g .b)) (r16 (g .c))) }
  | 0x1c => some { ofmt := 0, used := [.d, .a, .b, .sub], regs := [qReg .d, sReg .a, sReg .b],
                      inst := (Cc.ofCode (g .sub)).map (fun cc => .cmp h cc (r16 (g .d)) (r32 (g .a)) (r32 (g .b))) }
  | 0x1d => some { ofmt := 0, used := [.d, .a, .ty], regs := [sReg .d, sReg .a],
                      inst := some (.sext h (Fmt.ofCode (g .ty)) (r32 (g .d)) (r32 (g .a))) }
  | 0x1e => some { ofmt := 0, used := [.d, .a, .b, .c, .sat], regs := [sReg .d, sReg .a, sReg .b, sReg .c],
                      inst := some (.mad h (r32 (g .d)) (r32 (g .a)) (r32 (g .b)) (r32 (g .c)) sat) }
  | 0x1f => some (rowS3 g [.sub] (fun d a b => some (.addsh h d a b (Fin.ofNat 256 (g .sub)))))
  | 0x20 => some (rowSI g (fun d a i => .addi h d a i))
  | 0x21 => some (rowSI g (fun d a i => .muli h d a i))
  | 0x22 => some (rowSI g (fun d a i => .andi h d a i))
  | 0x23 => some (rowSI g (fun d a i => .ori h d a i))
  | 0x24 => some (rowSI g (fun d a i => .xori h d a i))
  | 0x25 => some (rowSI g (fun d a i => .shli h d a i))
  | 0x26 => some (rowSI g (fun d a i => .shri h d a i))
  | 0x27 => some (rowSI g (fun d a i => .srai h d a i))
  | 0x28 => some { ofmt := 1, used := [.d, .a, .imm, .sub], regs := [qReg .d, sReg .a],
                      inst := (Cc.ofCode (g .sub)).map
                        (fun cc => .cmpi h cc (r16 (g .d)) (r32 (g .a)) (BitVec.ofNat 32 (g .imm))) }
  | 0x29 => some (rowSI g (fun d a i => .mini h d a i))
  | 0x2a => some (rowSI g (fun d a i => .maxi h d a i))
  | 0x2c => some (rowSI g (fun d a i => .lih h d a i))
  | 0x2b => some { ofmt := 1, used := [.d, .imm], regs := [sReg .d],
                      inst := some (.li h (r32 (g .d)) (BitVec.ofNat 32 (g .imm))) }
  | 0x2f => some { ofmt := 7, used := [.d, .imm], regs := [sReg .d],
                      inst := some (.lil h (r32 (g .d)) (BitVec.ofNat 53 (g .imm))) }
  | 0x30 => some (rowQ3 g (fun d a b => .qand h d a b))
  | 0x31 => some (rowQ3 g (fun d a b => .qor h d a b))
  | 0x32 => some (rowQ3 g (fun d a b => .qxor h d a b))
  | 0x33 => some (rowQ3 g (fun d a b => .qandn h d a b))
  | 0x34 => some { ofmt := 0, used := [.d, .a, .sub], regs := [qReg .d, qReg .a],
                      inst := if g .sub = 0 then some (.qnot h (r16 (g .d)) (r16 (g .a))) else none }
  | 0x35 => some { ofmt := 0, used := [.d, .a, .b, .sub], regs := [qReg .d, sReg .a, sReg .b],
                      inst := match g .sub with
                        | 0 => some (.qsetRange h (r16 (g .d)) (r32 (g .a)) (r32 (g .b)))
                        | 1 => some (.qsetWord h (r16 (g .d)) (r32 (g .a)) (r32 (g .b)))
                        | _ => none }
  | 0x36 => some { ofmt := 0, used := [.d, .a, .sub], regs := [sReg .d, qReg .a],
                      inst := if g .sub < 4 then some (.qget h (r32 (g .d)) (r16 (g .a)) (Fin.ofNat 4 (g .sub))) else none }
  | 0x37 => some { ofmt := 0, used := [.d, .a, .sub], regs := [sReg .d, qReg .a],
                      inst := if g .sub = 0 then some (.qfirst h (r32 (g .d)) (r16 (g .a))) else none }
  | 0x38 => some { ofmt := 2, used := [.d, .br, .x, .ofs, .ty], regs := [sReg .d, sReg .x],
                      inst := some (.lea h (Fmt.ofCode (g .ty)) (r32 (g .d)) (r16 (g .br)) (r32 (g .x))
                        (BitVec.ofNat 24 (g .ofs))) }
  | 0x39 => some { ofmt := 1, used := [.d, .a, .imm], regs := [qReg .d, sReg .a],
                      inst := if g .imm / 2 ^ 28 = 0 && g .imm / 2 ^ 12 % 256 = 0 then
                          some (.bld h (r16 (g .d)) (r32 (g .a)) (BitVec.ofNat 12 (g .imm)) (Fin.ofNat 256 (g .imm / 2 ^ 20)))
                        else none }
  | 0x3a => some { ofmt := 0, used := [.d, .a, .sub], regs := [qReg .d, sReg .a],
                      inst := if g .sub < 4 then some (.bset h (r16 (g .d)) (Fin.ofNat 4 (g .sub)) (r32 (g .a))) else none }
  | 0x3b => some { ofmt := 0, used := [.d, .a, .sub], regs := [sReg .d, qReg .a],
                      inst := if g .sub < 4 then some (.bget h (r32 (g .d)) (r16 (g .a)) (Fin.ofNat 4 (g .sub))) else none }
  | 0x40 => some { ofmt := 5, used := [.csr, .reg], regs := [sReg .reg], csr := true,
                      inst := some (.mfc h (r32 (g .reg)) (Fin.ofNat 256 (g .csr))) }
  | 0x41 => some { ofmt := 5, used := [.csr, .reg], regs := [sReg .reg], csr := true,
                      inst := some (.mtc h (Fin.ofNat 256 (g .csr)) (r32 (g .reg))) }
  | 0x42 => some { ofmt := 5, used := [.imm], inst := some (.rgnin h (BitVec.ofNat 32 (g .imm))) }
  | 0x43 => some { ofmt := 5, inst := some (.rgnout h) }
  | 0x44 => some { ofmt := 5, used := [.imm, .reg], regs := [sReg .reg],
                      inst := some (.trap h (BitVec.ofNat 32 (g .imm)) (r32 (g .reg))) }
  | 0x45 => some { ofmt := 5, used := [.imm], inst := some (.brk h (BitVec.ofNat 32 (g .imm))) }
  | 0x46 => some { ofmt := 5, used := [.imm], inst := some (.fin h (BitVec.ofNat 32 (g .imm))) }
  | _ => none

/-- V operands of one source. -/
def V1.ofFlds (g : Fld → Nat) : V1 :=
  { d := VDst.ofCode (g .d), a := VSrc.ofCode (g .a), ty := Fmt.ofCode (g .ty), rm := Rm.ofCode (g .rm),
    sat := (g .sat = 1 : Bool) }

/-- V operands of two sources; SB is SUB bit 7 (R108). -/
def V2.ofFlds (g : Fld → Nat) : V2 :=
  { d := VDst.ofCode (g .d), a := VSrc.ofCode (g .a), b := VOpd.ofCode (bitAt (g .sub) 7) (g .b),
    ty := Fmt.ofCode (g .ty), rm := Rm.ofCode (g .rm), sat := (g .sat = 1 : Bool) }

/-- Fused operands; SB is SUB bit 7, SC bit 6 (R108). -/
def V3.ofFlds (g : Fld → Nat) : V3 :=
  { d := VDst.ofCode (g .d), a := VSrc.ofCode (g .a), b := VOpd.ofCode (bitAt (g .sub) 7) (g .b),
    c := VOpd.ofCode (bitAt (g .sub) 6) (g .c), ty := Fmt.ofCode (g .ty), rm := Rm.ofCode (g .rm),
    sat := (g .sat = 1 : Bool) }

/-- Operands of the words that never round (R121). -/
def VB.ofFlds (g : Fld → Nat) : VB :=
  { d := VDst.ofCode (g .d), a := VSrc.ofCode (g .a), b := VOpd.ofCode (bitAt (g .sub) 7) (g .b),
    ty := Fmt.ofCode (g .ty) }

/-- A one-source word. -/
def rowV1 (g : Fld → Nat) (ex : List Fld) (k : V1 → Instr) : Row :=
  { ofmt := 0, used := [.d, .a, .ty, .sub] ++ ex, regs := [vDstReg .d, vSrcReg .a],
    inst := if g .sub = 0 then some (k (V1.ofFlds g)) else none }

/-- A two-source word. -/
def rowV2 (g : Fld → Nat) (ex : List Fld) (k : V2 → Instr) : Row :=
  { ofmt := 0, used := [.d, .a, .b, .ty, .sub] ++ ex,
    regs := [vDstReg .d, vSrcReg .a, vOpdReg (bitAt (g .sub) 7) .b],
    inst := if g .sub % 128 = 0 then some (k (V2.ofFlds g)) else none }

/-- A fused word. -/
def rowV3 (g : Fld → Nat) (ex : List Fld) (k : V3 → Instr) : Row :=
  { ofmt := 0, used := [.d, .a, .b, .c, .ty, .sub] ++ ex,
    regs := [vDstReg .d, vSrcReg .a, vOpdReg (bitAt (g .sub) 7) .b, vOpdReg (bitAt (g .sub) 6) .c],
    inst := if g .sub % 64 = 0 then some (k (V3.ofFlds g)) else none }

/-- Logic, shifts and selection; SUB bits 6:0 are zero (R121). -/
def rowVB (g : Fld → Nat) (k : VB → Instr) : Row :=
  { ofmt := 0, used := [.d, .a, .b, .ty, .sub],
    regs := [vDstReg .d, vSrcReg .a, vOpdReg (bitAt (g .sub) 7) .b],
    inst := if g .sub % 128 = 0 then some (k (VB.ofFlds g)) else none }

/-- `vred`, `vscan` (R123). -/
def rowRed (g : Fld → Nat) (k : RedOp → Fin 32 → VSrc → Fmt → Rm → Bool → Instr) : Row :=
  let ty := Fmt.ofCode (g .ty)
  { ofmt := 0, used := [.d, .a, .ty, .sat, .sub] ++ (if ty.isFP then [.rm] else []),
    regs := [vDstNoPort .d, vSrcReg .a],
    inst := (RedOp.ofCode (g .sub)).map
      (fun op => k op (r32 (g .d)) (VSrc.ofCode (g .a)) ty (Rm.ofCode (g .rm)) (g .sat = 1)) }

/-- The V column (R81, R112 to R131). A row that names no SUB does not use the field, so REASON 3 refuses it (R77, log 96). -/
def rowV (op : Nat) (h : Hdr) (g : Fld → Nat) : Option Row :=
  let ty := Fmt.ofCode (g .ty)
  let rm := Rm.ofCode (g .rm)
  let sat : Bool := g .sat = 1
  let d := VDst.ofCode (g .d)
  let a := VSrc.ofCode (g .a)
  let b := VSrc.ofCode (g .b)
  let fp : List Fld := if ty.isFP then [.rm] else []
  let s0 : Bool := g .sub = 0
  match op with
  | 0x00 => some { ofmt := 0, inst := some (.nop .v h) }
  | 0x01 => some (rowV2 g ([.sat] ++ fp) (fun o => .vadd h o))
  | 0x02 => some (rowV2 g ([.sat] ++ fp) (fun o => .vsub h o))
  | 0x03 => some (rowV2 g ([.sat] ++ fp) (fun o => .vmul h o))
  | 0x04 => some (rowV3 g ([.sat] ++ fp) (fun o => .vfma h o))
  | 0x05 => some (rowV3 g ([.sat] ++ fp) (fun o => .vfms h o))
  | 0x06 => some (rowV3 g ([.sat] ++ fp) (fun o => .vfnma h o))
  | 0x07 => some (rowV2 g [.sat] (fun o => .vmin h o))
  | 0x08 => some (rowV2 g [.sat] (fun o => .vmax h o))
  | 0x09 => some (rowV1 g [.sat] (fun o => .vabs h o))
  | 0x0a => some (rowV1 g [.sat] (fun o => .vneg h o))
  | 0x0b => some (rowV1 g [.rm] (fun o => .vrcp h o))
  | 0x0c => some (rowV1 g [.rm] (fun o => .vrsq h o))
  | 0x0d => some (rowV2 g [.rm, .sat] (fun o => .vrcps h o))
  | 0x0e => some (rowV2 g [.rm, .sat] (fun o => .vrsqs h o))
  | 0x11 => some (rowV2 g [.rm, .sat] (fun o => .vscale h o))
  | 0x0f => some (rowV1 g [.rm, .sat] (fun o => .vexp2 h o))
  | 0x10 => some (rowV1 g [.rm, .sat] (fun o => .vlog2 h o))
  | 0x12 => some { ofmt := 0, used := [.d, .a, .ty, .sub], regs := [vDstReg .d, vSrcReg .a],
                      inst := match g .sub with
                        | 0 => some (.vfrexpFrac h d a ty)
                        | 1 => some (.vfrexpExp h d a ty)
                        | _ => none }
  | 0x13 => some { ofmt := 0, used := [.d, .a, .ty, .rm, .sub], regs := [vDstReg .d, vSrcReg .a],
                      inst := if s0 then some (.vround h d a ty rm) else none }
  | 0x14 => some { ofmt := 0,
                      used := [.d, .a, .ty, .rm, .sat, .sub] ++ (if ty.scaled || (Fmt.ofCode (g .sub)).scaled then [.c] else []),
                      regs := [vDstReg .d, vSrcReg .a] ++
                        (if ty.scaled || (Fmt.ofCode (g .sub)).scaled then [vWhole .c] else []),
                      inst := if g .sub < 32 then some (.vcvt h d a ty (Fmt.ofCode (g .sub)) (r32 (g .c)) rm sat) else none }
  | 0x15 => some { ofmt := 0, used := [.d, .a, .b, .ty, .sub],
                      regs := [{ f := .d, size := 16, win := 40 }, vSrcReg .a, vOpdReg (bitAt (g .sub) 7) .b],
                      inst := if g .sub / 8 % 16 = 0 then
                          (Cc.ofCode (g .sub % 8)).map
                            (fun cc => .vcmp h cc (r16 (g .d)) a (VOpd.ofCode (bitAt (g .sub) 7) (g .b)) ty)
                        else none }
  | 0x16 => let r := rowVB g (fun o => .vsel h o (r16 (g .c)))
            some { r with used := r.used ++ [.c], regs := r.regs ++ [{ f := .c, size := 16, win := 32 }] }
  | 0x17 => some (rowVB g (fun o => .vand h o))
  | 0x18 => some (rowVB g (fun o => .vor h o))
  | 0x19 => some (rowVB g (fun o => .vxor h o))
  | 0x1a => some (rowVB g (fun o => .vshl h o))
  | 0x1b => some (rowVB g (fun o => .vshr h o))
  | 0x1c => some (rowVB g (fun o => .vsra h o))
  | 0x1d => let r := rowVB g (fun o => .vand h o)
            some { r with used := r.used ++ [.c], regs := r.regs ++ [vOpdReg (bitAt (g .sub) 6) .c],
                          inst := if g .sub % 64 = 0 then
                              some (.vclamp h (VB.ofFlds g) (VOpd.ofCode (bitAt (g .sub) 6) (g .c))) else none }
  | 0x1e => let r := rowV2 g ([.sat] ++ fp) (fun o => .vdot h o (VSrc.ofCode (g .c)))
            some { r with used := r.used ++ [.c], regs := r.regs ++ [vSrcReg .c] }
  | 0x20 => some (rowRed g (fun op d a ty rm sat => .vred h op d a ty rm sat))
  | 0x21 => some (rowRed g (fun op d a ty rm sat => .vscan h op d a ty rm sat))
  | 0x22 => let r := rowRed g (fun op d a ty rm sat => .vmred h op d a b (r16 (g .c)) ty rm sat)
            some { r with used := r.used ++ [.b, .c], regs := r.regs ++ [vSrcReg .b, qReg .c] }
  | 0x23 => some { ofmt := 0, used := [.d, .a, .ty, .sub], regs := [vDstNoPort .d, vSrcReg .a],
                      inst := if bitAt (g .sub) 6 then none
                        else some (.vtopk h (r32 (g .d)) a ty (Fin.ofNat 64 (g .sub)) (bitAt (g .sub) 7)) }
  | 0x24 => some { ofmt := 0, used := [.d, .a, .b, .ty, .sub], regs := [vDstReg .d, vWhole .a, vSrcReg .b],
                      inst := if s0 then some (.vperm h d (r32 (g .a)) b ty) else none }
  | 0x25 => some { ofmt := 0, used := [.d, .b, .ty, .sub] ++ (if g .sub = 1 then [] else [.a]),
                      regs := [vDstReg .d, sReg .b] ++ (if g .sub = 1 then [] else [vWhole .a]),
                      inst := match g .sub with
                        | 0 => some (.vbcastElem h d (r32 (g .a)) (r32 (g .b)) ty)
                        | 1 => some (.vbcastScalar h d (r32 (g .b)) ty)
                        | _ => none }
  | 0x26 => some { ofmt := 0, used := [.d, .a, .b, .ty, .sub], regs := [vDstReg .d, vWhole .a, vWhole .b],
                      inst := some (.vslide h d (r32 (g .a)) (r32 (g .b)) ty (Fin.ofNat 256 (g .sub))) }
  | 0x27 => some { ofmt := 0, used := [.d, .a, .ty, .sub], regs := [vDstReg .d, vWhole .a],
                      inst := if s0 then some (.vcompress h d (r32 (g .a)) ty) else none }
  | 0x28 => some { ofmt := 0, used := [.d, .a, .ty, .sub], regs := [vDstReg .d, vWhole .a],
                      inst := if s0 then some (.vexpand h d (r32 (g .a)) ty) else none }
  | 0x29 => some { ofmt := 0, used := [.d, .a, .ty, .sub], regs := [vDstReg .d, sReg .a],
                      inst := if s0 then some (.vidx h d (r32 (g .a)) ty) else none }
  | 0x2a => some { ofmt := 0, used := [.d, .a, .ty, .sub], regs := [vDstNoPort .d, qReg .a],
                      inst := if s0 then some (.vqcnt h (r32 (g .d)) (r16 (g .a)) ty) else none }
  | 0x30 => some { ofmt := 2, used := [.d, .br, .x, .ofs, .ty, .sp, .lb], regs := [vDstReg .d, sReg .x],
                      inst := some (.vld h d (Ns.ofFlds g)) }
  | 0x31 => some { ofmt := 2, used := [.d, .br, .x, .ofs, .ty, .sp], regs := [vSrcReg .d, sReg .x],
                      inst := some (.vst h (VSrc.ofCode (g .d)) (Ns.ofFlds g)) }
  | 0x32 => some { ofmt := 2, used := [.d, .br, .x, .ofs, .ty, .sp, .lb], regs := [vDstReg .d, sReg .x],
                      inst := some (.vgth h d (Ns.ofFlds g)) }
  | 0x33 => some { ofmt := 2, used := [.d, .br, .x, .ofs, .ty, .sp], regs := [vSrcReg .d, sReg .x],
                      inst := some (.vsct h (VSrc.ofCode (g .d)) (Ns.ofFlds g)) }
  | 0x34 => some { ofmt := 0, used := [.d, .a, .ty, .sub], regs := [vDstReg .d, vSrcReg .a],
                      inst := if s0 then some (.vmov h d a ty) else none }
  | 0x35 => some { ofmt := 0, used := [.d, .a, .ty, .sub], regs := [vDstNoPort .d, sReg .a],
                      inst := some (.vins h (r32 (g .d)) (r32 (g .a)) ty (Fin.ofNat 256 (g .sub))) }
  | 0x36 => some { ofmt := 0, used := [.d, .a, .ty, .sub], regs := [vDstNoPort .d, vWhole .a],
                      inst := some (.vext h (r32 (g .d)) (r32 (g .a)) ty (Fin.ofNat 256 (g .sub))) }
  | 0x37 => some { ofmt := 1, used := [.d, .ty, .imm], regs := [vDstReg .d],
                      inst := some (.vli h d ty (BitVec.ofNat 32 (g .imm))) }
  | 0x38 => some { ofmt := 0, used := [.d, .a, .c, .ty], regs := [vDstNoPort .d, vSrcReg .a, sReg .c],
                      inst := if ty = .fp32 then some (.vhouse h (r32 (g .d)) a (r32 (g .c))) else none }
  | 0x39 => some { ofmt := 0, used := [.d, .a, .c, .ty, .rm, .sat, .sub], regs := [vDstNoPort .d, vWhole .a, sReg .c],
                      inst := some (.vnorm h (r32 (g .d)) (r32 (g .a)) (r32 (g .c)) ty rm sat (BitVec.ofNat 8 (g .sub))) }
  | 0x3a => some { ofmt := 0, used := [.d, .a, .b, .ty, .rm, .sat, .sub], regs := [vDstReg .d, vWhole .a, vWhole .b],
                      inst := if g .sub < 32 then
                          some (.vpack h d (r32 (g .a)) (r32 (g .b)) ty (Fmt.ofCode (g .sub)) rm sat) else none }
  | 0x3b => some { ofmt := 0, used := [.d, .a, .ty, .rm, .sat, .sub], regs := [vDstReg .d, vWhole .a],
                      inst := if g .sub < 64 then
                          some (.vunpk h d (r32 (g .a)) ty (Fmt.ofCode (g .sub)) (bitAt (g .sub) 5) rm sat) else none }
  | _ => none

/-- The operands of `mma` and `mmat` (R140). -/
def Mma.ofFlds (g : Fld → Nat) : Option Mma := do
  let t ← Tacc.ofCode (g .tacc)
  if g .dst < 2 then
    some { ad := r8 (g .ad), ga := r8 (g .ga), gb := r8 (g .gb), ta := Fmt.ofCode (g .ta), tb := Fmt.ofCode (g .tb),
           tacc := t, kt := Fin.ofNat 64 (g .kt), byp := g .byp = 1, za := g .za = 1, ret := g .ret = 1, xp := g .xp = 1,
           sata := (g .dst = 1 : Bool) }
  else none

/-- The operands of `mdrain` (R143). -/
def Mdrain.ofFlds (g : Fld → Nat) : Option Mdrain := do
  let t ← Tacc.ofCode (g .tacc)
  let fn ← Dfn.ofCode (g .dfn)
  let dst ← MDst.ofCode (g .dst)
  some { ad := r8 (g .ad), tacc := t, ta := Fmt.ofCode (g .ta), dst := dst, dfn := fn, vr := r32 (g .vr), sr := r32 (g .sr),
         rm := Rm.ofCode (g .gb % 4), sat := g .gb / 4 = 1, za := g .za = 1, xp := g .xp = 1 }

/-- An orthogonal-accumulator word in F3 (R154); AD above 3, TACC and KT other than permitted are REASON 8. -/
def rowOa (g : Fld → Nat) (ex : List Fld) (regs : List RegFld) (ktMax : Nat) (i : Fin 4 → Instr) : Row :=
  { ofmt := 3, used := [.ad, .tacc, .kt] ++ ex, regs := regs,
    inst := if g .ad < 4 && g .tacc = 0 && g .kt ≤ ktMax then some (i (Fin.ofNat 4 (g .ad))) else none }

/-- A register field of the M column takes no port code. -/
def mReg (f : Fld) (size : Nat) : RegFld := { f := f, size := size }

/-- The M column (R81, R137 to R158). -/
def rowM (op : Nat) (h : Hdr) (g : Fld → Nat) : Option Row :=
  let xp : Bool := g .xp = 1
  let t := Tacc.ofCode (g .tacc)
  let ad := r8 (g .ad)
  let ga := r8 (g .ga)
  match op with
  | 0x00 => some { ofmt := 0, inst := some (.nop .m h) }
  | 0x01 => some { ofmt := 3, used := [.ad, .ga, .gb, .ta, .tb, .tacc, .kt, .byp, .za, .ret, .xp, .dst],
                      inst := (Mma.ofFlds g).map (fun o => .mma h o) }
  | 0x02 => some { ofmt := 3, used := [.ad, .ga, .gb, .ta, .tb, .tacc, .kt, .byp, .za, .ret, .xp, .dst],
                      inst := (Mma.ofFlds g).map (fun o => .mmat h o) }
  | 0x03 => some { ofmt := 3, used := [.ad, .tacc], inst := if g .tacc = 0 then some (.mzero h ad) else none }
  | 0x04 => some { ofmt := 3, used := [.ad, .gb, .ta, .tacc, .za, .xp, .dfn, .vr, .sr, .dst],
                      regs := [mReg .vr 32, mReg .sr 32], port := 40 ≤ g .dst && g .dst < 48,
                      inst := (Mdrain.ofFlds g).map (fun o => .mdrain h o) }
  | 0x05 => some { ofmt := 2, used := [.d, .br, .x, .ofs, .ty, .sp, .lb], regs := [mReg .d 8, sReg .x],
                      inst := some (.mld h (r8 (g .d)) (Ns.ofFlds g)) }
  | 0x06 => some { ofmt := 2, used := [.d, .br, .x, .ofs, .ty, .sp], regs := [mReg .d 8, sReg .x],
                      inst := some (.mst h (r8 (g .d)) (Ns.ofFlds g)) }
  | 0x07 => some { ofmt := 3, used := [.ad, .ga, .tacc, .xp], inst := t.map (fun t => .mmov h ad ga t xp) }
  | 0x08 => some { ofmt := 3, used := [.ad, .ga, .tacc], inst := t.map (fun t => .madd h ad ga t) }
  | 0x09 => some { ofmt := 3, used := [.ad, .ga, .tacc, .sr], regs := [mReg .sr 32],
                      inst := if g .tacc = 0 then some (.mscl h ad ga (r32 (g .sr))) else none }
  | 0x0a => some { ofmt := 3, used := [.ga, .tacc, .vr], regs := [mReg .vr 32],
                      inst := t.map (fun t => .mrowmax h (r32 (g .vr)) ga t) }
  | 0x0b => some { ofmt := 3, used := [.ga, .tacc, .vr], regs := [mReg .vr 32],
                      inst := t.map (fun t => .mrowsum h (r32 (g .vr)) ga t) }
  | 0x10 => some { ofmt := 1, used := [.d, .a, .ty, .imm], regs := [mReg .d 8, sReg .a],
                      inst := if g .imm < 2 ^ 14 then
                          some (.ginit h (r8 (g .d)) (r32 (g .a)) (Fmt.ofCode (g .ty)) (Fin.ofNat 256 (g .imm))
                            (Fin.ofNat 64 (g .imm / 256)))
                        else none }
  | 0x11 => some { ofmt := 1, used := [.d, .imm], regs := [mReg .d 8],
                      inst := if g .imm < 256 then some (.gadv h (r8 (g .d)) (Fin.ofNat 256 (g .imm))) else none }
  | 0x12 => some { ofmt := 1, used := [.d, .imm], regs := [mReg .d 8],
                      inst := if g .imm < 256 then some (.gpop h (r8 (g .d)) (Fin.ofNat 256 (g .imm))) else none }
  | 0x13 => some { ofmt := 1, used := [.d, .a], regs := [sReg .d, mReg .a 8],
                      inst := some (.gstat h (r32 (g .d)) (r8 (g .a))) }
  | 0x14 => some { ofmt := 4, used := [.reg, .port, .ty, .cnt], regs := [mReg .reg 8], port := true,
                      inst := if g .cnt < 32 then
                          some (.gfill h (r8 (g .reg)) (r8 (g .port)) (Fmt.ofCode (g .ty)) (r32 (g .cnt)))
                        else none }
  | 0x20 => some (rowOa g [] [] 0 (fun o => .oaclr h o))
  | 0x21 => some (rowOa g [.vr, .sr] [mReg .vr 32, mReg .sr 32] 32
                      (fun o => .oaapp h o (r32 (g .vr)) (r32 (g .sr)) (Fin.ofNat 64 (g .kt))))
  | 0x22 => some (rowOa g [.vr, .sr] [mReg .vr 32, mReg .sr 32] 32
                      (fun o => .oahh h o (r32 (g .vr)) (r32 (g .sr)) (Fin.ofNat 64 (g .kt))))
  | 0x23 => some (rowOa g [.ga, .xp] [] 0 (fun o => .oaml h o ga xp))
  | 0x24 => some (rowOa g [.ga, .xp] [] 0 (fun o => .oamr h o ga xp))
  | 0x25 => some (rowOa g [.vr, .xp] [mReg .vr 32] 0 (fun o => .oamv h o (r32 (g .vr)) xp))
  | 0x26 => some (rowOa g [] [] 0 (fun o => .oarc h o))
  | 0x27 => some (rowOa g [.sr] [mReg .sr 32] 0 (fun o => .oastat h o (r32 (g .sr))))
  | 0x28 => some (rowOa g [.sr] [mReg .sr 32] 0 (fun o => .oacfg h o (r32 (g .sr))))
  | 0x29 => some (rowOa g [.ga, .xp] [] 0 (fun o => .oaform h o ga xp))
  | 0x2a => some { ofmt := 2, used := [.d, .br, .x, .ofs, .ty, .sp], regs := [mReg .d 4, sReg .x],
                      inst := some (.oasave h (Fin.ofNat 4 (g .d)) (Ns.ofFlds g)) }
  | 0x2b => some { ofmt := 2, used := [.d, .br, .x, .ofs, .ty, .sp, .lb], regs := [mReg .d 4, sReg .x],
                      inst := some (.oaload h (Fin.ofNat 4 (g .d)) (Ns.ofFlds g)) }
  | _ => none

/-- An F6 word: its row with the fields of R173 it uses beside ORD, SC and SUB. TAG is used where a token comes back to echo it: not in
a synchronisation word (R74, R77, R167). `sync` is 1 where the word is always one, 2 where HOLD decides. -/
def rowF6 (g : Fld → Nat) (used : List Fld) (k : F6 → Option Instr) (sync : Nat := 0) : Row :=
  let echoed : Bool := sync = 0 || (sync = 2 && g .hold != 2)
  { ofmt := 6, used := used ++ [.ord, .sc, .sub] ++ (if echoed then [.tag] else []), sync := sync,
    regs := [sReg .cmd, sReg .a, sReg .b].filter (fun r => r.f ∈ used), inst := (F6.ofFlds g).bind k }

/-- The X column (R81, R161 to R190). -/
def rowX (op : Nat) (h : Hdr) (g : Fld → Nat) : Option Row :=
  let ty := Fmt.ofCode (g .ty)
  let p := r8 (g .port)
  let s0 : Bool := g .sub = 0
  let c0 : Bool := g .cnt = 0
  let tag := r16 (g .tag)
  let q : Bool := g .sub = 2
  let sync : Bool := g .hold = 2
  match op with
  | 0x00 => some { ofmt := 0, inst := some (.nop .x h) }
  | 0x01 => some { ofmt := 4, used := [.reg, .port, .ty, .cnt, .sub], port := true,
                      regs := [{ f := .reg, size := if q then 16 else 32 }],
                      inst := match g .sub with
                        | 0 => if c0 then some (.recvS h (r32 (g .reg)) p ty) else none
                        | 1 => if g .cnt < 8 then some (.recvV h (r32 (g .reg)) p ty (r8 (g .cnt))) else none
                        | 2 => if c0 && ty = .int32 then some (.recvQ h (r16 (g .reg)) p) else none
                        | _ => none }
  | 0x02 => some { ofmt := 4, used := [.reg, .port, .ty, .tag, .cnt, .sub], port := true, regs := [sReg .reg],
                      inst := match g .sub with
                        | 0 => if c0 then some (.sendS h p (r32 (g .reg)) ty tag) else none
                        | 1 => if g .cnt < 8 then some (.sendV h p (r32 (g .reg)) ty (r8 (g .cnt)) tag) else none
                        | _ => none }
  | 0x03 => some { ofmt := 4, used := [.reg, .port, .ty, .cnt, .sub], port := true,
                      regs := [{ f := .reg, size := if q then 16 else 32 }],
                      inst := match g .sub with
                        | 0 => if c0 then some (.peekS h (r32 (g .reg)) p ty) else none
                        | 2 => if c0 && ty = .int32 then some (.peekQ h (r16 (g .reg)) p) else none
                        | _ => none }
  | 0x04 => some { ofmt := 4, used := [.reg, .port, .ty, .tag, .cnt, .sub], port := true, regs := [qReg .reg],
                      inst := if s0 && c0 && ty = .int32 then some (.sendq h p (r16 (g .reg)) tag) else none }
  | 0x05 => some { ofmt := 4, used := [.reg, .port, .ty, .cnt, .sub], port := true, regs := [sReg .reg],
                      inst := if s0 && c0 && g .ty = 0 then some (.rxstat h (r32 (g .reg)) p) else none }
  | 0x06 => some { ofmt := 4, used := [.port, .ty, .cnt, .sub], port := true,
                      inst := if s0 && g .ty = 0 && g .cnt < 64 then some (.drop h p (Fin.ofNat 64 (g .cnt))) else none }
  | 0x08 => some { ofmt := 2, used := [.d, .br, .x, .ofs, .ty, .sp, .lb],
                      regs := [{ f := .d, size := 32, win := 40, port := true }, sReg .x],
                      inst := some (.ld h (SPort.ofCode (g .d)) (Ns.ofFlds g)) }
  | 0x09 => some { ofmt := 2, used := [.d, .br, .x, .ofs, .ty, .sp],
                      regs := [{ f := .d, size := 32, win := 32, port := true }, sReg .x],
                      inst := some (.st h (SPort.ofCode (g .d)) (Ns.ofFlds g)) }
  | 0x10 => if bitAt (g .sub) 0 then some (rowF6 g [.cp, .a, .b, .imm] (fun o => some (.lcopyShort h o)))
            else some (rowF6 g [.cmd, .cp] (fun o => some (.lcopy h o)))
  | 0x11 => some (rowF6 g [.cmd, .cp] (fun o => some (.lgath h o)))
  | 0x12 => some (rowF6 g [.cmd, .cp] (fun o => some (.lscat h o)))
  | 0x13 => some (rowF6 g [.cmd, .cp] (fun o => some (.lwin h o)))
  | 0x14 => some (rowF6 g [.cmd, .cp] (fun o => some (.lfill h o)))
  | 0x15 => if bitAt (g .sub) 0 then some (rowF6 g [.cp, .a, .imm] (fun o => some (.lprfShort h o)))
            else some (rowF6 g [.cmd, .cp] (fun o => some (.lprf h o)))
  | 0x16 => some (rowF6 g [.cmd, .cp, .a] (fun o => some (.lexp h o)))
  | 0x17 => some (rowF6 g [.cmd, .cp, .a] (fun o => some (.limp h o)))
  | 0x20 => some (rowF6 g [.cmd, .cp, .a] (fun o => some (.aadd h o)))
  | 0x21 => some (rowF6 g [.cmd, .cp, .a] (fun o => some (.amin h o)))
  | 0x22 => some (rowF6 g [.cmd, .cp, .a] (fun o => some (.amax h o)))
  | 0x23 => some (rowF6 g [.cmd, .cp, .a] (fun o => some (.aand h o)))
  | 0x24 => some (rowF6 g [.cmd, .cp, .a] (fun o => some (.aor h o)))
  | 0x25 => some (rowF6 g [.cmd, .cp, .a] (fun o => some (.axor h o)))
  | 0x26 => some (rowF6 g [.cmd, .cp, .a] (fun o => some (.aswap h o)))
  | 0x27 => some (rowF6 g [.cmd, .cp, .a, .b] (fun o => some (.acas h o)))
  | 0x28 => some (rowF6 g [.cmd, .cp] (fun o => some (.ald h o)))
  | 0x29 => some (rowF6 g [.cmd, .cp, .a] (fun o => some (.ast h o)))
  | 0x2a => some (rowF6 g (if sync then [.cmd, .a, .imm] else [.cmd, .cp, .a, .imm])
                      (fun o => some (if sync then .awaitSync h o else .awaitAsync h o)) 2)
  | 0x2b => some (rowF6 g [.cmd, .cp, .a] (fun o => some (.apop h o)))
  | 0x2c => some (rowF6 g [.cmd, .cp, .a] (fun o => some (.apush h o)))
  | 0x30 => some (rowF6 g [.a, .imm] (fun o => some (.bar h o)) 1)
  | 0x31 => some (rowF6 g [.cp, .a, .imm] (fun o => some (.arrive h o)))
  | 0x32 => some (rowF6 g [.imm] (fun o => some (.bwait h o)) 1)
  | 0x33 => some (rowF6 g (if sync then [] else [.cp])
                      (fun o => some (if sync then .fenceSync h o else .fenceAsync h o)) 2)
  | 0x38 => some (rowF6 g [.cmd, .cp, .a, .imm] (fun o => some (.dsend h o)))
  | 0x39 => some (rowF6 g [.cmd, .cp, .a, .imm] (fun o => some (.dtw h o)))
  | 0x3a => some (rowF6 g [.cmd, .cp, .a, .imm] (fun o => some (.dtd h o)))
  | 0x3b => some (rowF6 g [.cp, .imm] (fun o => some (.dcommit h o)))
  | 0x3c => some (rowF6 g [.cp, .a, .imm] (fun o => some (.dtr h o)))
  | 0x40 => some (rowF6 g [.cmd, .cp, .a, .b] (fun o => some (.dmd h o)))
  | 0x41 => some (rowF6 g [.cp] (fun o => some (.dabn h o)))
  | 0x42 => some (rowF6 g [.cmd, .cp, .a, .b] (fun o => some (.dret h o)))
  | 0x43 => some (rowF6 g [.cmd, .cp] (fun o => some (.dstat h o)))
  | 0x44 => some (rowF6 g [.cmd, .cp] (fun o => some (.ckpt h o)))
  | 0x45 => some (rowF6 g [.cmd, .a] (fun o => some (.liter h o)) 1)
  | 0x48 => some { ofmt := 0, used := [.d, .a], regs := [sReg .d, sReg .a],
                      inst := some (.tlk h (r32 (g .d)) (r32 (g .a))) }
  | 0x49 => some { ofmt := 0, used := [.a, .b, .c], regs := [sReg .a, sReg .b, sReg .c],
                      inst := some (.tins h (r32 (g .a)) (r32 (g .b)) (r32 (g .c))) }
  | 0x4a => some { ofmt := 0, used := [.a], regs := [sReg .a], inst := some (.tinv h (r32 (g .a))) }
  | 0x4b => some { ofmt := 0, inst := some (.tclr h) }
  | 0x50 => some (rowF6 g [.cmd, .cp, .a] (fun o => some (.cfgld h o)))
  | 0x51 => some (rowF6 g [.cp, .a] (fun o => some (.swap h o)))
  | 0x52 => some { ofmt := 5, used := [.imm, .reg], regs := [sReg .reg],
                      inst := some (.trmark h (BitVec.ofNat 32 (g .imm)) (r32 (g .reg))) }
  | _ => none

/-- The opcode map of a column (R81). -/
def rowOf (c : Col) (op : Nat) (h : Hdr) (g : Fld → Nat) : Option Row :=
  match c with
  | .s => rowS op h g
  | .v => rowV op h g
  | .m => rowM op h g
  | .x => rowX op h g

/-- The header fields, which every word uses. -/
def hdrFld : Fld → Bool
  | .op | .fmt | .hold | .rp | .pq | .pn | .fold => true
  | _ => false

/-- R78 for one register field: accepted, check 4. -/
def RegFld.accepted (r : RegFld) (g : Fld → Nat) : Bool :=
  g r.f < r.size || (0 < r.win && r.win ≤ g r.f && g r.f < r.win + 8)

/-- A port code that R78 accepts where the word takes no port: REASON 8 (R107, R109, R121). -/
def RegFld.portRefused (r : RegFld) (g : Fld → Nat) : Bool := r.size ≤ g r.f && !r.port

/-- HOLD of R67 on the raw word, check 7; a port code where the word takes no port is none that it reads (log 96). -/
def Row.holdOk (r : Row) (g : Fld → Nat) : Bool :=
  match g .hold with
  | 0 => r.sync != 1
  | 1 => r.port || r.regs.any (fun x => x.port && x.size ≤ g x.f)
  | 2 => r.sync != 0
  | _ => false

/-- The outcome of decoding a slot word: an instruction, or the REASON of R82. -/
inductive Decoded
  | ok (i : Instr)
  /-- 1 undefined opcode, 2 format mismatch, 3 unused bits, 4 register field, 5 CSR number, 6 RP outside S, 7 HOLD,
  8 a field out of range. -/
  | reject (reason : Nat)
deriving DecidableEq, Repr, Inhabited

/-- The check of R82, in its order. -/
def decode (c : Col) (w : SlotWord) : Decoded :=
  let f := w.toNat / 2 ^ 69 % 8
  let vs := unpack (layout f) w.toNat
  let g := fldGet vs
  match rowOf c (g .op) (Hdr.ofFlds g) g with
  | none => .reject 1
  | some r =>
    if r.ofmt != f then .reject 2
    else if vs.any (fun x => x.2 != 0 && !hdrFld x.1 && !(x.1 ∈ r.used)) then .reject 3
    else if r.regs.any (fun x => !x.accepted g) then .reject 4
    else if r.csr && !csrKnown (g .csr) then .reject 5
    else if g .rp = 1 && c != .s then .reject 6
    else if !r.holdOk g then .reject 7
    else if r.regs.any (fun x => x.portRefused g) then .reject 8
    else match r.inst with
      | none => .reject 8
      | some i => if WellFormed i then .ok i else .reject 8

/-- The instruction of a word, none where R82 rejects it. -/
def Decoded.instr? : Decoded → Option Instr
  | .ok i => some i
  | .reject _ => none

/-- An instruction's place and fields: column, opcode, format, header, operand fields. -/
structure Parts where
  col : Col
  op : Nat
  ofmt : Nat
  h : Hdr
  vals : List (Fld × Nat)
deriving DecidableEq, Repr, Inhabited

def b01 (b : Bool) : Nat := if b then 1 else 0

/-- The value of each field of the parts. -/
def Parts.get (p : Parts) : Fld → Nat
  | .op => p.op
  | .fmt => p.ofmt
  | .hold => p.h.hold.val
  | .rp => b01 p.h.rp
  | .pq => p.h.pq.val
  | .pn => b01 p.h.pn
  | .fold => p.h.fold.val
  | f => fldGet p.vals f

/-- The word of the parts (R66 to R75). -/
def Parts.word (p : Parts) : SlotWord := BitVec.ofNat 80 (pack (layout p.ofmt) p.get)

def encS3 (h : Hdr) (op : Nat) (d a b : Fin 32) (ex : List (Fld × Nat) := []) : Option Parts :=
  some ⟨.s, op, 0, h, [(.d, d.val), (.a, a.val), (.b, b.val)] ++ ex⟩
def encS2 (h : Hdr) (op : Nat) (d a : Fin 32) (ex : List (Fld × Nat) := []) : Option Parts :=
  some ⟨.s, op, 0, h, [(.d, d.val), (.a, a.val)] ++ ex⟩
def encSI (h : Hdr) (op : Nat) (d a : Fin 32) (imm : BitVec 32) : Option Parts :=
  some ⟨.s, op, 1, h, [(.d, d.val), (.a, a.val), (.imm, imm.toNat)]⟩
def encQ3 (h : Hdr) (op : Nat) (d a b : Fin 16) : Option Parts :=
  some ⟨.s, op, 0, h, [(.d, d.val), (.a, a.val), (.b, b.val)]⟩
def encV1 (h : Hdr) (op : Nat) (o : V1) : Option Parts :=
  some ⟨.v, op, 0, h, [(.d, o.d.code), (.a, o.a.code), (.ty, o.ty.code), (.rm, o.rm.code), (.sat, b01 o.sat)]⟩
def encV2 (h : Hdr) (op : Nat) (o : V2) (ex : List (Fld × Nat) := []) : Option Parts :=
  some ⟨.v, op, 0, h, [(.d, o.d.code), (.a, o.a.code), (.b, o.b.code), (.ty, o.ty.code), (.rm, o.rm.code),
    (.sat, b01 o.sat), (.sub, 128 * b01 o.b.isS)] ++ ex⟩
def encV3 (h : Hdr) (op : Nat) (o : V3) : Option Parts :=
  some ⟨.v, op, 0, h, [(.d, o.d.code), (.a, o.a.code), (.b, o.b.code), (.c, o.c.code), (.ty, o.ty.code), (.rm, o.rm.code),
    (.sat, b01 o.sat), (.sub, 128 * b01 o.b.isS + 64 * b01 o.c.isS)]⟩
def encVB (h : Hdr) (op : Nat) (o : VB) (ex : List (Fld × Nat) := []) (sub : Nat := 0) : Option Parts :=
  some ⟨.v, op, 0, h, [(.d, o.d.code), (.a, o.a.code), (.b, o.b.code), (.ty, o.ty.code), (.sub, 128 * b01 o.b.isS + sub)] ++ ex⟩
def encV (h : Hdr) (op : Nat) (vals : List (Fld × Nat)) : Option Parts := some ⟨.v, op, 0, h, vals⟩
def encNs (c : Col) (h : Hdr) (op d : Nat) (n : Ns) : Option Parts :=
  some ⟨c, op, 2, h, [(.d, d), (.br, n.br.val), (.x, n.x.val), (.ty, n.ty.code), (.sp, n.sp.val), (.lb, n.lb.val),
    (.ofs, n.ofs.toNat)]⟩
def encMma (h : Hdr) (op : Nat) (o : Mma) : Option Parts :=
  some ⟨.m, op, 3, h, [(.ad, o.ad.val), (.ga, o.ga.val), (.gb, o.gb.val), (.ta, o.ta.code), (.tb, o.tb.code),
    (.tacc, o.tacc.code), (.kt, o.kt.val), (.byp, b01 o.byp), (.za, b01 o.za), (.ret, b01 o.ret), (.xp, b01 o.xp),
    (.dst, b01 o.sata)]⟩
def encM (h : Hdr) (op f : Nat) (vals : List (Fld × Nat)) : Option Parts := some ⟨.m, op, f, h, vals⟩
def encX (h : Hdr) (op f : Nat) (vals : List (Fld × Nat)) : Option Parts := some ⟨.x, op, f, h, vals⟩
def encF6 (h : Hdr) (op : Nat) (o : F6) : Option Parts :=
  some ⟨.x, op, 6, h, [(.cmd, o.cmd.val), (.cp, o.cp.val), (.ord, o.ord.code), (.sc, o.sc.code), (.a, o.a.val),
    (.b, o.b.val), (.imm, o.imm.toNat), (.sub, o.sub.val), (.tag, o.tag.val)]⟩

/-- The parts of a slot word; a step of the part has none. -/
def Instr.parts : Instr → Option Parts
  | .nop c h => some ⟨c, 0, 0, h, []⟩
  | .add h d a b sat => encS3 h 0x01 d a b [(.sat, b01 sat)]
  | .sub h d a b sat => encS3 h 0x02 d a b [(.sat, b01 sat)]
  | .mul h d a b sat => encS3 h 0x03 d a b [(.sat, b01 sat)]
  | .mulh h d a b => encS3 h 0x04 d a b
  | .mulhz h d a b => encS3 h 0x05 d a b
  | .div h d a b => encS3 h 0x06 d a b
  | .divz h d a b => encS3 h 0x07 d a b
  | .rem h d a b => encS3 h 0x08 d a b
  | .remz h d a b => encS3 h 0x09 d a b
  | .and h d a b => encS3 h 0x0a d a b
  | .or h d a b => encS3 h 0x0b d a b
  | .xor h d a b => encS3 h 0x0c d a b
  | .andn h d a b => encS3 h 0x0d d a b
  | .shl h d a b => encS3 h 0x0e d a b
  | .shr h d a b => encS3 h 0x0f d a b
  | .sra h d a b => encS3 h 0x10 d a b
  | .rotl h d a b => encS3 h 0x11 d a b
  | .min h d a b => encS3 h 0x12 d a b
  | .max h d a b => encS3 h 0x13 d a b
  | .minz h d a b => encS3 h 0x14 d a b
  | .maxz h d a b => encS3 h 0x15 d a b
  | .clz h d a => encS2 h 0x16 d a
  | .ctz h d a => encS2 h 0x17 d a
  | .popc h d a => encS2 h 0x18 d a
  | .bext h d a b => encS3 h 0x19 d a b
  | .bins h d a b c => encS3 h 0x1a d a b [(.c, c.val)]
  | .sel h d a b c => encS3 h 0x1b d a b [(.c, c.val)]
  | .cmp h cc d a b => some ⟨.s, 0x1c, 0, h, [(.d, d.val), (.a, a.val), (.b, b.val), (.sub, cc.code)]⟩
  | .sext h ty d a => encS2 h 0x1d d a [(.ty, ty.code)]
  | .mad h d a b c sat => encS3 h 0x1e d a b [(.c, c.val), (.sat, b01 sat)]
  | .addsh h d a b k => encS3 h 0x1f d a b [(.sub, k.val)]
  | .addi h d a i => encSI h 0x20 d a i
  | .muli h d a i => encSI h 0x21 d a i
  | .andi h d a i => encSI h 0x22 d a i
  | .ori h d a i => encSI h 0x23 d a i
  | .xori h d a i => encSI h 0x24 d a i
  | .shli h d a i => encSI h 0x25 d a i
  | .shri h d a i => encSI h 0x26 d a i
  | .srai h d a i => encSI h 0x27 d a i
  | .cmpi h cc d a i => some ⟨.s, 0x28, 1, h, [(.d, d.val), (.a, a.val), (.imm, i.toNat), (.sub, cc.code)]⟩
  | .mini h d a i => encSI h 0x29 d a i
  | .maxi h d a i => encSI h 0x2a d a i
  | .li h d i => encSI h 0x2b d 0 i
  | .lih h d a i => encSI h 0x2c d a i
  | .lil h d i => some ⟨.s, 0x2f, 7, h, [(.d, d.val), (.imm, i.toNat)]⟩
  | .qand h d a b => encQ3 h 0x30 d a b
  | .qor h d a b => encQ3 h 0x31 d a b
  | .qxor h d a b => encQ3 h 0x32 d a b
  | .qandn h d a b => encQ3 h 0x33 d a b
  | .qnot h d a => encQ3 h 0x34 d a 0
  | .qsetRange h d a b => some ⟨.s, 0x35, 0, h, [(.d, d.val), (.a, a.val), (.b, b.val)]⟩
  | .qsetWord h d a b => some ⟨.s, 0x35, 0, h, [(.d, d.val), (.a, a.val), (.b, b.val), (.sub, 1)]⟩
  | .qget h d a n => some ⟨.s, 0x36, 0, h, [(.d, d.val), (.a, a.val), (.sub, n.val)]⟩
  | .qfirst h d a => some ⟨.s, 0x37, 0, h, [(.d, d.val), (.a, a.val)]⟩
  | .lea h ty d br x ofs =>
    some ⟨.s, 0x38, 2, h, [(.d, d.val), (.br, br.val), (.x, x.val), (.ty, ty.code), (.ofs, ofs.toNat)]⟩
  | .bld h d a idx lb => some ⟨.s, 0x39, 1, h, [(.d, d.val), (.a, a.val), (.imm, idx.toNat + 2 ^ 20 * lb.val)]⟩
  | .bset h d n a => some ⟨.s, 0x3a, 0, h, [(.d, d.val), (.a, a.val), (.sub, n.val)]⟩
  | .bget h d a n => some ⟨.s, 0x3b, 0, h, [(.d, d.val), (.a, a.val), (.sub, n.val)]⟩
  | .mfc h d c => some ⟨.s, 0x40, 5, h, [(.reg, d.val), (.csr, c.val)]⟩
  | .mtc h c a => some ⟨.s, 0x41, 5, h, [(.reg, a.val), (.csr, c.val)]⟩
  | .rgnin h i => some ⟨.s, 0x42, 5, h, [(.imm, i.toNat)]⟩
  | .rgnout h => some ⟨.s, 0x43, 5, h, []⟩
  | .trap h c a => some ⟨.s, 0x44, 5, h, [(.imm, c.toNat), (.reg, a.val)]⟩
  | .brk h c => some ⟨.s, 0x45, 5, h, [(.imm, c.toNat)]⟩
  | .fin h c => some ⟨.s, 0x46, 5, h, [(.imm, c.toNat)]⟩
  | .vadd h o => encV2 h 0x01 o
  | .vsub h o => encV2 h 0x02 o
  | .vmul h o => encV2 h 0x03 o
  | .vmin h o => encV2 h 0x07 o
  | .vmax h o => encV2 h 0x08 o
  | .vrcps h o => encV2 h 0x0d o
  | .vrsqs h o => encV2 h 0x0e o
  | .vscale h o => encV2 h 0x11 o
  | .vfma h o => encV3 h 0x04 o
  | .vfms h o => encV3 h 0x05 o
  | .vfnma h o => encV3 h 0x06 o
  | .vabs h o => encV1 h 0x09 o
  | .vneg h o => encV1 h 0x0a o
  | .vrcp h o => encV1 h 0x0b o
  | .vrsq h o => encV1 h 0x0c o
  | .vexp2 h o => encV1 h 0x0f o
  | .vlog2 h o => encV1 h 0x10 o
  | .vfrexpFrac h d a ty => encV h 0x12 [(.d, d.code), (.a, a.code), (.ty, ty.code)]
  | .vfrexpExp h d a ty => encV h 0x12 [(.d, d.code), (.a, a.code), (.ty, ty.code), (.sub, 1)]
  | .vround h d a ty rm => encV h 0x13 [(.d, d.code), (.a, a.code), (.ty, ty.code), (.rm, rm.code)]
  | .vcvt h d a td ts c rm sat =>
    encV h 0x14 [(.d, d.code), (.a, a.code), (.c, c.val), (.ty, td.code), (.sub, ts.code), (.rm, rm.code), (.sat, b01 sat)]
  | .vcmp h cc d a b ty =>
    encV h 0x15 [(.d, d.val), (.a, a.code), (.b, b.code), (.ty, ty.code), (.sub, cc.code + 128 * b01 b.isS)]
  | .vsel h o c => encVB h 0x16 o [(.c, c.val)]
  | .vand h o => encVB h 0x17 o
  | .vor h o => encVB h 0x18 o
  | .vxor h o => encVB h 0x19 o
  | .vshl h o => encVB h 0x1a o
  | .vshr h o => encVB h 0x1b o
  | .vsra h o => encVB h 0x1c o
  | .vclamp h o c => encVB h 0x1d o [(.c, c.code)] (64 * b01 c.isS)
  | .vdot h o c => encV2 h 0x1e o [(.c, c.code)]
  | .vred h op d a ty rm sat =>
    encV h 0x20 [(.d, d.val), (.a, a.code), (.ty, ty.code), (.rm, rm.code), (.sat, b01 sat), (.sub, op.code)]
  | .vscan h op d a ty rm sat =>
    encV h 0x21 [(.d, d.val), (.a, a.code), (.ty, ty.code), (.rm, rm.code), (.sat, b01 sat), (.sub, op.code)]
  | .vmred h op d a b c ty rm sat =>
    encV h 0x22 [(.d, d.val), (.a, a.code), (.b, b.code), (.c, c.val), (.ty, ty.code), (.rm, rm.code), (.sat, b01 sat),
      (.sub, op.code)]
  | .vtopk h d a ty k v => encV h 0x23 [(.d, d.val), (.a, a.code), (.ty, ty.code), (.sub, k.val + 128 * b01 v)]
  | .vqcnt h d a ty => encV h 0x2a [(.d, d.val), (.a, a.val), (.ty, ty.code)]
  | .vperm h d a b ty => encV h 0x24 [(.d, d.code), (.a, a.val), (.b, b.code), (.ty, ty.code)]
  | .vbcastElem h d a b ty => encV h 0x25 [(.d, d.code), (.a, a.val), (.b, b.val), (.ty, ty.code)]
  | .vbcastScalar h d b ty => encV h 0x25 [(.d, d.code), (.b, b.val), (.ty, ty.code), (.sub, 1)]
  | .vslide h d a b ty n => encV h 0x26 [(.d, d.code), (.a, a.val), (.b, b.val), (.ty, ty.code), (.sub, n.val)]
  | .vcompress h d a ty => encV h 0x27 [(.d, d.code), (.a, a.val), (.ty, ty.code)]
  | .vexpand h d a ty => encV h 0x28 [(.d, d.code), (.a, a.val), (.ty, ty.code)]
  | .vidx h d a ty => encV h 0x29 [(.d, d.code), (.a, a.val), (.ty, ty.code)]
  | .vmov h d a ty => encV h 0x34 [(.d, d.code), (.a, a.code), (.ty, ty.code)]
  | .vins h d a ty n => encV h 0x35 [(.d, d.val), (.a, a.val), (.ty, ty.code), (.sub, n.val)]
  | .vext h d a ty n => encV h 0x36 [(.d, d.val), (.a, a.val), (.ty, ty.code), (.sub, n.val)]
  | .vli h d ty i => some ⟨.v, 0x37, 1, h, [(.d, d.code), (.ty, ty.code), (.imm, i.toNat)]⟩
  | .vld h d n => encNs .v h 0x30 d.code n
  | .vst h d n => encNs .v h 0x31 d.code n
  | .vgth h d n => encNs .v h 0x32 d.code n
  | .vsct h d n => encNs .v h 0x33 d.code n
  | .vhouse h d a c => encV h 0x38 [(.d, d.val), (.a, a.code), (.c, c.val)]
  | .vnorm h d a c ty rm sat t =>
    encV h 0x39 [(.d, d.val), (.a, a.val), (.c, c.val), (.ty, ty.code), (.rm, rm.code), (.sat, b01 sat), (.sub, t.toNat)]
  | .vpack h d a b td ts rm sat =>
    encV h 0x3a [(.d, d.code), (.a, a.val), (.b, b.val), (.ty, td.code), (.sub, ts.code), (.rm, rm.code), (.sat, b01 sat)]
  | .vunpk h d a td ts hi rm sat =>
    encV h 0x3b [(.d, d.code), (.a, a.val), (.ty, td.code), (.sub, ts.code + 32 * b01 hi), (.rm, rm.code), (.sat, b01 sat)]
  | .mma h o => encMma h 0x01 o
  | .mmat h o => encMma h 0x02 o
  | .mzero h ad => encM h 0x03 3 [(.ad, ad.val)]
  | .mdrain h o =>
    encM h 0x04 3 [(.ad, o.ad.val), (.tacc, o.tacc.code), (.ta, o.ta.code), (.dst, o.dst.code), (.dfn, o.dfn.code),
      (.vr, o.vr.val), (.sr, o.sr.val), (.gb, o.rm.code + 4 * b01 o.sat), (.za, b01 o.za), (.xp, b01 o.xp)]
  | .mld h ad n => encNs .m h 0x05 ad.val n
  | .mst h ad n => encNs .m h 0x06 ad.val n
  | .mmov h ad ga t xp => encM h 0x07 3 [(.ad, ad.val), (.ga, ga.val), (.tacc, t.code), (.xp, b01 xp)]
  | .madd h ad ga t => encM h 0x08 3 [(.ad, ad.val), (.ga, ga.val), (.tacc, t.code)]
  | .mscl h ad ga sr => encM h 0x09 3 [(.ad, ad.val), (.ga, ga.val), (.sr, sr.val)]
  | .mrowmax h vr ga t => encM h 0x0a 3 [(.vr, vr.val), (.ga, ga.val), (.tacc, t.code)]
  | .mrowsum h vr ga t => encM h 0x0b 3 [(.vr, vr.val), (.ga, ga.val), (.tacc, t.code)]
  | .ginit h g a ty cap kb =>
    encM h 0x10 1 [(.d, g.val), (.a, a.val), (.ty, ty.code), (.imm, cap.val + 256 * kb.val)]
  | .gadv h g n => encM h 0x11 1 [(.d, g.val), (.imm, n.val)]
  | .gpop h g n => encM h 0x12 1 [(.d, g.val), (.imm, n.val)]
  | .gstat h d g => encM h 0x13 1 [(.d, d.val), (.a, g.val)]
  | .gfill h g p ty cnt => encM h 0x14 4 [(.reg, g.val), (.port, p.val), (.ty, ty.code), (.cnt, cnt.val)]
  | .oaclr h o => encM h 0x20 3 [(.ad, o.val)]
  | .oaapp h o vr sr kt => encM h 0x21 3 [(.ad, o.val), (.vr, vr.val), (.sr, sr.val), (.kt, kt.val)]
  | .oahh h o vr sr kt => encM h 0x22 3 [(.ad, o.val), (.vr, vr.val), (.sr, sr.val), (.kt, kt.val)]
  | .oaml h o ga xp => encM h 0x23 3 [(.ad, o.val), (.ga, ga.val), (.xp, b01 xp)]
  | .oamr h o ga xp => encM h 0x24 3 [(.ad, o.val), (.ga, ga.val), (.xp, b01 xp)]
  | .oamv h o vr xp => encM h 0x25 3 [(.ad, o.val), (.vr, vr.val), (.xp, b01 xp)]
  | .oarc h o => encM h 0x26 3 [(.ad, o.val)]
  | .oastat h o sr => encM h 0x27 3 [(.ad, o.val), (.sr, sr.val)]
  | .oacfg h o sr => encM h 0x28 3 [(.ad, o.val), (.sr, sr.val)]
  | .oaform h o ga xp => encM h 0x29 3 [(.ad, o.val), (.ga, ga.val), (.xp, b01 xp)]
  | .oasave h o n => encNs .m h 0x2a o.val n
  | .oaload h o n => encNs .m h 0x2b o.val n
  | .recvS h d p ty => encX h 0x01 4 [(.reg, d.val), (.port, p.val), (.ty, ty.code)]
  | .recvV h d p ty c => encX h 0x01 4 [(.reg, d.val), (.port, p.val), (.ty, ty.code), (.cnt, c.val), (.sub, 1)]
  | .recvQ h d p => encX h 0x01 4 [(.reg, d.val), (.port, p.val), (.ty, 0x0a), (.sub, 2)]
  | .sendS h p a ty t => encX h 0x02 4 [(.reg, a.val), (.port, p.val), (.ty, ty.code), (.tag, t.val)]
  | .sendV h p a ty c t =>
    encX h 0x02 4 [(.reg, a.val), (.port, p.val), (.ty, ty.code), (.tag, t.val), (.cnt, c.val), (.sub, 1)]
  | .peekS h d p ty => encX h 0x03 4 [(.reg, d.val), (.port, p.val), (.ty, ty.code)]
  | .peekQ h d p => encX h 0x03 4 [(.reg, d.val), (.port, p.val), (.ty, 0x0a), (.sub, 2)]
  | .sendq h p a t => encX h 0x04 4 [(.reg, a.val), (.port, p.val), (.ty, 0x0a), (.tag, t.val)]
  | .rxstat h d p => encX h 0x05 4 [(.reg, d.val), (.port, p.val)]
  | .drop h p c => encX h 0x06 4 [(.port, p.val), (.cnt, c.val)]
  | .ld h d n => encNs .x h 0x08 (d.code 40) n
  | .st h d n => encNs .x h 0x09 (d.code 32) n
  | .lcopy h o => encF6 h 0x10 o
  | .lcopyShort h o => encF6 h 0x10 o
  | .lgath h o => encF6 h 0x11 o
  | .lscat h o => encF6 h 0x12 o
  | .lwin h o => encF6 h 0x13 o
  | .lfill h o => encF6 h 0x14 o
  | .lprf h o => encF6 h 0x15 o
  | .lprfShort h o => encF6 h 0x15 o
  | .lexp h o => encF6 h 0x16 o
  | .limp h o => encF6 h 0x17 o
  | .aadd h o => encF6 h 0x20 o
  | .amin h o => encF6 h 0x21 o
  | .amax h o => encF6 h 0x22 o
  | .aand h o => encF6 h 0x23 o
  | .aor h o => encF6 h 0x24 o
  | .axor h o => encF6 h 0x25 o
  | .aswap h o => encF6 h 0x26 o
  | .acas h o => encF6 h 0x27 o
  | .ald h o => encF6 h 0x28 o
  | .ast h o => encF6 h 0x29 o
  | .awaitSync h o => encF6 h 0x2a o
  | .awaitAsync h o => encF6 h 0x2a o
  | .apop h o => encF6 h 0x2b o
  | .apush h o => encF6 h 0x2c o
  | .bar h o => encF6 h 0x30 o
  | .arrive h o => encF6 h 0x31 o
  | .bwait h o => encF6 h 0x32 o
  | .fenceSync h o => encF6 h 0x33 o
  | .fenceAsync h o => encF6 h 0x33 o
  | .dsend h o => encF6 h 0x38 o
  | .dtw h o => encF6 h 0x39 o
  | .dtd h o => encF6 h 0x3a o
  | .dcommit h o => encF6 h 0x3b o
  | .dtr h o => encF6 h 0x3c o
  | .dmd h o => encF6 h 0x40 o
  | .dabn h o => encF6 h 0x41 o
  | .dret h o => encF6 h 0x42 o
  | .dstat h o => encF6 h 0x43 o
  | .ckpt h o => encF6 h 0x44 o
  | .liter h o => encF6 h 0x45 o
  | .cfgld h o => encF6 h 0x50 o
  | .swap h o => encF6 h 0x51 o
  | .tlk h d a => encX h 0x48 0 [(.d, d.val), (.a, a.val)]
  | .tins h a b c => encX h 0x49 0 [(.a, a.val), (.b, b.val), (.c, c.val)]
  | .tinv h a => encX h 0x4a 0 [(.a, a.val)]
  | .tclr h => encX h 0x4b 0 []
  | .trmark h i a => encX h 0x52 5 [(.imm, i.toNat), (.reg, a.val)]
  | _ => none

/-- The column and the word of an instruction (R66 to R75, R81); none for a step of the part. -/
def encode (i : Instr) : Option (Col × SlotWord) := i.parts.map (fun p => (p.col, p.word))

/-- The part's own steps in the table's order, each with its operands zero: they have no encoding in the spec, and these
numbers are the model's own (log 6). -/
def stepOfNumber : Nat → Option Instr
  | 0 => some (.slotStart 0)
  | 1 => some (.chunkIssue 0 .v)
  | 2 => some (.rewindResume 0)
  | 3 => some (.restartHoldExpiry 0)
  | 4 => some (.resultReady 0)
  | 5 => some (.loadResponse 0)
  | 6 => some (.recompactionEnd 0)
  | 7 => some (.remoteAccessArrive 0 0)
  | 8 => some (.remoteWriteApply 0)
  | 9 => some (.tokenArrival 0)
  | 10 => some (.engineAccept 0)
  | 11 => some (.ladleExecute 0 0)
  | 12 => some (.bellwetherOp 0)
  | 13 => some (.awaitRecheck 0 0)
  | 14 => some (.awaitTimeout 0 0)
  | 15 => some (.barrierCount 0)
  | 16 => some (.podCountMessage)
  | 17 => some (.podRelease)
  | 18 => some (.podFlush)
  | 19 => some (.demandUnitCommand 0)
  | 20 => some (.demandRequest 0 0)
  | 21 => some (.outputDelivery 0 0)
  | 22 => some (.droveAccept 0 0)
  | 23 => some (.droveStage 0 0 0)
  | 24 => some (.droveExit 0 0)
  | 25 => some (.droveTableOp 0 0)
  | 26 => some (.dcommitDrained 0 0)
  | 27 => some (.configLoad 0)
  | 28 => some (.planeFlip 0)
  | 29 => some (.completionTokenDelivery 0 0)
  | 30 => some (.finRecord 0)
  | 31 => some (.penEnd 0)
  | 32 => some (.shepherdTake)
  | 33 => some (.launch)
  | 34 => some (.preemptRestore 0)
  | 35 => some (.demand)
  | 36 => some (.patch)
  | 37 => some (.replay)
  | 38 => some (.exportRec)
  | 39 => some (.importRec)
  | 40 => some (.freeze)
  | 41 => some (.thaw)
  | 42 => some (.teardown)
  | 43 => some (.scrubComplete 0)
  | 44 => some (.table)
  | 45 => some (.wait)
  | 46 => some (.signal)
  | 47 => some (.qtailWrite)
  | 48 => some (.queueDescWrite)
  | 49 => some (.contextWrite)
  | 50 => some (.keyInstall)
  | 51 => some (.inval)
  | 52 => some (.invalComplete)
  | 53 => some (.frptrWrite)
  | 54 => some (.hbaseWrite)
  | 55 => some (.podcfgWrite)
  | 56 => some (.bpctlWrite)
  | 57 => some (.registerWrite)
  | 58 => some (.patrolScrub)
  | 59 => some (.powerSample)
  | 60 => some (.levelChangeDone 0 0)
  | 61 => some (.alarmClassA)
  | 62 => some (.alarmClassB)
  | 63 => some (.coldReset)
  | 64 => some (.warmReset)
  | 65 => some (.functionLevelReset)
  | 66 => some (.bringupStep)
  | 67 => some (.recoveryImageWrite)
  | 68 => some (.spdmMeasurements)
  | 69 => some (.flitReceive)
  | 70 => some (.cxlMemAccess)
  | 71 => some (.cxlCacheLineLoss)
  | 72 => some (.countMessageSend)
  | _ => none

/-- The instruction a table word stands for: bits 79:0 the slot word, bits 87:80 the column (0 S, 1 V, 2 M, 3 X), or 4 for
a step of the part, whose number stands in bits 15:0 (log 6). -/
def decodeTableWord (_nbits w : Nat) : Option Instr :=
  match w / 2 ^ 80 % 256 with
  | 0 => (decode .s (BitVec.ofNat 80 w)).instr?
  | 1 => (decode .v (BitVec.ofNat 80 w)).instr?
  | 2 => (decode .m (BitVec.ofNat 80 w)).instr?
  | 3 => (decode .x (BitVec.ofNat 80 w)).instr?
  | 4 => stepOfNumber (w % 65536)
  | _ => none

end Sys2Proof
end

