-- ==== Sys2Proof/Machine/Memory.lean ====
section
/-! DEFINITION. Tables and memory as sorted lists, bytes and their order (R13), the keys of near space (R232) and the
translation of virtual addresses (R339 to R341). -/

namespace Sys2Proof.Machine

open Sys2Proof

/-- The value at a key. -/
def Tab.find {α : Type} : Tab α → Nat → Option α
  | [], _ => none
  | (k, v) :: t, n => if k = n then some v else Tab.find t n

/-- Set the value at a key, keeping the keys strictly rising. -/
def Tab.put {α : Type} : Tab α → Nat → α → Tab α
  | [], n, x => [(n, x)]
  | (k, v) :: t, n, x => if n < k then (n, x) :: (k, v) :: t else if n = k then (n, x) :: t else (k, v) :: Tab.put t n x

/-- Remove a key. -/
def Tab.del {α : Type} : Tab α → Nat → Tab α
  | [], _ => []
  | (k, v) :: t, n => if k = n then t else (k, v) :: Tab.del t n

/-- The keys of a table rise strictly. -/
def Tab.sorted {α : Type} : Tab α → Bool
  | [] => true
  | [_] => true
  | (k, _) :: (k', v) :: t => k < k' && Tab.sorted ((k', v) :: t)

/-- What an unlisted byte reads as (log 2). -/
def Mem.blank : Byte := 0

/-- One byte. -/
def Mem.get (m : Mem) (k : Nat) : Byte := (Tab.find m k).getD Mem.blank

/-- Write one byte, keeping the canonical form. -/
def Mem.set (m : Mem) (k : Nat) (b : Byte) : Mem := if b = Mem.blank then Tab.del m k else Tab.put m k b

/-- The canonical form: keys strictly rising and no entry that reads as an unlisted byte does. -/
def Mem.wf (m : Mem) : Bool := Tab.sorted m && m.all (fun c => c.2 != Mem.blank)

/-- `n` bytes from a key upward. -/
def Mem.read (m : Mem) (k : Nat) : Nat → List Byte
  | 0 => []
  | n + 1 => m.get k :: Mem.read m (k + 1) n

/-- Write bytes from a key upward. -/
def Mem.write (m : Mem) (k : Nat) : List Byte → Mem
  | [] => m
  | b :: bs => Mem.write (m.set k b) (k + 1) bs

/-- Bytes at a list of keys. -/
def Mem.readAt (m : Mem) (ks : List Nat) : List Byte := ks.map m.get

/-- Write bytes at a list of keys, in order. -/
def Mem.writeAt (m : Mem) : List Nat → List Byte → Mem
  | k :: ks, b :: bs => Mem.writeAt (m.set k b) ks bs
  | _, _ => m

/-- The number a little-endian byte string holds (R13). -/
def leNat : List Byte → Nat
  | [] => 0
  | b :: bs => b.toNat + 256 * leNat bs

/-- The `n` little-endian bytes of a number (R13). -/
def leBytes : Nat → Nat → List Byte
  | 0, _ => []
  | n + 1, v => BitVec.ofNat 8 v :: leBytes n (v / 256)

def leW64 (bs : List Byte) : W64 := BitVec.ofNat 64 (leNat bs)

/-- Word `i` of 64 bits of a byte string. -/
def wordAt (bs : List Byte) (i : Nat) : W64 := leW64 ((bs.drop (8 * i)).take 8)

/-- Bits `hi` to `lo` of a number. -/
def natBits (n hi lo : Nat) : Nat := n / 2 ^ lo % 2 ^ (hi + 1 - lo)

/-- Bits `hi` to `lo` of a word. -/
def bitsOf {w : Nat} (x : BitVec w) (hi lo : Nat) : Nat := natBits x.toNat hi lo

/-- A number below 2^n read as two's complement. -/
def signed (n v : Nat) : Int := if v % 2 ^ n < 2 ^ (n - 1) then (v % 2 ^ n : Nat) else ((v % 2 ^ n : Nat) : Int) - 2 ^ n

/-- The `n`-bit two's complement pattern of an integer. -/
def wrapN (n : Nat) (x : Int) : Nat := (x % (2 ^ n : Nat)).toNat

/-- Cores of the package: 192 on each of 4 dies (R1, R232). -/
def coresPerDie : Nat := 192

/-- The die of a core of the package. -/
def coreDie (c : Nat) : Nat := c / coresPerDie

/-- The index of a core on its die. -/
def coreIdx (c : Nat) : Nat := c % coresPerDie

/-- The key of a byte of near space by its address (R232). (log 3) -/
def nearKey (addr : Nat) : Nat := 2 ^ 52 + addr

/-- The near-space address of an offset in a core's scratchpad (R232). -/
def nearAddr (c ofs : Nat) : Nat := coreDie c * 2 ^ 30 + coreIdx c * 2 ^ 22 + ofs % 2 ^ 20

/-- The core of the package that owns a near-space address (R232). -/
def nearCore (addr : Nat) : Nat := natBits addr 31 30 * coresPerDie + natBits addr 29 22

/-- R233: reserved bits set or a core that does not exist. -/
def nearMalformed (addr : Nat) : Bool := natBits addr 21 20 != 0 || coresPerDie ≤ natBits addr 29 22

/-- Kinds of access for permission (R342, R343). -/
inductive Acc | rd | wr | atomic
deriving DecidableEq, Repr, Inhabited

/-- Reasons of a translation fault (R343), with the level at which the walk stopped. -/
inductive XFault
  | notValid (l : Nat) | rsvd (l : Nat) | nonCanon | perm (l : Nat) | attr (l : Nat)
  /-- no translation fault: a chunk that does not decode (R253), poison (R352) -/
  | decode | poison
deriving DecidableEq, Repr, Inhabited

/-- The REASON code (R343). -/
def XFault.reason : XFault → Nat
  | .notValid _ => 1 | .rsvd _ => 2 | .nonCanon => 3 | .perm _ => 4 | .attr _ => 5
  | .decode | .poison => 0

def XFault.level : XFault → Nat
  | .notValid l | .rsvd l | .perm l | .attr l => l
  | .nonCanon | .decode | .poison => 0

/-- The completion code (R343). -/
def XFault.code : XFault → Nat
  | .notValid _ | .rsvd _ | .nonCanon => 1
  | .perm _ => 2
  | .attr _ => 5
  | .decode => 4
  | .poison => 11

/-- May the access park (R343)? -/
def XFault.parkable : XFault → Bool
  | .notValid _ | .rsvd _ => true
  | _ => false

/-- Is the PA host memory (R340)? -/
def paHost (pa : Nat) : Bool := bitAt pa 51

/-- Is the PA another pod member's memory (R365)? -/
def paPeer (pa : Nat) : Bool := !bitAt pa 51 && bitAt pa 50

/-- Bytes of HBM of the package (R285). -/
def hbmBytes : Nat := 768 * 2 ^ 30

/-- A PA that R365 reserves; `own` is the package's member number. -/
def paReserved (own pa : Nat) : Bool :=
  (pa / 2 ^ 50 % 4 = 0 && hbmBytes ≤ pa) || (paPeer pa && natBits pa 49 40 = own)

/-- The die whose HBM holds a PA; die 0 for host memory (R177, R285). -/
def paDie (pa : Nat) : Nat := if paHost pa then 0 else pa / (192 * 2 ^ 30) % 4

/-- The level of a leaf's table, kept above its 52 bits: 0 for a range entry (R342). -/
def leafLevel (leaf : Nat) : Nat := leaf / 2 ^ 52

/-- Entries of a run by CONT (R340). -/
def contLen (cont : Nat) : Nat := if cont = 1 then 16 else if cont = 2 then 256 else 1

/-- Are some of `n` physical bytes poisoned (R352)? -/
def poisonAt (bad : List Nat) (pa n : Nat) : Bool := bad.any (fun k => decide (pa ≤ k) && decide (k < pa + n))

/-- The entry of table `tbl` that translates index `i`, as the page it gives that index: itself, or one of its run whose entries may
disagree, whichever `pick` says (R340); a poisoned one gives nothing. `sz` is a page's size. -/
def contEntry (m : Mem) (bad : List Nat) (tbl i sz pick e : Nat) : Nat :=
  let n := contLen (natBits e 10 9)
  if n = 1 then e
  else
    let j := i / n * n + pick % n
    let x := leNat (m.read (tbl + 8 * j) 8)
    if !poisonAt bad (tbl + 8 * j) 8 && x % 4 = 3 && natBits x 10 9 = natBits e 10 9 && natBits x 63 52 = 0 && !bitAt x 11 && natBits x 51 12 * 4096 % sz = 0 then
      (natBits x 51 12 * 4096 + 2 ^ 52 + i * sz - j * sz) % 2 ^ 52 + x % 4096
    else e

/-- The table walk from level `l + 1` (R339, R340): the physical page address plus attribute bits 11:0 of the leaf, and its level. A
poisoned entry is no data: the access completes with POISON (R352). -/
def walk (m : Mem) (bad : List Nat) (own va pick : Nat) : Nat → Nat → Except XFault Nat
  | 0, _ => .error (.rsvd 0)
  | l + 1, tbl =>
    let L := l + 1
    let sz := 2 ^ (12 + 9 * l)
    let e := leNat (m.read (tbl + 8 * (va / sz % 512)) 8)
    let pa := natBits e 51 12 * 4096
    let cont := natBits e 10 9
    if poisonAt bad (tbl + 8 * (va / sz % 512)) 8 then .error .poison
    else if !bitAt e 0 then .error (.notValid L)
    else if natBits e 63 52 != 0 || bitAt e 11 then .error (.rsvd L)
    else if !bitAt e 1 then
      if L = 1 || natBits e 11 2 != 0 || paPeer pa || paReserved own pa then .error (.rsvd L)
      else walk m bad own va pick l pa
    else if L = 4 || cont = 3 || (cont = 1 && 2 < L) || (cont = 2 && L != 2) || pa % sz != 0 then .error (.rsvd L)
    else
      let x := contEntry m bad tbl (va / sz % 512) sz pick e
      let pa := natBits x 51 12 * 4096
      if paReserved own pa then .error (.rsvd L) else .ok (L * 2 ^ 52 + pa + va % sz / 4096 * 4096 + x % 4096)

/-- The first valid range entry that covers an address (R339): its page address plus attributes. A CONT of 11 faults in it as in any
entry (R340); a run has no meaning for a range. An entry read as poison, by its place, may cover the address: POISON (R352, log 122). -/
def rangeHit (own va : Nat) (bad : List Nat := []) : List (W64 × W64 × W64 × W64) → Option (Except XFault Nat)
  | [] => none
  | (q0, q1, q2, q3) :: r =>
    if bad.contains r.length then some (.error .poison)
    else if bitAt q3.toNat 63 && bitsOf q3 62 11 = 0 && q0.toNat < q1.toNat && q0.toNat ≤ va && va < q1.toNat then
      let pa := (va + q2.toNat) % 2 ^ 52 / 4096 * 4096
      some (if paReserved own pa || bitsOf q3 10 9 = 3 then .error (.rsvd 0) else .ok (pa + bitsOf q3 10 2 * 4 + 3))
    else rangeHit own va bad r

/-- The walk of a context's tables from ROOT, which no peer memory and no reserved address may hold (R340, R365). -/
def State.walkFrom (s : State) (own : Nat) (c : Ctx) (va : Nat) : Except XFault Nat :=
  let root := bitsOf c.w[0] 51 12 * 4096
  if paPeer root || paReserved own root then .error (.rsvd 4)
  else walk s.mem s.poison own va (Config.freeWord s.fresh).toNat 4 root

/-- The member number of the package in its pod (R363). -/
def State.member (s : State) : Nat := bitsOf s.svc.podcfg 25 16

/-- A context's record. -/
def State.ctx (s : State) (n : Nat) : Ctx := (Tab.find s.ctxs n).getD {}

def State.setCtx (s : State) (n : Nat) (c : Ctx) : State := { s with ctxs := Tab.put s.ctxs n c }

/-- Does a table of level `l + 1` map a physical address by a compressed leaf? -/
def mapsCompressed (m : Mem) (pa : Nat) : Nat → Nat → Bool
  | 0, _ => false
  | l + 1, tbl => (List.range 512).any (fun i =>
    let e := leNat (m.read (tbl + 8 * i) 8)
    let p := natBits e 51 12 * 4096
    bitAt e 0 && (if bitAt e 1 then bitAt e 4 && decide (p / 2 ^ (12 + 9 * l) = pa / 2 ^ (12 + 9 * l)) else mapsCompressed m pa l p))

/-- Does some enabled context map a page of local memory with the compression attribute (R257)? -/
def State.compressedView (s : State) (pa : Nat) : Bool :=
  s.ctxs.any (fun c => bitAt c.2.w[2].toNat 63 &&
    (c.2.ranges.any (fun r => bitAt r.2.2.2.toNat 63 && bitAt r.2.2.2.toNat 4 &&
        decide ((r.1.toNat + r.2.2.1.toNat) % 2 ^ 52 ≤ pa) && decide (pa < (r.2.1.toNat + r.2.2.1.toNat) % 2 ^ 52))
      || mapsCompressed s.mem pa 4 (bitsOf c.2.w[0] 51 12 * 4096)))

/-- Check a leaf's attributes against the access, and give the byte's physical address (R257, R340, R343). -/
def leafPa (s : State) (va : Nat) (acc : Acc) (leaf : Nat) : Except XFault (Nat × Nat) :=
  let l := leafLevel leaf
  let attr := leaf % 4096
  let page := leaf % 2 ^ 52 / 4096 * 4096
  let ofs := va % 4096
  let ofs := if bitAt attr 5 then ofs ^^^ (ofs / 512 % 8 * 64) else ofs
  let ok := match acc with
    | .rd => bitAt attr 2
    | .wr => bitAt attr 3
    | .atomic => bitAt attr 2 && bitAt attr 3
  if bitAt attr 4 && (paHost page || paPeer page || !bitAt s.hbase.toNat 0) then .error (.attr l)
  else if !ok then .error (.perm l)
  else if acc != .rd && !bitAt attr 4 && !bitAt attr 8 && !paHost page && !paPeer page && s.compressedView page then
    .error (.attr l)
  else .ok (page + ofs, attr)

/-- Translate one virtual address in a context (R339): physical address and attributes. A cached leaf that differs from the
tables' may still be used until INVAL drops it (R341, log 4). -/
def State.xlate (s : State) (ctx : Nat) (va : Nat) (acc : Acc) : Except XFault (Nat × Nat) :=
  let c := s.ctx ctx
  let top := va / 2 ^ 47
  let use := leafPa s (va % 2 ^ 48) acc
  if top != 0 && top != 2 ^ 17 - 1 then .error .nonCanon
  else match rangeHit s.member (va % 2 ^ 48) c.badRanges c.ranges with
    | some (.ok leaf) => use leaf
    | some (.error e) => .error e
    | none =>
      match s.tlb.find? (fun e => e.1 = ctx && e.2.1 = va % 2 ^ 48 / 4096), s.walkFrom s.member c (va % 2 ^ 48) with
      | some e, .ok leaf => use (if e.2.2 != leaf && Config.choice s.fresh then e.2.2 else leaf)
      | some e, .error x => if Config.choice s.fresh then use e.2.2 else .error x
      | none, .ok leaf => use leaf
      | none, .error x => .error x

/-- Is the leaf of an address in the translation cache, or none needed (R341)? -/
def State.tlbHas (s : State) (ctx va : Nat) : Bool :=
  (rangeHit s.member (va % 2 ^ 48) (s.ctx ctx).badRanges (s.ctx ctx).ranges).isSome || s.tlb.any (fun e => e.1 = ctx && e.2.1 = va % 2 ^ 48 / 4096)

/-- A leaf used by an access enters the translation cache (R341). -/
def State.tlbNote (s : State) (ctx va : Nat) : State :=
  match s.walkFrom s.member (s.ctx ctx) (va % 2 ^ 48) with
  | .ok leaf => if s.tlbHas ctx va then s else { s with tlb := s.tlb ++ [(ctx, va % 2 ^ 48 / 4096, leaf)] }
  | .error _ => s

/-- The physical address alone. -/
def State.xlatePa (s : State) (ctx va : Nat) (acc : Acc) : Except XFault Nat :=
  match s.xlate ctx va acc with
  | .ok x => .ok x.1
  | .error e => .error e

/-- The places (physical address and attributes) of `n` bytes from a virtual address, translated again at every 64-byte
line. -/
def State.placesAux (s : State) (ctx : Nat) (acc : Acc) : Nat → Nat → Option (Nat × Nat) → Except XFault (List (Nat × Nat))
  | 0, _, _ => .ok []
  | n + 1, va, cur =>
    match (match cur with | some x => Except.ok x | none => s.xlate ctx va acc) with
    | .error e => .error e
    | .ok x =>
      match State.placesAux s ctx acc n (va + 1) (if (va + 1) % 64 = 0 then none else some (x.1 + 1, x.2)) with
      | .ok ks => .ok (x :: ks)
      | .error e => .error e

def State.places (s : State) (ctx va n : Nat) (acc : Acc) : Except XFault (List (Nat × Nat)) := s.placesAux ctx acc n va none

end Sys2Proof.Machine
end

