-- ==== Sys2Proof/Machine/Sprue.lean ====
section
/-! DEFINITION. CRC-32C (R266), the chunk codecs of the sprue tiles (R251 to R254), encryption of a protected context's bytes
(R348), the view an agent reads memory through (R287, R288), and reads and writes at virtual addresses. -/

namespace Sys2Proof.Machine

open Sys2Proof

/-! ### CRC-32C (R266) -/

/-- One bit of the reflected CRC-32C. -/
def crcBit (c : Nat) : Nat := if c % 2 = 1 then Nat.xor (c / 2) 0x82F63B78 else c / 2

/-- One byte. -/
def crcByte (c : Nat) (b : Byte) : Nat := crcBit (crcBit (crcBit (crcBit (crcBit (crcBit (crcBit (crcBit (Nat.xor c b.toNat))))))))

/-- CRC-32C with initial value 0xFFFF_FFFF and a final complement. -/
def crc32c (bs : List Byte) : Nat := Nat.xor (bs.foldl crcByte 0xFFFFFFFF) 0xFFFFFFFF

/-! ### Codecs (R252, R253) -/

/-- `n` fields of `w` bits from bit `p` of a stream. -/
def fieldsAt (str w : Nat) : Nat → Nat → List Nat
  | 0, _ => []
  | n + 1, p => natBits str (p + w) p % 2 ^ w :: fieldsAt str w n (p + w)

/-- One field of `w` bits. -/
def fieldAt (str p w : Nat) : Nat := str / 2 ^ p % 2 ^ w

/-- `bpack` of R253: groups left, bit position. The stream holds `lim` bits. -/
def bpackDec (str lim : Nat) : Nat → Nat → Option (List Nat)
  | 0, _ => some []
  | g + 1, p =>
    let base := fieldAt str p 32
    let w := fieldAt str (p + 32) 6
    if 32 < w || lim < p + 38 + 64 * w then none
    else (bpackDec str lim g (p + 38 + 64 * w)).map
      (fun r => (fieldsAt str w 64 (p + 38)).map (fun f => (base + f) % 2 ^ 32) ++ r)

/-- Exponent and mantissa bits of the element types of EXPG. -/
def expgForm (ty : Nat) : Nat × Nat := if ty = 0 then (8, 7) else if ty = 1 then (5, 10) else (8, 23)

/-- `expg` of R253. -/
def expgDec (ty str lim : Nat) : Nat → Nat → Option (List Nat)
  | 0, _ => some []
  | g + 1, p =>
    let (eb, mb) := expgForm ty
    if lim < p + 1 then none
    else if fieldAt str p 1 = 1 then
      let w := 1 + eb + mb
      if lim < p + 1 + 64 * w then none
      else (expgDec ty str lim g (p + 1 + 64 * w)).map (fun r => fieldsAt str w 64 (p + 1) ++ r)
    else
      let w := mb + 5
      let e0 := fieldAt str (p + 1) 8
      let fs := fieldsAt str w 64 (p + 9)
      if lim < p + 9 + 64 * w || (ty = 1 && 32 ≤ e0) || fs.any (fun f => 2 ^ eb ≤ e0 + f / 2 ^ mb % 16) then none
      else (expgDec ty str lim g (p + 9 + 64 * w)).map (fun r =>
        fs.map (fun f => f / 2 ^ (mb + 4) * 2 ^ (eb + mb) + (e0 + f / 2 ^ mb % 16) * 2 ^ mb + f % 2 ^ mb) ++ r)

/-- Bytes of one chunk (R251). -/
def chunkBytes : Nat := 4096

/-- The expanded chunk of a header and its sectors; none where R253 finds an error. -/
def chunkDec (h0 h1 : Nat) (sectors : List Byte) : Option (List Byte) :=
  let codec := natBits h0 31 29
  let scnt := natBits h0 28 22
  let param := natBits h1 63 32
  let str := leNat sectors
  let lim := 256 * (scnt + 1)
  let ok := natBits h0 21 0 = 0 && natBits h1 31 0 = 0 && (codec = 2 || param = 0 || (codec = 4 && param ≤ 2))
    && (codec != 0 || scnt = 127) && (!(codec = 1 || codec = 2) || scnt = 0)
  let out : Option (List Byte) :=
    if !ok then none
    else if codec = 0 then some (sectors.take chunkBytes)
    else if codec = 1 then some (List.replicate chunkBytes 0)
    else if codec = 2 then some ((List.replicate 1024 (leBytes 4 param)).flatten)
    else if codec = 3 then (bpackDec str lim 16 0).map (fun ws => ws.flatMap (leBytes 4))
    else if codec = 4 then
      (expgDec param str lim (if param = 2 then 16 else 32) 0).map (fun es => es.flatMap (leBytes (if param = 2 then 4 else 2)))
    else none
  out.filter (fun bs => decide (crc32c bs = natBits h0 63 32))

/-- Sectors a header names; ZERO and CONST read none. -/
def chunkSectors (h0 : Nat) : Nat := if natBits h0 31 29 = 1 || natBits h0 31 29 = 2 then 0 else natBits h0 28 22 + 1

/-- A stream from fields, each a value and its width, the first lowest. -/
def packFields : List (Nat × Nat) → Nat
  | [] => 0
  | (v, w) :: r => v % 2 ^ w + 2 ^ w * packFields r

/-- Numbers of `n` bytes each of a byte string, `k` of them. -/
def numsOf (n : Nat) : Nat → List Byte → List Nat
  | 0, _ => []
  | k + 1, bs => leNat (bs.take n) :: numsOf n k (bs.drop n)

/-- Groups of 64, `k` of them. -/
def groups64 : Nat → List Nat → List (List Nat)
  | 0, _ => []
  | k + 1, xs => xs.take 64 :: groups64 k (xs.drop 64)

/-- The least of a list of numbers; 0 of none. -/
def listMin : List Nat → Nat
  | [] => 0
  | x :: xs => xs.foldl Nat.min x

/-- Bits a number needs. -/
def bitLen (n : Nat) : Nat := if n = 0 then 0 else Nat.log2 n + 1

/-- BPACK fields of a chunk (R254). -/
def bpackEnc (bs : List Byte) : List (Nat × Nat) :=
  (groups64 16 (numsOf 4 1024 bs)).flatMap (fun g =>
    let base := listMin g
    let w := bitLen ((g.foldl Nat.max 0) - base)
    (base, 32) :: (w, 6) :: g.map (fun x => (x - base, w)))

/-- EXPG fields of a chunk (R254). -/
def expgEnc (ty : Nat) (bs : List Byte) : List (Nat × Nat) :=
  let (eb, mb) := expgForm ty
  let n := if ty = 2 then 4 else 2
  (groups64 (64 / n) (numsOf n (4096 / n) bs)).flatMap (fun g =>
    let es := g.map (fun x => x / 2 ^ mb % 2 ^ eb)
    let e0 := listMin es
    if 15 < es.foldl Nat.max 0 - e0 then (1, 1) :: g.map (fun x => (x, 1 + eb + mb))
    else (0, 1) :: (e0, 8) :: g.map (fun x =>
      (x % 2 ^ mb + (x / 2 ^ mb % 2 ^ eb - e0) * 2 ^ mb + x / 2 ^ (eb + mb) * 2 ^ (mb + 4), mb + 5)))

def fieldBits (fs : List (Nat × Nat)) : Nat := fs.foldl (fun n f => n + f.2) 0

/-- The EXPG element type of a written format (R254). -/
def expgType : Option Fmt → Option Nat
  | some .bf16 => some 0
  | some .fp16 => some 1
  | some .fp32 => some 2
  | _ => none

/-- Header words and sectors of a chunk, with the codec of fewest sectors; ties in the order ZERO, CONST, BPACK, EXPG, RAW
(R254). -/
def chunkEnc (f : Option Fmt) (bs : List Byte) : Nat × Nat × List Byte :=
  let crc := crc32c bs * 2 ^ 32
  let hdr := fun (codec scnt : Nat) => crc + codec * 2 ^ 29 + scnt * 2 ^ 22
  let ws := numsOf 4 1024 bs
  let w0 := ws.headD 0
  if ws.all (· = 0) then (hdr 1 0, 0, [])
  else if ws.all (· = w0) then (hdr 2 0, w0 * 2 ^ 32, [])
  else
    let packed := fun (fs : List (Nat × Nat)) (n codec param : Nat) =>
      (hdr codec (n - 1), param * 2 ^ 32, leBytes (32 * n) (packFields fs))
    let bp := bpackEnc bs
    let nb := (fieldBits bp + 255) / 256
    let ep := (expgType f).map (fun ty => (ty, expgEnc ty bs))
    let ne := match ep with
      | some (_, fs) => (fieldBits fs + 255) / 256
      | none => 256
    if nb ≤ ne && nb ≤ 128 then packed bp nb 3 0
    else match ep with
      | some (ty, fs) => if ne ≤ 128 then packed fs ne 4 ty else (hdr 0 127, 0, bs)
      | none => (hdr 0 127, 0, bs)

/-! ### Dies and their counters (R316, R354) -/

def State.die (s : State) (d : Nat) : Die := s.dies.toList.getD d {}

def State.modDie (s : State) (d : Nat) (f : Die → Die) : State :=
  if h : d < 4 then { s with dies := s.dies.set d (f s.dies[d]) } else s

/-- Count on a counter of a die (R316, log 100). -/
def State.countDie (s : State) (d src n : Nat) : State :=
  s.modDie d (fun x => { x with devc := Vector.ofFn (fun i : Fin 16 =>
    if bitAt x.devs[i].toNat 15 && bitsOf x.devs[i] 7 0 = src then x.devc[i] + BitVec.ofNat 64 n else x.devc[i]) })

/-- Add to one of the saturating service counters of a die, from bit `lo` with `w` bits (R354). -/
def State.errCount (s : State) (d lo w : Nat) : State :=
  s.modDie d (fun x =>
    let v := natBits x.errs.toNat (lo + w - 1) lo
    if v = 2 ^ w - 1 then x else { x with errs := x.errs + BitVec.ofNat 64 (2 ^ lo) })

/-- A message goes from one die to another, and where `back` an answer returns: a flit each way, counted by its sender (R316, log 100). -/
def State.dieFlits (s : State) (a b : Nat) (back : Bool) : State :=
  if a = b then s
  else
    let s := s.countDie a 8 1
    if back then s.countDie b 8 1 else s

/-- A reader meets an uncorrectable error (R354). -/
def State.ueMet (s : State) (d : Nat) : State := s.errCount d 16 16

/-- A die uses a translation: a miss in its cache is counted with its walk, and the leaf kept (R316, R341). -/
def State.tlbUse (s : State) (die ctx va : Nat) : State :=
  if s.tlbHas ctx va then s else ((s.countDie die 11 1).countDie die 12 1).tlbNote ctx va

/-! ### Flock links (R362, R363) -/

/-- The pod tag by which a context orders its accesses; 0 where pod scope is package scope (R364). -/
def State.podTag (s : State) (ctx : Nat) : Nat :=
  if bitAt s.svc.podcfg.toNat 63 then bitsOf (s.ctx ctx).w[7] 15 0 else 0

/-- Links in use (R363). -/
def State.links (s : State) : List Nat :=
  let m := bitsOf s.svc.podcfg 15 0
  (List.range 16).filter (fun i => m = 0 || bitAt m i)

/-- The link on which traffic for a member leaves (R363). -/
def State.linkTo (s : State) (m : Nat) : Nat :=
  let ls := s.links
  ls.getD (m % Nat.max 1 ls.length) 0

/-- Send a flit: its link, its kind, and what the kind needs (log 31). -/
def State.sendFlit (s : State) (f : List Nat) : State := { s with svc := { s.svc with flitOut := s.svc.flitOut ++ [f] } }

/-- Kinds of flits: a flush and an answer to it, a count message, a release, a write, a read and an atomic by another member, the answer to
those, and a request to send a flit again (log 31). -/
def flFlush : Nat := 1
def flAnswer : Nat := 2
def flCount : Nat := 3
def flRelease : Nat := 4
def flWrite : Nat := 5
def flRead : Nat := 6
def flReply : Nat := 7
def flAtomic : Nat := 8
def flAgain : Nat := 9

/-- The 64 bytes of a flit with some contents: its payload and its CRC-32C (R362). -/
def flitImage (f : List Nat) : List Byte := Config.flitBytes f ++ leBytes 4 (crc32c (Config.flitBytes f))

/-- The flits of a link in the order in which it sends them: the number of a flit is its place (R362). -/
def State.linkFlits (s : State) (l : Nat) : List (List Nat) := s.svc.flitOut.filter (fun f => f.headD 0 = l)

/-- A link sends its flits from number `n` on again, in order, each with its CRC (R362). -/
def State.flitsAgain (s : State) (l n : Nat) : State :=
  { s with svc := { s.svc with again := s.svc.again
      ++ ((s.linkFlits l).drop n).zipIdx.map (fun x => (l, n + x.2, flitImage (x.1.drop 1))) } }

/-- An access to peer memory leaves for its member, which stands with the offset in its address; other addresses send nothing (R363,
R365). -/
def State.peerFlit (s : State) (kind ctx pa : Nat) (rest : List Nat) : State :=
  if paPeer pa then s.sendFlit ([s.linkTo (natBits pa 49 40), kind, s.member, 0, s.podTag ctx, natBits pa 49 0] ++ rest) else s

/-- Reads of peer memory at some physical addresses leave for their members, one for each line of 64 bytes (R363, R365). -/
def State.peerRead (s : State) (ctx : Nat) (pas : List Nat) : State :=
  (((pas.filter paPeer).map (· / 64)).eraseDups).foldl (fun s l => s.peerFlit flRead ctx (64 * l) [64]) s

/-- A read from a die's engine at a physical address, as the links and the counters see it: a request to a peer; else one HBM read at
its home, and a die-to-die flit each way where that is another die (R316, R363, log 100). -/
def State.readNote (s : State) (die ctx pa : Nat) : State :=
  if paHost pa then s
  else if paPeer pa then s.peerRead ctx [pa]
  else (s.countDie (paDie pa) 9 1).dieFlits die (paDie pa) true

/-! ### Keys and views -/

/-- The key under which a context's device memory is stored; 0 none (R348). -/
def State.keyOf (s : State) (ctx : Nat) : Nat :=
  let w2 := (s.ctx ctx).w[2].toNat
  if bitAt w2 62 then ((Tab.find s.keys (natBits w2 60 55)).map (·.1)).getD 0 else 0

/-- Is the context's key slot its own, where it is protected (R348, R355)? -/
def State.keyBound (s : State) (ctx : Nat) : Bool :=
  let w2 := (s.ctx ctx).w[2].toNat
  !bitAt w2 62 || (match Tab.find s.keys (natBits w2 60 55) with
    | some k => decide (k.2 = ctx)
    | none => true)

/-- The data unit of the cipher that holds a byte: a 16-byte chunk header or a 32-byte sector (R348): its address and length. -/
def State.unitOf (s : State) (pa : Nat) : Nat × Nat :=
  let h := bitsOf s.hbase 51 4 * 16
  if bitAt s.hbase.toNat 0 && h ≤ pa && pa < h + 16 * (hbmBytes / 4096) then (pa / 16 * 16, 16) else (pa / 32 * 32, 32)

/-- A data unit stored under key `t` (0 none) as it is read under `key` (R348). -/
def unitAs (t key pa : Nat) (bs : List Byte) : List Byte :=
  if t = key then bs
  else
    let c := if t = 0 then bs else Config.aesXts t pa bs
    if key = 0 then c else Config.aesXtsDec key pa c

/-- The key a data unit is stored under. -/
def State.tagOf (s : State) (pa : Nat) : Nat := (Tab.find s.crypt (s.unitOf pa).1).getD 0

/-- The byte of a write's old contents at a key. -/
def ViewWrite.oldAt (w : ViewWrite) (k : Nat) : Option Byte := (w.olds.find? (fun x => x.1 = k)).map (·.2)

/-- Does a write that is not performed everywhere cover a key? -/
def ViewWrite.covers (w : ViewWrite) (k : Nat) : Bool := (w.oldAt k).isSome

/-- A write whose bytes at some keys count as performed: nothing is left where those are all its bytes. -/
def ViewWrite.without (ks : List Nat) (w : ViewWrite) : Option ViewWrite :=
  let olds := w.olds.filter (fun x => !ks.contains x.1)
  if olds = [] then none else some { w with olds := olds }

/-- Did the agent make a write itself: by its own command, or by the engine it is (R285, R288)? -/
def Agent.made (a b : Agent) : Bool := a.core = b.core || (a.eng.isSome && a.eng = b.eng)

/-- Is a write one that an agent cannot read behind: its own, or one that it has read as the engine it is (R288)? -/
def ViewWrite.known (w : ViewWrite) (a : Agent) : Bool := w.agent.made a || a.eng.any w.read.contains

/-- The byte at a key that an agent sees around a list of writes, the oldest first: the one before the first write of another agent
that follows the last of its own, or the last it has read (R288). -/
def viewByte (m : Mem) (a : Agent) (ws : List ViewWrite) (k : Nat) : Byte :=
  (ws.foldl (fun (seen : Option Byte) w => match w.oldAt k with
    | none => seen
    | some b => if w.known a then none else some (seen.getD b)) none).getD (m.get k)

/-- Take writes out of a list, the oldest first: the bytes of an older write that one of them has overwritten are performed with it
(R288, R290). -/
def settle (gone : ViewWrite → Bool) (ws : List ViewWrite) : List ViewWrite :=
  (ws.foldr (fun w (a : List ViewWrite × List Nat) =>
    if gone w then (a.1, w.olds.map (·.1) ++ a.2)
    else match w.without a.2 with
      | some w => (w :: a.1, a.2)
      | none => a) ([], [])).1

/-- How an agent reads physical bytes: the writes its die has not applied, none at the home (R288), and the key (R348). -/
structure Reader where
  agent : Agent := { core := 1024 }
  view : List ViewWrite := []
  key : Nat := 0
deriving DecidableEq, Repr, Inhabited

/-- One physical byte. -/
def State.physByte (s : State) (r : Reader) (pa : Nat) : Byte :=
  let at_ := viewByte s.mem r.agent r.view
  let key := if paHost pa then 0 else r.key
  if s.tagOf pa = key then at_ pa
  else
    let (u, n) := s.unitOf pa
    (unitAs (s.tagOf pa) key u ((List.range n).map (fun i => at_ (u + i)))).getD (pa - u) 0

/-- Bytes written leave for the members whose memory they lie in, a flit for each page, as they are stored there (R363, R365). -/
def State.peerWrite (s : State) (ctx : Nat) (pas : List Nat) : State :=
  ((pas.map (· / 4096)).eraseDups).foldl (fun s pn =>
    let here := pas.filter (fun pa => pa / 4096 = pn)
    s.peerFlit flWrite ctx (here.headD 0) (here.map (fun pa => (s.physByte {} pa).toNat))) s

/-- A reader at the home of what it reads. -/
def State.home (s : State) (ctx : Nat) : Reader := { key := s.keyOf ctx }

/-- The agent that performs a core's accesses for a context. -/
def State.coreAgent (s : State) (ctx core : Nat) : Agent := { core := core, tag := s.podTag ctx }

/-- The agent that performs a command (R285). -/
def State.agent (s : State) (m : Cmd) : Agent := { core := m.core, cmd := some m.id, chain := m.chain, tag := s.podTag m.ctx }

/-- An agent on the die of its core as a reader (R288). -/
def State.viewer (s : State) (ctx : Nat) (a : Agent) : Reader :=
  { agent := a, view := (s.dies.toList.getD (coreDie a.core) {}).remote, key := s.keyOf ctx }

/-! ### Chunks in memory (R251, R254) -/

/-- The place of a page's header (R340). -/
def State.hdrAt (s : State) (pn : Nat) : Nat := bitsOf s.hbase 51 4 * 16 + 16 * pn

/-- The expanded chunk of a 4 KiB of local memory. -/
def State.chunkRead (s : State) (r : Reader) (pn : Nat) : Except XFault (List Byte) :=
  let h := s.hdrAt pn
  let bytes := fun (at_ n : Nat) => (List.range n).map (fun i => s.physByte r (at_ + i))
  let bad := fun (at_ n : Nat) => s.poison.any (fun k => decide (at_ ≤ k) && decide (k < at_ + n))
  let h0 := leNat (bytes h 8)
  let n := 32 * chunkSectors h0
  if bad h 16 || bad (pn * 4096) n then .error .poison
  else match chunkDec h0 (leNat (bytes (h + 8) 8)) (bytes (pn * 4096) n) with
    | some bs => .ok bs
    | none => .error .decode

/-! ### Reads and writes at virtual addresses -/

/-- Read the bytes at a list of places; `last` is the chunk expanded last. -/
def State.readPlaces (s : State) (r : Reader) : List (Nat × Nat) → Option (Nat × List Byte) → Except XFault (List Byte)
  | [], _ => .ok []
  | (pa, attr) :: rest, last =>
    if bitAt attr 4 then
      let here := match last with
        | some (n, bs) => if n = pa / 4096 then Except.ok bs else s.chunkRead r (pa / 4096)
        | none => s.chunkRead r (pa / 4096)
      match here with
      | .error e => .error e
      | .ok bs => match State.readPlaces s r rest (some (pa / 4096, bs)) with
        | .ok out => .ok (bs.getD (pa % 4096) 0 :: out)
        | .error e => .error e
    else if s.poison.contains pa then .error .poison
    else match State.readPlaces s r rest last with
      | .ok out => .ok (s.physByte r pa :: out)
      | .error e => .error e

/-- Does a write of some bytes touch a place: its byte, or under compression its chunk or that chunk's header? -/
def State.touches (s : State) (cells : List (Nat × Byte)) (p : Nat × Nat) : Bool :=
  if bitAt p.2 4 then
    let pn := p.1 / 4096
    cells.any (fun c => c.1 / 4096 = pn || (decide (s.hdrAt pn ≤ c.1) && decide (c.1 < s.hdrAt pn + 16)))
  else cells.any (fun c => c.1 = p.1)

/-- A waiter after a write (R179): what the write left in the word it watches. -/
def State.noteWaiter (s : State) (cells : List (Nat × Byte)) (j : Job) : Job :=
  if j.watch.any (s.touches cells) then
    match s.readPlaces (s.home j.cmd.ctx) j.watch none with
    | .ok bs => { j with seen := j.seen ++ [leNat bs] }
    | .error _ => j
  else j

/-- The bytes of the data units that a write under a key touches, as they stand under that key: what lies around the bytes written
(R348). -/
def State.rekey (s : State) (key : Nat) (cells : List (Nat × Byte)) : List (Nat × Byte) :=
  let us := ((cells.filter (fun c => !paHost c.1 && s.tagOf c.1 != key)).map (fun c => s.unitOf c.1)).eraseDups
  us.flatMap (fun u =>
    let bs := unitAs (s.tagOf u.1) key u.1 ((List.range u.2).map (fun i => s.mem.get (u.1 + i)))
    (List.range u.2).map (fun i => (u.1 + i, bs.getD i 0)))

/-- The key of each data unit after a write. -/
def State.retag (s : State) (key : Nat) (cells : List (Nat × Byte)) : Tab Nat :=
  cells.foldl (fun t c =>
    let u := (s.unitOf c.1).1
    if key = 0 || paHost c.1 then Tab.del t u else Tab.put t u key) s.crypt

/-- Store physical bytes for an agent whose write others may still read around (R288); none where the write is performed everywhere
at once, and every older write of its bytes with it. One call is one write; a die counts those to its HBM, and a ladle engine's cross to another die and are acknowledged (R316). -/
def State.physWrite (s : State) (w : Option Agent) (key : Nat) (cells : List (Nat × Byte)) : State :=
  let all := s.rekey key cells ++ cells
  let olds := all.map (fun c => (c.1, s.mem.get c.1))
  let mem := all.foldl (fun m c => Mem.set m c.1 c.2) s.mem
  let s := { s with mem := mem, crypt := s.retag key cells, poison := s.poison.filter (fun k => !(cells.any (fun c => c.1 = k))) }
  let view := fun (l : List ViewWrite) => match w with
    | none => l.filterMap (ViewWrite.without (all.map (·.1)))
    | some a => l ++ [{ agent := a, stamp := (s.dies.toList.getD (coreDie a.core) {}).vc.toList, olds := olds,
                        rel := if a.core = 1024 then [(6, { core := 1024 })] else [] }]
  let s := { s with dies := s.dies.map (fun d => { d with remote := view d.remote, waits := d.waits.map (s.noteWaiter cells) }) }
  match cells.find? (fun c => !paHost c.1 && !paPeer c.1) with
  | some c =>
    let s := s.countDie (paDie c.1) 10 1
    match w.bind (·.eng) with
    | some e => s.dieFlits (e / 16) (paDie c.1) true
    | none => s
  | none => s

/-- Encode and store a chunk (R254). -/
def State.chunkWrite (s : State) (w : Option Agent) (key : Nat) (f : Option Fmt) (pn : Nat) (bs : List Byte) : State :=
  let (h0, h1, sec) := chunkEnc f bs
  let cells := (leBytes 8 h0 ++ leBytes 8 h1).zipIdx.map (fun x => (s.hdrAt pn + x.2, x.1))
    ++ sec.zipIdx.map (fun x => (pn * 4096 + x.2, x.1))
  s.physWrite w key cells

/-- A masked byte to be merged into memory: place, mask, byte. -/
abbrev Patch := (Nat × Nat) × Byte × Byte

/-- Merge a byte. -/
def mergeByte (old mask new : Byte) : Byte := (old &&& ~~~mask) ||| (new &&& mask)

/-- Do patches cover all of chunk `pn`, so that it needs no merge read (R254)? -/
def chunkFull (pn : Nat) (ps : List Patch) : Bool :=
  let mine := ps.filter (fun p => bitAt p.1.2 4 && p.1.1 / 4096 = pn)
  (List.range 4096).all (fun i => (mine.filter (fun p => p.1.1 % 4096 = i)).foldl (fun (n : Byte) p => n ||| p.2.1) 0 = 255)

/-- The chunk `pn` after patches (R254). -/
def State.chunkMerge (s : State) (r : Reader) (pn : Nat) (ps : List Patch) : Except XFault (List Byte) :=
  let mine := ps.filter (fun p => bitAt p.1.2 4 && p.1.1 / 4096 = pn)
  let base := if chunkFull pn ps then Except.ok (List.replicate 4096 0) else s.chunkRead r pn
  base.map (fun bs => mine.foldl (fun bs p => bs.set (p.1.1 % 4096) (mergeByte (bs.getD (p.1.1 % 4096) 0) p.2.1 p.2.2)) bs)

/-- The chunks a list of patches touches, each once. -/
def patchChunks (ps : List Patch) : List Nat :=
  ps.foldl (fun l p => if bitAt p.1.2 4 && !l.contains (p.1.1 / 4096) then l ++ [p.1.1 / 4096] else l) []

/-- Perform the patches outside compressed pages as one write. -/
def State.rawPatches (s : State) (w : Option Agent) (key : Nat) (ps : List Patch) : State :=
  let r : Reader := { key := key }
  s.physWrite w key ((ps.filter (fun p => !bitAt p.1.2 4)).map (fun p => (p.1.1, mergeByte (s.physByte r p.1.1) p.2.1 p.2.2)))

/-- Read bytes at a virtual address, at their home. -/
def State.vread (s : State) (ctx va n : Nat) : Except XFault (List Byte) :=
  match s.places ctx va n .rd with
  | .error e => .error e
  | .ok pl => s.readPlaces (s.home ctx) pl none

/-- Store bytes at places for an agent; nothing is written where a chunk cannot be merged. -/
def State.writePlaces (s : State) (w : Option Agent) (ctx : Nat) (pl : List (Nat × Nat)) (bs : List Byte) : Except XFault State :=
  let ps : List Patch := pl.zip (bs.map (fun b => (255, b)))
  let key := s.keyOf ctx
  let merged := (patchChunks ps).map (fun pn => (pn, s.chunkMerge (s.home ctx) pn ps))
  match merged.find? (fun m => match m.2 with | .error _ => true | .ok _ => false) with
  | some (_, .error e) => .error e
  | _ =>
    let s := s.rawPatches w key ps
    .ok (merged.foldl (fun s m => match m.2 with
      | .ok bs => s.chunkWrite w key none m.1 bs
      | .error _ => s) s)

/-- Write bytes at a virtual address for an agent; nothing is written where any of them faults. Those of a member's memory leave for it
(R363, R365). -/
def State.vwriteBy (s : State) (w : Option Agent) (ctx va : Nat) (acc : Acc) (bs : List Byte) : Except XFault State :=
  match s.places ctx va bs.length acc with
  | .error e => .error e
  | .ok pl => (s.writePlaces w ctx pl bs).map (fun t => t.peerWrite ctx ((pl.map (·.1)).filter paPeer))

/-- Write bytes at a virtual address, performed everywhere at once. -/
def State.vwrite (s : State) (ctx va : Nat) (bs : List Byte) : Except XFault State := s.vwriteBy none ctx va .wr bs

end Sys2Proof.Machine
end

