-- ==== Sys2Proof/Machine/Ops.lean ====
section
/-! DEFINITION. The named operations over cores, pens and memory: register access (R52), results landing on their ready
beats (R43), host events (R335), a pen's stop (R59, R369) and its end (THAW), and the timing trap (R54, R55) with its
return. -/

namespace Sys2Proof.Machine

open Sys2Proof

/-- What every meaning answers: the part goes on (R43). -/
abbrev Out := Host.Outcome State Fault Refusal

/-! ### Cores and pens -/

/-- A core of the package. -/
def State.core (s : State) (c : Nat) : Core := (Tab.find s.cores c).getD {}

def State.setCore (s : State) (c : Nat) (k : Core) : State := { s with cores := Tab.put s.cores c k }

def State.modCore (s : State) (c : Nat) (f : Core → Core) : State := s.setCore c (f (s.core c))

/-- A pen by its handle. -/
def State.pen (s : State) (p : Nat) : Pen := s.pens.getD p {}

def State.setPen (s : State) (p : Nat) (x : Pen) : State := { s with pens := s.pens.set p x }

def State.modPen (s : State) (p : Nat) (f : Pen → Pen) : State := s.setPen p (f (s.pen p))

/-- Is a core of the package in the pen's rectangle (R39)? -/
def Pen.has (p : Pen) (c : Nat) : Bool :=
  coreDie c = p.die && p.row ≤ coreIdx c / 16 && coreIdx c / 16 < p.row + p.h
    && p.col ≤ coreIdx c % 16 && coreIdx c % 16 < p.col + p.w

/-- Pen-relative index of a core, row-major (R60, R234). -/
def Pen.rel (p : Pen) (c : Nat) : Nat := (coreIdx c / 16 - p.row) * p.w + (coreIdx c % 16 - p.col)

/-- The core of the package with a pen-relative index (R234). -/
def Pen.coreAt (p : Pen) (q : Nat) : Nat := p.die * coresPerDie + (p.row + q / p.w) * 16 + p.col + q % p.w

/-- The pen's cores in pen-relative order. -/
def Pen.cores (p : Pen) : List Nat := (List.range (p.h * p.w)).map p.coreAt

/-- The handle of the pen that holds a core; the number of pens where none does. -/
def State.penOf (s : State) (c : Nat) : Nat := s.pens.findIdx (fun p => p.live && p.has c)

/-- The context that holds a core through a pen, none where no pen does (R370). -/
def State.coreCtx (s : State) (c : Nat) : Option Nat := (s.pens[s.penOf c]?).map (·.ctx)

/-- Raise a class B alarm on a die for a context (R355); its action is a step of its own. -/
def State.alarmB (s : State) (die ctx : Nat) : State := { s with todo := s.todo ++ [.ev .alarmClassB { a := ctx, b := die }] }

/-- An engine accesses memory for a context, as `t`: under a key slot that is not bound to the context the alarm is raised instead
(R355). -/
def State.keyGuard (s : State) (die ctx : Nat) (t : State) : Out := .next (if s.keyBound ctx then t else s.alarmB die ctx)

/-- Apply a change to every core of a pen. -/
def State.modCores (s : State) (cs : List Nat) (f : Core → Core) : State := cs.foldl (fun s c => s.modCore c f) s

/-! ### Registers (R52) -/

/-- s0 reads 0. -/
def Core.rdS (k : Core) (r : Fin 32) : W64 := if r = 0 then 0 else k.s[r]

/-- Writes to s0 are discarded. -/
def Core.wrS (k : Core) (r : Fin 32) (v : W64) : Core := if r = 0 then k else { k with s := k.s.set r v }

/-- q0 reads all ones. -/
def Core.rdQ (k : Core) (r : Fin 16) : Chunk := if r = 0 then BitVec.allOnes 256 else k.q[r]

/-- Writes to q0 are discarded. -/
def Core.wrQ (k : Core) (r : Fin 16) (v : Chunk) : Core := if r = 0 then k else { k with q := k.q.set r v }

def Core.rdV (k : Core) (r : Fin 32) : VWord := k.v[r]

/-- Bits of `x` where the mask is set, of `old` elsewhere. -/
def merge {n : Nat} (old x mask : BitVec n) : BitVec n := (old &&& ~~~mask) ||| (x &&& mask)

/-- The predicate a word reads, with its sense (R50). -/
def Core.pred (k : Core) (h : Hdr) : Chunk := if h.pn then ~~~(k.rdQ h.pq) else k.rdQ h.pq

/-- Is a word that uses bit 0 alone active (R50, R85)? -/
def Core.active (k : Core) (h : Hdr) : Bool := (k.pred h).getLsbD 0

/-! ### Ring words (R136) -/

def Ring.tail (r : Ring) : Nat := if r.cap = 0 then 0 else (r.head.toNat + r.count.toNat) % r.cap.toNat

/-- The 64-bit word `gstat` reads. -/
def Ring.word (r : Ring) : W64 :=
  BitVec.ofNat 64 (r.cap.toNat * 2 ^ 56 + r.count.toNat * 2 ^ 48 + r.head.toNat * 2 ^ 40 + r.tail * 2 ^ 32
    + r.fillrow.toNat * 2 ^ 27 + r.fmt.code * 2 ^ 22 + r.kbm1.toNat * 2 ^ 16 + r.base.toNat)

/-- A ring from its word; TAIL follows from the rest. -/
def Ring.ofWord (w : W64) : Ring :=
  { cap := w.extractLsb' 56 8, count := w.extractLsb' 48 8, head := w.extractLsb' 40 8, fillrow := w.extractLsb' 27 5,
    fmt := Fmt.ofCode (bitsOf w 26 22), kbm1 := w.extractLsb' 16 6, base := w.extractLsb' 0 14 }

def Ring.adv (r : Ring) (n : Nat) : Ring := { r with count := r.count + BitVec.ofNat 8 n }

def Ring.pop (r : Ring) (n : Nat) : Ring :=
  { r with head := if r.cap = 0 then r.head else BitVec.ofNat 8 ((r.head.toNat + n) % r.cap.toNat),
           count := r.count - BitVec.ofNat 8 n }

/-- Scratchpad offset of ring slot `i` (R136). -/
def Ring.slotOfs (r : Ring) (i : Nat) : Nat := r.base.toNat * 64 + i * r.fmt.slotBytes

/-! ### Ports (R49) -/

/-- Tokens a word may still pop. -/
def Rx.avail (r : Rx) : List Tok := r.q.drop r.taken

/-- Pop one token; it keeps its place until the next restart point. -/
def Rx.pop (r : Rx) : Rx := { r with taken := r.taken + 1 }

/-- Popped tokens become final (R49). -/
def Rx.settle (r : Rx) : Rx := { q := r.q.drop r.taken, taken := 0 }

/-- A rewind restores the read pointer (R53, R54). -/
def Rx.unpop (r : Rx) : Rx := { r with taken := 0 }

/-- Change one rx port. -/
def Core.modRx (p : Fin 8) (f : Rx → Rx) (k : Core) : Core := { k with rx := k.rx.set p (f k.rx[p]) }

/-! ### Fault records (R342 to R344) -/

/-- Bytes of 64-bit words (R13). -/
def bytesOf (ws : List W64) : List Byte := ws.flatMap (fun w => leBytes 8 w.toNat)

/-- Agents of R342 as record codes; ladle to loader are also the ENG codes of R170. -/
def agLadle : Nat := 1
def agBell : Nat := 2
def agDrove : Nat := 3
def agDemand : Nat := 4
def agLoader : Nat := 5
def agCore : Nat := 6
def agShepherd : Nat := 7
def agSample : Nat := 8

/-- The ACC code of R342; 3 is the loader's. -/
def Acc.code : Acc → Nat
  | .rd => 0 | .wr => 1 | .atomic => 2

/-- Who faulted, where: the fields of a record besides the fault itself (R342). -/
structure Who where
  ctx : Nat := 0
  acc : Nat := 0
  agent : Nat := 1
  die : Nat := 0
  inst : Nat := 0
  pid : Nat := 0xFFFF
  rel : Nat := 0
  /-- the pen and tick the access belongs to (R186, R305) -/
  pen : Option (Nat × Int) := none
deriving DecidableEq, Repr, Inhabited

/-- Is the fault buffer full (R344)? -/
def State.faultsFull (s : State) : Bool := 4096 ≤ (s.fwptr - s.frptr).toNat

/-- Store a record at FWPTR (R342). -/
def State.storeFault (s : State) (ws : List W64) : State :=
  let at_ := s.fbase.toNat + 32 * (s.fwptr.toNat % 4096)
  { s.physWrite none 0 ((bytesOf ws).zipIdx.map (fun x => (at_ + x.2, x.1))) with fwptr := s.fwptr + 1 }

/-- e1 of a PAGE_FAULT token: the index of the record, all ones where none was written (R344). -/
def faultDetail (i : Nat) : BitVec 32 := if 2 ^ 64 ≤ i then BitVec.allOnes 32 else BitVec.ofNat 32 i

/-- e1 of the token of an access that faulted, with the index of its record (R171, R344). -/
def XFault.e1 (x : XFault) (acc : Acc) (i : Nat) : BitVec 32 :=
  match x with
  | .perm _ => BitVec.ofNat 32 acc.code
  | .attr _ | .decode | .poison => 0
  | .notValid _ | .rsvd _ | .nonCanon => faultDetail i

/-- Record a translation fault (R343): the state, and the record's index; one that finds the buffer full has an index past every record's. A
chunk that does not decode and poison have no record. -/
def State.recordFault (s : State) (w : Who) (va : Nat) (x : XFault) (park : Bool) : State × Nat :=
  if x.reason = 0 then (s, 2 ^ 64)
  else
    let s := s.countDie w.die 13 1
    let w1 := BitVec.ofNat 64 (w.ctx % 4096 * 2 ^ 52 + w.acc % 4 * 2 ^ 50 + w.agent % 16 * 2 ^ 46 + w.die % 4 * 2 ^ 44
      + w.inst % 64 * 2 ^ 38 + x.reason * 2 ^ 32 + (if park then 2 ^ 31 else 0) + x.level % 8 * 2 ^ 28)
    let w2 := BitVec.ofNat 64 (w.pid % 2 ^ 16 * 2 ^ 48 + w.rel % 256 * 2 ^ 40)
    if s.faultsFull then
      let i := 2 ^ 64 + s.fresh
      ({ s with fresh := s.fresh + 1,
                faults := s.faults ++ [{ idx := i, w := [BitVec.ofNat 64 va, w1, w2], pen := w.pen, inBuf := false }] }, i)
    else
      let ws := [BitVec.ofNat 64 va, w1, w2, s.fwptr]
      let i := s.fwptr.toNat
      let s := s.storeFault ws
      ({ s with faults := s.faults ++ [{ idx := i, w := ws, pen := w.pen }] }, i)

/-! ### Host events (R335) -/

/-- TIME in drove cycles: two beats each (R3, R313). -/
def State.cycles (s : State) : Nat := s.time / 2

/-- Count a lost host event (R338). -/
def Ctx.lost (c : Ctx) : Ctx :=
  { c with status := if bitsOf c.status 31 0 = 2 ^ 32 - 1 then c.status else c.status + 1 }

/-- How an append failed: the code, and the access that faulted, its address, kind and fault. -/
abbrev RingFault := Nat × Option (Nat × Acc × XFault)

/-- Write the slot of an append ring with slots of `size` bytes that its header names next (R275): the state and the WIDX found, or
how it failed. -/
def State.ringSlot (s : State) (w : Option Agent) (ctx va size : Nat) (bs : List Byte) : Except RingFault (State × Nat) :=
  match s.vread ctx va 16 with
  | .error e => .error (e.code, some (va, .rd, e))
  | .ok h =>
    let base := (wordAt h 0).toNat
    let cap := bitsOf (wordAt h 1) 31 0
    let widx := bitsOf (wordAt h 1) 63 32
    let slot := base + size * (widx % cap)
    if cap = 0 then .error (3, none)
    else match s.vwriteBy w ctx slot .wr bs with
      | .error e => .error (e.code, some (slot, .wr, e))
      | .ok s => .ok (s, widx)

/-- The home bellwether raises a ring's WIDX from the value found (R275). -/
def State.ringBump (s : State) (w : Option Agent) (ctx va widx : Nat) : State × Option RingFault :=
  match s.vwriteBy w ctx (va + 12) .atomic (leBytes 4 (widx + 1)) with
  | .error e => (s, some (e.code, some (va + 12, .atomic, e)))
  | .ok s => (s, none)

/-- Append to a ring (R275): the slot, then `order` what the agent puts before it, then WIDX, which `order` places in its turn. A slot
written before a failure stays written. -/
def State.ringAppend (s : State) (w : Option Agent) (order : State → State) (ctx va size : Nat) (bs : List Byte) :
    State × Option RingFault :=
  match s.ringSlot w ctx va size bs with
  | .error e => (s, some e)
  | .ok (s, widx) => match (order s).ringBump w ctx va widx with
    | (s, some e) => (s, some e)
    | (s, none) => (order s, none)

/-- Post a host event, or count it lost (R335, R338). `rel` and `die` are 0 where no pen is concerned. A fault of the ring is recorded
as the shepherd's (R344, log 101); the record of one that no pen caused names none (R342). -/
def State.postEvent (s : State) (ctx ty pid rel die : Nat) (payload : List W64) : State :=
  let c := s.ctx ctx
  let w0 := BitVec.ofNat 64 (ty * 2 ^ 56 + ctx % 4096 * 2 ^ 44 + s.cycles % 2 ^ 40)
  let w1 := BitVec.ofNat 64 (pid % 65536 * 2 ^ 48 + rel % 256 * 2 ^ 40 + die % 4 * 2 ^ 38)
  let bs := ((w0 :: w1 :: payload) ++ List.replicate (14 - payload.length) 0).flatMap (fun (w : W64) => leBytes 8 w.toNat)
  if c.w[3] = 0 then s.setCtx ctx c.lost
  else if !s.keyBound ctx then (s.alarmB die ctx).setCtx ctx c.lost
  else match s.ringAppend none id ctx c.w[3].toNat 128 bs with
    | (s, none) => s
    | (s, some (_, f)) =>
      let s := match f with
        | some (va, acc, x) =>
          let s := if x = XFault.poison then s.ueMet die else s
          let pid := if [0x01, 0x05, 0x06, 0x07, 0x08].contains ty then 0xFFFF else pid
          (s.recordFault { ctx := ctx, acc := acc.code, agent := agShepherd, die := die, pid := pid, rel := rel } va x false).1
        | none => s
      s.setCtx ctx (s.ctx ctx).lost

/-! ### Event counters (R316) -/

/-- Add `n` to every counter of a core that counts source `src`, when the region's id lets it. -/
def Core.count (k : Core) (now : Nat) (id0 : Nat) (src n : Nat) : Core :=
  let sel := if k.evsT = now then k.evsPrev else k.evs
  let on := fun (e : W64) => bitAt e.toNat 15 && bitsOf e 7 0 = src && (bitsOf e 31 16 = 0 || bitsOf e 31 16 = id0)
  if sel.toList.any on then
    let add := fun (v : Vector W64 8) => Vector.ofFn (fun i : Fin 8 => if on sel[i] then v[i] + BitVec.ofNat 64 n else v[i])
    { k with evc := add k.evc, evcAdd := add (if k.evcT = now then k.evcAdd else Vector.replicate 8 0), evcT := now }
  else k

def State.count (s : State) (c src n : Nat) : State :=
  let id0 := bitsOf (recRgn (s.pen (s.penOf c))) 15 0
  s.modCore c (fun k => k.count s.time id0 src n)

/-! ### Taking a stop, and leaving it (R59, R101, R153, R369) -/

/-- The one operation by which a pen takes a trap or a check: it notes the reporting word, and the pen stops before its next
slot, where tstat is written (R59, R101). Of cores that stop on one beat the lowest core, then the lowest column, reports (R59). -/
def Pen.takeStop (p : Pen) (now : Nat) (cause : Cause) (rel : Nat) (col : Col) (slot : Nat) (it : BitVec 32)
    (code value : W64) (late : Bool) : Pen :=
  let st : Stop := { tstat := tstatWord cause rel col slot it, code := code, value := value, time := now, late := late }
  match p.stop with
  | none => { p with stop := some st }
  | some o =>
    if o.time = now && rel * 4 + colCode col < bitsOf o.tstat 47 38 then { p with stop := some st } else p

/-- A stop that no replay would raise again, as of a result issued before the last restart point: a timing trap of the same beat does
not drop it (R54, R369). -/
def Pen.keepStop (p : Pen) (now : Nat) (cause : Cause) (rel : Nat) (col : Col) (slot : Nat) (it : BitVec 32) : Pen :=
  let kept := (({ p with stop := p.stopKept.filter (fun o => o.time = now) } : Pen).takeStop now cause rel col slot it 0 0 true).stop
  { p.takeStop now cause rel col slot it 0 0 true with stopKept := kept }

/-- A stop by a word or a result of a core. -/
def State.stopAt (s : State) (c : Nat) (cause : Cause) (col : Col) (slot : Nat) (it : BitVec 32) (code value : W64)
    (late : Bool) : State :=
  s.modPen (s.penOf c) (fun p => p.takeStop s.time cause (p.rel c) col slot it code value late)

/-- A stop by a result of a core, which is kept over a timing trap of its beat where it is `old` (R54, R369). -/
def State.lateStop (s : State) (c : Nat) (cause : Cause) (col : Col) (slot : Nat) (it : BitVec 32) (old : Bool) : State :=
  if old then s.modPen (s.penOf c) (fun p => p.keepStop s.time cause (p.rel c) col slot it)
  else s.stopAt c cause col slot it 0 0 true

/-- Does a stop post the event 0x03? R335 lists `trap`, `brk`, a region edge, TIMING_STUCK and machine checks (log 120). -/
def Stop.posts (st : Stop) : Bool := 3 ≤ bitsOf st.tstat 55 48

/-- The pen freezes for reporting: FRZ is set and the event 0x03 is posted (R59, R101, R335). -/
def State.freezeForReport (s : State) (h : Nat) : State :=
  let p := s.pen h
  match p.stop with
  | none => s
  | some st =>
    let s := s.setPen h { p with frozen := .reporting, stop := none, stopKept := none, tstat := st.tstat ||| tstatFrz, hold := none }
    if st.posts then s.postEvent p.ctx 0x03 p.pid.toNat (bitsOf st.tstat 47 40) p.die [st.tstat ||| tstatFrz, st.code, st.value] else s

/-- The return from a stop: THAW clears tstat and the pen goes on at the slot boundary where it stopped (R59, R101, R369). -/
def Pen.thaw (p : Pen) : Pen := { p with frozen := .running, tstat := 0, stop := none, stopKept := none }

/-! ### The timing trap and its return (R54, R55, R306) -/

/-- Beats of a rewind (R54). -/
def rewindBeats : Nat := 32

/-- What a rewind does to a core: results issued before the last restart point run on, the rest are discarded, and the
snapshot comes back (R54, R306). -/
def Core.rewind (now : Nat) (k : Core) : Core :=
  { k with
    fsr := if k.raisedT = now then k.fsr &&& ~~~k.trapF else k.fsr
    flights := k.flights.filter (·.old)
    streams := k.snap.streams
    cq := []
    s := k.snap.s
    q := k.snap.q
    g := k.snap.g
    dith := k.snap.dith
    rx := k.rx.map Rx.unpop
    busy := if k.busyOld then k.busy else 0
    recomp := k.recomp.filter (fun r => r.2.old) }

/-- CONS and SHIFT after one more restart (R55): the pen, whether SHIFT rose, whether the pen is stuck. -/
def Pen.stretch (p : Pen) : Pen × Bool × Bool :=
  let p := { p with cons := p.cons + 1 }
  if p.cons % 3 != 0 then (p, false, false)
  else if p.shift < 4 then ({ p with shift := p.shift + 1 }, true, false)
  else (p, false, true)

/-- A timing trap of a pen by a word or a late result of core `c` (R54, R55): interval discarded, snapshot restored, rpc and lbs
updated, 32 beats to the restart slot. A stop of the same beat, or by a word of the interval, is not taken (R101, R369), but for one that
no replay would raise again. A pen that is stuck stops, and tstat names the word (R59). -/
def State.timingTrap (s : State) (h c : Nat) (col : Col) (slot : Nat) (it : BitVec 32) : State :=
  let p := s.pen h
  let s := p.cores.foldl (fun s c => s.count c 6 1) s
  let s := s.modCores p.cores (Core.rewind s.time)
  let (p, rose, stuck) := p.stretch
  let p := { p.rgnBack with
    rpc := if p.rpc = BitVec.allOnes 32 then p.rpc else p.rpc + 1
    hold := none
    finNew := []
    slot := p.rsSlot
    it := p.rsIt
    beat := 0
    started := false
    ran := false
    afterSync := false
    resuming := true
    rewind := rewindBeats
    stop := (p.stop.filter (fun st => st.late && decide (st.time < s.time))).or (p.stopKept.filter (fun st => st.time = s.time))
    stopKept := none }
  let p := if stuck then p.takeStop s.time .timingStuck (p.rel c) col slot it 0 0 true else p
  let s := s.setPen h p
  let s := { s with todo := s.todo.filter (fun t => match t with
    | .word c _ => !p.has c
    | .ev (.chunkIssue c _) _ => !p.has c
    | .ev (.slotStart x) _ => x != h
    | _ => true) }
  if rose then s.postEvent p.ctx 0x02 p.pid.toNat 0 p.die
    [BitVec.ofNat 64 p.rsSlot, BitVec.ofNat 64 p.rsIt.toNat, tickWord p.tick] else s

/-! ### Results (R43) -/

/-- Has every element of a load returned (R43, R45)? -/
def Load.back (l : Load) : Bool := l.resp = 0 && l.elems.all (·.got.isSome)

/-- Is a result to be written now, and is it late? -/
def Flight.due (f : Flight) : Bool := f.remain = 0 && f.load.all Load.back
def Flight.late (f : Flight) : Bool := f.remain = 0 && f.load.any (fun l => !l.back)

/-- Put a result in flight. -/
def Core.issue (k : Core) (f : Flight) : Core := { k with flights := k.flights ++ [f] }

/-- A commit-queue entry (R56). -/
def Core.enqueue (k : Core) (e : CqEntry) : Core := { k with cq := k.cq ++ [e] }

/-- A CSR private to a core takes a value (R57, R98, R99); read-only fields ignore it. `raised` are the flags of this
beat (R37); a counter gets the increments of this beat added (R316). A 1 written into an enabled bit of fsr takes no flag trap (log 94). -/
def Core.wrCsr (k : Core) (now n : Nat) (v : W64) (raised : Flags) : Core :=
  if n = 0x05 then { k with fsr := v.truncate 5 ||| raised }
  else if n = 0x06 then { k with fen := v.truncate 5 }
  else if n = 0x07 then { k with dith := v.truncate 16 }
  else if 0x10 ≤ n && n < 0x20 then { k with pal := k.pal.setIfInBounds (n - 0x10) (v.truncate 5) }
  else if 0x20 ≤ n && n < 0x28 then 
    let add := if k.evcT = now then k.evcAdd.toList.getD (n - 0x20) 0 else 0
    { k with evc := k.evc.setIfInBounds (n - 0x20) (v + add) }
  else if 0x28 ≤ n && n < 0x30 then
    { k with
      evs := k.evs.setIfInBounds (n - 0x28) (v &&& 0xFFFF80FF)
      evsPrev := if k.evsT = now then k.evsPrev else k.evs
      evsT := now }
  else k

/-- A pen-wide CSR takes a value (R42, R57, R61, R99): the first write of a beat, by the lowest core, stands. -/
def Pen.wrCsr (p : Pen) (now n : Nat) (v : W64) : Pen :=
  if (Tab.find p.csrT n) = some now then p
  else
    let p := if n = 0x02 || n = 0x30 || n = 0x31 then { p with csrT := Tab.put p.csrT n now } else p
    if n = 0x02 then { p with iterNext := if v.truncate 32 = (0 : BitVec 32) then 1 else v.truncate 32 }
    else if n = 0x30 then { p with rpc := v.truncate 32 }
    else if n = 0x31 then { p with shift := Nat.min 4 (bitsOf v 2 0) }
    else p

/-- A register write of a result on one core. -/
def Core.land (k : Core) (w : Write) : Core :=
  match w with
  | .s r v => k.wrS r v
  | .v r d m => { k with v := k.v.set r (merge k.v[r] d m) }
  | .q r d m => k.wrQ r (merge (k.rdQ r) d m)
  | .b r v => { k with b := k.b.set r v }
  | .bw r i v => { k with b := k.b.set r (merge k.b[r] ((v.zeroExtend 256) <<< (64 * i.val))
      (((BitVec.allOnes 64).zeroExtend 256) <<< (64 * i.val))) }
  | .acc r v => { k with a := k.a.set r v }
  | .accLo r v => { k with a := k.a.set r (((k.a[r].extractLsb' 32768 32768) ++ v).cast (by decide)) }
  | .ring g r => { k with g := k.g.set g r }
  | .ringAdv g n => { k with g := k.g.set g (k.g[g].adv n) }
  | .ringPop g n => { k with g := k.g.set g (k.g[g].pop n) }
  | .ringRow g r => { k with g := k.g.set g { k.g[g] with fillrow := r } }
  | .tagSet i e => { k with tags := Tab.put k.tags i.val e }
  | .tagInv key => { k with tags := k.tags.map (fun x => if x.2.key = key then (x.1, { x.2 with valid := false }) else x) }
  | .tagClr => { k with tags := [] }
  | .oStat o v => { k with oStat := k.oStat.set o v }
  | .oPiv o v => { k with oPiv := k.oPiv.set o v }
  | .bypRow f r ofs bs =>
    let d := k.byp.data
    let d' := d.take ofs ++ List.replicate (ofs - d.length) 0 ++ bs ++ d.drop (ofs + bs.length)
    { k with byp := { valid := true, fmt := f, src := r, data := d' } }
  | _ => k

/-- The part of a result that also lands in the restart snapshot, when it issued before the restart point (R53). -/
def Snap.land (n : Snap) (w : Write) : Snap :=
  match w with
  | .s r v => if r = 0 then n else { n with s := n.s.set r v }
  | .q r d m => if r = 0 then n else { n with q := n.q.set r (merge n.q[r] d m) }
  | .ring g r => { n with g := n.g.set g r }
  | .ringAdv g i => { n with g := n.g.set g (n.g[g].adv i) }
  | .ringPop g i => { n with g := n.g.set g (n.g[g].pop i) }
  | .ringRow g r => { n with g := n.g.set g { n.g[g] with fillrow := r } }
  | .csr c v => if c = 0x07 then { n with dith := v.truncate 16 } else n
  | _ => n

/-- Flags rise on a core: they are ORed into fsr, and one that becomes set with its enable on takes a flag trap that names
the raising word (R35, R36, R369); a flag that an `mtc` has set already takes none (log 94). A flag of a result issued before the last
restart point, `old`, stands over a timing trap of its beat (R54). -/
def State.raise (s : State) (c : Nat) (f : Flags) (col : Col) (slot : Nat) (it : BitVec 32) (old : Bool := false) : State :=
  let k := s.core c
  let same := k.raisedT = s.time
  let back := if same then k.trapF else 0
  let new := f &&& (~~~k.fsr ||| (if old then back else 0)) &&& k.fen
  let s := s.setCore c { k with
    fsr := k.fsr ||| f
    raised := (if same then k.raised else 0) ||| f
    raisedT := s.time
    trapF := if old then back &&& ~~~f else back ||| new }
  if new != 0 then s.lateStop c .flagTrap col slot it old else s

end Sys2Proof.Machine
end

