-- ==== Sys2Proof/Machine/Round.lean ====
section
/-! DEFINITION. Numbers: decoding an element to its exact value (R14 to R22), rounding and dither (R23 to R27), the
finishing table (R28, R29), and the arithmetic built from them (R113 to R117). -/

namespace Sys2Proof

open Machine

/-- An exact value: a NaN (signalling or quiet), an infinity, or (-1)^neg · mag · 2^exp (R28). -/
inductive FVal
  | nan (sig : Bool)
  | inf (neg : Bool)
  | fin (neg : Bool) (mag : Nat) (exp : Int)
deriving DecidableEq, Repr, Inhabited

/-- What a format's code space holds besides finite values (R28). -/
inductive Special | ieee | nanOnly | none_
deriving DecidableEq, Repr, Inhabited

/-- Fields of a floating-point format: exponent bits, fraction bits, bias, special codes, largest significand (R14). -/
structure FloatFmt where
  eb : Nat
  mb : Nat
  bias : Nat
  sp : Special
deriving DecidableEq, Repr, Inhabited

/-- R14 to R16. -/
def Fmt.float : Fmt → Option FloatFmt
  | .fp32 => some ⟨8, 23, 127, .ieee⟩
  | .fp64 => some ⟨11, 52, 1023, .ieee⟩
  | .fp16 => some ⟨5, 10, 15, .ieee⟩
  | .bf16 => some ⟨8, 7, 127, .ieee⟩
  | .e4m3 => some ⟨4, 3, 7, .nanOnly⟩
  | .e5m2 => some ⟨5, 2, 15, .ieee⟩
  | .e3m2 => some ⟨3, 2, 3, .none_⟩
  | .e2m3 => some ⟨2, 3, 1, .none_⟩
  | .e2m1 => some ⟨2, 1, 1, .none_⟩
  | _ => none

/-- The exponent of the last place of the largest finite value. -/
def FloatFmt.maxLsb (p : FloatFmt) : Int :=
  ((2 ^ p.eb - 1 : Nat) : Int) - (if p.sp = .ieee then 1 else 0) - p.bias - p.mb

/-- The significand of the largest finite value. -/
def FloatFmt.maxSig (p : FloatFmt) : Nat := 2 ^ (p.mb + 1) - 1 - (if p.sp = .nanOnly then 1 else 0)

/-- The bits of the largest finite value without its sign. -/
def FloatFmt.maxBits (p : FloatFmt) : Nat :=
  match p.sp with
  | .ieee => (2 ^ p.eb - 1) * 2 ^ p.mb - 1
  | .nanOnly => 2 ^ (p.eb + p.mb) - 2
  | .none_ => 2 ^ (p.eb + p.mb) - 1

/-- The default NaN; +0 where the format has none (R15, R16, R28). -/
def FloatFmt.dnan (p : FloatFmt) : Nat :=
  match p.sp with
  | .ieee => (2 ^ p.eb - 1) * 2 ^ p.mb + 2 ^ (p.mb - 1)
  | .nanOnly => 2 ^ (p.eb + p.mb) - 1
  | .none_ => 0

/-- Decode a floating-point code (R15, R16). -/
def FloatFmt.dec (p : FloatFmt) (x : Nat) : FVal :=
  let f := x % 2 ^ p.mb
  let e := x / 2 ^ p.mb % 2 ^ p.eb
  let s := bitAt x (p.eb + p.mb)
  if p.sp = .ieee && e = 2 ^ p.eb - 1 then
    if f = 0 then .inf s else .nan (!bitAt f (p.mb - 1))
  else if p.sp = .nanOnly && e = 2 ^ p.eb - 1 && f = 2 ^ p.mb - 1 then .nan false
  else if e = 0 then .fin s f (1 - (p.bias : Int) - p.mb)
  else .fin s (2 ^ p.mb + f) ((e : Int) - p.bias - p.mb)

/-! ### DM8 (R18, R19) -/

/-- Fraction bits of the DM8 binade 2^e (R18). -/
def dm8M (e : Int) : Nat :=
  if -2 ≤ e && e ≤ 1 then 4 else if (2 ≤ e && e ≤ 5) || (-6 ≤ e && e ≤ -3) then 2
  else if (6 ≤ e && e ≤ 9) || (-10 ≤ e && e ≤ -7) then 1 else 0

/-- The payload of (2^m + f) · 2^(e - m), with m the fraction bits of the binade (R18). -/
def dm8Payload (e : Int) (f : Nat) : Nat :=
  if -2 ≤ e && e ≤ 1 then 64 + (e + 2).toNat * 16 + f
  else if 2 ≤ e && e ≤ 5 then 48 + (e - 2).toNat * 4 + f
  else if -6 ≤ e && e ≤ -3 then 32 + (-3 - e).toNat * 4 + f
  else if 6 ≤ e && e ≤ 9 then 24 + (e - 6).toNat * 2 + f
  else if -10 ≤ e && e ≤ -7 then 16 + (-7 - e).toNat * 2 + f
  else if 10 ≤ e && e ≤ 13 then 12 + (e - 10).toNat
  else if -14 ≤ e && e ≤ -11 then 8 + (-11 - e).toNat
  else if 14 ≤ e && e ≤ 15 then 6 + (e - 14).toNat
  else if -16 ≤ e && e ≤ -15 then 4 + (-15 - e).toNat
  else if e = 16 then 3 else if e = -17 then 2 else if e = -18 then 1 else 0

/-- Decode a DM8 byte (R18). -/
def dm8Dec (x : Nat) : FVal :=
  let s := bitAt x 7
  let p := x % 128
  if p = 0 then (if s then .nan false else .fin false 0 0)
  else
    let d := fun (i : Nat) => bitAt p i
    if bitAt p 6 then .fin s (16 + p % 16) (((p / 16 % 4 : Nat) : Int) - 6)
    else if bitAt p 5 then
      let eb : Int := (p / 4 % 4 : Nat)
      .fin s (4 + p % 4) ((if d 4 then 2 + eb else -3 - eb) - 2)
    else if bitAt p 4 then
      let eb : Int := (p / 2 % 4 : Nat)
      .fin s (2 + p % 2) ((if d 3 then 6 + eb else -7 - eb) - 1)
    else if bitAt p 3 then
      let eb : Int := (p % 4 : Nat)
      .fin s 1 (if d 2 then 10 + eb else -11 - eb)
    else if bitAt p 2 then
      let eb : Int := (p % 2 : Nat)
      .fin s 1 (if d 1 then 14 + eb else -15 - eb)
    else if bitAt p 1 then .fin s 1 (if d 0 then 16 else -17)
    else .fin s 1 (-18)

/-! ### Decoding an element -/

/-- Smallest and largest value of an unscaled integer format (R14). -/
def Fmt.intRange : Fmt → Int × Int
  | .int32 => (-2147483648, 2147483647)
  | .int16 => (-32768, 32767)
  | .int8 => (-128, 127)
  | .uint8 => (0, 255)
  | .int4 => (-8, 7)
  | .uint4 => (0, 15)
  | _ => (0, 0)

/-- Is an unscaled integer format signed? -/
def Fmt.signedInt : Fmt → Bool
  | .int32 | .int16 | .int8 | .int4 => true
  | _ => false

/-- The integer an element code of an unscaled integer format holds (R17). -/
def Fmt.intVal (f : Fmt) (x : Nat) : Int := if f.signedInt then signed f.bits x else (x % 2 ^ f.bits : Nat)

def FVal.ofInt (x : Int) : FVal := .fin (decide (x < 0)) x.natAbs 0

/-- The exact value of an unscaled element code (R14 to R19). -/
def FVal.dec (f : Fmt) (x : Nat) : FVal :=
  let x := x % 2 ^ f.bits
  match f.float with
  | some p => p.dec x
  | none => if f = .dm8 then dm8Dec x else .ofInt (f.intVal x)

/-- The default NaN of an unscaled format (R15, R16, R19). -/
def Fmt.dnan (f : Fmt) : Nat :=
  match f.float with
  | some p => p.dnan
  | none => if f = .dm8 then 0x80 else 0

/-! ### Rounding (R23 to R27) -/

/-- Rounding mode, saturation, and the dither threshold at the element's position (R24). -/
structure Rnd where
  rm : Rm := .rne
  sat : Bool := false
  thr : Nat := 0
deriving DecidableEq, Repr, Inhabited

/-- Entry of D₂ (R25). -/
def dither2 (r c : Bool) : Nat := if r then (if c then 1 else 3) else (if c then 2 else 0)

/-- The dither matrix, by the doubling of R25. -/
def ditherD (r c : Nat) : Nat :=
  let q := fun (i : Nat) => dither2 (bitAt r i) (bitAt c i)
  q 3 + 4 * (q 2 + 4 * (q 1 + 4 * q 0))

/-- The threshold at position (r, c) with the phase of a dith word (R24, R26). -/
def ditherThr (phase : Nat) (r c : Nat) : Nat := ditherD ((r + phase / 16 % 16) % 16) ((c + phase % 16) % 16)

/-- The threshold for logical element `e` of a vector (R27). -/
def ditherElem (phase : Nat) (e : Nat) : Nat := ditherThr phase (e / 16) e

/-- The phase after one tile (R26). -/
def ditherAdvance (d : BitVec 16) : BitVec 16 :=
  let n := d.toNat
  BitVec.ofNat 16 (n / 256 * 256 + (n / 16 % 16 + n / 4096 % 16) % 16 * 16 + (n % 16 + n / 256 % 16) % 16)

/-- Is the larger magnitude taken, for a discarded part rem/d of one step (R23, R24)? -/
def Rnd.up (r : Rnd) (neg : Bool) (rem d : Nat) (tieUp : Bool) : Bool :=
  match r.rm with
  | .rne => d < 2 * rem || (2 * rem = d && tieUp)
  | .rtz => false
  | .down => neg
  | .dither => r.thr < 256 * rem / d

/-- Floor of log2 of num/den · 2^exp, for num and den above 0. -/
def flog2 (num den : Nat) (exp : Int) : Int :=
  let k : Int := (Nat.log2 num : Int) - Nat.log2 den
  let ge : Bool := if 0 ≤ k then den * 2 ^ k.toNat ≤ num else den ≤ num * 2 ^ (-k).toNat
  (if ge then k else k - 1) + exp

/-- num/den · 2^exp in units of 2^l: quotient, remainder and divisor. -/
def unitsOf (num den : Nat) (exp l : Int) : Nat × Nat × Nat :=
  let n := if l ≤ exp then num * 2 ^ (exp - l).toNat else num
  let d := if l ≤ exp then den else den * 2 ^ (l - exp).toNat
  (n / d, n % d, d)

/-- Round a magnitude to a multiple of 2^l, ties to an even multiple: the multiple and whether it is inexact. -/
def roundUnits (r : Rnd) (neg : Bool) (num den : Nat) (exp l : Int) : Nat × Bool :=
  let (n, rem, d) := unitsOf num den exp l
  (n + (if rem != 0 && r.up neg rem d (n % 2 = 1) then 1 else 0), rem != 0)

/-- Finish a finite non-zero value in a floating-point format (R28). -/
def FloatFmt.finish (p : FloatFmt) (r : Rnd) (neg : Bool) (num den : Nat) (exp : Int) : Nat × Flags :=
  let sb := if neg then 2 ^ (p.eb + p.mb) else 0
  let emin : Int := 1 - (p.bias : Int)
  let l : Int := max (flog2 num den exp) emin - p.mb
  let (n, inexact) := roundUnits r neg num den exp l
  if p.maxLsb ≤ l && p.maxSig < n * 2 ^ (l - p.maxLsb).toNat then
    let fl := Flags.of ||| Flags.nx
    match p.sp with
    | .none_ => (sb + p.maxBits, fl)
    | .nanOnly => (if r.sat then sb + p.maxBits else p.dnan, fl)
    | .ieee =>
      if r.sat || r.rm = .rtz || (r.rm = .down && !neg) then (sb + p.maxBits, fl)
      else (sb + (2 ^ p.eb - 1) * 2 ^ p.mb, fl)
  else
    let fl := Flags.when inexact Flags.nx
    let (n, l) := if 2 ^ (p.mb + 1) ≤ n then (n / 2, l + 1) else (n, l)
    if 2 ^ p.mb ≤ n then (sb + (l + p.mb + p.bias).toNat * 2 ^ p.mb + (n - 2 ^ p.mb), fl)
    else (sb + n, fl ||| Flags.when inexact Flags.uf)

/-- Finish a finite non-zero value in DM8 (R19). -/
def dm8Finish (r : Rnd) (neg : Bool) (num den : Nat) (exp : Int) : Nat × Flags :=
  let e := flog2 num den exp
  let sb := if neg then 128 else 0
  let m := dm8M e
  let l : Int := if e < -18 then -18 else e - m
  let (n, rem, d) := unitsOf num den exp l
  let tooBig : Nat × Flags := (if r.sat then sb + 3 else 0x80, Flags.of ||| Flags.nx)
  if 16 < e then tooBig
  else
    let lo := if e < -18 then 0 else dm8Payload e (n - 2 ^ m)
    let hi := if e < -18 then 1 else if n + 1 = 2 ^ (m + 1) then dm8Payload (e + 1) 0 else dm8Payload e (n + 1 - 2 ^ m)
    let tieUp := if lo % 2 != hi % 2 then lo % 2 = 1 else Config.dm8TieUp lo
    if rem = 0 then (sb + lo, 0)
    else if r.up neg rem d tieUp then (if e = 16 then tooBig else (sb + hi, Flags.nx))
    else if lo = 0 then (0, Flags.nx ||| Flags.uf)
    else (sb + lo, Flags.nx)

/-- Finish an integer result of arithmetic in a format: wrap, or clamp with OF (R29, R114). -/
def fixW (f : Fmt) (sat : Bool) (v : Int) : Nat × Flags :=
  let (lo, hi) := f.intRange
  if sat && v < lo then (wrapN f.bits lo, Flags.of)
  else if sat && hi < v then (wrapN f.bits hi, Flags.of)
  else (wrapN f.bits v, 0)

/-- Convert a finite value to an integer format (R29). -/
def intFinish (f : Fmt) (r : Rnd) (neg : Bool) (num den : Nat) (exp : Int) : Nat × Flags :=
  let (n, inexact) := roundUnits r neg num den exp 0
  let v : Int := if neg then -(n : Int) else n
  let (lo, hi) := f.intRange
  if v < lo then (wrapN f.bits lo, Flags.iv)
  else if hi < v then (wrapN f.bits hi, Flags.iv)
  else (wrapN f.bits v, Flags.when inexact Flags.nx)

/-- Finish a finite value num/den · 2^exp in an unscaled format (R28, R29). -/
def finishFin (f : Fmt) (r : Rnd) (neg : Bool) (num den : Nat) (exp : Int) : Nat × Flags :=
  match f.float with
  | some p => if num = 0 then (if neg then 2 ^ (p.eb + p.mb) else 0, 0) else p.finish r neg num den exp
  | none =>
    if f = .dm8 then (if num = 0 then (0, 0) else dm8Finish r neg num den exp) else intFinish f r neg num den exp

/-- An infinity converted to a format (R28, R29). -/
def finishInf (f : Fmt) (r : Rnd) (neg : Bool) : Nat × Flags :=
  match f.float with
  | some p =>
    let sb := if neg then 2 ^ (p.eb + p.mb) else 0
    match p.sp with
    | .ieee => (sb + (2 ^ p.eb - 1) * 2 ^ p.mb, 0)
    | .nanOnly => (if r.sat then sb + p.maxBits else p.dnan, Flags.of)
    | .none_ => (sb + p.maxBits, Flags.iv)
  | none =>
    if f = .dm8 then (if r.sat then (if neg then 0x83 else 3) else 0x80, Flags.of)
    else (wrapN f.bits (if neg then f.intRange.1 else f.intRange.2), Flags.iv)

/-- A NaN converted to a format (R28, R29). -/
def finishNan (f : Fmt) (sig : Bool) : Nat × Flags :=
  match f.float with
  | some p => (p.dnan, if p.sp = .none_ then Flags.iv else Flags.when sig Flags.iv)
  | none => if f = .dm8 then (0x80, Flags.when sig Flags.iv) else (0, Flags.iv)

/-- Finish any exact value in an unscaled format (R28, R29). -/
def FVal.finish (f : Fmt) (r : Rnd) : FVal → Nat × Flags
  | .nan sig => finishNan f sig
  | .inf neg => finishInf f r neg
  | .fin neg mag exp => finishFin f r neg mag 1 exp

/-- Conversion of one unscaled element code to another unscaled format: a bit copy where the formats are equal at a port
is the caller's. An integer narrowed to an integer format follows SAT (R29). -/
def convert (td ts : Fmt) (r : Rnd) (x : Nat) : Nat × Flags :=
  if ts.unscaledInt && td.unscaledInt then fixW td r.sat (ts.intVal x) else (FVal.dec ts x).finish td r

/-! ### Scaled elements (R20 to R22) -/

/-- The exact value of an encoded scale (R20). -/
def ScaleFmt.dec (s : ScaleFmt) (x : Nat) : FVal :=
  match s with
  | .e8m0 => if x % 256 = 255 then .nan false else .fin false 1 ((x % 256 : Nat) - 127)
  | .fp16 => .dec .fp16 x
  | .dm8 => .dec .dm8 x
  | .fp32 => .dec .fp32 x

/-- The value of a scaled format's element code without its scale (R17, R22). -/
def Fmt.elemVal (f : Fmt) (x : Nat) : FVal :=
  match f with
  | .ternb32h => if x % 4 = 1 then .fin false 1 0 else if x % 4 = 3 then .fin true 1 0 else .fin false 0 0
  | .binb64h => .fin (x % 2 = 1) 1 0
  | .mxint8 =>
    match FVal.dec .int8 x with
    | .fin n m e => .fin n m (e - 6)
    | v => v
  | f => .dec f.elem x

/-- The exact value of a scaled element (R21); special scales take precedence. -/
def scaledVal (f : Fmt) (x scale : Nat) : FVal :=
  match f.scale.dec scale with
  | .nan _ | .inf _ => .nan false
  | .fin sn sm se =>
    if sm = 0 then .fin false 0 0
    else match f.elemVal x with
      | .nan _ => .nan false
      | .inf n => .inf (n != sn)
      | .fin n m e => .fin (n != sn) (m * sm) (e + se)

/-- Convert the exact quotient num/den · 2^exp to a ternary code (R22). -/
def ternFinish (r : Rnd) (neg : Bool) (num den : Nat) (exp : Int) : Nat × Flags :=
  let code := if neg then 3 else 1
  let (n, rem, d) := unitsOf num den exp 0
  if 1 < n || (n = 1 && rem != 0) then (code, Flags.of ||| Flags.nx)
  else if n = 1 then (code, 0)
  else if rem = 0 then (0, 0)
  else (if r.up neg rem d false then code else 0, Flags.nx)

/-- The element code of a value divided by its scale (R119, R22). -/
def encScaled (f : Fmt) (r : Rnd) (v : FVal) (scale : Nat) : Nat × Flags :=
  match f.scale.dec scale with
  | .nan _ | .inf _ =>
    match f with
    | .ternb32h | .binb64h => (0, Flags.iv)
    | f => ((finishNan f.elem false).1, (finishNan f.elem false).2 ||| Flags.iv)
  | .fin sn sm se =>
    if sm = 0 then (0, 0)
    else match v with
      | .nan sig =>
        match f with
        | .ternb32h | .binb64h => (0, Flags.iv)
        | f => finishNan f.elem sig
      | .inf n =>
        match f with
        | .ternb32h => (if n != sn then 3 else 1, Flags.iv)
        | .binb64h => (if n != sn then 1 else 0, Flags.nx)
        | f => finishInf f.elem r (n != sn)
      | .fin n m e =>
        let neg := n != sn
        match f with
        | .ternb32h => ternFinish r neg m sm (e - se)
        | .binb64h =>
          let (q, rem, _) := unitsOf m sm (e - se) 0
          (if neg then 1 else 0, Flags.when (q != 1 || rem != 0) Flags.nx)
        | .mxint8 => finishFin .int8 r neg m sm (e - se + 6)
        | f => finishFin f.elem r neg m sm (e - se)

/-! ### Exact sums and products -/

/-- A dyadic number m · 2^e. -/
structure Dy where
  m : Int
  e : Int
deriving DecidableEq, Repr, Inhabited

def Dy.add (a b : Dy) : Dy :=
  if a.m = 0 then b else if b.m = 0 then a
  else if a.e ≤ b.e then ⟨a.m + b.m * 2 ^ (b.e - a.e).toNat, a.e⟩ else ⟨a.m * 2 ^ (a.e - b.e).toNat + b.m, b.e⟩

def Dy.mul (a b : Dy) : Dy := ⟨a.m * b.m, a.e + b.e⟩

def Dy.neg (a : Dy) : Dy := ⟨-a.m, a.e⟩

def FVal.isNan : FVal → Bool
  | .nan _ => true
  | _ => false

def FVal.isSig : FVal → Bool
  | .nan s => s
  | _ => false

def FVal.isInf : FVal → Bool
  | .inf _ => true
  | _ => false

def FVal.isZero : FVal → Bool
  | .fin _ m _ => m = 0
  | _ => false

/-- The sign bit of a value. -/
def FVal.sign : FVal → Bool
  | .nan _ => false
  | .inf n => n
  | .fin n _ _ => n

/-- The finite part of a value. -/
def FVal.dy : FVal → Dy
  | .fin n m e => ⟨if n then -(m : Int) else m, e⟩
  | _ => ⟨0, 0⟩

def FVal.neg : FVal → FVal
  | .nan s => .nan s
  | .inf n => .inf (!n)
  | .fin n m e => .fin (!n) m e

/-- Round an exact sum; a sum of exactly zero is +0, or -0 under round down (R111). -/
def Dy.finish (f : Fmt) (r : Rnd) (d : Dy) : Nat × Flags :=
  if d.m = 0 then finishFin f r (r.rm = .down) 0 1 0
  else finishFin f r (decide (d.m < 0)) d.m.natAbs 1 d.e

/-- The product of two values: none when it is invalid or a NaN (R113). -/
def FVal.mul (a b : FVal) : Option FVal :=
  match a, b with
  | .nan _, _ | _, .nan _ => none
  | .inf n, .inf k => some (.inf (n != k))
  | .inf n, .fin k m _ => if m = 0 then none else some (.inf (n != k))
  | .fin k m _, .inf n => if m = 0 then none else some (.inf (n != k))
  | .fin n m e, .fin k m' e' => some (.fin (n != k) (m * m') (e + e'))

/-- A NaN or invalid case: the default NaN, with IV when the operation is invalid or an operand signals (R113). -/
def fpNan (f : Fmt) (xs : List FVal) : Nat × Flags :=
  (f.dnan, Flags.when (xs.any FVal.isSig || !xs.any FVal.isNan) Flags.iv)

/-- (± A × B ± C) · 2^shift with one rounding (R113); zero sums by R111. -/
def fpFused (f : Fmt) (r : Rnd) (np nc : Bool) (shift : Int) (a b c : FVal) : Nat × Flags :=
  if a.isNan || b.isNan then fpNan f [a, b, c]
  else match a.mul b with
    | none => (f.dnan, Flags.iv)
    | some p =>
      let p := if np then p.neg else p
      let c := if nc then c.neg else c
      match p, c with
      | _, .nan s => (f.dnan, Flags.when s Flags.iv)
      | .inf n, .inf k => if n = k then finishInf f r n else fpNan f [a, b, c]
      | .inf n, _ => finishInf f r n
      | _, .inf k => finishInf f r k
      | p, c =>
        let d := p.dy.add c.dy
        Dy.finish f r ⟨d.m, d.e + shift⟩

def FVal.one : FVal := .fin false 1 0

/-- A + B or A - B (R112). -/
def fpAdd (f : Fmt) (r : Rnd) (minus : Bool) (a b : FVal) : Nat × Flags := fpFused f r false minus 0 a .one b

/-- A × B (R112). -/
def fpMul (f : Fmt) (r : Rnd) (a b : FVal) : Nat × Flags :=
  match a.mul b with
  | none => fpNan f [a, b]
  | some v => v.finish f r

/-- 2 - A × B (R116). -/
def fpRcps (f : Fmt) (r : Rnd) (a b : FVal) : Nat × Flags :=
  if (a.isZero && b.isInf) || (a.isInf && b.isZero) then finishFin f r false 1 1 1
  else fpFused f r true false 0 a b (.fin false 1 1)

/-- (3 - A × B) / 2 (R116). -/
def fpRsqs (f : Fmt) (r : Rnd) (a b : FVal) : Nat × Flags :=
  if (a.isZero && b.isInf) || (a.isInf && b.isZero) then finishFin f r false 3 1 (-1)
  else fpFused f r true false (-1) a b (.fin false 3 0)

/-- Order of two values that are not NaN, with -0 below +0 (R113). -/
def FVal.lt (a b : FVal) : Bool :=
  match a, b with
  | .inf n, .inf k => n && !k
  | .inf n, _ => n
  | _, .inf k => !k
  | a, b =>
    let d := a.dy.add b.dy.neg
    d.m < 0 || (d.m = 0 && a.sign && !b.sign)

/-- Order of two values that are not NaN, with -0 equal to +0 (R121). -/
def FVal.ltN (a b : FVal) : Bool :=
  match a, b with
  | .inf n, .inf k => n && !k
  | .inf n, _ => n
  | _, .inf k => !k
  | a, b => (a.dy.add b.dy.neg).m < 0

def FVal.eqN (a b : FVal) : Bool := !a.isNan && !b.isNan && !a.ltN b && !b.ltN a

/-- Minimum or maximum of two codes (R113, R114). -/
def minMax (f : Fmt) (mx : Bool) (x y : Nat) : Nat × Flags :=
  if f.unscaledInt then
    (if (if mx then f.intVal x < f.intVal y else f.intVal y < f.intVal x) then y else x, 0)
  else
    let a := FVal.dec f x
    let b := FVal.dec f y
    if a.isNan || b.isNan then (f.dnan, Flags.when (a.isSig || b.isSig) Flags.iv)
    else (if (if mx then a.lt b else b.lt a) then y else x, 0)

/-- The sign bit of an FP code cleared or inverted (R113); |A| and -A of an integer (R114). -/
def absNeg (f : Fmt) (sat neg : Bool) (x : Nat) : Nat × Flags :=
  if f.unscaledInt then
    let v := f.intVal x
    fixW f sat (if neg then -v else v.natAbs)
  else
    let a := FVal.dec f x
    if a.isNan then (f.dnan, Flags.when a.isSig Flags.iv)
    else
      let s := 2 ^ (f.bits - 1)
      (if neg then (if s ≤ x % (2 * s) then x % s else x % s + s) else x % s, 0)

/-! ### Estimates (R115) -/

/-- Integer square root by bits, from bit `k - 1` down. -/
def isqrtGo (n : Nat) : Nat → Nat → Nat
  | 0, r => r
  | k + 1, r => if (r + 2 ^ k) * (r + 2 ^ k) ≤ n then isqrtGo n k (r + 2 ^ k) else isqrtGo n k r

def isqrt (n : Nat) : Nat := isqrtGo n (Nat.log2 n / 2 + 1) 0

/-- The reciprocal estimate of a finite non-zero value (R115): sign, significand over 4096, exponent. -/
def rcpEst (mag : Nat) (exp : Int) : Nat × Int :=
  let k := Nat.log2 mag
  let e : Int := k + exp
  let i := mag * 256 / 2 ^ k - 256
  let f := (2 * 4096 * (511 - 2 * i) + (513 + 2 * i)) / (2 * (513 + 2 * i))
  (4096 + f, -e - 1 - 12)

/-- The reciprocal square root estimate of a positive value (R115). -/
def rsqEst (mag : Nat) (exp : Int) : Nat × Int :=
  let k := Nat.log2 mag
  let e : Int := k + exp
  let p : Nat := (e % 2).toNat
  let j := mag * 128 / 2 ^ k - 128
  let n := (isqrt (4 * 131072 * 131072 / (2 ^ p * (257 + 2 * j))) + 1) / 2
  (n, -((e - p) / 2) - 1 - 12)

/-- The largest finite magnitude is below m · 2^e. -/
def FloatFmt.above (p : FloatFmt) (m : Nat) (e : Int) : Bool :=
  0 < (Dy.add ⟨m, e⟩ ⟨-(p.maxSig : Int), p.maxLsb⟩).m

/-- `vrcp` (R115). -/
def fpRcp (f : Fmt) (r : Rnd) (a : FVal) : Nat × Flags :=
  match a with
  | .nan s => finishNan f s
  | .inf n => finishFin f r n 0 1 0
  | .fin n m e =>
    if m = 0 then ((finishInf f r n).1, Flags.dz)
    else
      let (y, ye) := rcpEst m e
      match f.float with
      | some p => if p.above y ye then ((finishInf f r n).1, Flags.of ||| Flags.nx) else finishFin f r n y 1 ye
      | none => (0, 0)

/-- `vrsq` (R115). -/
def fpRsq (f : Fmt) (r : Rnd) (a : FVal) : Nat × Flags :=
  match a with
  | .nan s => finishNan f s
  | .inf n => if n then (f.dnan, Flags.iv) else finishFin f r false 0 1 0
  | .fin n m e =>
    if m = 0 then ((finishInf f r n).1, Flags.dz)
    else if n then (f.dnan, Flags.iv)
    else
      let (y, ye) := rsqEst m e
      finishFin f r false y 1 ye

/-! ### Exponent handling (R117) -/

/-- A × 2^n. -/
def fpScale (f : Fmt) (r : Rnd) (a : FVal) (n : Int) : Nat × Flags :=
  let n := max (-4096) (min 4096 n)
  match a with
  | .fin s m e => finishFin f r s m 1 (e + n)
  | v => v.finish f r

/-- The signed fraction with magnitude in [1, 2). -/
def fpFrac (f : Fmt) (a : FVal) : Nat × Flags :=
  match a with
  | .fin s m e => if m = 0 then finishFin f {} s 0 1 0 else finishFin f {} s m 1 (-(Nat.log2 m : Int) + 0 * e)
  | v => v.finish f {}

/-- The exponent, as an integer. -/
def fpExp (a : FVal) : Int × Flags :=
  match a with
  | .fin _ m e => (if m = 0 then 0 else Nat.log2 m + e, 0)
  | .inf _ => (0, 0)
  | .nan s => (0, Flags.when s Flags.iv)

/-- `vround`: an integral value of the format; a zero result keeps the sign. NX alone marks a result that differs (R117, log 93). -/
def fpRound (f : Fmt) (r : Rnd) (a : FVal) : Nat × Flags :=
  match a with
  | .fin s m e =>
    if m = 0 then finishFin f r s 0 1 0
    else
      let (n, inexact) := roundUnits r s m 1 e 0
      ((finishFin f {} s n 1 0).1, Flags.when inexact Flags.nx)
  | v => v.finish f r

/-! ### Square root and division in FP64 (R130, R32) -/

/-- The correctly rounded square root of a positive finite value, RNE. -/
def fpSqrt (f : Fmt) (a : FVal) : Nat × Flags :=
  match a with
  | .nan s => finishNan f s
  | .inf n => if n then (f.dnan, Flags.iv) else finishInf f {} false
  | .fin n m e =>
    if m = 0 then finishFin f {} n 0 1 0
    else if n then (f.dnan, Flags.iv)
    else
      let (m, e) := if e % 2 = 0 then (m, e) else (m * 2, e - 1)
      let m := m * 2 ^ 160
      let q := isqrt m
      if q * q = m then finishFin f {} false q 1 (e / 2 - 80) else finishFin f {} false (2 * q + 1) 2 (e / 2 - 80)

/-- A correctly rounded quotient, RNE; special values as IEEE 754. -/
def fpDiv (f : Fmt) (a b : FVal) : Nat × Flags :=
  match a, b with
  | .nan _, _ | _, .nan _ => fpNan f [a, b]
  | .inf _, .inf _ => (f.dnan, Flags.iv)
  | .inf n, .fin k _ _ => finishInf f {} (n != k)
  | .fin n _ _, .inf k => finishFin f {} (n != k) 0 1 0
  | .fin n m e, .fin k m' e' =>
    if m' = 0 then (if m = 0 then (f.dnan, Flags.iv) else ((finishInf f {} (n != k)).1, Flags.dz))
    else finishFin f {} (n != k) m m' (e - e')

end Sys2Proof
end

