-- ==== Sys2Proof/Machine/Transc.lean ====
section
/-! DEFINITION. 2^A and log2 A, correctly rounded (R117): computed to 256 bits below the binary point with a sticky half
step, which every rounding of R23 on the FP formats then sees as the exact value (log 14). -/

namespace Sys2Proof

open Machine

/-- Fraction bits of the working precision. -/
def trW : Nat := 416

/-- Fraction bits kept. -/
def trP : Nat := 256

/-- z·(z2)^k / (2k+1) summed for k below n, in units of 2^-trW: `term` is the power so far. -/
def atanhGo (z2 : Nat) : Nat → Nat → Nat → Nat → Nat
  | 0, _, _, acc => acc
  | n + 1, k, term, acc => atanhGo z2 n (k + 1) (term * z2 / 2 ^ trW) (acc + term / (2 * k + 1))

/-- ln of num/den, from 1 to 2, in units of 2^-trW: 2·atanh((y-1)/(y+1)). -/
def lnFix (num den : Nat) : Nat :=
  let z := (num - den) * 2 ^ trW / (num + den)
  2 * atanhGo (z * z / 2 ^ trW) 140 0 z 0

/-- ln 2 in units of 2^-trW. -/
def ln2Fix : Nat := lnFix 2 1

/-- Sum of t^k / k! for k below n, in units of 2^-trW. -/
def expGo (t : Nat) : Nat → Nat → Nat → Nat → Nat
  | 0, _, _, acc => acc
  | n + 1, k, term, acc => expGo t n (k + 1) (term * t / 2 ^ trW / (k + 1)) (acc + term)

/-- 2^(n/d) for 0 ≤ n/d < 1, in units of 2^-trW. -/
def exp2Fix (n d : Nat) : Nat := expGo (n * ln2Fix / d) 90 0 (2 ^ trW) 0

/-- `vexp2` (R117). -/
def fpExp2 (f : Fmt) (r : Rnd) (a : FVal) : Nat × Flags :=
  match a with
  | .nan s => finishNan f s
  | .inf n => if n then finishFin f r false 0 1 0 else finishInf f r false
  | .fin n m e =>
    if m = 0 then finishFin f r false 1 1 0
    else if 12 ≤ Nat.log2 m + e then finishFin f r false 3 2 (if n then -4096 else 4096)
    else
      -- |A| = num / den, below 4096
      let num := if 0 ≤ e then m * 2 ^ e.toNat else m
      let den := if 0 ≤ e then 1 else 2 ^ (-e).toNat
      let q := num / den
      let rem := num % den
      if rem = 0 then finishFin f r false 1 1 (if n then -(q : Int) else q)
      else
        let (ip, fr) : Int × Nat := if n then (-(q : Int) - 1, den - rem) else (q, rem)
        let y := exp2Fix fr den / 2 ^ (trW - trP)
        finishFin f r false (2 * y + 1) 2 (ip - trP)

/-- `vlog2` (R117). -/
def fpLog2 (f : Fmt) (r : Rnd) (a : FVal) : Nat × Flags :=
  match a with
  | .nan s => finishNan f s
  | .inf n => if n then (f.dnan, Flags.iv) else finishInf f r false
  | .fin n m e =>
    if m = 0 then ((finishInf f r true).1, Flags.dz)
    else if n then (f.dnan, Flags.iv)
    else
      let k := Nat.log2 m
      let ip : Int := k + e
      if m = 2 ^ k then finishFin f r (decide (ip < 0)) ip.natAbs 1 0
      else
        let y := lnFix m (2 ^ k) * 2 ^ trP / ln2Fix
        -- the exact value lies strictly between ip + y·2^-trP and one step more
        let v : Int := 2 * (ip * 2 ^ trP + y) + 1
        finishFin f r (decide (v < 0)) v.natAbs 2 (-(trP : Int))

end Sys2Proof
end

