-- ==== Sys2Proof/Machine/Operands.lean ====
section
/-! DEFINITION. Operand forms: lanes and chunks (R105, R107, R108), port tokens and their conversion (R31, R109), buffer
records and near-space elements (R94, R128, R129, R232 to R236), and how a word of each column issues. -/

namespace Sys2Proof

/-- Sources of an operand that SB or SC may turn into a scalar (R108). -/
def VOpd.srcs (o : VOpd) (ty : Fmt) : List (VSrc × Fmt) :=
  match o with
  | .src x => [(x, ty)]
  | .s _ => []

/-- The scalar register of such an operand. -/
def VOpd.sreg : VOpd → Option (Fin 32)
  | .src _ => none
  | .s r => some r

/-- Default budgets of R45. -/
def Ns.budget (n : Ns) : Nat :=
  if n.lb != 0 then n.lb.val else if n.sp = 0 then 6 else if n.sp = 1 then 25 else if n.sp = 2 then 80 else 256

/-- The index of element `i` before the array's own index is added (R128). -/
def Ns.index (n : Ns) (x : W64) : Int := x.toInt + Machine.signed 24 n.ofs.toNat

def Ns.size (n : Ns) : Nat := n.ty.lane / 8

namespace Machine

open Sys2Proof

/-! ### Lanes -/

/-- A lane: its bits and whether it arrived active (R51). -/
abbrev Lane := Nat × Bool

/-- `n` lanes of width `w` of a bit pattern, the lowest first (R105). -/
def lanesOf (w : Nat) : Nat → Nat → List Nat
  | 0, _ => []
  | n + 1, x => x % 2 ^ w :: lanesOf w n (x / 2 ^ w)

/-- The bit pattern of a list of lanes of width `w`. -/
def packLanes (w : Nat) : List Nat → Nat
  | [] => 0
  | x :: xs => x % 2 ^ w + 2 ^ w * packLanes w xs

/-- Chunk `j` of a vector register (R105). -/
def vchunk (v : VWord) (j : Nat) : Nat := v.toNat / 2 ^ (256 * j) % 2 ^ 256

/-- Element `i` at lane width `w` of a vector register (R105). -/
def velem (v : VWord) (w i : Nat) : Nat := v.toNat / 2 ^ (w * i) % 2 ^ w

/-- A register write of lanes of width `w` from element `base` upward; inactive lanes keep their value (R50). -/
def vwrite (r : Fin 32) (w base : Nat) (ls : List Lane) : Write :=
  .v r (BitVec.ofNat 2048 (packLanes w (ls.map (·.1)) * 2 ^ (w * base)))
    (BitVec.ofNat 2048 (packLanes w (ls.map (fun l => if l.2 then 2 ^ w - 1 else 0)) * 2 ^ (w * base)))

/-- The token a list of lanes of width `w` becomes: inactive lanes go out as zero with predicate 0 (R50, R51, R109). -/
def lanesTok (w : Nat) (tag : Fin 16) (ls : List Lane) : Tok :=
  { data := BitVec.ofNat 256 (packLanes w (ls.map (fun l => if l.2 then l.1 else 0)))
    pred := BitVec.ofNat 32 (packLanes 1 (ls.map (fun l => if l.2 then 1 else 0)))
    tag := tag }

/-- Lanes of one chunk written to a vector destination (R50, R109). -/
def vdest (d : VDst) (w j : Nat) (ls : List Lane) : Write :=
  match d with
  | .v r => vwrite r w (j * (256 / w)) ls
  | .tx p => .push p (lanesTok w 0 ls)

/-! ### Tokens and their conversion (R30, R31, R109) -/

/-- The format of the elements of a token with this tag on this core (R30). -/
def Core.palFmt (k : Core) (tag : Fin 16) : Fmt := Fmt.ofCode (k.pal[tag]).toNat

/-- The elements of a token as a word that reads format `ty` sees them: width, count, and the format to convert from; `none` where
they are delivered unconverted, a raw token as 32-bit elements, one with a scaled tag as its bits fill the word's lanes (R31). -/
def Tok.form (k : Core) (t : Tok) (ty : Fmt) : Nat × Nat × Option Fmt :=
  if t.raw then (32, 8, none)
  else
    let f := k.palFmt t.tag
    if f.scaled then (ty.lane, 256 / ty.lane, none) else (f.lane, 256 / f.lane, some f)

/-- What a source gives one chunk: its lanes, each with the flags that its conversion at the port would raise, and the flags of the
token as a whole (R31, R109). -/
structure Got where
  lanes : List (Lane × Flags)
  whole : Flags := 0

/-- Is lane `i` active as it arrives (R51)? -/
def Got.on (g : Got) (i : Nat) : Bool := (g.lanes.getD i ((0, false), 0)).1.2

/-- The flags a source raises where `act` says which of its lanes are active in the consuming word: only active lanes raise flags, and
the token's own where it has one (R35, log 89). -/
def Got.flags (g : Got) (act : Nat → Bool) : Flags :=
  g.lanes.zipIdx.foldl (fun f x => if act x.2 then f ||| x.1.2 ||| g.whole else f) 0

/-- A token's lanes as a word that reads `n` lanes of format `ty` sees them: `rnd` gives the rounding of lane `i` (R31, R109, R220). Of
a raw 32-bit element a narrower lane gets the low bits (log 90). -/
def Tok.lanes (k : Core) (t : Tok) (ty : Fmt) (n : Nat) (rnd : Nat → Rnd) : Got :=
  let (w, cnt, src) := t.form k ty
  let one := fun (i : Nat) =>
    if cnt ≤ i || t.inval || !(t.pred.getLsbD i) then (((0, false), 0) : Lane × Flags)
    else
      let x := t.data.toNat / 2 ^ (w * i) % 2 ^ w
      match src with
      | none => ((x % 2 ^ ty.lane, true), 0)
      | some f =>
        if f = ty then ((x % 2 ^ ty.bits, true), 0)
        else
          let r := convert ty f (rnd i) x
          ((r.1, true), r.2)
  { lanes := (List.range n).map one, whole := Flags.when ((!t.raw && src.isNone) || n < cnt) Flags.iv }

/-- Element 0 alone, for the scalar forms (R162): converted with RNE and SAT 0, the count rule of R109 not applying. Inactive, it raises
no flag (R35, log 89). -/
def Tok.elem0 (k : Core) (t : Tok) (ty : Fmt) : Lane × Flags :=
  let (w, _, src) := t.form k ty
  if t.inval || !(t.pred.getLsbD 0) then ((0, false), 0)
  else
    let x := t.data.toNat % 2 ^ w
    match src with
    | none => ((x % 2 ^ ty.lane, true), Flags.when (!t.raw) Flags.iv)
    | some f =>
      if f = ty then ((x % 2 ^ ty.bits, true), 0)
      else
        let r := convert ty f {} x
        ((r.1, true), r.2)

/-- An element extended to a scalar register (R162, R165). -/
def extend (ty : Fmt) (x : Nat) : W64 :=
  match ty with
  | .int32 | .int16 | .int8 => BitVec.ofInt 64 (signed ty.bits x)
  | _ => BitVec.ofNat 64 x

/-! ### The word in progress -/

/-- The pen of the core whose word is running. -/
def State.curPen (s : State) : Pen := s.pen (s.penOf s.cur.core)

/-- The core whose word is running. -/
def State.curCore (s : State) : Core := s.core s.cur.core

/-- A result of the word in progress, ready `lat` pen beats on. -/
def State.flight (s : State) (ord sub lat : Nat) (ws : List Write) (f : Flags) (ld : Option Load) : Flight :=
  { col := s.cur.col, slot := s.cur.slot, it := s.curPen.it, ord := ord, sub := sub, remain := lat, writes := ws,
    flags := f, load := ld }

/-- Change the core whose word is running. -/
def State.modCur (s : State) (f : Core → Core) : State := s.modCore s.cur.core f

/-- Every word takes its place in program order (R80). -/
def Core.tickOrd (k : Core) : Core := { k with ord := k.ord + 1 }

/-- A word with one result: active, it writes `ws` and raises `f` `lat` beats on; inactive, it does nothing (R85). -/
def State.result (s : State) (h : Hdr) (lat : Nat) (ws : List Write) (f : Flags) : State :=
  let k := s.curCore
  if k.active h then s.modCur (fun k => (k.issue (s.flight k.ord 0 lat ws f none)).tickOrd)
  else s.modCur Core.tickOrd

/-- A stop that the word in progress causes at its own issue (R369). -/
def State.stopHere (s : State) (cause : Cause) (code value : W64) : State :=
  s.stopAt s.cur.core cause s.cur.col s.cur.slot s.cur.it code value false

/-- The word in progress found an operand absent (R54). -/
def State.trapHere (s : State) : State := s.timingTrap (s.penOf s.cur.core) s.cur.core s.cur.col s.cur.slot s.cur.it

/-! ### Buffer records and near space (R128, R232 to R236) -/

/-- Word `i` of a descriptor (R236). -/
def descW (d : Chunk) (i : Nat) : Nat := natBits d.toNat (64 * i + 63) (64 * i)

def descExt0 (d : Chunk) : Nat := natBits (descW d 1) 63 40
def descExt1 (d : Chunk) : Nat := max 1 (natBits (descW d 1) 39 16)
def descExt2 (d : Chunk) : Nat := max 1 (natBits (descW d 1) 15 0)
def descStride1 (d : Chunk) : Nat := natBits (descW d 2) 63 32
def descStride2 (d : Chunk) : Nat := natBits (descW d 2) 31 0
def descFmt (d : Chunk) : Fmt := Fmt.ofCode (natBits (descW d 3) 63 59)
def descBcm (d : Chunk) : Nat := natBits (descW d 3) 58 57
def descLay (d : Chunk) : Nat := natBits (descW d 3) 56 54
def descSpc (d : Chunk) : Nat := natBits (descW d 3) 53 52
def descScale (d : Chunk) : Nat := natBits (descW d 3) 51 0

/-- The absolute near-space address that w0 of a record names for a pen; `none` when malformed (R233, R234). -/
def resolveNear (p : Pen) (w0 : Nat) : Option Nat :=
  if natBits w0 63 33 != 0 || natBits w0 21 20 != 0 then none
  else if bitAt w0 32 then
    if natBits w0 31 30 != 0 || p.h * p.w ≤ natBits w0 29 22 then none
    else some (nearAddr (p.coreAt (natBits w0 29 22)) (natBits w0 19 0))
  else if coresPerDie ≤ natBits w0 29 22 then none
  else some (w0 % 2 ^ 32)

/-- An address moved by a byte distance in OFS, modulo 2^20 (R128, R237). -/
def nearMove (addr : Nat) (d : Int) : Nat := addr / 2 ^ 20 * 2 ^ 20 + (((addr % 2 ^ 20 : Nat) : Int) + d).toNat % 2 ^ 20

/-- Where an element of a near-space word lies: an address, nowhere (reads 0, write dropped), or a machine check (R128). -/
inductive Place
  | at_ (addr : Nat)
  | nowhere
  | check
deriving DecidableEq, Repr, Inhabited

/-- Element `n` of `size` bytes of a record (R128). -/
def placeElem (p : Pen) (d : Chunk) (size : Nat) (n : Int) : Place :=
  let l : Int := descExt0 d
  if descSpc d != 1 then .check
  else match resolveNear p (descW d 0) with
    | none => .check
    | some a =>
      let here := fun (n : Int) => Place.at_ (a / 2 ^ 20 * 2 ^ 20 + (((a % 2 ^ 20 : Nat) : Int) + n * size).toNat % 2 ^ 20)
      if 0 ≤ n && n < l then here n
      else if descBcm d = 0 then .check
      else if descBcm d = 2 || l = 0 then .nowhere
      else if descBcm d = 1 then here (max 0 (min n (l - 1)))
      else here (n % l)

/-- Is any byte poisoned (R128, R352)? -/
def State.poisoned (s : State) (ks : List Nat) : Bool := ks.any (fun k => s.poison.contains k)

/-- The keys of `n` bytes of near space from an address; offsets wrap in the scratchpad (R128). -/
def nearKeys (addr n : Nat) : List Nat := (List.range n).map (fun i => nearKey (addr / 2 ^ 20 * 2 ^ 20 + (addr + i) % 2 ^ 20))

/-- Read near-space bytes for core `c` (R287): a ladle write made for another core may not be performed yet. -/
def State.nearRead (s : State) (c addr n : Nat) : List Byte := (nearKeys addr n).map (viewByte s.mem { core := c } s.late)

/-- The offsets below `n` at which `n` bytes of core `c`'s scratchpad from an offset are poisoned (R352). -/
def State.padBad (s : State) (c ofs n : Nat) : List Nat :=
  s.poison.filterMap (fun k =>
    let o := (k - 2 ^ 52) % 2 ^ 20
    let i := (o + 2 ^ 20 - ofs % 2 ^ 20) % 2 ^ 20
    if k = nearKey (nearAddr c o) && i < n then some i else none)

/-- Bytes written at a virtual address are poison, by their offsets (R353): a byte, or under compression its chunk. -/
def State.markPoison (s : State) (ctx va : Nat) (ofs : List Nat) : State :=
  let key := fun (i : Nat) => match s.xlate ctx (va + i) .rd with
    | .ok (pa, attr) => some (if bitAt attr 4 then s.hdrAt (pa / 4096) else pa)
    | .error _ => none
  { s with poison := ofs.filterMap key ++ s.poison }

/-- Near-space bytes as an engine takes them that passes them on without a completion: a poisoned byte is a free value, never its data,
and where it goes is marked as poison again (R353, log 102). -/
def State.cleanRead (s : State) (c addr n : Nat) : List Byte :=
  (nearKeys addr n).map (fun k => if s.poison.contains k then Config.freeByte (s.fresh + k) else viewByte s.mem { core := c } s.late k)

/-- Write near-space bytes; fresh data replaces poison (R353), and a write before it in coherence order is performed. -/
def State.nearWrite (s : State) (addr : Nat) (bs : List Byte) : State :=
  let ks := nearKeys addr bs.length
  { s with mem := s.mem.writeAt ks bs, poison := s.poison.filter (fun k => !ks.contains k),
           late := s.late.filterMap (fun w => w.without ks) }

/-- Rows and columns between two cores of a die (R1). -/
def meshHops (i j : Nat) : Nat :=
  (i / 16 - j / 16) + (j / 16 - i / 16) + (i % 16 - j % 16) + (j % 16 - i % 16)

/-- Nominal latency of an access of core `c` to core `t`: the beats below which no response comes (R45). -/
def nominal (c t : Nat) : Nat :=
  let i := coreIdx c
  let j := coreIdx t
  if t = c then 6
  else if coreDie c != coreDie t then 160
  else if i / 32 = j / 32 && i % 16 / 2 = j % 16 / 2 then 9
  else 12 + 2 * meshHops i j

/-- Beats before which the elements of a load have not all come back (R45). -/
def loadNominal (c : Nat) (pls : List (Nat × Place)) : Nat :=
  pls.foldl (fun n x => match x.2 with
    | .at_ a => Nat.max n (nominal c (nearCore a))
    | _ => n) 6

/-- One element of a load: own-core elements are read on the issue beat (R235), the others leave as messages (R128). -/
def State.loadElem (s : State) (c size ord sub : Nat) (i : Nat) (pl : Place) : State × LoadElem :=
  match pl with
  | .at_ a =>
    if nearCore a = c then
      (s, { i := i, got := some (s.nearRead c a size), bad := s.poisoned (nearKeys a size) })
    else
      let s := s.count c 7 1
      ({ s with mesh := s.mesh ++ [({ src := c, dst := nearCore a, addr := a, len := size, ord := ord, sub := sub, i := i } : Msg)] },
        { i := i })
  | _ => (s, { i := i, got := some (List.replicate size 0) })

/-- The elements of a load in ascending order (R129): the state after them and the list. -/
def State.loadElems (s : State) (c size ord sub : Nat) : List (Nat × Place) → State × List LoadElem
  | [] => (s, [])
  | (i, pl) :: r =>
    let (s, e) := s.loadElem c size ord sub i pl
    let (s, es) := s.loadElems c size ord sub r
    (s, e :: es)

/-- Issue a load of the word in progress, ready `lat` beats on, with budget `budget` (R45, R128). -/
def State.issueLoad (s : State) (kind : LoadKind) (ord sub size budget lat : Nat) (pls : List (Nat × Place)) : State :=
  let (s, es) := s.loadElems s.cur.core size ord sub pls
  let ld : Load := { kind := kind, budget := budget, elems := es, resp := loadNominal s.cur.core pls }
  s.modCur (fun k => k.issue (s.flight ord sub lat [] 0 (some ld)))

/-- A store chunk by the record `d`: performed on its issue beat when every element is on the own core, one commit-queue entry otherwise
(R129). -/
def State.issueStore (s : State) (ord sub : Nat) (d : Chunk) (els : List (Place × List Byte)) : State :=
  let els := els.filterMap (fun e => match e.1 with
    | .at_ a => some (a, e.2)
    | _ => none)
  if els.all (fun e => nearCore e.1 = s.cur.core) then els.foldl (fun s e => s.nearWrite e.1 e.2) s
  else s.modCur (fun k => k.enqueue { ord := ord, sub := sub, eff := .store els (bitAt (descW d 0) 32) })

/-! ### V words -/

/-- How a V word runs, chunk by chunk (R40, R107). -/
structure VPlan where
  h : Hdr
  /-- latency of chunk 0 (R44) -/
  lat : Nat
  /-- the whole result comes `lat` + fold beats after issue (R107) -/
  gather : Bool := false
  /-- the word issues once, whatever its fold -/
  single : Bool := false
  /-- per-chunk sources and the format they are read in (R107, R31) -/
  srcs : List (VSrc × Fmt) := []
  /-- width of a result lane that takes several lanes of a narrower source, 0 where lane i takes lane i (R122) -/
  wide : Nat := 0
  rm : Rm := .rne
  sat : Bool := false
  /-- whole sources and scalar operands, read on the issue beat (R107, R108) -/
  w1 : Option (Fin 32) := none
  w2 : Option (Fin 32) := none
  x1 : Option (Fin 32) := none
  x2 : Option (Fin 32) := none
  /-- a predicate register that is an operand, read on the issue beat (log 38) -/
  q1 : Option (Fin 16) := none
  /-- chunk `j` on the core as it stands on the chunk's issue beat: writes, flags, and the stream with what it collects -/
  body : Nat → Core → Stream → List (List Lane) → List Write × Flags × Stream

/-- Rounding of logical element `e` of a word (R24, R27). -/
def VPlan.rnd (p : VPlan) (phase : BitVec 16) (e : Nat) : Rnd :=
  { rm := p.rm, sat := p.sat, thr := if p.rm = .dither then ditherElem phase.toNat e else 0 }

/-- Is element `e` active under the word's own predicate (R50)? -/
def Stream.act (st : Stream) (e : Nat) : Bool := st.mask.getLsbD e

/-- Read the per-chunk sources of chunk `j`; a port several fields name is popped once (R79). `none` where a port is empty
(R49). -/
def readSrcs (p : VPlan) (st : Stream) (j : Nat) :
    List (VSrc × Fmt) → List (Fin 8) → Core → Option (Core × List Got)
  | [], _, k => some (k, [])
  | (.v r, ty) :: rest, popped, k =>
    let w := ty.lane
    let ls := (lanesOf w (256 / w) (vchunk k.v[r] j)).map (fun x => (((x, true), 0) : Lane × Flags))
    (readSrcs p st j rest popped k).map (fun x => (x.1, { lanes := ls } :: x.2))
  | (.rx q, ty) :: rest, popped, k =>
    let n := 256 / ty.lane
    let again := popped.contains q
    let tok := if again then k.rx[q].q[k.rx[q].taken - 1]? else k.rx[q].avail.head?
    match tok with
    | none => none
    | some t =>
      let g := t.lanes k ty n (fun i => p.rnd st.phase (j * n + i))
      let k := if again then k else { k with rx := k.rx.set q k.rx[q].pop }
      (readSrcs p st j rest (q :: popped) k).map (fun x => (x.1, g :: x.2))

/-- Lanes of a source that one lane of the result takes. -/
def VPlan.per (p : VPlan) (ty : Fmt) : Nat := if p.wide = 0 then 1 else p.wide / ty.lane

/-- Is lane `m` of chunk `j`'s result active: under the word's own predicate and by every source lane it takes (R50, R51)? -/
def VPlan.laneOn (p : VPlan) (st : Stream) (j : Nat) (gs : List Got) (m : Nat) : Bool :=
  let xs := p.srcs.zip gs
  let cells := match p.srcs with
    | [] => 0
    | x :: _ => 256 / x.2.lane / p.per x.2
  st.act (j * cells + m) && xs.all (fun x => (List.range (p.per x.1.2)).all (fun i => x.2.on (p.per x.1.2 * m + i)))

/-- The flags that the conversions of chunk `j`'s tokens raise: those of the lanes active in this word (R31, R35, R111). -/
def VPlan.portFlags (p : VPlan) (st : Stream) (j : Nat) (gs : List Got) : Flags :=
  (p.srcs.zip gs).foldl (fun f x => f ||| x.2.flags (fun i => p.laneOn st j gs (i / p.per x.1.2))) 0

/-- The lanes of a chunk of `n` elements, computed element by element where the word and every source lane are active
(R50, R51). -/
def elemLanes (st : Stream) (n j : Nat) (lss : List (List Lane)) (f : Nat → List Nat → Nat × Flags) : List Lane × Flags :=
  let r := (List.range n).map (fun i =>
    let e := j * n + i
    if st.act e && lss.all (fun ls => (ls.getD i (0, false)).2) then
      let x := f e (lss.map (fun ls => (ls.getD i (0, false)).1))
      (((x.1, true) : Lane), x.2)
    else ((0, false), 0))
  (r.map (·.1), r.foldl (fun a x => a ||| x.2) 0)

/-- Run chunk `j` of a V word (R40, R49, R107): pop, compute, put the result in flight; an empty port is a timing trap. -/
def State.vChunk (s : State) (p : VPlan) (st : Stream) : State :=
  let c := s.cur.core
  let j := st.next
  match readSrcs p st j p.srcs [] (s.core c) with
  | none => s.trapHere
  | some (k, gs) =>
    let pf := p.portFlags st j gs
    let (ws, fl, st) := p.body j k st (gs.map (fun g => g.lanes.map (·.1)))
    let last := st.next + 1 = st.total
    let lat := if p.gather then p.lat + 1 else p.lat
    let fly : Flight :=
      { col := .v, slot := st.slot, it := st.it, ord := st.ord, sub := j, remain := lat, writes := ws, flags := fl,
        old := st.old }
    let k := if p.gather && !last then k else k.issue fly
    let k := if last then k else { k with streams := k.streams ++ [{ st with next := j + 1 }] }
    let popped := k.rx.toList.foldl (fun n r => n + r.taken) 0 - (s.core c).rx.toList.foldl (fun n r => n + r.taken) 0
    (((s.setCore c k).count c 3 1).count c 9 popped).raise c pf .v st.slot st.it

/-- Issue a V word: operands read whole are kept, the dither phase advances (R27), and chunk 0 runs. -/
def State.vIssue (s : State) (i : Instr) (p : VPlan) : State :=
  let k := s.curCore
  let st : Stream :=
    { col := .v, instr := i, slot := s.cur.slot, it := s.curPen.it, ord := k.ord, next := 0
      total := if p.single then 1 else p.h.beats
      mask := k.pred p.h
      w1 := (p.w1.map k.rdV).getD 0
      w2 := (p.w2.map k.rdV).getD 0
      x1 := (p.x1.map k.rdS).getD 0
      x2 := (p.x2.map k.rdS).getD 0
      x3 := (p.q1.map k.rdQ).getD 0
      phase := k.dith }
  let s := s.modCur (fun k => Core.tickOrd { k with dith := if p.rm = Rm.dither then ditherAdvance k.dith else k.dith })
  s.vChunk p st

end Machine

end Sys2Proof
end

