-- ==== Sys2Proof/Machine/Order.lean ====
section
/-! DEFINITION. Scopes, releases and acquires (R168, R285 to R292, R364): which writes an agent may still read around. -/

namespace Sys2Proof.Machine

open Sys2Proof

/-- Bytes of the word an atomic acts on (R177). -/
def atomBytes (sub : Nat) : Nat := if sub % 8 = 1 || sub % 8 = 4 then 8 else 4

/-- The quad of a core (R1): its 2x2 block. -/
def coreQuad (c : Nat) : Nat × Nat × Nat := (coreDie c, coreIdx c / 16 / 2, coreIdx c % 16 / 2)

/-- Does the instance of a scope around agent `a` contain agent `b` (R285, R364)? The host is core 1024, a member of the pod a core
above that. -/
def scopeHas (sc : Nat) (a b : Agent) : Bool :=
  let own := fun (x : Agent) => decide (x.core < 1024)
  if sc = 6 then a.core ≤ 1024 && b.core ≤ 1024
  else if sc = 5 then a.core != 1024 && b.core != 1024 && a.tag = b.tag && a.tag != 0
  else if !own a || !own b then a.core = b.core
  else if sc ≤ 1 then a.core = b.core
  else if sc = 2 then coreQuad a.core = coreQuad b.core
  else if sc = 3 then coreDie a.core = coreDie b.core
  else true

/-- The scope a code names for a context: without a pod tag pod scope is package scope (R364). -/
def State.scope (s : State) (ctx sc : Nat) : Nat := if sc = 5 && s.podTag ctx = 0 then 4 else sc

/-- The scope of a command. -/
def State.scopeOf (s : State) (m : Cmd) : Nat := s.scope m.ctx m.o.sc.code

/-- Does ORD ask for an acquire, a release (R168)? -/
def Cmd.acquires (m : Cmd) : Bool := m.o.ord = Ord3.acq || m.o.ord = Ord3.both
def Cmd.releases (m : Cmd) : Bool := m.o.ord = Ord3.rel || m.o.ord = Ord3.both

/-- Is a near-space access on its way to an owner that the scope around its core covers (R298)? The die's memory port lies in the
scopes from die upward. -/
def Msg.inScope (m : Msg) (sc : Nat) : Bool :=
  if 4 * coresPerDie ≤ m.dst then 3 ≤ sc else 4 ≤ sc || scopeHas sc { core := m.src } { core := m.dst }

/-- Is every access of a core before a point of program order performed at a scope (R168, R287, R290)? Own accesses are performed as
they issue; the others have left the mesh, but for those to owners the scope does not cover. -/
def State.coreQuiet (s : State) (c ord sc : Nat) : Bool :=
  s.mesh.all (fun m => m.src != c || ord ≤ m.ord || !m.inScope sc)

/-- Members of the pod besides this package (R363). -/
def State.podOthers (s : State) : List Nat :=
  (List.range (bitsOf s.svc.podcfg 41 32 + 1)).filter (fun i => i != bitsOf s.svc.podcfg 25 16)

/-- The agent that performs a ladle command: the engine assigned to its core (R241, R285). -/
def State.ladAgent (s : State) (m : Cmd) : Agent :=
  { s.agent m with eng := some (16 * coreDie m.core + (s.core m.core).eng) }

/-! ### Releases -/

/-- Who releases by a command: its core, with its pod tag. -/
def State.releaser (s : State) (m : Cmd) : Agent := { core := m.core, tag := s.podTag m.ctx }

/-- Does a release by a command carry a write (R290, R292)? Its own; one of its core by no command, or by an earlier one whose token
had been popped when it issued; of a command its chain built, those of the earlier ones (R272); and one of others that its core has
acquired. -/
def State.carries (_s : State) (m : Cmd) (e : ViewWrite) : Bool :=
  let mine := e.agent.core = m.core && e.agent.chain.isNone && m.chain.isNone
  e.agent.cmd = some m.id
    || (match m.chain with
      | some _ => e.agent.chain = m.chain && (match e.agent.cmd with | some i => decide (i < m.id) | none => true)
      | none => mine && (match e.agent.cmd with
        | some i => decide (i < m.id) && !m.opens.contains i
        | none => true))
    || (!(mine && e.agent.cmd.isSome) && e.seen.contains m.core)

/-- A release placed on a command at a scope (R289 to R292): the writes it carries are released there, those of its core to near
space that the scope covers are performed; at package scope or wider its die's clock advances (R291), and covers what an earlier release
of another die covered. -/
def State.releaseAt (s : State) (m : Cmd) (sc : Nat) : State :=
  let d := coreDie m.core
  let wide := decide (4 ≤ sc)
  let had := fun (i : Nat) => s.dies.toList.foldl (fun n x => x.remote.foldl (fun n e =>
    if s.carries m e && e.by_ = i then max n e.seq else n) n) 0
  let s := if wide then s.modDie d (fun x => { x with vc := Vector.ofFn (fun i : Fin 4 => if i.val = d then x.vc[i] + 1 else max x.vc[i] (had i.val)) })
    else s
  let seq := (s.die d).vc.toList.getD d 0
  let by_ := (sc, s.releaser m)
  let mark := fun (e : ViewWrite) =>
    if s.carries m e then
      let e := { e with rel := if e.rel.contains by_ then e.rel else by_ :: e.rel }
      if wide && e.seq = 0 then { e with seq := seq, by_ := d } else e
    else e
  let near := fun (e : ViewWrite) => 2 ≤ sc && s.carries m e
    && e.olds.any (fun o => scopeHas sc (s.agent m) { core := nearCore (o.1 - 2 ^ 52), tag := s.podTag m.ctx })
  { s with dies := s.dies.map (fun x => { x with remote := x.remote.map mark }), late := s.late.filter (fun e => !near e) }

/-- Does a clock cover a write's release (R291)? -/
def ViewWrite.under (w : ViewWrite) (clock : List Nat) : Bool := w.seq != 0 && w.seq ≤ clock.getD w.by_ 0

/-- Must `w` be applied before `e` (R291)? -/
def ViewWrite.before (w e : ViewWrite) : Bool := w.under e.stamp

/-- Has every die applied the writes whose releases a clock covers: the end of a release at package scope (R291, R297)? -/
def State.applied (s : State) (clock : List Nat) : Bool := s.dies.toList.all (fun d => d.remote.all (fun w => !w.under clock))

/-- The clock of a core's die. -/
def State.clockOf (s : State) (c : Nat) : List Nat := (s.die (coreDie c)).vc.toList

/-! ### Releases at pod scope (R364) -/

/-- Does a command's release need the pod's answers? -/
def State.podRelease (s : State) (m : Cmd) : Bool := m.releases && s.scopeOf m = 5

/-- Has every member answered the flush of a release: that of a command's earlier accesses, or with `own` that of its own writes? -/
def State.flushed (s : State) (m : Cmd) (own : Bool) : Bool :=
  !s.podRelease m || (match Tab.find s.svc.flush (2 * m.id + (if own then 1 else 0)) with
    | some f => f.sent && f.left = []
    | none => false)

/-- A step of a release at pod scope: once the earlier accesses are performed it is performed at package scope, and once all four dies
have applied that, a flush leaves on every link in use. -/
def State.askFlush (s : State) (m : Cmd) (own : Bool) : State :=
  let k := 2 * m.id + (if own then 1 else 0)
  let put := fun (s : State) (f : Flush) => ({ s with svc := { s.svc with flush := Tab.put s.svc.flush k f } } : State)
  if !s.podRelease m then s
  else match Tab.find s.svc.flush k with
    | none =>
      if own || s.coreQuiet m.core m.ord 5 then
        let s := if own then s else s.releaseAt m 5
        put s { clock := s.clockOf m.core }
      else s
    | some f =>
      if f.sent || !s.applied f.clock then s
      else put { s with svc := { s.svc with flitOut := s.svc.flitOut ++ s.links.map (fun l => [l, flFlush, s.member, k, s.podTag m.ctx]) } }
        { f with sent := true, left := s.podOthers }

/-- A release has ended: its flushes are forgotten. -/
def State.flushEnd (s : State) (m : Cmd) : State :=
  { s with svc := { s.svc with flush := Tab.del (Tab.del s.svc.flush (2 * m.id)) (2 * m.id + 1) } }

/-- Are the accesses that come before a command's release performed at its scope (R168)? -/
def State.mayRelease (s : State) (m : Cmd) : Bool := !m.releases || (s.coreQuiet m.core m.ord (s.scopeOf m) && s.flushed m false)

/-! ### Acquires and views -/

/-- A die's clock after it has applied a write (R291). -/
def joinClock (vc : Vector Nat 4) (e : ViewWrite) : Vector Nat 4 :=
  Vector.ofFn (fun i : Fin 4 => max vc[i] (max (e.stamp.getD i.val 0) (if e.by_ = i.val then e.seq else 0)))

/-- Writes of a die's list are applied to its view. -/
def Die.apply (x : Die) (gone : ViewWrite → Bool) : Die :=
  { x with vc := (x.remote.filter gone).foldl joinClock x.vc, remote := settle gone x.remote }

/-- An acquire placed on a command at a scope: its die's view holds every write released to its core there, by whoever released it, for a
command its chain built those of the earlier ones too, near space among them (R272), and what those follow (R168, R290, R291). -/
def State.acquireAt (s : State) (m : Cmd) (sc : Nat) : State :=
  let a := s.agent m
  let built := fun (e : ViewWrite) => m.chain.isSome && e.agent.chain = m.chain && e.agent.cmd.any (fun i => decide (i < m.id))
  let got := fun (e : ViewWrite) => (e.rel.any (fun r => scopeHas r.1 r.2 a && scopeHas sc a r.2)) || built e
  let see := fun (e : ViewWrite) => if got e && !e.seen.contains m.core then { e with seen := m.core :: e.seen } else e
  let s : State := { s with dies := s.dies.map (fun x => { x with remote := x.remote.map see }), late := s.late.filter (fun e => !built e) }
  s.modDie (coreDie m.core) (fun x =>
    let gone := x.remote.filter got
    x.apply (fun e => got e || gone.any (fun g => e.before g)))

/-- A write reaches a die's view (R291): of those that follow nothing left, one that nothing orders before the others, whichever; and
a near-space write of a ladle command reaches its owner on the die (R287). -/
def execRemoteWriteApply (d : Nat) (s : State) : Out :=
  let x := s.die d
  let free := x.remote.filter (fun e => x.remote.all (fun w => w = e || !w.before e))
  let mine := fun (e : ViewWrite) => e.olds.any (fun o => coreDie (nearCore (o.1 - 2 ^ 52)) = d)
  let near := fun (s : State) => (match s.late.find? mine with
    | some e => { s with late := s.late.erase e }
    | none => s : State)
  match free[(Config.freeWord s.fresh).toNat % free.length]? with
  | some e => .next (near { s.modDie d (fun x => x.apply (fun w => w = e)) with fresh := s.fresh + 1 })
  | none => .next (near s)

end Sys2Proof.Machine
end

