-- ==== Sys2Proof/Machine/Scalar.lean ====
section
/-! DEFINITION. The S column (04_scalar.md): what each word does at its issue, its result in flight to its ready beat. -/

namespace Sys2Proof.Machine

open Sys2Proof

/-- A word that writes one scalar register (R85). -/
def State.sRes (s : State) (h : Hdr) (lat : Nat) (d : Fin 32) (v : W64) (f : Flags) : Out :=
  .next (s.result h lat [.s d v] f)

/-- A word that writes a whole predicate register. -/
def State.qRes (s : State) (h : Hdr) (d : Fin 16) (v : Chunk) : Out :=
  .next (s.result h 1 [.q d v (BitVec.allOnes 256)] 0)

/-- fix of R87: the low 64 bits, or the clamped value with OF. -/
def fix64 (sat : Bool) (x : Int) : W64 × Flags :=
  if sat && (2 ^ 63 - 1 : Int) < x then (BitVec.ofInt 64 (2 ^ 63 - 1), Flags.of)
  else if sat && x < -(2 ^ 63 : Int) then (BitVec.ofInt 64 (-(2 ^ 63)), Flags.of)
  else (BitVec.ofInt 64 x, 0)

/-- `nop`, any column (R84, R103). -/
def execNop (_c : Col) (h : Hdr) (s : State) : Out := .next (s.result h 1 [] 0)

/-- R86, R87. -/
def execAdd (h : Hdr) (d a b : Fin 32) (sat : Bool) (s : State) : Out :=
  let r := fix64 sat ((s.curCore.rdS a).toInt + (s.curCore.rdS b).toInt)
  s.sRes h 1 d r.1 r.2

/-- R86, R87. -/
def execSub (h : Hdr) (d a b : Fin 32) (sat : Bool) (s : State) : Out :=
  let r := fix64 sat ((s.curCore.rdS a).toInt - (s.curCore.rdS b).toInt)
  s.sRes h 1 d r.1 r.2

/-- R86, R87. -/
def execMul (h : Hdr) (d a b : Fin 32) (sat : Bool) (s : State) : Out :=
  let r := fix64 sat ((s.curCore.rdS a).toInt * (s.curCore.rdS b).toInt)
  s.sRes h 3 d r.1 r.2

/-- Bits 127:64 of the signed product (R86). -/
def execMulh (h : Hdr) (d a b : Fin 32) (s : State) : Out :=
  s.sRes h 3 d (BitVec.ofInt 64 ((s.curCore.rdS a).toInt * (s.curCore.rdS b).toInt / 2 ^ 64)) 0

/-- Bits 127:64 of the unsigned product (R86). -/
def execMulhz (h : Hdr) (d a b : Fin 32) (s : State) : Out :=
  s.sRes h 3 d (BitVec.ofNat 64 ((s.curCore.rdS a).toNat * (s.curCore.rdS b).toNat / 2 ^ 64)) 0

/-- Signed quotient, rounding toward zero (R87). -/
def sdiv64 (a b : W64) : W64 × Flags :=
  if b = 0 then (0, Flags.dz)
  else if a.toInt = -(2 ^ 63) && b.toInt = -1 then (a, Flags.of)
  else (BitVec.ofInt 64 (a.toInt.tdiv b.toInt), 0)

/-- Signed remainder, with the sign of A (R87). -/
def srem64 (a b : W64) : W64 × Flags :=
  if b = 0 then (0, Flags.dz) else (BitVec.ofInt 64 (a.toInt.tmod b.toInt), 0)

/-- R87. -/
def execDiv (h : Hdr) (d a b : Fin 32) (s : State) : Out :=
  let r := sdiv64 (s.curCore.rdS a) (s.curCore.rdS b)
  s.sRes h 18 d r.1 r.2

/-- R87. -/
def execDivz (h : Hdr) (d a b : Fin 32) (s : State) : Out :=
  let x := s.curCore.rdS a
  let y := s.curCore.rdS b
  s.sRes h 18 d (if y = 0 then 0 else BitVec.ofNat 64 (x.toNat / y.toNat)) (Flags.when (y = 0) Flags.dz)

/-- R87. -/
def execRem (h : Hdr) (d a b : Fin 32) (s : State) : Out :=
  let r := srem64 (s.curCore.rdS a) (s.curCore.rdS b)
  s.sRes h 18 d r.1 r.2

/-- R87. -/
def execRemz (h : Hdr) (d a b : Fin 32) (s : State) : Out :=
  let x := s.curCore.rdS a
  let y := s.curCore.rdS b
  s.sRes h 18 d (if y = 0 then 0 else BitVec.ofNat 64 (x.toNat % y.toNat)) (Flags.when (y = 0) Flags.dz)

def execAnd (h : Hdr) (d a b : Fin 32) (s : State) : Out := s.sRes h 1 d (s.curCore.rdS a &&& s.curCore.rdS b) 0

def execOr (h : Hdr) (d a b : Fin 32) (s : State) : Out := s.sRes h 1 d (s.curCore.rdS a ||| s.curCore.rdS b) 0

def execXor (h : Hdr) (d a b : Fin 32) (s : State) : Out := s.sRes h 1 d (s.curCore.rdS a ^^^ s.curCore.rdS b) 0

def execAndn (h : Hdr) (d a b : Fin 32) (s : State) : Out := s.sRes h 1 d (s.curCore.rdS a &&& ~~~(s.curCore.rdS b)) 0

/-- The shift count of a register form: bits 5:0 (R86). -/
def shCount (b : W64) : Nat := b.toNat % 64

def execShl (h : Hdr) (d a b : Fin 32) (s : State) : Out :=
  s.sRes h 1 d (s.curCore.rdS a <<< shCount (s.curCore.rdS b)) 0

def execShr (h : Hdr) (d a b : Fin 32) (s : State) : Out :=
  s.sRes h 1 d (s.curCore.rdS a >>> shCount (s.curCore.rdS b)) 0

def execSra (h : Hdr) (d a b : Fin 32) (s : State) : Out :=
  s.sRes h 1 d ((s.curCore.rdS a).sshiftRight (shCount (s.curCore.rdS b))) 0

def execRotl (h : Hdr) (d a b : Fin 32) (s : State) : Out :=
  s.sRes h 1 d ((s.curCore.rdS a).rotateLeft (shCount (s.curCore.rdS b))) 0

def execMin (h : Hdr) (d a b : Fin 32) (s : State) : Out :=
  let x := s.curCore.rdS a
  let y := s.curCore.rdS b
  s.sRes h 1 d (if y.slt x then y else x) 0

def execMax (h : Hdr) (d a b : Fin 32) (s : State) : Out :=
  let x := s.curCore.rdS a
  let y := s.curCore.rdS b
  s.sRes h 1 d (if x.slt y then y else x) 0

def execMinz (h : Hdr) (d a b : Fin 32) (s : State) : Out :=
  let x := s.curCore.rdS a
  let y := s.curCore.rdS b
  s.sRes h 1 d (if y < x then y else x) 0

def execMaxz (h : Hdr) (d a b : Fin 32) (s : State) : Out :=
  let x := s.curCore.rdS a
  let y := s.curCore.rdS b
  s.sRes h 1 d (if x < y then y else x) 0

/-- The lowest bit at or above `i`, of `n` to look at, that is set in `x`; `i + n` when none is. -/
def lowBit (x : Nat) : Nat → Nat → Nat
  | 0, i => i
  | n + 1, i => if bitAt x i then i else lowBit x n (i + 1)

/-- Bits set among the lowest `n`. -/
def popCount (x : Nat) : Nat → Nat
  | 0 => 0
  | n + 1 => popCount x n + (if bitAt x n then 1 else 0)

/-- Leading zero bits, 64 for 0 (R86). -/
def execClz (h : Hdr) (d a : Fin 32) (s : State) : Out :=
  let x := (s.curCore.rdS a).toNat
  s.sRes h 1 d (BitVec.ofNat 64 (if x = 0 then 64 else 63 - Nat.log2 x)) 0

/-- Trailing zero bits, 64 for 0 (R86). -/
def execCtz (h : Hdr) (d a : Fin 32) (s : State) : Out :=
  s.sRes h 1 d (BitVec.ofNat 64 (lowBit (s.curCore.rdS a).toNat 64 0)) 0

def execPopc (h : Hdr) (d a : Fin 32) (s : State) : Out :=
  s.sRes h 1 d (BitVec.ofNat 64 (popCount (s.curCore.rdS a).toNat 64)) 0

/-- Position and effective width of a field (R88). -/
def fieldOf (b : W64) : Nat × Nat := (b.toNat % 64, min (bitsOf b 14 8) (64 - b.toNat % 64))

/-- R88. -/
def execBext (h : Hdr) (d a b : Fin 32) (s : State) : Out :=
  let (p, w) := fieldOf (s.curCore.rdS b)
  s.sRes h 1 d (BitVec.ofNat 64 ((s.curCore.rdS a).toNat / 2 ^ p % 2 ^ w)) 0

/-- R88. -/
def execBins (h : Hdr) (d a b c : Fin 32) (s : State) : Out :=
  let (p, w) := fieldOf (s.curCore.rdS b)
  let m := BitVec.ofNat 64 ((2 ^ w - 1) * 2 ^ p)
  s.sRes h 1 d (merge (s.curCore.rdS c) (s.curCore.rdS a <<< p) m) 0

/-- R86: the condition is bit 0 of q[C] alone. -/
def execSel (h : Hdr) (d a b : Fin 32) (qc : Fin 16) (s : State) : Out :=
  s.sRes h 1 d (if (s.curCore.rdQ qc).getLsbD 0 then s.curCore.rdS a else s.curCore.rdS b) 0

/-- The conditions of R89. -/
def cmp64 (cc : Cc) (a b : W64) : Bool :=
  match cc with
  | .eq => a = b
  | .ne => a != b
  | .lt => a.slt b
  | .le => a.sle b
  | .ltz => a < b
  | .lez => a ≤ b
  | .un | .ord => false

/-- All ones or all zeros (R89). -/
def fill256 (b : Bool) : Chunk := if b then BitVec.allOnes 256 else 0

/-- R89. -/
def execCmp (h : Hdr) (cc : Cc) (qd : Fin 16) (a b : Fin 32) (s : State) : Out :=
  s.qRes h qd (fill256 (cmp64 cc (s.curCore.rdS a) (s.curCore.rdS b)))

/-- R90. -/
def execSext (h : Hdr) (ty : Fmt) (d a : Fin 32) (s : State) : Out :=
  s.sRes h 1 d (BitVec.ofInt 64 (ty.intVal (s.curCore.rdS a).toNat)) 0

/-- R87: the sum is exact, fix is applied once. -/
def execMad (h : Hdr) (d a b c : Fin 32) (sat : Bool) (s : State) : Out :=
  let k := s.curCore
  let r := fix64 sat ((k.rdS a).toInt * (k.rdS b).toInt + (k.rdS c).toInt)
  s.sRes h 3 d r.1 r.2

def execAddsh (h : Hdr) (d a b : Fin 32) (k : Fin 256) (s : State) : Out :=
  s.sRes h 1 d (s.curCore.rdS a + s.curCore.rdS b <<< k.val) 0

/-! ### Immediate forms (R91, R92) -/

def execAddi (h : Hdr) (d a : Fin 32) (imm : BitVec 32) (s : State) : Out :=
  s.sRes h 1 d (s.curCore.rdS a + imm.signExtend 64) 0

def execMuli (h : Hdr) (d a : Fin 32) (imm : BitVec 32) (s : State) : Out :=
  s.sRes h 3 d (s.curCore.rdS a * imm.signExtend 64) 0

def execAndi (h : Hdr) (d a : Fin 32) (imm : BitVec 32) (s : State) : Out :=
  s.sRes h 1 d (s.curCore.rdS a &&& imm.signExtend 64) 0

def execOri (h : Hdr) (d a : Fin 32) (imm : BitVec 32) (s : State) : Out :=
  s.sRes h 1 d (s.curCore.rdS a ||| imm.signExtend 64) 0

def execXori (h : Hdr) (d a : Fin 32) (imm : BitVec 32) (s : State) : Out :=
  s.sRes h 1 d (s.curCore.rdS a ^^^ imm.signExtend 64) 0

def execShli (h : Hdr) (d a : Fin 32) (imm : BitVec 32) (s : State) : Out :=
  s.sRes h 1 d (s.curCore.rdS a <<< (imm.toNat % 64)) 0

def execShri (h : Hdr) (d a : Fin 32) (imm : BitVec 32) (s : State) : Out :=
  s.sRes h 1 d (s.curCore.rdS a >>> (imm.toNat % 64)) 0

def execSrai (h : Hdr) (d a : Fin 32) (imm : BitVec 32) (s : State) : Out :=
  s.sRes h 1 d ((s.curCore.rdS a).sshiftRight (imm.toNat % 64)) 0

def execCmpi (h : Hdr) (cc : Cc) (qd : Fin 16) (a : Fin 32) (imm : BitVec 32) (s : State) : Out :=
  s.qRes h qd (fill256 (cmp64 cc (s.curCore.rdS a) (imm.signExtend 64)))

def execMini (h : Hdr) (d a : Fin 32) (imm : BitVec 32) (s : State) : Out :=
  let x := s.curCore.rdS a
  let y := imm.signExtend 64
  s.sRes h 1 d (if y.slt x then y else x) 0

def execMaxi (h : Hdr) (d a : Fin 32) (imm : BitVec 32) (s : State) : Out :=
  let x := s.curCore.rdS a
  let y := imm.signExtend 64
  s.sRes h 1 d (if x.slt y then y else x) 0

def execLi (h : Hdr) (d : Fin 32) (imm : BitVec 32) (s : State) : Out := s.sRes h 1 d (imm.signExtend 64) 0

/-- The immediate in the high half, the low 32 bits of A kept (R91). -/
def execLih (h : Hdr) (d a : Fin 32) (imm : BitVec 32) (s : State) : Out :=
  s.sRes h 1 d (imm ++ (s.curCore.rdS a).truncate 32) 0

/-- R92. -/
def execLil (h : Hdr) (d : Fin 32) (imm : BitVec 53) (s : State) : Out := s.sRes h 1 d (imm.signExtend 64) 0

/-! ### Predicates (R93) -/

def execQand (h : Hdr) (d a b : Fin 16) (s : State) : Out := s.qRes h d (s.curCore.rdQ a &&& s.curCore.rdQ b)

def execQor (h : Hdr) (d a b : Fin 16) (s : State) : Out := s.qRes h d (s.curCore.rdQ a ||| s.curCore.rdQ b)

def execQxor (h : Hdr) (d a b : Fin 16) (s : State) : Out := s.qRes h d (s.curCore.rdQ a ^^^ s.curCore.rdQ b)

def execQandn (h : Hdr) (d a b : Fin 16) (s : State) : Out := s.qRes h d (s.curCore.rdQ a &&& ~~~(s.curCore.rdQ b))

def execQnot (h : Hdr) (d a : Fin 16) (s : State) : Out := s.qRes h d (~~~(s.curCore.rdQ a))

/-- Ones at positions a to b - 1. -/
def rangeMask (a b : Nat) : Nat := if a < b then 2 ^ (min b 256) - 2 ^ (min a 256) else 0

/-- Bit i is 1 when A ≤ i < B, unsigned. -/
def execQsetRange (h : Hdr) (d : Fin 16) (a b : Fin 32) (s : State) : Out :=
  s.qRes h d (BitVec.ofNat 256 (rangeMask (s.curCore.rdS a).toNat (s.curCore.rdS b).toNat))

/-- One 64-bit word of q[D]; the other bits keep the value they have on the issue beat. -/
def execQsetWord (h : Hdr) (d : Fin 16) (a b : Fin 32) (s : State) : Out :=
  let k := s.curCore
  let w := (k.rdS b).toNat % 4
  let m : Chunk := ((BitVec.allOnes 64).zeroExtend 256) <<< (64 * w)
  s.qRes h d (merge (k.rdQ d) (((k.rdS a).zeroExtend 256) <<< (64 * w)) m)

def execQget (h : Hdr) (d : Fin 32) (a : Fin 16) (w : Fin 4) (s : State) : Out :=
  s.sRes h 1 d ((s.curCore.rdQ a).extractLsb' (64 * w.val) 64) 0

def execQfirst (h : Hdr) (d : Fin 32) (a : Fin 16) (s : State) : Out :=
  s.sRes h 1 d (BitVec.ofNat 64 (lowBit (s.curCore.rdQ a).toNat 256 0)) 0

/-! ### Addresses and records (R94 to R96) -/

/-- R94: no check, no translation. -/
def execLea (h : Hdr) (ty : Fmt) (d : Fin 32) (br : Fin 16) (x : Fin 32) (ofs : BitVec 24) (s : State) : Out :=
  let k := s.curCore
  let w0 := (k.b[br]).extractLsb' 0 64
  s.sRes h 1 d (w0 + (k.rdS x + ofs.signExtend 64) * BitVec.ofNat 64 (ty.bits / 8)) 0

/-- Bytes of an entry of the tensor-descriptor table (R239). -/
def tdBytes : Nat := 32

/-- The memory port of a die as a message destination, past the last core. -/
def memPort (die : Nat) : Nat := 4 * coresPerDie + die

/-- R95: the read leaves for the table in the context's memory; b[D] is written at issue plus the budget. -/
def execBld (h : Hdr) (d : Fin 16) (a : Fin 32) (idx : BitVec 12) (lb : Fin 256) (s : State) : Out :=
  let k := s.curCore
  if k.active h then
    let e := ((k.rdS a).toNat + idx.toNat) % 4096
    let p := s.curPen
    let b := if lb = 0 then 256 else lb.val
    let ld : Load := { kind := .desc d, budget := b, elems := [{ i := 0 }] }
    let m : Msg := { src := s.cur.core, dst := memPort p.die, addr := p.tdt.toNat + tdBytes * e, len := tdBytes, ord := k.ord }
    let s := { s with mesh := s.mesh ++ [m] }
    .next (s.modCur (fun k => (k.issue (s.flight k.ord 0 b [] 0 (some ld))).tickOrd))
  else .next (s.modCur Core.tickOrd)

/-- R96. -/
def execBset (h : Hdr) (d : Fin 16) (w : Fin 4) (a : Fin 32) (s : State) : Out :=
  .next (s.result h 1 [.bw d w (s.curCore.rdS a)] 0)

/-- R96. -/
def execBget (h : Hdr) (d : Fin 32) (a : Fin 16) (w : Fin 4) (s : State) : Out :=
  s.sRes h 1 d ((s.curCore.b[a]).extractLsb' (64 * w.val) 64) 0

/-! ### CSRs (R57 to R61, R98, R99) -/

/-- The value an `mfc` reads (R57, R98): reserved bits read 0. -/
def State.csr (s : State) (c n : Nat) : W64 :=
  let k := s.core c
  let p := s.pen (s.penOf c)
  if n = 0x00 then tickWord p.tick
  else if n = 0x01 then p.it.zeroExtend 64
  else if n = 0x02 then p.iterNext.zeroExtend 64
  else if n = 0x03 then slenWord p
  else if n = 0x04 then iiWord p
  else if n = 0x05 then k.fsr.zeroExtend 64
  else if n = 0x06 then k.fen.zeroExtend 64
  else if n = 0x07 then k.dith.zeroExtend 64
  else if n = 0x08 then p.tstat
  else if n = 0x09 then rgnWord p
  else if n = 0x0A then rgndWord p
  else if n = 0x0B then coreWord (coreDie c) (coreIdx c) (p.rel c) p.w
  else if n = 0x0C then penWord p
  else if n = 0x0D then BitVec.ofNat 64 (p.ctx % 4096)
  else if 0x10 ≤ n && n < 0x20 then (k.pal.toList.getD (n - 0x10) 0).zeroExtend 64
  else if 0x20 ≤ n && n < 0x28 then k.evc.toList.getD (n - 0x20) 0
  else if 0x28 ≤ n && n < 0x30 then k.evs.toList.getD (n - 0x28) 0
  else if n = 0x30 then p.rpc.zeroExtend 64
  else if n = 0x31 then lbsWord p
  else 0

/-- R98. -/
def execMfc (h : Hdr) (d : Fin 32) (csr : Fin 256) (s : State) : Out := s.sRes h 1 d (s.csr s.cur.core csr.val) 0

/-- R98: the write takes effect on its ready beat. -/
def execMtc (h : Hdr) (csr : Fin 256) (a : Fin 32) (s : State) : Out :=
  .next (s.result h 1 [.csr csr.val (s.curCore.rdS a)] 0)

/-! ### Regions, stops and the end of work (R100 to R102) -/

/-- A change that an active word makes to its pen. -/
def State.penEffect (s : State) (h : Hdr) (f : Pen → Pen) : Out :=
  let k := s.curCore
  let s := s.modCur Core.tickOrd
  .next (if k.active h then s.modPen (s.penOf s.cur.core) f else s)

/-- Is a region id armed (R310)? -/
def Pen.armed (p : Pen) (id : BitVec 16) : Bool :=
  bitAt p.bp.toNat 62 && id != 0 &&
    (bitsOf p.bp 47 32 = id.toNat || bitsOf p.bp 31 16 = id.toNat || bitsOf p.bp 15 0 = id.toNat)

/-- A region edge (R100): the first active core of the slot, in pen-relative order, decides. The stack changes when the slot has
ended, for an `mfc` of the slot reads it as it was (R308). An armed id stops the pen as `brk` does, with the id and the edge kind (R310). -/
def State.regionEdge (s : State) (h : Hdr) (edge : Option (BitVec 16)) : Out :=
  let k := s.curCore
  let p := s.curPen
  let s := s.modCur Core.tickOrd
  if k.active h && p.rgnPend.isNone then
    let s := s.modPen (s.penOf s.cur.core) (fun p => { p with rgnPend := some edge })
    let hit := match edge with
      | some id => if p.armed id then some id else none
      | none => if p.rgnOv = 0 then p.rgn.getLast?.filter p.armed else none
    .next (match hit with
      | some id => s.stopHere .brk (id.zeroExtend 64) (if edge.isSome then 0 else 1)
      | none => s)
  else .next s

/-- R100. -/
def execRgnin (h : Hdr) (id : BitVec 32) (s : State) : Out := s.regionEdge h (some (id.truncate 16))

/-- R100. -/
def execRgnout (h : Hdr) (s : State) : Out := s.regionEdge h none

/-- R101: the pen takes the stop before its next slot; the event carries the code, extended by R76, and the register value. -/
def execTrap (h : Hdr) (code : BitVec 32) (a : Fin 32) (s : State) : Out :=
  let k := s.curCore
  let s' := if k.active h then s.stopHere .trap (code.signExtend 64) (k.rdS a) else s
  .next (s'.modCur Core.tickOrd)

/-- R101, R310: only while breakpoints are enabled for the context. -/
def execBrk (h : Hdr) (code : BitVec 32) (s : State) : Out :=
  let k := s.curCore
  let s' := if k.active h && bitAt s.curPen.bp.toNat 63 then s.stopHere .brk (code.signExtend 64) 0 else s
  .next (s'.modCur Core.tickOrd)

/-- R102: the code is recorded when the next restart point passes. -/
def execFin (h : Hdr) (code : BitVec 32) (s : State) : Out :=
  let rel := s.curPen.rel s.cur.core
  s.penEffect h (fun p => { p with finNew := p.finNew ++ [(rel, code)] })

end Sys2Proof.Machine
end

