-- ==== Sys2Proof/Machine/Sample.lean ====
section
/-! DEFINITION. The sample buffer (R311 to R313), markers (R317), and the stall hash (R315). -/

namespace Sys2Proof.Machine

open Sys2Proof

/-! ### Records (R311 to R313) -/

/-- A header word (R313). -/
def State.sampleHdr (s : State) (ty len : Nat) : W64 :=
  BitVec.ofNat 64 (0xA5 * 2 ^ 56 + ty * 2 ^ 48 + len * 2 ^ 40 + s.cycles % 2 ^ 40)

/-- Words of the sample ring of a pen (R311, R327). -/
def Pen.ssizeWords (p : Pen) : Nat := if p.ssize = 0 then 2 ^ 32 else p.ssize.toNat

/-- An access of the sample writer for core `rel` of a pen that has faulted leaves its record (R342, R344). -/
def State.sampleFault (s : State) (p : Pen) (rel : Nat) (acc : Acc) (va : Nat) (x : XFault) : State :=
  ((if x = .poison then s.ueMet p.die else s).recordFault { ctx := p.ctx, acc := acc.code, agent := agSample, die := p.die, pid := p.pid.toNat, rel := rel } va x false).1

/-- Count a dropped record in the control block at `cb`, whose DROPPED holds `d` (R311). -/
def State.sampleDrop (s : State) (p : Pen) (rel cb d : Nat) : State :=
  match s.vwrite p.ctx (cb + 16) (leBytes 8 (if d = 2 ^ 64 - 1 then d else d + 1)) with
  | .ok s => s
  | .error x => s.sampleFault p rel .wr (cb + 16) x

/-- The writes of a record in their order: a marker where the ring wraps, the record, then WPTR (R312); or where one cannot be made. -/
def State.samplePut (s : State) (p : Pen) : List (Nat × List Byte) → Except (Nat × XFault) State
  | [] => .ok s
  | (va, bs) :: rest => match s.vwrite p.ctx va bs with
    | .ok s => s.samplePut p rest
    | .error x => .error (va, x)

/-- Write one record for core `rel` of a pen (R312). The ring's words follow its control block (log 25). WPTR moves once the record
stands; a record that cannot be written whole is dropped, and leaves nothing of itself (R344). -/
def State.sample (s : State) (h : Nat) (ty : Nat) (ws : List W64) (rel : Nat := 0) : State :=
  let p := s.pen h
  let cb := p.sbuf.toNat
  if cb = 0 then s
  else if !s.keyBound p.ctx then s.alarmB p.die p.ctx
  else
    match s.vread p.ctx cb 24 with
    | .error x => s.sampleFault p rel .rd cb x
    | .ok c =>
      let wptr := (wordAt c 0).toNat
      let rptr := (wordAt c 1).toNat
      let size := p.ssizeWords
      let free := size - (wptr + 2 ^ 64 - rptr) % 2 ^ 64
      let n := ws.length + 1
      let at0 := wptr % size
      let skip := if at0 + n ≤ size then 0 else size - at0
      let ring := cb + 64
      let drop := fun (s : State) => s.sampleDrop p rel cb (wordAt c 2).toNat
      if free < skip + n then drop s
      else
        match s.samplePut p ((if skip = 0 then [] else [(ring + 8 * at0, bytesOf [s.sampleHdr 0xFF 1])])
            ++ [(ring + 8 * (if skip = 0 then at0 else 0), bytesOf (s.sampleHdr ty n :: ws)), (cb, leBytes 8 (wptr + skip + n))]) with
        | .ok s => s
        | .error (va, x) => drop (s.sampleFault p rel .wr va x)

/-! ### The stall hash (R315) -/

/-- REASON codes of R315. -/
def Hold.reason : Hold → Nat
  | .portEmpty => 0 | .portFull => 1 | .ring => 2 | .sync => 3 | .oa => 4 | .noDemand => 5 | .freeze => 6 | .restart => 7

/-- Word 2 of a stall entry with WHY 0. -/
def stallKey (p : Pen) (why : Hold) (col : Nat) : W64 :=
  BitVec.ofNat 64 (p.ctx % 4096 * 2 ^ 52 + p.pid.toNat * 2 ^ 36 + p.slot % 32 * 2 ^ 31 + col % 4 * 2 ^ 29 + why.reason * 2 ^ 26)

/-- Spill an entry to the buffer of the pen in its key, the newest with that number. -/
def State.stallSpill (s : State) (e : W64 × Nat × W64) (why : Nat) : State :=
  let r := s.pens.reverse.findIdx (fun p => p.ctx = bitsOf e.1 63 52 && p.pid.toNat = bitsOf e.1 51 36)
  let h := if r < s.pens.length then s.pens.length - 1 - r else s.pens.length
  s.sample h 0x03 [e.2.2, e.1 + BitVec.ofNat 64 why, BitVec.ofNat 64 (e.2.1 % 2 ^ 32)]

/-- Count one held beat of a pen under its key. -/
def State.stallCount (s : State) (h : Nat) (why : Hold) (col : Nat) : State :=
  let p := s.pen h
  let key := stallKey p why col
  let place := crc32c (leBytes 8 key.toNat) % 4096
  let put := fun (s : State) (e : W64 × Nat × W64) => s.modDie p.die (fun d => { d with stall := Tab.put d.stall place e })
  match Tab.find (s.die p.die).stall place with
  | none => put s (key, 1, recRgn p)
  | some e =>
    if e.1 = key then
      if e.2.1 + 1 = 2 ^ 32 - 1 then put (s.stallSpill (key, e.2.1 + 1, recRgn p) 1) (key, 0, recRgn p)
      else put s (key, e.2.1 + 1, recRgn p)
    else put (s.stallSpill e 0) (key, 1, recRgn p)

/-- A context ends: its entries spill and are cleared. -/
def State.stallEnd (s : State) (ctx : Nat) : State :=
  (List.range 4).foldl (fun s d =>
    let mine := (s.die d).stall.filter (fun e => bitsOf e.2.1 63 52 = ctx)
    let s := mine.foldl (fun s e => s.stallSpill e.2 2) s
    s.modDie d (fun x => { x with stall := x.stall.filter (fun e => bitsOf e.2.1 63 52 != ctx) })) s

/-! ### Markers (R190, R317) -/

/-- `trmark`: one record on the issue beat. -/
def execTrmark (h : Hdr) (imm : BitVec 32) (a : Fin 32) (s : State) : Out :=
  let k := s.curCore
  let p := s.curPen
  let c := s.cur.core
  let w := BitVec.ofNat 64 (imm.toNat * 2 ^ 32 + p.pid.toNat * 2 ^ 16 + p.rel c % 256 * 256)
  let s' := if k.active h then s.sample (s.penOf c) 0x01 [recRgn p, w, k.rdS a] (p.rel c) else s
  .next (s'.modCur Core.tickOrd)

end Sys2Proof.Machine
end

