-- ==== Sys2Proof/Machine/Fault.lean ====
section
/-! DEFINITION. Fault records (R342, R343) and what an agent does with a fault (R344). -/

namespace Sys2Proof.Machine

open Sys2Proof

/-- The fields that name a command's core and tick (R305, R342). -/
def State.who (s : State) (m : Cmd) (acc agent die inst : Nat) : Who :=
  match s.pens[m.pen]? with
  | none => { ctx := m.ctx, acc := acc, agent := agent, die := die, inst := inst }
  | some p => { ctx := m.ctx, acc := acc, agent := agent, die := die, inst := inst, pid := p.pid.toNat, rel := p.rel m.core,
                pen := if m.noTick then none else some (m.pen, m.tick) }

/-- May a fault of a context park (R344)? -/
def State.mayPark (s : State) (ctx : Nat) (x : XFault) : Bool := x.parkable && !bitAt (s.ctx ctx).w[2].toNat 61

/-- A reader of a die meets a fault: poison is an uncorrectable error (R354). -/
def State.met (s : State) (die : Nat) (x : XFault) : State := if x = .poison then s.ueMet die else s

/-- A synchronisation word fails: a machine check on its pen that names the word (R167, R173). -/
def State.syncFail (s : State) (m : Cmd) : State :=
  let s := s.modPen m.pen (fun p => { p with syncs := p.syncs.filter (fun c => c.id != m.id) })
  s.modPen m.pen (fun p => p.keepStop s.time .machineCheck (p.rel m.core) .x m.slot m.it)

/-- What a command's fault comes to: the job parked, or the answer that reports it (R344). -/
inductive Faulted
  | park (idx : Nat)
  | answer (d : Done)
  | check
deriving DecidableEq, Repr, Inhabited

/-- A command of the ladle, the bellwether or the drove, or a synchronisation word, faults (R344). -/
def State.cmdFault (s : State) (m : Cmd) (agent die inst va : Nat) (acc : Acc) (x : XFault) : State × Faulted :=
  let park := s.mayPark m.ctx x
  let (s, i) := s.recordFault (s.who m acc.code agent die inst) va x park
  if park then (s, .park i)
  else if m.sync then (s, .check)
  else (s, .answer { cmd := m, eng := agent, die := die, inst := inst, code := x.code, detail := x.e1 acc i, value := BitVec.ofNat 64 va })

/-- Add an answer to those on their way (R172), after a release at package scope or wider with the clock it waits for (R291). One with
POISON means that its engine met an uncorrectable error (R354). -/
def State.answer (s : State) (d : Done) : State :=
  let s := if d.code = 11 && !d.undec then s.ueMet d.die else s
  { s with dones := s.dones ++ [{ d with clock := if d.cmd.releases && 4 ≤ s.scopeOf d.cmd then s.clockOf d.cmd.core else [] }] }

/-- Does a command make accesses of its own after its release? Fences and barrier arrivals do not. -/
def Cmd.writes (m : Cmd) : Bool :=
  match m.word with
  | .fenceSync .. | .fenceAsync .. | .bar .. | .arrive .. => false
  | _ => !m.zero

/-- May an answer be delivered: its release is performed at its scope (R168, R291, R364)? A command that is aborted makes none. -/
def State.performed (s : State) (d : Done) : Bool := d.code = 9 || (s.applied d.clock && (!d.cmd.writes || s.flushed d.cmd true))

/-! ### Requests to pod members (R365) -/

/-- The requests to members that a run from `s` to `t` has sent. -/
def State.peerNew (s t : State) : List (List Nat) :=
  ((t.svc.flitOut.drop s.svc.flitOut.length).filter (fun f => [flWrite, flRead, flAtomic].contains (f.getD 1 0))).eraseDups

/-- Does a command wait for an answer of a member? -/
def State.peersOpen (s : State) (id : Nat) : Bool := s.svc.peers.any (fun x => x.2.cmd = id && x.2.ans.isNone)

/-- A request of a command leaves with a number of its own. -/
def State.askPeer (s : State) (id : Nat) (f : List Nat) : State :=
  ({ s with fresh := s.fresh + 1, svc := { s.svc with peers := Tab.put s.svc.peers s.fresh { cmd := id, flit := f } } } : State).sendFlit (f.set 3 s.fresh)

/-- The requests of a command are forgotten. -/
def State.peersEnd (s : State) (id : Nat) : State :=
  { s with svc := { s.svc with peers := s.svc.peers.filter (fun x => x.2.cmd != id) } }

/-- A run of a command that comes to `t` and has sent requests to members waits for their answers, reads before what follows from them;
with them it is run again, and its requests have left already. One refused by its member ends as `fail` has it of its code, detail and
physical address (R365, log 31). -/
def State.peerGate (s : State) (id : Nat) (t : State) (fail : Nat → Nat → Nat → State) : State :=
  let new := s.peerNew t
  if new = [] then t
  else
    let mine := (s.svc.peers.map (·.2)).filter (fun x => x.cmd = id)
    match mine.find? (fun x => x.ans.any (fun a => a.1 != 0)) with
    | some x => (fail (x.ans.getD (0, 0)).1 (x.ans.getD (0, 0)).2 (2 ^ 50 + x.flit.getD 5 0)).peersEnd id
    | none =>
      let left := new.filter (fun f => !mine.any (fun x => x.flit = f))
      let reads := left.filter (fun f => f.getD 1 0 = flRead)
      if left = [] then
        let out := s.svc.flitOut ++ (t.svc.flitOut.drop s.svc.flitOut.length).filter (fun f => !new.contains f)
        ({ t with svc := { t.svc with flitOut := out } } : State).peersEnd id
      else (if reads = [] then left else reads).foldl (fun s f => s.askPeer id f) s

/-- A member answers a request (R365): what it read or, of an atomic, found comes into this package's view of its memory. -/
def State.peerAnswer (s : State) (id code detail : Nat) (data : List Nat) : State :=
  match Tab.find s.svc.peers id with
  | none => s
  | some x =>
    let s : State := { s with svc := { s.svc with peers := Tab.put s.svc.peers id { x with ans := some (code, detail) } } }
    let n := fun (i : Nat) => x.flit.getD i 0
    let bs := if n 1 = flRead then data.map (BitVec.ofNat 8) else if n 1 = flAtomic then leBytes (atomBytes (n 7)) (data.headD 0) else []
    if code = 0 && bs != [] then s.physWrite none 0 (bs.zipIdx.map (fun y => (2 ^ 50 + n 5 + y.2, y.1))) else s

/-- Commands of an engine that have been performed and still hold their places, since their tokens wait (R166, R172). -/
def State.tokensOf (s : State) (eng die : Nat) : List Done := s.dones.filter (fun d => d.eng = eng && d.die = die)

end Sys2Proof.Machine
end

