-- ==== Sys2Proof/Machine/Checkpoint.lean ====
section
/-! DEFINITION. Images of a core's state (R218): what a checkpoint saves and a restore writes back. -/

namespace Sys2Proof.Machine

open Sys2Proof

/-- A byte string padded with zeros to `n` bytes. -/
def padTo (n : Nat) (bs : List Byte) : List Byte := bs ++ List.replicate (n - bs.length) 0

/-- Saved scratchpad range of a checkpoint word: offset and length in bytes (R217). -/
def ckptOfs (w : W64) : Nat := bitsOf w 31 18 * 64
def ckptLen (w : W64) : Nat := bitsOf w 17 4 * 64

/-- Checkpoint period and log depth (R217). -/
def ckptEvery (w : W64) : Nat := bitsOf w 63 40 + 1
def ckptKeep (w : W64) : Nat := bitsOf w 39 32 + 1

/-- The image of one core (R218). -/
def State.coreImage (s : State) (p : Pen) (c : Nat) : List Byte :=
  let k := s.core c
  let w8 := fun (x : Nat) => leBytes 8 x
  padTo 0x100 (((List.range 31).map (fun i => (k.s.toList.getD (i + 1) 0).toNat)).flatMap w8)
    ++ (List.finRange 16).flatMap (fun r => leBytes 32 (k.rdQ r).toNat)
    ++ k.g.toList.flatMap (fun r => w8 r.word.toNat)
    ++ padTo 0xC0 (k.oStat.toList.flatMap (fun x => w8 x.toNat) ++ k.oPiv.toList.flatMap (fun x => leBytes 20 x.toNat))
    ++ padTo 0x100 (w8 p.iterNext.toNat ++ w8 k.fsr.toNat ++ w8 k.dith.toNat)
    ++ padTo 0x300 (k.b.toList.flatMap (fun x => leBytes 32 x.toNat))
    ++ k.v.toList.flatMap (fun x => leBytes 256 x.toNat)
    ++ k.a.toList.flatMap (fun x => leBytes 8192 x.toNat)
    ++ s.cleanRead c (nearAddr c (ckptOfs p.du.ckptWord)) (ckptLen p.du.ckptWord)

/-- Bytes of one core's image (R218). -/
def imageLen (w : W64) : Nat := 75776 + ckptLen w

/-- `n` little-endian bytes at an offset. -/
def leAt (bs : List Byte) (ofs n : Nat) : Nat := leNat ((bs.drop ofs).take n)

/-- The bits of the status word of an o that are not reserved (R10, R152). -/
def oStatMask : W64 := 0xFFFFFFFFFFFFF007

/-- Write an image back into a core (R219). The hard-wired s0 and q0 and reserved bits take nothing (R10, R52). -/
def State.loadImage (s : State) (p : Pen) (c : Nat) (im : List Byte) : State :=
  let s := s.modCore c (fun k => { k with
    s := Vector.ofFn (fun i : Fin 32 => if i = 0 then 0 else BitVec.ofNat 64 (leAt im (8 * (i.val - 1)) 8))
    q := Vector.ofFn (fun i : Fin 16 => if i = 0 then 0 else BitVec.ofNat 256 (leAt im (0x100 + 32 * i.val) 32))
    g := Vector.ofFn (fun i : Fin 8 => Ring.ofWord (BitVec.ofNat 64 (leAt im (0x300 + 8 * i.val) 8)))
    oStat := Vector.ofFn (fun i : Fin 4 => BitVec.ofNat 64 (leAt im (0x340 + 8 * i.val) 8) &&& oStatMask)
    oPiv := Vector.ofFn (fun i : Fin 4 => BitVec.ofNat 160 (leAt im (0x360 + 20 * i.val) 20))
    fsr := BitVec.ofNat 5 (leAt im 0x408 8)
    dith := BitVec.ofNat 16 (leAt im 0x410 8)
    b := Vector.ofFn (fun i : Fin 16 => BitVec.ofNat 256 (leAt im (0x500 + 32 * i.val) 32))
    v := Vector.ofFn (fun i : Fin 32 => BitVec.ofNat 2048 (leAt im (0x800 + 256 * i.val) 256))
    a := Vector.ofFn (fun i : Fin 8 => BitVec.ofNat 65536 (leAt im (0x2800 + 8192 * i.val) 8192)) })
  s.nearWrite (nearAddr c (ckptOfs p.du.ckptWord)) ((im.drop 75776).take (ckptLen p.du.ckptWord))

/-- A checkpoint of a pen with a label: header, then each core (R218). -/
def State.checkpoint (s : State) (h label : Nat) : List Byte :=
  let p := s.pen h
  let n := p.h * p.w
  padTo 64 (leBytes 8 label ++ leBytes 8 (64 + n * imageLen p.du.ckptWord) ++ leBytes 2 n)
    ++ p.cores.flatMap (fun c => s.coreImage p c)

/-- The offsets of poison in a checkpoint (R353). -/
def State.checkpointBad (s : State) (h : Nat) : List Nat :=
  let p := s.pen h
  let w := p.du.ckptWord
  p.cores.zipIdx.flatMap (fun x => (s.padBad x.1 (ckptOfs w) (ckptLen w)).map (fun o => 64 + x.2 * imageLen w + 75776 + o))

/-- Poison of a checkpoint comes back with it: the bytes of the scratchpads at these offsets of it are poison (R353). -/
def State.checkpointMark (s : State) (h : Nat) (bad : List Nat) : State :=
  let p := s.pen h
  let w := p.du.ckptWord
  { s with poison := bad.map (fun o =>
      nearKey (nearAddr (p.coreAt ((o - 64) / imageLen w)) (ckptOfs w + ((o - 64) % imageLen w - 75776)))) ++ s.poison }

/-- Write a checkpoint's cores back; ITER comes with the first core's image (R218, R219). -/
def State.restoreImage (s : State) (h : Nat) (bs : List Byte) : State :=
  let p := s.pen h
  let n := imageLen p.du.ckptWord
  let s := p.cores.zipIdx.foldl (fun s x => s.loadImage p x.1 ((bs.drop (64 + n * x.2)).take n)) s
  let it := BitVec.ofNat 32 (leAt bs (64 + 0x400) 8)
  s.setPen h { s.pen h with iterNext := if it = 0 then 1 else it }

/-- Put a checkpoint into the log: one label once, the lowest label evicted when the log is full (R217). -/
def logPut (keep : Nat) (log : Tab (List Byte)) (label : Nat) (bs : List Byte) : Tab (List Byte) :=
  let l := Tab.put log label bs
  if keep < l.length then l.drop 1 else l

/-- Write a checkpoint labelled w (R217). -/
def State.writeCheckpoint (s : State) (h : Nat) : State :=
  let im := s.checkpoint h (s.pen h).du.w
  s.modPen h (fun p => { p with
    du := { p.du with log := logPut (ckptKeep p.du.ckptWord) p.du.log p.du.w im
                      logBad := Tab.put p.du.logBad p.du.w (s.checkpointBad h) }
    ckpt := p.ckpt + 1 })

end Sys2Proof.Machine
end

