-- ==== Sys2Proof/Machine/Hurdle.lean ====
section
/-! DEFINITION. Edges and their hurdles (R215), retained windows (R210), and where a released push goes (R371). -/

namespace Sys2Proof.Machine

open Sys2Proof

/-! ### Intervals of ticks (R209) -/

/-- Add [a, b); intervals that overlap or touch merge. -/
def ivAdd (ivs : Ivs) (a b : Nat) : Ivs :=
  if b ≤ a then ivs
  else
    let below := ivs.filter (fun x => x.2 < a)
    let above := ivs.filter (fun x => b < x.1)
    let touch := ivs.filter (fun x => a ≤ x.2 && x.1 ≤ b)
    below ++ [(touch.foldl (fun m x => min m x.1) a, touch.foldl (fun m x => max m x.2) b)] ++ above

/-- Take [a, b) away. -/
def ivSub (ivs : Ivs) (a b : Nat) : Ivs :=
  if b ≤ a then ivs
  else ivs.flatMap (fun x => [(x.1, min x.2 a), (max x.1 b, x.2)].filter (fun y => y.1 < y.2))

def ivSubAll (ivs : Ivs) (cut : Ivs) : Ivs := cut.foldl (fun i c => ivSub i c.1 c.2) ivs

def ivHas (ivs : Ivs) (t : Nat) : Bool := ivs.any (fun x => x.1 ≤ t && t < x.2)

/-- Ticks in a list of intervals. -/
def ivCount (ivs : Ivs) : Nat := ivs.foldl (fun n x => n + (x.2 - x.1)) 0

/-- The common part of two lists of intervals. -/
def ivMeet (a b : Ivs) : Ivs :=
  a.flatMap (fun x => (b.map (fun y => (max x.1 y.1, min x.2 y.2))).filter (fun y => y.1 < y.2))

/-! ### Windows (R210) -/

/-- Bytes of a window entry for `k` beats a tick. -/
def entryBytes (k : Nat) : Nat := 32 + 32 * k + 32 * ((8 * k + 31) / 32)

/-- Near-space address of core `q`'s entry for tick `t`. -/
def Output.entryAt (o : Output) (p : Pen) (q t : Nat) : Nat :=
  nearAddr (p.coreAt q) (o.bases.getD q 0 + t % max 1 o.w * entryBytes (o.ks.getD q 0))

def entryVal : W64 := BitVec.ofNat 64 (2 ^ 63)
def entryInv : W64 := BitVec.ofNat 64 (2 ^ 62)

/-- Is there poison in core `q`'s entry for tick `t`? It is no data (R352, log 102). -/
def State.entryPoison (s : State) (p : Pen) (o : Output) (q t : Nat) : Bool :=
  s.poison != [] && s.poisoned (nearKeys (o.entryAt p q t) (32 + 40 * o.ks.getD q 0))

/-- The header of core `q`'s entry for tick `t`: one with poison in it is not valid. -/
def State.entryHdr (s : State) (p : Pen) (o : Output) (q t : Nat) : W64 :=
  if s.entryPoison p o q t then 0 else leW64 (s.nearRead (p.coreAt q) (o.entryAt p q t) 8)

/-- Does the window hold tick `t`? -/
def State.retained (s : State) (p : Pen) (o : Output) (t : Nat) : Bool :=
  o.w != 0 && (List.range (p.h * p.w)).all (fun q =>
    let h := s.entryHdr p o q t
    bitAt h.toNat 63 && bitsOf h 47 0 = t)

/-- The ticks of [a, b) that the window holds. -/
def State.retainedIn (s : State) (p : Pen) (o : Output) (a b : Nat) : Ivs :=
  (List.range o.w).foldl (fun ivs i =>
    let t := bitsOf (s.entryHdr p o 0 i) 47 0
    if a ≤ t && t < b && t % max 1 o.w = i && s.retained p o t then ivAdd ivs t (t + 1) else ivs) []

/-- The 40 bytes a beat takes: its data, and its predicate bits and tag. -/
def tokBytes (t : Tok) : List Byte × List Byte :=
  (leBytes 32 t.data.toNat, leBytes 4 t.pred.toNat ++ leBytes 4 t.tag.val)

/-- Clear VAL in core `q`'s entry for tick `t`; its tick number stays until another is set (R210). -/
def State.entryClear (s : State) (p : Pen) (o : Output) (q t : Nat) : State :=
  s.nearWrite (o.entryAt p q t) (leBytes 8 (s.entryHdr p o q t &&& ~~~entryVal).toNat)

/-- Write beat `i` of tick `t` into core `q`'s entry; the first beat clears VAL. -/
def State.entryBeat (s : State) (p : Pen) (o : Output) (q t i : Nat) (tok : Tok) : State :=
  let k := o.ks.getD q 0
  if o.w = 0 || k ≤ i then s
  else
    let a := o.entryAt p q t
    let s := if i = 0 then s.entryClear p o q t else s
    let (d, m) := tokBytes tok
    (s.nearWrite (a + 32 + 32 * i) d).nearWrite (a + 32 + 32 * k + 8 * i) m

/-- Set VAL and the tick in core `q`'s entry. -/
def State.entryClose (s : State) (p : Pen) (o : Output) (q t : Nat) (inv : Bool) : State :=
  if o.w = 0 then s
  else s.nearWrite (o.entryAt p q t)
    (leBytes 32 ((BitVec.ofNat 64 t).toNat + entryVal.toNat + (if inv then entryInv.toNat else 0)))

/-- Clear VAL in every core's entry that holds tick `t`. -/
def State.entryDrop (s : State) (p : Pen) (o : Output) (t : Nat) : State :=
  if o.w = 0 then s
  else (List.range (p.h * p.w)).foldl (fun s q =>
    if bitsOf (s.entryHdr p o q t) 47 0 = t then s.entryClear p o q t else s) s

/-- Beat `i` of tick `t` as core `q`'s entry holds it. -/
def State.entryTok (s : State) (p : Pen) (o : Output) (q t i : Nat) (inv : Bool) : Tok :=
  let k := o.ks.getD q 0
  let a := o.entryAt p q t
  let c := p.coreAt q
  let m := s.nearRead c (a + 32 + 32 * k + 8 * i) 8
  { data := BitVec.ofNat 256 (leNat (s.nearRead c (a + 32 + 32 * i) 32)), pred := BitVec.ofNat 32 (leAt m 0 4),
    tag := ⟨leAt m 4 1 % 16, Nat.mod_lt _ (by decide)⟩, inval := inv, tick := t }

/-! ### Edges (R215, R329) -/

def State.edge (s : State) (e : Nat) : Edge := s.edges.getD e { src := s.pens.length, out := 0, dst := s.pens.length, inp := 0 }

def State.modEdge (s : State) (e : Nat) (f : Edge → Edge) : State := { s with edges := s.edges.set e (f (s.edge e)) }

/-- The rx port an edge feeds. -/
def State.edgePort (s : State) (e : Edge) : Fin 8 := ((s.pen e.dst).du.ins.getD e.inp { port := 0 }).port

/-- Occupancy of lane `q`: tokens on their way and those in the rx buffer, popped or not. -/
def State.laneOcc (s : State) (e : Edge) (q : Nat) : Nat :=
  (e.flight.getD q []).length
    + ((s.core ((s.pen e.dst).coreAt q)).rx[s.edgePort e].q.filter (fun t => t.org = some e.src)).length

/-- The lanes that core `q` of the producer feeds. -/
def State.lanesOfCore (s : State) (e : Edge) (q : Nat) : List Nat :=
  let n := (s.pen e.src).h * (s.pen e.src).w
  let m := (s.pen e.dst).h * (s.pen e.dst).w
  if n = m then [q] else List.range m

/-- Open and close the lanes of an edge by their occupancy. -/
def State.edgeRefresh (s : State) (i : Nat) : State :=
  let e := s.edge i
  s.modEdge i (fun e' => { e' with isOpen := e.isOpen.zipIdx.map (fun x =>
    let occ := s.laneOcc e x.2
    if x.1 then decide (occ < e.full) else decide (occ ≤ e.empty)) })

/-- Room of a lane. -/
def State.laneRoom (s : State) (e : Edge) (q : Nat) : Nat :=
  if e.isOpen.getD q true then e.full - s.laneOcc e q else 0

/-- Room that core `q` of the producer sees on an edge. -/
def State.edgeRoom (s : State) (i q : Nat) : Nat :=
  let e := s.edge i
  (s.lanesOfCore e q).foldl (fun n l => min n (s.laneRoom e l)) 64

/-- Put a token on every lane a producer core feeds. -/
def State.edgePush (s : State) (i q : Nat) (t : Tok) : State :=
  let e := s.edge i
  let ls := s.lanesOfCore e q
  let t := { t with org := some e.src }
  (s.modEdge i (fun e => { e with flight := e.flight.zipIdx.map (fun x => if ls.contains x.2 then x.1 ++ [t] else x.1) })).edgeRefresh i

/-- The output of a pen at a tx port. -/
def Pen.outAt (p : Pen) (port : Fin 8) : Option Nat :=
  let i := p.du.outs.findIdx (fun o => o.port = port && o.dest != .none_)
  if i < p.du.outs.length then some i else none

/-- Room for a port hold on a tx port of a core (R46, R215): entries and pushes bound for it count as occupied. -/
def State.portRoom (s : State) (h c : Nat) (port : Fin 8) : Nat :=
  let p := s.pen h
  let k := s.core c
  let mine := (k.cq.filter (fun e => match e.eff with
    | .push q _ => decide (q = port)
    | _ => false)).length + k.tx[port].length
  let room := match p.outAt port with
    | none => 64
    | some i => match (p.du.outs.getD i { port := port }).dest with
      | .edge e => s.edgeRoom e (p.rel c)
      | _ => 64
  room - mine

/-- TOKEN_ARRIVAL: the oldest token on its way on each lane reaches the rx buffer, which has room for it by R215. -/
def execTokenArrival (i : Nat) (s : State) : Out :=
  let e := s.edge i
  let p := s.pen e.dst
  let port := s.edgePort e
  .next (e.flight.zipIdx.foldl (fun s x =>
    match x.1 with
    | [] => s
    | t :: rest =>
      let c := p.coreAt x.2
      if 64 ≤ (s.core c).rx[port].q.length then s
      else
        let s := s.modCore c (fun k => { k with rx := k.rx.set port { k.rx[port] with q := k.rx[port].q ++ [t] } })
        s.modEdge i (fun e => { e with flight := e.flight.set x.2 rest })) s)

/-! ### Where a released push goes (R371) -/

/-- The kind of the tick in progress (R213). -/
def Pen.kind (p : Pen) : TickKind :=
  match p.du.run with
  | none => .demanded
  | some r => if p.tick < r.s then .lead else if p.tick < r.n0 then .warm else .demanded

def Pen.modOut (p : Pen) (i : Nat) (f : Output → Output) : Pen :=
  { p with du := { p.du with outs := p.du.outs.set i (f (p.du.outs.getD i { port := 0 })) } }

/-- A lost or edge token: all zeros (R204, R220). -/
def zeroTok (t : Int) (inv : Bool) : Tok := { tick := t, inval := inv }

/-- Does a popped token of the pen carry the invalid mark (R220)? -/
def State.poppedLost (s : State) (p : Pen) : Bool :=
  p.cores.any (fun c => (s.core c).rx.toList.any (fun r => (r.q.take r.taken).any (·.inval)))

/-- Is the demanded tick `t` in progress delivered as it is released (R371)? It is from its start where its turn has come then, and
otherwise where its turn comes before its first beat; not a tick that the window delivers (R209), nor an edge tick (R204). -/
def State.streams (s : State) (p : Pen) (o : Output) (t : Int) : Bool :=
  o.streaming || (p.kind = .demanded && o.rel.all (· = 0) && decide (t < o.len)
    && (o.queue.head?.any (fun r => r.done = 0 && r.ticks.head?.any (fun x => (x.1 : Int) = t))) && !s.retained p o t.toNat)

/-- Route the released pushes of one tx port of one core; what finds no room stays. Fuel: the pushes waiting. -/
def State.routePort (s : State) (h c : Nat) (port : Fin 8) : Nat → State
  | 0 => s
  | n + 1 =>
    let p := s.pen h
    match (s.core c).tx[port] with
    | [] => s
    | t :: rest =>
      let take := fun (s : State) => s.modCore c (fun k => { k with tx := k.tx.set port rest })
      match p.outAt port with
      | none => (take s).routePort h c port n
      | some i =>
        let o := p.du.outs.getD i { port := port }
        let q := p.rel c
        if p.du.curAbandoned || p.kind = .lead then (take s).routePort h c port n
        else
          let t := if p.du.curLost then zeroTok t.tick true else t
          let beat := o.rel.getD q 0
          let now := s.streams p o p.tick
          let keep := fun (s : State) =>
            ((take s).entryBeat p o q p.tick.toNat beat t).modPen h (fun p =>
              p.modOut i (fun o => { o with rel := o.rel.set q (beat + 1), streaming := now }))
          match o.dest, p.kind, now with
          | .edge e, .demanded, true =>
            if s.edgeRoom e q = 0 then s else ((keep s).edgePush e q t).routePort h c port n
          | _, _, _ => (keep s).routePort h c port n

/-- Route every released push of a pen. -/
def State.routePen (s : State) (h : Nat) : State :=
  let s := s.modPen h (fun p => { p with du := { p.du with curLost := p.du.curLost || s.poppedLost p } })
  (s.pen h).cores.foldl (fun s c =>
    (List.finRange 8).foldl (fun s port => s.routePort h c port (s.core c).tx[port].length) s) s

/-- Does a released push still wait for room? -/
def State.pushWaits (s : State) (h : Nat) : Bool := (s.pen h).cores.any (fun c => (s.core c).tx.toList.any (· != []))

end Sys2Proof.Machine
end

