-- ==== Sys2Proof/Machine/Demand.lean ====
section
/-! DEFINITION. The demand unit (09_demand.md): requests and pending ticks (R208, R209), deliveries (R208, R223), the choice
and plan of a run (R212, R213), the end of a tick, abandonment (R186) and withdrawal (R224). -/

namespace Sys2Proof.Machine

open Sys2Proof

def State.modDu (s : State) (h : Nat) (f : Demand → Demand) : State := s.modPen h (fun p => { p with du := f p.du })

def State.modOut (s : State) (h i : Nat) (f : Output → Output) : State := s.modPen h (fun p => p.modOut i f)

def Pen.out (p : Pen) (i : Nat) : Output := p.du.outs.getD i { port := 0 }

/-! ### Range transfer (R207) -/

def maxTick : Nat := 2 ^ 48 - 1

def clampTick (x : Int) : Nat := min x.toNat maxTick

/-- Lower end of rewrite([a, b)). -/
def Input.lo (i : Input) (a : Nat) : Nat := clampTick (((i.mul * a : Nat) + i.off) / (i.div : Int) - i.hlo)

/-- Upper end of rewrite([a, b)). -/
def Input.hi (i : Input) (b : Nat) : Nat := clampTick (-((-((i.mul * b : Nat) + i.off : Int)) / (i.div : Int)) + i.hhi)

/-- The first input tick that pen tick `u` pops. -/
def Input.pop (i : Input) (u : Int) : Int := (i.mul * u + i.off) / (i.div : Int) + i.hhi

/-- The lead count of a pen (R207, R213). -/
def Demand.lead (d : Demand) : Nat :=
  d.ins.foldl (fun n i => match i.mode with
    | .affine | .stateful => max n ((i.hlo + i.hhi) * i.div / i.mul)
    | _ => n) 0

def Demand.has (d : Demand) (m : RtfMode) : Bool := d.ins.any (fun i => i.mode = m)

/-- Is the operator stateful (R185, R216)? -/
def Demand.stateful (d : Demand) : Bool := d.has .stateful

/-- Does a run go on from the ticks before it, so that it runs those between as warm-up (R213)? -/
def Demand.inOrder (d : Demand) : Bool := d.has .stateful || d.has .cached || d.has .all

/-- The union of a pen's pending ticks (R212). -/
def Demand.pending (d : Demand) : Ivs := d.outs.foldl (fun u o => o.pend.foldl (fun u x => ivAdd u x.1 x.2) u) []

/-! ### Requests (R208, R209) -/

/-- An output keeps at most eight pending intervals: a ninth, the one that holds `a`, merges with its nearest. -/
def ivCap (ivs : Ivs) (a : Nat) : Ivs :=
  if ivs.length ≤ 8 then ivs
  else
    let i := ivs.findIdx (fun x => x.1 ≤ a && a < x.2)
    let at_ := fun (j : Nat) => ivs.getD j (0, 0)
    let lower := if i = 0 then none else some ((at_ i).1 - (at_ (i - 1)).2)
    let upper := if i + 1 < ivs.length then some ((at_ (i + 1)).1 - (at_ i).2) else none
    let j := match lower, upper with
      | some l, some u => if l ≤ u then i - 1 else i
      | some _, none => i - 1
      | none, _ => i
    ivAdd ivs (at_ j).1 (at_ (j + 1)).2

/-- Take ticks out of pending intervals, of which there are at most eight: where one breaks in two, the upper part counts as the ninth. -/
def ivCut (ivs cut : Ivs) : Ivs := cut.foldl (fun i c => ivCap (ivSub i c.1 c.2) c.2) ivs

/-- Sort the ticks of a request (R209): those neither at an edge, nor retained, nor being produced become pending. -/
def State.sortTicks (s : State) (h i a b : Nat) : State :=
  let p := s.pen h
  let o := p.out i
  let b := min b o.len
  let now := if p.inTick && p.kind != .lead && !p.du.curAbandoned && 0 ≤ p.tick then [(p.tick.toNat, p.tick.toNat + 1)] else []
  let new := ivSubAll (ivSubAll (ivSubAll (ivAdd [] a b) (s.retainedIn p o a b)) now) (o.pend ++ o.lost)
  s.modOut h i (fun o => { o with pend := new.foldl (fun ivs x => ivCap (ivAdd ivs x.1 x.2) x.1) o.pend })

/-- Send a request to the output that feeds an input (R213, R231). -/
def State.ask (s : State) (i : Input) (a b : Nat) : State :=
  if b ≤ a then s
  else
    let e := s.edge i.edge
    s.modOut e.src e.out (fun o => { o with net := o.net ++ [{ ticks := [(a, b)], asker := .edge }] })

/-- Each input of a pen asks up to `n1` (R231), from the upper end of its previous request. -/
def State.askMore (s : State) (h : Nat) (r : Run) (n1 : Nat) : State :=
  (List.range (s.pen h).du.ins.length).foldl (fun s j =>
    let d := (s.pen h).du
    let i := d.ins.getD j { port := 0 }
    let a0 := if i.mode = .cached then max r.s d.w else r.s
    let a := max i.asked (i.lo a0)
    let b := i.hi n1
    let s := if a0 < n1 then s.ask i a b else s
    s.modDu h (fun d => { d with ins := d.ins.set j { i with asked := max i.asked b } })) s

/-- A run in progress grows over the pending ticks that follow its end, and asks for them at once (R212, R231). -/
def State.extendRun (s : State) (h : Nat) : State :=
  let d := (s.pen h).du
  match d.run with
  | none => s
  | some r =>
    match d.pending.find? (fun x => x.1 ≤ r.n1 && r.n1 < x.2) with
    | none => s
    | some x => (s.modDu h (fun d => { d with run := some { r with n1 := x.2 } })).askMore h r x.2

/-- DEMAND_REQUEST: the oldest request that waits for an output with room in its queue enters it (R208, R209). -/
def execDemandRequest (h i : Nat) (s : State) : Out :=
  let o := (s.pen h).out i
  match o.net with
  | [] => .next s
  | r :: rest =>
    if 16 ≤ o.queue.length then .next s
    else
      let s := { s.modOut h i (fun o => { o with net := rest, queue := o.queue ++ [{ r with seq := s.fresh }] }) with fresh := s.fresh + 1 }
      let s := r.ticks.foldl (fun s x => s.sortTicks h i x.1 x.2) s
      .next (s.extendRun h)

/-! ### Delivery (R208, R223) -/

/-- The answer to a posted demand whose ticks have all completed (R185). -/
def demandDone (m : Cmd) (die : Nat) (r : Req) (mark : Nat) : Done :=
  if r.retracted then { cmd := m, eng := 4, die := die, code := 9, detail := 4 }
  else if r.lost = 0 then { cmd := m, eng := 4, die := die, value := BitVec.ofNat 64 mark }
  else { cmd := m, eng := 4, die := die, code := 6, value := BitVec.ofNat 64 r.firstLost, e4 := BitVec.ofNat 32 (min r.lost (2 ^ 32 - 1)) }

/-- Requests of an output with nothing left to deliver leave; posted demands complete. -/
def State.reap (s : State) (h i : Nat) : State :=
  let o := (s.pen h).out i
  let fin := (o.queue ++ o.net).filter (fun r => r.ticks = [])
  let s := s.modOut h i (fun o => { o with queue := o.queue.filter (fun r => r.ticks != []), net := o.net.filter (fun r => r.ticks != []) })
  fin.foldl (fun s r =>
    match r.asker with
    | .edge => s
    | .dmd id =>
      match (s.pen h).du.posted.find? (fun x => x.1.id = id) with
      | none => s
      | some x =>
        let s := s.modDu h (fun d => { d with posted := d.posted.filter (fun y => y.1.id != id) })
        s.answer (demandDone x.1 (s.pen h).die r o.h)) s

/-- The head request of an output has its next tick delivered. -/
def State.delivered (s : State) (h i t : Nat) (lost : Bool) : State :=
  let s := s.modOut h i (fun o => { o with
    lost := ivSub o.lost t (t + 1)
    queue := (match o.queue with
      | [] => []
      | r :: rest => { r with ticks := ivSub r.ticks t (t + 1), done := 0, lost := r.lost + (if lost then 1 else 0),
                              firstLost := if lost && r.lost = 0 then t else r.firstLost } :: rest) })
  s.reap h i

/-- The next tick of the oldest request of an output. -/
def Output.turn (o : Output) : Option Nat := o.queue.head?.bind (fun r => r.ticks.head?.map (·.1))

/-- OUTPUT_DELIVERY: the next tick of the oldest request moves on, one beat of every core at a time over an edge (R204, R208,
R210, R215, R220). -/
def execOutputDelivery (h i : Nat) (s : State) : Out :=
  let p := s.pen h
  let o := p.out i
  match o.turn with
  | none => .next s
  | some t =>
    let kept := s.retained p o t
    let inv := kept && bitAt (s.entryHdr p o 0 t).toNat 62
    let edge := decide (o.len ≤ t)
    let lost := !edge && (inv || (!kept && ivHas o.lost t))
    if !(edge || kept || lost) then
      -- pending, or being produced, or made pending again (R209)
      if ivHas o.pend t || (p.inTick && p.tick = t && p.kind != .lead) || p.du.abandoned.contains (t : Int) then .next s
      else
        let bad := o.w != 0 && (List.range (p.h * p.w)).any (fun q => s.entryPoison p o q t)
        .next (((if bad then s.ueMet p.die else s).sortTicks h i t (t + 1)).extendRun h)
    else
      match o.dest with
      | .edge e =>
        let beat := (o.queue.head?.map (·.done)).getD 0
        let total := o.ks.foldl max 0
        let cores := (List.range (p.h * p.w)).filter (fun q => beat < o.ks.getD q 0)
        if total ≤ beat then .next (s.delivered h i t lost)
        else if cores.any (fun q => s.edgeRoom e q = 0) then .next s
        else
          let s := cores.foldl (fun s q =>
            s.edgePush e q (if kept && !edge then s.entryTok p o q t beat inv else zeroTok t lost)) s
          if beat + 1 = total then .next (s.delivered h i t lost)
          else .next (s.modOut h i (fun o => { o with queue := (match o.queue with
            | [] => []
            | r :: rest => { r with done := beat + 1 } :: rest) }))
      | _ => .next (s.delivered h i t lost)

/-! ### The choice and plan of a run (R212, R213) -/

/-- Ticks with no checkpoint complete as lost, kept in the windows with INV set (R220). -/
def State.deliverLost (s : State) (h a b : Nat) : State :=
  if b ≤ a then s
  else (List.range (s.pen h).du.outs.length).foldl (fun s i =>
    let p := s.pen h
    let o := p.out i
    let lo := max a (b - o.w)
    let s := (List.range (b - lo)).foldl (fun s j =>
      (List.range (p.h * p.w)).foldl (fun s q =>
        let s := (List.range (o.ks.getD q 0)).foldl (fun s n => s.entryBeat p o q (lo + j) n (zeroTok (lo + j) true)) s
        s.entryClose p o q (lo + j) true) s) s
    s.modOut h i (fun o => { o with
      pend := ivCut o.pend [(a, b)]
      h := max o.h b
      lost := ivMeet (ivAdd o.lost a b) (o.queue.flatMap (·.ticks)) })) s

/-- The checkpoint a run below the watermark starts from: the highest label at most `n0`. -/
def logBelow (log : Tab (List Byte)) (n0 : Nat) : Option Nat := ((log.filter (fun x => x.1 ≤ n0)).getLast?).map (·.1)

/-- Drop from a pen's input everything that has arrived or is on its way: a run that does not go on from the last one pops
none of it (R219). -/
def State.dropInput (s : State) (h : Nat) (i : Input) : State :=
  let e := s.edge i.edge
  let p := s.pen h
  let s := s.modOut e.src e.out (fun o => { o with
    queue := o.queue.filter (fun r => r.asker != .edge), net := o.net.filter (fun r => r.asker != .edge), streaming := false })
  let s := p.cores.foldl (fun s c => s.modCore c (Core.modRx i.port (fun r =>
    { r with q := r.q.filter (fun t => t.org != some e.src) }))) s
  (s.modEdge i.edge (fun e => { e with flight := e.flight.map (fun _ => []) })).edgeRefresh i.edge

/-- plan of R213 from `n0` to `n1`: the run, its requests, and a restore where one is needed: below the watermark, and after an abandoned
tick (R225). -/
def State.plan (s : State) (h n0 n1 : Nat) : State :=
  let d := (s.pen h).du
  let below := d.stateful && (decide (n0 < d.w) || d.spoiled)
  let first := if below then logBelow d.log n0 else none
  let m := (d.log.head?.map (·.1)).getD n1
  let s := if below && first.isNone then s.deliverLost h n0 (min n1 m) else s
  if below && first.isNone && n1 ≤ m then s
  else
    let n0 := if below && first.isNone then m else n0
    let c := first.getD m
    let s := if below then
        let s := (s.restoreImage h ((Tab.find d.log c).getD [])).checkpointMark h ((Tab.find d.logBad c).getD [])
        s.modPen h (fun p => { p with ckpt := p.ckpt + 1, du := { p.du with w := c, spoiled := false } })
      else s
    let w := if below then c else d.w
    let s0 := if (d.stateful || d.has .cached) && w ≤ n0 then w else n0
    let s0 := if d.has .all && d.last != some ((n0 : Int) - 1) then 0 else s0
    let cont := decide (d.last = some ((s0 : Int) - 1)) && !below
    let lead := if cont then 0 else d.lead
    let r : Run := { first := (s0 : Int) - lead, s := s0, n0 := n0, n1 := n1 }
    let s := s.modDu h (fun d => { d with run := some r })
    let s := if cont then s else d.ins.foldl (fun s i => if i.mode = .cached then s else s.dropInput h i) s
    (List.range d.ins.length).foldl (fun s j =>
      let i := d.ins.getD j { port := 0 }
      let a := match i.mode with
        | .cached => i.lo (max s0 w)
        | _ => if cont then max i.asked (clampTick (i.pop s0)) else i.lo s0
      let b := i.hi n1
      let s := if i.mode = .cached && n1 ≤ max s0 w then s else s.ask i a b
      s.modDu h (fun d => { d with ins := d.ins.set j { i with asked := if cont then max i.asked b else b } })) s

/-- Faults recorded against a tick and not resolved (R186, R345). -/
def State.tickFaulted (s : State) (h : Nat) (t : Int) : Bool := s.faults.any (fun f => f.pen = some (h, t))

/-- The lowest pending tick a request needs. -/
def reqNeeds (pend : Ivs) (r : Req) : Option Nat := ((ivMeet pend r.ticks).map (·.1)).min?

/-- The choice of R212: the lowest pending tick that the oldest request on any output names which needs one, else the lowest pending
tick. -/
def State.chooseTick (s : State) (h : Nat) : Option Nat :=
  let d := (s.pen h).du
  let needs := d.outs.flatMap (fun o => o.queue.filterMap (fun r => (reqNeeds o.pend r).map (fun t => (r.seq, t))))
  match needs.foldl (fun (m : Option (Nat × Nat)) x => if m.any (fun y => y.1 ≤ x.1) then m else some x) none with
  | some x => some x.2
  | none => (d.pending.map (·.1)).min?

/-- The end of the interval of pending ticks that contains a tick (R212). -/
def Demand.pendEnd (d : Demand) (t : Nat) : Nat := ((d.pending.find? (fun x => x.1 ≤ t && t < x.2)).map (·.2)).getD (t + 1)

/-- Choose and plan the next run of a pen at a tick boundary, if anything is pending. -/
def State.chooseRun (s : State) (h : Nat) : State :=
  let d := (s.pen h).du
  match d.abandoned.find? (fun t => !s.tickFaulted h t) with
  | some t =>
    let n := t.toNat
    let s := s.modDu h (fun d => { d with
      abandoned := d.abandoned.filter (fun x => x != t)
      outs := d.outs.map (fun o => { o with pend := ivCap (ivAdd o.pend n (n + 1)) n }) })
    s.plan h n ((s.pen h).du.pendEnd n)
  | none =>
    match s.chooseTick h with
    | none => s
    | some n => s.plan h n (d.pendEnd n)

/-- The tick a pen starts next in its run. -/
def Pen.nextTick (p : Pen) : Option Int :=
  match p.du.run with
  | none => none
  | some r => if r.first < (r.n1 : Int) then some r.first else none

/-- Edge tokens for input ticks below 0 (R204), ahead of what has arrived. -/
def State.below0 (s : State) (h : Nat) (u : Int) : State :=
  let p := s.pen h
  p.du.ins.foldl (fun s i =>
    let n := (min 0 (i.pop (u + 1)) - min 0 (i.pop u)).toNat
    let e := s.edge i.edge
    let src := s.pen e.src
    let o := src.out e.out
    p.cores.zipIdx.foldl (fun s x =>
      let k := o.ks.getD (if src.h * src.w = p.h * p.w then x.2 else 0) 0
      s.modCore x.1 (Core.modRx i.port (fun r =>
        { r with q := r.q.take r.taken ++ List.replicate (n * k) ({} : Tok) ++ r.q.drop r.taken }))) s) s

/-- A tick starts: it stops being pending, and each output notes whether it is its turn (R212, R371). The run's `first` moves
on to the tick after it. -/
def State.startTick (s : State) (h : Nat) (u : Int) : State :=
  let s := s.modPen h (fun p => { p with
    tick := u
    inTick := true
    it := 0
    iter := p.iterNext
    du := { p.du with
      run := p.du.run.map (fun r => { r with first := u + 1 })
      curAbandoned := false
      curLost := false } })
  let kind := (s.pen h).kind
  let p := s.pen h
  let s := s.modDu h (fun d => { d with outs := d.outs.map (fun o =>
    let o := { o with rel := List.replicate (p.h * p.w) 0, streaming := false }
    { o with
      pend := if kind = .lead then o.pend else ivCut o.pend [(u.toNat, u.toNat + 1)]
      streaming := s.streams p o u }) })
  s.below0 h u

/-! ### The end of a tick (R210, R211, R216, R217, R225) -/

/-- One output at the end of a tick that was neither led nor abandoned. -/
def State.endOutput (s : State) (h i : Nat) : State :=
  let p := s.pen h
  let o := p.out i
  let t := p.tick.toNat
  let s := (List.range (p.h * p.w)).foldl (fun s q =>
    if o.rel.getD q 0 = o.ks.getD q 0 then s.entryClose p o q t p.du.curLost else s) s
  let s := s.modOut h i (fun o => { o with h := max o.h (t + 1) })
  if o.streaming || (o.dest = .sink && p.kind = .demanded && o.turn = some t && t < o.len) then s.delivered h i t p.du.curLost
  else if p.du.curLost && !s.retained p o t && o.queue.any (fun r => ivHas r.ticks t) then s.modOut h i (fun o => { o with lost := ivAdd o.lost t (t + 1) })
  else s

/-- What the demand unit does when a tick ends, its pushes released. -/
def State.endTick (s : State) (h : Nat) : State :=
  let p := s.pen h
  let kind := p.kind
  let t := p.tick
  let s := s.modPen h (fun p => { p with inTick := false })
  let s := if p.du.curAbandoned then s.modDu h (fun d => { d with spoiled := true })
    else if kind = .lead then s.modDu h (fun d => { d with last := some t })
    else
      let s := (List.range p.du.outs.length).foldl (fun s i => s.endOutput h i) s
      let s := s.modDu h (fun d => { d with
        last := some t
        w := if d.stateful || d.has .cached then (t + 1).toNat else d.w })
      if p.du.keeps && (p.du.stateful || p.du.has .cached) && (t + 1).toNat % ckptEvery p.du.ckptWord = 0 then s.writeCheckpoint h else s
  s.modDu h (fun d => { d with run := d.run.filter (fun r => r.first < (r.n1 : Int)) })

/-! ### Abandonment (R186, R225) -/

/-- Abandon tick `t` of a pen: its outputs for the tick go, and every consumer tick that popped one of them is abandoned in
turn. Fuel: the pens. -/
def State.abandon (s : State) : Nat → Nat → Int → State
  | 0, _, _ => s
  | n + 1, h, t =>
    let p := s.pen h
    if p.du.abandoned.contains t then s
    else
      let s := s.modDu h (fun d => { d with
        abandoned := d.abandoned ++ [t]
        last := none
        curAbandoned := d.curAbandoned || (p.inTick && decide (p.tick = t)) })
      (List.range p.du.outs.length).foldl (fun s i =>
        let o := p.out i
        let s := if 0 ≤ t then s.entryDrop p o t.toNat else s
        match o.dest with
        | .edge e =>
          let ed := s.edge e
          let port := s.edgePort ed
          let con := s.pen ed.dst
          let mine := fun (x : Tok) => x.org = some h && x.tick = t
          let s := s.modEdge e (fun ed => { ed with flight := ed.flight.map (fun l => l.filter (fun x => !mine x)) })
          let taken := con.cores.any (fun c => ((s.core c).rx[port].q.take (s.core c).rx[port].taken).any mine)
          let s := con.cores.foldl (fun s c => s.modCore c (Core.modRx port (fun r =>
            { r with q := r.q.take r.taken ++ (r.q.drop r.taken).filter (fun x => !mine x) }))) s
          let s := s.edgeRefresh e
          let us := (con.du.pops.filter (fun x => x.1 = h && x.2.1 = t)).map (·.2.2) ++ (if taken then [con.tick] else [])
          us.foldl (fun s u => s.abandon n ed.dst u) s
        | _ => s) s

/-- Note which ticks a pen's popped tokens came from, before the pops become final (R186). -/
def State.notePops (s : State) (h : Nat) : State :=
  let p := s.pen h
  let new := p.cores.flatMap (fun c => (s.core c).rx.toList.flatMap (fun r => (r.q.take r.taken).filterMap (fun t =>
    t.org.map (fun o => (o, t.tick, p.tick)))))
  let live := p.du.pops.filter (fun x => (s.pen x.1).tick ≤ x.2.1)
  s.modDu h (fun d => { d with pops := new.foldl (fun l x => if l.contains x then l else l ++ [x]) live })

/-! ### Withdrawal (R224) -/

/-- Take ticks away from an output's requests. -/
def Output.retract (o : Output) (cut : Ivs) : Output :=
  let f := fun (r : Req) =>
    let t := ivSubAll r.ticks cut
    if t = r.ticks then r else { r with ticks := t, retracted := true }
  { o with queue := o.queue.map f, net := o.net.map f }

/-- The end of a run that loses ticks it has not started: the lowest it need not run. A pen that runs its ticks in order still runs, as
warm-up, those below another that is pending; what else lies above stays pending and is planned again. A run with no pending tick left
runs no further lead or warm-up tick either. -/
def Demand.cutEnd (d : Demand) (r : Run) (cut : Ivs) : Option Nat :=
  match ((ivMeet (ivSubAll cut d.pending) [(max r.n0 r.first.toNat, r.n1)]).map (·.1)).min? with
  | none => none
  | some x =>
    let y := if d.inOrder then (ivMeet d.pending [(x, r.n1)]).foldl (fun m k => max m k.2) x else x
    if y < r.n1 then some (if ivMeet d.pending [(max r.n0 r.first.toNat, y)] = [] then r.first.toNat else y) else none

/-- Cut a pen's run; one with nothing left to run has ended. -/
def State.cutRun (s : State) (h : Nat) (cut : Ivs) : State × Option Nat :=
  let p := s.pen h
  match p.du.run with
  | none => (s, none)
  | some r => match p.du.cutEnd r cut with
    | none => (s, none)
    | some x =>
      let r' : Run := { r with n1 := x, first := if r.first < 0 && x = 0 then 0 else r.first }
      (s.modDu h (fun d => { d with run := if !p.inTick && (x : Int) ≤ r.first then none else some r' }), some x)

/-- The input ticks that a pen's other pending ticks still need (R224). -/
def Demand.needs (d : Demand) (i : Input) (n1 : Nat) : Ivs :=
  d.pending.foldl (fun l x => ivAdd l (i.lo (if x.2 ≤ n1 then x.1 else if d.inOrder then n1 else max n1 x.1)) (i.hi x.2)) []

/-- The input ticks that a run alone needed once it ends at `x` instead (R224): those of ticks it has not run and no other needs. A run
that has no tick left gives up what its next lead or warm-up tick would pop. -/
def Demand.unneeded (d : Demand) (i : Input) (r : Run) (x : Nat) : Ivs :=
  let low := if r.first ≤ r.n0 && x = r.first.toNat then clampTick (i.pop r.first) else i.hi x
  ivSubAll [(low, 2 ^ 48)] (d.needs i x)

/-- Withdraw from a pen's inputs what the ticks that its run `r`, which now ends at `x`, no longer runs alone needed: requests and tokens
for them go, and upstream the ticks that nothing else needs, the one in progress too (R224). Fuel: the pens. -/
def State.withdraw (s : State) : Nat → Nat → Run → Nat → State
  | 0, _, _, _ => s
  | n + 1, h, r, x =>
    (List.range (s.pen h).du.ins.length).foldl (fun s j =>
      let d := (s.pen h).du
      let i := d.ins.getD j { port := 0 }
      let cut := d.unneeded i r x
      let e := s.edge i.edge
      let gone := fun (t : Tok) => t.org = some e.src && 0 ≤ t.tick && ivHas cut t.tick.toNat
      let s := s.modDu h (fun d => { d with ins := d.ins.set j { i with asked := min i.asked ((cut.head?.map (·.1)).getD i.asked) } })
      let s := (s.pen h).cores.foldl (fun s c => s.modCore c (Core.modRx i.port (fun r =>
        { r with q := r.q.take r.taken ++ (r.q.drop r.taken).filter (fun x => !gone x) }))) s
      let s := (s.modEdge i.edge (fun e => { e with flight := e.flight.map (fun l => l.filter (fun x => !gone x)) })).edgeRefresh i.edge
      let now := (s.pen e.src).tick
      let s := s.modOut e.src e.out (fun o => { o.retract cut with streaming := o.streaming && !(0 ≤ now && ivHas cut now.toNat) })
      let s := s.reap e.src e.out
      let o := (s.pen e.src).out e.out
      let cut := ivSubAll (ivMeet o.pend cut) ((o.queue ++ o.net).flatMap (·.ticks))
      let s := s.modOut e.src e.out (fun o => { o with pend := ivCut o.pend cut })
      match (s.pen e.src).du.run, s.cutRun e.src cut with
      | some r, (s, some x) => s.withdraw n e.src r x
      | _, (s, _) => s) s

/-- `dret` of [a, b) at an output: the state and the number of ticks removed (R185, R224). -/
def State.retract (s : State) (h i a b : Nat) : State × Nat :=
  let cut := ivMeet ((s.pen h).out i).pend [(a, b)]
  let s := s.modOut h i (fun o => { o.retract cut with pend := ivCut o.pend cut })
  let s := s.reap h i
  match (s.pen h).du.run, s.cutRun h cut with
  | some r, (s, some x) => (s.withdraw s.pens.length h r x, ivCount cut)
  | _, (s, _) => (s, ivCount cut)

end Sys2Proof.Machine
end

