-- ==== Sys2Proof/Machine/DemandCmd.lean ====
section
/-! DEFINITION. Commands of the demand unit: `dmd`, `dret`, `dstat`, `ckpt` (R185, R221), `lexp` and `limp` (R176, R227,
R228). `dabn` is applied on the beat of its release (R186) and stands with the engines' acceptance. -/

namespace Sys2Proof.Machine

open Sys2Proof

/-- The pen with a number in a context (R60, R185, R189), one in a casting too (R325, R336); of several instances the one of pen `own` first. -/
def State.pidPen (s : State) (own ctx pid : Nat) : Option Nat :=
  let is := fun (p : Pen) => (p.live || p.frozen = .cast) && !p.ended && p.ctx = ctx && p.pid.toNat = pid
  let o := s.pen own
  let h := s.pens.findIdx (fun p => is p && p.qid = o.qid && p.seq = o.seq)
  let g := s.pens.findIdx is
  if h < s.pens.length then some h else if g < s.pens.length then some g else none

/-- The pen a sink value names (R185). -/
def State.sinkPen (s : State) (m : Cmd) (v : W64) : Option Nat :=
  if bitsOf v 63 19 = 0 then s.pidPen m.pen m.ctx (bitsOf v 15 0) else none

/-- The output a sink value names. -/
def Pen.sinkOut (p : Pen) (v : W64) : Option Nat :=
  let i := p.du.outs.findIdx (fun o => o.port.val = bitsOf v 18 16 && o.dest = .sink)
  if i < p.du.outs.length then some i else none

def abortDone (m : Cmd) (eng die detail : Nat) : Done := { cmd := m, eng := eng, die := die, code := 9, detail := BitVec.ofNat 32 detail }

/-- The answer of the demand unit of pen `h`. -/
def State.duDone (s : State) (h : Nat) (m : Cmd) : Done := { cmd := m, eng := agDemand, die := (s.pen h).die }

/-- Answer a command of the demand unit of pen `h`; its release is performed before the token (R168). -/
def State.duAnswer (s : State) (d : Done) : State := (if d.cmd.releases then s.releaseAt d.cmd (s.scopeOf d.cmd) else s).answer d

/-- Post [t0, t1) at a sink for a command (R185). -/
def State.postDemand (s : State) (m : Cmd) (h i t0 t1 : Nat) : State :=
  let o := (s.pen h).out i
  if t1 ≤ t0 then s.duAnswer { s.duDone h m with value := BitVec.ofNat 64 o.h }
  else s.modPen h (fun p =>
    let p := p.modOut i (fun o => { o with net := o.net ++ [{ ticks := [(t0, t1)], asker := .dmd m.id }] })
    { p with du := { p.du with posted := p.du.posted ++ [(m, i)] } })

/-- The answer of `dstat` (R185). -/
def dstatDone (m : Cmd) (die : Nat) (d : Demand) (o : Output) : Done :=
  { cmd := m, eng := agDemand, die := die, value := BitVec.ofNat 64 o.h, e4 := BitVec.ofNat 32 o.pend.length, e5 := BitVec.ofNat 32 o.w,
    e6 := BitVec.ofNat 32 d.w, e7 := BitVec.ofNat 32 (d.w / 2 ^ 32) }

/-- MODE of the stateful input in a stream record (R227). -/
def Demand.streamMode (d : Demand) : Nat := if d.has .stateful then 1 else if d.has .cached then 2 else 0

/-- A stream record (R227). -/
def State.streamRecord (s : State) (h : Nat) : List Byte :=
  let p := s.pen h
  let d := p.du
  let im := s.checkpoint h d.w
  let newest := d.log.getLast?
  padTo 64 (leBytes 8 (1 + d.streamMode * 2 ^ 8 + p.h * p.w % 2 ^ 16 * 2 ^ 16) ++ leBytes 8 d.w
      ++ leBytes 8 (d.outs.foldl (fun n o => max n o.h) 0) ++ leBytes 8 d.ckptWord.toNat ++ leBytes 8 im.length
      ++ leBytes 8 ((newest.map (·.1)).getD (2 ^ 64 - 1)))
    ++ im ++ ((newest.map (·.2)).getD [])

/-- An access of the demand unit faults: it parks under both policies where the reason allows, else it is answered (R344). -/
def State.demandFault (s : State) (m : Cmd) (h va : Nat) (acc : Acc) (x : XFault) : State :=
  let (s, i) := s.recordFault (s.who m acc.code agDemand (s.pen h).die 0) va x x.parkable
  if x.parkable then s.modDu h (fun d => { d with parked := some i, atBoundary := m :: d.atBoundary })
  else s.duAnswer { s.duDone h m with code := x.code, detail := x.e1 acc i, value := BitVec.ofNat 64 va }

/-- `lexp` at a tick boundary (R176, R227); poison in the record stays poison (R353). -/
def State.doLexp (s : State) (m : Cmd) (h : Nat) : State :=
  let bs := s.streamRecord h
  let d := (s.pen h).du
  let n := (s.checkpoint h d.w).length
  let bad := (s.checkpointBad h).map (64 + ·) ++ ((d.log.getLast?.bind (fun x => Tab.find d.logBad x.1)).getD []).map (64 + n + ·)
  match s.vwriteBy (some (s.agent m)) m.ctx m.cmd.toNat .wr bs with
  | .error x => s.demandFault m h m.cmd.toNat .wr x
  | .ok s => (s.markPoison m.ctx m.cmd.toNat bad).duAnswer { s.duDone h m with e4 := BitVec.ofNat 32 bs.length }

/-- `limp` (R176, R228). -/
def State.doLimp (s : State) (m : Cmd) (h : Nat) : State :=
  let p := s.pen h
  let d := p.du
  let va := m.cmd.toNat
  if d.outs.any (fun o => o.pend != [] || o.queue != [] || o.net != []) || d.run.isSome then s.duAnswer (abortDone m agDemand p.die 6)
  else match s.vread m.ctx va 64 with
    | .error x => s.demandFault m h va .rd x
    | .ok hd =>
      let w0 := wordAt hd 0
      let n := (wordAt hd 4).toNat
      let lab := wordAt hd 5
      let len := n + (if lab = BitVec.allOnes 64 then 0 else n)
      if va % 64 != 0 || d.streamMode = 0 || bitsOf w0 7 0 != 1 || bitsOf w0 9 8 != d.streamMode || bitsOf w0 31 16 != p.h * p.w
          || wordAt hd 3 != d.ckptWord || n != 64 + p.h * p.w * imageLen d.ckptWord then s.duAnswer (abortDone m agDemand p.die 1)
      else match s.vread m.ctx (va + 64) len with
        | .error x => s.demandFault m h (va + 64) .rd x
        | .ok bs =>
          let w := (wordAt hd 1).toNat
          let s := s.restoreImage h (bs.take n)
          let log : Tab (List Byte) := logPut 256 (if lab = BitVec.allOnes 64 then [] else [(lab.toNat, bs.drop n)]) w (bs.take n)
          let outs := (s.pen h).du.outs.map (fun o => { o with h := (wordAt hd 2).toNat, pend := [], queue := [], net := [], lost := [] })
          let s := (s.pen h).du.outs.foldl (fun s o =>
            (List.range (p.h * p.w)).foldl (fun s q => (List.range o.w).foldl (fun s t =>
              s.nearWrite (o.entryAt p q t) (leBytes 8 0)) s) s) s
          let s := s.modDu h (fun d => { d with w := w, log := log, logBad := [], outs := outs, last := none })
          s.duAnswer { s.duDone h m with e4 := BitVec.ofNat 32 (64 + len) }

/-- A command taken at a tick boundary (R176, R221); one of a context whose key slot is not its own raises the alarm instead (R355). -/
def State.boundaryCmd (s : State) (h : Nat) (m : Cmd) : State :=
  if !s.keyBound m.ctx then (s.alarmB (s.pen h).die m.ctx).modDu h (fun d => { d with atBoundary := d.atBoundary ++ [m] })
  else match m.word with
  | .ckpt .. => (s.writeCheckpoint h).duAnswer { s.duDone h m with value := BitVec.ofNat 64 (s.pen h).du.w }
  | .lexp .. | .exportRec => s.doLexp m h
  | .limp .. | .importRec => s.doLimp m h
  | _ => s

/-- Take the commands that wait for a tick boundary, unless an access is parked. -/
def State.boundaryCmds (s : State) (h : Nat) : State :=
  let d := (s.pen h).du
  if d.parked.isSome then s
  else d.atBoundary.foldl (fun s m => s.boundaryCmd h m) (s.modDu h (fun d => { d with atBoundary := [] }))

/-- The parked accesses of a pen's demand unit that a FRPTR write has freed retry at once where the pen stands between ticks, else at the
boundary that comes next (R345). -/
def State.retryBoundary (s : State) (h : Nat) : State :=
  let p := s.pen h
  if p.live && !p.ended && p.frozen = .running && !p.inTick then s.boundaryCmds h else s

/-- A command is taken now where the pen stands at a boundary with nothing to run, else at the next boundary (R221). -/
def State.atBoundary (s : State) (h : Nat) (m : Cmd) : State :=
  let s := s.modDu h (fun d => { d with atBoundary := d.atBoundary ++ [m] })
  let p := s.pen h
  if !p.inTick && p.du.run.isNone then s.boundaryCmds h else s

/-- Perform one command of the demand unit of pen `h` (R185, R176). -/
def State.demandCmd (s : State) (h : Nat) (m : Cmd) : State :=
  let p := s.pen h
  let big := bitsOf m.a 63 48 != 0 || bitsOf m.b 63 48 != 0
  let bound : Done := { s.duDone h m with code := 3, detail := 4, value := if bitsOf m.a 63 48 != 0 then m.a else m.b }
  match m.word with
  | .dmd .. | .demand | .replay =>
    match p.sinkOut m.cmd with
    | none => s.duAnswer (abortDone m agDemand p.die 1)
    | some i => if big then s.duAnswer bound else s.postDemand m h i m.a.toNat m.b.toNat
  | .dret .. =>
    match p.sinkOut m.cmd with
    | none => s.duAnswer (abortDone m agDemand p.die 1)
    | some i =>
      if big then s.duAnswer bound
      else
        let (s, n) := s.retract h i m.a.toNat m.b.toNat
        s.duAnswer { s.duDone h m with e4 := BitVec.ofNat 32 n }
  | .dstat .. =>
    match p.sinkOut m.cmd with
    | none => s.duAnswer (abortDone m agDemand p.die 1)
    | some i => s.duAnswer (dstatDone m p.die p.du (p.out i))
  | .ckpt .. => if p.du.keeps then s.atBoundary h m else s.duAnswer (abortDone m agDemand p.die 1)
  | .lexp .. | .exportRec =>
    if m.cmd.toNat % 64 != 0 || p.du.streamMode = 0 then s.duAnswer (abortDone m agDemand p.die 1) else s.atBoundary h m
  | .limp .. | .importRec => s.doLimp m h
  | _ => s

/-- DEMAND_UNIT_COMMAND: the oldest command accepted by a pen's demand units is performed (R166, R185), ordered as ORD says: a posting
counts as a write (R168). -/
def execDemandUnitCommand (h : Nat) (s : State) : Out :=
  let d := (s.pen h).du
  match d.inbox with
  | [] => .next s
  | m :: rest =>
    let s := s.askFlush m false
    if d.parked.isSome || !s.mayRelease m then .next s
    else
      let s := if m.releases then s.releaseAt m (s.scopeOf m) else s
      let s := if m.acquires then s.acquireAt m (s.scopeOf m) else s
      s.keyGuard (s.pen h).die m.ctx ((s.modDu h (fun d => { d with inbox := rest })).demandCmd h m)

end Sys2Proof.Machine
end

