-- ==== Sys2Proof/Machine/Vector.lean ====
section
/-! DEFINITION. The V column's elementwise words: arithmetic, estimates, exponents, conversion, comparison, selection, logic,
shifts and `vdot` (R112 to R122). Each word has a plan; its meaning issues the plan, and CHUNK_ISSUE runs its later
chunks. -/

namespace Sys2Proof.Machine

open Sys2Proof

/-- A one-source elementwise plan. -/
def plan1 (h : Hdr) (o : V1) (lat : Nat) (f : Rnd → Nat → Nat × Flags) : VPlan :=
  let rm := o.rm
  let sat := o.sat
  { h := h, lat := lat, srcs := [(o.a, o.ty)], rm := rm, sat := sat
    body := fun j _ st lss =>
      let w := o.ty.lane
      let (ls, fl) := elemLanes st (256 / w) j lss (fun e vs =>
        f { rm := rm, sat := sat, thr := if rm = .dither then ditherElem st.phase.toNat e else 0 } (vs.getD 0 0))
      ([vdest o.d w j ls], fl, st) }

/-- The values of A and B, B from a scalar when SB is set (R108). -/
def pickB (w : Nat) (b : VOpd) (st : Stream) (vs : List Nat) : Nat :=
  match b with
  | .src _ => vs.getD 1 0
  | .s _ => st.x1.toNat % 2 ^ w

/-- The value of C, from a scalar when SC is set (R108). -/
def pickC (w : Nat) (c : VOpd) (st : Stream) (vs : List Nat) : Nat :=
  match c with
  | .src _ => vs.getLastD 0
  | .s _ => st.x2.toNat % 2 ^ w

/-- A two-source elementwise plan; `bty` is the format in which a port in B is read. -/
def plan2 (h : Hdr) (o : V2) (lat : Nat) (f : Rnd → Nat → Nat → Nat × Flags) : VPlan :=
  let rm := o.rm
  let sat := o.sat
  { h := h, lat := lat, srcs := (o.a, o.ty) :: o.b.srcs o.ty, x1 := o.b.sreg, rm := rm, sat := sat
    body := fun j _ st lss =>
      let w := o.ty.lane
      let (ls, fl) := elemLanes st (256 / w) j lss (fun e vs =>
        f { rm := rm, sat := sat, thr := if rm = .dither then ditherElem st.phase.toNat e else 0 } (vs.getD 0 0)
          (pickB w o.b st vs))
      ([vdest o.d w j ls], fl, st) }

/-- A fused plan (R112). -/
def plan3 (h : Hdr) (o : V3) (lat : Nat) (f : Rnd → Nat → Nat → Nat → Nat × Flags) : VPlan :=
  let rm := o.rm
  let sat := o.sat
  { h := h, lat := lat, srcs := (o.a, o.ty) :: (o.b.srcs o.ty ++ o.c.srcs o.ty), x1 := o.b.sreg, x2 := o.c.sreg, rm := rm
    sat := sat
    body := fun j _ st lss =>
      let w := o.ty.lane
      let (ls, fl) := elemLanes st (256 / w) j lss (fun e vs =>
        f { rm := rm, sat := sat, thr := if rm = .dither then ditherElem st.phase.toNat e else 0 } (vs.getD 0 0)
          (pickB w o.b st vs) (pickC w o.c st vs))
      ([vdest o.d w j ls], fl, st) }

/-- The plan of a logic, shift or selection word (R121). -/
def planB (h : Hdr) (o : VB) (f : Nat → Nat → Nat) : VPlan :=
  { h := h, lat := 2, srcs := (o.a, o.ty) :: o.b.srcs o.ty, x1 := o.b.sreg
    body := fun j _ st lss =>
      let w := o.ty.lane
      let (ls, fl) := elemLanes st (256 / w) j lss (fun _ vs => (f (vs.getD 0 0) (pickB w o.b st vs), 0))
      ([vdest o.d w j ls], fl, st) }

/-! ### Arithmetic (R112 to R114) -/

def vaddPlan (h : Hdr) (o : V2) : VPlan :=
  plan2 h o 2 (fun r a b =>
    if o.ty.unscaledInt then fixW o.ty r.sat (o.ty.intVal a + o.ty.intVal b) else fpAdd o.ty r false (.dec o.ty a) (.dec o.ty b))

def vsubPlan (h : Hdr) (o : V2) : VPlan :=
  plan2 h o 2 (fun r a b =>
    if o.ty.unscaledInt then fixW o.ty r.sat (o.ty.intVal a - o.ty.intVal b) else fpAdd o.ty r true (.dec o.ty a) (.dec o.ty b))

def vmulPlan (h : Hdr) (o : V2) : VPlan :=
  plan2 h o 4 (fun r a b =>
    if o.ty.unscaledInt then fixW o.ty r.sat (o.ty.intVal a * o.ty.intVal b) else fpMul o.ty r (.dec o.ty a) (.dec o.ty b))

def vfmaPlan (h : Hdr) (o : V3) : VPlan :=
  plan3 h o 4 (fun r a b c =>
    if o.ty.unscaledInt then fixW o.ty r.sat (o.ty.intVal a * o.ty.intVal b + o.ty.intVal c)
    else fpFused o.ty r false false 0 (.dec o.ty a) (.dec o.ty b) (.dec o.ty c))

def vfmsPlan (h : Hdr) (o : V3) : VPlan :=
  plan3 h o 4 (fun r a b c =>
    if o.ty.unscaledInt then fixW o.ty r.sat (o.ty.intVal a * o.ty.intVal b - o.ty.intVal c)
    else fpFused o.ty r false true 0 (.dec o.ty a) (.dec o.ty b) (.dec o.ty c))

def vfnmaPlan (h : Hdr) (o : V3) : VPlan :=
  plan3 h o 4 (fun r a b c =>
    if o.ty.unscaledInt then fixW o.ty r.sat (o.ty.intVal c - o.ty.intVal a * o.ty.intVal b)
    else fpFused o.ty r true false 0 (.dec o.ty a) (.dec o.ty b) (.dec o.ty c))

def vminPlan (h : Hdr) (o : V2) : VPlan := plan2 h o 2 (fun _ a b => minMax o.ty false a b)

def vmaxPlan (h : Hdr) (o : V2) : VPlan := plan2 h o 2 (fun _ a b => minMax o.ty true a b)

def vabsPlan (h : Hdr) (o : V1) : VPlan := plan1 h o 2 (fun r a => absNeg o.ty r.sat false a)

def vnegPlan (h : Hdr) (o : V1) : VPlan := plan1 h o 2 (fun r a => absNeg o.ty r.sat true a)

/-! ### Estimates and exponents (R115 to R117) -/

def vrcpPlan (h : Hdr) (o : V1) : VPlan := plan1 h o 5 (fun r a => fpRcp o.ty r (.dec o.ty a))

def vrsqPlan (h : Hdr) (o : V1) : VPlan := plan1 h o 5 (fun r a => fpRsq o.ty r (.dec o.ty a))

def vrcpsPlan (h : Hdr) (o : V2) : VPlan := plan2 h o 4 (fun r a b => fpRcps o.ty r (.dec o.ty a) (.dec o.ty b))

def vrsqsPlan (h : Hdr) (o : V2) : VPlan := plan2 h o 4 (fun r a b => fpRsqs o.ty r (.dec o.ty a) (.dec o.ty b))

def vexp2Plan (h : Hdr) (o : V1) : VPlan := plan1 h o 8 (fun r a => fpExp2 o.ty r (.dec o.ty a))

def vlog2Plan (h : Hdr) (o : V1) : VPlan := plan1 h o 8 (fun r a => fpLog2 o.ty r (.dec o.ty a))

/-- n is B's lane read as a signed integer (R117). -/
def vscalePlan (h : Hdr) (o : V2) : VPlan := plan2 h o 3 (fun r a b => fpScale o.ty r (.dec o.ty a) (signed o.ty.lane b))

def vfrexpFracPlan (h : Hdr) (d : VDst) (a : VSrc) (ty : Fmt) : VPlan :=
  plan1 h { d := d, a := a, ty := ty } 3 (fun _ a => fpFrac ty (.dec ty a))

def vfrexpExpPlan (h : Hdr) (d : VDst) (a : VSrc) (ty : Fmt) : VPlan :=
  plan1 h { d := d, a := a, ty := ty } 3 (fun _ a =>
    let r := fpExp (.dec ty a)
    (wrapN ty.lane r.1, r.2))

def vroundPlan (h : Hdr) (d : VDst) (a : VSrc) (ty : Fmt) (rm : Rm) : VPlan :=
  plan1 h { d := d, a := a, ty := ty, rm := rm } 3 (fun r a => fpRound ty r (.dec ty a))

/-! ### Conversion (R118, R119) -/

/-- The encoded scale of element `i` (R119). -/
def scaleOf (f : Fmt) (c : VWord) (i : Nat) : Nat :=
  if f.block = 0 then velem c 32 0 else velem c (8 * f.scale.bytes) (i / f.block)

/-- One element of `vcvt`. -/
def cvtElem (td ts : Fmt) (c : VWord) (r : Rnd) (i x : Nat) : Nat × Flags :=
  if ts.scaled then
    let sc := scaleOf ts c i
    let y := (scaledVal ts x sc).finish td r
    let bad := match ts.scale.dec sc with
      | .fin .. => false
      | _ => true
    (y.1, y.2 ||| Flags.when bad Flags.iv)
  else if td.scaled then encScaled td r (.dec ts x) (scaleOf td c i)
  else convert td ts r x

/-- Lanes of destination chunk `j` of a word with a whole source: the word's `total` elements at width `w`, from `f`. A lane
beyond the last element is inactive (R118). -/
def wholeLanes (st : Stream) (w total j : Nat) (f : Nat → Nat × Flags) : List Lane × Flags :=
  let n := 256 / w
  elemLanes st n j [] (fun e _ => if e < total then f e else (0, 0)) |> fun r =>
    (r.1.zipIdx.map (fun x => (x.1.1, x.1.2 && decide (j * n + x.2 < total))), r.2)

/-- Write a destination chunk only where it holds elements (R118, R49). -/
def wholeDest (d : VDst) (st : Stream) (w total j : Nat) (f : Nat → Nat × Flags) : List Write × Flags × Stream :=
  if total ≤ j * (256 / w) then ([], 0, st)
  else
    let (ls, fl) := wholeLanes st w total j f
    ([vdest d w j ls], fl, st)

def vcvtPlan (h : Hdr) (d : VDst) (a : VSrc) (td ts : Fmt) (c : Fin 32) (rm : Rm) (sat : Bool) : VPlan :=
  let whole := td.lane != ts.lane
  { h := h, lat := 3, rm := rm, sat := sat, srcs := if whole then [] else [(a, ts)]
    w1 := if whole then (match a with
      | .v r => some r
      | .rx _ => none) else none
    w2 := if td.scaled || ts.scaled then some c else none
    body := fun j _ st lss =>
      let rnd := fun (e : Nat) => ({ rm := rm, sat := sat, thr := if rm = .dither then ditherElem st.phase.toNat e else 0 } : Rnd)
      if whole then
        wholeDest d st td.lane (256 * h.beats / max td.lane ts.lane) j
          (fun e => cvtElem td ts st.w2 (rnd e) e (velem st.w1 ts.lane e % 2 ^ ts.bits))
      else
        let w := td.lane
        let (ls, fl) := elemLanes st (256 / w) j lss (fun e vs => cvtElem td ts st.w2 (rnd e) e (vs.getD 0 0 % 2 ^ ts.bits))
        ([vdest d w j ls], fl, st) }

def vpackPlan (h : Hdr) (d : VDst) (a b : Fin 32) (td ts : Fmt) (rm : Rm) (sat : Bool) : VPlan :=
  { h := h, lat := 3, rm := rm, sat := sat, w1 := some a, w2 := some b
    body := fun j _ st _ =>
      let n := 256 * h.beats / ts.lane
      wholeDest d st td.lane (2 * n) j (fun e =>
        let r : Rnd := { rm := rm, sat := sat, thr := if rm = .dither then ditherElem st.phase.toNat e else 0 }
        convert td ts r (if e < n then velem st.w1 ts.lane e else velem st.w2 ts.lane (e - n))) }

def vunpkPlan (h : Hdr) (d : VDst) (a : Fin 32) (td ts : Fmt) (hi : Bool) (rm : Rm) (sat : Bool) : VPlan :=
  { h := h, lat := 3, rm := rm, sat := sat, w1 := some a
    body := fun j _ st _ =>
      let n := 256 * h.beats / td.lane
      wholeDest d st td.lane n j (fun e =>
        let r : Rnd := { rm := rm, sat := sat, thr := if rm = .dither then ditherElem st.phase.toNat e else 0 }
        convert td ts r (velem st.w1 ts.lane ((if hi then n else 0) + e))) }

/-! ### Comparison, selection, logic and shifts (R121) -/

/-- The conditions of R89 and R121 on two lanes. -/
def cmpLane (ty : Fmt) (cc : Cc) (x y : Nat) : Bool × Flags :=
  if ty.unscaledInt then
    let a := ty.intVal x
    let b := ty.intVal y
    (match cc with
      | .eq => x = y
      | .ne => x != y
      | .lt => a < b
      | .le => a ≤ b
      | .ltz => x < y
      | .lez => x ≤ y
      | .un | .ord => false, 0)
  else
    let a := FVal.dec ty x
    let b := FVal.dec ty y
    let nan := a.isNan || b.isNan
    let sig := a.isSig || b.isSig
    match cc with
    | .eq => (a.eqN b, Flags.when sig Flags.iv)
    | .ne => (nan || !a.eqN b, Flags.when sig Flags.iv)
    | .lt => (!nan && a.ltN b, Flags.when nan Flags.iv)
    | .le => (!nan && !b.ltN a, Flags.when nan Flags.iv)
    | .un => (nan, Flags.when sig Flags.iv)
    | .ord => (!nan, Flags.when sig Flags.iv)
    | .ltz | .lez => (false, 0)

/-- Bits `j·n` to `j·n + n - 1` of a predicate register (R121). -/
def qdest (q : Fin 16) (n j : Nat) (ls : List Lane) : Write :=
  .q q (BitVec.ofNat 256 (packLanes 1 (ls.map (·.1)) * 2 ^ (n * j)))
    (BitVec.ofNat 256 (packLanes 1 (ls.map (fun l => if l.2 then 1 else 0)) * 2 ^ (n * j)))

def vcmpPlan (h : Hdr) (cc : Cc) (qd : Fin 16) (a : VSrc) (b : VOpd) (ty : Fmt) : VPlan :=
  { h := h, lat := 2, srcs := (a, ty) :: b.srcs ty, x1 := b.sreg
    body := fun j _ st lss =>
      let w := ty.lane
      let (ls, fl) := elemLanes st (256 / w) j lss (fun _ vs =>
        let r := cmpLane ty cc (vs.getD 0 0) (pickB w b st vs)
        (if r.1 then 1 else 0, r.2))
      ([qdest qd (256 / w) j ls], fl, st) }

/-- q[C] is read on the word's issue beat (log 38). -/
def vselPlan (h : Hdr) (o : VB) (qc : Fin 16) : VPlan :=
  { h := h, lat := 2, srcs := (o.a, o.ty) :: o.b.srcs o.ty, x1 := o.b.sreg, q1 := some qc
    body := fun j _ st lss =>
      let w := o.ty.lane
      let (ls, fl) := elemLanes st (256 / w) j lss (fun e vs =>
        (if st.x3.getLsbD e then vs.getD 0 0 else pickB w o.b st vs, 0))
      ([vdest o.d w j ls], fl, st) }

def vandPlan (h : Hdr) (o : VB) : VPlan := planB h o (fun a b => a &&& b)

def vorPlan (h : Hdr) (o : VB) : VPlan := planB h o (fun a b => a ||| b)

def vxorPlan (h : Hdr) (o : VB) : VPlan := planB h o (fun a b => a ^^^ b)

/-- A count of the lane width or more gives 0. -/
def vshlPlan (h : Hdr) (o : VB) : VPlan :=
  planB h o (fun a c => if o.ty.lane ≤ c then 0 else a * 2 ^ c % 2 ^ o.ty.lane)

def vshrPlan (h : Hdr) (o : VB) : VPlan := planB h o (fun a c => if o.ty.lane ≤ c then 0 else a / 2 ^ c)

/-- A count of the lane width or more gives copies of the sign bit. -/
def vsraPlan (h : Hdr) (o : VB) : VPlan :=
  planB h o (fun a c => wrapN o.ty.lane (o.ty.intVal a / 2 ^ (min c o.ty.lane)))

/-- min(max(A, B), C): C wins when B > C. -/
def vclampPlan (h : Hdr) (o : VB) (c : VOpd) : VPlan :=
  plan3 h { d := o.d, a := o.a, b := o.b, c := c, ty := o.ty } 2 (fun _ a b c =>
    let x := minMax o.ty true a b
    let y := minMax o.ty false x.1 c
    (y.1, x.2 ||| y.2))

/-! ### Exact sums of products (R33, R122) -/

/-- A sum as R33 has it: a NaN, an infinity, or an exact number. -/
inductive BSum
  | nan
  | inf (neg : Bool)
  | fin (d : Dy)
deriving DecidableEq, Repr, Inhabited

def BSum.add (a b : BSum) : BSum :=
  match a, b with
  | .nan, _ | _, .nan => .nan
  | .inf n, .inf k => if n = k then .inf n else .nan
  | .inf n, _ => .inf n
  | _, .inf k => .inf k
  | .fin x, .fin y => .fin (x.add y)

/-- A product as a term of R33. -/
def BSum.ofMul (a b : FVal) : BSum :=
  match a.mul b with
  | none => .nan
  | some (.inf n) => .inf n
  | some v => .fin v.dy

/-- Sum of the products of two lists. -/
def dotSum (xs ys : List FVal) : BSum :=
  (xs.zip ys).foldl (fun s p => s.add (BSum.ofMul p.1 p.2)) (.fin ⟨0, 0⟩)

/-- Add a value to a sum and finish with one rounding; a NaN or infinities of both signs give the default NaN and IV
(R33, R122). -/
def BSum.finish (s : BSum) (f : Fmt) (r : Rnd) (c : FVal) : Nat × Flags :=
  match s, c with
  | .nan, _ => (f.dnan, Flags.iv)
  | _, .nan sig => (f.dnan, Flags.when sig Flags.iv)
  | .inf n, .inf k => if n = k then finishInf f r n else (f.dnan, Flags.iv)
  | .inf n, _ => finishInf f r n
  | .fin _, .inf k => finishInf f r k
  | .fin d, c => (d.add c.dy).finish f r

/-- `vdot` (R122): lane i of the 32-bit result takes g = 32/w products. -/
def vdotPlan (h : Hdr) (o : V2) (c : VSrc) : VPlan :=
  let rm := o.rm
  let sat := o.sat
  let cty : Fmt := if o.ty.isFP then .fp32 else .int32
  let w := o.ty.lane
  let g := 32 / w
  { h := h, lat := 4, srcs := (o.a, o.ty) :: (o.b.srcs o.ty ++ [(c, cty)]), wide := 32, x1 := o.b.sreg, rm := rm, sat := sat
    body := fun j _ st lss =>
      let la := lss.getD 0 []
      let lb := match o.b with
        | .src _ => lss.getD 1 []
        | .s _ => List.replicate (256 / w) (st.x1.toNat % 2 ^ w, true)
      let lc := lss.getLastD []
      let one := fun (i : Nat) =>
        let xa := (la.drop (g * i)).take g
        let xb := (lb.drop (g * i)).take g
        let xc := lc.getD i (0, false)
        let e := 8 * j + i
        if st.act e && xa.all (·.2) && xb.all (·.2) && xc.2 then
          let r : Rnd := { rm := rm, sat := sat, thr := if rm = .dither then ditherElem st.phase.toNat e else 0 }
          let y := if o.ty.isFP then
              (dotSum (xa.map (fun x => .dec o.ty x.1)) (xb.map (fun x => .dec o.ty x.1))).finish .fp32 r (.dec .fp32 xc.1)
            else fixW .int32 sat (((xa.zip xb).foldl (fun s p => s + o.ty.intVal p.1.1 * o.ty.intVal p.2.1) 0)
              + Fmt.intVal .int32 xc.1)
          (((y.1, true) : Lane), y.2)
        else ((0, false), 0)
      let r := (List.range 8).map one
      ([vdest o.d 32 j (r.map (·.1))], r.foldl (fun a x => a ||| x.2) 0, st) }

/-! ### The meanings -/

def execVadd (h : Hdr) (o : V2) (s : State) : Out := .next (s.vIssue (.vadd h o) (vaddPlan h o))
def execVsub (h : Hdr) (o : V2) (s : State) : Out := .next (s.vIssue (.vsub h o) (vsubPlan h o))
def execVmul (h : Hdr) (o : V2) (s : State) : Out := .next (s.vIssue (.vmul h o) (vmulPlan h o))
def execVfma (h : Hdr) (o : V3) (s : State) : Out := .next (s.vIssue (.vfma h o) (vfmaPlan h o))
def execVfms (h : Hdr) (o : V3) (s : State) : Out := .next (s.vIssue (.vfms h o) (vfmsPlan h o))
def execVfnma (h : Hdr) (o : V3) (s : State) : Out := .next (s.vIssue (.vfnma h o) (vfnmaPlan h o))
def execVmin (h : Hdr) (o : V2) (s : State) : Out := .next (s.vIssue (.vmin h o) (vminPlan h o))
def execVmax (h : Hdr) (o : V2) (s : State) : Out := .next (s.vIssue (.vmax h o) (vmaxPlan h o))
def execVabs (h : Hdr) (o : V1) (s : State) : Out := .next (s.vIssue (.vabs h o) (vabsPlan h o))
def execVneg (h : Hdr) (o : V1) (s : State) : Out := .next (s.vIssue (.vneg h o) (vnegPlan h o))
def execVrcp (h : Hdr) (o : V1) (s : State) : Out := .next (s.vIssue (.vrcp h o) (vrcpPlan h o))
def execVrsq (h : Hdr) (o : V1) (s : State) : Out := .next (s.vIssue (.vrsq h o) (vrsqPlan h o))
def execVrcps (h : Hdr) (o : V2) (s : State) : Out := .next (s.vIssue (.vrcps h o) (vrcpsPlan h o))
def execVrsqs (h : Hdr) (o : V2) (s : State) : Out := .next (s.vIssue (.vrsqs h o) (vrsqsPlan h o))
def execVexp2 (h : Hdr) (o : V1) (s : State) : Out := .next (s.vIssue (.vexp2 h o) (vexp2Plan h o))
def execVlog2 (h : Hdr) (o : V1) (s : State) : Out := .next (s.vIssue (.vlog2 h o) (vlog2Plan h o))
def execVscale (h : Hdr) (o : V2) (s : State) : Out := .next (s.vIssue (.vscale h o) (vscalePlan h o))
def execVfrexpFrac (h : Hdr) (d : VDst) (a : VSrc) (ty : Fmt) (s : State) : Out :=
  .next (s.vIssue (.vfrexpFrac h d a ty) (vfrexpFracPlan h d a ty))
def execVfrexpExp (h : Hdr) (d : VDst) (a : VSrc) (ty : Fmt) (s : State) : Out :=
  .next (s.vIssue (.vfrexpExp h d a ty) (vfrexpExpPlan h d a ty))
def execVround (h : Hdr) (d : VDst) (a : VSrc) (ty : Fmt) (rm : Rm) (s : State) : Out :=
  .next (s.vIssue (.vround h d a ty rm) (vroundPlan h d a ty rm))
def execVcvt (h : Hdr) (d : VDst) (a : VSrc) (td ts : Fmt) (c : Fin 32) (rm : Rm) (sat : Bool) (s : State) : Out :=
  .next (s.vIssue (.vcvt h d a td ts c rm sat) (vcvtPlan h d a td ts c rm sat))
def execVpack (h : Hdr) (d : VDst) (a b : Fin 32) (td ts : Fmt) (rm : Rm) (sat : Bool) (s : State) : Out :=
  .next (s.vIssue (.vpack h d a b td ts rm sat) (vpackPlan h d a b td ts rm sat))
def execVunpk (h : Hdr) (d : VDst) (a : Fin 32) (td ts : Fmt) (hi : Bool) (rm : Rm) (sat : Bool) (s : State) : Out :=
  .next (s.vIssue (.vunpk h d a td ts hi rm sat) (vunpkPlan h d a td ts hi rm sat))
def execVcmp (h : Hdr) (cc : Cc) (qd : Fin 16) (a : VSrc) (b : VOpd) (ty : Fmt) (s : State) : Out :=
  .next (s.vIssue (.vcmp h cc qd a b ty) (vcmpPlan h cc qd a b ty))
def execVsel (h : Hdr) (o : VB) (qc : Fin 16) (s : State) : Out := .next (s.vIssue (.vsel h o qc) (vselPlan h o qc))
def execVand (h : Hdr) (o : VB) (s : State) : Out := .next (s.vIssue (.vand h o) (vandPlan h o))
def execVor (h : Hdr) (o : VB) (s : State) : Out := .next (s.vIssue (.vor h o) (vorPlan h o))
def execVxor (h : Hdr) (o : VB) (s : State) : Out := .next (s.vIssue (.vxor h o) (vxorPlan h o))
def execVshl (h : Hdr) (o : VB) (s : State) : Out := .next (s.vIssue (.vshl h o) (vshlPlan h o))
def execVshr (h : Hdr) (o : VB) (s : State) : Out := .next (s.vIssue (.vshr h o) (vshrPlan h o))
def execVsra (h : Hdr) (o : VB) (s : State) : Out := .next (s.vIssue (.vsra h o) (vsraPlan h o))
def execVclamp (h : Hdr) (o : VB) (c : VOpd) (s : State) : Out := .next (s.vIssue (.vclamp h o c) (vclampPlan h o c))
def execVdot (h : Hdr) (o : V2) (c : VSrc) (s : State) : Out := .next (s.vIssue (.vdot h o c) (vdotPlan h o c))

end Sys2Proof.Machine
end

