-- ==== Sys2Proof/Machine/VectorMove.lean ====
section
/-! DEFINITION. The V column's reductions, selections, moves, reflector and renormalisation (R123 to R127, R130, R131). -/

namespace Sys2Proof.Machine

open Sys2Proof

/-! ### Collecting a gathered word's elements -/

/-- A gathering word's stream after chunk `j`: its lanes and which take part (R107, R110). -/
def Stream.collect (st : Stream) (w j : Nat) (ls : List Lane) : Stream :=
  let n := 256 / w
  let act := ls.zipIdx.map (fun x => if x.1.2 && st.act (j * n + x.2) then 1 else 0)
  { st with
    acc1 := st.acc1 ||| BitVec.ofNat 2048 (packLanes w (ls.map (·.1)) * 2 ^ (256 * j))
    lanes := st.lanes ||| BitVec.ofNat 256 (packLanes 1 act * 2 ^ (n * j)) }

/-- Elements that take part, in ascending order, with their index (R34). -/
def Stream.active (st : Stream) (w total : Nat) : List (Nat × Nat) :=
  ((List.range total).filter (fun e => st.lanes.getLsbD e)).map (fun e => (e, velem st.acc1 w e))

/-- A plan that collects A chunk by chunk and finishes after the last one (R107). -/
def gatherPlan (h : Hdr) (lat : Nat) (a : VSrc) (ty : Fmt) (rm : Rm) (sat : Bool)
    (fin : Stream → Nat → List Write × Flags) : VPlan :=
  { h := h, lat := lat, gather := true, srcs := [(a, ty)], rm := rm, sat := sat
    body := fun j _ st lss =>
      let st := st.collect ty.lane j (lss.getD 0 [])
      let r := fin st (h.elems ty.lane)
      (r.1, r.2, st) }

/-! ### Reductions (R123, R124) -/

/-- The identity of an operation (R123). -/
def redIdent (ty : Fmt) (op : RedOp) : Nat :=
  match op with
  | .sum | .absmax | .or | .xor => 0
  | .and => 2 ^ ty.lane - 1
  | .min => if ty.unscaledInt then wrapN ty.bits ty.intRange.2 else (finishInf ty {} false).1
  | .max => if ty.unscaledInt then wrapN ty.bits ty.intRange.1 else (finishInf ty {} true).1

/-- An element as it enters a reduction: its absolute value for absmax, in which SAT changes nothing; a NaN becomes the default NaN
(R28, R123). -/
def redEnter (ty : Fmt) (op : RedOp) (x : Nat) : Nat × Flags :=
  if ty.unscaledInt then (if op = .absmax then absNeg ty false false x else (x, 0))
  else
    let a := FVal.dec ty x
    if a.isNan then (ty.dnan, Flags.when a.isSig Flags.iv)
    else if op = .absmax then absNeg ty false false x else (x, 0)

/-- One combination (R34, R123). -/
def redStep (ty : Fmt) (op : RedOp) (r : Rnd) (acc x : Nat) : Nat × Flags :=
  match op with
  | .sum =>
    if ty.unscaledInt then fixW ty r.sat (ty.intVal acc + ty.intVal x) else fpAdd ty r false (.dec ty acc) (.dec ty x)
  | .min => minMax ty false acc x
  | .max | .absmax => minMax ty true acc x
  | .and => (acc &&& x, 0)
  | .or => (acc ||| x, 0)
  | .xor => (acc ^^^ x, 0)

/-- Combine elements in ascending order: every partial result with its index, and the flags (R34). -/
def redAll (ty : Fmt) (op : RedOp) (rnd : Nat → Rnd) : List (Nat × Nat) → Option Nat → Flags → List (Nat × Nat) × Flags
  | [], _, f => ([], f)
  | (e, x) :: rest, acc, f =>
    let (x, fx) := redEnter ty op x
    let (y, fy) : Nat × Flags := match acc with
      | none => (x, 0)
      | some a => redStep ty op (rnd e) a x
    let (out, f) := redAll ty op rnd rest (some y) (f ||| fx ||| fy)
    ((e, y) :: out, f)

/-- Rounding of logical element e (R27). -/
def rndOf (rm : Rm) (sat : Bool) (st : Stream) (e : Nat) : Rnd :=
  { rm := rm, sat := sat, thr := if rm = .dither then ditherElem st.phase.toNat e else 0 }

/-- Lanes from a list of indexed values; every other lane is inactive. -/
def lanesAt (total : Nat) (xs : List (Nat × Nat)) : List Lane :=
  (List.range total).map (fun i => match xs.find? (fun x => x.1 = i) with
    | some x => (x.2, true)
    | none => (0, false))

/-- `vred`: element 0, written even when nothing is active. -/
def vredPlan (h : Hdr) (op : RedOp) (d : Fin 32) (a : VSrc) (ty : Fmt) (rm : Rm) (sat : Bool) : VPlan :=
  gatherPlan h 6 a ty rm sat (fun st n =>
    let (out, f) := redAll ty op (rndOf rm sat st) (st.active ty.lane n) none 0
    let v := match out.getLast? with
      | some x => x.2
      | none => redIdent ty op
    ([vwrite d ty.lane 0 [(v, true)]], f))

def vscanPlan (h : Hdr) (op : RedOp) (d : Fin 32) (a : VSrc) (ty : Fmt) (rm : Rm) (sat : Bool) : VPlan :=
  gatherPlan h 6 a ty rm sat (fun st n =>
    let (out, f) := redAll ty op (rndOf rm sat st) (st.active ty.lane n) none 0
    ([vwrite d ty.lane 0 (lanesAt n out)], f))

/-- `vmred` (R124): A values, B keys, leaders in q[C]. -/
def vmredPlan (h : Hdr) (op : RedOp) (d : Fin 32) (a b : VSrc) (qc : Fin 16) (ty : Fmt) (rm : Rm) (sat : Bool) : VPlan :=
  { h := h, lat := 10, gather := true, srcs := [(a, ty), (b, ty)], rm := rm, sat := sat
    body := fun j _ st lss =>
      let w := ty.lane
      let la := lss.getD 0 []
      let lb := lss.getD 1 []
      let st := st.collect w j ((la.zip lb).map (fun x => (x.1.1, x.1.2 && x.2.2)))
      let st := { st with acc2 := st.acc2 ||| BitVec.ofNat 2048 (packLanes w (lb.map (·.1)) * 2 ^ (256 * j)) }
      let n := h.elems w
      let els := st.active w n
      let key := fun (e : Nat) => velem st.acc2 w e
      let group := fun (e : Nat) => els.filter (fun x => key x.1 = key e)
      let res := els.map (fun x => (x.1, redAll ty op (rndOf rm sat st) (group x.1) none 0))
      let vals := res.map (fun x => (x.1, (x.2.1.getLast?.map (·.2)).getD 0))
      let fl := res.foldl (fun f x => f ||| x.2.2) 0
      let lead := (List.range n).map (fun e => (if (els.any (·.1 = e)) && ((group e).head?.map (·.1)) = some e then 1 else 0, true))
      ([vwrite d w 0 (lanesAt n vals), qdest qc n 0 lead], fl, st) }

/-! ### `vtopk` (R125) -/

/-- Does element x rank before y: larger value first, lower index on a tie; a NaN below every number. -/
def rankBefore (ty : Fmt) (x y : Nat × Nat) : Bool :=
  if ty.unscaledInt then
    let a := ty.intVal x.2
    let b := ty.intVal y.2
    b < a || (a = b && x.1 < y.1)
  else
    let a := FVal.dec ty x.2
    let b := FVal.dec ty y.2
    if a.isNan then b.isNan && x.1 < y.1
    else b.isNan || b.ltN a || (!a.ltN b && x.1 < y.1)

/-- Insertion into a ranked list. -/
def rankInsert (ty : Fmt) (x : Nat × Nat) : List (Nat × Nat) → List (Nat × Nat)
  | [] => [x]
  | y :: ys => if rankBefore ty x y then x :: y :: ys else y :: rankInsert ty x ys

/-- What a missing candidate's place receives. -/
def topkFill (ty : Fmt) (val : Bool) : Nat :=
  if !val then 2 ^ ty.lane - 1
  else if ty.unscaledInt then wrapN ty.bits ty.intRange.1 else (finishInf ty {} true).1

/-- `vtopk` moves elements: a selected NaN is written with its own bits (log 91). -/
def vtopkPlan (h : Hdr) (d : Fin 32) (a : VSrc) (ty : Fmt) (km1 : Fin 64) (val : Bool) : VPlan :=
  gatherPlan h 16 a ty .rne false (fun st n =>
    let els := st.active ty.lane n
    let fl := Flags.when (!ty.unscaledInt && els.any (fun x => (FVal.dec ty x.2).isSig)) Flags.iv
    let sorted := els.foldl (fun l x => rankInsert ty x l) []
    let k := km1.val + 1
    let out := (List.range k).map (fun i => match sorted[i]? with
      | some x => (if val then x.2 else x.1 % 2 ^ ty.lane, true)
      | none => (topkFill ty val, true))
    ([vwrite d ty.lane 0 out], fl))

/-! ### Counting and moving (R126, R127) -/

/-- A word that acts once, under bit 0 of its predicate (R110). -/
def singlePlan (h : Hdr) (w1 x1 : Option (Fin 32)) (f : Core → Stream → List Write) : VPlan :=
  { h := h, lat := 2, single := true, w1 := w1, x1 := x1
    body := fun _ k st _ => (if st.mask.getLsbD 0 then f k st else [], 0, st) }

def vqcntPlan (h : Hdr) (d : Fin 32) (a : Fin 16) (ty : Fmt) : VPlan :=
  singlePlan h none none (fun k _ => [.s d (BitVec.ofNat 64 (popCount (k.rdQ a).toNat (h.elems ty.lane)))])

def vinsPlan (h : Hdr) (d : Fin 32) (a : Fin 32) (ty : Fmt) (n : Fin 256) : VPlan :=
  singlePlan h none (some a) (fun _ st => [vwrite d ty.lane n.val [(st.x1.toNat % 2 ^ ty.lane, true)]])

def vextPlan (h : Hdr) (d : Fin 32) (a : Fin 32) (ty : Fmt) (n : Fin 256) : VPlan :=
  singlePlan h (some a) none (fun _ st => [.s d (extend ty (velem st.w1 ty.lane n.val))])

/-- A plan over whole sources and scalars: element e of the E covered. -/
def wholePlan (h : Hdr) (lat : Nat) (d : VDst) (ty : Fmt) (w1 w2 x1 : Option (Fin 32)) (f : Stream → Nat → Nat) : VPlan :=
  { h := h, lat := lat, w1 := w1, w2 := w2, x1 := x1
    body := fun j _ st _ => wholeDest d st ty.lane (h.elems ty.lane) j (fun e => (f st e, 0)) }

def vpermPlan (h : Hdr) (d : VDst) (a : Fin 32) (b : VSrc) (ty : Fmt) : VPlan :=
  { h := h, lat := 4, srcs := [(b, ty)], w1 := some a
    body := fun j _ st lss =>
      let w := ty.lane
      let (ls, fl) := elemLanes st (256 / w) j lss (fun _ vs =>
        let u := vs.getD 0 0
        (if u < h.elems w then velem st.w1 w u else 0, 0))
      ([vdest d w j ls], fl, st) }

def vbcastElemPlan (h : Hdr) (d : VDst) (a : Fin 32) (b : Fin 32) (ty : Fmt) : VPlan :=
  wholePlan h 2 d ty (some a) none (some b) (fun st _ =>
    if st.x1.toNat < h.elems ty.lane then velem st.w1 ty.lane st.x1.toNat else 0)

def vbcastScalarPlan (h : Hdr) (d : VDst) (b : Fin 32) (ty : Fmt) : VPlan :=
  wholePlan h 2 d ty none none (some b) (fun st _ => st.x1.toNat % 2 ^ ty.lane)

def vslidePlan (h : Hdr) (d : VDst) (a b : Fin 32) (ty : Fmt) (n : Fin 256) : VPlan :=
  wholePlan h 2 d ty (some a) (some b) none (fun st e =>
    let total := h.elems ty.lane
    if e + n.val < total then velem st.w1 ty.lane (e + n.val) else velem st.w2 ty.lane (e + n.val - total))

/-- `vcompress`: the active elements in order; lanes past them keep their values or go out with predicate 0. -/
def vcompressPlan (h : Hdr) (d : VDst) (a : Fin 32) (ty : Fmt) : VPlan :=
  { h := h, lat := 4, w1 := some a
    body := fun j _ st _ =>
      let w := ty.lane
      let n := 256 / w
      let act := (List.range (h.elems w)).filter st.act
      let ls := (List.range n).map (fun i => match act[j * n + i]? with
        | some e => ((velem st.w1 w e, true) : Lane)
        | none => (0, false))
      ([vdest d w j ls], 0, st) }

def vexpandPlan (h : Hdr) (d : VDst) (a : Fin 32) (ty : Fmt) : VPlan :=
  wholePlan h 4 d ty (some a) none none (fun st e => velem st.w1 ty.lane ((List.range e).filter st.act).length)

def vidxPlan (h : Hdr) (d : VDst) (a : Fin 32) (ty : Fmt) : VPlan :=
  wholePlan h 2 d ty none none (some a) (fun st e => (st.x1.toNat + e) % 2 ^ ty.lane)

def vmovPlan (h : Hdr) (d : VDst) (a : VSrc) (ty : Fmt) : VPlan :=
  plan1 h { d := d, a := a, ty := ty } 2 (fun _ x => (x, 0))

def vliPlan (h : Hdr) (d : VDst) (ty : Fmt) (imm : BitVec 32) : VPlan :=
  wholePlan h 2 d ty none none none (fun _ _ => imm.toNat % 2 ^ ty.lane)

/-! ### Reflectors (R130) -/

/-- An FP64 operation's value. -/
def d64 (r : Nat × Flags) : FVal := .dec .fp64 r.1

/-- sigma of R130: squares exact, each addition rounded RNE in FP64. -/
def houseSigma (xs : List FVal) : FVal := xs.foldl (fun s x => d64 (fpFused .fp64 {} false false 0 x x s)) (.fin false 0 0)

/-- The reflector of R130 in FP64, before its rounding to FP32: tau, beta, v_1 to v_(n-1); `none` for a NaN or infinite
element. -/
def house64 (xs : List FVal) : Option (FVal × FVal × List FVal) :=
  let zero : FVal := .fin false 0 0
  let x0 := xs.headD zero
  let rest := xs.drop 1
  if xs.any (fun x => x.isNan || x.isInf) then none
  else
    let sigma := houseSigma rest
    if sigma.isZero then
      if x0.sign then some (.fin false 2 0, x0.neg, rest.map (fun _ => zero))
      else some (zero, x0, rest.map (fun _ => zero))
    else
      let mu := d64 (fpSqrt .fp64 (d64 (fpFused .fp64 {} false false 0 x0 x0 sigma)))
      let beta := if x0.sign then mu else mu.neg
      let den := d64 (fpAdd .fp64 {} true x0 beta)
      let tau := d64 (fpDiv .fp64 (d64 (fpAdd .fp64 {} true beta x0)) beta)
      some (tau, beta, rest.map (fun x => d64 (fpDiv .fp64 x den)))

/-- The flags are those of the final roundings to FP32; the FP64 steps before them raise none (log 92). -/
def vhousePlan (h : Hdr) (d : Fin 32) (a : VSrc) (c : Fin 32) : VPlan :=
  gatherPlan h 24 a .fp32 .rne false (fun st n =>
    let xs := (List.range n).map (fun e => if st.lanes.getLsbD e then FVal.dec .fp32 (velem st.acc1 32 e) else .fin false 0 0)
    match house64 xs with
    | none =>
      let q := Fmt.dnan .fp32
      ([vwrite d 32 0 ((List.range n).map (fun _ => (q, true))), .s c (BitVec.ofNat 64 q)], Flags.iv)
    | some (tau, beta, v) =>
      let out := (tau :: v).map (fun x => x.finish .fp32 {})
      let b := beta.finish .fp32 {}
      ([vwrite d 32 0 (out.map (fun x => (x.1, true))), .s c (BitVec.ofNat 64 b.1)], out.foldl (fun f x => f ||| x.2) b.2))

/-! ### Renormalisation (R131) -/

/-- k of R131 for the active elements. -/
def normK (t : BitVec 8) (xs : List FVal) : Int :=
  if xs.any (fun x => x.isNan || x.isInf) then 0
  else
    let tops := xs.filterMap (fun x => match x with
      | .fin _ m e => if m = 0 then none else some ((Nat.log2 m : Int) + e)
      | _ => none)
    match tops with
    | [] => 0
    | x :: r => t.toInt - r.foldl max x

def vnormPlan (h : Hdr) (d a c : Fin 32) (ty : Fmt) (rm : Rm) (sat : Bool) (t : BitVec 8) : VPlan :=
  { h := h, lat := 6, rm := rm, sat := sat, w1 := some a
    body := fun j _ st _ =>
      let n := h.elems ty.lane
      let xs := ((List.range n).filter st.act).map (fun e => FVal.dec ty (velem st.w1 ty.lane e))
      let k := normK t xs
      let (ws, f, st) := wholeDest (.v d) st ty.lane n j (fun e =>
        fpScale ty (rndOf rm sat st e) (.dec ty (velem st.w1 ty.lane e)) k)
      (if j = 0 then ws ++ [.s c (BitVec.ofInt 64 k)] else ws, f, st) }

/-! ### The meanings -/

def execVred (h : Hdr) (op : RedOp) (d : Fin 32) (a : VSrc) (ty : Fmt) (rm : Rm) (sat : Bool) (s : State) : Out :=
  .next (s.vIssue (.vred h op d a ty rm sat) (vredPlan h op d a ty rm sat))
def execVscan (h : Hdr) (op : RedOp) (d : Fin 32) (a : VSrc) (ty : Fmt) (rm : Rm) (sat : Bool) (s : State) : Out :=
  .next (s.vIssue (.vscan h op d a ty rm sat) (vscanPlan h op d a ty rm sat))
def execVmred (h : Hdr) (op : RedOp) (d : Fin 32) (a b : VSrc) (qc : Fin 16) (ty : Fmt) (rm : Rm) (sat : Bool)
    (s : State) : Out :=
  .next (s.vIssue (.vmred h op d a b qc ty rm sat) (vmredPlan h op d a b qc ty rm sat))
def execVtopk (h : Hdr) (d : Fin 32) (a : VSrc) (ty : Fmt) (km1 : Fin 64) (val : Bool) (s : State) : Out :=
  .next (s.vIssue (.vtopk h d a ty km1 val) (vtopkPlan h d a ty km1 val))
def execVqcnt (h : Hdr) (d : Fin 32) (a : Fin 16) (ty : Fmt) (s : State) : Out :=
  .next (s.vIssue (.vqcnt h d a ty) (vqcntPlan h d a ty))
def execVperm (h : Hdr) (d : VDst) (a : Fin 32) (b : VSrc) (ty : Fmt) (s : State) : Out :=
  .next (s.vIssue (.vperm h d a b ty) (vpermPlan h d a b ty))
def execVbcastElem (h : Hdr) (d : VDst) (a : Fin 32) (b : Fin 32) (ty : Fmt) (s : State) : Out :=
  .next (s.vIssue (.vbcastElem h d a b ty) (vbcastElemPlan h d a b ty))
def execVbcastScalar (h : Hdr) (d : VDst) (b : Fin 32) (ty : Fmt) (s : State) : Out :=
  .next (s.vIssue (.vbcastScalar h d b ty) (vbcastScalarPlan h d b ty))
def execVslide (h : Hdr) (d : VDst) (a b : Fin 32) (ty : Fmt) (n : Fin 256) (s : State) : Out :=
  .next (s.vIssue (.vslide h d a b ty n) (vslidePlan h d a b ty n))
def execVcompress (h : Hdr) (d : VDst) (a : Fin 32) (ty : Fmt) (s : State) : Out :=
  .next (s.vIssue (.vcompress h d a ty) (vcompressPlan h d a ty))
def execVexpand (h : Hdr) (d : VDst) (a : Fin 32) (ty : Fmt) (s : State) : Out :=
  .next (s.vIssue (.vexpand h d a ty) (vexpandPlan h d a ty))
def execVidx (h : Hdr) (d : VDst) (a : Fin 32) (ty : Fmt) (s : State) : Out :=
  .next (s.vIssue (.vidx h d a ty) (vidxPlan h d a ty))
def execVmov (h : Hdr) (d : VDst) (a : VSrc) (ty : Fmt) (s : State) : Out :=
  .next (s.vIssue (.vmov h d a ty) (vmovPlan h d a ty))
def execVins (h : Hdr) (d : Fin 32) (a : Fin 32) (ty : Fmt) (n : Fin 256) (s : State) : Out :=
  .next (s.vIssue (.vins h d a ty n) (vinsPlan h d a ty n))
def execVext (h : Hdr) (d : Fin 32) (a : Fin 32) (ty : Fmt) (n : Fin 256) (s : State) : Out :=
  .next (s.vIssue (.vext h d a ty n) (vextPlan h d a ty n))
def execVli (h : Hdr) (d : VDst) (ty : Fmt) (imm : BitVec 32) (s : State) : Out :=
  .next (s.vIssue (.vli h d ty imm) (vliPlan h d ty imm))
def execVhouse (h : Hdr) (d : Fin 32) (a : VSrc) (c : Fin 32) (s : State) : Out :=
  .next (s.vIssue (.vhouse h d a c) (vhousePlan h d a c))
def execVnorm (h : Hdr) (d a c : Fin 32) (ty : Fmt) (rm : Rm) (sat : Bool) (t : BitVec 8) (s : State) : Out :=
  .next (s.vIssue (.vnorm h d a c ty rm sat t) (vnormPlan h d a c ty rm sat t))

end Sys2Proof.Machine
end

