-- ==== Sys2Proof/Machine/Near.lean ====
section
/-! DEFINITION. Near-space access by the V and X columns (R128, R129, R165), and the running of a V word's later chunks
(R40). -/

namespace Sys2Proof.Machine

open Sys2Proof

/-- A bounds or record machine check at a word's own issue (R128, R369): the word's results still to come are not written,
and the pen stops before its next slot. -/
def State.nearCheck (s : State) (ord : Nat) : State :=
  let s := s.modCur (fun k => { k with
    flights := k.flights.filter (fun f => f.ord != ord)
    cq := k.cq.filter (fun e => e.ord != ord)
    streams := k.streams.filter (fun t => t.ord != ord) })
  s.stopHere .machineCheck 0 0

/-- Keep a V stream going after chunk `j`, until its last one. -/
def State.keepStream (s : State) (st : Stream) : State :=
  if st.next + 1 = st.total then s
  else s.modCur (fun k => { k with streams := k.streams ++ [{ st with next := st.next + 1 }] })

/-- Does the record refuse the word (R128): its SPC is not 01, or one of the elements of `span` chunks from the next one that `on` says
are active takes a machine check? -/
def State.refused (s : State) (st : Stream) (n : Ns) (idx : Nat → Int) (span : Nat) (on : Nat → Bool) : Bool :=
  let cnt := 256 / n.ty.lane
  descSpc st.x3 != 1 || (List.range (span * cnt)).any (fun i =>
    let e := st.next * cnt + i
    on e && placeElem s.curPen st.x3 n.size (idx e) = .check)

/-- A load chunk (R128): `idx` gives the array index of element `e`; the elements of `span` chunks are checked before anything of the
chunk is read (log 44). -/
def State.loadChunk (s : State) (st : Stream) (d : VDst) (n : Ns) (idx : Nat → Int) (span : Nat) : State :=
  let j := st.next
  let cnt := 256 / n.ty.lane
  let pls := ((List.range cnt).filter (fun i => st.act (j * cnt + i))).map
    (fun i => (i, placeElem s.curPen st.x3 n.size (idx (j * cnt + i))))
  let s := s.count s.cur.core 3 1
  if s.refused st n idx span st.act then s.nearCheck st.ord
  else (s.issueLoad (.vchunk d n.ty j) st.ord j n.size n.budget n.budget pls).keepStream st

/-- A store chunk (R128, R129). Which elements a port's tokens leave active is known chunk by chunk (log 44). -/
def State.storeChunk (s : State) (st : Stream) (src : VSrc) (n : Ns) (idx : Nat → Int) (span : Nat) : State :=
  let c := s.cur.core
  let j := st.next
  let cnt := 256 / n.ty.lane
  let plan : VPlan := { h := {}, lat := 0, srcs := [(src, n.ty)], body := fun _ _ st _ => ([], 0, st) }
  match readSrcs plan st j plan.srcs [] (s.core c) with
  | none => s.trapHere
  | some (k, gs) =>
    let on := fun (i : Nat) => plan.laneOn st j gs i
    let got := gs.headD { lanes := [] }
    let els := ((List.range cnt).filter on).map
      (fun i => (placeElem s.curPen st.x3 n.size (idx (j * cnt + i)), leBytes n.size (got.lanes.getD i ((0, false), 0)).1.1))
    let popped := if src.isPort then 1 else 0
    let s := (((s.setCore c k).count c 3 1).count c 9 popped).raise c (plan.portFlags st j gs) .v st.slot st.it
    let bad := if src.isPort then s.refused st n idx 1 (fun e => on (e - j * cnt)) else s.refused st n idx span st.act
    if bad then s.nearCheck st.ord else (s.issueStore st.ord j st.x3 els).keepStream st

/-- The element index of `vgth` and `vsct`: X_i unsigned at 8 and 16 bits, signed at 32 (R128). -/
def gatherIndex (k : Core) (n : Ns) (e : Nat) : Int :=
  let x := velem k.v[n.x] n.ty.lane e
  (if n.ty.lane = 32 then signed 32 x else x) + signed 24 n.ofs.toNat

def State.vldChunk (s : State) (st : Stream) (d : VDst) (n : Ns) : State :=
  s.loadChunk st d n (fun e => n.index st.x1 + e) (st.total - st.next)

def State.vgthChunk (s : State) (st : Stream) (d : VDst) (n : Ns) : State :=
  s.loadChunk st d n (gatherIndex s.curCore n) 1

def State.vstChunk (s : State) (st : Stream) (d : VSrc) (n : Ns) : State :=
  s.storeChunk st d n (fun e => n.index st.x1 + e) (st.total - st.next)

def State.vsctChunk (s : State) (st : Stream) (d : VSrc) (n : Ns) : State :=
  s.storeChunk st d n (gatherIndex s.curCore n) 1

/-- The stream of a near-space V word: its mask, record and index register read on the issue beat (log 38). -/
def State.nearStream (s : State) (i : Instr) (h : Hdr) (n : Ns) : Stream :=
  let k := s.curCore
  { col := .v, instr := i, slot := s.cur.slot, it := s.curPen.it, ord := k.ord, next := 0, total := h.beats
    mask := k.pred h, x1 := k.rdS n.x, x3 := k.b[n.br] }

def execVld (h : Hdr) (d : VDst) (n : Ns) (s : State) : Out :=
  .next ((s.modCur Core.tickOrd).vldChunk (s.nearStream (.vld h d n) h n) d n)

def execVst (h : Hdr) (d : VSrc) (n : Ns) (s : State) : Out :=
  .next ((s.modCur Core.tickOrd).vstChunk (s.nearStream (.vst h d n) h n) d n)

def execVgth (h : Hdr) (d : VDst) (n : Ns) (s : State) : Out :=
  .next ((s.modCur Core.tickOrd).vgthChunk (s.nearStream (.vgth h d n) h n) d n)

def execVsct (h : Hdr) (d : VSrc) (n : Ns) (s : State) : Out :=
  .next ((s.modCur Core.tickOrd).vsctChunk (s.nearStream (.vsct h d n) h n) d n)

/-! ### `ld` and `st` (R165) -/

/-- The token a scalar `send` or `ld` forms: element 0 alone (R163, R165). -/
def scalarTok (w : Nat) (tag : Fin 16) (x : Nat) : Tok := lanesTok w tag [(x, true)]

/-- `ld` (R165). An inactive one with a tx destination still pushes its zero token on the ready beat. -/
def execLd (h : Hdr) (d : SPort) (n : Ns) (s : State) : Out :=
  let k := s.curCore
  let s' := s.modCur Core.tickOrd
  let kind : LoadKind := match d with
    | .s r => .scalar r n.ty
    | .port p => .tx p n.ty
  if k.active h then
    let pl := placeElem s.curPen k.b[n.br] n.size (n.index (k.rdS n.x))
    if pl = .check then .next (s'.nearCheck k.ord)
    else .next (s'.issueLoad kind k.ord 0 n.size n.budget n.budget [(0, pl)])
  else match d with
    | .s _ => .next s'
    | .port p => .next (s'.modCur (fun k' => k'.issue (s.flight k.ord 0 n.budget [.push p {}] 0 none)))

/-- `st` (R165): a token source is popped whether or not the word is active. -/
def execSt (h : Hdr) (d : SPort) (n : Ns) (s : State) : Out :=
  let c := s.cur.core
  let k := s.curCore
  let act := k.active h
  let go := fun (s : State) (x : Nat) =>
    let pl := placeElem s.curPen k.b[n.br] n.size (n.index (k.rdS n.x))
    if pl = .check then s.nearCheck k.ord else s.issueStore k.ord 0 k.b[n.br] [(pl, leBytes n.size x)]
  let s' := s.modCur Core.tickOrd
  match d with
  | .s r => .next (if act then go s' (k.rdS r).toNat else s')
  | .port p =>
    match k.rx[p].avail.head? with
    | none => .next s'.trapHere
    | some t =>
      let (l, f) := t.elem0 k n.ty
      let s' := s'.modCur (fun k => { k with rx := k.rx.set p k.rx[p].pop })
      let s' := (s'.count c 9 1).raise c (if act then f else 0) .x s.cur.slot s.curPen.it
      .next (if act && l.2 then go s' l.1 else s')

/-! ### Later chunks -/

/-- Run the next chunk of a V word in progress (R40), by the word's own plan. -/
def State.vStep (s : State) (st : Stream) : State :=
  match st.instr with
  | .vadd h o => s.vChunk (vaddPlan h o) st
  | .vsub h o => s.vChunk (vsubPlan h o) st
  | .vmul h o => s.vChunk (vmulPlan h o) st
  | .vfma h o => s.vChunk (vfmaPlan h o) st
  | .vfms h o => s.vChunk (vfmsPlan h o) st
  | .vfnma h o => s.vChunk (vfnmaPlan h o) st
  | .vmin h o => s.vChunk (vminPlan h o) st
  | .vmax h o => s.vChunk (vmaxPlan h o) st
  | .vabs h o => s.vChunk (vabsPlan h o) st
  | .vneg h o => s.vChunk (vnegPlan h o) st
  | .vrcp h o => s.vChunk (vrcpPlan h o) st
  | .vrsq h o => s.vChunk (vrsqPlan h o) st
  | .vrcps h o => s.vChunk (vrcpsPlan h o) st
  | .vrsqs h o => s.vChunk (vrsqsPlan h o) st
  | .vexp2 h o => s.vChunk (vexp2Plan h o) st
  | .vlog2 h o => s.vChunk (vlog2Plan h o) st
  | .vscale h o => s.vChunk (vscalePlan h o) st
  | .vfrexpFrac h d a ty => s.vChunk (vfrexpFracPlan h d a ty) st
  | .vfrexpExp h d a ty => s.vChunk (vfrexpExpPlan h d a ty) st
  | .vround h d a ty rm => s.vChunk (vroundPlan h d a ty rm) st
  | .vcvt h d a td ts c rm sat => s.vChunk (vcvtPlan h d a td ts c rm sat) st
  | .vcmp h cc qd a b ty => s.vChunk (vcmpPlan h cc qd a b ty) st
  | .vsel h o qc => s.vChunk (vselPlan h o qc) st
  | .vand h o => s.vChunk (vandPlan h o) st
  | .vor h o => s.vChunk (vorPlan h o) st
  | .vxor h o => s.vChunk (vxorPlan h o) st
  | .vshl h o => s.vChunk (vshlPlan h o) st
  | .vshr h o => s.vChunk (vshrPlan h o) st
  | .vsra h o => s.vChunk (vsraPlan h o) st
  | .vclamp h o c => s.vChunk (vclampPlan h o c) st
  | .vdot h o c => s.vChunk (vdotPlan h o c) st
  | .vred h op d a ty rm sat => s.vChunk (vredPlan h op d a ty rm sat) st
  | .vscan h op d a ty rm sat => s.vChunk (vscanPlan h op d a ty rm sat) st
  | .vmred h op d a b qc ty rm sat => s.vChunk (vmredPlan h op d a b qc ty rm sat) st
  | .vtopk h d a ty k v => s.vChunk (vtopkPlan h d a ty k v) st
  | .vperm h d a b ty => s.vChunk (vpermPlan h d a b ty) st
  | .vbcastElem h d a b ty => s.vChunk (vbcastElemPlan h d a b ty) st
  | .vbcastScalar h d b ty => s.vChunk (vbcastScalarPlan h d b ty) st
  | .vslide h d a b ty n => s.vChunk (vslidePlan h d a b ty n) st
  | .vcompress h d a ty => s.vChunk (vcompressPlan h d a ty) st
  | .vexpand h d a ty => s.vChunk (vexpandPlan h d a ty) st
  | .vidx h d a ty => s.vChunk (vidxPlan h d a ty) st
  | .vmov h d a ty => s.vChunk (vmovPlan h d a ty) st
  | .vli h d ty imm => s.vChunk (vliPlan h d ty imm) st
  | .vhouse h d a c => s.vChunk (vhousePlan h d a c) st
  | .vnorm h d a c ty rm sat t => s.vChunk (vnormPlan h d a c ty rm sat t) st
  | .vpack h d a b td ts rm sat => s.vChunk (vpackPlan h d a b td ts rm sat) st
  | .vunpk h d a td ts hi rm sat => s.vChunk (vunpkPlan h d a td ts hi rm sat) st
  | .vld _ d n => s.vldChunk st d n
  | .vst _ d n => s.vstChunk st d n
  | .vgth _ d n => s.vgthChunk st d n
  | .vsct _ d n => s.vsctChunk st d n
  | _ => s

end Sys2Proof.Machine
end

