-- ==== Sys2Proof/Machine/Matrix.lean ====
section
/-! DEFINITION. The M column without the orthogonal accumulators: tiles and rings (R135 to R139), multiply (R140 to R142),
the drain path (R143 to R147), accumulator moves, loads and stores (R148, R149). -/

namespace Sys2Proof

/-- The format of an accumulator type (R133). -/
def Tacc.fmt : Tacc → Fmt
  | .fp32 => .fp32
  | .int32 => .int32
  | .fp64 => .fp64

/-- Exponent of the largest value of an element format (R145). -/
def Fmt.maxExp : Fmt → Int
  | .e4m3 => 8 | .e5m2 => 15 | .e3m2 => 4 | .e2m3 => 2 | .e2m1 => 2 | .dm8 => 16 | _ => 0

/-- The largest magnitude of a scaled format's element codes, as an integer over 2 (R145). -/
def Fmt.maxMag (f : Fmt) : Nat :=
  match f with
  | .ternb32h | .binb64h => 1
  | f => match f.elem with
    | .e4m3 => 448
    | .e5m2 => 57344
    | .e2m1 => 6
    | .dm8 => 65536
    | .int8 => 127
    | .int4 => 7
    | _ => 1

namespace Machine

/-! ### Tiles (R135) -/

/-- The scale of an element of a tile, from the tile's bytes (R135). -/
def tileScale (f : Fmt) (tile : List Byte) (r c : Nat) : Nat :=
  let n := f.scale.bytes
  let i := if f.tileScaled then 0 else r * f.rowScales + (if f.rowScales = 2 then c / 16 else 0)
  leNat ((tile.drop (f.tileData + i * n)).take n)

/-- The exact values of a tile, row by row (R21, R135). -/
def tileVals (f : Fmt) (tile : List Byte) : List (List FVal) :=
  (List.range 32).map (fun r =>
    let row := leNat ((tile.drop (r * 4 * f.bits)).take (4 * f.bits))
    (lanesOf f.bits 32 row).zipIdx.map (fun x =>
      if f.scaled then scaledVal f x.1 (tileScale f tile r x.2) else .dec f x.1))

/-- Transpose a list of 32 rows. -/
def transpose32 {α : Type} [Inhabited α] (t : List (List α)) : List (List α) :=
  (List.range 32).map (fun c => t.map (fun r => r.getD c default))

/-- The tile slot `b` places after the head of a ring (R136, R141). -/
def State.ringTile (s : State) (c : Nat) (r : Ring) (b : Nat) : List Byte :=
  s.nearRead c (nearAddr c (r.slotOfs (if r.cap = 0 then 0 else (r.head.toNat + b) % r.cap.toNat))) r.fmt.slotBytes

/-- Does a tile of the first `n` places after the head hold an uncorrectable error (R352)? -/
def State.ringBad (s : State) (c : Nat) (r : Ring) (n : Nat) : Bool :=
  (List.range n).any (fun b => s.poisoned (nearKeys (nearAddr c (r.slotOfs (if r.cap = 0 then 0 else (r.head.toNat + b) % r.cap.toNat)))
    r.fmt.slotBytes))

/-! ### Accumulators (R133) -/

/-- Elements of an accumulator read in a type, row-major (R133). -/
def accElems (a : AccWord) (t : Tacc) : List Nat := lanesOf t.fmt.bits 1024 a.toNat

/-- An accumulator as 32 rows. -/
def accRows (a : AccWord) (t : Tacc) : List (List Nat) :=
  let els := accElems a t
  (List.range 32).map (fun r => (els.drop (32 * r)).take 32)

/-- A whole-accumulator write (R133, R134; the upper half stays under a 32-bit type, log 11). -/
def accWrite (ad : Fin 8) (t : Tacc) (els : List Nat) : Write :=
  match t with
  | .fp64 => .acc ad (BitVec.ofNat 65536 (packLanes 64 els))
  | _ => .accLo ad (BitVec.ofNat 32768 (packLanes 32 els))

/-! ### ALIAS and the node (R134, R153) -/

/-- CNT of a status word (R152). -/
def oaCnt (w : W64) : Nat := min (bitsOf w 31 26) 32

/-- Does an accumulator belong to an orthogonal accumulator that holds reflectors (R153)? -/
def Core.owned (k : Core) (a : Fin 8) : Bool := 0 < oaCnt (k.oStat.toList.getD (a.val / 2) 0)

/-- An M word occupies the node, active or not (R134). -/
def Core.occupy (n : Nat) (oa : Bool) (k : Core) : Core := { k with busy := n, busyOa := oa, busyOld := false }

/-- An M word that uses the node: ALIAS on any accumulator it names (R153), then the node, then its effect when active. -/
def State.nodeWord (s : State) (h : Hdr) (names : List (Fin 8)) (busy : Nat) (oa : Bool) (f : State → Nat → State) : State :=
  let k := s.curCore
  if names.any k.owned then (s.modCur Core.tickOrd).stopHere .alias_ 0 0
  else
    let s := s.modCur (fun k => (k.occupy busy oa).tickOrd)
    if k.active h then f s k.ord else s

/-- Put a result of the word in progress in flight. -/
def State.fly (s : State) (ord sub lat : Nat) (ws : List Write) (f : Flags) : State :=
  s.modCur (fun k => k.issue (s.flight ord sub lat ws f none))

/-- A machine check of an M word at issue (R138, R146). -/
def State.mCheck (s : State) : State := (s.modCur Core.tickOrd).stopHere .machineCheck 0 0

/-! ### Ring control (R137, R138) -/

def execGinit (h : Hdr) (g : Fin 8) (a : Fin 32) (ty : Fmt) (cap : Fin 256) (kbm1 : Fin 64) (s : State) : Out :=
  let k := s.curCore
  let x := k.rdS a
  let base := bitsOf x 19 6
  if k.active h && (bitsOf x 5 0 != 0 || 2 ^ 20 < base * 64 + cap.val * ty.slotBytes) then .next s.mCheck
  else
    let r : Ring := { cap := BitVec.ofNat 8 cap.val, fmt := ty, kbm1 := BitVec.ofNat 6 kbm1.val, base := BitVec.ofNat 14 base }
    .next (s.result h 1 [.ring g r] 0)

def execGadv (h : Hdr) (g : Fin 8) (n : Fin 256) (s : State) : Out :=
  let k := s.curCore
  if k.active h && k.g[g].cap = 0 then .next s.mCheck else .next (s.result h 1 [.ringAdv g n.val] 0)

def execGpop (h : Hdr) (g : Fin 8) (n : Fin 256) (s : State) : Out :=
  let k := s.curCore
  if k.active h && k.g[g].cap = 0 then .next s.mCheck else .next (s.result h 1 [.ringPop g n.val] 0)

def execGstat (h : Hdr) (d : Fin 32) (g : Fin 8) (s : State) : Out := s.sRes h 1 d s.curCore.g[g].word 0

/-! ### `gfill` (R139) -/

/-- Tokens of one row of 32 elements (R139). -/
def rowTokens (ty : Fmt) : Nat := ty.lane / 8

/-- Pop and place token `st.next` of a `gfill`. The stream keeps the ring as it stood at issue: FILLROW and the tail slot's
offset in `x1` and `x2`, activity in `mask`. -/
def State.gfillStep (s : State) (st : Stream) (g : Fin 8) (p : Fin 8) (ty : Fmt) : State :=
  let c := s.cur.core
  let k := s.core c
  match k.rx[p].avail.head? with
  | none => s.trapHere
  | some tok =>
    let t := st.next
    let act := st.mask.getLsbD 0
    let n := 256 / ty.lane
    let got := tok.lanes k ty n (fun _ => {})
    let on := fun (i : Nat) => act && got.on i
    let pt := rowTokens ty
    let row := st.x1.toNat + t / pt
    let s := s.setCore c { k with rx := k.rx.set p k.rx[p].pop }
    let s := s.count c 9 1
    let s := s.raise c (got.flags on ||| Flags.when (act && 31 < row) Flags.iv) .m st.slot st.it
    let vals := got.lanes.zipIdx.map (fun l => if on l.2 then l.1.1.1 else 0)
    let bytes := leBytes (n * ty.bits / 8) (packLanes ty.bits vals)
    let ofs := st.x2.toNat + row * 4 * ty.bits + t % pt * (n * ty.bits / 8)
    let ends := t % pt = pt - 1
    let ws := if 31 < row then []
      else .mem ofs bytes :: (if ends then (if row = 31 then [.ringRow g 0, .ringAdv g 1] else [.ringRow g (BitVec.ofNat 5 (row + 1))])
        else [])
    let fly : Flight :=
      { col := .m, slot := st.slot, it := st.it, ord := st.ord, sub := t, remain := 2, writes := ws, old := st.old }
    s.modCore c (fun k =>
      let k := k.issue fly
      if t + 1 = st.total then k else { k with streams := k.streams ++ [{ st with next := t + 1 }] })

def execGfill (h : Hdr) (g : Fin 8) (p : Fin 8) (ty : Fmt) (cnt : Fin 32) (s : State) : Out :=
  let k := s.curCore
  let r := k.g[g]
  if r.cap = 0 || r.fmt != ty then .next s.mCheck
  else
    let st : Stream :=
      { col := .m, instr := .gfill h g p ty cnt, slot := s.cur.slot, it := s.curPen.it, ord := k.ord, next := 0
        total := (cnt.val + 1) * rowTokens ty, mask := if k.active h then 1 else 0
        x1 := r.fillrow.zeroExtend 64, x2 := BitVec.ofNat 64 (r.slotOfs r.tail) }
    .next ((s.modCur Core.tickOrd).gfillStep st g p ty)

/-! ### Multiply (R32, R33, R140 to R142) -/

/-- One k-block added to one accumulator element (R32, R33): `a` and `b` are the 32 values along k. -/
def kBlock (t : Tacc) (exact sat : Bool) (acc : Nat) (a b : List FVal) : Nat × Flags :=
  match t with
  | .int32 =>
    fixW .int32 sat (Fmt.intVal .int32 acc + ((a.zip b).foldl (fun s p => s.add (p.1.dy.mul p.2.dy)) ⟨0, 0⟩ : Dy).m)
  | _ =>
    if exact then (dotSum a b).finish t.fmt {} (.dec t.fmt acc)
    else (a.zip b).foldl (fun (x : Nat × Flags) p =>
      let y := fpFused t.fmt {} false false 0 p.1 p.2 (.dec t.fmt x.1)
      (y.1, x.2 ||| y.2 ||| Flags.when (p.1.isNan || p.2.isNan) Flags.iv)) (acc, 0)

/-- One k-block over the whole accumulator: rows of A by m, rows of B by n. -/
def kBlockAll (t : Tacc) (exact sat : Bool) (acc : List Nat) (a b : List (List FVal)) : List Nat × Flags :=
  let r := acc.zipIdx.map (fun x => kBlock t exact sat x.1 (a.getD (x.2 / 32) []) (b.getD (x.2 % 32) []))
  (r.map (·.1), r.foldl (fun f x => f ||| x.2) 0)

/-- The k-blocks of a multiply in ascending order (R141): tiles of A and B by number. -/
def mmaBlocks (o : Mma) (tr : Bool) (ta tb : Nat → List Byte) : Nat → List Nat → Flags → List Nat × Flags
  | 0, acc, f => (acc, f)
  | n + 1, acc, f =>
    let b := o.kt.val - n
    let va := tileVals o.ta (ta b)
    let vb := tileVals o.tb (tb b)
    let exact := o.ta.scaled || o.tb.scaled || (o.ta.bits ≤ 16 && o.tb.bits ≤ 16)
    let (acc, g) := kBlockAll o.tacc exact o.sata acc (if tr then transpose32 va else va) (if o.xp then transpose32 vb else vb)
    mmaBlocks o tr ta tb n acc (f ||| g)

/-- Is a ring fit for an operand of the word (R138)? -/
def Ring.fits (r : Ring) (f : Fmt) (kt : Nat) : Bool := r.cap != 0 && r.fmt = f && kt + 1 ≤ r.cap.toNat

/-- `mma` and `mmat` (R140 to R142, R146); a poisoned tile is a machine check (R352). -/
def State.multiply (s : State) (h : Hdr) (o : Mma) (tr : Bool) : State :=
  let k := s.curCore
  let c := s.cur.core
  let blocks := o.kt.val + 1
  let busy := blocks * max o.ta.kb o.tb.kb
  let okA := if o.byp then k.byp.valid && k.byp.fmt = o.ta else k.g[o.ga].fits o.ta o.kt.val
  if k.owned o.ad || (o.byp && k.byp.valid && k.owned k.byp.src) then (s.modCur Core.tickOrd).stopHere .alias_ 0 0
  else if !okA || !k.g[o.gb].fits o.tb o.kt.val then s.mCheck
  else if k.active h && ((!o.byp && s.ringBad c k.g[o.ga] blocks) || s.ringBad c k.g[o.gb] blocks) then (s.ueMet (coreDie c)).mCheck
  else
    let ra := k.g[o.ga]
    let rb := k.g[o.gb]
    let acc0 := if o.za then List.replicate 1024 0 else accElems k.a[o.ad] o.tacc
    let (els, fl) := mmaBlocks o tr (fun b => if o.byp then k.byp.data else s.ringTile c ra b) (fun b => s.ringTile c rb b)
      blocks acc0 0
    let pops := if o.ret then (if o.byp || o.ga = o.gb then [Write.ringPop o.gb blocks]
      else [Write.ringPop o.ga blocks, Write.ringPop o.gb blocks]) else []
    let act := k.active h
    let s := if act then s.count c 4 blocks else s
    let s := s.modCur (fun k => (k.occupy busy false).tickOrd)
    s.fly k.ord 0 (busy + 11) (if act then accWrite o.ad o.tacc els :: pops else pops) (if act then fl else 0)

def execMma (h : Hdr) (o : Mma) (s : State) : Out := .next (s.multiply h o false)

/-- As `mma`, with A read transposed (R141). -/
def execMmat (h : Hdr) (o : Mma) (s : State) : Out := .next (s.multiply h o true)

/-! ### The drain path (R143 to R147) -/

/-- The larger magnitude of two values; a NaN wins (R123). -/
def absMax (a b : FVal) : FVal :=
  match a, b with
  | .nan _, _ | _, .nan _ => .nan false
  | .inf _, _ | _, .inf _ => .inf false
  | .fin _ m e, .fin _ m' e' => if FVal.ltN (.fin false m e) (.fin false m' e') then .fin false m' e' else .fin false m e

/-- The scale computed from an absolute maximum (R145). -/
def scaleFor (f : Fmt) (a : FVal) : Nat :=
  match f.scale with
  | .e8m0 =>
    match a with
    | .nan _ => 255
    | .inf _ => 254
    | .fin _ m e =>
      if m = 0 then 0
      else (max 0 (min 254 ((Nat.log2 m : Int) + e - (if f = .mxint8 then 0 else f.elem.maxExp) + 127))).toNat
  | sf =>
    let t : Fmt := match sf with
      | .fp16 => .fp16
      | .dm8 => .dm8
      | _ => .fp32
    match a with
    | .nan _ => t.dnan
    | .inf _ => (finishInf t {} false).1
    | .fin _ m e =>
      let x := (finishFin t {} false m f.maxMag e).1
      if x = 0 && sf = .fp32 then 0x3F800000 else x

/-- The value an element of the drain gives before conversion, with its flags (R144). -/
def drainVal (o : Mdrain) (x : Nat) (m s : FVal) : FVal × Flags :=
  let t := o.tacc.fmt
  let v := FVal.dec t x
  match o.dfn with
  | .none | .rowmax => (v, 0)
  | .exp2 =>
    let a := fpFused .fp32 {} false true 0 s v m
    let b := fpExp2 .fp32 {} (.dec .fp32 a.1)
    (.dec .fp32 b.1, a.2 ||| b.2)
  | .relu =>
    match v with
    | .nan sig => (.dec t t.dnan, Flags.when sig Flags.iv)
    | v => if v.sign then (.fin false 0 0, 0) else (v, 0)
  | .scale =>
    let a := fpMul .fp32 {} s v
    (.dec .fp32 a.1, a.2)

/-- One output element: code and flags (R144, R145). -/
def drainOut (o : Mdrain) (phase : BitVec 16) (r c : Nat) (y : FVal) (scale : Nat) : Nat × Flags :=
  let rnd : Rnd := { rm := o.rm, sat := o.sat, thr := if o.rm = .dither then ditherThr phase.toNat r c else 0 }
  if o.ta.scaled then encScaled o.ta rnd y scale
  else if o.tacc = .int32 && o.ta.unscaledInt then fixW o.ta o.sat y.dy.m
  else y.finish o.ta rnd

/-- Row maximum of FP32 codes; a NaN gives the default NaN (R144, R148). -/
def rowMax (ty : Fmt) (row : List Nat) : Nat × Flags :=
  match row with
  | [] => (0, 0)
  | x :: xs => xs.foldl (fun (a : Nat × Flags) y =>
    let r := minMax ty true a.1 y
    (r.1, a.2 ||| r.2)) (x, 0)

/-- The rows of a drain: element codes, the scales of the row, and flags (R144, R145). -/
def drainRows (o : Mdrain) (k : Core) : List (List Nat × List Nat × Flags) :=
  let rows := accRows k.a[o.ad] o.tacc
  let rows := if o.xp then transpose32 rows else rows
  let s := FVal.dec .fp32 (k.rdS o.sr).toNat
  let ys := rows.zipIdx.map (fun x => x.1.map (fun e => drainVal o e (.dec .fp32 (velem k.v[o.vr] 32 x.2)) s))
  let amax := fun (vs : List (FVal × Flags)) => vs.foldl (fun a v => absMax a v.1) (.fin false 0 0)
  let tile := scaleFor o.ta (ys.foldl (fun a r => absMax a (amax r)) (.fin false 0 0))
  ys.zipIdx.map (fun x =>
    let r := x.2
    let ns := o.ta.rowScales
    let scales := if ns = 0 then [] else (List.range ns).map (fun b => scaleFor o.ta (amax ((x.1.drop (b * (32 / ns))).take (32 / ns))))
    let out := x.1.zipIdx.map (fun y =>
      let sc := if o.ta.tileScaled then tile else scales.getD (y.2 / (32 / max 1 ns)) 0
      let z := drainOut o k.dith r y.2 y.1.1 sc
      (z.1, z.2 ||| y.1.2))
    (out.map (·.1), if o.ta.tileScaled then [tile] else scales, out.foldl (fun f y => f ||| y.2) 0))

/-- `mdrain` (R143 to R147). -/
def execMdrain (h : Hdr) (o : Mdrain) (s : State) : Out :=
  let k := s.curCore
  let act := k.active h
  let bad := match o.dst with
    | .ring g => k.g[g].cap = 0 || k.g[g].fmt != o.ta
    | .tx _ => false
  if k.owned o.ad then .next ((s.modCur Core.tickOrd).stopHere .alias_ 0 0)
  else if bad then .next s.mCheck
  else
    let rows := if act then drainRows o k else
      List.replicate 32 (List.replicate 32 0, List.replicate (if o.ta.tileScaled then 1 else o.ta.rowScales) 0, 0)
    let sb := o.ta.scale.bytes
    let s := s.modCur (fun k =>
      Core.tickOrd { k.occupy 48 false with dith := if act && o.rm = Rm.dither then ditherAdvance k.dith else k.dith })
    let fl := rows.zipIdx.map (fun x =>
      let r := x.2
      let data := leBytes (4 * o.ta.bits) (packLanes o.ta.bits x.1.1)
      let sc := if o.ta.tileScaled && 0 < r then [] else x.1.2.1.flatMap (fun n => leBytes sb n)
      let at1 := r * 4 * o.ta.bits
      let at2 := o.ta.tileData + (if o.ta.tileScaled then 0 else r * o.ta.rowScales * sb)
      let out := match o.dst with
        | .ring g =>
          let b := k.g[g].slotOfs k.g[g].tail
          if sc = [] then [Write.mem (b + at1) data] else [Write.mem (b + at1) data, Write.mem (b + at2) sc]
        | .tx p => [Write.push p (lanesTok 8 0 (x.1.1.map (fun v => (v, act))))]
      let byp := if sc = [] then [Write.bypRow o.ta o.ad at1 data] else [Write.bypRow o.ta o.ad at1 data, Write.bypRow o.ta o.ad at2 sc]
      s.flight k.ord r (16 + r) (out ++ byp) (if act then x.1.2.2 else 0) none)
    let maxes := (accRows k.a[o.ad] .fp32).map (rowMax .fp32)
    let side := if act && o.dfn = .rowmax then
      let rm := if o.xp then (transpose32 (accRows k.a[o.ad] .fp32)).map (rowMax .fp32) else maxes
      [(Write.v o.vr (BitVec.ofNat 2048 (packLanes 32 (rm.map (·.1)))) (BitVec.ofNat 2048 (2 ^ 1024 - 1)), rm.foldl (fun f x => f ||| x.2) 0)]
      else []
    let adv := match o.dst with
      | .ring g => [Write.ringAdv g 1]
      | .tx _ => []
    let zero := if act && o.za then [Write.acc o.ad 0] else []
    let last := s.flight k.ord 32 47 (adv ++ zero ++ side.map (·.1)) (side.foldl (fun f x => f ||| x.2) 0) none
    .next (s.modCur (fun k => { k with flights := k.flights ++ fl ++ [last] }))

/-! ### Moves, loads and stores (R148, R149) -/

def execMzero (h : Hdr) (ad : Fin 8) (s : State) : Out :=
  .next (s.nodeWord h [ad] 1 false (fun s ord => s.fly ord 0 1 [.acc ad 0] 0))

def execMmov (h : Hdr) (ad ga : Fin 8) (tacc : Tacc) (xp : Bool) (s : State) : Out :=
  let rows := accRows s.curCore.a[ga] tacc
  .next (s.nodeWord h [ad, ga] 32 false (fun s ord =>
    s.fly ord 0 34 [accWrite ad tacc (if xp then transpose32 rows else rows).flatten] 0))

def execMadd (h : Hdr) (ad ga : Fin 8) (tacc : Tacc) (s : State) : Out :=
  let k := s.curCore
  let r := ((accElems k.a[ad] tacc).zip (accElems k.a[ga] tacc)).map (fun x =>
    if tacc = .int32 then fixW .int32 false (Fmt.intVal .int32 x.1 + Fmt.intVal .int32 x.2)
    else fpAdd tacc.fmt {} false (.dec tacc.fmt x.1) (.dec tacc.fmt x.2))
  .next (s.nodeWord h [ad, ga] 32 false (fun s ord =>
    s.fly ord 0 34 [accWrite ad tacc (r.map (·.1))] (r.foldl (fun f x => f ||| x.2) 0)))

def execMscl (h : Hdr) (ad ga : Fin 8) (sr : Fin 32) (s : State) : Out :=
  let k := s.curCore
  let x := FVal.dec .fp32 (k.rdS sr).toNat
  let r := (accElems k.a[ga] .fp32).map (fun e => fpMul .fp32 {} (.dec .fp32 e) x)
  .next (s.nodeWord h [ad, ga] 32 false (fun s ord =>
    s.fly ord 0 34 [accWrite ad .fp32 (r.map (·.1))] (r.foldl (fun f x => f ||| x.2) 0)))

/-- Elements 0 to 31 of a v register (R148). -/
def vrow (vr : Fin 32) (xs : List Nat) : Write := vwrite vr 32 0 (xs.map (fun x => (x, true)))

def execMrowmax (h : Hdr) (vr : Fin 32) (ga : Fin 8) (tacc : Tacc) (s : State) : Out :=
  let r := (accRows s.curCore.a[ga] tacc).map (rowMax tacc.fmt)
  .next (s.nodeWord h [ga] 32 false (fun s ord => s.fly ord 0 34 [vrow vr (r.map (·.1))] (r.foldl (fun f x => f ||| x.2) 0)))

/-- A row sum in ascending column order (R34, R148). -/
def rowSum (tacc : Tacc) (row : List Nat) : Nat × Flags :=
  match row with
  | [] => (0, 0)
  | x :: xs => xs.foldl (fun (a : Nat × Flags) y =>
    let r := if tacc = .int32 then fixW .int32 false (Fmt.intVal .int32 a.1 + Fmt.intVal .int32 y)
      else fpAdd tacc.fmt {} false (.dec tacc.fmt a.1) (.dec tacc.fmt y)
    (r.1, a.2 ||| r.2)) (x, 0)

def execMrowsum (h : Hdr) (vr : Fin 32) (ga : Fin 8) (tacc : Tacc) (s : State) : Out :=
  let r := (accRows s.curCore.a[ga] tacc).map (rowSum tacc)
  .next (s.nodeWord h [ga] 32 false (fun s ord => s.fly ord 0 34 [vrow vr (r.map (·.1))] (r.foldl (fun f x => f ||| x.2) 0)))

/-- The places of `count` consecutive elements of a near-space word (R149). -/
def blockPlaces (p : Pen) (k : Core) (n : Ns) (count : Nat) : List (Nat × Place) :=
  (List.range count).map (fun e => (e, placeElem p k.b[n.br] (n.ty.bits / 8) (n.index (k.rdS n.x) + e)))

def execMld (h : Hdr) (ad : Fin 8) (n : Ns) (s : State) : Out :=
  let pls := blockPlaces s.curPen s.curCore n 1024
  .next (s.nodeWord h [ad] 32 false (fun s ord =>
    if pls.any (fun x => x.2 = .check) then s.nearCheck ord
    else s.issueLoad (.acc ad n.ty) ord 0 (n.ty.bits / 8) n.budget (n.budget + 32) pls))

def execMst (h : Hdr) (ad : Fin 8) (n : Ns) (s : State) : Out :=
  let k := s.curCore
  let pls := blockPlaces s.curPen k n 1024
  let els := lanesOf n.ty.bits 1024 k.a[ad].toNat
  .next (s.nodeWord h [ad] 32 false (fun s ord =>
    if pls.any (fun x => x.2 = .check) then s.nearCheck ord
    else s.issueStore ord 0 k.b[n.br] ((pls.zip els).map (fun x => (x.1.2, leBytes (n.ty.bits / 8) x.2)))))

end Machine

end Sys2Proof
end

