-- ==== Sys2Proof/Machine/LadleRec.lean ====
section
/-! DEFINITION. Ladle command records (R174, R242) and what a command names by them. -/

namespace Sys2Proof.Machine

open Sys2Proof

/-- Bytes of a descriptor-table entry (R239). -/
def tdEntry : Nat := 32

/-- A command record; lists hold components 0 to 3. -/
structure LRec where
  kind : Nat
  src : Nat
  dst : Nat
  xp : Bool
  zf : Bool
  scm : Nat
  rm : Nat
  sat : Bool
  dfmt : Nat
  c : List Nat
  d : List Nat
  e : List Nat
  ilist : Nat
  icnt : Nat
  win : List Nat
  scale : Nat
  dith : Nat
  utag : Nat
  /-- some reserved bit is set -/
  rsvd : Bool
deriving DecidableEq, Repr, Inhabited

/-- Four 16-bit components, the first in bits 15:0. -/
def quad16 (w : W64) : List Nat := (List.range 4).map (fun i => bitsOf w (16 * i + 15) (16 * i))

def LRec.ofWords (w : Nat → W64) : LRec :=
  { kind := bitsOf (w 0) 63 56, src := bitsOf (w 0) 55 44, dst := bitsOf (w 0) 43 32, xp := bitAt (w 0).toNat 31
    zf := bitAt (w 0).toNat 30, scm := bitsOf (w 0) 29 28, rm := bitsOf (w 0) 27 26, sat := bitAt (w 0).toNat 25
    dfmt := bitsOf (w 0) 24 20, c := quad16 (w 1), d := quad16 (w 2), e := quad16 (w 3), ilist := bitsOf (w 4) 63 16
    icnt := bitsOf (w 4) 15 0, win := (List.range 8).map (fun i => bitsOf (w 5) (63 - 4 * i) (60 - 4 * i))
    scale := bitsOf (w 6) 63 32, dith := bitsOf (w 6) 15 0, utag := bitsOf (w 7) 31 0
    rsvd := bitsOf (w 0) 19 0 != 0 || bitsOf (w 5) 31 0 != 0 || bitsOf (w 6) 31 16 != 0 || bitsOf (w 7) 63 32 != 0 }

/-- The record of the short form (R174). -/
def shortRec (m : Cmd) (prf : Bool) : LRec :=
  let src := ((m.a.toNat + bitsOf m.o.imm 7 0) % 2 ^ 12)
  let dst := if prf then 0 else (m.b.toNat + bitsOf m.o.imm 15 8) % 2 ^ 12
  { kind := if prf then 6 else 1, src := src, dst := dst, xp := false, zf := false, scm := 0, rm := 0, sat := false, dfmt := 31
    c := [0, 0, 0, 0], d := [0, 0, 0, 0], e := [0, 0, 0, 0], ilist := 0, icnt := 0, win := List.replicate 8 0, scale := 0
    dith := 0, utag := 0, rsvd := false }

/-- The KIND a word asks for (R174); none for a command the drove built. -/
def Cmd.ladleKind (m : Cmd) : Option Nat :=
  match m.word with
  | .lcopy .. | .lcopyShort .. => some 1
  | .lgath .. => some 2
  | .lscat .. => some 3
  | .lwin .. => some 4
  | .lfill .. => some 5
  | .lprf .. | .lprfShort .. => some 6
  | _ => none

/-- The command's record; none where the record form could not be read (R174, R233). -/
def Cmd.ladleRec (m : Cmd) : Option LRec :=
  match m.word with
  | .lcopyShort .. => some (shortRec m false)
  | .lprfShort .. => some (shortRec m true)
  | _ => if m.ldl.length = 64 then some (LRec.ofWords (wordAt m.ldl)) else none

end Sys2Proof.Machine
end

