-- ==== Sys2Proof/Machine/Release.lean ====
section
/-! DEFINITION. What leaves a core: the release of commit-queue entries (R53, R56), the records read at release (R174, R183,
R184), and the command and synchronisation words (R166, R167). -/

namespace Sys2Proof.Machine

open Sys2Proof

/-- Insert an entry by program order; entries of one word keep their order. -/
def cqInsert (e : CqEntry) : List CqEntry → List CqEntry
  | [] => [e]
  | x :: xs => if e.ord < x.ord || (e.ord = x.ord && e.sub < x.sub) then e :: x :: xs else x :: cqInsert e xs

/-- Entries in program order (R53). -/
def cqSort : List CqEntry → List CqEntry := List.foldl (fun acc e => cqInsert e acc) []

/-- Is a register value a near-space address that R233 allows? -/
def nearOk (a : W64) : Bool := bitsOf a 63 32 = 0 && !nearMalformed a.toNat

/-- Bytes of a record in near space read for a core; none where its address is malformed or misaligned. -/
def State.nearRec (s : State) (c : Nat) (a : W64) (align n : Nat) : List Byte :=
  if nearOk a && a.toNat % align = 0 then s.nearRead c a.toNat n else []

/-- A descriptor-table entry read for a command (R239); empty where the access faults. -/
def State.tdRead (s : State) (m : Cmd) (i : Nat) : List Byte :=
  match s.places m.ctx ((s.pen m.pen).tdt.toNat + tdEntry * i) tdEntry .rd with
  | .error _ => []
  | .ok pl => match s.readPlaces (s.viewer m.ctx (s.ladAgent m)) pl none with
    | .error _ => []
    | .ok bs => bs

/-- The descriptors a ladle command names, source then destination; empty where one cannot be read yet. -/
def State.tdPair (s : State) (m : Cmd) : List Byte :=
  match m.ladleRec with
  | none => []
  | some r =>
    let a := if r.kind = 5 then List.replicate tdEntry 0 else s.tdRead m r.src
    let b := if r.kind = 6 then List.replicate tdEntry 0 else s.tdRead m r.dst
    if a.length = tdEntry && b.length = tdEntry then a ++ b else []

/-- A command with what its engine reads on the beat of release: the ladle record and descriptors (R174, R239), drove records
(R183, R264), a table image (R184). -/
def State.capture (s : State) (m : Cmd) : Cmd :=
  match m.word with
  | .lcopy .. | .lgath .. | .lscat .. | .lwin .. | .lfill .. | .lprf .. =>
    let m := { m with ldl := s.nearRec m.core m.cmd 64 64 }
    { m with img := s.tdPair m }
  | .lcopyShort .. | .lprfShort .. => { m with img := s.tdPair m }
  | .dsend .. => if 1 ≤ m.a.toNat && m.a.toNat ≤ 64 then { m with img := s.nearRec m.core m.cmd 8 (72 * m.a.toNat) } else m
  | .dtw .. | .dtd .. => { m with img := s.nearRec m.core m.cmd 64 64 }
  | _ => m

/-- Release one entry of a core (R53): a push reaches the tx port, a store leaves for its owners, a command for its engine. -/
def State.releaseEntry (s : State) (c : Nat) (e : CqEntry) : State :=
  let s := s.count c 5 1
  match e.eff with
  | .push p t =>
    let h := s.penOf c
    let t := { t with tick := (s.pen h).tick, org := some h, col := e.col }
    s.modCore c (fun k => { k with tx := k.tx.set p (k.tx[p] ++ [t]) })
  | .store els _ => els.zipIdx.foldl (fun s x =>
      let a := x.1.1
      if nearCore a = c then s.nearWrite a x.1.2
      else { s with mesh := s.mesh ++ [{ src := c, dst := nearCore a, store := true, addr := a, bytes := x.1.2, ord := e.ord,
                                         sub := e.sub, i := x.2 }] }) s
  | .cmd m =>
    let s := if m.ladleKind.isSome && m.acquires && !m.zero then s.acquireAt m (s.scopeOf m) else s
    let m := if m.zero then m else s.capture m
    let s := if m.zero then s else s.count c 8 1
    let s := s.modPen (s.penOf c) (fun p => { p with cmds := p.cmds ++ [m.id] })
    s.modCore c (fun k => { k with out := k.out ++ [m] })

/-- Release every entry a core's queue holds, in program order. -/
def State.releaseCore (s : State) (c : Nat) : State :=
  let es := cqSort (s.core c).cq
  es.foldl (fun s e => s.releaseEntry c e) (s.modCore c (fun k => { k with cq := [] }))

/-- Commands of a core whose tokens it has not popped (R292): not yet released, released and not completed, and those whose tokens
stand in its ports. -/
def State.unpopped (s : State) (c : Nat) : List Nat :=
  let k := s.core c
  (k.cq.filterMap (fun e => match e.eff with
    | .cmd m => some m.id
    | _ => none)) ++ k.out.map (·.id) ++ (s.pen (s.penOf c)).cmds ++ k.rx.toList.flatMap (fun r => r.avail.filterMap (·.cmd))

/-- The request of an F6 word, its registers read on the issue beat (R166). -/
def State.mkCmd (s : State) (i : Instr) (o : F6) (sync zero : Bool) : Cmd :=
  let k := s.curCore
  let p := s.curPen
  { id := s.fresh, core := s.cur.core, pen := s.penOf s.cur.core, ctx := p.ctx, tick := p.tick, word := i, o := o,
    cmd := k.rdS o.cmd, a := k.rdS o.a, b := k.rdS o.b, sync := sync, zero := zero, ord := k.ord, slot := s.cur.slot,
    it := p.it, rgn := recRgn p, opens := s.unpopped s.cur.core }

/-- An asynchronous command takes a commit-queue entry (R56, R166); an inactive one only its zero token (R50). -/
def State.asyncWord (s : State) (i : Instr) (h : Hdr) (o : F6) : State :=
  let m := s.mkCmd i o false (!s.curCore.active h)
  let s := { s with fresh := s.fresh + 1 }
  s.modCur (fun k => (k.enqueue { ord := k.ord, eff := .cmd m }).tickOrd)

/-- A synchronisation word (R53, R167): it releases the core's queue, whose pushes are routed at once (R371), is sent directly, and holds the slot after it; it is
performed once for each time its slot is reached. A bad register is a machine check (R173). -/
def State.syncWord (s : State) (i : Instr) (h : Hdr) (o : F6) (bad : Cmd → Bool) : State :=
  let c := s.cur.core
  let m := s.mkCmd i o true false
  if !s.curCore.active h || s.curPen.sent.contains c then s.modCur Core.tickOrd
  else if bad m then (s.stopHere .machineCheck 0 0).modCur Core.tickOrd
  else
    let s := { (s.releaseCore c).routePen (s.penOf c) with fresh := s.fresh + 1 }
    let s := s.modPen (s.penOf c) (fun p => { p with syncs := p.syncs ++ [m], sent := p.sent ++ [c] })
    s.modCur (fun k => Core.tickOrd { k with out := k.out ++ [m] })

end Sys2Proof.Machine
end

