-- ==== Sys2Proof/Machine/Ladle.lean ====
section
/-! DEFINITION. The ladle (R174, R175, R233, R234, R236 to R250, R256, R259, R260, R314): records and descriptors, the
elements of a command, their conversion, and LADLE_EXECUTE. -/

namespace Sys2Proof

/-- The code of 1.0 in a scale format. -/
def ScaleFmt.one : ScaleFmt → Nat
  | .e8m0 => 127
  | .fp16 => 0x3C00
  | .dm8 => (finishFin .dm8 {} false 1 1 0).1
  | .fp32 => 0x3F800000

/-- Rounding modes by their code (R23). -/
def Rm.ofBits (n : Nat) : Rm := if n = 0 then .rne else if n = 1 then .rtz else if n = 2 then .down else .dither

namespace Machine

/-! ### Checks -/

/-- Is the record malformed by itself (R174, R244, R246, R250)? -/
def LRec.malformed (r : LRec) (kind : Option Nat) : Bool :=
  let nth := fun (l : List Nat) (i : Nat) => l.getD i 0
  r.rsvd || r.kind = 0 || 6 < r.kind || (match kind with | some k => r.kind != k | none => false)
    || (r.kind != 4 && (nth r.c 3 != 0 || nth r.d 3 != 0 || nth r.e 3 != 0 || r.win.any (· != 0)))
    || (r.kind != 2 && r.kind != 3 && (r.ilist != 0 || r.icnt != 0))
    || ((r.kind = 2 || r.kind = 3) && (r.icnt = 0 || r.ilist % 4 != 0 || nth r.e 1 != 0 || 1 < nth r.e 2 || r.xp))
    || (r.kind = 4 && ([0, 1, 2, 3, 6, 7].any (fun i => nth r.win i = 0) || nth r.c 3 = 0 || nth r.e 2 = 0))
    || (r.kind = 5 && (r.src != 0 || r.scm != 0)) || (r.kind = 6 && r.dst != 0)

/-! ### Descriptors (R236, R237) -/

/-- Element coordinates. -/
abbrev Coord := Nat × Nat × Nat

/-- A descriptor in use: its base and scale array resolved, its format the one that places elements (R237). -/
structure LDesc where
  near : Bool := false
  base : Nat := 0
  e0 : Nat := 0
  e1 : Nat := 1
  e2 : Nat := 1
  s1 : Nat := 0
  s2 : Nat := 0
  fmt : Fmt := .fp32
  bcm : Nat := 0
  tiled : Bool := false
  scale : Nat := 0
deriving DecidableEq, Repr, Inhabited

/-- Sign extension of an address field of `n` bits to 64. -/
def canon (n v : Nat) : Nat := (signed n v % 2 ^ 64).toNat

def LDesc.ofChunk (d : Chunk) (base : Nat) (f : Fmt) : LDesc :=
  { near := descSpc d = 1, base := base, e0 := descExt0 d, e1 := descExt1 d, e2 := descExt2 d, s1 := descStride1 d
    s2 := descStride2 d, fmt := f, bcm := descBcm d, tiled := descLay d = 1
    scale := if descSpc d = 1 then descScale d % 2 ^ 32 else canon 52 (descScale d) }

/-- A descriptor R250 refuses, used with elements of format `f`. -/
def descBad (d : Chunk) (f : Fmt) : Bool :=
  1 < descSpc d || 1 < descLay d || (f.scaled && descLay d = 0 && descScale d % 16 != 0)

/-- An address moved in the space of a descriptor (R237). -/
def LDesc.move (d : LDesc) (a n : Nat) : Nat := if d.near then nearMove a n else (a + n) % 2 ^ 64

/-- The byte address of an element's first bit and the bit in that byte (R13, R237). -/
def LDesc.elem (d : LDesc) (x : Coord) : Nat × Nat :=
  let (x0, x1, x2) := x
  let (row, i) := if d.tiled then
      (x2 * d.s2 + (x1 / 32 * ((d.e0 + 31) / 32) + x0 / 32) * d.fmt.slotBytes + x1 % 32 * 4 * d.fmt.bits, x0 % 32)
    else (x2 * d.s2 + x1 * d.s1, x0)
  (d.move (d.move d.base row) (i * d.fmt.bits / 8), i * d.fmt.bits % 8)

/-- The address of the scale that covers an element (R21, R135, R237). -/
def LDesc.scaleAt (d : LDesc) (x : Coord) : Nat :=
  let (x0, x1, x2) := x
  let f := d.fmt
  if d.tiled then
    let start := x2 * d.s2 + (x1 / 32 * ((d.e0 + 31) / 32) + x0 / 32) * f.slotBytes
    let i := if f.tileScaled then 0 else x1 % 32 * f.rowScales + (if f.rowScales = 2 then x0 % 32 / 16 else 0)
    d.move (d.move d.base start) (f.tileData + i * f.scale.bytes)
  else
    let i := if f.tileScaled then (x2 * ((d.e1 + 31) / 32) + x1 / 32) * ((d.e0 + 31) / 32) + x0 / 32
      else if f.block = 0 then x2 * d.e1 + x1
      else (x2 * d.e1 + x1) * ((d.e0 + f.block - 1) / f.block) + x0 / f.block
    d.move d.scale (i * f.scale.bytes)

/-- The coordinates, inside the tensor, of the block, tile or row of an element (R248). -/
def LDesc.unit (d : LDesc) (x : Coord) : List Coord :=
  let (x0, x1, x2) := x
  let f := d.fmt
  let w := if f.tileScaled then 32
    else if d.tiled then (if f.block = 16 || f.block = 64 then f.block else 32)
    else if f.block = 0 then d.e0 else f.block
  let lo := if w = d.e0 && f.block = 0 && !d.tiled && !f.tileScaled then 0 else x0 / w * w
  let rows := if f.tileScaled then (List.range 32).map (fun r => x1 / 32 * 32 + r) else [x1]
  (rows.filter (· < d.e1)).flatMap (fun r =>
    ((List.range w).map (fun k => lo + k)).filterMap (fun k => if k < d.e0 then some ((k, r, x2) : Coord) else none))

/-- The element whose place holds the scale of a coordinate's block: under tile order a block of 64 spans two tiles, which both store
its one scale (R135). -/
def LDesc.blockHead (d : LDesc) (x : Coord) : Coord := if d.tiled && d.fmt.block = 64 then (x.1 / 64 * 64, x.2) else x

def LDesc.has (d : LDesc) (x : Coord) : Bool := x.1 < d.e0 && x.2.1 < d.e1 && x.2.2 < d.e2

/-- What BCM makes of coordinates (R238): an element, nothing, or BOUNDS at the would-be address. -/
inductive Fit | at_ (x : Coord) | none_ | out (addr : Nat)
deriving DecidableEq, Repr, Inhabited

def LDesc.fit (d : LDesc) (zf : Bool) (x : Coord) : Fit :=
  if d.has x then .at_ x
  else if zf then .none_
  else if d.bcm = 0 then .out (d.elem x).1
  else if d.bcm = 2 || d.e0 = 0 then .none_
  else if d.bcm = 1 then .at_ (Nat.min x.1 (d.e0 - 1), Nat.min x.2.1 (d.e1 - 1), Nat.min x.2.2 (d.e2 - 1))
  else .at_ (x.1 % d.e0, x.2.1 % d.e1, x.2.2 % d.e2)

/-! ### The elements of a command (R243, R244, R246) -/

/-- Where an element's value comes from. -/
inductive LSrc | fill | zero | at_ (x : Coord)
deriving DecidableEq, Repr, Inhabited

/-- One element: source, destination, and the first BOUNDS address. -/
structure LOp where
  src : LSrc
  dst : Option Coord
  out : Option Nat := none
deriving DecidableEq, Repr, Inhabited

/-- An element from its source and its destination coordinates. -/
def mkOp (r : LRec) (sd dd : LDesc) (src : Option Coord) (pad : Bool) (dst : Coord) : LOp :=
  let a : LSrc × Option Nat := match src with
    | none => (if pad then .zero else .fill, none)
    | some x => match sd.fit r.zf x with
      | .at_ y => (.at_ y, none)
      | .none_ => (.zero, none)
      | .out n => (.zero, some n)
  let b : Option Coord × Option Nat := if r.kind = 6 then (none, none) else match dd.fit false dst with
    | .at_ y => (some y, none)
    | .none_ => (none, none)
    | .out n => (none, some n)
  { src := a.1, dst := b.1, out := match a.2 with | some n => some n | none => b.2 }

/-- The extents of the region (R243). -/
def LRec.extents (r : LRec) (sd dd : LDesc) : Nat × Nat × Nat :=
  let (t, o) := if r.kind = 6 then (sd, r.c) else (dd, r.d)
  let xp := r.xp && r.kind != 6
  let left := fun (k : Nat) => match k with
    | 0 => t.e0 - o.getD 0 0
    | 1 => t.e1 - o.getD 1 0
    | _ => t.e2 - o.getD 2 0
  let take := fun (i k : Nat) => if r.e.getD i 0 = 0 then left k else r.e.getD i 0
  (take 0 (if xp then 1 else 0), take 1 (if xp then 0 else 1), take 2 2)

/-- The destination of region element (x0, x1, x2). -/
def LRec.dest (r : LRec) (x0 x1 x2 : Nat) : Coord :=
  let d := fun i => r.d.getD i 0
  if r.xp then (d 0 + x1, d 1 + x0, d 2 + x2) else (d 0 + x0, d 1 + x1, d 2 + x2)

/-- The source of a window element (R246): none for padding. -/
def winSrc (r : LRec) (sd : LDesc) (m k : Nat) : Option Coord :=
  let w := fun i => r.win.getD i 0
  let c := fun i => r.c.getD i 0
  let cn := r.e.getD 2 0
  let p := c 1 + m
  let oh := c 2 + p / c 3
  let ow := p % c 3
  let j := k / cn % w 1
  let i := k / (cn * w 1)
  let y : Int := ((oh * w 2 + i * w 6 : Nat) : Int) - w 4
  let x : Int := ((ow * w 3 + j * w 7 : Nat) : Int) - w 5
  if w 0 ≤ i || y < 0 || (sd.e2 : Int) ≤ y || x < 0 || (sd.e1 : Int) ≤ x then none else some (c 0 + k % cn, x.toNat, y.toNat)

/-- The element sequence (R243, R244, R246). -/
def LRec.ops (r : LRec) (sd dd : LDesc) (list : List Nat) : List LOp :=
  let (e0, e1, e2) := r.extents sd dd
  let c := fun i => r.c.getD i 0
  let d := fun i => r.d.getD i 0
  if r.kind = 4 then
    (List.range e1).flatMap (fun m => (List.range e0).map (fun k =>
      mkOp r sd dd (winSrc r sd m k) true (r.dest k m 0)))
  else if r.kind = 2 then
    list.zipIdx.flatMap (fun y => (List.range e0).map (fun x0 =>
      mkOp r sd dd (some (c 0 + x0, y.1, c 2)) true (d 0 + x0, d 1 + y.2, d 2)))
  else if r.kind = 3 then
    list.zipIdx.flatMap (fun y => (List.range e0).map (fun x0 =>
      mkOp r sd dd (some (c 0 + x0, c 1 + y.2, c 2)) true (d 0 + x0, y.1, d 2)))
  else
    (List.range e2).flatMap (fun x2 => (List.range e1).flatMap (fun x1 => (List.range e0).map (fun x0 =>
      mkOp r sd dd (if r.kind = 5 then none else some (c 0 + x0, c 1 + x1, c 2 + x2)) false (r.dest x0 x1 x2))))

/-- Does a command write whole scale units (R248)? -/
def wholeUnits (dd : LDesc) (written : List Coord) : Bool :=
  !dd.fmt.scaled || written.all (fun x => (dd.unit x).all (fun y => written.contains y))

/-- May SCM and the formats go together (R247)? A prefetch that names no DFMT has no format written. -/
def scmOk (r : LRec) (sf df : Fmt) : Bool :=
  if r.kind = 6 && r.dfmt = 31 then true
  else if r.scm = 1 then !df.scaled || df.scale = ScaleFmt.fp32
  else if r.scm = 2 then df.scaled
  else r.kind = 5 || !df.scaled || df = sf

/-! ### Values (R245, R247) -/

/-- The bits are copied as they stand (R245); under SCM 11 the values are formed and only the scales are (R247). -/
def LRec.copies (r : LRec) (sf df : Fmt) : Bool := r.kind != 5 && sf = df && r.scm = 0

/-- The scales are those of the source (R247). -/
def LRec.keepsScales (r : LRec) (sf df : Fmt) : Bool := r.kind != 5 && sf = df && (r.scm = 0 || r.scm = 3)

/-- The exact value of an element read as `x`, code and scale (R21, R245). -/
def LRec.value (r : LRec) (sf : Fmt) (src : LSrc) (x : Nat × Nat) : FVal :=
  match src with
  | .fill => .dec .fp32 r.scale
  | .zero => .fin false 0 0
  | .at_ _ => if sf.scaled then scaledVal sf x.1 x.2 else .dec sf x.1

/-- v divided by a scale for an unscaled format (R247). -/
def divEnc (f : Fmt) (rnd : Rnd) (v s : FVal) : Nat :=
  match s with
  | .nan _ | .inf _ => (finishNan f false).1
  | .fin sn sm se =>
    if sm = 0 then 0
    else match v with
      | .nan sig => (finishNan f sig).1
      | .inf n => (finishInf f rnd (n != sn)).1
      | .fin n m e => (finishFin f rnd (n != sn) m sm (e - se)).1

/-- The code written for an element: `scale` the code of its destination scale (R245, R247). -/
def LRec.encode (r : LRec) (sf df : Fmt) (rnd : Rnd) (src : LSrc) (x : Nat × Nat) (scale : Nat) : Nat :=
  if r.copies sf df then x.1
  else
    let v := r.value sf src x
    if df.scaled then (encScaled df rnd v scale).1
    else if r.scm = 1 then divEnc df rnd v (.dec .fp32 r.scale)
    else match src with
      | .at_ _ => if sf.scaled then (v.finish df rnd).1 else (convert df sf rnd x.1).1
      | _ => (v.finish df rnd).1

/-- The 32x32 tile of a coordinate, ordered row-major in its plane. -/
def tileOf (x : Coord) : Nat × Nat × Nat := (x.2.2, x.2.1 / 32, x.1 / 32)

/-- How many different destination tiles come before a coordinate's (R27). -/
def tilesBefore (written : List Coord) (x : Coord) : Nat :=
  let lt := fun (a b : Nat × Nat × Nat) => a.1 < b.1 || (a.1 = b.1 && (a.2.1 < b.2.1 || (a.2.1 = b.2.1 && a.2.2 < b.2.2)))
  ((written.map tileOf).filter (fun t => lt t (tileOf x))).eraseDups.length

/-- The phase after `n` tiles (R26). -/
def phaseAfter (dith : Nat) : Nat → BitVec 16
  | 0 => BitVec.ofNat 16 dith
  | n + 1 => ditherAdvance (phaseAfter dith n)

/-- Rounding at a destination (R27, R245). -/
def LRec.rnd (r : LRec) (written : List Coord) (x : Coord) : Rnd :=
  { rm := Rm.ofBits r.rm, sat := r.sat
    thr := if r.rm = 3 then ditherThr (phaseAfter r.dith (tilesBefore written x)).toNat (x.2.1 % 32) (x.1 % 32) else 0 }

/-! ### Reading -/

/-- Read bytes of a command's memory: near space or a virtual address through the die's view; a fault says where. -/
def State.ladRead (s : State) (m : Cmd) (near : Bool) (a n : Nat) : Except (Nat × XFault) (List Byte) :=
  if near then
    if s.poisoned (nearKeys a n) then .error (a, .poison) else .ok (s.nearRead m.core a n)
  else match s.places m.ctx a n .rd with
    | .error e =>
      let i := (List.range n).find? (fun i => match s.places m.ctx (a + i) 1 .rd with | .error _ => true | .ok _ => false)
      .error (a + i.getD 0, e)
    | .ok pl => match s.readPlaces (s.viewer m.ctx (s.ladAgent m)) pl none with
      | .error e => .error (a, e)
      | .ok bs => .ok bs

/-- The virtual addresses of an element's bytes, its scale's among them. -/
def LDesc.addrs (d : LDesc) (x : Coord) : List Nat :=
  let (a, b) := d.elem x
  (List.range ((b + d.fmt.bits + 7) / 8)).map (a + ·)
    ++ (if d.fmt.scaled then (List.range d.fmt.scale.bytes).map (d.scaleAt x + ·) else [])

/-- The virtual 4 KiB pages under compression that an element's bytes lie on. -/
def State.elemChunks (s : State) (m : Cmd) (d : LDesc) (x : Coord) : List Nat :=
  (d.addrs x).filterMap (fun va => match s.xlate m.ctx va .rd with
    | .ok (_, attr) => if bitAt attr 4 then some (va / 4096) else none
    | .error _ => none)

/-- Does poison stand on a byte of an element, or of its scale, that lies on no page under compression? -/
def State.rawPoisoned (s : State) (m : Cmd) (d : LDesc) (x : Coord) : Bool :=
  !d.near && (d.addrs x).any (fun va => match s.xlate m.ctx va .rd with
    | .ok (pa, attr) => !bitAt attr 4 && s.poison.contains pa
    | .error _ => false)

/-- Read one element: code, scale and 0; 1 where its chunk does not decode, 2 where its chunk or its near-space bytes are poisoned
(R256, R352, R353). Poison outside a chunk stops the command (R260, log 103). -/
def State.ladElem (s : State) (m : Cmd) (d : LDesc) (x : Coord) : Except (Nat × XFault) (Nat × Nat × Nat) :=
  let (a, b) := d.elem x
  let bad := fun (e : Nat × XFault) => match e.2 with
    | .decode => Except.ok (0, 0, 1)
    | .poison => if s.rawPoisoned m d x then .error e else .ok (0, 0, 2)
    | _ => .error e
  match s.ladRead m d.near a ((b + d.fmt.bits + 7) / 8) with
  | .error e => bad e
  | .ok bs =>
    let code := leNat bs / 2 ^ b % 2 ^ d.fmt.bits
    if !d.fmt.scaled then .ok (code, 0, 0)
    else match s.ladRead m d.near (d.scaleAt x) d.fmt.scale.bytes with
      | .error e => bad e
      | .ok sb => .ok (code, leNat sb, 0)

/-- Read the elements in sequence, up to a fault. -/
def State.ladReads (s : State) (m : Cmd) (d : LDesc) : List LOp → List (Nat × Nat × Nat) × Option (Nat × XFault)
  | [] => ([], none)
  | o :: os =>
    let here := match o.src with
      | .at_ x => s.ladElem m d x
      | _ => .ok (0, 0, 0)
    match here with
    | .error e => ([], some e)
    | .ok g =>
      let r := State.ladReads s m d os
      (g :: r.1, r.2)

/-- Insert into a rising list without repeats. -/
def insNat (n : Nat) : List Nat → List Nat
  | [] => [n]
  | x :: xs => if n < x then n :: x :: xs else if n = x then x :: xs else x :: insNat n xs

/-- How the chunk of a virtual page reads. -/
def State.pageFails (s : State) (m : Cmd) (pg : Nat) : Option XFault :=
  match s.xlate m.ctx (4096 * pg) .rd with
  | .ok (pa, _) => (match s.chunkRead (s.viewer m.ctx (s.ladAgent m)) (pa / 4096) with
    | .error x => some x
    | .ok _ => none)
  | .error _ => none

/-- The pages under compression that some operations read, in ascending address. -/
def State.srcPages (s : State) (m : Cmd) (d : LDesc) (ops : List LOp) : List Nat :=
  if d.near then [] else (ops.flatMap (fun o => match o.src with
    | .at_ x => s.elemChunks m d x
    | _ => [])).foldl (fun l n => insNat n l) []

/-- The source chunks that have failed, with those of the elements just read that did (R256). -/
def State.readFails (s : State) (m : Cmd) (d : LDesc) (fails : List (Nat × Bool)) (els : List (LOp × Nat × Nat × Nat)) : List (Nat × Bool) :=
  (s.srcPages m d ((els.filter (fun x => x.2.2.2 != 0)).map (·.1))).foldl (fun l pg =>
    if l.any (fun f => f.1 = pg) then l
    else match s.pageFails m pg with
      | some x => l ++ [(pg, decide (x = .poison))]
      | none => l) fails

/-- Chunks with how they have failed, if they have. -/
def failedOf (fails : List (Nat × Bool)) (pages : List Nat) : List (Nat × Option XFault) :=
  pages.map (fun pg => (pg, (fails.find? (fun f => f.1 = pg)).map (fun f => if f.2 then XFault.poison else .decode)))

/-- The source chunks of a command in ascending address, and how those that failed when they were read did (R256). -/
def State.srcChunks (s : State) (m : Cmd) (d : LDesc) (fails : List (Nat × Bool)) (ops : List LOp) : List (Nat × Option XFault) :=
  failedOf fails (fails.foldl (fun l f => insNat f.1 l) (s.srcPages m d ops))

/-! ### Writing -/

/-- A masked write: the address of its first byte, and masks with bytes. -/
structure LWrite where
  addr : Nat
  bytes : List (Byte × Byte)
deriving DecidableEq, Repr, Inhabited

/-- A code of `n` bits at bit `b` of its first byte. -/
def codeWrite (a b n code : Nat) : LWrite :=
  let k := (b + n + 7) / 8
  { addr := a, bytes := (leBytes k ((2 ^ n - 1) * 2 ^ b)).zip (leBytes k (code % 2 ^ n * 2 ^ b)) }

/-- Bits set in a mask: what a masked byte counts for in e4 (R259). -/
def maskBits (b : Byte) : Nat := (List.range 8).countP (fun i => b.getLsbD i)

/-- Bytes written only in part stay poisoned (R353). -/
def State.keepPoison (s : State) (ks : List Nat) (t : State) : State :=
  { t with poison := t.poison ++ ks.filter (fun k => s.poison.contains k && !t.poison.contains k) }

/-- Write near-space bytes for a ladle command: performed first for the issuing core alone (R287). -/
def State.nearLate (s : State) (m : Cmd) (a : Nat) (ps : List (Byte × Byte)) : State :=
  let ks := nearKeys a ps.length
  let olds := ks.map (fun k => (k, s.mem.get k))
  let bs := (olds.zip ps).map (fun x => mergeByte x.1.2 x.2.1 x.2.2)
  let t := s.keepPoison (((ks.zip ps).filter (fun x => x.2.1 != 255)).map (·.1)) (s.nearWrite a bs)
  { t with late := t.late ++ [{ agent := s.agent m, olds := olds }] }

/-- What writing has come to: writes done, bits counted for e4; patches for chunks, with their virtual addresses, wait to be
merged. -/
structure LProg where
  pos : Nat
  bits : Nat
  pend : List (Nat × Patch) := []
deriving DecidableEq, Repr, Inhabited

/-- Write in sequence, up to a fault (R175, R249); e4 counts what is written outside compressed pages here (R259, R302). -/
def State.ladWrites (s : State) (m : Cmd) (near : Bool) : LProg → List LWrite → State × LProg × Option (Nat × XFault)
  | p, [] => (s, p, none)
  | p, w :: ws =>
    if near then
      (s.nearLate m w.addr w.bytes).ladWrites m near { p with pos := p.pos + 1, bits := w.bytes.foldl (fun n b => n + maskBits b.1) p.bits } ws
    else match s.places m.ctx w.addr w.bytes.length .wr with
      | .error e => (s, p, some (w.addr, e))
      | .ok pl =>
        let ps : List Patch := pl.zip w.bytes
        let raw := ps.filter (fun q => !bitAt q.1.2 4)
        let t := s.keepPoison ((raw.filter (fun q => q.2.1 != 255)).map (·.1.1)) (s.rawPatches (some (s.ladAgent m)) (s.keyOf m.ctx) ps)
        let t := t.peerWrite m.ctx (raw.map (·.1.1))
        let pend := (ps.zipIdx.filter (fun q => bitAt q.1.1.2 4)).map (fun q => (w.addr + q.2, q.1))
        t.ladWrites m near { pos := p.pos + 1, bits := raw.foldl (fun n q => n + maskBits q.2.1) p.bits, pend := p.pend ++ pend } ws

/-- A chunk is read, as a die's counters see it: its sectors, its expanded bytes, and its failure to decode (R316, log 100). -/
def State.chunkNote (s : State) (ctx pn : Nat) (x : Option XFault) : State :=
  let d := paDie (4096 * pn)
  let n := chunkSectors (leNat ((List.range 8).map (fun i => s.physByte (s.home ctx) (s.hdrAt pn + i))))
  ((s.countDie d 2 n).countDie d 3 (if x.isNone then 4096 else 0)).countDie d 4 (if x = some .decode then 1 else 0)

/-- Merge the waiting patches into their chunks as they stand (R254): the state, the bits written, and the virtual addresses of the
chunks that failed, and whether by poison. -/
def State.ladFlush (s : State) (die : Nat) (m : Cmd) (df : Fmt) (p : LProg) : State × Nat × List (Nat × Bool) :=
  let ps := p.pend.map (·.2)
  let key := s.keyOf m.ctx
  (patchChunks ps).foldl (fun a pn =>
    let mine := p.pend.filter (fun q => q.2.1.1 / 4096 = pn)
    let va := ((mine.head?.map (·.1)).getD 0) / 4096 * 4096
    let note := fun (s : State) (x : Option XFault) => if chunkFull pn ps then s else (s.readNote die m.ctx (4096 * pn)).chunkNote m.ctx pn x
    match a.1.chunkMerge (a.1.home m.ctx) pn ps with
    | .ok bs => ((note a.1 none).chunkWrite (some (s.ladAgent m)) key (some df) pn bs, mine.foldl (fun n q => n + maskBits q.2.2.1) a.2.1, a.2.2)
    | .error x => (note a.1 (some x), a.2.1, a.2.2 ++ [(va, decide (x = .poison))])) (s, p.bits, [])

/-! ### Trail records (R314) and counters (R316) -/

/-- The queues of a request's way as masks of a trail record's words 3 and 4: the ladle queue and the mesh crossbar always, the
die-to-die link to another die, the sprue queue and HBM controller for HBM, the CXL port for host memory (R314). -/
def State.trailPath (s : State) (die : Nat) (m : Cmd) (va : Nat) : W64 × W64 :=
  match s.xlatePa m.ctx va .rd with
  | .error _ => (0xFFFFFFFF00000000, 0x00000000FFFFFFFF)
  | .ok pa =>
    let hbm := !paHost pa && !paPeer pa
    (0xFFFFFFFF00000000 ||| (if paDie pa != die then 0xFFFF0000 else 0) ||| (if hbm then 0xFFFF else 0),
     0x00000000FFFFFFFF ||| (if hbm then 0xFFFF000000000000 else 0) ||| (if paHost pa then 0x0000FFFF00000000 else 0))

/-- The six queue fields of words 3 and 4 of a trail record, summed. -/
def trailSum (w3 w4 : W64) : Nat :=
  bitsOf w3 63 48 + bitsOf w3 47 32 + bitsOf w3 31 16 + bitsOf w3 15 0 + bitsOf w4 63 48 + bitsOf w4 47 32

/-- Word 4 of a trail record: its two queue fields, and the total, which is the six fields and a transit time that is free (R314). -/
def trailTotal (w3 w4 : W64) (transit : W64) : W64 :=
  BitVec.ofNat 64 (w4.toNat / 2 ^ 32 * 2 ^ 32 + trailSum w3 w4 + bitsOf transit 30 0)

/-- Note `vas`, requests of a command that have returned: counted, and one in 2^k of them written to the pen's sample buffer. The beats at
the queues a request passes, and those between, are free values (log 4). -/
def State.trailNote (s : State) (die e : Nat) (m : Cmd) (utag : Nat) (vas : List Nat) : State :=
  let s := s.countDie die 1 vas.length
  let p := s.pen m.pen
  let n0 := (s.die die).trail.toList.getD e 0
  let s := s.modDie die (fun d => { d with trail := d.trail.setIfInBounds e (n0 + vas.length) })
  if p.trk = 0 then s
  else (vas.zipIdx.filter (fun x => (n0 + x.2) % 2 ^ p.trk = 0)).foldl (fun s x =>
    let w := BitVec.ofNat 64 (p.pid.toNat * 2 ^ 48 + p.rel m.core % 256 * 2 ^ 40 + e % 64 * 2 ^ 34 + die % 4 * 2 ^ 32 + utag % 2 ^ 32)
    let on := s.trailPath die m x.1
    let w3 := Config.freeWord s.fresh &&& on.1
    let w4 := Config.freeWord (s.fresh + 1) &&& on.2
    let s := s.sample m.pen 0x02 [m.rgn, w, w3, trailTotal w3 w4 (Config.freeWord (s.fresh + 2)), BitVec.ofNat 64 x.1]
      (p.rel m.core)
    { s with fresh := s.fresh + 3 }) s

/-- The requests of a job that have returned, of `reqs` those not noted before: trail records, translations, and for reads the memory's
counters (R314, R316, R341). -/
def State.requestsNote (s : State) (die e utag : Nat) (j : Job) (reads : Bool) (reqs : List Nat) : State × Job :=
  let m := j.cmd
  let new := reqs.drop j.noted
  let s := new.foldl (fun s va =>
    let s := s.tlbUse die m.ctx va
    match s.xlatePa m.ctx va .rd with
    | .ok pa => if reads then s.readNote die m.ctx pa else s
    | .error _ => s) (s.trailNote die e m utag new)
  (s, { j with noted := max j.noted reqs.length })

/-- Chunks of some virtual pages are read (R316). -/
def State.pagesNote (s : State) (m : Cmd) (chunks : List (Nat × Option XFault)) : State :=
  chunks.foldl (fun s c => match s.xlatePa m.ctx (4096 * c.1) .rd with
    | .ok pa => s.chunkNote m.ctx (pa / 4096) c.2
    | .error _ => s) s

/-- The virtual address of the element an operation reads. -/
def LOp.srcAddr (sd : LDesc) (o : LOp) : Option Nat :=
  match o.src with
  | .at_ x => if sd.near then none else some (sd.elem x).1
  | _ => none

/-! ### LADLE_EXECUTE -/

/-- What a run of a job comes to: an answer, or the job to keep. -/
abbrev LEnd := Except Job Done

/-- The answer of a command that stops with a code. -/
def lDone (m : Cmd) (e utag code detail value : Nat) : Done :=
  { cmd := m, eng := agLadle, inst := e, code := code, detail := BitVec.ofNat 32 detail, value := BitVec.ofNat 64 value,
    e7 := BitVec.ofNat 32 utag }

/-- A fault of a job (R344): parked, or answered with the bytes written so far; a chunk or poison where nothing else can be
read is answered by its own code. -/
def State.ladFault (s : State) (die e utag : Nat) (j : Job) (e6 : BitVec 32) (acc : Acc) (va : Nat) (x : XFault) : State × LEnd :=
  match x with
  | .decode | .poison => (s, .ok { lDone j.cmd e utag x.code 0 va with e6 := e6 })
  | x =>
    let (s, f) := s.cmdFault j.cmd agLadle die e va acc x
    match f with
    | .park i => (s, .error { j with parked := some i })
    | .answer d => (s, .ok { d with e4 := BitVec.ofNat 32 (Nat.min ((j.wrote + 7) / 8) (2 ^ 32 - 1)), e6 := e6, e7 := BitVec.ofNat 32 utag })
    | .check => (s, .ok (lDone j.cmd e utag x.code 0 va))

/-- The scales a command writes: address and code (R247, R248, R259). -/
def LRec.scales (r : LRec) (sf : Fmt) (dd : LDesc) (els : List (LOp × Nat × Nat × Nat)) : Tab Nat :=
  if !dd.fmt.scaled || r.kind = 6 then []
  else
    let at_ := fun (o : LOp) => o.dst.map dd.scaleAt
    if r.keepsScales sf dd.fmt then els.foldl (fun t x => match x.1.src, at_ x.1 with
      | .at_ _, some a => if x.2.2.2 = 0 then Tab.put t a x.2.2.1 else t
      | _, _ => t) []
    else if r.scm = 2 then
      let head := fun (o : LOp) => o.dst.map (fun y => dd.scaleAt (dd.blockHead y))
      let last := els.zipIdx.filter (fun x => x.1.2.2.2 = 0 && !(els.drop (x.2 + 1)).any (fun y => y.1.dst = x.1.1.dst && y.2.2.2 = 0))
      let amax := last.foldl (fun (t : Tab FVal) x => match head x.1.1 with
        | some a => Tab.put t a (absMax ((Tab.find t a).getD (.fin false 0 0)) (r.value sf x.1.1.src (x.1.2.1, x.1.2.2.1)))
        | none => t) []
      last.foldl (fun t x => match at_ x.1.1, head x.1.1 with
        | some a, some b => Tab.put t a (scaleFor dd.fmt ((Tab.find amax b).getD (.fin false 0 0)))
        | _, _ => t) []
    else els.foldl (fun t x => match at_ x.1 with
      | some a => Tab.put t a (if r.kind = 5 then dd.fmt.scale.one else r.scale)
      | none => t) []

/-- The token of a command that has written what it can (R175, R256): POISON before DECODE_ERROR, a source chunk or element before a
destination chunk. -/
def ladToken (m : Cmd) (e utag : Nat) (e4 e6 : BitVec 32) (chunks : List (Nat × Option XFault)) (near : Option Nat)
    (bad : List (Nat × Bool)) : Done :=
  let poisoned := ((chunks.filter (fun c => c.2 = some .poison)).map (fun c => 4096 * c.1)) ++ near.toList
    ++ (bad.filter (·.2)).map (·.1)
  let fails := chunks.zipIdx.filter (fun c => c.1.2 = some .decode)
  match poisoned, fails, bad with
  | va :: _, _, _ => { lDone m e utag 11 0 va with e4 := e4, e6 := e6 }
  | [], c :: cs, _ =>
    let map := (c :: cs).foldl (fun n x => n ||| 2 ^ Nat.min x.2 63) 0
    { lDone m e utag 4 c.2 (4096 * c.1.1) with e4 := BitVec.ofNat 32 map, e5 := BitVec.ofNat 32 (map / 2 ^ 32), e6 := e6 }
  | [], [], (va, _) :: _ => { lDone m e utag 4 (2 ^ 31) va with e6 := e6 }
  | [], [], [] => { lDone m e utag 0 0 0 with e4 := e4, e6 := e6 }

/-- An engine has read bytes at some virtual addresses: it reads behind none of the writes there that it has seen as its core's (R288). -/
def State.engineRead (s : State) (m : Cmd) (vas : List Nat) : State :=
  let a := s.ladAgent m
  let pl := vas.filterMap (fun va => match s.xlate m.ctx va .rd with
    | .ok p => some p
    | .error _ => none)
  let s := s.peerRead m.ctx (pl.map (·.1))
  let hit := fun (w : ViewWrite) => w.known a && pl.any (s.touches (w.olds.map (fun o => (o.1, o.2))))
  let note := fun (w : ViewWrite) => match a.eng with
    | some e => if hit w && !w.read.contains e then { w with read := e :: w.read } else w
    | none => w
  s.modDie (coreDie m.core) (fun x => { x with remote := x.remote.map note })

/-- Perform a job whose elements are known (R245 to R249, R256, R259); `before` are the requests for its descriptors and its list. A
release holds the first write back until the core's earlier accesses are released (R168); the engine's own writes are released after
the last. -/
def State.ladPerform (s : State) (die e : Nat) (j : Job) (before : List Nat) (r : LRec) (sd dd : LDesc) (ops : List LOp) : State × LEnd :=
  let m := j.cmd
  let utag := r.utag
  let old := ops.take j.got.length
  let (more, stop) := s.ladReads m sd (ops.drop j.got.length)
  let new := (ops.drop j.got.length).take more.length
  let fails := s.readFails m sd j.fails (new.zip more)
  let s := s.pagesNote m (failedOf fails ((s.srcPages m sd new).filter (fun pg => !(s.srcPages m sd old).contains pg)))
  let j := { j with got := j.got ++ more, fails := fails }
  let els := ops.zip j.got
  let read := els.filterMap (fun x => match x.1.src with
    | .at_ _ => if x.2.2.2 = 0 then some (r.value sd.fmt x.1.src (x.2.1, x.2.2.1)) else none
    | _ => none)
  let e6 := if r.scm = 0 || read = [] then 0
    else BitVec.ofNat 32 ((read.foldl absMax (.fin false 0 0)).finish .fp32 {}).1
  let made := before ++ (ops.take j.got.length).filterMap (LOp.srcAddr sd)
  let (s, j) := s.requestsNote die e utag j true made
  let s := if sd.near then s else s.engineRead m (new.flatMap (fun o => match o.src with
    | .at_ x => sd.addrs x
    | _ => []))
  match stop with
  | some (va, x) => s.ladFault die e utag j e6 .rd va x
  | none =>
    let written := ops.filterMap (·.dst)
    let scales := r.scales sd.fmt dd els
    let writes := els.filterMap (fun x => match x.1.dst with
      | some y => if x.2.2.2 = 0 then
          let (a, b) := dd.elem y
          let sc := (Tab.find scales (dd.scaleAt y)).getD 0
          some (codeWrite a b dd.fmt.bits (r.encode sd.fmt dd.fmt (r.rnd written y) x.1.src (x.2.1, x.2.2.1) sc))
        else none
      | none => none)
    let ws := writes ++ scales.map (fun x => codeWrite x.1 0 (8 * dd.fmt.scale.bytes) x.2)
    let chunks := s.srcChunks m sd j.fails ops
    let near := if sd.near then (els.find? (fun x => x.2.2.2 = 2)).bind (fun x => match x.1.src with
      | .at_ y => some (sd.elem y).1
      | _ => none) else none
    let s := if m.releases then s.releaseAt m (s.scopeOf m) else s
    let (s, p, stop) := s.ladWrites m dd.near { pos := j.pos, bits := j.wrote } (ws.drop j.pos)
    let (s, bits, bad) := s.ladFlush die m dd.fmt p
    let (s, j) := s.requestsNote die e utag j false (made ++ (if dd.near then [] else (ws.take p.pos).map (·.addr)))
    let j := { j with pos := p.pos, wrote := bits, bad := j.bad ++ bad }
    match stop with
    | some (va, x) => s.ladFault die e utag j e6 .wr va x
    | none =>
      let s := if m.releases then s.releaseAt m (s.scopeOf m) else s
      let e4 := BitVec.ofNat 32 (Nat.min ((bits + 7) / 8) (2 ^ 32 - 1))
      (s, .ok (ladToken m e utag e4 e6 chunks near j.bad))

/-- How a prefetch meets a byte of the source: its translation, and the header of its chunk. -/
def State.prefetchBad (s : State) (m : Cmd) (va : Nat) : Option (Nat × XFault) :=
  match s.xlate m.ctx va .rd with
  | .error x => some (va, x)
  | .ok (pa, attr) =>
    let h := s.hdrAt (pa / 4096)
    if bitAt attr 4 && s.poison.any (fun k => decide (h ≤ k) && decide (k < h + 16)) then some (va / 4096 * 4096, .poison) else none

/-- A prefetch (R244): every byte of the source, its scales among them, is translated and its chunk headers read; nothing is written. -/
def State.ladPrefetch (s : State) (die e : Nat) (j : Job) (before : List Nat) (r : LRec) (sd : LDesc) (ops : List LOp) : State × LEnd :=
  let m := j.cmd
  let addrs := fun (o : LOp) => match o.src with
    | .at_ x => if sd.near then [] else sd.addrs x
    | _ => []
  let n := ops.findIdx (fun o => (addrs o).any (fun va => (s.prefetchBad m va).isSome))
  let heads := (s.srcPages m sd (ops.take n)).filterMap (fun pg => match s.xlatePa m.ctx (4096 * pg) .rd with
    | .ok pa => some (s.hdrAt (pa / 4096))
    | .error _ => none)
  let s' := (ops.take n).foldl (fun s o => (addrs o).foldl (fun s va => s.tlbUse die m.ctx va) s) s
  let s' := heads.foldl (fun s h => s.readNote die m.ctx h) s'
  let (s', j) := s'.requestsNote die e r.utag j false (before ++ (ops.take n).filterMap (LOp.srcAddr sd))
  match (ops[n]?).bind (fun o => (addrs o).findSome? (s.prefetchBad m)) with
  | some (va, x) => s'.ladFault die e r.utag j 0 .rd va x
  | none => (s', .ok (lDone m e r.utag 0 0 0))

/-- The index list of a gather or scatter (R244). -/
def State.ladList (s : State) (j : Job) (r : LRec) : Except (Nat × XFault) (List Nat) :=
  if r.icnt = 0 || j.list != [] then .ok j.list
  else (s.ladRead j.cmd false (canon 48 r.ilist) (4 * r.icnt)).map (numsOf 4 r.icnt)

/-- The scale array of a descriptor in near space that no near-space address names (R233, R237). -/
def scaleMalformed (d : Chunk) (f : Fmt) : Option Nat :=
  let a := descScale d
  if f.scaled && descSpc d = 1 && descLay d = 0 && (2 ^ 32 ≤ a || nearMalformed a) then some a else none

/-- Perform a command with its descriptors (R250, R260 in this order: malformed, near addresses, bounds). The index list is read after
the checks, but for those of a scatter's rows, which it names. -/
def State.ladWith (s : State) (die e : Nat) (j : Job) (r : LRec) (ds dd : Chunk) : State × LEnd :=
  let m := j.cmd
  let tdt := (s.pen m.pen).tdt.toNat
  let tds := (if r.kind = 5 then [] else [tdt + tdEntry * r.src]) ++ (if r.kind = 6 then [] else [tdt + tdEntry * r.dst])
  let (s, j) := s.requestsNote die e r.utag j true tds
  let stop := fun (code detail value : Nat) => ((s, .ok (lDone m e r.utag code detail value)) : State × LEnd)
  let df := if r.dfmt = 31 then descFmt dd else Fmt.ofCode r.dfmt
  let sf := if r.kind = 5 then df else descFmt ds
  let built := m.ladleKind.isNone
  let useS := r.kind != 5
  let useD := r.kind != 6
  let prel := fun (d : Chunk) => descSpc d = 1 && bitAt (descW d 0) 32
  let p := s.pen m.pen
  let base := fun (d : Chunk) => if descSpc d = 1 then resolveNear p (descW d 0) else some (descW d 0)
  let sd := LDesc.ofChunk ds ((base ds).getD 0) sf
  let dd' := LDesc.ofChunk dd ((base dd).getD 0) df
  let partUnits := fun (list : List Nat) => useD && !wholeUnits dd' ((r.ops sd dd' list).filterMap (·.dst))
  if (useS && (descBad ds sf || (built && prel ds))) || (useD && (descBad dd df || (built && prel dd))) || !scmOk r sf df
      || (r.kind != 3 && partUnits (List.replicate r.icnt 0)) then
    stop 9 1 0
  else match s.ladList j r with
    | .error (va, x) => s.ladFault die e r.utag j 0 .rd va x
    | .ok list =>
      let before := tds ++ (List.range r.icnt).map (fun i => canon 48 r.ilist + 4 * i)
      let (s, j) := s.requestsNote die e r.utag { j with list := list } true before
      let stop := fun (code detail value : Nat) => ((s, .ok (lDone m e r.utag code detail value)) : State × LEnd)
      let ops := r.ops sd dd' list
      if r.kind = 3 && partUnits list then stop 9 1 0
      else if useS && (base ds).isNone then stop 3 1 (descW ds 0)
      else if useD && (base dd).isNone then stop 3 1 (descW dd 0)
      else match (if useS && ops != [] then scaleMalformed ds sf else none), (if useD && ops != [] then scaleMalformed dd df else none) with
        | some a, _ => stop 3 1 a
        | none, some a => stop 3 1 a
        | none, none => match ops.findSome? (·.out) with
          | some a => stop 3 1 a
          | none => if r.kind = 6 then s.ladPrefetch die e j before r sd ops else s.ladPerform die e j before r sd dd' ops

/-- One run of a job (R174, R239). -/
def State.ladJob (s : State) (die e : Nat) (j : Job) : State × LEnd :=
  let m := j.cmd
  let s := if m.acquires then s.acquireAt m (s.scopeOf m) else s
  match m.ladleRec with
  | none =>
    if m.cmd.toNat % 64 != 0 then (s, .ok (lDone m e 0 9 1 0)) else (s, .ok (lDone m e 0 3 1 m.cmd.toNat))
  | some r =>
    if r.malformed m.ladleKind then (s, .ok (lDone m e r.utag 9 1 0))
    else
      let tdt := (s.pen m.pen).tdt.toNat
      let need := fun (use : Bool) (i : Nat) (have_ : List Byte) =>
        if !use then Except.ok (List.replicate tdEntry 0)
        else if have_.length = tdEntry then .ok have_
        else s.ladRead m false (tdt + tdEntry * i) tdEntry
      match need (r.kind != 5) r.src (m.img.take tdEntry), need (r.kind != 6) r.dst (m.img.drop tdEntry) with
      | .error (va, x), _ => s.ladFault die e r.utag j 0 .rd va x
      | _, .error (va, x) => s.ladFault die e r.utag j 0 .rd va x
      | .ok a, .ok b =>
        let j := { j with cmd := { m with img := a ++ b } }
        s.ladWith die e j r (BitVec.ofNat 256 (leNat a)) (BitVec.ofNat 256 (leNat b))

/-- Jobs of every engine that executes commands. -/
def State.jobs (s : State) : List Job :=
  s.dies.toList.flatMap (fun d => d.ladle.toList.flatten ++ d.bell ++ d.waits)

/-- Is a command that the chain of `m` built before it still unfinished (R272)? -/
def State.builtBefore (s : State) (m : Cmd) : Bool := s.jobs.any (fun j => j.cmd.chain = m.chain && j.cmd.id < m.id)

/-- May a job run: not parked, no answer of a member awaited (R365), and its placement after earlier accesses met (R168, R272, R344)? -/
def State.jobReady (s : State) (j : Job) : Bool :=
  j.parked.isNone && !s.peersOpen j.cmd.id && (match j.cmd.chain with
    | none => s.mayRelease j.cmd
    | some _ => j.cmd.o.ord = Ord3.none || (!s.builtBefore j.cmd && s.flushed j.cmd false))

/-- Flushes of the releases at pod scope among some jobs go out (R364). -/
def State.askFlushes (s : State) (js : List Job) : State :=
  js.foldl (fun s j => if j.cmd.chain.isSome && s.builtBefore j.cmd then s else s.askFlush j.cmd false) s

/-! ### Total store order (R294) -/

/-- The physical bytes on pages with the TSO attribute among some addresses; it has no effect on a peer page (R365). -/
def State.tsoBytes (s : State) (ctx : Nat) (vas : List Nat) : List Nat :=
  vas.filterMap (fun va => match s.xlate ctx va .rd with
    | .ok (pa, attr) => if bitAt attr 6 && !paPeer pa then some pa else none
    | .error _ => none)

/-- The virtual addresses of the bytes that a job reads beside its descriptors, and that it writes. -/
def State.jobAddrs (s : State) (j : Job) : List Nat × List Nat :=
  let m := j.cmd
  match m.ladleRec with
  | none => ([], [])
  | some r =>
    let desc := fun (use : Bool) (i : Nat) => if !use then (0 : Chunk) else
      match s.vread m.ctx ((s.pen m.pen).tdt.toNat + tdEntry * i) tdEntry with
      | .error _ => 0
      | .ok bs => BitVec.ofNat 256 (leNat bs)
    let ds := desc (r.kind != 5) r.src
    let dd := desc (r.kind != 6) r.dst
    let df := if r.dfmt = 31 then descFmt dd else Fmt.ofCode r.dfmt
    let sd := LDesc.ofChunk ds (descW ds 0) (if r.kind = 5 then df else descFmt ds)
    let dd' := LDesc.ofChunk dd (descW dd 0) df
    let ilist := if r.icnt = 0 then [] else (List.range (4 * r.icnt)).map (canon 48 r.ilist + ·)
    let list := match s.ladList j r with
      | .ok l => l
      | .error _ => []
    let ops := r.ops sd dd' list
    let reads := if sd.near then [] else ops.flatMap (fun o => match o.src with
      | .at_ x => sd.addrs x
      | _ => [])
    let writes := if dd'.near then [] else ops.flatMap (fun o => match o.dst with
      | some x => dd'.addrs x
      | none => [])
    (ilist ++ reads, writes)

/-- The bytes of pages with the TSO attribute that a job reads, and that it writes. -/
def State.tsoSets (s : State) (j : Job) : List Nat × List Nat :=
  (s.tsoBytes j.cmd.ctx (s.jobAddrs j).1, s.tsoBytes j.cmd.ctx (s.jobAddrs j).2)

/-- The virtual address by which a job reaches a physical one: the answer of a member that refuses it names it (R365). -/
def State.jobVa (s : State) (j : Job) (pa : Nat) : Nat :=
  (((s.jobAddrs j).1 ++ (s.jobAddrs j).2).find? (fun va => match s.xlatePa j.cmd.ctx va .rd with
    | .ok p => decide (p / 64 = pa / 64)
    | .error _ => false)).getD 0

/-- May a job run before an earlier one of its engine: under TSO only a read may pass, and only a write to another location? -/
def State.tsoFree (s : State) (before j : Job) : Bool :=
  let a := s.tsoSets before
  let b := s.tsoSets j
  (a.1 = [] && a.2 = []) || (b.1 = [] && b.2 = []) || (b.2 = [] && a.1 = [] && !b.1.any (fun k => a.2.contains k))

/-- LADLE_EXECUTE: the first job of the engine that may run, its effects whole (R241, R294); one that reaches the memory of pod members waits
for their answers (R365). -/
def execLadleExecute (die e : Nat) (s : State) : Out :=
  let js := (s.die die).ladle.toList.getD e []
  let s := s.askFlushes js
  match js.zipIdx.findIdx? (fun x => s.jobReady x.1 && (js.take x.2).all (fun b => s.tsoFree b x.1)) with
  | none => .next s
  | some i =>
    let j := js.getD i { cmd := { id := 0 } }
    let (t, out) := s.ladJob die e j
    let ends := fun (t : State) (dn : Done) =>
      (t.modDie die (fun d => { d with ladle := d.ladle.setIfInBounds e (js.eraseIdx i) })).answer { dn with die := die }
    s.keyGuard die j.cmd.ctx (s.peerGate j.cmd.id (match out with
      | .error j => t.modDie die (fun d => { d with ladle := d.ladle.setIfInBounds e (js.set i j) })
      | .ok dn => ends t dn) (fun code detail pa => ends s (lDone j.cmd e ((j.cmd.ladleRec.map (·.utag)).getD 0) code detail (s.jobVa j pa))))

end Machine

end Sys2Proof
end

