-- ==== Sys2Proof/Machine/Accept.lean ====
section
/-! DEFINITION. ENGINE_ACCEPT: where a released command goes and whether its engine has room (R166, R167, R177, R186, R264,
R281). -/

namespace Sys2Proof.Machine

open Sys2Proof

def State.chain (s : State) (d c : Nat) : Chain := (s.die d).chains.toList.getD c {}

def State.modChain (s : State) (d c : Nat) (f : Chain → Chain) : State :=
  s.modDie d (fun x => if h : c < 4 then { x with chains := x.chains.set c (f x.chains[c]) } else x)

/-! ### Records of a `dsend` (R263, R264) -/

/-- A record from its 72 bytes. -/
def DRec.ofBytes (bs : List Byte) (m : Cmd) : DRec :=
  let h := wordAt bs 0
  { tag := h.extractLsb' 48 16, dest := h.extractLsb' 36 12, stat := h.extractLsb' 28 8
    f := (numsOf 4 16 (bs.drop 8)).map (BitVec.ofNat 32), id := m.id, ctx := m.ctx, pen := m.pen, tick := m.tick }

/-- The records of a command, in ascending order. -/
def sendRecs (m : Cmd) : List (List Byte) := (List.range m.a.toNat).map (fun i => (m.img.drop (72 * i)).take 72)

/-- A record R264 refuses: a reserved header bit, or DEST bit 8. -/
def recBad (bs : List Byte) : Bool := bitsOf (wordAt bs 0) 24 0 != 0 || bitAt (wordAt bs 0).toNat 44

/-- The answer of a drove command. -/
def dvDone (m : Cmd) (at_ : Nat × Nat) (code detail : Nat) (value : W64) (e4 : Nat) : Done :=
  { cmd := m, eng := agDrove, die := at_.1, inst := at_.2, code := code, detail := BitVec.ofNat 32 detail, value := value, e4 := BitVec.ofNat 32 e4 }

/-- The die and chain of a drove command (R183, R184). -/
def Cmd.chainOf (m : Cmd) : Nat × Nat :=
  let i := m.o.imm
  match m.word with
  | .dsend .. | .dcommit .. => (if bitAt i.toNat 4 then coreDie m.core else bitsOf i 3 2, bitsOf i 1 0)
  | _ => (if bitAt i.toNat 8 then coreDie m.core else bitsOf i 7 6, bitsOf i 5 4)

/-- Take a `dsend` (R183, R264). -/
def State.takeSend (s : State) (m : Cmd) : State :=
  let (d, c) := m.chainOf
  let n := m.a.toNat
  if (s.chain d c).owner != some m.ctx then s.answer (dvDone m (d, c) 9 6 0 0)
  else if n = 0 || 64 < n || m.img.length != 72 * n || (sendRecs m).any recBad then s.answer (dvDone m (d, c) 9 1 0 0)
  else if s.poisoned (nearKeys m.cmd.toNat (72 * n)) then s.answer (dvDone m (d, c) 11 0 m.cmd 0)
  else s.modChain d c (fun x => { x with waiting := x.waiting ++ (sendRecs m).map (fun b => DRec.ofBytes b m), sends := x.sends ++ [(m, n)] })

/-! ### Homes and room -/

/-- Bytes of the word a bellwether command names: its list header for `apop` and `apush`. -/
def Cmd.atomAcc (m : Cmd) : Acc :=
  match m.word with
  | .ald .. | .awaitSync .. | .awaitAsync .. | .liter .. => .rd
  | _ => .atomic

/-- The die whose bellwether executes a command (R177, R181): the home of its word; the core's die for a fence, a quad or die
barrier and where the address does not translate; die 0 for wider barriers. -/
def State.homeOf (s : State) (m : Cmd) : Nat :=
  match m.word with
  | .bar .. | .arrive .. | .bwait .. => if m.o.sc = .quad || m.o.sc = .die then coreDie m.core else 0
  | .fenceSync .. | .fenceAsync .. => coreDie m.core
  | _ => match s.xlatePa m.ctx m.cmd.toNat m.atomAcc with
    | .ok pa => if paPeer pa then coreDie m.core else paDie pa
    | .error _ => coreDie m.core

/-- Commands a bellwether holds: from acceptance until the token is delivered or the pen released (R166, R167, R172). -/
def State.bellLoad (s : State) (h : Nat) : List Cmd :=
  let d := s.die h
  (d.bell ++ d.waits).map (·.cmd) ++ d.arrivals ++ d.bars.flatMap (fun b => b.2.waiting) ++ (s.tokensOf agBell h).map (·.cmd)

/-- Room for a command of a core at a bellwether (R166). -/
def State.bellRoom (s : State) (h c : Nat) : Bool :=
  (s.bellLoad h).length < 4096 && ((s.bellLoad h).filter (fun m => m.core = c)).length < 64

/-- Room in the queue of a ladle engine (R166). -/
def State.ladleRoom (s : State) (d e : Nat) : Bool :=
  ((s.die d).ladle.toList.getD e []).length + ((s.tokensOf agLadle d).filter (fun x => x.inst = e)).length < 64

/-- The sink or operator a command of the demand unit names. -/
def State.duTarget (s : State) (m : Cmd) : Option Nat :=
  match m.word with
  | .lexp .. | .limp .. => s.sinkPen m m.a
  | _ => s.sinkPen m m.cmd

/-- Commands the demand units of a pen hold (R166). -/
def State.duLoad (s : State) (h : Nat) : Nat :=
  let u := (s.pen h).du
  u.inbox.length + u.atBoundary.length + u.posted.length
    + (s.dones.filter (fun d => d.eng = agDemand && d.cmd.host.isNone && s.duTarget d.cmd = some h)).length

/-- Table commands a chain holds (R166). -/
def State.chainOps (s : State) (d c : Nat) : Nat :=
  (s.chain d c).ops.length + (s.chain d c).commit.toList.length + ((s.tokensOf agDrove d).filter (fun x => x.inst = c && (match x.cmd.word with
    | .dtw .. | .dtd .. | .dcommit .. | .dtr .. => true
    | _ => false))).length

/-- Offer a command to its engine: the state with it taken, none where the engine has no room (R166). -/
def State.accept (s : State) (m : Cmd) : Option State :=
  let c := m.core
  let d := coreDie c
  if m.zero then some (s.answer { cmd := m, eng := 0, die := d })
  else match m.word with
    | .lcopy .. | .lcopyShort .. | .lgath .. | .lscat .. | .lwin .. | .lfill .. | .lprf .. | .lprfShort .. | .droveExit .. =>
      let e := (s.core c).eng
      let q := (s.die d).ladle.toList.getD e []
      if s.ladleRoom d e then some (s.modDie d (fun x => { x with ladle := x.ladle.setIfInBounds e (q ++ [{ cmd := m }]) })) else none
    | .aadd .. | .amin .. | .amax .. | .aand .. | .aor .. | .axor .. | .aswap .. | .acas .. | .ald .. | .ast .. | .awaitSync ..
    | .awaitAsync .. | .apop .. | .apush .. | .fenceSync .. | .fenceAsync .. | .liter .. =>
      let h := s.homeOf m
      if s.bellRoom h c then some (s.modDie h (fun x => { x with bell := x.bell ++ [{ cmd := m }] })) else none
    | .bar .. | .arrive .. =>
      let h := s.homeOf m
      if s.bellRoom h c then some (s.modDie h (fun x => { x with arrivals := x.arrivals ++ [m] })) else none
    | .bwait .. =>
      let h := s.homeOf m
      if s.bellRoom h c then some (s.modDie h (fun x => { x with waits := x.waits ++ [{ cmd := m }] })) else none
    | .dsend .. => some (s.takeSend m)
    | .dtw .. | .dtd .. | .dcommit .. | .dtr .. =>
      let (d, ch) := m.chainOf
      if (s.chain d ch).owner != some m.ctx then some (s.answer (dvDone m (d, ch) 9 6 0 0))
      else if s.chainOps d ch < 16 then some (s.modChain d ch (fun x => { x with ops := x.ops ++ [m] })) else none
    | .dmd .. | .dret .. | .dstat .. | .ckpt .. | .lexp .. | .limp .. =>
      match s.duTarget m with
      | none => some (s.answer (abortDone m agDemand d 1))
      | some h => if s.duLoad h < 16 then some (s.modDu h (fun u => { u with inbox := u.inbox ++ [m] })) else none
    | .dabn .. =>
      let was := (s.pen m.pen).du.abandoned.contains m.tick || ((s.pen m.pen).tick = m.tick && (s.pen m.pen).du.curAbandoned)
      some ((if was then s else s.abandon s.pens.length m.pen m.tick).answer
        { s.duDone m.pen m with e4 := if was then 1 else 0 })
    | .cfgld .. | .swap .. =>
      if (s.die d).loader.length + (s.tokensOf agLoader d).length < 8 then some (s.modDie d (fun x => { x with loader := x.loader ++ [m] })) else none
    | _ => some s

/-- Offer a core's oldest released command to its engine. -/
def State.offer (s : State) (c : Nat) : Option State :=
  match (s.core c).out with
  | [] => none
  | m :: rest => (s.accept m).map (fun s => s.modCore c (fun k => { k with out := rest }))

/-- Offer all of a core's released commands, in order, while they are taken. Fuel: the commands waiting. -/
def State.offerAll (s : State) (c : Nat) : Nat → State
  | 0 => s
  | n + 1 => match s.offer c with
    | none => s
    | some s => s.offerAll c n

/-- ENGINE_ACCEPT. -/
def execEngineAccept (c : Nat) (s : State) : Out := .next ((s.offer c).getD s)

end Sys2Proof.Machine
end

