-- ==== Sys2Proof/Machine/Async.lean ====
section
/-! DEFINITION. The command and synchronisation words of the X column (R166, R167, R173): each puts its request on the way
to its engine; what the engine does with it stands with the engine's own steps. -/

namespace Sys2Proof.Machine

open Sys2Proof

/-! Ladle commands (R174, R175): performed by LADLE_EXECUTE. -/

def execLcopy (h : Hdr) (o : F6) (s : State) : Out := .next (s.asyncWord (.lcopy h o) h o)

def execLcopyShort (h : Hdr) (o : F6) (s : State) : Out := .next (s.asyncWord (.lcopyShort h o) h o)

def execLgath (h : Hdr) (o : F6) (s : State) : Out := .next (s.asyncWord (.lgath h o) h o)

def execLscat (h : Hdr) (o : F6) (s : State) : Out := .next (s.asyncWord (.lscat h o) h o)

def execLwin (h : Hdr) (o : F6) (s : State) : Out := .next (s.asyncWord (.lwin h o) h o)

def execLfill (h : Hdr) (o : F6) (s : State) : Out := .next (s.asyncWord (.lfill h o) h o)

def execLprf (h : Hdr) (o : F6) (s : State) : Out := .next (s.asyncWord (.lprf h o) h o)

def execLprfShort (h : Hdr) (o : F6) (s : State) : Out := .next (s.asyncWord (.lprfShort h o) h o)

/-! State of an operator out and in (R176), performed by DEMAND_UNIT_COMMAND. -/

def execLexp (h : Hdr) (o : F6) (s : State) : Out := .next (s.asyncWord (.lexp h o) h o)

def execLimp (h : Hdr) (o : F6) (s : State) : Out := .next (s.asyncWord (.limp h o) h o)

/-! Bellwether commands (R177 to R180), performed by BELLWETHER_OP. -/

def execAadd (h : Hdr) (o : F6) (s : State) : Out := .next (s.asyncWord (.aadd h o) h o)

def execAmin (h : Hdr) (o : F6) (s : State) : Out := .next (s.asyncWord (.amin h o) h o)

def execAmax (h : Hdr) (o : F6) (s : State) : Out := .next (s.asyncWord (.amax h o) h o)

def execAand (h : Hdr) (o : F6) (s : State) : Out := .next (s.asyncWord (.aand h o) h o)

def execAor (h : Hdr) (o : F6) (s : State) : Out := .next (s.asyncWord (.aor h o) h o)

def execAxor (h : Hdr) (o : F6) (s : State) : Out := .next (s.asyncWord (.axor h o) h o)

def execAswap (h : Hdr) (o : F6) (s : State) : Out := .next (s.asyncWord (.aswap h o) h o)

def execAcas (h : Hdr) (o : F6) (s : State) : Out := .next (s.asyncWord (.acas h o) h o)

def execAld (h : Hdr) (o : F6) (s : State) : Out := .next (s.asyncWord (.ald h o) h o)

def execAst (h : Hdr) (o : F6) (s : State) : Out := .next (s.asyncWord (.ast h o) h o)

def execAwaitAsync (h : Hdr) (o : F6) (s : State) : Out := .next (s.asyncWord (.awaitAsync h o) h o)

def execApop (h : Hdr) (o : F6) (s : State) : Out := .next (s.asyncWord (.apop h o) h o)

def execApush (h : Hdr) (o : F6) (s : State) : Out := .next (s.asyncWord (.apush h o) h o)

/-! Barrier arrival and fence (R181, R182). -/

def execArrive (h : Hdr) (o : F6) (s : State) : Out := .next (s.asyncWord (.arrive h o) h o)

def execFenceAsync (h : Hdr) (o : F6) (s : State) : Out := .next (s.asyncWord (.fenceAsync h o) h o)

/-! Drove commands (R183, R184). -/

def execDsend (h : Hdr) (o : F6) (s : State) : Out := .next (s.asyncWord (.dsend h o) h o)

def execDtw (h : Hdr) (o : F6) (s : State) : Out := .next (s.asyncWord (.dtw h o) h o)

def execDtd (h : Hdr) (o : F6) (s : State) : Out := .next (s.asyncWord (.dtd h o) h o)

def execDcommit (h : Hdr) (o : F6) (s : State) : Out := .next (s.asyncWord (.dcommit h o) h o)

def execDtr (h : Hdr) (o : F6) (s : State) : Out := .next (s.asyncWord (.dtr h o) h o)

/-! Demand commands (R185, R186). -/

def execDmd (h : Hdr) (o : F6) (s : State) : Out := .next (s.asyncWord (.dmd h o) h o)

def execDabn (h : Hdr) (o : F6) (s : State) : Out := .next (s.asyncWord (.dabn h o) h o)

def execDret (h : Hdr) (o : F6) (s : State) : Out := .next (s.asyncWord (.dret h o) h o)

def execDstat (h : Hdr) (o : F6) (s : State) : Out := .next (s.asyncWord (.dstat h o) h o)

def execCkpt (h : Hdr) (o : F6) (s : State) : Out := .next (s.asyncWord (.ckpt h o) h o)

/-! Configuration commands (R189). -/

def execCfgld (h : Hdr) (o : F6) (s : State) : Out := .next (s.asyncWord (.cfgld h o) h o)

def execSwap (h : Hdr) (o : F6) (s : State) : Out := .next (s.asyncWord (.swap h o) h o)

/-! Synchronisation words (R167): `await` and `liter` check their address, `bar` its expected count (R173, R181). -/

/-- The largest expected count of a barrier's scope instance (R181). -/
def barLimit (sc : Scope) : Nat :=
  match sc with
  | .quad => 4
  | .die => coresPerDie
  | _ => 2 ^ 32

/-- Is an expected count out of range (R173, R181)? -/
def barBad (m : Cmd) : Bool := m.a = 0 || barLimit m.o.sc < m.a.toNat

def execAwaitSync (h : Hdr) (o : F6) (s : State) : Out :=
  .next (s.syncWord (.awaitSync h o) h o (fun m => m.cmd.toNat % atomBytes o.sub.val != 0))

def execBar (h : Hdr) (o : F6) (s : State) : Out := .next (s.syncWord (.bar h o) h o barBad)

def execBwait (h : Hdr) (o : F6) (s : State) : Out := .next (s.syncWord (.bwait h o) h o (fun _ => false))

def execFenceSync (h : Hdr) (o : F6) (s : State) : Out := .next (s.syncWord (.fenceSync h o) h o (fun _ => false))

def execLiter (h : Hdr) (o : F6) (s : State) : Out :=
  .next (s.syncWord (.liter h o) h o (fun m => m.cmd.toNat % 8 != 0))

end Sys2Proof.Machine
end

