-- ==== Sys2Proof/Machine/Bellwether.lean ====
section
/-! DEFINITION. The bellwethers: atomics (R177, R178), await and liter (R179, R187), free lists (R180), barriers (R181, R366)
and fences (R182), and their events. -/

namespace Sys2Proof.Machine

open Sys2Proof

/-- The answer of a command by the bellwether of a die. -/
def bwDone (die : Nat) (m : Cmd) (code detail : Nat) (value : W64) : Done :=
  { cmd := m, eng := agBell, die := die, code := code, detail := BitVec.ofNat 32 detail, value := value }

/-- A synchronisation word is done: its engine releases the pen (R167). -/
def State.syncEnd (s : State) (m : Cmd) : State :=
  s.modPen m.pen (fun p => { p with syncs := p.syncs.filter (fun c => c.id != m.id) })

/-- What performing a job comes to. -/
inductive BEnd
  | answer (d : Done)
  /-- the job stays where it is, as it now stands -/
  | keep (j : Job)
  /-- the job waits on its word -/
  | wait (j : Job)
  /-- a synchronisation word is done -/
  | released
  /-- a synchronisation word failed; the pen takes a machine check -/
  | failed
deriving DecidableEq, Repr, Inhabited

/-- A job's fault (R177, R344). A chunk that does not decode is answered as poison is: the spec gives a bellwether no other code for it
(log 99). -/
def State.bellFault (s : State) (die : Nat) (j : Job) (va : Nat) (acc : Acc) (x : XFault) : State × BEnd :=
  match x with
  | .decode | .poison =>
    if j.cmd.sync then (s.met die x, .failed)
    else (s, .answer { bwDone die j.cmd 11 0 (BitVec.ofNat 64 va) with undec := x = .decode })
  | x =>
    let (s, f) := s.cmdFault j.cmd agBell die 0 va acc x
    match f with
    | .park i => (s, .keep { j with parked := some i })
    | .answer d => (s, .answer d)
    | .check => (s, .failed)

/-! ### Atomics (R177) -/

/-- The new value of the word, and flags. -/
def atomNew (m : Cmd) (old : Nat) : Nat × Flags :=
  let ty := m.o.sub.val % 8
  let w := 8 * atomBytes m.o.sub.val
  let a := m.a.toNat % 2 ^ w
  let b := m.b.toNat % 2 ^ w
  let least := fun (x y : Nat) => if ty < 2 then decide (signed w x ≤ signed w y) else decide (x ≤ y)
  match m.word with
  | .aadd .. => if ty = 2 then fpAdd .fp32 {} false (.dec .fp32 old) (.dec .fp32 a) else ((old + a) % 2 ^ w, 0)
  | .amin .. => if ty = 2 then minMax .fp32 false old a else (if least old a then old else a, 0)
  | .amax .. => if ty = 2 then minMax .fp32 true old a else (if least a old then old else a, 0)
  | .aand .. => (old &&& a, 0)
  | .aor .. => (old ||| a, 0)
  | .axor .. => (old ^^^ a, 0)
  | .acas .. => (if old = b then a else old, 0)
  | .ald .. => (old, 0)
  | _ => (a, 0)

/-- Does the word lie in host memory on a page that is not host-shared, so that it is read and written apart (R295)? -/
def splitAtomic (pl : List (Nat × Nat)) : Bool := pl.any (fun p => paHost p.1 && !bitAt p.2 7)

/-- Note a line of a host-shared page as held (R295). -/
def State.holdLine (s : State) (pl : List (Nat × Nat)) : State :=
  match pl with
  | (pa, attr) :: _ => if paHost pa && bitAt attr 7 && !s.hostLines.contains (pa / 64) then { s with hostLines := s.hostLines ++ [pa / 64] } else s
  | [] => s

/-- Order placed on a command: acquire before its accesses, release after them (R168). -/
def State.acq (s : State) (m : Cmd) : State := if m.acquires then s.acquireAt m (s.scopeOf m) else s
def State.rel (s : State) (m : Cmd) : State := if m.releases then s.releaseAt m (s.scopeOf m) else s

/-- Write a command's word at its places (R168): after the release of what precedes it, and then released itself. -/
def State.relWrite (s : State) (m : Cmd) (pl : List (Nat × Nat)) (bs : List Byte) : Except XFault State :=
  ((s.rel m).writePlaces (some (s.agent m)) m.ctx pl bs).map (fun s => s.rel m)

/-- The word of a bellwether command by its OP; `await` in its asynchronous form (R173, R274). -/
def bellWord (op : Nat) (o : F6) : Option Instr :=
  match op with
  | 0x20 => some (.aadd {} o) | 0x21 => some (.amin {} o) | 0x22 => some (.amax {} o) | 0x23 => some (.aand {} o)
  | 0x24 => some (.aor {} o) | 0x25 => some (.axor {} o) | 0x26 => some (.aswap {} o) | 0x27 => some (.acas {} o)
  | 0x28 => some (.ald {} o) | 0x29 => some (.ast {} o) | 0x2A => some (.awaitAsync {} o) | 0x2B => some (.apop {} o)
  | 0x2C => some (.apush {} o)
  | _ => none

/-- The OP of an atomic (R173). -/
def atomOp : Instr → Nat
  | .amin .. => 0x21 | .amax .. => 0x22 | .aand .. => 0x23 | .aor .. => 0x24 | .axor .. => 0x25 | .aswap .. => 0x26 | .acas .. => 0x27
  | .ald .. => 0x28 | .ast .. => 0x29
  | _ => 0x20

/-- An atomic reaches its word: on peer memory it leaves for the member, whose bellwether executes it (R365). -/
def State.atomNote (s : State) (die : Nat) (m : Cmd) (pa : Nat) : State :=
  if paPeer pa then s.peerFlit flAtomic m.ctx pa [atomOp m.word, m.o.sub.val, m.a.toNat, m.b.toNat] else s.readNote die m.ctx pa

def State.atomJob (s : State) (die : Nat) (j : Job) : State × BEnd :=
  let m := j.cmd
  let n := atomBytes m.o.sub.val
  let va := m.cmd.toNat
  if va % n != 0 then (s, .answer (bwDone die m 3 2 m.cmd))
  else match s.places m.ctx va n m.atomAcc with
    | .error x => s.bellFault die j va m.atomAcc x
    | .ok pl => match (match j.got with | g :: _ => Except.ok (leBytes n g.1) | [] => s.readPlaces (s.home m.ctx) pl none) with
      | .error x => s.bellFault die j va m.atomAcc x
      | .ok bs =>
        let old := leNat bs
        let s := (((s.holdLine pl).acq m).tlbUse die m.ctx va).atomNote die m (pl.headD (0, 0)).1
        let split := splitAtomic pl && (match m.word with | .ald .. => false | _ => true)
        if split && j.got = [] then (s, .keep { j with got := [(old, 0, 0)] })
        else
          let (new, fl) := atomNew m old
          let done := bwDone die m 0 fl.toNat (BitVec.ofNat 64 old)
          match m.word with
          | .ald .. => ((s.rel m).countDie die 7 1, .answer done)
          | _ => match s.relWrite m pl (leBytes n new) with
            | .error x => s.bellFault die j va m.atomAcc x
            | .ok s => (s.countDie die 7 1, .answer done)

/-! ### Waits (R179, R187) -/

/-- Does a word satisfy the condition of an `await` (R89, R179)? -/
def awaitHolds (cc w x y : Nat) : Bool :=
  match cc with
  | 0 => x = y
  | 1 => x != y
  | 2 => decide (signed w x < signed w y)
  | 3 => decide (signed w x ≤ signed w y)
  | 4 => decide (x < y)
  | _ => decide (x ≤ y)

/-- The deadline of an asynchronous `await`: units of 1,024 drove cycles. -/
def State.deadline (s : State) (m : Cmd) : List Nat := if m.sync || m.o.imm = 0 then [] else [s.time + 2048 * m.o.imm.toNat]

/-- Does a value satisfy the condition a waiter's command states (R89, R179, R187)? -/
def Cmd.holds (m : Cmd) (v : Nat) : Bool :=
  match m.word with
  | .liter .. => decide (m.a.toNat ≤ v)
  | _ =>
    let w := 8 * atomBytes m.o.sub.val
    awaitHolds (m.o.sub.val / 8 % 8) w v (m.a.toNat % 2 ^ w)

/-- The satisfying value an `await` completes with: of those written since it was last tested the first, else the word as it stands
(R179). -/
def Job.hit (j : Job) (now : Nat) : Option Nat := (j.seen ++ [now]).find? j.cmd.holds

/-- A bellwether reads places of a command's memory at a virtual address (R316, R341, R363). -/
def State.bellRead (s : State) (die : Nat) (m : Cmd) (va : Nat) (pl : List (Nat × Nat)) : State :=
  match pl with
  | (pa, _) :: _ => (if paPeer pa then (s.tlbUse die m.ctx va).peerRead m.ctx (pl.map (·.1)) else (s.tlbUse die m.ctx va).readNote die m.ctx pa)
  | [] => s

/-- The first read of a waiter's word; what is written to it later comes by the writes (R179), but for a word of another member, which
is read each time (R365). -/
def State.firstRead (s : State) (die : Nat) (j : Job) (pl : List (Nat × Nat)) : State :=
  if j.watch = [] || pl.any (fun p => paPeer p.1) then s.bellRead die j.cmd j.cmd.cmd.toNat pl else s

/-- Test an `await` (R179). -/
def State.awaitJob (s : State) (die : Nat) (j : Job) : State × BEnd :=
  let m := j.cmd
  let n := atomBytes m.o.sub.val
  let va := m.cmd.toNat
  if va % n != 0 then (s, .answer (bwDone die m 3 2 m.cmd))
  else match s.places m.ctx va n .rd with
    | .error x => s.bellFault die j va .rd x
    | .ok pl => match s.readPlaces (s.home m.ctx) pl none with
      | .error x => s.bellFault die j va .rd x
      | .ok bs =>
        let s := (s.holdLine pl).firstRead die j pl
        match j.hit (leNat bs) with
        | some v => (s.acq m, if m.sync then .released else .answer (bwDone die m 0 0 (BitVec.ofNat 64 v)))
        | none => (s, .wait { j with got := [(leNat bs, 0, 0)], list := if j.list = [] then s.deadline m else j.list, watch := pl, seen := [] })

/-- Test a `liter`, and load ITER when its flag allows (R42, R187). -/
def State.literJob (s : State) (die : Nat) (j : Job) : State × BEnd :=
  let m := j.cmd
  let va := m.cmd.toNat
  match s.places m.ctx va 12 .rd with
  | .error x => s.bellFault die j va .rd x
  | .ok pl => match s.readPlaces (s.home m.ctx) pl none with
    | .error x => s.bellFault die j va .rd x
    | .ok bs =>
      let s := s.firstRead die j pl
      match j.hit (wordAt bs 0).toNat with
      | none => (s, .wait { j with watch := pl.take 8, seen := [] })
      | some _ =>
        let it := BitVec.ofNat 32 (leNat ((bs.drop 8).take 4))
        ((s.acq m).modPen m.pen (fun p => { p with iterNext := if it = 0 then 1 else it }), .released)

/-! ### Free lists (R180) -/

/-- Entries granted to each sequence in turn: sequences served, entries moved, from `count` held. -/
def grants : List Nat → Nat → List Nat
  | [], _ => []
  | n :: ns, count => if count < n then [] else n :: grants ns (count - n)

/-- The indices of the entries moved, in output order. -/
def grantIdx : List Nat → Nat → List Nat
  | [], _ => []
  | n :: ns, count => (List.range n).map (fun i => count - n + i) ++ grantIdx ns (count - n)

def State.listJob (s : State) (die : Nat) (j : Job) (push : Bool) : State × BEnd :=
  let m := j.cmd
  let va := m.cmd.toNat
  let stop := fun (code detail : Nat) (v : W64) => ((s, .answer (bwDone die m code detail v)) : State × BEnd)
  if va % 16 != 0 || !nearOk m.a || m.a.toNat % 8 != 0 then stop 9 1 0
  else
    let w0 := leNat (s.nearRead m.core m.a.toNat 8)
    let n := w0 % 65536
    let bytes := if push then 8 + 4 * n else 72
    if (push && (n = 0 || 1024 < n || 65536 ≤ w0)) || (!push && (n = 0 || 32 < n || 256 ≤ w0)) then stop 9 1 0
    else if s.poisoned (nearKeys m.a.toNat bytes) then stop 11 0 m.a
    else
      let batch := s.nearRead m.core m.a.toNat bytes
      let needs := numsOf 2 32 (batch.drop 8)
      if !push && (needs.drop n).any (· != 0) then stop 9 1 0
      else match s.places m.ctx va 16 .atomic with
        | .error x => s.bellFault die j va .atomic x
        | .ok hp => match s.readPlaces (s.home m.ctx) hp none with
          | .error x => s.bellFault die j va .atomic x
          | .ok h =>
            let arr := (wordAt h 0).toNat
            let count := bitsOf (wordAt h 1) 63 32
            let cap := bitsOf (wordAt h 1) 31 0
            let g := grants (needs.take n) count
            let out := g.foldl (· + ·) 0
            let lo := if push then count else count - out
            let len := if push then n else out
            if arr % 4 != 0 then stop 3 2 (BitVec.ofNat 64 arr)
            else if push && cap < count + n then stop 3 4 m.cmd
            else match s.places m.ctx (arr + 4 * lo) (4 * len) .atomic with
              | .error x => s.bellFault die j (arr + 4 * lo) .atomic x
              | .ok ap =>
                let newCount := leBytes 4 (if push then count + n else count - out)
                let s := ((s.acq m).bellRead die m va hp).bellRead die m (arr + 4 * lo) ap
                let sent := fun (s : State) (pl : List (Nat × Nat)) => s.peerWrite m.ctx ((pl.map (·.1)).filter paPeer)
                match (s.rel m).writePlaces (some (s.agent m)) m.ctx (hp.drop 12) newCount with
                | .error x => s.bellFault die j va .atomic x
                | .ok s1 =>
                  let s1 := sent s1 (hp.drop 12)
                  if push then match s1.writePlaces (some (s.agent m)) m.ctx ap ((batch.drop 8).take (4 * n)) with
                    | .error x => s.bellFault die j (arr + 4 * lo) .atomic x
                    | .ok s2 => ((sent s2 ap).rel m, .answer (bwDone die m 0 0 0))
                  else match s.readPlaces (s.home m.ctx) ap none with
                    | .error x => s.bellFault die j (arr + 4 * lo) .atomic x
                    | .ok bs =>
                      let ents := numsOf 4 out bs
                      let outB := (grantIdx g count).flatMap (fun i => leBytes 4 (ents.getD (i - lo) 0))
                      let s2 := s1.nearLate m (m.a.toNat + 72) (outB.map (fun b => (255, b)))
                      (s2.rel m, .answer { bwDone die m (if g.length = n then 0 else 7) 0 0 with
                        e4 := BitVec.ofNat 32 g.length, e5 := BitVec.ofNat 32 out })

/-! ### BELLWETHER_OP -/

/-- A synchronous `fence` (R182): its release, and once that is performed at its scope (R291) its acquire, which releases the pen. -/
def State.fenceJob (s : State) (j : Job) : State × BEnd :=
  let m := j.cmd
  match j.clock with
  | some _ => (s.acq m, .released)
  | none =>
    let s := s.rel m
    if m.releases && 4 ≤ s.scopeOf m then (s, .keep { j with clock := some (s.clockOf m.core) }) else (s.acq m, .released)

/-- Perform one job (R177 to R182, R187). One whose place holds an uncorrectable error completes with POISON (R352). -/
def State.bellJob (s : State) (die : Nat) (j : Job) : State × BEnd :=
  let m := j.cmd
  if j.upset then (if m.sync then s.ueMet die else s, if m.sync then .failed else .answer (bwDone die m 11 0 m.cmd))
  else match m.word with
  | .awaitSync .. | .awaitAsync .. => s.awaitJob die j
  | .liter .. => s.literJob die j
  | .apop .. => s.listJob die j false
  | .apush .. => s.listJob die j true
  | .fenceSync .. => s.fenceJob j
  | .fenceAsync .. => (s.rel m, .answer (bwDone die m 0 0 0))
  | _ => s.atomJob die j

/-- Operations that stand in the one total order of R293. -/
def Cmd.total (m : Cmd) : Bool := m.o.ord = Ord3.both && 4 ≤ m.o.sc.code

/-- May a job of a bellwether run: ready, a fence's release performed, and no earlier operation of its core stands before it in the total order (R293)? -/
def State.bellReady (s : State) (j : Job) : Bool :=
  s.jobReady j && (match j.clock with
    | some c => s.applied c
    | none => true) && !(j.cmd.total && s.dies.toList.any (fun d => d.bell.any (fun k =>
    k.cmd.core = j.cmd.core && k.cmd.total && decide (k.cmd.ord < j.cmd.ord))))

/-- Put the outcome of a job into the state: it has left its list already. -/
def State.bellEnd (s : State) (die : Nat) (m : Cmd) (put : Job → State → State) (e : BEnd) : State :=
  match e with
  | .answer d => s.answer d
  | .keep j => put j s
  | .wait j => s.modDie die (fun x => { x with waits := x.waits ++ [j] })
  | .released => s.syncEnd m
  | .failed => s.syncFail m

/-- The end of a command that a member refuses (R365): its code, or a machine check for a synchronisation word (R167). -/
def Cmd.refused (m : Cmd) (die code detail : Nat) : BEnd :=
  if m.sync then .failed else .answer (bwDone die m code detail m.cmd)

/-- BELLWETHER_OP: the first job that may run, whole. -/
def execBellwetherOp (die : Nat) (s : State) : Out :=
  let js := (s.die die).bell
  let s := s.askFlushes js
  match js.findIdx? (fun j => s.bellReady j) with
  | none => .next s
  | some i =>
    let j := js.getD i { cmd := { id := 0 } }
    let r := s.modDie die (fun x => { x with bell := js.eraseIdx i })
    let back := fun (j : Job) (s : State) => s.modDie die (fun x => { x with bell := x.bell.take i ++ [j] ++ x.bell.drop i })
    let (t, e) := r.bellJob die j
    s.keyGuard die j.cmd.ctx (s.peerGate j.cmd.id (t.bellEnd die j.cmd back e) (fun code detail _ => r.bellEnd die j.cmd back (j.cmd.refused die code detail)))

/-! ### Barriers (R181) -/

/-- The name of a barrier: SC, instance, pod tag, id. -/
def State.barKey (s : State) (m : Cmd) : Nat :=
  let i := match m.o.sc with
    | .quad => coreDie m.core * 192 + coreIdx m.core / 32 * 16 + coreIdx m.core % 16 / 2
    | .die => coreDie m.core
    | _ => 0
  let tag := if m.o.sc = .pod then s.podTag m.ctx else 0
  ((m.o.sc.code * 1024 + i) * 65536 + tag) * 256 + m.o.imm.toNat % 256

/-- The generation of a barrier releases: its count starts again and its waiting `bar` words are done, with their acquires. -/
def State.barRelease (s : State) (die key : Nat) : State :=
  let b := (Tab.find (s.die die).bars key).getD {}
  let s := s.modDie die (fun x => { x with bars := Tab.put x.bars key { gen := b.gen + 1 } })
  b.waiting.foldl (fun s m => (s.acq m).syncEnd m) s

/-- Does an arrival name more than its scope instance has, and is a number R181 does not allow? -/
def Cmd.tooMany (m : Cmd) : Bool := decide (barLimit m.o.sc < m.a.toNat) && decide (barLimit m.o.sc < 2 ^ 32)
def Cmd.badNumber (m : Cmd) : Bool := m.a.toNat = 0 || decide (2 ^ 32 < m.a.toNat)

/-- Is an arrival at a barrier that a pod switch counts (R364, R366)? -/
def State.podBar (s : State) (m : Cmd) : Bool := m.o.sc = .pod && s.podTag m.ctx != 0

/-- An arrival as the pod's switch counts it (R366). -/
def State.podArr (s : State) (m : Cmd) : PodArr :=
  { member := s.member, id := m.id, num := m.a.toNat, ctx := m.ctx, pid := (s.pen m.pen).pid.toNat, rel := (s.pen m.pen).rel m.core,
    die := coreDie m.core }

/-- Count one arrival (R181, R366). Whether an arrival at a pod barrier names another number than its generation's first is the switch's
to find. -/
def State.barCount (s : State) (die : Nat) (m : Cmd) : State :=
  let key := s.barKey m
  let n := m.a.toNat
  let async := match m.word with | .arrive .. => true | _ => false
  if m.tooMany then
    if async then s.modPen m.pen (fun p => p.keepStop s.time .machineCheck (p.rel m.core) .x m.slot m.it) else s.syncFail m
  else if m.badNumber then
    if async then s.answer (bwDone die m 9 1 0) else s.syncFail m
  else
    let s := if m.clock = [] then s.rel m else s
    let b := (Tab.find (s.die die).bars key).getD {}
    let first := b.count = 0
    let exp := if first then n else b.expected
    let s := if exp != n && !s.podBar m then
        s.postEvent m.ctx 0x04 (s.pen m.pen).pid.toNat ((s.pen m.pen).rel m.core) (coreDie m.core)
          [BitVec.ofNat 64 (m.o.imm.toNat % 256), BitVec.ofNat 64 m.o.sc.code, BitVec.ofNat 64 exp, m.a]
      else s
    let b := { b with expected := exp, count := b.count + 1, waiting := if async then b.waiting else b.waiting ++ [m] }
    let s := s.modDie die (fun x => { x with bars := Tab.put x.bars key b })
    let s := if async then
        (s.modCore m.core (fun k => { k with arrGen := Tab.put k.arrGen key b.gen })).answer (bwDone die m 0 0 (BitVec.ofNat 64 (b.gen % 2 ^ 32)))
      else s
    if s.podBar m then
      let g := (Tab.find s.svc.gather key).getD ([], [])
      { s with svc := { s.svc with gather := Tab.put s.svc.gather key (g.1 ++ [s.podArr m], g.2) } }
    else if exp ≤ b.count then s.barRelease die key else s

/-- Does an arrival's release at package scope wait to be performed at all four dies (R291)? -/
def State.arrivalWide (s : State) (m : Cmd) : Bool := m.releases && s.scopeOf m = 4 && !m.tooMany && !m.badNumber

/-- The releases at package scope of arrivals whose earlier accesses are performed begin. -/
def State.arrivalsRelease (s : State) (die : Nat) : State :=
  (s.die die).arrivals.zipIdx.foldl (fun s x =>
    if s.arrivalWide x.1 && x.1.clock = [] && s.mayRelease x.1 then
      let s := s.rel x.1
      s.modDie die (fun d => { d with arrivals := d.arrivals.set x.2 { x.1 with clock := s.clockOf x.1.core } })
    else s) s

/-- May an arrival be counted: its release performed (R168, R291)? -/
def State.arrivalReady (s : State) (m : Cmd) : Bool := s.mayRelease m && (!s.arrivalWide m || (m.clock != [] && s.applied m.clock))

/-- BARRIER_COUNT: the first arrival whose release is performed is counted. -/
def execBarrierCount (die : Nat) (s : State) : Out :=
  let s := (s.die die).arrivals.foldl (fun s m => s.askFlush m false) (s.arrivalsRelease die)
  let ms := (s.die die).arrivals
  match ms.findIdx? (fun m => s.arrivalReady m) with
  | none => .next s
  | some i => .next ((s.modDie die (fun x => { x with arrivals := ms.eraseIdx i })).barCount die (ms.getD i { id := 0 }))

/-- May a `bwait` go on: its core's last `arrive` on the barrier has been counted and its generation has released, or there is
none (R181)? -/
def State.bwaitDone (s : State) (die : Nat) (m : Cmd) : Bool :=
  let key := s.barKey m
  let before := (s.die die).arrivals.any (fun a => a.core = m.core && s.barKey a = key && a.ord < m.ord &&
    (match a.word with | .arrive .. => true | _ => false))
  !before && (match Tab.find (s.core m.core).arrGen key with
    | none => true
    | some g => g < ((Tab.find (s.die die).bars key).getD {}).gen)

/-- AWAIT_RECHECK: waiter `n` of a die is checked against its word or barrier (R179, R181, R187, R296). -/
def execAwaitRecheck (die n : Nat) (s : State) : Out :=
  let ws := (s.die die).waits
  match ws[n]? with
  | none => .next s
  | some j =>
    let drop := fun (s : State) => s.modDie die (fun x => { x with waits := ws.eraseIdx n })
    let back := fun (j : Job) (s : State) => s.modDie die (fun x => { x with waits := x.waits.take n ++ [j] ++ x.waits.drop n })
    if j.parked.isSome then .next s
    else match j.cmd.word with
      | .bwait .. => if s.bwaitDone die j.cmd then .next (((drop s).acq j.cmd).syncEnd j.cmd) else .next s
      | _ =>
        if s.peersOpen j.cmd.id then .next s
        else
          let (s', e) := (drop s).bellJob die j
          s.keyGuard die j.cmd.ctx (s.peerGate j.cmd.id (match e with
            | .wait j => back j s'
            | e => s'.bellEnd die j.cmd back e) (fun code detail _ => (drop s).bellEnd die j.cmd back (j.cmd.refused die code detail)))

/-- AWAIT_TIMEOUT: an asynchronous `await` whose deadline has passed completes with the last value observed, unless one written before
then satisfies it (R179). -/
def execAwaitTimeout (die n : Nat) (s : State) : Out :=
  match (s.die die).waits[n]? with
  | none => .next s
  | some j => match j.list with
    | t :: _ =>
      if s.time < t || j.seen.any j.cmd.holds then .next s
      else .next ((s.modDie die (fun x => { x with waits := x.waits.eraseIdx n })).answer
        (bwDone die j.cmd 8 0 (BitVec.ofNat 64 (j.seen.getLastD (j.got.headD (0, 0, 0)).1))))
    | [] => .next s

end Sys2Proof.Machine
end

