-- ==== Sys2Proof/Machine/Exchange.lean ====
section
/-! DEFINITION. The X column (07_exchange.md): port words (R160 to R164) and the tag table (R188). `ld` and `st` stand in
Near.lean, the command words in Async.lean. -/

namespace Sys2Proof.Machine

open Sys2Proof

/-! ### Receiving (R162) -/

/-- Pop the head token of a port, or take a timing trap (R49, R160); the pop counts (R316). -/
def State.popThen (s : State) (p : Fin 8) (f : State → Tok → State) : State :=
  let c := s.cur.core
  match (s.core c).rx[p].avail.head? with
  | none => s.trapHere
  | some t => f ((s.modCore c (fun k => { k with rx := k.rx.set p k.rx[p].pop })).count c 9 1) t

/-- Read the head token without popping it (R162). -/
def State.peekThen (s : State) (p : Fin 8) (f : State → Tok → State) : State :=
  match s.curCore.rx[p].avail.head? with
  | none => s.trapHere
  | some t => f s t

/-- Element 0 of a token into a scalar register, two beats on (R162). -/
def State.takeScalar (s : State) (h : Hdr) (ord : Nat) (d : Fin 32) (ty : Fmt) (t : Tok) : State :=
  let k := s.curCore
  if k.active h then
    let (l, f) := t.elem0 k ty
    let s := s.raise s.cur.core f .x s.cur.slot s.curPen.it
    if l.2 then s.modCur (fun k => k.issue (s.flight ord 0 2 [.s d (extend ty l.1)] 0 none)) else s
  else s

/-- The 256 bits of a token into a predicate register, two beats on (R162). -/
def State.takePred (s : State) (h : Hdr) (ord : Nat) (d : Fin 16) (t : Tok) : State :=
  if s.curCore.active h then
    s.modCur (fun k => k.issue (s.flight ord 0 2 [.q d t.data (BitVec.allOnes 256)] 0 none))
  else s

/-- Run a word that takes its place in program order. -/
def State.ordered (s : State) (f : State → Nat → State) : Out := .next (f (s.modCur Core.tickOrd) s.curCore.ord)

def execRecvS (h : Hdr) (d : Fin 32) (p : Fin 8) (ty : Fmt) (s : State) : Out :=
  s.ordered (fun s ord => s.popThen p (fun s t => s.takeScalar h ord d ty t))

def execRecvQ (h : Hdr) (d : Fin 16) (p : Fin 8) (s : State) : Out :=
  s.ordered (fun s ord => s.popThen p (fun s t => s.takePred h ord d t))

def execPeekS (h : Hdr) (d : Fin 32) (p : Fin 8) (ty : Fmt) (s : State) : Out :=
  s.ordered (fun s ord => s.peekThen p (fun s t => s.takeScalar h ord d ty t))

def execPeekQ (h : Hdr) (d : Fin 16) (p : Fin 8) (s : State) : Out :=
  s.ordered (fun s ord => s.peekThen p (fun s t => s.takePred h ord d t))

/-- Keep an X stream going after its pop, until its last one (R160). -/
def Core.keepX (st : Stream) (k : Core) : Core :=
  if st.next + 1 = st.total then k else { k with streams := k.streams ++ [{ st with next := st.next + 1 }] }

/-- Pop token j of a `recv.v` into chunk j (R109, R162). -/
def State.recvStep (s : State) (st : Stream) (d : Fin 32) (p : Fin 8) (ty : Fmt) : State :=
  s.popThen p (fun s t =>
    let c := s.cur.core
    let j := st.next
    let n := 256 / ty.lane
    let g := t.lanes (s.core c) ty n (fun _ => {})
    let on := fun (i : Nat) => g.on i && st.act (j * n + i)
    let s := s.raise c (g.flags on) .x st.slot st.it
    let out := g.lanes.zipIdx.map (fun l => (l.1.1.1, on l.2))
    let fly : Flight := { col := .x, slot := st.slot, it := st.it, ord := st.ord, sub := j, remain := 2,
                          writes := [Machine.vwrite d ty.lane (j * n) out], old := st.old }
    s.modCore c (fun k => Core.keepX st (k.issue fly)))

/-- Pop token j of a `drop` (R164). -/
def State.dropStep (s : State) (st : Stream) (p : Fin 8) : State :=
  s.popThen p (fun s _ => s.modCur (Core.keepX st))

/-- The stream of an X word of `n` pops. -/
def State.xStream (s : State) (i : Instr) (h : Hdr) (n : Nat) : Stream :=
  let k := s.curCore
  { col := .x, instr := i, slot := s.cur.slot, it := s.curPen.it, ord := k.ord, next := 0, total := n, mask := k.pred h }

def execRecvV (h : Hdr) (d : Fin 32) (p : Fin 8) (ty : Fmt) (cnt : Fin 8) (s : State) : Out :=
  let st := s.xStream (.recvV h d p ty cnt) h (cnt.val + 1)
  .next ((s.modCur Core.tickOrd).recvStep st d p ty)

def execDrop (h : Hdr) (p : Fin 8) (cnt : Fin 64) (s : State) : Out :=
  let st := s.xStream (.drop h p cnt) h (cnt.val + 1)
  .next ((s.modCur Core.tickOrd).dropStep st p)

/-- Run the next pop of an M or X word in progress (R139, R160). -/
def State.xStep (s : State) (st : Stream) : State :=
  match st.instr with
  | .recvV _ d p ty _ => s.recvStep st d p ty
  | .drop _ p _ => s.dropStep st p
  | _ => s

/-! ### Port state (R164) -/

/-- The word `rxstat` reads: tokens present, and the head's tag and raw flag. -/
def Rx.stat (r : Rx) : W64 :=
  match r.avail with
  | [] => 0
  | t :: _ => BitVec.ofNat 64 (t.tag.val * 2 ^ 12 + (if t.raw then 256 else 0) + r.avail.length % 128)

def execRxstat (h : Hdr) (d : Fin 32) (p : Fin 8) (s : State) : Out := s.sRes h 2 d s.curCore.rx[p].stat 0

/-! ### Sending (R163) -/

/-- Push tokens from two beats on, one a beat, whatever the word's predicate (R50). -/
def State.pushFrom (s : State) (p : Fin 8) (ts : List Tok) : Out :=
  s.ordered (fun s ord => ts.zipIdx.foldl (fun s t =>
    s.modCur (fun k => k.issue (s.flight ord t.2 (2 + t.2) [.push p t.1] 0 none))) s)

def execSendS (h : Hdr) (p : Fin 8) (a : Fin 32) (ty : Fmt) (tag : Fin 16) (s : State) : Out :=
  let k := s.curCore
  let w := ty.lane
  s.pushFrom p [if k.active h then scalarTok w tag (bitsOf (k.rdS a) (w - 1) 0) else { tag := tag }]

/-- Token j of a `send.v`: chunk j with the word's lane mask as predicate bits. -/
def sendTok (v : VWord) (mask : Chunk) (ty : Fmt) (tag : Fin 16) (j : Nat) : Tok :=
  let n := 256 / ty.lane
  lanesTok ty.lane tag ((lanesOf ty.lane n (vchunk v j)).zipIdx.map (fun x => (x.1, mask.getLsbD (j * n + x.2))))

def execSendV (h : Hdr) (p : Fin 8) (a : Fin 32) (ty : Fmt) (cnt : Fin 8) (tag : Fin 16) (s : State) : Out :=
  let k := s.curCore
  s.pushFrom p ((List.range (cnt.val + 1)).map (sendTok k.v[a] (k.pred h) ty tag))

def execSendq (h : Hdr) (p : Fin 8) (a : Fin 16) (tag : Fin 16) (s : State) : Out :=
  let k := s.curCore
  s.pushFrom p [if k.active h then { data := k.rdQ a, pred := 255, tag := tag } else { tag := tag }]

/-! ### Tag table (R188) -/

/-- The slot of the lowest-numbered valid entry with a key, 0xFFFF where none has it. -/
def tagLookup (t : Tab TagEntry) (key : BitVec 48) : W64 :=
  match t.find? (fun e => e.2.valid && e.2.key = key) with
  | some e => e.2.slot.zeroExtend 64
  | none => 0xFFFF

def execTlk (h : Hdr) (d a : Fin 32) (s : State) : Out :=
  let k := s.curCore
  s.sRes h 2 d (tagLookup k.tags ((k.rdS a).truncate 48)) 0

def execTins (h : Hdr) (a b c : Fin 32) (s : State) : Out :=
  let k := s.curCore
  let i : Fin 64 := ⟨(k.rdS c).toNat % 64, Nat.mod_lt _ (by decide)⟩
  .next (s.result h 2 [.tagSet i { valid := true, key := (k.rdS a).truncate 48, slot := (k.rdS b).truncate 16 }] 0)

def execTinv (h : Hdr) (a : Fin 32) (s : State) : Out :=
  .next (s.result h 2 [.tagInv ((s.curCore.rdS a).truncate 48)] 0)

def execTclr (h : Hdr) (s : State) : Out := .next (s.result h 2 [.tagClr] 0)

end Sys2Proof.Machine
end

