-- ==== Sys2Proof/Machine/Hold.lean ====
section
/-! DEFINITION. The start conditions of a slot (R46, R47): tokens a word pops and pushes, rings and the matrix node. -/

namespace Sys2Proof

def VSrc.ports : VSrc → List (Fin 8)
  | .rx p => [p]
  | .v _ => []

def VDst.ports : VDst → List (Fin 8)
  | .tx p => [p]
  | .v _ => []

def VOpd.ports : VOpd → List (Fin 8)
  | .src x => x.ports
  | .s _ => []

/-- The rx ports a V word reads (R79). -/
def Instr.vRx : Instr → List (Fin 8)
  | .vadd _ o | .vsub _ o | .vmul _ o | .vmin _ o | .vmax _ o | .vrcps _ o | .vrsqs _ o | .vscale _ o => o.a.ports ++ o.b.ports
  | .vfma _ o | .vfms _ o | .vfnma _ o => o.a.ports ++ o.b.ports ++ o.c.ports
  | .vabs _ o | .vneg _ o | .vrcp _ o | .vrsq _ o | .vexp2 _ o | .vlog2 _ o => o.a.ports
  | .vfrexpFrac _ _ a _ | .vfrexpExp _ _ a _ | .vround _ _ a _ _ | .vmov _ _ a _ | .vcvt _ _ a _ _ _ _ _ => a.ports
  | .vcmp _ _ _ a b _ => a.ports ++ b.ports
  | .vsel _ o _ | .vand _ o | .vor _ o | .vxor _ o | .vshl _ o | .vshr _ o | .vsra _ o => o.a.ports ++ o.b.ports
  | .vclamp _ o c => o.a.ports ++ o.b.ports ++ c.ports
  | .vdot _ o c => o.a.ports ++ o.b.ports ++ c.ports
  | .vred _ _ _ a _ _ _ | .vscan _ _ _ a _ _ _ | .vtopk _ _ a _ _ _ | .vhouse _ _ a _ => a.ports
  | .vmred _ _ _ a b _ _ _ _ => a.ports ++ b.ports
  | .vperm _ _ _ b _ => b.ports
  | .vst _ d _ | .vsct _ d _ => d.ports
  | _ => []

/-- The tx port a V word writes, with the tokens it pushes (R49, R109, R118). -/
def Instr.vTx (i : Instr) (f : Nat) : List (Fin 8 × Nat) :=
  let put := fun (d : VDst) (n : Nat) => d.ports.map (fun p => (p, n))
  match i with
  | .vadd _ o | .vsub _ o | .vmul _ o | .vmin _ o | .vmax _ o | .vrcps _ o | .vrsqs _ o | .vscale _ o => put o.d f
  | .vfma _ o | .vfms _ o | .vfnma _ o => put o.d f
  | .vabs _ o | .vneg _ o | .vrcp _ o | .vrsq _ o | .vexp2 _ o | .vlog2 _ o => put o.d f
  | .vfrexpFrac _ d _ _ | .vfrexpExp _ d _ _ | .vround _ d _ _ _ | .vmov _ d _ _ => put d f
  | .vcvt _ d _ td ts _ _ _ => put d ((256 * f / Nat.max td.lane ts.lane * td.lane + 255) / 256)
  | .vsel _ o _ | .vand _ o | .vor _ o | .vxor _ o | .vshl _ o | .vshr _ o | .vsra _ o | .vclamp _ o _ => put o.d f
  | .vdot _ o _ => put o.d f
  | .vperm _ d _ _ _ | .vbcastElem _ d _ _ _ | .vbcastScalar _ d _ _ | .vslide _ d _ _ _ _ | .vcompress _ d _ _
  | .vexpand _ d _ _ | .vidx _ d _ _ | .vli _ d _ _ | .vld _ d _ | .vgth _ d _ | .vpack _ d _ _ _ _ _ _
  | .vunpk _ d _ _ _ _ _ _ => put d f
  | _ => []

/-- The tokens an rx port must hold for a port hold (R46, R139, R160, R161). -/
def Instr.rxNeeds (i : Instr) (f : Nat) : List (Fin 8 × Nat) :=
  match i with
  | .gfill _ _ p ty cnt => [(p, (cnt.val + 1) * (ty.lane / 8))]
  | .recvS _ _ p _ | .recvQ _ _ p | .peekS _ _ p _ | .peekQ _ _ p => [(p, 1)]
  | .recvV _ _ p _ cnt => [(p, cnt.val + 1)]
  | .drop _ p cnt => [(p, cnt.val + 1)]
  | .st _ (.port p) _ => [(p, 1)]
  | _ => i.vRx.map (fun p => (p, f))

/-- The tokens a tx port must have room for (R46, R147, R161, R165). -/
def Instr.txNeeds (i : Instr) (f : Nat) : List (Fin 8 × Nat) :=
  match i with
  | .mdrain _ o => (match o.dst with
    | .tx p => [(p, 32)]
    | .ring _ => [])
  | .sendS _ p _ _ _ | .sendq _ p _ _ => [(p, 1)]
  | .sendV _ p _ _ cnt _ => [(p, cnt.val + 1)]
  | .ld _ (.port p) _ => [(p, 1)]
  | _ => i.vTx f

/-- The registers a word reads (R54): scalars, vector registers read chunk by chunk and those read whole on the issue beat,
accumulators, where oK is a(2K) and a(2K+1), status words of orthogonal accumulators alone, and buffer records. No load writes a
predicate register or a ring. -/
structure Reads where
  s : List (Fin 32) := []
  v : List (Fin 32) := []
  whole : List (Fin 32) := []
  a : List Nat := []
  o : List (Fin 4) := []
  b : List (Fin 16) := []

def VSrc.regs : VSrc → List (Fin 32)
  | .v r => [r]
  | .rx _ => []

def VOpd.regs : VOpd → List (Fin 32)
  | .src x => x.regs
  | .s _ => []

def VOpd.scalars : VOpd → List (Fin 32)
  | .src _ => []
  | .s r => [r]

/-- The accumulators of an orthogonal accumulator. -/
def oaPair (o : Fin 4) : List Nat := [2 * o.val, 2 * o.val + 1]

def V1.reads (o : V1) : Reads := { v := o.a.regs }
def V2.reads (o : V2) : Reads := { v := o.a.regs ++ o.b.regs, s := o.b.scalars }
def V3.reads (o : V3) : Reads := { v := o.a.regs ++ o.b.regs ++ o.c.regs, s := o.b.scalars ++ o.c.scalars }
def VB.reads (o : VB) : Reads := { v := o.a.regs ++ o.b.regs, s := o.b.scalars }

/-- The registers a word of the S column reads. -/
def Instr.sReads : Instr → Reads
  | .add _ _ a b _ | .sub _ _ a b _ | .mul _ _ a b _ | .mulh _ _ a b | .mulhz _ _ a b | .div _ _ a b | .divz _ _ a b
  | .rem _ _ a b | .remz _ _ a b | .and _ _ a b | .or _ _ a b | .xor _ _ a b | .andn _ _ a b | .shl _ _ a b | .shr _ _ a b
  | .sra _ _ a b | .rotl _ _ a b | .min _ _ a b | .max _ _ a b | .minz _ _ a b | .maxz _ _ a b | .bext _ _ a b
  | .sel _ _ a b _ | .cmp _ _ _ a b | .addsh _ _ a b _ | .qsetRange _ _ a b | .qsetWord _ _ a b => { s := [a, b] }
  | .bins _ _ a b c | .mad _ _ a b c _ => { s := [a, b, c] }
  | .clz _ _ a | .ctz _ _ a | .popc _ _ a | .sext _ _ _ a | .addi _ _ a _ | .muli _ _ a _ | .andi _ _ a _ | .ori _ _ a _
  | .xori _ _ a _ | .shli _ _ a _ | .shri _ _ a _ | .srai _ _ a _ | .cmpi _ _ _ a _ | .mini _ _ a _ | .maxi _ _ a _
  | .lih _ _ a _ | .bld _ _ a _ _ | .bset _ _ _ a | .mtc _ _ a | .trap _ _ a => { s := [a] }
  | .lea _ _ _ br x _ => { s := [x], b := [br] }
  | .bget _ _ a _ => { b := [a] }
  | _ => {}

/-- The registers a word of the V column reads (R108, R128). -/
def Instr.vReads : Instr → Reads
  | .vadd _ o | .vsub _ o | .vmul _ o | .vmin _ o | .vmax _ o | .vrcps _ o | .vrsqs _ o | .vscale _ o => o.reads
  | .vfma _ o | .vfms _ o | .vfnma _ o => o.reads
  | .vabs _ o | .vneg _ o | .vrcp _ o | .vrsq _ o | .vexp2 _ o | .vlog2 _ o => o.reads
  | .vfrexpFrac _ _ a _ | .vfrexpExp _ _ a _ | .vround _ _ a _ _ | .vmov _ _ a _ | .vred _ _ _ a _ _ _ | .vscan _ _ _ a _ _ _
  | .vtopk _ _ a _ _ _
  | .vhouse _ _ a _ => { v := a.regs }
  | .vcvt _ _ a td ts c _ _ =>
    let sc := if td.scaled || ts.scaled then [c] else []
    if td.lane = ts.lane then { v := a.regs, whole := sc } else { whole := a.regs ++ sc }
  | .vcmp _ _ _ a b _ => { v := a.regs ++ b.regs, s := b.scalars }
  | .vsel _ o _ | .vand _ o | .vor _ o | .vxor _ o | .vshl _ o | .vshr _ o | .vsra _ o => o.reads
  | .vclamp _ o c => { v := o.a.regs ++ o.b.regs ++ c.regs, s := o.b.scalars ++ c.scalars }
  | .vdot _ o c => { v := o.a.regs ++ o.b.regs ++ c.regs, s := o.b.scalars }
  | .vmred _ _ _ a b _ _ _ _ => { v := a.regs ++ b.regs }
  | .vperm _ _ a b _ => { v := b.regs, whole := [a] }
  | .vbcastElem _ _ a b _ => { whole := [a], s := [b] }
  | .vbcastScalar _ _ b _ => { s := [b] }
  | .vslide _ _ a b _ _ => { whole := [a, b] }
  | .vcompress _ _ a _ | .vexpand _ _ a _ | .vext _ _ a _ _ | .vunpk _ _ a _ _ _ _ _ => { whole := [a] }
  | .vidx _ _ a _ | .vins _ _ a _ _ => { s := [a] }
  | .vld _ _ n => { s := [n.x], b := [n.br] }
  | .vst _ d n => { v := d.regs, s := [n.x], b := [n.br] }
  | .vgth _ _ n => { v := [n.x], b := [n.br] }
  | .vsct _ d n => { v := d.regs ++ [n.x], b := [n.br] }
  | .vnorm _ _ a _ _ _ _ _ => { whole := [a] }
  | .vpack _ _ a b _ _ _ _ => { whole := [a, b] }
  | _ => {}

/-- The registers a word of the M column reads. -/
def Instr.mReads : Instr → Reads
  | .mma _ o | .mmat _ o => { a := if o.za then [] else [o.ad.val] }
  | .mdrain _ o =>
    { a := [o.ad.val], whole := if o.dfn = .exp2 then [o.vr] else [], s := if o.dfn = .exp2 || o.dfn = .scale then [o.sr] else [] }
  | .mld _ _ n => { s := [n.x], b := [n.br] }
  | .mst _ ad n => { a := [ad.val], s := [n.x], b := [n.br] }
  | .mmov _ _ ga _ _ => { a := [ga.val] }
  | .madd _ ad ga _ => { a := [ad.val, ga.val] }
  | .mscl _ _ ga sr => { a := [ga.val], s := [sr] }
  | .mrowmax _ _ ga _ | .mrowsum _ _ ga _ => { a := [ga.val] }
  | .ginit _ _ a _ _ _ => { s := [a] }
  | .oaapp _ o vr sr _ => { a := oaPair o, whole := [vr], s := [sr] }
  | .oahh _ o vr _ _ => { a := oaPair o, whole := [vr] }
  | .oaclr _ o | .oastat _ o _ => { o := [o] }
  | .oaml _ o ga _ | .oamr _ o ga _ => { a := ga.val :: oaPair o }
  | .oamv _ o vr _ => { a := oaPair o, whole := [vr] }
  | .oarc _ o | .oaform _ o _ _ => { a := oaPair o }
  | .oacfg _ o sr => { s := [sr], o := [o] }
  | .oasave _ o n => { a := oaPair o, s := [n.x], b := [n.br] }
  | .oaload _ _ n => { s := [n.x], b := [n.br] }
  | _ => {}

/-- The registers a word of the X column reads. -/
def Instr.xReads : Instr → Reads
  | .sendS _ _ a _ _ => { s := [a] }
  | .sendV _ _ a _ _ _ => { whole := [a] }
  | .ld _ _ n => { s := [n.x], b := [n.br] }
  | .st _ d n => { s := n.x :: (match d with
      | .s r => [r]
      | .port _ => []), b := [n.br] }
  | .tlk _ _ a | .tinv _ a | .trmark _ _ a => { s := [a] }
  | .tins _ a b c => { s := [a, b, c] }
  | .lcopy _ o | .lcopyShort _ o | .lgath _ o | .lscat _ o | .lwin _ o | .lfill _ o | .lprf _ o | .lprfShort _ o | .lexp _ o
  | .limp _ o | .aadd _ o | .amin _ o | .amax _ o | .aand _ o | .aor _ o | .axor _ o | .aswap _ o | .acas _ o | .ald _ o
  | .ast _ o | .awaitSync _ o | .awaitAsync _ o | .apop _ o | .apush _ o | .bar _ o | .arrive _ o | .bwait _ o
  | .fenceSync _ o | .fenceAsync _ o | .dsend _ o | .dtw _ o | .dtd _ o | .dcommit _ o | .dtr _ o | .dmd _ o | .dabn _ o
  | .dret _ o | .dstat _ o | .ckpt _ o | .liter _ o | .cfgld _ o | .swap _ o => { s := [o.cmd, o.a, o.b] }
  | _ => {}

/-- The registers a word of a column reads. -/
def Instr.reads (col : Col) (i : Instr) : Reads :=
  match col with
  | .s => i.sReads
  | .v => i.vReads
  | .m => i.mReads
  | .x => i.xReads

/-- Does an M word use the matrix node (R134)? -/
def Instr.usesNode : Instr → Bool
  | .mma .. | .mmat .. | .mdrain .. | .mzero .. | .mmov .. | .madd .. | .mscl .. | .mrowmax .. | .mrowsum .. | .mld ..
  | .mst .. | .oaclr .. | .oacfg .. | .oarc .. | .oastat .. | .oaapp .. | .oamv .. | .oahh .. | .oaml .. | .oamr ..
  | .oaform .. | .oasave .. | .oaload .. => true
  | _ => false

namespace Machine

open Sys2Proof

/-- Is a word's ring use one that R138 checks at issue instead? -/
def ringBad (r : Ring) (f : Fmt) (n : Nat) : Bool := r.cap = 0 || r.fmt != f || r.cap.toNat < n

/-- Does a ring a word uses keep the slot from starting (R137, R139, R142, R147)? -/
def ringHold (k : Core) : Instr → Bool
  | .mma _ o | .mmat _ o =>
    let n := o.kt.val + 1
    let short := fun (r : Ring) (f : Fmt) => !ringBad r f n && r.count.toNat < n
    (!o.byp && short k.g[o.ga] o.ta) || short k.g[o.gb] o.tb
  | .mdrain _ o => match o.dst with
    | .ring g => !ringBad k.g[g] o.ta 0 && (k.g[g].count = k.g[g].cap || k.g[g].fillrow != 0)
    | .tx _ => false
  | .gfill _ g _ ty _ => !ringBad k.g[g] ty 0 && k.g[g].count = k.g[g].cap
  | .gadv h g n => k.active h && k.g[g].cap != 0 && decide (k.g[g].cap.toNat < k.g[g].count.toNat + n.val)
  | .gpop h g n => k.active h && k.g[g].cap != 0 && decide (k.g[g].count.toNat < n.val)
  | _ => false

/-- The holds that a word of a core gives its slot (R46, R47). -/
def State.wordHolds (s : State) (h c : Nat) (i : Instr) : List Hold :=
  let k := s.core c
  match i.hdr? with
  | none => []
  | some hd =>
    let ports := hd.hold = 1
    let empty := ports && (i.rxNeeds hd.beats).any (fun x => k.rx[x.1].avail.length < x.2)
    let full := ports && (i.txNeeds hd.beats).any (fun x => s.portRoom h c x.1 < x.2)
    let node := i.usesNode && k.busy != 0
    (if ringHold k i || (node && !k.busyOa) then [Hold.ring] else [])
      ++ (if empty then [.portEmpty] else []) ++ (if full then [.portFull] else [])
      ++ (if node && k.busyOa then [.oa] else [])

/-- The decoded word of a core's live plane (R38). -/
def Core.wordAt (k : Core) (col : Col) (slot : Nat) : Decoded :=
  decode col ((Tab.find k.live (32 * colCode col + slot)).getD 0)

/-- The power island of its die that holds a core; island 0 holds none, and that of die 0 is the housekeeping island (R359, log 27). -/
def islandOf (c : Nat) : Nat := Config.islandOf (coreIdx c) % 31 + 1

/-- The islands that hold a pen. -/
def Pen.islands (p : Pen) : List Nat := (p.cores.map islandOf).eraseDups

/-- The running pens of a die. -/
def State.diePens (s : State) (d : Nat) : List Pen := s.pens.filter (fun p => p.live && !p.ended && p.frozen != .cast && p.die = d)

/-- The level at which each island of a die has to run: all that hold one pen run at the slowest level required of any of them, and so
do those tied to them by other pens (R360); a pen wakes a gated one. -/
def State.wantLevels (s : State) (d : Nat) : List Nat :=
  let ps := s.diePens d
  let awake := ps.foldl (fun (l : List Nat) p => p.islands.foldl (fun l i => if l.getD i 0 = 6 then l.set i 0 else l) l) (s.die d).req.toList
  (List.range 32).foldl (fun l _ => ps.foldl (fun (l : List Nat) p =>
    let m := p.islands.foldl (fun m i => Nat.max m (l.getD i 0)) 0
    p.islands.foldl (fun l i => l.set i m) l) l) awake

/-- An island of a die goes to a level; it is changing until its two microseconds are over (R360). The housekeeping island stays at
level 0 (R359). -/
def State.setLevel (s : State) (d i l : Nat) : State :=
  s.modDie d (fun x => if x.levels.toList.getD i 0 = l || (d = 0 && i = 0) then x
    else { x with levels := x.levels.setIfInBounds i l, changing := x.changing.setIfInBounds i true })

/-- Do all islands of a die run at level 0, as required? -/
def Die.fullSpeed (x : Die) : Bool := x.req.toList.all (· = 0) && x.levels.toList.all (· = 0)

/-- The islands that must run at one level with some, through the pens that share them (R360). -/
def State.levelIslands (s : State) (d : Nat) (is : List Nat) : List Nat :=
  (List.range 32).foldl (fun l _ => (s.diePens d).foldl (fun (l : List Nat) p =>
    if p.islands.any l.contains then l ++ p.islands.filter (fun i => !l.contains i) else l) l) is

/-- Does an island of a pen not run at the level it has to? -/
def State.levelDue (s : State) (h : Nat) : Bool :=
  let p := s.pen h
  let x := s.die p.die
  !x.fullSpeed && p.islands.any (fun i => x.levels.toList.getD i 0 != (s.wantLevels p.die).getD i 0)

/-- At a slot boundary the islands of a pen change together to the level it has to run at, with those tied to them by other pens: once
those stand at a boundary too, so that all that hold one pen always run at one level (R360). A gated one is awake (R361). -/
def State.levelStep (s : State) (h : Nat) : State :=
  let p := s.pen h
  if !s.levelDue h then s
  else
    let is := s.levelIslands p.die p.islands
    if (s.diePens p.die).any (fun g => g.started && g.islands.any is.contains) then s
    else
      let want := s.wantLevels p.die
      let s := s.modDie p.die (fun x => { x with req := is.foldl (fun r i => if r.toList.getD i 0 = 6 then r.setIfInBounds i 0 else r) x.req })
      is.foldl (fun s i => s.setLevel p.die i (want.getD i 0)) s

/-- Is a pen held while an island of its cores changes level, or has to (R360)? -/
def State.levelHold (s : State) (h : Nat) : Bool :=
  let p := s.pen h
  let c := (s.die p.die).changing.toList
  (c.any id && p.islands.any (fun i => c.getD i false)) || s.levelDue h

/-- The islands of a die that no pen holds change at once to the level they have to run at (R360). -/
def State.levelFree (s : State) (d : Nat) : State :=
  let want := s.wantLevels d
  ((List.range 32).filter (fun i => !(s.diePens d).any (fun p => p.islands.contains i))).foldl (fun s i => s.setLevel d i (want.getD i 0)) s

/-- A chain of a die becomes owned: no island of the die stays gated, for it may hold the chain (R359, log 27). -/
def State.wakeDie (s : State) (d : Nat) : State :=
  if (s.die d).fullSpeed then s
  else (s.modDie d (fun x => { x with req := x.req.map (fun l => if l = 6 then 0 else l) })).levelFree d

/-- Beats a load may still be waited for under SHIFT (R55). -/
def Load.limit (l : Load) (shift : Nat) : Nat := l.budget * (2 ^ shift - 1)

/-! ### Late loads (R54, R55) -/

/-- Is the result of a load an operand of a word that reads `r`, vector registers in chunk `j`? -/
def Load.operandOf (l : Load) (r : Reads) (j : Nat) : Bool :=
  match l.kind with
  | .vchunk (.v d) _ c => r.whole.contains d || (r.v.contains d && c = j)
  | .scalar d _ => d != 0 && r.s.contains d
  | .acc ad _ => r.a.contains ad.val
  | .oa o => r.o.contains o || (oaPair o).any r.a.contains
  | .desc b => r.b.contains b
  | .vchunk (.tx _) _ _ | .tx _ _ => false

/-- Does a load fill a token, whose commit-queue entry its ready beat takes (R56)? -/
def Load.isPush (l : Load) : Bool :=
  match l.kind with
  | .vchunk (.tx _) _ _ | .tx _ _ => true
  | _ => false

/-- A word that finds one of its operands absent on its issue beat, and the load it waits for (R54). -/
structure Await where
  core : Nat
  col : Col
  slot : Nat
  it : BitVec 32
  load : Flight
deriving DecidableEq, Repr

/-- The words of a core that issue on this beat, with their reads and chunk: those of a slot that would start, or the later chunks of
the slot in progress, which have read whole registers and scalars already (R40, R79). -/
def Core.issuing (k : Core) (p : Pen) : List (Col × Reads × Nat) :=
  if p.started then
    (k.streams.filter (fun t => t.col = .v && t.slot = p.slot && t.next = p.beat)).map (fun t => (.v, { v := (t.instr.reads .v).v }, t.next))
  else if p.inTick && !(p.slot = 0 && p.iter.toNat ≤ p.it.toNat) then
    [Col.s, .v, .m, .x].filterMap (fun col => (k.wordAt col p.slot).instr?.map (fun i => (col, i.reads col, 0)))
  else []

/-- The words of a pen whose load is late, in row order (R54, R55). A late load that fills a token counts as awaited on every beat
(log 8). -/
def State.awaited (s : State) (h : Nat) : List Await :=
  let p := s.pen h
  p.cores.flatMap (fun c =>
    let k := s.core c
    match k.flights.filter Flight.late with
    | [] => []
    | late =>
      (k.issuing p).flatMap (fun w => (late.filter (fun f => f.load.any (fun l => l.operandOf w.2.1 w.2.2))).map (fun f =>
          { core := c, col := w.1, slot := p.slot, it := p.it, load := f }))
        ++ (late.filter (fun f => f.load.any Load.isPush)).map (fun f => { core := c, col := f.col, slot := f.slot, it := f.it, load := f }))

/-- Does a wait end in a timing trap: SHIFT is 0, or its extension has run out (R54, R55)? -/
def Await.over (w : Await) (shift : Nat) : Bool := shift = 0 || w.load.load.any (fun l => decide (l.limit shift ≤ l.ext))

/-! ### The holds of a slot (R46 to R48) -/

/-- Is the slot a pen is about to start a restart point (R53)? -/
def State.isRestart (s : State) (h : Nat) : Bool :=
  let p := s.pen h
  p.afterSync || (p.slot = 0 && p.it = 0) || p.cores.any (fun c =>
    match ((s.core c).wordAt .s p.slot).instr?.bind Instr.hdr? with
    | some hd => hd.rp
    | none => false)

/-- What the released effects of a core still wait for (R47), each with its word's column (R315). -/
def Core.waits (k : Core) : List (Hold × Nat) :=
  (if k.out != [] then [(Hold.sync, 3)] else []) ++ (k.tx.toList.filterMap List.head?).map (fun t => (Hold.portFull, colCode t.col))

/-- The first failing reason in the order of R48, of the lowest core. -/
def firstHold (hs : List (Hold × Nat)) : Option (Hold × Nat) :=
  [Hold.sync, .ring, .portEmpty, .portFull, .oa, .noDemand, .freeze, .restart].findSome? (fun r => hs.find? (fun x => x.1 = r))

/-- What the released effects of a pen still wait for. -/
def State.releaseWaits (s : State) (h : Nat) : Option (Hold × Nat) := firstHold ((s.pen h).cores.flatMap (fun c => (s.core c).waits))

/-- Has the last slot of the last iteration ended? -/
def Pen.tickOver (p : Pen) : Bool := p.inTick && !p.started && p.slot = 0 && p.iter.toNat ≤ p.it.toNat

/-- Does a pen's next slot pass a restart point: it is one, and does not start again after a rewind (R53, R54)? -/
def State.passes (s : State) (h : Nat) : Bool := !(s.pen h).resuming && s.isRestart h

/-- Every condition that holds the slot of a pen, with the column it is counted under, core by core (R47, R48, R315). At the end of a
tick the slot is slot 0 of the next one, a restart point. -/
def State.holds (s : State) (h : Nat) : List (Hold × Nat) :=
  let p := s.pen h
  let passes := s.passes h || p.tickOver
  let each := p.cores.flatMap (fun c => (if passes then (s.core c).waits else [])
    ++ [Col.s, .v, .m, .x].flatMap (fun col => match ((s.core c).wordAt col p.slot).instr? with
      | some i => (s.wordHolds h c i).map (fun r => (r, colCode col))
      | none => []))
  (if p.afterSync && p.syncs != [] then [(Hold.sync, 3)] else []) ++ each
    ++ (if p.cores.any (fun c => (s.core c).recomp.isSome) then [(Hold.oa, 2)] else [])
    ++ (if 0 < p.ckpt || p.du.parked.isSome || s.levelHold h || p.frozen = .wave then [(Hold.freeze, 0)] else [])
    ++ (s.awaited h).map (fun w => (Hold.restart, colCode w.load.col))

end Machine

end Sys2Proof
end

