-- ==== Sys2Proof/Machine/Drove.lean ====
section
/-! DEFINITION. The drove (R183, R184, R262 to R282): keys, lookups, actions, destinations, versions, table commands, and the
chain's events; completion tokens as they enter a port (R170). -/

namespace Sys2Proof.Machine

open Sys2Proof

/-! ### Completion tokens (R50, R170) -/

/-- A raw token of eight 32-bit elements with a predicate pattern. -/
def rawTok (els : List (BitVec 32)) (pred : BitVec 32) : Tok :=
  { data := BitVec.ofNat 256 (packLanes 32 (els.map BitVec.toNat)), pred := pred, raw := true }

/-- The token of an answer (R170). An inactive command's is all zeros. -/
def Done.tok (d : Done) : Tok :=
  if d.cmd.zero then { rawTok [] 0 with cmd := some d.cmd.id }
  else
    let aux := d.die * 64 + d.inst % 64
    let e0 := BitVec.ofNat 32 (d.eng % 256 * 2 ^ 24 + d.code % 256 * 2 ^ 16 + d.cmd.o.tag.val * 256 + aux % 256)
    { rawTok [e0, d.detail, d.value.truncate 32, (d.value >>> 32).truncate 32, d.e4, d.e5, d.e6, d.e7] 0xFF with cmd := some d.cmd.id }

/-- Put a token into a port, among other arrivals. -/
def Core.arrive (k : Core) (p : Fin 8) (t : Tok) : Core := { k with rx := k.rx.set p { k.rx[p] with q := k.rx[p].q ++ [t] } }

/-- Room in a core's rx port (R172). -/
def Core.rxRoom (k : Core) (p : Fin 8) : Nat := 64 - k.rx[p].q.length

/-! ### Images (R265, R267, R269, R272, R276) -/

/-- Bits `hi` to `lo` of an image. -/
def imgBits (i : BitVec 512) (hi lo : Nat) : Nat := natBits i.toNat hi lo

/-- Primitives 0 to 3 of an action laid out in bits 127:32. -/
def actOf (i : BitVec 512) : List Nat := [imgBits i 127 104, imgBits i 103 80, imgBits i 79 56, imgBits i 55 32]

/-- What a primitive uses: DF, SF, and the bits of IMM11 (R269). -/
def primUse (opc imm : Nat) : Bool × Bool × Nat :=
  match opc with
  | 0 => (false, false, 0)
  | 1 | 4 => (true, false, 0x7FF)
  | 2 | 3 | 5 | 8 | 9 | 10 | 15 => (true, true, 0)
  | 6 | 7 => (true, true, 1)
  | 11 => (true, true, 0x1F)
  | 12 => (true, true, 0x3F)
  | 13 | 14 => (true, false, 0)
  | 16 => (true, true, 0xF)
  | 17 => (true, true, 7)
  | 18 => (false, false, 0x7FF)
  | 19 => (false, true, 0)
  | 20 | 21 => (false, false, 0)
  | 22 => (false, decide (imm % 2 = 1), 1)
  | 23 => (false, true, 0x7F)
  | 24 => (true, true, 0xF)
  | _ => (false, false, 0xFF)

/-- A malformed primitive (R269). -/
def primBad (p : Nat) : Bool :=
  let opc := natBits p 23 19
  let imm := natBits p 10 0
  let (d, s, m) := primUse opc imm
  decide (25 < opc) || (!d && natBits p 18 15 != 0) || (!s && natBits p 14 11 != 0) || (imm &&& m) != imm
    || ((opc = 16 || opc = 17) && imm % 8 = 7) || (opc = 18 && 4 ≤ imm / 256 && imm % 256 != 0)

/-- SKIND and KW of a configuration (R265). -/
def skind (c : BitVec 512) : Nat := imgBits c 29 28
def skw (c : BitVec 512) : Nat := imgBits c 27 25

/-- Entries of a stage's table by its kind (R266). -/
def tableSize (kind : Nat) : Nat := if kind = 1 then 16384 else if kind = 2 then 2048 else if kind = 3 then 4096 else 0

/-- A malformed entry image for a stage (R267). -/
def entBad (i : BitVec 512) (kind kw : Nat) : Bool :=
  imgBits i 31 0 != 0 || (kind = 1 && (imgBits i 511 (352 + 32 * kw) != 0 || imgBits i 351 192 != 0))
    || (kind = 3 && (imgBits i 511 416 != 0 || imgBits i 351 192 != 0)) || (actOf i).any primBad

/-- A malformed configuration image (R265, R267). -/
def cfgBad (i : BitVec 512) : Bool :=
  let k := skind i
  let w := skw i
  let kwOk := if k = 0 then w = 0 else if k = 1 then 1 ≤ w && w ≤ 4 else if k = 2 then 1 ≤ w && w ≤ 5 else w = 2
  imgBits i 511 192 != 0 || imgBits i 31 30 != 0 || !kwOk || (actOf i).any primBad
    || (List.range 5).any (fun j => let c := imgBits i (5 * j + 4) (5 * j); 20 ≤ c && c ≤ 30)

/-- A malformed route image (R272). -/
def routeBad (i : BitVec 512) : Bool :=
  imgBits i 511 128 != 0 || imgBits i 62 44 != 0 || imgBits i 34 32 != 0 || 4 ≤ imgBits i 40 38 || imgBits i 43 41 = 7
    || imgBits i 21 0 != 0 || nearMalformed (imgBits i 31 0)

/-- A malformed control image (R276). -/
def ctlBad (i : BitVec 512) : Bool := imgBits i 511 128 != 0 || imgBits i 63 3 != 0

/-! ### Table writes (R184, R278, R280) -/

def Chain.stage (c : Chain) (i : Nat) : DStage := c.stages.toList.getD i {}

def Chain.modStage (c : Chain) (i : Nat) (f : DStage → DStage) : Chain :=
  if h : i < 12 then { c with stages := c.stages.set i (f c.stages[i]) } else c

def Chain.shadow (c : Chain) : Fin 2 := if c.ver = 0 then 1 else 0

/-- The bit of VM for a version. -/
def verBit (v : Fin 2) : BitVec 2 := if v = 0 then 1 else 2

/-- KEY of an image under a key width; all of it for 0. -/
def entKey (i : BitVec 512) (kw : Nat) : Nat := imgBits i 511 352 % 2 ^ (32 * kw)

/-- The two ways of a key's bucket (R266). -/
def bucket (key kw : Nat) : List Nat :=
  let b := crc32c (leBytes (4 * kw) key) % 8192
  [2 * b, 2 * b + 1]

/-- A code, detail, e2–e3 and e4 of a table command. -/
abbrev TabEnd := Nat × Nat × W64 × Nat

/-- `dtw` with CFG = 1 (R280): a configuration, a route, or the control image. -/
def Chain.writeCfg (c : Chain) (stage idx : Nat) (img : BitVec 512) : Chain × TabEnd :=
  let sh := c.shadow
  if idx = 0 then
    if cfgBad img then (c, 9, 1, 0, 0)
    else
      (c.modStage stage (fun st =>
        let ents := if skind img = skind st.cfg[sh] && skw img = skw st.cfg[sh] then st.ents
          else st.ents.map (fun e => (e.1, { e.2 with vm := e.2.vm &&& ~~~verBit sh }))
        { st with cfg := st.cfg.set sh img, ents := ents }), 0, 0, 0, 0)
  else if idx ≤ 256 then
    if routeBad img then (c, 9, 1, 0, 0)
    else ({ c with routes := c.routes.set sh (Tab.put c.routes[sh] (idx - 1) img),
                   badRt := c.badRt.set sh (c.badRt[sh].filter (· != idx - 1)) }, 0, 0, 0, 0)
  else if idx = 257 then
    if ctlBad img then (c, 9, 1, 0, 0) else ({ c with ctl := c.ctl.set sh img }, 0, 0, 0, 0)
  else (c, 3, 4, BitVec.ofNat 64 idx, 0)

/-- `dtw` of an entry (R278). -/
def Chain.writeEnt (c : Chain) (stage idx : Nat) (img : BitVec 512) : Chain × TabEnd :=
  let sh := c.shadow
  let st := c.stage stage
  let kind := skind st.cfg[sh]
  let kw := skw st.cfg[sh]
  let vm := fun (i : Nat) => ((Tab.find st.ents i).map (·.vm)).getD 0
  let put := fun (ents : Tab DEnt) (i : Nat) =>
    c.modStage stage (fun st => { st with ents := Tab.put ents i { img := img, vm := verBit sh } })
  if kind != 1 && tableSize kind ≤ idx then (c, 3, 4, BitVec.ofNat 64 idx, 0)
  else if entBad img kind kw then (c, 9, 1, 0, 0)
  else if kind != 1 then
    if vm idx &&& verBit c.ver != 0 then (c, 3, 3, BitVec.ofNat 64 idx, 0) else (put st.ents idx, 0, 0, 0, 0)
  else
    let key := entKey img kw
    let ways := bucket key kw
    let same := fun (i : Nat) => match Tab.find st.ents i with
      | some e => entKey e.img kw = key
      | none => false
    match ways.find? (fun i => same i && vm i = verBit sh) with
    | some i => (put st.ents i, 0, 0, BitVec.ofNat 64 i, 0)
    | none => match ways.find? (fun i => vm i = 0) with
      | none => (c, 3, 3, 0, 0)
      | some i =>
        let ents := st.ents.map (fun e => if ways.contains e.1 && same e.1 then (e.1, { e.2 with vm := e.2.vm &&& ~~~verBit sh }) else e)
        (put ents i, 0, 0, BitVec.ofNat 64 i, 0)

/-- `dtd` (R280). -/
def Chain.delEnt (c : Chain) (stage idx : Nat) (img : BitVec 512) : Chain × TabEnd :=
  let sh := c.shadow
  let st := c.stage stage
  let kind := skind st.cfg[sh]
  let kw := skw st.cfg[sh]
  let hit := fun (i : Nat) => match Tab.find st.ents i with
    | some e => (e.vm &&& verBit sh) != 0 && (kind != 1 || imgBits e.img 511 352 = imgBits img 511 352)
    | none => false
  if kind != 1 && tableSize kind ≤ idx then (c, 3, 4, BitVec.ofNat 64 idx, 0)
  else match (if kind = 1 then bucket (entKey img kw) kw else [idx]).find? hit with
    | none => (c, 0, 0, 0, 0)
    | some i => (c.modStage stage (fun st => { st with ents := st.ents.map (fun e =>
        if e.1 = i then (e.1, { e.2 with vm := e.2.vm &&& ~~~verBit sh }) else e) }), 0, 0, 0, 1)

/-- `dtr` (R280). -/
def Chain.readCnt (c : Chain) (stage idx : Nat) (clr : Bool) : Chain × TabEnd :=
  let st := c.stage stage
  let word := fun (n : BitVec 32) (vm : BitVec 2) => BitVec.ofNat 64 (n.toNat + (vm.toNat + 4 * c.ver.val) * 2 ^ 32)
  if idx = 0xFFFF then
    (if clr then c.modStage stage (fun st => { st with miss := 0 }) else c, 0, 0, word st.miss 0, 0)
  else if tableSize (skind st.cfg[c.ver]) ≤ idx then (c, 3, 4, BitVec.ofNat 64 idx, 0)
  else match Tab.find st.ents idx with
    | none => (c, 0, 0, word 0 0, 0)
    | some e => (if clr then c.modStage stage (fun st => { st with ents := Tab.put st.ents idx { e with cnt := 0 } }) else c,
        0, 0, word e.cnt e.vm, 0)

/-- One table write, of a command or of a TABLE item (R280, R330). -/
def Chain.apply (c : Chain) (del : Bool) (stage : Nat) (cfg : Bool) (idx : Nat) (img : BitVec 512) : Chain × TabEnd :=
  if del then c.delEnt stage idx img else if cfg then c.writeCfg stage idx img else c.writeEnt stage idx img

/-- The other version becomes current (R279). -/
def Chain.flip (c : Chain) (m : Cmd) : Chain := { c with ver := c.shadow, commit := some m, settled := false }

/-- Records of a version still in the chain. -/
def Chain.holds (c : Chain) (v : Fin 2) : Bool := (c.recirc ++ c.recs ++ c.exits).any (fun r => r.ver = v.val)

/-- The new current version is copied into the shadow (R279). -/
def Chain.settle (c : Chain) : Chain :=
  let v := c.ver
  { c with
    settled := true
    stages := c.stages.map (fun st => { st with
      cfg := Vector.replicate 2 st.cfg[v]
      ents := st.ents.map (fun e => (e.1, { e.2 with vm := if e.2.vm &&& verBit v != 0 then 3 else 0 })) })
    routes := Vector.replicate 2 c.routes[v]
    badRt := Vector.replicate 2 c.badRt[v]
    ctl := Vector.replicate 2 c.ctl[v] }

/-! ### Keys, lookups and actions (R265, R266, R268 to R270) -/

/-- The header as a record carries it (R263). -/
def DRec.hdr (r : DRec) : W64 :=
  BitVec.ofNat 64 (r.tag.toNat * 2 ^ 48 + r.dest.toNat * 2 ^ 36 + r.stat.toNat * 2 ^ 28 + r.rc % 4 * 2 ^ 26 + r.ver % 2 * 2 ^ 25)

/-- The 72 bytes of a record. -/
def DRec.bytes (r : DRec) : List Byte := leBytes 8 r.hdr.toNat ++ r.f.flatMap (fun x => leBytes 4 x.toNat)

def DRec.fld (r : DRec) (i : Nat) : BitVec 32 := r.f.getD (i % 16) 0

/-- Has the record failed? -/
def DRec.failed (r : DRec) : Bool := r.stat.getLsbD 7

/-- A key source (R265). -/
def DRec.sel (r : DRec) (c : Nat) : Nat :=
  if c < 16 then (r.fld c).toNat
  else if c = 16 then bitsOf r.hdr 63 32
  else if c = 17 then bitsOf r.hdr 31 0
  else if c = 18 then r.stat.toNat + r.rc % 4 * 256 + r.ver % 2 * 1024
  else if c = 19 then r.tag.toNat + r.dest.toNat * 65536
  else 0

/-- The key a stage builds. -/
def DRec.key (r : DRec) (cfg : BitVec 512) : Nat :=
  packLanes 32 ((List.range (skw cfg)).map (fun k => r.sel (imgBits cfg (5 * k + 4) (5 * k))))

/-- The index of the entry a key hits in a version (R266). -/
def DStage.look (st : DStage) (v : Fin 2) (key : Nat) : Option Nat :=
  let cfg := st.cfg[v]
  let kw := skw cfg
  let live := st.ents.filter (fun e => (e.2.vm &&& verBit v) != 0)
  if skind cfg = 1 then (bucket key kw).find? (fun i => live.any (fun e => e.1 = i && entKey e.2.img kw = key))
  else if skind cfg = 2 then
    (live.find? (fun e => ((key ^^^ imgBits e.2.img 511 352) &&& imgBits e.2.img 351 192) = 0)).map (·.1)
  else if skind cfg = 3 then
    (live.foldl (fun (b : Option (Nat × Nat)) e =>
      let lo := imgBits e.2.img 415 352
      if lo ≤ key % 2 ^ 64 then match b with
        | some (n, i) => if n < lo then some (lo, e.1) else some (n, i)
        | none => some (lo, e.1)
      else b) none).map (·.2)
  else none

/-- A fault, kept only where the record has none yet (R270). -/
def DRec.mark (r : DRec) (stat : BitVec 8) (stage : Nat) (v : W64) : DRec :=
  if r.failed then r else { r with stat := stat, fst := stage, fval := v }

/-- Set a field. -/
def DRec.set (r : DRec) (i : Nat) (v : BitVec 32) : DRec := { r with f := r.f.set i v }

/-- One primitive (R269): the record and what COUNT adds. -/
def DRec.prim (r : DRec) (p : Nat) (data : Nat) (stage : Nat) : DRec × Nat :=
  let opc := natBits p 23 19
  let df := natBits p 18 15
  let sf := natBits p 14 11
  let imm := natBits p 10 0
  let d := r.fld df
  let s := r.fld sf
  let im := BitVec.ofInt 32 (signed 11 imm)
  let put := fun (v : BitVec 32) => (r.set df v, 0)
  let dest := fun (v : Nat) => ({ r with dest := BitVec.ofNat 12 (v / 256 % 8 * 512 + v % 256) }, 0)
  let cond := fun (b : Nat) (x : Bool) =>
    if r.failed then (r, 0)
    else ({ r with stat := (r.stat &&& ~~~((1 : BitVec 8) <<< b)) ||| (if x then (1 : BitVec 8) <<< b else 0) }, 0)
  match opc with
  | 1 => put im
  | 2 => put s
  | 3 => put (d + s)
  | 4 => put (d + im)
  | 5 => put (d - s)
  | 6 => put (if (if imm % 2 = 1 then decide (d.toInt ≤ s.toInt) else decide (d ≤ s)) then d else s)
  | 7 => put (if (if imm % 2 = 1 then decide (s.toInt ≤ d.toInt) else decide (s ≤ d)) then d else s)
  | 8 => put (d &&& s)
  | 9 => put (d ||| s)
  | 10 => put (d ^^^ s)
  | 11 => put (s <<< (imm % 32))
  | 12 => put (if bitAt imm 5 then BitVec.sshiftRight s (imm % 32) else s >>> (imm % 32))
  | 13 => put (BitVec.ofNat 32 data)
  | 14 => put (BitVec.ofNat 32 (data / 2 ^ 32))
  | 15 => put (s + BitVec.ofNat 32 data)
  | 16 => cond (imm % 8) (if bitAt imm 3 then decide (d.toInt < s.toInt) else decide (d < s))
  | 17 => cond (imm % 8) (d = s)
  | 18 => dest imm
  | 19 => dest (s.toNat % 2 ^ 11)
  | 20 => ({ r with dest := 5 * 512 }, 0)
  | 21 => ({ r with dest := 6 * 512 }, 0)
  | 22 => (r, if imm % 2 = 1 then s.toNat else 1)
  | 23 => (r.mark (BitVec.ofNat 8 (128 + imm % 128)) stage (BitVec.ofNat 64 (s.toNat + (r.fld (sf + 1)).toNat * 2 ^ 32)), 0)
  | 24 => put (BitVec.ofNat 32 (crc32c ((List.range (imm % 16 + 1)).flatMap (fun i => leBytes 4 (r.fld (sf + i)).toNat))))
  | 25 =>
    let m := BitVec.ofNat 8 (imm % 128)
    if r.failed then (r, 0) else ({ r with stat := if bitAt imm 7 then r.stat ||| m else r.stat &&& ~~~m }, 0)
  | _ => (r, 0)

/-- Primitives in order, with the sum COUNT adds. -/
def DRec.act (r : DRec) (data stage : Nat) (ps : List Nat) : DRec × Nat :=
  ps.foldl (fun x p =>
    let y := x.1.prim p data stage
    (y.1, x.2 + y.2)) (r, 0)

/-- A counter that saturates (R269). -/
def satAdd (c : BitVec 32) (n : Nat) : BitVec 32 := BitVec.ofNat 32 (Nat.min (c.toNat + n) (2 ^ 32 - 1))

/-- A record passes a stage: the record, the stage with its counters, and whether it missed. -/
def DStage.run (st : DStage) (r : DRec) : DRec × DStage × Bool :=
  let v : Fin 2 := if r.ver = 0 then 0 else 1
  let cfg := st.cfg[v]
  let n := r.stage
  let r' := { r with stage := n + 1 }
  match st.look v (r.key cfg) with
  | some i =>
    let e := (Tab.find st.ents i).getD {}
    if e.bad then (r'.mark 0x8B n 0, st, false)
    else
      let (r2, c) := r'.act (imgBits e.img 191 128) n (actOf e.img)
      (r2, if c = 0 then st else { st with ents := Tab.put st.ents i { e with cnt := satAdd e.cnt c } }, false)
  | none =>
    let (r2, c) := r'.act (imgBits cfg 191 128) n (actOf cfg)
    (r2, { st with miss := satAdd st.miss c }, skind cfg != 0)

/-! ### Entry, stages and tables -/

/-- Beats of one drove cycle (R3). -/
def cycleBeats : Nat := 2

/-- DROVE_ACCEPT: a chain takes one record into stage 0 per drove cycle, a recirculating one first; a full exit buffer and an
unperformed release keep new ones waiting (R168, R264, R277, R281). -/
def execDroveAccept (die ch : Nat) (s : State) : Out :=
  let c := s.chain die ch
  let busy := match c.acc with | some t => decide (s.time < t + cycleBeats) | none => false
  if busy then .next s
  else match c.recirc with
    | r :: rest =>
      if s.time < r.t0 then .next s
      else .next (s.modChain die ch (fun c => { c with recirc := rest, recs := c.recs ++ [{ r with stage := 0, t0 := s.time }], acc := some s.time }))
    | [] => match c.waiting with
      | [] => .next s
      | r :: rest =>
        let snd := c.sends.find? (fun x => x.1.id = r.id)
        let s := match snd with
          | some (m, _) => s.askFlush m false
          | none => s
        let held := match snd with
          | some (m, _) => !s.mayRelease m
          | none => false
        if held || 64 ≤ c.exits.length then .next s
        else
          let s := match snd with
            | some (m, n) =>
              let s := if n = m.a.toNat then (s.acq m).rel m else s
              if n ≤ 1 then
                (s.modChain die ch (fun c => { c with sends := c.sends.filter (fun x => x.1.id != r.id) })).answer
                  (dvDone m (die, ch) 0 0 0 0)
              else s.modChain die ch (fun c => { c with sends := c.sends.map (fun (x : Cmd × Nat) => if x.1.id = r.id then (x.1, x.2 - 1) else x) })
            | none => s
          .next ((s.modChain die ch (fun c => { c with
            waiting := rest
            recs := c.recs ++ [{ r with rc := 0, ver := c.ver.val, stage := 0, t0 := s.time }]
            acc := some s.time })).countDie die 5 1)

/-- DROVE_STAGE: the oldest record whose next stage this is, once it has reached it (R262, R265 to R270). -/
def execDroveStage (die ch stage : Nat) (s : State) : Out :=
  let c := s.chain die ch
  match c.recs.findIdx? (fun r => r.stage = stage && r.t0 + 2 * cycleBeats * stage ≤ s.time) with
  | none => .next s
  | some i =>
    if 12 ≤ stage then .next s
    else
      let (r, st, miss) := (c.stage stage).run (c.recs.getD i {})
      let s := if r.stat = 0x8B && (c.recs.getD i {}).stat != 0x8B then s.ueMet die else s
      let s := s.modChain die ch (fun c => { c.modStage stage (fun _ => st) with recs := c.recs.set i r })
      .next (if miss then s.countDie die 6 1 else s)

/-- The image a table command reads, or its answer (R184). -/
def tabImage (m : Cmd) (at_ : Nat × Nat) : Except Done (BitVec 512) :=
  if m.cmd.toNat % 64 != 0 then .error (dvDone m at_ 3 2 m.cmd 0)
  else if m.img.length != 64 then .error (dvDone m at_ 3 1 m.cmd 0)
  else .ok (BitVec.ofNat 512 (leNat m.img))

/-- Perform a table command (R184, R278 to R280). -/
def State.tabCmd (s : State) (die ch : Nat) (m : Cmd) : State :=
  let c := s.chain die ch
  let stage := bitsOf m.o.imm 3 0
  let fin := fun (x : Chain × TabEnd) =>
    (s.modChain die ch (fun _ => x.1)).answer (dvDone m (die, ch) x.2.1 x.2.2.1 x.2.2.2.1 x.2.2.2.2)
  match m.word with
  | .dcommit .. => s.modChain die ch (fun c => c.flip m)
  | .dtr .. => fin (c.readCnt stage m.a.toNat (bitAt m.o.sub.val 0))
  | w =>
    let del := match w with | .dtd .. => true | _ => false
    if del && skind (c.stage stage).cfg[c.shadow] != 1 then fin (c.delEnt stage m.a.toNat 0)
    else match tabImage m (die, ch) with
      | .error d => s.answer d
      | .ok img =>
        if s.poisoned (nearKeys m.cmd.toNat 64) then s.answer (dvDone m (die, ch) 11 0 m.cmd 0)
        else fin (c.apply del stage (bitAt m.o.imm.toNat 15) m.a.toNat img)

/-- DROVE_TABLE_OP: the first table command that may run; writes and commits wait for a commit in progress (R184, R279). -/
def execDroveTableOp (die ch : Nat) (s : State) : Out :=
  let c := s.chain die ch
  let s := c.ops.foldl (fun s m => s.askFlush m false) s
  let ready := fun (m : Cmd) => (c.commit.isNone || (match m.word with | .dtr .. => true | _ => false)) && s.mayRelease m
  match c.ops.findIdx? ready with
  | none => .next s
  | some i =>
    let m := c.ops.getD i { id := 0 }
    let s := s.modChain die ch (fun c => { c with ops := c.ops.eraseIdx i })
    .next (((s.acq m).rel m).tabCmd die ch m)

/-- DCOMMIT_DRAINED (R279): once no record of the old version is left the new one is copied, and the commit is answered. It holds table
writes and further commits back until its token is delivered. -/
def execDcommitDrained (die ch : Nat) (s : State) : Out :=
  let c := s.chain die ch
  match c.commit with
  | none => .next s
  | some m => if c.settled || c.holds c.shadow then .next s
    else .next ((s.modChain die ch Chain.settle).answer (dvDone m (die, ch) 0 0 0 0))

/-- The token of a commit is delivered (R279). -/
def State.commitDone (s : State) (d : Done) : State :=
  match d.cmd.word with
  | .dcommit .. => s.modChain d.die d.inst (fun c => if c.settled then { c with commit := none, settled := false } else c)
  | _ => s

/-! ### Leaving (R271 to R277) -/

/-- The route a record's DEST names in its version; RV is bit 63. -/
def Chain.route (c : Chain) (r : DRec) : BitVec 512 :=
  (Tab.find c.routes[if r.ver = 0 then (0 : Fin 2) else 1] (r.dest.toNat % 256)).getD 0

def Chain.ctlOf (c : Chain) (r : DRec) : BitVec 512 := c.ctl[if r.ver = 0 then (0 : Fin 2) else 1]

/-- The core of a route. -/
def rtCore (i : BitVec 512) : Nat := nearCore (imgBits i 31 0)
def rtPort (i : BitVec 512) : Fin 8 := Fin.ofNat 8 (imgBits i 37 35)

/-- The kind of destination, with the record as it goes there: a missing route or one with an uncorrectable error (R352), an
exhausted recirculation and a failed recirculation go to the exception queue (R271, R277). -/
def Chain.bound (c : Chain) (r : DRec) : Nat × DRec :=
  let k := r.dest.toNat / 512
  if k < 4 && c.badRt[if r.ver = 0 then (0 : Fin 2) else 1].contains (r.dest.toNat % 256) then (4, r.mark 0x8B 11 0)
  else if k < 4 && !bitAt (c.route r).toNat 63 then (4, r.mark 0x83 11 0)
  else if k = 6 && (r.failed || imgBits (c.ctlOf r) 1 0 ≤ r.rc) then (4, r.mark 0xFF 11 0)
  else (k, r)

/-- The end of a drove append (R275): a fault is recorded and answered by its code. -/
def State.dvAppended (x : State × Option RingFault) (die ch ctx : Nat) : State × Nat :=
  match x with
  | (s, none) => (s, 0)
  | (s, some (code, f)) => match f with
    | some (a, acc, x) =>
      let s := ((s.met die x).recordFault { ctx := ctx, acc := acc.code, agent := agDrove, die := die, inst := ch } a x false).1
      (s, if x = .decode then 11 else code)
    | none => (s, code)

/-- Append a record to a ring (R275). -/
def State.dvAppend (s : State) (die ch : Nat) (m : Cmd) (order : State → State) (va : Nat) (r : DRec) : State × Nat :=
  State.dvAppended (s.ringAppend (some (s.agent m)) order m.ctx va 72 r.bytes) die ch m.ctx

/-- A record for the exception queue (R276). -/
def State.dvException (s : State) (die ch ctx : Nat) (ctl : BitVec 512) (r : DRec) : State :=
  let exq := imgBits ctl 127 64
  let m : Cmd := { id := s.fresh, core := die * coresPerDie, ctx := ctx, chain := some (die, ch) }
  let (s, code) := if exq = 0 then (s, 1)
    else if !s.keyBound ctx then (s.alarmB die ctx, 1)
    else s.dvAppend die ch m id exq r
  let where_ := BitVec.ofNat 64 (ch + 4 * die)
  if code != 0 then s.postEvent ctx 0x05 0 0 die [where_]
  else if bitAt ctl.toNat 2 then s.postEvent ctx 0x08 0 0 die ((List.range 9).map (wordAt r.bytes) ++ [where_])
  else s

/-- The tokens of a record for a pen (R273). -/
def DRec.tokens (r : DRec) : List Tok :=
  [rawTok ([r.hdr.truncate 32, (r.hdr >>> 32).truncate 32] ++ r.f.take 6) 0xFF, rawTok ((r.f.drop 6).take 8) 0xFF,
    rawTok (r.f.drop 14) 3]

/-- The placement of a route (R272). -/
def routeF6 (i : BitVec 512) (r : DRec) : F6 :=
  { cp := rtPort i, ord := match imgBits i 40 38 with | 1 => .acq | 2 => .rel | 3 => .both | _ => .none
    sc := match imgBits i 43 41 with
      | 0 => .lane | 1 => .core | 2 => .quad | 3 => .die | 4 => .package | 5 => .pod | _ => .system
    tag := Fin.ofNat 256 r.tag.toNat, imm := 0, sub := 0 }

/-- The command of a record, as the route's core would have issued it (R274, R305). -/
def State.dvCmd (s : State) (die ch ctx : Nat) (i : BitVec 512) (r : DRec) : Cmd :=
  let c := rtCore i
  let h := s.penOf c
  { id := s.fresh, core := c, pen := h, ctx := ctx, tick := r.tick, word := .droveExit die ch, o := routeF6 i r
    chain := some (die, ch), noTick := h != r.pen, rgn := recRgn (s.pen h) }

/-- Do SUB, IMM16 and ORD fit the OP (R173, R177, R179, R274)? -/
def bellFits (op sub imm : Nat) (ord : Ord3) : Bool :=
  let ty := sub % 8
  let ordOk := match op with
    | 0x28 => ord != .rel
    | 0x29 => ord != .acq
    | 0x2A => ord = .none || ord = .acq
    | _ => true
  if 0x2B ≤ op then sub = 0 && imm = 0 && ordOk
  else if op = 0x2A then sub < 64 && sub / 8 < 6 && ty < 5 && ty != 2 && ordOk
  else sub < 8 && imm = 0 && ty < 5 && (ty != 2 || [0x20, 0x21, 0x22, 0x26, 0x28, 0x29].contains op) && ordOk

/-- Do the tokens for a core wait for a pen that a casting has taken off it, and that no other has replaced (R172, R282)? -/
def State.castAway (s : State) (c : Nat) : Bool :=
  s.pens.any (fun p => !p.ended && p.frozen = .cast && p.cores.contains c)
    && !s.pens.any (fun p => p.live && !p.ended && p.frozen != .cast && p.cores.contains c)

/-- Is some chain appending to a ring at pod scope: its slot is written and its WIDX not yet raised? Every append to a ring is
indivisible from every other (R275). -/
def State.ringBusy (s : State) (ctx va : Nat) : Bool :=
  s.dies.toList.any (fun d => d.chains.toList.any (fun c => c.owner.getD 0 = ctx
    && c.exits.any (fun r => r.app.isSome && imgBits (c.route r) 127 64 = va)))

/-- Append a record by its route (R275, R364): at pod scope once the flush behind its slot has been answered, else in one, when no other
append has its slot written. -/
def State.dvRing (s : State) (die ch ctx : Nat) (cmd : Cmd) (va : Nat) (r : DRec) : Option (State × Nat) :=
  match r.app with
  | some (m, widx) =>
    if !s.flushed m false then none
    else
      let (s, e) := (s.flushEnd m).ringBump (some (s.agent m)) ctx va widx
      some (State.dvAppended (if e.isNone then s.releaseAt m 5 else s, e) die ch ctx)
  | none =>
    let s : State := { s with fresh := s.fresh + 1 }
    if s.ringBusy ctx va then none
    else if s.scopeOf cmd = 5 then
      match s.ringSlot (some (s.agent cmd)) ctx va 72 r.bytes with
      | .ok _ => none
      | .error e => some (State.dvAppended (s, some e) die ch ctx)
    else some (s.dvAppend die ch cmd (fun s => s.releaseAt cmd (s.scopeOf cmd)) va r)

/-- The next append of a chain at pod scope writes its slot, and each under way asks for its flush (R275, R364). -/
def State.dvPod (s : State) (die ch : Nat) : State :=
  let c := s.chain die ch
  let s := c.exits.foldl (fun s r => match r.app with | some (m, _) => s.askFlush m false | none => s) s
  let ctx := c.owner.getD 0
  let ring := fun (r : DRec) => imgBits (c.route r) 127 64
  let at_ := fun (r : DRec) => let m := s.dvCmd die ch ctx (c.route r) r; { m with o := { m.o with ord := .rel } }
  match c.exits.findIdx? (fun r => (c.bound r).1 = 3 && r.app.isNone && s.scopeOf (at_ r) = 5 && !s.ringBusy ctx (ring r)) with
  | none => s
  | some i =>
    let r := c.exits.getD i {}
    let m := at_ r
    if !s.keyBound ctx then s
    else match s.ringSlot (some (s.agent m)) ctx (ring r) 72 r.bytes with
      | .error _ => s
      | .ok (s, widx) =>
        let s : State := { s with fresh := s.fresh + 1 }
        (s.modChain die ch (fun c => { c with exits := c.exits.set i { r with app := some (m, widx) } })).askFlush m false

/-- Deliver a record that has left stage 11: none where its destination has no room (R271 to R277). One for a core of another
context raises a class B alarm and goes nowhere, as one for a ring under a key slot of another context does (R355). -/
def State.dvDeliver (s : State) (die ch : Nat) (r0 : DRec) : Option State :=
  let c := s.chain die ch
  let ctx := c.owner.getD 0
  let (kind, r) := c.bound r0
  let i := c.route r0
  let core := rtCore i
  let port := rtPort i
  let cmd := s.dvCmd die ch ctx i r
  let s := if kind = 4 && r.stat = 0x8B && r0.stat != 0x8B then s.ueMet die else s
  if kind ≤ 2 && s.castAway core then none
  else if kind ≤ 2 && (s.coreCtx core).any (· != ctx) then some (s.alarmB die ctx)
  else if kind = 0 then
    if (s.core core).rxRoom port < 3 then none
    else some (s.modCore core (fun k => r.tokens.foldl (fun k t => k.arrive port t) k))
  else if (kind = 1 || kind = 2) && r.failed then
    let d : Done := dvDone cmd (die, ch) (r.stat.toNat % 128) r.fst r.fval r.tag.toNat
    if (s.core core).rxRoom port = 0 then none else some (s.modCore core (fun k => k.arrive port d.tok))
  else if kind = 1 then
    let m := { cmd with ldl := (List.range 16).flatMap (fun k => leBytes 4 (r.fld k).toNat) }
    let m := { m with img := s.tdPair m }
    ({ s with fresh := s.fresh + 1 } : State).accept m
  else if kind = 2 then
    let pair := fun (k : Nat) => BitVec.ofNat 64 ((r.fld k).toNat + (r.fld (k + 1)).toNat * 2 ^ 32)
    let op := (r.fld 0).toNat % 256
    let sub := (r.fld 1).toNat % 256
    let imm := (r.fld 1).toNat / 65536
    let o := { cmd.o with imm := BitVec.ofNat 16 imm, sub := Fin.ofNat 256 sub }
    let m := { cmd with o := o, cmd := pair 2, a := pair 4, b := pair 6 }
    let s' : State := { s with fresh := s.fresh + 1 }
    match bellWord op o with
    | none => some (s'.answer (bwDone die m 9 1 0))
    | some w =>
      if (r.fld 0).toNat / 256 != 0 || (r.fld 1).toNat / 256 % 256 != 0 || !bellFits op sub imm o.ord then
        some (s'.answer (bwDone (s.homeOf { m with word := w }) { m with word := w } 9 1 0))
      else s'.accept { m with word := w }
  else if kind = 3 then
    if !s.keyBound ctx then some (s.alarmB die ctx)
    else match s.dvRing die ch ctx cmd (imgBits i 127 64) r with
      | none => none
      | some (s1, code) =>
        if code = 0 then some s1
        else some (s1.dvException die ch ctx (c.ctlOf r0) (r.mark (BitVec.ofNat 8 (128 + code)) 11 0))
  else if kind = 4 then some (s.dvException die ch ctx (c.ctlOf r0) r)
  else if kind = 7 then some (s.postEvent ctx 0x01 0 0 die ((List.range 9).map (wordAt r.bytes)))
  else some s

/-- What order is kept for (R281): one port, one ladle engine, one home bellwether, one ring. -/
def State.dvKey (s : State) (die ch : Nat) (r0 : DRec) : Nat × Nat × Nat :=
  let c := s.chain die ch
  let (kind, r) := c.bound r0
  let i := c.route r0
  let core := rtCore i
  if kind = 0 || ((kind = 1 || kind = 2) && r.failed) then (0, core, (rtPort i).val)
  else if kind = 1 then (1, coreDie core, (s.core core).eng)
  else if kind = 2 then
    (2, s.homeOf { id := 0, core := core, ctx := c.owner.getD 0, word := (bellWord ((r.fld 0).toNat % 256) {}).getD (.aadd {} {}),
                   cmd := BitVec.ofNat 64 ((r.fld 2).toNat + (r.fld 3).toNat * 2 ^ 32) }, 0)
  else if kind = 3 then (3, imgBits i 127 64, 0)
  else (kind, r0.dest.toNat, 0)

/-- Deliver the first record of the exit buffer that may go: none before it is bound for the same destination. -/
def State.dvDrain (s : State) (die ch : Nat) : Nat → List (Nat × Nat × Nat) → State
  | i, seen =>
    let es := (s.chain die ch).exits
    let rec go : List DRec → Nat → List (Nat × Nat × Nat) → State
      | [], _, _ => s
      | r :: rs, i, seen =>
        let key := s.dvKey die ch r
        if seen.contains key then go rs (i + 1) seen
        else match s.dvDeliver die ch r with
          | some s' => s'.modChain die ch (fun c => { c with exits := c.exits.eraseIdx i })
          | none => go rs (i + 1) (key :: seen)
    go (es.drop i) i seen

/-- A record leaves stage 11: one that recirculates enters stage 0 again on the next drove cycle (R277), any other the exit buffer
(R281). -/
def Chain.leave (c : Chain) (now : Nat) (r : DRec) : Chain :=
  let (kind, r') := c.bound r
  if kind = 6 then { c with recirc := c.recirc ++ [{ r' with rc := r.rc + 1, t0 := now + cycleBeats }] }
  else { c with exits := c.exits ++ [r] }

/-- DROVE_EXIT: the record that has passed stage 11 leaves, 24 drove cycles after it was accepted, and one record of the exit
buffer is delivered. -/
def execDroveExit (die ch : Nat) (s : State) : Out :=
  let c := s.chain die ch
  let s := match c.recs with
    | r :: rest =>
      if r.stage = 12 && r.t0 + 24 * cycleBeats ≤ s.time then
        s.modChain die ch (fun c => { c with recs := rest }.leave s.time r)
      else s
    | [] => s
  .next ((s.dvPod die ch).dvDrain die ch 0 [])

/-- A chain as it stands when assigned, and after its context ends (R262, R282); quarantine stays. -/
def Chain.fresh (c : Chain) (owner : Option Nat) : Chain := { owner := owner, quar := c.quar }

end Sys2Proof.Machine
end

