-- ==== Sys2Proof/Machine/Orth.lean ====
section
/-! DEFINITION. Orthogonal accumulators (R151 to R158): appends, applications of Q, recompaction, saving and loading. A
result is computed from the operands at issue and lands on its ready beat (R134). -/

namespace Sys2Proof.Machine

open Sys2Proof

/-! ### The status word (R152) -/

def oaApps (w : W64) : Nat := bitsOf w 25 20
def oaThr (w : W64) : Nat := bitsOf w 19 14
def oaPol (w : W64) : Nat := bitsOf w 13 12

/-- Set bits `hi` to `lo` of a word. -/
def setBits (w : W64) (hi lo v : Nat) : W64 :=
  let m := BitVec.ofNat 64 ((2 ^ (hi + 1 - lo) - 1) * 2 ^ lo)
  merge w (BitVec.ofNat 64 (v * 2 ^ lo)) m

def oaNV : W64 := 4
def oaRF : W64 := 2
def oaRC : W64 := 1

/-- SGN all ones in the high half, the low half kept. -/
def oaSgnOnes (w : W64) : W64 := setBits w 63 32 (2 ^ 32 - 1)

/-- V and T of an orthogonal accumulator as accumulators (R151). -/
def oaV (o : Fin 4) : Fin 8 := ⟨2 * o.val, by omega⟩
def oaT (o : Fin 4) : Fin 8 := ⟨2 * o.val + 1, by omega⟩

/-- Pivot of reflector `j` (R151). -/
def pivOf (piv : BitVec 160) (j : Nat) : Nat := bitsOf piv (5 * j + 4) (5 * j)

/-- PIV with one pivot changed. -/
def setPiv (piv : BitVec 160) (j p : Nat) : BitVec 160 :=
  let m := BitVec.ofNat 160 (31 * 2 ^ (5 * j))
  merge piv (BitVec.ofNat 160 (p * 2 ^ (5 * j))) m

/-! ### Small products (R155, R156) -/

/-- Rows of values. -/
abbrev Mat := List (List FVal)

def zeroF : FVal := .fin false 0 0

/-- A chain of fused multiply-adds in ascending order from +0 (R155, R156, dot64 of R157). -/
def chain (f : Fmt) (xs ys : List FVal) : FVal × Flags :=
  (xs.zip ys).foldl (fun a p =>
    let r := fpFused f {} false false 0 p.1 p.2 a.1
    (.dec f r.1, a.2 ||| r.2)) (zeroF, 0)

/-- The columns of a matrix with `n` of them. -/
def colsOf (n : Nat) (m : Mat) : Mat := (List.range n).map (fun c => m.map (fun r => r.getD c zeroF))

/-- Element-wise computation of a matrix with its flags. -/
def matMap (m : List (List (FVal × Flags))) : Mat × Flags :=
  (m.map (fun r => r.map (·.1)), m.foldl (fun f r => r.foldl (fun f x => f ||| x.2) f) 0)

/-- The product of R156: `n` columns. -/
def matMul (a b : Mat) (n : Nat) : Mat × Flags :=
  let bc := colsOf n b
  matMap (a.map (fun r => bc.map (fun c => chain .fp32 r c)))

/-- The difference of R156. -/
def matSub (a b : Mat) : Mat × Flags :=
  matMap ((a.zip b).map (fun p => (p.1.zip p.2).map (fun q =>
    let r := fpAdd .fp32 {} true q.1 q.2
    (.dec .fp32 r.1, r.2))))

/-- D of R151. -/
def diagD (st : W64) : Mat :=
  (List.range 32).map (fun i => (List.range 32).map (fun c =>
    if i = c then .fin (!(bitAt st.toNat (32 + i))) 1 0 else zeroF))

/-- The stored column `j` of V. -/
def storedCol (v : List (List Nat)) (j : Nat) : List Nat := v.map (fun r => r.getD j 0)

/-- The effective reflector: zero above the pivot, 1 at it, the stored values below (R151). -/
def effective (p : Nat) (col : List Nat) : List FVal :=
  col.zipIdx.map (fun x => if x.2 < p then zeroF else if x.2 = p then .fin false 1 0 else .dec .fp32 x.1)

/-- The effective reflectors of an accumulator, one list each. -/
def reflectors (k : Core) (o : Fin 4) : Mat :=
  let v := accRows k.a[oaV o] .fp32
  (List.range (oaCnt k.oStat[o])).map (fun j => effective (pivOf k.oPiv[o] j) (storedCol v j))

/-- The leading part of T, rows of values. -/
def factorT (k : Core) (o : Fin 4) : Mat :=
  let n := oaCnt k.oStat[o]
  ((accRows k.a[oaT o] .fp32).take n).map (fun r => (r.take n).map (FVal.dec .fp32))

/-- Q, its transpose, from the left or the right, of an array with `c` columns (R156). -/
def applyQ (k : Core) (o : Fin 4) (right xp : Bool) (x : Mat) (c : Nat) : Mat × Flags :=
  let vt := reflectors k o
  let n := vt.length
  let v := colsOf 32 vt
  let t := if xp then colsOf n (factorT k o) else factorT k o
  let d := diagD k.oStat[o]
  if right then
    let y := if xp then matMul x d 32 else (x, 0)
    let z1 := matMul y.1 v n
    let z2 := matMul z1.1 t n
    let z := matMul z2.1 vt 32
    let r := matSub y.1 z.1
    let r' := if xp then r else matMul r.1 d 32
    (r'.1, y.2 ||| z1.2 ||| z2.2 ||| z.2 ||| r.2 ||| r'.2)
  else
    let y := if xp then (x, 0) else matMul d x c
    let z1 := matMul vt y.1 c
    let z := matMul t z1.1 c
    let vz := matMul v z.1 c
    let r := matSub y.1 vz.1
    let r' := if xp then matMul d r.1 c else r
    (r'.1, y.2 ||| z1.2 ||| z.2 ||| vz.2 ||| r.2 ||| r'.2)

/-- A value that FP32 holds, as its code. -/
def code32 (x : FVal) : Nat := (x.finish .fp32 {}).1

/-- Does a signalling NaN stand in a list (R15)? -/
def signals (xs : List FVal) : Flags := Flags.when (xs.any (fun x => x = .nan true)) Flags.iv

/-! ### Appends (R155) -/

/-- What an append comes to. -/
structure Appended where
  writes : List Write
  flags : Flags
deriving DecidableEq, Repr, Inhabited

/-- R155, with `v` the effective reflector as FP32 codes below the pivot. -/
def appendOa (k : Core) (o : Fin 4) (v : List Nat) (tau : Nat) (p : Nat) : Appended :=
  let st := k.oStat[o]
  let veff := effective p v
  let tauV := FVal.dec .fp32 tau
  let bad := (tauV :: veff).any (fun x => x.isNan || x.isInf)
  let st := if bad then st ||| oaNV else st
  let f0 := Flags.when bad Flags.iv
  let cnt := oaCnt st
  if cnt = 32 || (oaPol st = 0 && oaThr st != 0 && oaApps st + 1 = oaThr st) then
    match oaPol st with
    | 0 => ⟨[.oStat o st, .recomp o (some (BitVec.ofNat 2048 (packLanes 32 v), BitVec.ofNat 32 tau, p))], f0⟩
    | 1 => ⟨[.oStat o (st ||| oaRF), .stop .flagTrap 0], f0 ||| Flags.of⟩
    | _ => ⟨[.oStat o (st ||| oaRF)], f0⟩
  else
    let us := (reflectors k o).map (fun r => chain .fp32 r veff)
    let u := us.map (·.1)
    let ys := (factorT k o).map (fun r => chain .fp32 r u)
    let ts := ys.map (fun y =>
      let r := fpMul .fp32 {} tauV.neg y.1
      (r.1, r.2))
    let put (rows : List (List Nat)) (col : Nat → Nat) : List Nat :=
      (rows.zipIdx.map (fun r => r.1.set cnt (col r.2))).flatten
    let t' := put (accRows k.a[oaT o] .fp32) (fun i => if i < cnt then (ts.getD i (0, 0)).1 else if i = cnt then tau else 0)
    let v' := put (accRows k.a[oaV o] .fp32) (fun i => if i < p then 0 else if i = p then tau else v.getD i 0)
    let st' := setBits (setBits st 31 26 (cnt + 1)) 25 20 (min (oaApps st + 1) 63)
    ⟨[accWrite (oaV o) .fp32 v', accWrite (oaT o) .fp32 t', .oStat o st', .oPiv o (setPiv k.oPiv[o] cnt p)],
      us.foldl (fun f x => f ||| x.2) (ys.foldl (fun f x => f ||| x.2) (ts.foldl (fun f x => f ||| x.2) f0))⟩

/-- The pivot of an append: KT, or min(CNT, 31) for KT 32 (R154). -/
def pivotOf (k : Core) (o : Fin 4) (kt : Fin 64) : Nat := if kt.val = 32 then min (oaCnt k.oStat[o]) 31 else kt.val

/-! ### Recompaction (R157) -/

def fma64 (a b c : FVal) : FVal := d64 (fpFused .fp64 {} false false 0 a b c)

/-- Apply a reflector to the columns of W from `c0` on, each a list of rows; the reflector is zero above `p`. -/
def reflect64 (v : List FVal) (tau : FVal) (p c0 : Nat) (w : Mat) : Mat :=
  w.zipIdx.map (fun x =>
    if x.2 < c0 then x.1
    else
      let t := d64 (fpMul .fp64 {} tau (chain .fp64 (v.drop p) (x.1.drop p)).1)
      x.1.zipIdx.map (fun e => if e.2 < p then e.1 else fma64 (v.getD e.2 zeroF).neg t e.1))

/-- The factorisation loop for j, ..., 30: factors tau, beta, v of each column, and W; `none` where a column holds a NaN or
an infinity. -/
def refactor : Nat → Nat → Mat → Option (List (FVal × FVal × List FVal) × Mat)
  | 0, _, w => some ([], w)
  | n + 1, j, w =>
    match house64 ((w.getD j []).drop j) with
    | none => none
    | some (tau, beta, r) =>
      let v := List.replicate j zeroF ++ .fin false 1 0 :: r
      match refactor n (j + 1) (reflect64 v tau j (j + 1) w) with
      | none => none
      | some (fs, w') => some ((tau, beta, v) :: fs, w')

/-- Column `j` of T from the stored factors, in FP64 and rounded once an element (R157): `vs` the earlier reflectors, `t` the
rows of T so far. -/
def columnT (vs : Mat) (t : Mat) (v : List FVal) (tau : FVal) : List (Nat × Flags) :=
  let u := vs.map (fun r => (chain .fp64 r v).1)
  (t.map (fun r => ((d64 (fpMul .fp64 {} tau.neg (chain .fp64 r u).1)).finish .fp32 {})))

/-- The columns of T in order (R157): reflectors done, rows of T so far, those left; each column's codes with flags. -/
def allT : Mat → Mat → List (List FVal × Nat) → List (List (Nat × Flags))
  | _, _, [] => []
  | vs, t, (v, tau) :: rest =>
    let c := columnT vs t v (.dec .fp32 tau)
    let t' := (t.zip c).map (fun x => x.1 ++ [.dec .fp32 x.2.1]) ++ [List.replicate vs.length zeroF ++ [.dec .fp32 tau]]
    c :: allT (vs ++ [v]) t' rest

/-- An accumulator from its columns of FP32 codes. -/
def accOfCols (cols : List (List Nat)) : List Nat :=
  ((List.range 32).map (fun r => (List.range 32).map (fun c => (cols.getD c []).getD r 0))).flatten

/-- The result of a recompaction, from the accumulator as it stands on its first beat (R157). -/
def recompaction (k : Core) (o : Fin 4) (pend : Option (VWord × BitVec 32 × Nat)) : List Write × Flags :=
  let st := k.oStat[o]
  let rows := accRows k.a[oaV o] .fp32
  let held := (List.range (oaCnt st)).map (fun j =>
    let p := pivOf k.oPiv[o] j
    let c := storedCol rows j
    (effective p c, FVal.dec .fp32 (c.getD p 0), p))
  let all := held ++ (match pend with
    | none => []
    | some (v, tau, p) => [(effective p (lanesOf 32 32 v.toNat), FVal.dec .fp32 tau.toNat, p)])
  let w := all.reverse.foldl (fun w r => reflect64 r.1 r.2.1 r.2.2 0 w) (diagD st)
  let st' := setBits (setBits st 31 26 31) 25 20 0 ||| oaRC
  let finite := fun (x : FVal) => !(x.isNan || x.isInf)
  let good := match refactor 31 0 w with
    | none => none
    | some (fs, w') =>
      if w'.all (fun c => c.all finite) && fs.all (fun f => finite f.1 && finite f.2.1 && f.2.2.all finite) then some (fs, w')
      else none
  match good with
  | none =>
    let nan := List.replicate 1024 (Fmt.dnan .fp32)
    ([accWrite (oaV o) .fp32 nan, accWrite (oaT o) .fp32 nan, .oStat o (oaSgnOnes st' ||| oaNV)], Flags.iv)
  | some (fs, w') =>
    let es := fs.map (fun f => f.2.1) ++ [(w'.getD 31 []).getD 31 zeroF]
    let cols := fs.zipIdx.map (fun x =>
      let f := x.1
      f.2.2.zipIdx.map (fun y => if y.2 < x.2 then ((0, 0) : Nat × Flags)
        else if y.2 = x.2 then f.1.finish .fp32 {} else y.1.finish .fp32 {}))
    let stored := cols.map (fun c => c.map (·.1))
    let facs := stored.zipIdx.map (fun x => (effective x.2 x.1, x.1.getD x.2 0))
    let ts := allT [] [] facs
    let tcols := ts.zipIdx.map (fun x => x.1.map (·.1) ++ [(facs.getD x.2 ([], 0)).2])
    let sgn := packLanes 1 (es.map (fun e => if e.isZero || !e.sign then 1 else 0))
    let piv := BitVec.ofNat 160 (packLanes 5 (List.range 31))
    let keep : BitVec 160 := BitVec.ofNat 160 (31 * 2 ^ 155)
    let fl := (cols ++ ts).foldl (fun f c => c.foldl (fun f x => f ||| x.2) f) 0
    ([accWrite (oaV o) .fp32 (accOfCols stored), accWrite (oaT o) .fp32 (accOfCols tcols),
      .oStat o (setBits st' 63 32 sgn), .oPiv o (merge piv k.oPiv[o] keep)], fl)

/-! ### The meanings (R154 to R158) -/

/-- `oaclr` (R154). -/
def execOaclr (h : Hdr) (o : Fin 4) (s : State) : Out :=
  let keep : W64 := BitVec.ofNat 64 (255 * 2 ^ 12)
  let st := oaSgnOnes (s.curCore.oStat[o] &&& keep)
  .next (s.nodeWord h [] 1 true (fun s ord => s.fly ord 0 1 [.oStat o st, .acc (oaV o) 0, .acc (oaT o) 0] 0))

/-- Elements 0 to 31 of a v register as FP32 codes. -/
def row32 (k : Core) (vr : Fin 32) : List Nat := lanesOf 32 32 k.v[vr].toNat

/-- `oaapp` (R155). -/
def execOaapp (h : Hdr) (o : Fin 4) (vr sr : Fin 32) (kt : Fin 64) (s : State) : Out :=
  let k := s.curCore
  let p := pivotOf k o kt
  let v := row32 k vr
  let r := appendOa k o v (bitsOf (k.rdS sr) 31 0) p
  .next (s.nodeWord h [] 40 true (fun s ord => s.fly ord 0 40 r.writes (r.flags ||| signals (effective p v))))

/-- `oahh` (R155): beta goes to s[SR] whatever comes of the append. -/
def execOahh (h : Hdr) (o : Fin 4) (vr sr : Fin 32) (kt : Fin 64) (s : State) : Out :=
  let k := s.curCore
  let p := pivotOf k o kt
  let xs := ((row32 k vr).drop p).map (FVal.dec .fp32)
  let q := Fmt.dnan .fp32
  let (tau, beta, v, f) := match house64 xs with
    | none => (q, q, List.replicate (32 - p) q, Flags.iv)
    | some (t, b, v) =>
      let t' := t.finish .fp32 {}
      let b' := b.finish .fp32 {}
      let v' := v.map (fun x => x.finish .fp32 {})
      (t'.1, b'.1, 0 :: v'.map (·.1), v'.foldl (fun f x => f ||| x.2) (t'.2 ||| b'.2))
  let r := appendOa k o (List.replicate p 0 ++ v) tau p
  .next (s.nodeWord h [] 64 true (fun s ord => s.fly ord 0 64 (.s sr (BitVec.ofNat 64 beta) :: r.writes) (r.flags ||| f)))

/-- An application of Q to an accumulator (R156). -/
def State.applyAcc (s : State) (h : Hdr) (o : Fin 4) (ga : Fin 8) (right xp : Bool) (x : Mat) : Out :=
  let r := applyQ s.curCore o right xp x 32
  .next (s.nodeWord h [ga] 72 true (fun s ord => s.fly ord 0 72 [accWrite ga .fp32 (r.1.flatten.map code32)] r.2))

/-- An accumulator's values. -/
def accMat (k : Core) (ga : Fin 8) : Mat := (accRows k.a[ga] .fp32).map (fun r => r.map (FVal.dec .fp32))

/-- `oaml` (R156). -/
def execOaml (h : Hdr) (o : Fin 4) (ga : Fin 8) (xp : Bool) (s : State) : Out :=
  s.applyAcc h o ga false xp (accMat s.curCore ga)

/-- `oamr` (R156). -/
def execOamr (h : Hdr) (o : Fin 4) (ga : Fin 8) (xp : Bool) (s : State) : Out :=
  s.applyAcc h o ga true xp (accMat s.curCore ga)

/-- `oaform`: the left form of the identity (R156). -/
def execOaform (h : Hdr) (o : Fin 4) (ga : Fin 8) (xp : Bool) (s : State) : Out :=
  s.applyAcc h o ga false xp
    ((List.range 32).map (fun i => (List.range 32).map (fun c => if i = c then FVal.fin false 1 0 else zeroF)))

/-- `oamv` (R156): elements 32 and above keep their values. -/
def execOamv (h : Hdr) (o : Fin 4) (vr : Fin 32) (xp : Bool) (s : State) : Out :=
  let k := s.curCore
  let r := applyQ k o false xp ((row32 k vr).map (fun x => [FVal.dec .fp32 x])) 1
  .next (s.nodeWord h [] 40 true (fun s ord => s.fly ord 0 40 [vrow vr (r.1.flatten.map code32)] r.2))

/-- `oarc` (R157). -/
def execOarc (h : Hdr) (o : Fin 4) (s : State) : Out :=
  .next (s.nodeWord h [] 1 true (fun s ord => s.fly ord 0 1 [.recomp o none] 0))

/-- `oastat` (R152). -/
def execOastat (h : Hdr) (o : Fin 4) (sr : Fin 32) (s : State) : Out :=
  let w := s.curCore.oStat[o]
  .next (s.nodeWord h [] 1 true (fun s ord => s.fly ord 0 2 [.s sr w] 0))

/-- `oacfg` (R152): THR and POL; a POL of 11 is taken as 00. -/
def execOacfg (h : Hdr) (o : Fin 4) (sr : Fin 32) (s : State) : Out :=
  let k := s.curCore
  let x := k.rdS sr
  let w := setBits (setBits k.oStat[o] 19 14 (oaThr x)) 13 12 (if oaPol x = 3 then 0 else oaPol x)
  .next (s.nodeWord h [] 1 true (fun s ord => s.fly ord 0 1 [.oStat o w] 0))

/-- Elements of a saved orthogonal accumulator (R158). -/
def oaElems : Nat := 2064

/-- The image of an orthogonal accumulator as FP32-sized elements (R158). -/
def oaImage (k : Core) (o : Fin 4) : List Nat :=
  accElems k.a[oaV o] .fp32 ++ accElems k.a[oaT o] .fp32 ++ lanesOf 32 2 k.oStat[o].toNat
    ++ lanesOf 32 5 k.oPiv[o].toNat ++ List.replicate 9 0

/-- May a loaded state be taken (R158)? -/
def oaGood (els : List Nat) : Bool :=
  let st := BitVec.ofNat 64 (els.getD 2048 0 + els.getD 2049 0 * 2 ^ 32)
  bitsOf st 31 26 ≤ 32 && oaPol st != 3 && bitsOf st 11 3 = 0 && (els.drop 2055).all (· = 0)

/-- The writes of a loaded state (R158). -/
def oaLoaded (o : Fin 4) (els : List Nat) : List Write :=
  [accWrite (oaV o) .fp32 (els.take 1024), accWrite (oaT o) .fp32 ((els.drop 1024).take 1024),
    .oStat o (BitVec.ofNat 64 (els.getD 2048 0 + els.getD 2049 0 * 2 ^ 32)),
    .oPiv o (BitVec.ofNat 160 (packLanes 32 ((els.drop 2050).take 5)))]

/-- `oasave` (R158). -/
def execOasave (h : Hdr) (o : Fin 4) (n : Ns) (s : State) : Out :=
  let k := s.curCore
  let pls := blockPlaces s.curPen k n oaElems
  .next (s.nodeWord h [] 72 true (fun s ord =>
    if pls.any (fun x => x.2 = .check) then s.nearCheck ord
    else s.issueStore ord 0 k.b[n.br] ((pls.zip (oaImage k o)).map (fun x => (x.1.2, leBytes 4 x.2)))))

/-- `oaload` (R158). -/
def execOaload (h : Hdr) (o : Fin 4) (n : Ns) (s : State) : Out :=
  let pls := blockPlaces s.curPen s.curCore n oaElems
  .next (s.nodeWord h [] 72 true (fun s ord =>
    if pls.any (fun x => x.2 = .check) then s.nearCheck ord
    else s.issueLoad (.oa o) ord 0 4 n.budget (n.budget + 72) pls))

end Sys2Proof.Machine
end

