-- ==== Sys2Proof/Machine/Land.lean ====
section
/-! DEFINITION. Results on their ready beats (RESULT_READY, R43, R369), the accesses behind loads and stores of other cores
(REMOTE_ACCESS_ARRIVE, LOAD_RESPONSE, R235), the end of a recompaction (R157), and completion tokens (R172). -/

namespace Sys2Proof.Machine

open Sys2Proof

/-! ### Results -/

/-- The number an element's bytes hold; 0 where element `i` was not loaded. -/
def Load.elem (l : Load) (i : Nat) : Nat := ((l.elems.find? (fun e => e.i = i)).bind (·.got)).elim 0 leNat

/-- The writes of a load whose data has returned; none where its contents fail their check (R158). -/
def Load.writes (l : Load) : Option (List Write) :=
  match l.kind with
  | .vchunk d ty j =>
    let ls := (List.range (256 / ty.lane)).map (fun i => (l.elem i, l.elems.any (fun e => e.i = i)))
    some [vdest d ty.lane j ls]
  | .scalar d ty => some [.s d (extend ty (l.elem 0))]
  | .tx p ty => some [.push p (scalarTok ty.lane 0 (l.elem 0))]
  | .acc ad ty =>
    let t : Tacc := if ty = .fp64 then .fp64 else if ty = .int32 then .int32 else .fp32
    some [accWrite ad t ((List.range 1024).map l.elem)]
  | .oa o =>
    let els := (List.range oaElems).map l.elem
    if oaGood els then some (oaLoaded o els) else none
  | .desc b => some [.b b (BitVec.ofNat 256 (l.elem 0))]

/-- One write of a result of core `c` (R43): a push takes its commit-queue entry (R56), a recompaction starts (R157), a stop is
noted (R369), anything else is written, and into the snapshot too where it issued before the restart point (R53). -/
def State.landWrite (s : State) (c : Nat) (f : Flight) (w : Write) : State :=
  match w with
  | .push p t => s.modCore c (fun k => k.enqueue { ord := f.ord, sub := f.sub, col := f.col, eff := .push p t })
  | .mem ofs bs => s.nearWrite (nearAddr c ofs) bs
  | .stop cause code => if f.old then s.lateStop c cause f.col f.slot f.it true else s.stopAt c cause f.col f.slot f.it code 0 true
  | .recomp o pend => s.modCore c (fun k =>
      let r := recompaction k o pend
      { k with recomp := some (1024, { f with writes := r.1, flags := r.2, load := none, remain := 0 }) })
  | .csr n v =>
    if n = 0x02 || n = 0x30 || n = 0x31 then s.modPen (s.penOf c) (fun p => p.wrCsr s.time n v)
    else s.modCore c (fun k =>
      let k := k.wrCsr s.time n v (if k.raisedT = s.time then k.raised else 0)
      if f.old then { k with snap := k.snap.land w } else k)
  | _ => s.modCore c (fun k =>
      let k := k.land w
      if f.old then { k with snap := k.snap.land w } else k)

/-- The register a write gives a value: its kind and number. -/
def Write.reg : Write → Option (Nat × Nat)
  | .s r _ => some (0, r.val)
  | .v r _ _ => some (1, r.val)
  | .q r _ _ => some (2, r.val)
  | .b r _ | .bw r _ _ => some (3, r.val)
  | .acc r _ | .accLo r _ => some (4, r.val)
  | _ => none

/-- Is a write the push of a token? -/
def Write.isPush : Write → Bool
  | .push .. => true
  | _ => false

/-- Write a result and raise its flags. -/
def State.landWrites (s : State) (c : Nat) (f : Flight) (ws : List Write) : State :=
  (ws.foldl (fun s w => s.landWrite c f w) s).raise c f.flags f.col f.slot f.it f.old

/-- What a result writes; none where the response is poisoned or faults, or the contents fail their check (R95, R128, R158). -/
def Flight.results (f : Flight) : Option (List Write) :=
  match f.load with
  | none => some f.writes
  | some l => if l.elems.any (·.bad) then none else l.writes

/-- Is a write of `f` lost, because the result of a word later in program order becomes ready for the same register on the same beat
(R80)? -/
def Write.lost (now : List Flight) (f : Flight) (w : Write) : Bool :=
  w.reg.isSome && now.any (fun g => decide (f.ord < g.ord) && (g.results.getD []).any (fun x => x.reg = w.reg))

/-- Has a load met poison? What a `bld` finds is counted where the table is read. -/
def Load.poisoned (l : Load) : Bool :=
  l.elems.any (·.bad) && (match l.kind with
    | .desc _ => false
    | _ => true)

/-- A result reaches its ready beat with those of `now` (R43): everything but its tokens. One that fails is a machine check that
names its word, and nothing is written (R369). -/
def State.landFlight (s : State) (c : Nat) (now : List Flight) (f : Flight) : State :=
  let s := if f.load.any Load.poisoned then s.ueMet (coreDie c) else s
  match f.results with
  | none => s.lateStop c .machineCheck f.col f.slot f.it f.old
  | some ws => s.landWrites c f (ws.filter (fun w => !w.isPush && !w.lost now f))

/-- The tokens of a result, with their ports. -/
def Flight.tokens (f : Flight) : List (Fin 8 × Tok) :=
  (f.results.getD []).filterMap (fun w => match w with
    | .push p t => some (p, t)
    | _ => none)

/-- The commit-queue entries of the tokens that become ready on one beat, `now` in program order (R56). Entries are released in
program order (R53), but of these the tokens for one port go V before M before X (R80): they share out the places the words have in
program order. -/
def tokenEntries (now : List Flight) : List CqEntry :=
  let places := fun (p : Fin 8) => now.flatMap (fun (f : Flight) => (f.tokens.filter (fun x => x.1 = p)).map (fun _ => (f.ord, f.sub)))
  let ts := [Col.v, .m, .x].flatMap (fun col =>
    (now.filter (fun (f : Flight) => f.col = col)).flatMap (fun f => f.tokens.map (fun t => (t.1, t.2, col))))
  ts.zipIdx.map (fun x =>
    let at_ := (places x.1.1).getD ((ts.take x.2).filter (fun y => y.1 = x.1.1)).length (0, 0)
    { ord := at_.1, sub := at_.2, col := x.1.2.2, eff := .push x.1.1 x.1.2.1 })

/-- Insert a result by program order: of two results for one register the later word's stands (R80). -/
def flightInsert (f : Flight) : List Flight → List Flight
  | [] => [f]
  | x :: xs => if f.ord < x.ord || (f.ord = x.ord && f.sub < x.sub) then f :: x :: xs else x :: flightInsert f xs

/-- Write every result of a core whose ready beat has come: in program order, and then the tokens, V before M before X (R80), which count as
pushed now (R49, R316). -/
def State.landDue (s : State) (c : Nat) : State :=
  let k := s.core c
  let now := (k.flights.filter Flight.due).foldl (fun l f => flightInsert f l) []
  let s := now.foldl (fun s f => s.landFlight c now f) (s.setCore c { k with flights := k.flights.filter (fun f => !f.due) })
  let es := tokenEntries now
  (if es = [] then s else s.count c 10 es.length).modCore c (fun k => es.foldl Core.enqueue k)

/-- Does a pen still run: a freeze wave takes effect at the next slot boundary, and after a rewind (R54, R62)? -/
def Pen.runs (p : Pen) : Bool := p.frozen = .running || (p.frozen = .wave && (p.started || decide (0 < p.rewind)))

/-- RESULT_READY: the results of a core that are ready on this beat are written (R43); those of a frozen pen wait in the landing
buffers (R62). -/
def execResultReady (c : Nat) (s : State) : Out :=
  .next (if (s.pen (s.penOf c)).runs then s.landDue c else s)

/-- RECOMPACTION_END: 1,024 beats after its start, a recompaction's result is written (R157). -/
def execRecompactionEnd (c : Nat) (s : State) : Out :=
  match (s.core c).recomp with
  | some (0, f) => .next ((s.modCore c (fun k => { k with recomp := none })).landWrites c f f.writes)
  | _ => .next s

/-! ### Accesses to other cores (R129, R235, R287) -/

/-- Take the first message a test accepts. -/
def takeMsg (f : Msg → Bool) : List Msg → Option (Msg × List Msg)
  | [] => none
  | m :: ms => if f m then some (m, ms) else (takeMsg f ms).map (fun r => (r.1, m :: r.2))

/-- The descriptor read of a `bld` (R95): translated in its context, empty where it faults. -/
def State.tablePort (s : State) (m : Msg) : State × Msg :=
  let p := s.pen (s.penOf m.src)
  let who : Who := { ctx := p.ctx, agent := agCore, die := p.die, pid := p.pid.toNat, rel := p.rel m.src, pen := some (s.penOf m.src, p.tick) }
  match s.places p.ctx m.addr m.len .rd with
  | .error x => (((s.met p.die x).recordFault who m.addr x false).1, { m with bytes := [] })
  | .ok pl => match s.readPlaces (s.viewer p.ctx (s.coreAgent p.ctx m.src)) pl none with
    | .ok bs => (match pl with
      | (pa, _) :: _ => (s.tlbUse p.die p.ctx m.addr).readNote p.die p.ctx pa
      | [] => s, { m with bytes := bs })
    | .error x => (s.met p.die x, { m with bytes := [] })

/-- REMOTE_ACCESS_ARRIVE: the oldest access on its way from `src` to `dst` is performed at its owner; a load's data sets out
for the requester. An access to a core of another context is a class B alarm (R355) and is not performed. -/
def execRemoteAccessArrive (src dst : Nat) (s : State) : Out :=
  match takeMsg (fun m => m.src = src && m.dst = dst) s.mesh with
  | none => .next s
  | some (m, rest) =>
    let s := { s with mesh := rest }
    if 4 * coresPerDie ≤ dst then
      let (t, m) := s.tablePort m
      s.keyGuard (coreDie src) (s.pen (s.penOf src)).ctx { t with resps := t.resps ++ [m] }
    else
      let s := s.dieFlits (coreDie src) (coreDie dst) (!m.store)
      match s.coreCtx src, s.coreCtx dst with
      | some a, some b =>
        if a != b then .next (s.alarmB (coreDie dst) a)
        else if m.store then .next (s.nearWrite m.addr m.bytes)
        else
          let bs := if s.poisoned (nearKeys m.addr m.len) then [] else s.nearRead src m.addr m.len
          .next { s with resps := s.resps ++ [{ m with bytes := bs }] }
      | _, _ =>
        if m.store then .next (s.nearWrite m.addr m.bytes)
        else
          let bs := if s.poisoned (nearKeys m.addr m.len) then [] else s.nearRead src m.addr m.len
          .next { s with resps := s.resps ++ [{ m with bytes := bs }] }

/-- A response enters the return buffer of its load (R43); one for a load that a timing trap discarded is dropped (R306). No
bytes stand for a poisoned or faulting response. -/
def Core.answered (k : Core) (m : Msg) : Core :=
  { k with flights := k.flights.map (fun f =>
      if f.ord = m.ord && f.sub = m.sub then
        { f with load := f.load.map (fun l => { l with elems := l.elems.map (fun e =>
            if e.i = m.i && e.got.isNone then { e with got := some m.bytes, bad := m.bytes = [] } else e) }) }
      else f) }

/-- LOAD_RESPONSE: the oldest response on its way to a core arrives. -/
def execLoadResponse (c : Nat) (s : State) : Out :=
  match takeMsg (fun m => m.src = c) s.resps with
  | none => .next s
  | some (m, rest) => .next ({ s with resps := rest }.modCore c (fun k => k.answered m))

/-! ### Completion tokens (R170 to R172) -/

/-- Take the first answer a test accepts. -/
def takeDone (f : Done → Bool) : List Done → Option (Done × List Done)
  | [] => none
  | d :: ds => if f d then some (d, ds) else (takeDone f ds).map (fun r => (r.1, d :: r.2))

/-- COMPLETION_TOKEN_DELIVERY: the oldest answer for a CP port whose release is performed (R168, R291, R364) is delivered once the port
has room (R172). The answer to a command whose pen has ended goes nowhere; a pen in a casting gets it after THAW (R351). -/
def execCompletionTokenDelivery (c port : Nat) (s : State) : Out :=
  let mine := fun (d : Done) => d.cmd.host.isNone && d.cmd.core = c && d.cmd.o.cp.val = port
  let s := (s.dones.filter (fun d => mine d && d.cmd.writes)).foldl (fun s d => s.askFlush d.cmd true) s
  match takeDone (fun d => mine d && s.performed d) s.dones with
  | none => .next s
  | some (d, rest) =>
    let p := s.pen d.cmd.pen
    let done_ := fun (s : State) =>
      (({ s with dones := rest }.commitDone d).flushEnd d.cmd).modPen d.cmd.pen (fun p => { p with cmds := p.cmds.filter (fun i => i != d.cmd.id) })
    if p.frozen = .cast then .next s
    else if !p.live || p.ended then .next (done_ s)
    else if (s.core c).rxRoom d.cmd.o.cp = 0 then .next s
    else .next ((done_ s).modCore c (fun k => k.arrive d.cmd.o.cp d.tok))

end Sys2Proof.Machine
end

