-- ==== Sys2Proof/Machine/Loader.lean ====
section
/-! DEFINITION. The configuration loader: images (R332), validation (R82, R83, R100), `cfgld` and `swap` (R189, R334), and
the flip of a pen's planes at a drain point (R333). -/

namespace Sys2Proof.Machine

open Sys2Proof

/-- The column of a number 0 to 3. -/
def colOf (n : Nat) : Col := if n = 0 then .s else if n = 1 then .v else if n = 2 then .m else .x

/-- Length in beats that a word gives its slot (R40). -/
def wordLen (w : SlotWord) : Nat := 2 ^ natBits w.toNat 60 59

/-- A word of a plane (R38, R84). -/
def Plane.word (p : Plane) (c : Col) (slot : Nat) : SlotWord := (Tab.find p (32 * colCode c + slot)).getD 0

/-- Slot lengths of a plane of several cores (R41). -/
def planeLens (ps : List Plane) (n : Nat) : List Nat :=
  (List.range n).map (fun k => ps.foldl (fun m p =>
    (List.range 4).foldl (fun m c => max m (wordLen (p.word (colOf c) k))) m) 1)

/-- A load-status word (R83). -/
def loadStatus (status reason core col slot op : Nat) : W64 :=
  BitVec.ofNat 64 (status * 2 ^ 56 + reason * 2 ^ 48 + core % 256 * 2 ^ 40 + col * 2 ^ 38 + slot % 32 * 2 ^ 33 + op % 256 * 2 ^ 25)

/-- Does a word act on the region stack: push, pop, or not at all? -/
def wordRgn (w : SlotWord) : Option Bool :=
  match (decode .s w).instr? with
  | some (.rgnin ..) => some true
  | some (.rgnout ..) => some false
  | _ => none

/-- The reason a word is rejected, none where it is accepted (R82). A slot that pushes on one core and pops on another is
held against the higher core (R100). -/
def wordReject (ps : List Plane) (c : Nat) (col : Col) (slot : Nat) : Option Nat :=
  let at_ := fun (i : Nat) => (ps.getD i []).word
  match decode col (at_ c col slot) with
  | .reject r => some r
  | .ok _ =>
    match col, wordRgn (at_ c .s slot) with
    | .s, some d => if (List.range c).any (fun i => wordRgn (at_ i .s slot) = some !d) then some 8 else none
    | _, _ => none

/-- The status of a filled plane: the first rejection by core, slot, column (R83). -/
def validate (ps : List Plane) (n : Nat) : W64 :=
  let bad := (List.range ps.length).findSome? (fun c => (List.range n).findSome? (fun k => (List.range 4).findSome? (fun j =>
    (wordReject ps c (colOf j) k).map (fun r => loadStatus 1 r c j k (natBits ((ps.getD c []).word (colOf j) k).toNat 79 72)))))
  bad.getD 0

/-- A plane as loaded: the words by core, N, the slot lengths, and the status. -/
structure Loaded where
  planes : List Plane := []
  n : Nat := 1
  lens : List Nat := [1]
  stat : W64 := 0
deriving DecidableEq, Repr, Inhabited

/-- Read the records of an image from the `i`-th on, `k` of them: the words by place, or the first that cannot be read. -/
def State.readWords (s : State) (ctx va cores n : Nat) : Nat → Nat → List Plane → Except (Nat × XFault) (List Plane)
  | 0, _, ps => .ok ps
  | k + 1, i, ps =>
    match s.vread ctx (va + 64 + 16 * i) 16 with
    | .error x => .error (i, x)
    | .ok bs =>
      let w : SlotWord := BitVec.ofNat 80 (leNat (bs.take 10))
      let c := i / (4 * n)
      let ps := if w = 0 then ps else ps.set c (Tab.put (ps.getD c []) (32 * (i / n % 4) + i % n) w)
      s.readWords ctx va cores n k (i + 1) ps

/-- The loader reads an image, a read a page (R316, R341, log 100). -/
def State.imageNote (s : State) (w : Who) (va len : Nat) : State :=
  (List.range ((va % 4096 + len + 4095) / 4096)).foldl (fun s i =>
    let at_ := (va / 4096 + i) * 4096
    match s.xlatePa w.ctx at_ .rd with
    | .ok pa => (s.tlbUse w.die w.ctx at_).readNote w.die w.ctx pa
    | .error _ => s) s

/-- Read and validate an image for a pen of `cores` cores (R332, R83): none where its header is malformed or names another
core count. A word that cannot be read leaves a record of the fault (R344). -/
def State.fetchPlane (s : State) (w : Who) (va cores : Nat) : State × Option Loaded :=
  let failed := fun (s : State) (x : XFault) (a : Nat) (core col slot : Nat) =>
    match x with
    | .poison => (s.ueMet w.die, some { stat := loadStatus 2 0 core col slot 0 : Loaded })
    | _ => ((s.recordFault w a x false).1, some { stat := loadStatus 3 0 core col slot 0 : Loaded })
  match s.vread w.ctx va 64 with
  | .error x => failed s x va 0 0 0
  | .ok hd =>
    let n := leAt hd 2 1 + 1
    if leAt hd 0 2 != cores || 32 < n || (hd.drop 3).any (· != 0) then (s, none)
    else
      match s.readWords w.ctx va cores n (cores * 4 * n) 0 (List.replicate cores []) with
      | .error (i, x) => failed s x (va + 64 + 16 * i) (i / (4 * n)) (i / n % 4) (i % n)
      | .ok ps => (s.imageNote w va (64 + 64 * cores * n), some { planes := ps, n := n, lens := planeLens ps n, stat := validate ps n })

/-- The keys under which uncorrectable errors of live-plane and shadow-plane words stand among the poisoned keys (R65, R352,
log 23). -/
def liveKey (c : Nat) (col : Col) (slot : Nat) : Nat := 2 ^ 56 + c * 128 + colCode col * 32 + slot
def shadowKey (c : Nat) (col : Col) (slot : Nat) : Nat := 2 ^ 57 + c * 128 + colCode col * 32 + slot

/-- Is a pen in a casting that has released its cores (R347)? -/
def Pen.castAway (p : Pen) : Bool := p.frozen = .cast && p.withPad

/-- The first word of a pen's shadow plane, by core, column and slot below N, in which an error stands while it is loaded (R352). -/
def State.shadowBad (s : State) (h n : Nat) : Option (Nat × Nat × Nat) :=
  if s.poison.all (· < 2 ^ 57) || (s.pen h).castAway then none
  else (s.pen h).cores.zipIdx.findSome? (fun c => (List.range 4).findSome? (fun j => (List.range n).findSome? (fun k =>
    if s.poison.contains (shadowKey c.1 (colOf j) k) then some (c.2, j, k) else none)))

/-- Words written afresh hold no error. -/
def State.cleanPlane (s : State) (base : Nat) (cs : List Nat) : State :=
  { s with poison := s.poison.filter (fun k => !(base ≤ k && k < base + 2 ^ 56 && cs.contains ((k - base) / 128))) }

/-- Errors of planes that change places go with them. -/
def State.swapErrors (s : State) (cs : List Nat) : State :=
  { s with poison := s.poison.map (fun k =>
      if k < 2 ^ 56 || !cs.contains (k % 2 ^ 56 / 128) then k
      else if k < 2 ^ 57 then k + 2 ^ 56 else k - 2 ^ 56) }

/-- Put a loaded plane into a pen's shadow (R332): contents, N, lengths and status; into that of a casting too, which THAW keeps (R336). -/
def State.setShadow (s : State) (h : Nat) (l : Loaded) : State :=
  let p := s.pen h
  let put := fun (i : Nat) (k : Core) => { k with shadow := l.planes.getD i [] }
  let s := if p.castAway then s.modPen h (fun p => { p with held := p.held.zipIdx.map (fun x => put x.2 x.1) })
    else p.cores.zipIdx.foldl (fun s x => s.modCore x.1 (put x.2)) (s.cleanPlane (2 ^ 57) p.cores)
  s.modPen h (fun p => { p with shN := l.n, shLens := l.lens, shStat := l.stat, shNew := p.frozen = .cast })

/-- Put a loaded plane into a pen's live plane (R327). -/
def State.setLive (s : State) (h : Nat) (l : Loaded) : State :=
  let s := (s.cleanPlane (2 ^ 56) (s.pen h).cores).cleanPlane (2 ^ 57) (s.pen h).cores
  let s := (s.pen h).cores.zipIdx.foldl (fun s x => s.modCore x.1 (fun k => { k with live := l.planes.getD x.2 [] })) s
  s.modPen h (fun p => { p with n := l.n, lens := l.lens, liveStat := l.stat })

/-- The pen a configuration command names (R189). -/
def State.cfgPen (s : State) (m : Cmd) : Option Nat := s.pidPen m.pen m.ctx (bitsOf m.a 15 0)

/-- Does a command wait for a swap token that its pen holds (R334)? -/
def State.cfgWaits (s : State) (m : Cmd) : Bool :=
  match s.cfgPen m with
  | none => false
  | some h => (s.pen h).swap.isSome

/-- Perform one configuration command (R189, R332, R334). -/
def State.cfgCmd (s : State) (d : Nat) (m : Cmd) : State :=
  match s.cfgPen m with
  | none => s.answer { cmd := m, eng := agLoader, die := d, code := 9, detail := 1 }
  | some h =>
    match m.word with
    | .cfgld .. =>
      match s.fetchPlane (s.who m 3 agLoader d 0) m.cmd.toNat ((s.pen h).h * (s.pen h).w) with
      | (s, none) => s.answer { cmd := m, eng := agLoader, die := d, code := 9, detail := 1 }
      | (s, some l) =>
        let l := match s.shadowBad h l.n with
          | some (c, j, k) => { l with stat := loadStatus 2 0 c j k 0 }
          | none => l
        (s.setShadow h l).answer { cmd := m, eng := agLoader, die := d, value := l.stat }
    | _ =>
      let st := (s.pen h).shStat
      if bitsOf st 63 56 != 0 then s.answer { cmd := m, eng := agLoader, die := d, code := 9, detail := 5, value := st }
      else s.modPen h (fun p => { p with swap := some m, swapNew := p.frozen = .cast })

/-- CONFIG_LOAD: the loader of a die performs its oldest command that waits for no swap (R332 to R334) and whose placement is met
(R168). -/
def execConfigLoad (d : Nat) (s : State) : Out :=
  let s := (s.die d).loader.foldl (fun s m => s.askFlush m false) s
  match (s.die d).loader.find? (fun m => !s.cfgWaits m && s.mayRelease m) with
  | none => .next s
  | some m =>
    let s := if m.releases then s.releaseAt m (s.scopeOf m) else s
    let s := if m.acquires then s.acquireAt m (s.scopeOf m) else s
    s.keyGuard d m.ctx ((s.modDie d (fun x => { x with loader := x.loader.filter (fun c => c.id != m.id) })).cfgCmd d m)

/-- Is a pen at a drain point (R333)? -/
def State.drained (s : State) (h : Nat) : Bool :=
  let p := s.pen h
  !p.inTick && p.cores.all (fun c =>
    let k := s.core c
    k.flights = [] && k.streams = [] && k.cq = [] && k.busy = 0 && k.recomp.isNone)

/-- Flip a pen's planes (R333, R334): contents, N, lengths and status change places; the token completes. -/
def State.flipPlanes (s : State) (h : Nat) : State :=
  let p := s.pen h
  match p.swap with
  | none => s
  | some m =>
    let s := (s.swapErrors p.cores).modCores p.cores (fun k => { k with live := k.shadow, shadow := k.live })
    let s := s.modPen h (fun p => { p with swap := none, n := p.shN, lens := p.shLens, liveStat := p.shStat,
                                           shN := p.n, shLens := p.lens, shStat := p.liveStat })
    s.answer { cmd := m, eng := agLoader, die := p.die }

/-- PLANE_FLIP: a pen that holds a swap token reaches its drain point. A frozen pen waits for THAW (R336). -/
def execPlaneFlip (h : Nat) (s : State) : Out :=
  .next (if (s.pen h).frozen = .running && s.drained h then s.flipPlanes h else s)

end Sys2Proof.Machine
end

