-- ==== Sys2Proof/Machine/Pen.lean ====
section
/-! DEFINITION. A pen's slots: the start of a slot and its holds (SLOT_START, R42, R47, R48), restart points (R53), the end of a
tick (R53, R102), later chunks (CHUNK_ISSUE, R40), the end of a rewind (R54) and of a stretched wait (R55), and the freeze
wave's hold on waits (R62). -/

namespace Sys2Proof.Machine

open Sys2Proof

/-! ### Waits under a freeze (R62, R297, R366) -/

/-- Take a command out of a die's bellwether; a counted barrier arrival is withdrawn. -/
def Die.withdrawWait (x : Die) (id : Nat) : Die :=
  { x with
    bell := x.bell.filter (fun j => j.cmd.id != id)
    waits := x.waits.filter (fun j => j.cmd.id != id)
    arrivals := x.arrivals.filter (fun m => m.id != id)
    bars := x.bars.map (fun b =>
      if b.2.waiting.any (fun m => m.id = id) then
        (b.1, { b.2 with waiting := b.2.waiting.filter (fun m => m.id != id), count := b.2.count - 1 })
      else b) }

/-- Withdraw the pending waits and barrier arrivals of a pen (R62); a pod arrival is withdrawn by a message (R366). -/
def State.withdrawWaits (s : State) (h : Nat) : State :=
  (s.pen h).syncs.foldl (fun s m =>
    let key := s.barKey m
    let counted := s.dies.toList.any (fun d => d.bars.any (fun b => b.2.waiting.any (fun x => x.id = m.id)))
    let s := { s with dies := s.dies.map (fun (x : Die) => x.withdrawWait m.id) }
    let s := s.modCore m.core (fun k => { k with out := k.out.filter (fun x => x.id != m.id) })
    if counted && s.podBar m then
      let g := (Tab.find s.svc.gather key).getD ([], [])
      let g := if g.1.any (fun x => x.id = m.id) then (g.1.filter (fun x => x.id != m.id), g.2) else (g.1, g.2 ++ [s.podArr m])
      { s with svc := { s.svc with gather := Tab.put s.svc.gather key g } }
    else s) s

/-- Post the withdrawn waits again (R62). -/
def State.repostWaits (s : State) (h : Nat) : State :=
  (s.pen h).syncs.foldl (fun s m => s.modCore m.core (fun k =>
    if k.out.any (fun x => x.id = m.id) then k else { k with out := k.out ++ [m] })) s

/-- A pen that has taken a stop freezes for reporting before its next slot (R59, R101, R369). -/
def State.reportStop (s : State) (h : Nat) : State := (s.withdrawWaits h).freezeForReport h

/-! ### Restart points (R49, R53, R55, R102) -/

/-- A restart point passes on a core: its pops are final, what is in flight is older than the snapshot, and the snapshot is
taken. -/
def Core.restart (k : Core) : Core :=
  let k := { k with
    rx := k.rx.map Rx.settle
    flights := k.flights.map (fun (f : Flight) => { f with old := true })
    streams := k.streams.map (fun (t : Stream) => { t with old := true })
    busyOld := k.busy != 0
    recomp := k.recomp.map (fun (r : Nat × Flight) => (r.1, { r.2 with old := true })) }
  { k with snap := { s := k.s, q := k.q, g := k.g, dith := k.dith, streams := k.streams } }

/-- Release every commit-queue entry of a pen's interval, route its pushes and offer its commands (R53, R166, R371). -/
def State.releaseAll (s : State) (h : Nat) : State :=
  let s := (s.pen h).cores.foldl State.releaseCore s
  let s := s.routePen h
  (s.pen h).cores.foldl (fun s c => s.offerAll c (s.core c).out.length) s

/-- A restart point passes (R53): what the pen popped is final, a `fin` of the interval is recorded, CONS returns to 0. That a
synchronisation word came before is kept until the slot starts, for at the end of a tick slot 0 of the next one waits (R46). -/
def State.passRestart (s : State) (h : Nat) : State :=
  let s := s.notePops h
  let s := s.modCores (s.pen h).cores Core.restart
  let s := (s.pen h).du.ins.foldl (fun s i => s.edgeRefresh i.edge) s
  s.modPen h (fun p => { p with
    finRec := p.finRec.or (p.finNew.head?.map (·.2))
    finTime := if p.finRec.isSome then p.finTime else s.time
    finNew := []
    cons := 0
    snapRgn := p.rgn.length
    snapRgnOv := p.rgnOv
    rsSlot := p.slot
    rsIt := p.it
    resuming := false
    sent := [] })

/-! ### Tick boundaries (R42, R53, R102, R212, R333) -/

/-- The timing trap of a word that finds a load absent (R54): its slot starts, so the restart point the slot is passes first. -/
def State.lateTrap (s : State) (h : Nat) (w : Await) : State :=
  (if s.passes h && !(s.pen h).started && !(s.pen h).tickOver then s.passRestart h else s).timingTrap h w.core w.col w.slot w.it

/-- The boundary after a tick passes: the last interval is released and the demand unit ends the tick. What it still waits for
where it cannot pass yet. -/
def State.endOfTick (s : State) (h : Nat) : State × Option (Hold × Nat) :=
  let s := s.releaseAll h
  match s.releaseWaits h with
  | some w => (s, (firstHold (s.holds h)).or (some w))
  | none => (((s.passRestart h).endTick h).boundaryCmds h, none)

/-- At a boundary with no tick in progress: the next tick starts, or what it waits for, in the order of R48. Nothing is chosen while a
wait for a word, a swap, a checkpoint or a level change is on. -/
def State.nextTickAt (s : State) (h : Nat) : State × Option (Hold × Nat) :=
  let p := s.pen h
  let busy := decide (0 < p.ckpt) || p.du.parked.isSome || s.levelHold h || p.swap.isSome || (p.afterSync && p.syncs != [])
  let t := if p.nextTick.isSome then s else s.chooseRun h
  let q := t.pen h
  let s := if busy then s else t
  let hs := s.holds h ++ (if p.swap.isSome then [(Hold.sync, 3)] else [])
    ++ (if q.nextTick.isNone && q.ckpt = 0 then [(.noDemand, 0)] else [])
  match q.nextTick with
  | some u => if busy || 0 < q.ckpt then (s, (firstHold hs).or (some (.freeze, 0))) else (s.startTick h u, none)
  | none => (s, (firstHold hs).or (some (.noDemand, 0)))

/-! ### The start of a slot (R48) -/

/-- The first live word of a slot with an uncorrectable error (R65). -/
def State.liveBad (s : State) (h : Nat) : Option (Nat × Col) :=
  let p := s.pen h
  if s.poison.all (· < 2 ^ 56) then none
  else p.cores.findSome? (fun c => [Col.s, .v, .m, .x].findSome? (fun col =>
    if s.poison.contains (liveKey c col p.slot) then some (c, col) else none))

/-- The pen holds on this beat (R48): the beat is counted under its reason (R315, R316). -/
def State.holdPen (s : State) (h : Nat) (w : Hold × Nat) : State :=
  let s := s.modPen h (fun p => { p with hold := some w.1, ran := false })
  (s.pen h).cores.foldl (fun s c => s.count c 2 1) (s.stallCount h w.1 w.2)

/-- The rows of a slot's first beat (R40, R80): column by column, the later pops of M and X words before the words that issue
now. All-zero words are `nop` (R84). -/
def State.slotRows (s : State) (h : Nat) : List Turn :=
  let p := s.pen h
  [Col.s, .v, .m, .x].flatMap (fun col => p.cores.flatMap (fun c =>
    let k := s.core c
    (if (col = .m || col = .x) && k.streams.any (fun t => t.col = col) then [Turn.ev (.chunkIssue c col) {}] else [])
      ++ (if Plane.word k.live col p.slot = 0 then [] else [.word c col])))

/-- The slot starts. -/
def State.startSlot (s : State) (h : Nat) : State :=
  let p := s.pen h
  let sync := p.cores.any (fun c => match ((s.core c).wordAt .x p.slot).instr?.bind Instr.hdr? with
    | some hd => hd.hold = 2
    | none => false)
  let s := if p.resuming then s.modPen h (fun p => { p with resuming := false })
    else if s.isRestart h then s.passRestart h else s
  let s := s.modPen h (fun p => { p with started := true, beat := 0, ran := true, hold := none, afterSync := sync })
  let s := p.cores.foldl (fun s c => s.count c 1 1) s
  { s with todo := s.slotRows h ++ s.todo }

/-- A slot in the middle of a tick, or its first: its holds, then what a restart point releases, then its start. A word that finds a
load absent traps in place of starting where no wait for the load is left (R54, R55). -/
def State.trySlot (s : State) (h : Nat) : State :=
  let p := s.pen h
  match s.liveBad h with
  | some (c, col) =>
    ((s.ueMet (coreDie c)).modPen h (fun p => p.takeStop s.time .machineCheck (p.rel c) col p.slot p.it 0 0 true)).reportStop h
  | none =>
    match firstHold (s.holds h), (s.awaited h).find? (·.over p.shift) with
    | some (.restart, _), some w =>
      let s := if s.passes h then s.releaseAll h else s
      match if s.passes h then s.releaseWaits h else none with
      | some w => s.holdPen h w
      | none => s.lateTrap h w
    | some w, _ => s.holdPen h w
    | none, _ =>
      if !s.passes h then s.startSlot h
      else
        let s := s.releaseAll h
        match s.releaseWaits h with
        | some w => s.holdPen h w
        | none => s.startSlot h

/-- A later beat of a slot: its pen beat is counted (R316), unless a word whose next chunk issues on it finds a load absent, which
holds the pen or traps (R47, R54, R55). -/
def State.midSlot (s : State) (h : Nat) : State :=
  let p := s.pen h
  let ws := s.awaited h
  match ws, ws.find? (·.over p.shift) with
  | [], _ => p.cores.foldl (fun s c => s.count c 1 1) s
  | _, some w => s.lateTrap h w
  | w :: _, none =>
      let s := s.holdPen h (.restart, colCode w.load.col)
      { s with todo := s.todo.filter (fun t => match t with
        | .ev (.chunkIssue c _) _ => !p.has c
        | _ => true) }

/-- A tick has run its last slot: a load that still has to fill a token is waited for, and then the boundary passes. -/
def State.tickEnds (s : State) (h : Nat) : State × Option (Hold × Nat) :=
  let ws := s.awaited h
  match ws, ws.find? (·.over (s.pen h).shift) with
  | [], _ => s.endOfTick h
  | _, some w => (s.lateTrap h w, none)
  | w :: _, none => (s, (firstHold (s.holds h)).or (some (.restart, colCode w.load.col)))

/-- A pen at a slot boundary, its edges and BPCTL taken: it freezes, holds, or starts the slot (R42, R48, R62). -/
def State.boundary (s : State) (h : Nat) : State :=
  let p := s.pen h
  if p.stop.isSome then s.reportStop h
  else if p.frozen = .wave then
    let s := s.withdrawWaits h
    s.holdPen h ((firstHold (s.holds h ++ (if p.inTick || p.nextTick.isSome then [] else [(.noDemand, 0)]))).getD (.freeze, 0))
  else
    let (s, w) := if p.tickOver then s.tickEnds h else (s, none)
    match w with
    | some w => s.holdPen h w
    | none =>
      let p := s.pen h
      if 0 < p.rewind then s
      else if p.inTick then s.trySlot h
      else if p.finRec.isSome then s.modPen h (fun p => { p with hold := none, ran := false })
      else
        let (s, w) := s.nextTickAt h
        match w with
        | some w => s.holdPen h w
        | none => s.trySlot h

/-- SLOT_START: on each beat of a pen's clock its next slot starts or holds (R48), or the slot in progress goes on. A slot boundary
takes BPCTL (R310), a region edge (R100) and a change of level (R360), and a stop or a freeze wave stops the pen there (R62, R101, R369). A push that a
synchronisation word has released and that found no room is routed again on every beat (R215, R371). -/
def execSlotStart (h : Nat) (s : State) : Out :=
  let p := s.pen h
  if !p.live || p.ended || p.frozen = .reporting || p.frozen = .cast || 0 < p.rewind then .next s
  else
    let s := if s.pushWaits h && p.runs then s.routePen h else s
    if p.started then .next (s.midSlot h)
    else .next (((s.levelStep h).modPen h (fun p => { p.rgnStep with bp := (s.ctx p.ctx).bp })).boundary h)

/-! ### Later chunks and the ends of waits -/

/-- CHUNK_ISSUE: the words of a column that go on over several beats run their next chunk, or pop their next token (R40, R139,
R160). -/
def execChunkIssue (c : Nat) (col : Col) (s : State) : Out :=
  let ts := (s.core c).streams.filter (fun t => t.col = col)
  let s := s.modCore c (fun k => { k with streams := k.streams.filter (fun t => t.col != col) })
  .next (ts.foldl (fun s t =>
    let gone := (s.pen (s.penOf c)).rewind != 0
    let s := { s with cur := { core := c, col := col, slot := t.slot, it := t.it } }
    if gone then s
    else match t.instr with
      | .gfill _ g p ty _ => s.gfillStep t g p ty
      | _ => match col with
        | .v => s.vStep t
        | _ => s.xStep t) s)

/-- REWIND_RESUME: 32 beats after its timing trap the pen may start its restart slot (R54). -/
def execRewindResume (h : Nat) (s : State) : Out :=
  let p := s.pen h
  if p.rewind = 1 then .next (s.setPen h { p with rewind := 0 }) else .next s

/-- RESTART_HOLD_EXPIRY: a load a pen waits for has not come within its extension, and the pen takes the timing trap (R55); a restart
point with effects still to release passes with SLOT_START. -/
def execRestartHoldExpiry (h : Nat) (s : State) : Out :=
  let p := s.pen h
  match (s.awaited h).find? (fun w => w.over p.shift) with
  | some w =>
    .next (if p.live && p.runs && p.rewind = 0 && 0 < p.shift && p.hold = some .restart && (p.started || !s.passes h) then s.lateTrap h w
      else s)
  | none => .next s

end Sys2Proof.Machine
end

