-- ==== Sys2Proof/Machine/Queue.lean ====
section
/-! DEFINITION. Queues and the shepherd's choice (R319 to R324, R336), the completion of an entry (R320, R321), WAIT and
SIGNAL (R326), and the end of a pen (R102, R372). -/

namespace Sys2Proof.Machine

open Sys2Proof

/-- Beats in a microsecond of the housekeeping island, which stays at level 0 (R3, R359). -/
def beatsPerUs : Nat := 3300

/-! ### The driver (R358, R368) -/

/-- Does the device take nothing but the recovery mailbox and status reads: before CXL.io opens, in recovery, or after a failed step of
bring-up (R358, R368)? -/
def State.offline (s : State) : Bool := decide (s.svc.boot < 5) || s.svc.recovery || s.svc.status != 0

/-- A write by the driver over CXL.io; without effect while the device is offline. -/
def State.driver (s t : State) : Out := .next (if s.offline then s else t)

/-! ### Queues (R319, R320, R323, R324) -/

def State.queue (s : State) (q : Nat) : Queue := (Tab.find s.queues q).getD {}

def State.setQueue (s : State) (q : Nat) (x : Queue) : State := { s with queues := Tab.put s.queues q x }

def State.modQueue (s : State) (q : Nat) (f : Queue → Queue) : State := s.setQueue q (f (s.queue q))

def Queue.ctx (q : Queue) : Nat := bitsOf q.w2 63 52
def Queue.log2 (q : Queue) : Nat := bitsOf q.w2 51 47
def Queue.prio (q : Queue) : Nat := bitsOf q.w2 46 44
def Queue.en (q : Queue) : Bool := bitAt q.w2.toNat 43
def Queue.age (q : Queue) : Nat := bitsOf q.w2 15 0

/-- Virtual address of entry `n` of a queue (R320). -/
def Queue.slotVa (q : Queue) (n : Nat) : Nat := q.w0.toNat + 64 * ((n + 2 ^ q.log2 - 1) % 2 ^ q.log2)

/-- The entry in progress with a queue and a number. -/
def State.entry? (s : State) (q n : Nat) : Option Entry := s.entries.find? (fun e => e.qid = q && e.seq = n)

def State.modEntry (s : State) (q n : Nat) (f : Entry → Entry) : State :=
  { s with entries := s.entries.map (fun e => if e.qid = q && e.seq = n then f e else e) }

/-- Word `i` of an entry. -/
def Entry.word (e : Entry) (i : Nat) : W64 := e.w.getD i 0

/-- The host-event queue error (R320, R335). -/
def State.queueError (s : State) (q : Nat) (tail : W64) : State :=
  let x := s.queue q
  let s := s.setQueue q { x with w2 := x.w2 &&& ~~~(BitVec.ofNat 64 (2 ^ 43)) }
  s.postEvent x.ctx 0x07 0 0 0 [BitVec.ofNat 64 q, tail, x.compseq]

/-- QTAIL_WRITE: queue `bus.a` gets the tail `bus.v` (R320). -/
def execQtailWrite (s : State) : Out :=
  let q := s.bus.a % 65536
  let v := s.bus.v
  let x := s.queue q
  s.driver (if v.toNat < x.tail.toNat || x.compseq.toNat + 2 ^ x.log2 < v.toNat then s.queueError q v
    else s.setQueue q { x with tail := v })

/-- QUEUE_DESC_WRITE: word `bus.b` of the descriptor of queue `bus.a` (R319). While EN is 1 only PRIO, AGE and EN change. A queue
is enabled only with a ring size and an enabled context (R319, R337, R349), and its entries then count from 1. Word 2 holds PRIO and AGE:
writing it restarts the ageing clock (R324). -/
def execQueueDescWrite (s : State) : Out :=
  let q := s.bus.a % 65536
  let v := s.bus.v
  let x := s.queue q
  if s.bus.b != 2 then
    s.driver (if x.en then s
      else if s.bus.b = 0 then s.setQueue q { x with w0 := v }
      else if s.bus.b = 1 then s.setQueue q { x with w1 := v } else s)
  else
    let keep : W64 := BitVec.ofNat 64 (2 ^ 64 - 2 ^ 47)
    let mine : W64 := BitVec.ofNat 64 (15 * 2 ^ 43 + 65535)
    let w := if x.en then (x.w2 &&& keep) ||| (v &&& mine) else v &&& (keep ||| mine)
    let y := { x with w2 := w }
    let c := s.ctx y.ctx
    let can := 1 ≤ y.log2 && y.log2 ≤ 16 && bitAt c.w[2].toNat 63 && !c.quar
    let y := if y.en && !x.en && !can then { y with w2 := w &&& ~~~(BitVec.ofNat 64 (2 ^ 43)) } else y
    let y := if y.en && !x.en then { y with tail := 0, taken := 0, compseq := 0, comp := [], elig := false, parked := none } else y
    s.driver (s.setQueue q { y with clock := s.time })

/-- OPC and flags of the next entry of a queue, read ahead of taking it. -/
def State.nextWord (s : State) (x : Queue) : W64 :=
  match s.vread x.ctx (x.slotVa (x.taken.toNat + 1)) 24 with
  | .ok bs => wordAt bs 0
  | .error _ => 0

/-- The graph a PATCH or REPLAY names in words 1 and 2. -/
def State.graph? (s : State) (q n : W64) : Option Graph := s.graphs.find? (fun g => g.qid = q.toNat && g.seq = n.toNat)

/-- Versions of a graph that are live: the newest, and those with instances bound to them (R331). -/
def Graph.live (g : Graph) : List Nat := ((g.bound.map (·.1)).eraseDups.filter (· != g.newest)) ++ [g.newest]

/-- Is the next entry a PATCH that would make a fifth live version (R331)? -/
def State.patchHeld (s : State) (x : Queue) : Bool :=
  match s.vread x.ctx (x.slotVa (x.taken.toNat + 1)) 24 with
  | .error _ => false
  | .ok bs => bitsOf (wordAt bs 0) 63 56 = 3 && (match s.graph? (wordAt bs 1) (wordAt bs 2) with
    | none => false
    | some g => 4 ≤ g.live.length)

/-- Is a queue eligible (R323)? -/
def State.eligible (s : State) (q : Nat) (x : Queue) : Bool :=
  x.en && x.parked.isNone && x.taken.toNat < x.tail.toNat
    && !(bitAt (s.nextWord x).toNat 48 && x.compseq != x.taken)
    && !(s.entries.any (fun e => e.qid = q && bitsOf (e.word 0) 63 56 = 0x0B && e.res.isNone))
    && !s.patchHeld x

/-- Note which queues have become eligible: their ageing clocks start (R324). -/
def State.lookQueues (s : State) : State :=
  s.queues.foldl (fun s x =>
    if x.2.en || x.2.elig then
      let e := s.eligible x.1 x.2
      if e = x.2.elig then s
      else s.modQueue x.1 (fun q => { q with elig := e, clock := if e then s.time else q.clock })
    else s) s

/-- Effective level of a queue (R324). -/
def Queue.level (q : Queue) (now : Nat) : Nat :=
  if q.age = 0 then q.prio else Nat.min 7 (q.prio + (now - q.clock) / beatsPerUs / q.age)

/-- The queue the shepherd takes from: the highest level, and of those the lowest QID above the last taken there, wrapping
(R324). -/
def State.chooseQueue (s : State) : Option (Nat × Nat) :=
  let es := (s.queues.filter (fun x => s.eligible x.1 x.2)).map (fun x => (x.1, x.2.level s.time))
  match (es.map (·.2)).max? with
  | none => none
  | some l =>
    let at_ := (es.filter (fun x => x.2 = l)).map (·.1)
    let last := s.lastQid.toList.getD l 65535
    match (at_.filter (fun q => decide (last < q))).min? with
    | some q => some (q, l)
    | none => at_.min?.map (fun q => (q, l))

/-! ### Completion of an entry (R320, R321, R335) -/

/-- COMPSEQ after the entries of a list have completed. Fuel: the list. -/
def compUp (c : Nat) (l : List Nat) : Nat → Nat
  | 0 => c
  | n + 1 => if l.contains (c + 1) then compUp (c + 1) l n else c

/-- Write w6 and w7 of a completed entry, then COMPSEQ at CADDR with release at system scope, and post its event (R320, R321,
R335). A write that faults and may park keeps the entry; one that may not park is lost, as one under a key slot of another context, which
raises the alarm (R355). -/
def State.finishEntry (s : State) (e : Entry) (r : Nat × Nat × Nat × W64) : State :=
  let x := s.queue e.qid
  let (code, detail, aux, value) := r
  let w7 : W64 := BitVec.ofNat 64 (code % 256 * 2 ^ 56 + detail % 256 * 2 ^ 48 + aux % 2 ^ 48)
  let put := fun (s : State) (va : Nat) (bs : List Byte) =>
    if !s.keyBound e.ctx then (s.alarmB 0 e.ctx, none)
    else match s.vwrite e.ctx va bs with
    | .ok s => (s, none)
    | .error f =>
      let (s, i) := (s.met 0 f).recordFault { ctx := e.ctx, acc := Acc.wr.code, agent := agShepherd } va f f.parkable
      (s, if f.parkable then some i else none)
  let (s1, p) := put s (x.slotVa e.seq + 48) (leBytes 8 value.toNat ++ leBytes 8 w7.toNat)
  match p with
  | some i => s1.modEntry e.qid e.seq (fun e => { e with parked := some i })
  | none =>
    let comp := x.comp ++ [e.seq]
    let c := compUp x.compseq.toNat comp comp.length
    let (s2, p) := if c = x.compseq.toNat then (s1, none) else put s1 x.w1.toNat (leBytes 8 c)
    match p with
    | some i => s2.modEntry e.qid e.seq (fun e => { e with parked := some i })
    | none =>
      let s := s2.modQueue e.qid (fun q => { q with compseq := BitVec.ofNat 64 c, comp := comp.filter (fun n => decide (c < n)) })
      let s := { s with entries := s.entries.filter (fun y => !(y.qid = e.qid && y.seq = e.seq)),
                        dones := s.dones.filter (fun d => d.cmd.host != some (e.qid, e.seq)) }
      if bitAt (e.word 0).toNat 49 then
        s.postEvent e.ctx 0x06 0 0 0 [BitVec.ofNat 64 e.qid, BitVec.ofNat 64 e.seq, BitVec.ofNat 64 (bitsOf (e.word 0) 31 0), value, w7]
      else s

/-- An entry completes. -/
def State.complete (s : State) (e : Entry) (code detail aux : Nat) (value : W64) : State :=
  let r := (code, detail, aux, value)
  (s.modEntry e.qid e.seq (fun e => { e with res := some r })).finishEntry e r

/-- An access of the shepherd for an entry faults: it parks under both policies (R344); where the reason cannot park the entry
completes with its code and detail (R171). -/
def State.entryFault (s : State) (e : Entry) (va : Nat) (acc : Acc) (f : XFault) : State :=
  let (s, i) := (s.met 0 f).recordFault { ctx := e.ctx, acc := acc.code, agent := agShepherd } va f f.parkable
  if f.parkable then s.modEntry e.qid e.seq (fun e => { e with parked := some i })
  else s.complete e f.code (f.e1 acc i).toNat 0 (BitVec.ofNat 64 va)

/-- A row of the shepherd about the entry that `bus` names: one that has completed is written out, one that is parked waits. Of a
context whose key slot is not its own the alarm is raised (R355). -/
def State.entryRow (s : State) (f : State → Entry → State) : Out :=
  match s.entry? s.bus.a s.bus.b with
  | none => .next s
  | some e =>
    if e.parked.isSome then .next s
    else match e.res with
      | some r => .next (s.finishEntry e r)
      | none => s.keyGuard 0 e.ctx (f s e)

/-! ### SHEPHERD_TAKE (R321 to R323) -/

/-- The row of a command (R322). -/
def opcRow : Nat → Option Instr
  | 1 => some .launch | 2 => some .demand | 3 => some .patch | 4 => some .replay | 5 => some .exportRec | 6 => some .importRec
  | 7 => some .freeze | 8 => some .thaw | 9 => some .teardown | 10 => some .table | 11 => some .wait | 12 => some .signal
  | _ => none

/-- Operand words a command uses (R322). -/
def opcWords : Nat → Nat
  | 1 | 9 => 1
  | 11 | 12 => 2
  | 10 => 3
  | 3 | 5 | 6 | 7 | 8 => 4
  | _ => 5

/-- Is an entry malformed (R321)? -/
def entryBad (w : List W64) : Bool :=
  let w0 := w.getD 0 0
  let op := bitsOf w0 63 56
  (opcRow op).isNone || bitsOf w0 55 50 != 0 || bitsOf w0 47 32 != 0
    || ((w.drop (1 + opcWords op)).take (5 - opcWords op)).any (· != 0)

/-- Take the next entry of a queue at a level. -/
def State.takeEntry (s : State) (q level : Nat) : State :=
  let x := s.queue q
  let n := x.taken.toNat + 1
  let va := x.slotVa n
  if !s.keyBound x.ctx then s.alarmB 0 x.ctx
  else match s.vread x.ctx va 64 with
  | .error f =>
    let (s, i) := (s.met 0 f).recordFault { ctx := x.ctx, agent := agShepherd } va f f.parkable
    if f.parkable then s.modQueue q (fun x => { x with parked := some i })
    else s.queueError q x.tail
  | .ok bs =>
    let w := (List.range 8).map (wordAt bs)
    let e : Entry := { qid := q, seq := n, ctx := x.ctx, level := level, w := w }
    let s := s.setQueue q { x with taken := BitVec.ofNat 64 n, clock := s.time }
    let s := { s with entries := s.entries ++ [e],
                      lastQid := s.lastQid.setIfInBounds level q }
    let c := s.ctx x.ctx
    if c.quar || c.tearing.isSome || !bitAt c.w[2].toNat 63 then s.complete e 9 2 0 0
    else if entryBad w then s.complete e 9 1 0 0
    else match opcRow (bitsOf (w.getD 0 0) 63 56) with
      | none => s
      | some i => { s with todo := .ev i { a := q, b := n } :: s.todo }

/-- SHEPHERD_TAKE: once every 32 drove cycles the shepherd takes one entry (R323). -/
def execShepherdTake (s : State) : Out :=
  if s.time % 64 != 0 then .next s
  else
    let s := s.lookQueues
    match s.chooseQueue with
    | none => .next s
    | some (q, l) => .next (s.takeEntry q l)

/-! ### WAIT and SIGNAL (R326) -/

/-- Every die's view takes the writes released at scopes of a kind, and what those follow: the shepherd has acquired them for all that
it starts (R290, R326). -/
def State.applyReleased (s : State) (sc : Nat → Bool) : State :=
  { s with dies := s.dies.map (fun x =>
      let got := fun (e : ViewWrite) => e.rel.any (fun r => sc r.1)
      let gone := x.remote.filter got
      x.apply (fun e => got e || gone.any (fun g => e.before g))) }

/-- WAIT: complete when the named queue's COMPSEQ has reached the number, with an acquire of it at system scope (R326). -/
def execWait (s : State) : Out :=
  s.entryRow (fun s e =>
    if 65536 ≤ (e.word 1).toNat then s.complete e 9 1 0 0
    else if (e.word 2).toNat ≤ (s.queue (e.word 1).toNat).compseq.toNat then (s.applyReleased (· = 6)).complete e 0 0 0 0 else s)

/-- SIGNAL: the value is written as an `ast.i64` with release at system scope writes it (R177, R178, R326), which publishes every write
released to the package or wider before it. -/
def execSignal (s : State) : Out :=
  s.entryRow (fun s e =>
    let va := (e.word 1).toNat
    if va % 8 != 0 then s.complete e 3 2 0 (e.word 1)
    else match s.places e.ctx va 8 .atomic with
      | .error f => s.entryFault e va .atomic f
      | .ok pl => match s.readPlaces (s.home e.ctx) pl none with
        | .error f => s.entryFault e va .atomic f
        | .ok _ => match (s.applyReleased (4 ≤ ·)).vwriteBy none e.ctx va .atomic (leBytes 8 (e.word 2).toNat) with
          | .error f => s.entryFault e va .atomic f
          | .ok s => s.complete e 0 0 0 0)

/-! ### The end of a pen (R102, R372) -/

/-- The pens of an instance. -/
def State.instPens (s : State) (q n : Nat) : List Nat :=
  (List.range s.pens.length).filter (fun h => (s.pen h).qid = q && (s.pen h).seq = n && ((s.pen h).live || (s.pen h).ended || (s.pen h).frozen = .cast))

/-- Has a pen a record on its way to the shepherd? -/
def Pen.finWaits (p : Pen) : Bool := p.finRec.isSome && !p.finReported

/-- FIN_RECORD: the recorded `fin`s of an instance reach the shepherd, those of the last drove cycle together, and the first gives the
exit code, of several the lowest PID's (R372). In which order records of different dies arrive is the model's choice (log 98). -/
def execFinRecord (h : Nat) (s : State) : Out :=
  let p := s.pen h
  if s.time % 2 != 0 || !p.finWaits then .next s
  else
    let gs := (s.instPens p.qid p.seq).filter (fun g => (s.pen g).finWaits && decide ((s.pen g).finTime < s.time))
    let first := gs.foldl (fun g x => if (s.pen x).pid.toNat < (s.pen g).pid.toNat then x else g) h
    let s' := (h :: gs).foldl (fun s g => s.modPen g (fun p => { p with finReported := true })) s
    .next (s'.modEntry p.qid p.seq (fun e => { e with exit := e.exit.or (s.pen first).finRec }))

/-- Demands still posted at a pen, and commands its demand unit has not performed, end with ABORTED and a detail (R102, R349). -/
def State.abortPosted (s : State) (h detail : Nat) : State :=
  let p := s.pen h
  let d := p.du
  let ms := d.posted.map (·.1) ++ d.inbox ++ d.atBoundary
  let s := s.modDu h (fun d => { d with posted := [], inbox := [], atBoundary := [] })
  ms.foldl (fun s m => s.answer (abortDone m agDemand p.die detail)) s

/-- A version of a graph loses an instance that was bound to it (R331). -/
def State.unbind (s : State) (q n : Nat) : State :=
  { s with graphs := s.graphs.map (fun (g : Graph) => { g with bound := g.bound.filter (fun b => b.2 != (q, n)) }) }

/-- Has a context another launch that has not completed, placed, cast or waiting (R315)? -/
def State.launching (s : State) (ctx q n : Nat) : Bool :=
  s.pens.any (fun x => x.ctx = ctx && !x.ended && (x.live || x.frozen = .cast))
    || s.entries.any (fun e => e.ctx = ctx && (e.qid != q || e.seq != n) && (bitsOf (e.word 0) 63 56 = 1 || bitsOf (e.word 0) 63 56 = 4))

/-- PEN_END: a pen with a recorded `fin` that has completed its last tick, and whose released commands have completed, ends; the
launch completes with the last pen of its instance (R102). -/
def execPenEnd (h : Nat) (s : State) : Out :=
  let p := s.pen h
  let busy := p.cores.any (fun c => (s.core c).out != [] || (s.core c).cq != [])
  if !p.live || p.ended || p.finRec.isNone || !p.finReported || p.inTick || p.cmds != [] || p.syncs != [] || busy
      || p.frozen != .running then .next s
  else
    let s := s.abortPosted h 3
    let s := s.modPen h (fun p => { p with live := false, ended := true })
    if (s.instPens p.qid p.seq).any (fun g => !(s.pen g).ended) then .next s
    else
      let s := s.unbind p.qid p.seq
      let s := if s.launching p.ctx p.qid p.seq then s else s.stallEnd p.ctx
      match s.entry? p.qid p.seq with
      | none => .next s
      | some e => .next (s.complete e 0 0 0 (((e.exit.getD 0).zeroExtend 64)))

end Sys2Proof.Machine
end

