-- ==== Sys2Proof/Machine/Image.lean ====
section
/-! DEFINITION. The bytes of a casting and the state they restore (R346, R347). Where R346 gives a block a size and names what it
holds, the places inside it are the model's; what a block has no room for stays in the pen's record (log 20). -/

namespace Sys2Proof.Machine

open Sys2Proof

/-! ### Planes and ports -/

/-- A plane in the record order of R332, 32 slots a column. -/
def planeBytes (p : Plane) : List Byte :=
  (List.range 128).flatMap (fun i => padTo 16 (leBytes 10 (Plane.word p (colOf (i / 32)) (i % 32)).toNat))

/-- A plane from its bytes. -/
def planeOf (bs : List Byte) : Plane :=
  (List.range 128).filterMap (fun i =>
    let w := leAt bs (16 * i) 10
    if w = 0 then none else some (i, BitVec.ofNat 80 w))

/-- The 40 bytes of a token in a port. -/
def portTok (t : Tok) : List Byte :=
  padTo 40 (leBytes 32 t.data.toNat ++ leBytes 4 t.pred.toNat
    ++ leBytes 1 (t.tag.val + (if t.raw then 16 else 0) + (if t.inval then 32 else 0)))

/-- A port of 64 beats. -/
def portBytes (ts : List Tok) : List Byte := padTo 2560 ((ts.take 64).flatMap portTok)

/-- A token from its bytes; where it came from is kept beside it. -/
def tokOf (o : Tok) (bs : List Byte) : Tok :=
  let b := leAt bs 36 1
  { o with data := BitVec.ofNat 256 (leAt bs 0 32), pred := BitVec.ofNat 32 (leAt bs 32 4),
           tag := Fin.ofNat 16 b, raw := bitAt b 4, inval := bitAt b 5 }

/-- Tokens of a port from its bytes. -/
def portOf (bs : List Byte) (n : Nat) (old : List Tok) : List Tok :=
  (List.range n).map (fun i => tokOf (old.getD i {}) ((bs.drop (40 * i)).take 40))

/-! ### Landing buffers (R62, R63, R150) -/

/-- A result as it enters its landing buffer: a load whose data has returned becomes the values it writes (R62). -/
def Flight.landed (f : Flight) : Flight :=
  match f.load, f.results with
  | some _, some ws => { f with writes := ws, load := none }
  | _, _ => f

/-- One bit for each byte of a mask. -/
def byteMask (n : Nat) (m : Nat) : Nat := ((List.range n).map (fun i => if bitAt m (8 * i) then 2 ^ i else 0)).sum

/-- The bits of the bytes that a byte mask names. -/
def byteBits (n : Nat) (m : Nat) : Nat := ((List.range n).map (fun i => if bitAt m i then 255 * 2 ^ (8 * i) else 0)).sum

/-- What an entry says of a result: kind and number of its destination, value, mask, a place inside the destination, a tag, and the
group that tells apart results of one word which are no chunks of one. -/
structure LandImg where
  kind : Nat
  dest : Nat
  value : Nat
  mask : Nat := 0
  ofs : Nat := 0
  tag : Nat := 0
  grp : Nat := 0
deriving DecidableEq, Repr, Inhabited

/-- Tag, RAW and invalid mark of a token in one byte (R346). -/
def Tok.marks (t : Tok) : Nat := t.tag.val + (if t.raw then 16 else 0) + (if t.inval then 32 else 0)

/-- A result in a landing-buffer entry. The kinds are 1 s, 2 v, 3 q, 4 b, 5 CSR, 6 an accumulator, 7 the half of one, 8 a tx port, whose
entry has the tokens of up to eight chunks, 9 a word of b, 10 to 13 a ring, its count, its head, its FILLROW, 14 scratchpad, 15 bypass,
16 to 18 the tag table, 19 and 20 status word and PIV of an o, 21 a recompaction that starts, 22 a stop. -/
def Write.image (sub : Nat) : Write → Option LandImg
  | .s r x => some { kind := 1, dest := r.val, value := x.toNat }
  | .v r d m => some { kind := 2, dest := r.val, value := (d &&& m).toNat, mask := byteMask 256 m.toNat }
  | .q r d m => some { kind := 3, dest := r.val, value := (d &&& m).toNat, mask := m.toNat }
  | .b r x => some { kind := 4, dest := r.val, value := x.toNat }
  | .csr n x => some { kind := 5, dest := n, value := x.toNat }
  | .acc r x => some { kind := 6, dest := r.val, value := x.toNat }
  | .accLo r x => some { kind := 7, dest := r.val, value := x.toNat }
  | .push p t => some { kind := 8, dest := p.val, value := t.data.toNat * 2 ^ (256 * (sub % 8)), mask := t.pred.toNat * 2 ^ (32 * (sub % 8)),
                        tag := t.marks, grp := sub / 8 }
  | .bw r i x => some { kind := 9, dest := r.val, value := x.toNat, ofs := i.val, grp := sub }
  | .ring g r => some { kind := 10, dest := g.val, value := r.word.toNat, grp := sub }
  | .ringAdv g n => some { kind := 11, dest := g.val, value := n, grp := sub }
  | .ringPop g n => some { kind := 12, dest := g.val, value := n, grp := sub }
  | .ringRow g r => some { kind := 13, dest := g.val, value := r.toNat, grp := sub }
  | .mem ofs bs => if bs.length ≤ 256 then some { kind := 14, dest := 0, value := leNat bs, mask := bs.length, ofs := ofs, grp := sub } else none
  | .bypRow f src ofs bs =>
    if bs.length ≤ 256 then some { kind := 15, dest := src.val, value := leNat bs, mask := bs.length, ofs := ofs, tag := f.code, grp := sub }
    else none
  | .tagSet i e => some { kind := 16, dest := i.val, value := e.key.toNat + e.slot.toNat * 2 ^ 48, tag := if e.valid then 1 else 0, grp := sub }
  | .tagInv key => some { kind := 17, dest := 0, value := key.toNat, grp := sub }
  | .tagClr => some { kind := 18, dest := 0, value := 0, grp := sub }
  | .oStat o x => some { kind := 19, dest := o.val, value := x.toNat }
  | .oPiv o x => some { kind := 20, dest := o.val, value := x.toNat }
  | .recomp o none => some { kind := 21, dest := o.val, value := 0 }
  | .recomp o (some x) => some { kind := 21, dest := o.val, value := x.1.toNat, mask := x.2.1.toNat + x.2.2 * 2 ^ 32, tag := 1 }
  | .stop cause code => some { kind := 22, dest := cause.code, value := code.toNat }

/-- A result from an entry, `sub` the chunk of a tx port. -/
def Write.ofImage (sub : Nat) (i : LandImg) : Option Write :=
  let g : Fin 8 := Fin.ofNat 8 i.dest
  let o : Fin 4 := Fin.ofNat 4 i.dest
  match i.kind with
  | 1 => some (.s (Fin.ofNat 32 i.dest) (BitVec.ofNat 64 i.value))
  | 2 => some (.v (Fin.ofNat 32 i.dest) (BitVec.ofNat 2048 i.value) (BitVec.ofNat 2048 (byteBits 256 i.mask)))
  | 3 => some (.q (Fin.ofNat 16 i.dest) (BitVec.ofNat 256 i.value) (BitVec.ofNat 256 i.mask))
  | 4 => some (.b (Fin.ofNat 16 i.dest) (BitVec.ofNat 256 i.value))
  | 5 => some (.csr i.dest (BitVec.ofNat 64 i.value))
  | 6 => some (.acc g (BitVec.ofNat 65536 i.value))
  | 7 => some (.accLo g (BitVec.ofNat 32768 i.value))
  | 8 => some (.push g { data := BitVec.ofNat 256 (i.value / 2 ^ (256 * (sub % 8))), pred := BitVec.ofNat 32 (i.mask / 2 ^ (32 * (sub % 8))),
                         tag := Fin.ofNat 16 i.tag, raw := bitAt i.tag 4, inval := bitAt i.tag 5 })
  | 9 => some (.bw (Fin.ofNat 16 i.dest) (Fin.ofNat 4 i.ofs) (BitVec.ofNat 64 i.value))
  | 10 => some (.ring g (Ring.ofWord (BitVec.ofNat 64 i.value)))
  | 11 => some (.ringAdv g i.value)
  | 12 => some (.ringPop g i.value)
  | 13 => some (.ringRow g (BitVec.ofNat 5 i.value))
  | 14 => some (.mem i.ofs (leBytes (Nat.min 256 i.mask) i.value))
  | 15 => some (.bypRow (Fmt.ofCode (i.tag % 32)) g i.ofs (leBytes (Nat.min 256 i.mask) i.value))
  | 16 => some (.tagSet (Fin.ofNat 64 i.dest) { valid := bitAt i.tag 0, key := BitVec.ofNat 48 i.value, slot := BitVec.ofNat 16 (i.value / 2 ^ 48) })
  | 17 => some (.tagInv (BitVec.ofNat 48 i.value))
  | 18 => some .tagClr
  | 19 => some (.oStat o (BitVec.ofNat 64 i.value))
  | 20 => some (.oPiv o (BitVec.ofNat 160 i.value))
  | 21 => some (.recomp o (if bitAt i.tag 0 then some (BitVec.ofNat 2048 i.value, BitVec.ofNat 32 i.mask, i.mask / 2 ^ 32) else none))
  | 22 => ([Cause.flagTrap, .alias_, .trap, .brk, .machineCheck, .timingStuck][i.dest - 1]?).map (fun c => .stop c (BitVec.ofNat 64 i.value))
  | _ => none

/-- Does a write take an array slot (R63)? -/
def Write.isArray : Write → Bool
  | .acc .. | .accLo .. => true
  | _ => false

/-- What an entry holds of a core's results: where it stands among them, the result, its flags, and how many tokens it has. Chunks of one
V word's result are one entry (R63), each array its own (R150). -/
structure LandEntry where
  col : Col
  ord : Nat
  img : LandImg
  array : Bool
  remain : Nat
  slot : Nat
  it : BitVec 32
  flags : BitVec 5 := 0
  count : Nat := 1
deriving DecidableEq, Repr, Inhabited

/-- Do a result and a write of it belong to an entry? -/
def LandEntry.has (l : LandEntry) (f : Flight) (w : Write) : Bool :=
  f.col = l.col && f.ord = l.ord
    && (w.image f.sub).any (fun i => i.kind = l.img.kind && i.dest = l.img.dest && i.grp = l.img.grp && i.ofs = l.img.ofs)

/-- What an entry says of a write of a result; a status word or PIV beside an array stands in the array's slot (R150). -/
def Flight.image (f : Flight) (w : Write) : Option LandImg :=
  match w with
  | .oStat .. | .oPiv .. => if f.writes.any Write.isArray then none else w.image f.sub
  | _ => w.image f.sub

/-- The entries of some results, in order. -/
def landedOf (fs : List Flight) : List LandEntry :=
  fs.foldl (fun ls f => f.writes.foldl (fun (ls : List LandEntry) w =>
    match f.image w with
    | none => ls
    | some i =>
      if ls.any (fun l => l.has f w) then
        ls.map (fun l => if l.has f w then { l with
            img := { l.img with value := l.img.value ||| i.value, mask := l.img.mask ||| i.mask }
            remain := Nat.min l.remain f.remain, flags := l.flags ||| f.flags, count := l.count + 1 } else l)
      else ls ++ [{ col := f.col, ord := f.ord, img := i, array := w.isArray, remain := f.remain, slot := f.slot, it := f.it, flags := f.flags }])
    ls) []

/-- The 320 bytes of an entry: value, mask, then whether it is in use, kind and number of the destination, the array slot plus 1, the
beats remaining, the word's slot, tag, flags, number of tokens, the word's iteration, the place inside the destination, and the group. -/
def LandEntry.bytes (l : LandEntry) (slot : Nat) : List Byte :=
  padTo 320 (leBytes 256 (if l.array then 0 else l.img.value) ++ leBytes 32 l.img.mask ++ leBytes 1 1 ++ leBytes 1 l.img.kind
    ++ leBytes 1 l.img.dest ++ leBytes 1 slot ++ leBytes 4 l.remain ++ leBytes 1 l.slot ++ leBytes 1 l.img.tag ++ leBytes 1 l.flags.toNat
    ++ leBytes 1 l.count ++ leBytes 4 l.it.toNat ++ leBytes 4 l.img.ofs ++ leBytes 1 l.img.grp)

/-- The entries of a column that its buffer holds (R63). -/
def colLanded (ls : List LandEntry) (col : Col) : List LandEntry := (ls.filter (fun l => l.col = col)).take 16

/-- The arrays that have a slot (R63). -/
def arraysOf (ls : List LandEntry) : List LandEntry := ((colLanded ls .m).filter (·.array)).take 8

/-- The array slot of an entry plus 1, 0 none. -/
def slotNo (ls : List LandEntry) (l : LandEntry) : Nat := if l.array then (arraysOf ls).idxOf l + 1 else 0

/-- The landing buffers S, V, M, X. -/
def landingBytes (ls : List LandEntry) : List Byte :=
  [Col.s, .v, .m, .x].flatMap (fun col => padTo 0x1400 ((colLanded ls col).flatMap (fun l => l.bytes (slotNo ls l))))

/-- The status word and PIV that go with an array of an orthogonal accumulator: those its result writes beside it (R150). -/
def oaBeside (fs : List Flight) (l : LandEntry) : Nat × Nat :=
  let ws := (fs.filter (fun f => f.col = l.col && f.ord = l.ord)).flatMap (·.writes)
  ((ws.findSome? (fun w => match w with | .oStat _ v => some v.toNat | _ => none)).getD 0,
   (ws.findSome? (fun w => match w with | .oPiv _ v => some v.toNat | _ => none)).getD 0)

/-- The array slots 0 to 7 (R346). -/
def arrayBytes (fs : List Flight) (ls : List LandEntry) : List Byte :=
  padTo 0x10800 ((arraysOf ls).flatMap (fun l =>
    let o := oaBeside fs l
    padTo 0x2100 (leBytes 8192 l.img.value ++ leBytes 1 l.img.dest ++ leBytes 1 l.img.kind ++ leBytes 4 l.remain ++ leBytes 1 1 ++ padTo 1 []
      ++ leBytes 8 o.1 ++ leBytes 20 o.2)))

/-- An entry of the buffers as it was read back: in use, the result, beats remaining, status word and PIV of an array, and its word. -/
structure Refound where
  on : Bool
  img : LandImg
  remain : Nat
  stat : Nat := 0
  piv : Nat := 0
  slot : Nat := 0
  it : BitVec 32 := 0
  flags : BitVec 5 := 0
  count : Nat := 1
deriving DecidableEq, Repr, Inhabited

/-- Read an entry of 320 bytes back, an array from its slot. -/
def refound (arrays e : List Byte) : Refound :=
  let k := leAt e 291 1
  let a := arrays.drop (0x2100 * (k - 1))
  let i : LandImg := { kind := leAt e 289 1, dest := leAt e 290 1, value := leAt e 0 256, mask := leAt e 256 32, ofs := leAt e 304 4,
                       tag := leAt e 297 1, grp := leAt e 308 1 }
  let r : Refound := { on := bitAt (leAt e 288 1) 0, img := i, remain := leAt e 292 4, slot := leAt e 296 1, it := BitVec.ofNat 32 (leAt e 300 4),
                       flags := BitVec.ofNat 5 (leAt e 298 1), count := leAt e 299 1 }
  if k = 0 then r
  else { r with on := r.on && bitAt (leAt a 8198 1) 0, img := { i with kind := leAt a 8193 1, dest := leAt a 8192 1, value := leAt a 0 8192 },
                remain := leAt a 8194 4, stat := leAt a 8200 8, piv := leAt a 8208 20 }

/-- A write of a result as its entry gives it back, each chunk its own part of it; where a token came from is kept beside it. -/
def Refound.write (r : Refound) (l : LandEntry) (f : Flight) (w : Write) : Option Write :=
  if !r.on then none
  else
    let m := match w.image f.sub with
      | some i => (r.img.mask &&& i.mask) ||| (r.img.mask &&& (2 ^ 256 - 1 - l.img.mask))
      | none => 0
    let i := if r.img.kind = 2 || r.img.kind = 3 then { r.img with mask := m } else r.img
    some (match Write.ofImage f.sub i, w with
      | some (.push p t), .push _ old => .push p { old with data := t.data, pred := t.pred, tag := t.tag, raw := t.raw, inval := t.inval }
      | some x, _ => x
      | none, _ => w)

/-- A result with its entries read back. -/
def Flight.refind (ls : List (LandEntry × Refound)) (f : Flight) : Flight :=
  f.writes.foldl (fun (g : Flight) w =>
    match ls.find? (fun x => x.1.has f w) with
    | some (l, r) => { g with
        writes := g.writes ++ (r.write l f w).toList
        flags := if r.on then (g.flags &&& r.flags) ||| (r.flags &&& ~~~l.flags) else g.flags
        remain := if r.on then r.remain + (f.remain - l.remain) else g.remain }
    | none =>
      let o := ls.find? (fun x => x.1.array && x.1.col = f.col && x.1.ord = f.ord)
      { g with writes := g.writes ++ [match w, o with
        | .oStat i _, some (_, r) => .oStat i (BitVec.ofNat 64 r.stat)
        | .oPiv i _, some (_, r) => .oPiv i (BitVec.ofNat 160 r.piv)
        | w, _ => w] }) { f with writes := [] }

/-- The results of an entry that was not in use when the casting was written. -/
def Refound.fresh (r : Refound) (col : Col) : List Flight :=
  let n := if r.img.kind = 8 then Nat.min 8 (max 1 r.count) else 1
  if !r.on then []
  else (List.range n).filterMap (fun j => (Write.ofImage j r.img).map (fun w =>
    ({ col := col, slot := r.slot, it := r.it, ord := 0, sub := j, remain := r.remain + j, writes := [w], flags := r.flags } : Flight)))

/-- The results of a core from its landing buffers and array slots, and from those it had when it was cast; an entry that was not in use
then is a result of its own. -/
def flightsOf (fs : List Flight) (bufs arrays : List Byte) : List Flight :=
  let ls := landedOf fs
  let ent := fun (n i : Nat) => refound arrays ((bufs.drop (0x1400 * n + 320 * i)).take 320)
  let cols : List (Nat × Col) := [(0, .s), (1, .v), (2, .m), (3, .x)]
  let found := cols.flatMap (fun x => (colLanded ls x.2).zipIdx.map (fun (l : LandEntry × Nat) => (l.1, ent x.1 l.2)))
  let more := cols.flatMap (fun x => ((List.range 16).drop (colLanded ls x.2).length).flatMap (fun i => (ent x.1 i).fresh x.2))
  fs.map (Flight.refind found) ++ more

/-! ### Commit queue, tag table, snapshot, region stack -/

/-- The 64 bytes of a commit-queue entry: kind, port or number of bytes, program order; then the token of a push, the first address and
up to 32 bytes of a store, or CMD, A and B of a command. -/
def CqEntry.bytes (e : CqEntry) : List Byte :=
  let hd := fun (kind n : Nat) => leBytes 1 kind ++ leBytes 1 n ++ leBytes 2 e.sub ++ leBytes 4 e.ord
  match e.eff with
  | .push p t => padTo 64 (hd 1 p.val ++ portTok t)
  | .store els _ =>
    let bs := (els.flatMap (·.2)).take 32
    padTo 64 (hd 2 bs.length ++ leBytes 8 ((els.headD (0, [])).1) ++ bs)
  | .cmd m => padTo 64 (hd 3 0 ++ leBytes 8 m.cmd.toNat ++ leBytes 8 m.a.toNat ++ leBytes 8 m.b.toNat)

/-- The elements of a store with bytes put in their place, one after another. -/
def refill : List (Nat × List Byte) → List Byte → List (Nat × List Byte)
  | [], _ => []
  | (a, old) :: r, bs => (a, bs.take old.length ++ old.drop bs.length) :: refill r (bs.drop old.length)

/-- A commit-queue entry from its bytes and from what it was; none where it is no longer in use. -/
def CqEntry.ofBytes (old : Option CqEntry) (bs : List Byte) : Option CqEntry :=
  let ord := leAt bs 4 4
  let sub := leAt bs 2 2
  match leAt bs 0 1, (old.map (·.eff) : Option Effect) with
  | 1, some (.push _ t) => old.map (fun e => { e with ord := ord, sub := sub, eff := .push (Fin.ofNat 8 (leAt bs 1 1)) (tokOf t ((bs.drop 8).take 40)) })
  | 1, _ => some { ord := ord, sub := sub, eff := .push (Fin.ofNat 8 (leAt bs 1 1)) (tokOf {} ((bs.drop 8).take 40)) }
  | 2, some (.store els prel) =>
    let a := (els.headD (0, [])).1
    let els := els.map (fun x => (leAt bs 8 8 + x.1 - a, x.2))
    old.map (fun e => { e with ord := ord, sub := sub, eff := .store (refill els ((bs.drop 16).take (Nat.min 32 (leAt bs 1 1)))) prel })
  | 2, _ => some { ord := ord, sub := sub, eff := .store [(leAt bs 8 8, (bs.drop 16).take (Nat.min 32 (leAt bs 1 1)))] }
  | 3, some (.cmd m) => old.map (fun e => { e with ord := ord, sub := sub, eff := .cmd { m with
      cmd := BitVec.ofNat 64 (leAt bs 8 8), a := BitVec.ofNat 64 (leAt bs 16 8), b := BitVec.ofNat 64 (leAt bs 24 8) } })
  | _, _ => none

/-- The commit queue. -/
def cqBytes (q : List CqEntry) : List Byte := padTo 0x800 ((q.take 32).flatMap CqEntry.bytes)

def cqOf (old : List CqEntry) (bs : List Byte) : List CqEntry :=
  (List.range 32).filterMap (fun i => CqEntry.ofBytes old[i]? ((bs.drop (64 * i)).take 64))

/-- The tag table: key, slot, valid flag (R188). -/
def tagBytes (t : Tab TagEntry) : List Byte :=
  (List.range 64).flatMap (fun i => match Tab.find t i with
    | some e => padTo 16 (leBytes 6 e.key.toNat ++ leBytes 2 e.slot.toNat ++ leBytes 1 (if e.valid then 3 else 2))
    | none => padTo 16 [])

def tagsOf (bs : List Byte) : Tab TagEntry :=
  (List.range 64).filterMap (fun i =>
    let f := leAt bs (16 * i + 8) 1
    if f = 0 then none
    else some (i, { valid := bitAt f 0, key := BitVec.ofNat 48 (leAt bs (16 * i) 6), slot := BitVec.ofNat 16 (leAt bs (16 * i + 6) 2) }))

/-- The restart snapshot (R53): s1 to s31, q0 to q15, of which q0 reads all ones (R52), g0 to g7, the dither phase, then depth and overflow count of the region stack. The
tokens that are popped and not final still stand in their ports, so that the read pointers of the snapshot are 0. -/
def snapBytes (p : Pen) (n : Snap) : List Byte :=
  padTo 0x800 (padTo 0x100 (((List.range 31).map (fun i => (n.s.toList.getD (i + 1) 0).toNat)).flatMap (leBytes 8))
    ++ leBytes 32 (2 ^ 256 - 1) ++ (n.q.toList.drop 1).flatMap (fun x => leBytes 32 x.toNat) ++ n.g.toList.flatMap (fun r => leBytes 8 r.word.toNat) ++ padTo 64 []
    ++ leBytes 8 n.dith.toNat ++ leBytes 8 p.snapRgn ++ leBytes 8 p.snapRgnOv)

def snapOf (old : Snap) (bs : List Byte) : Snap :=
  { old with
    s := Vector.ofFn (fun i : Fin 32 => if i = 0 then 0 else BitVec.ofNat 64 (leAt bs (8 * (i.val - 1)) 8))
    q := Vector.ofFn (fun i : Fin 16 => if i = 0 then 0 else BitVec.ofNat 256 (leAt bs (0x100 + 32 * i.val) 32))
    g := Vector.ofFn (fun i : Fin 8 => Ring.ofWord (BitVec.ofNat 64 (leAt bs (0x300 + 8 * i.val) 8)))
    dith := BitVec.ofNat 16 (leAt bs 0x380 8) }

/-- Outputs whose delivery state the blocks hold: one a tx port. -/
def blockOuts : Nat := 8

/-- The region stack from the bottom, its depth and overflow count, the withdrawn synchronisation word of the core (its flag, CMD, A and
B), lbs, the shadow plane's load status, and the places of the core's windows (R229). -/
def rgnBytes (p : Pen) (c : Nat) : List Byte :=
  let sync := match p.syncs.find? (fun m => m.core = c) with
    | some m => leBytes 8 1 ++ leBytes 8 m.cmd.toNat ++ leBytes 8 m.a.toNat ++ leBytes 8 m.b.toNat
    | none => padTo 32 []
  padTo 0x100 (padTo 32 (p.rgn.flatMap (fun i => leBytes 2 i.toNat)) ++ leBytes 8 p.rgn.length ++ leBytes 8 p.rgnOv ++ sync
    ++ leBytes 8 (p.cons + p.shift * 2 ^ 32) ++ leBytes 8 p.shStat.toNat
    ++ padTo 32 ((p.du.outs.take blockOuts).flatMap (fun o => leBytes 4 (o.bases.getD (p.rel c) 0))))

/-- A pen with a core's block put back; what belongs to the pen is read from its first core. -/
def Pen.ofRgn (p : Pen) (c : Nat) (first : Bool) (bs : List Byte) : Pen :=
  let syncs := p.syncs.filterMap (fun m =>
    if m.core != c then some m
    else if bitAt (leAt bs 48 1) 0 then
      some { m with cmd := BitVec.ofNat 64 (leAt bs 56 8), a := BitVec.ofNat 64 (leAt bs 64 8), b := BitVec.ofNat 64 (leAt bs 72 8) }
    else none)
  let outs := p.du.outs.zipIdx.map (fun (x : Output × Nat) =>
    if blockOuts ≤ x.2 then x.1 else { x.1 with bases := x.1.bases.set (p.rel c) (leAt bs (96 + 4 * x.2) 4) })
  let p := { p with syncs := syncs, du := { p.du with outs := outs } }
  if !first then p
  else { p with
    rgn := (List.range (Nat.min 16 (leAt bs 32 8))).map (fun i => BitVec.ofNat 16 (leAt bs (2 * i) 2))
    rgnOv := leAt bs 40 8
    cons := leAt bs 80 4
    shift := Nat.min 4 (leAt bs 84 4)
    shStat := if p.shNew then p.shStat else BitVec.ofNat 64 (leAt bs 88 8) }

/-! ### The pen block -/

/-- The 16 bytes of a delivery request: first tick, end, beats done; bit 0 of the last byte a posted demand, bit 1 a withdrawn tick. -/
def Req.bytes (r : Req) : List Byte :=
  leBytes 6 ((r.ticks.head?.map (·.1)).getD 0) ++ leBytes 6 ((r.ticks.getLast?.map (·.2)).getD 0) ++ leBytes 3 r.done
    ++ leBytes 1 ((if r.asker = .edge then 0 else 1) + (if r.retracted then 2 else 0))

/-- A request from its bytes: its ticks as they were where its ends are, its asker as it was. -/
def Req.ofBytes (old : Option Req) (bs : List Byte) : Req :=
  let ends := (leAt bs 0 6, leAt bs 6 6)
  let r : Req := old.getD { ticks := [], asker := .edge }
  let same := (r.ticks.head?.map (·.1)).getD 0 = ends.1 && (r.ticks.getLast?.map (·.2)).getD 0 = ends.2
  { r with ticks := if same then r.ticks else [ends], done := leAt bs 12 3, retracted := bitAt (leAt bs 15 1) 1 }

/-- The swap token a pen holds: a flag, CMD, A, B, and port and tag (R333, R336). -/
def swapBytes : Option Cmd → List Byte
  | some m => leBytes 8 1 ++ leBytes 8 m.cmd.toNat ++ leBytes 8 m.a.toNat ++ leBytes 8 m.b.toNat ++ leBytes 8 (m.o.cp.val + m.o.tag.val * 8)
  | none => padTo 40 []

/-- A swap token with what its bytes say. -/
def swapOf (m : Cmd) (bs : List Byte) : Cmd :=
  let w := leAt bs 32 8
  { m with cmd := BitVec.ofNat 64 (leAt bs 8 8), a := BitVec.ofNat 64 (leAt bs 16 8), b := BitVec.ofNat 64 (leAt bs 24 8),
           o := { m.o with cp := Fin.ofNat 8 w, tag := Fin.ofNat 256 (w / 8) } }

/-- Bytes of an output in the block. -/
def outBytes : Nat := 408

/-- The pen block: the pen CSR, N, ITER and its next value, the slot counter, the tick, it, w, the run in progress, the swap token, then the
slot lengths, and of each output H, the pending intervals and the delivery queue. The windows' places stand in the cores' images. -/
def penBlock (p : Pen) : List Byte :=
  let d := p.du
  let int := fun (i : Int) => leBytes 8 (BitVec.ofInt 64 i).toNat
  let run := match d.run with
    | some r => leBytes 8 1 ++ int r.first ++ leBytes 8 r.s ++ leBytes 8 r.n0 ++ leBytes 8 r.n1
    | none => padTo 40 []
  padTo 4096 (padTo 0x100 (leBytes 8 (penWord p).toNat ++ leBytes 8 p.n ++ leBytes 8 p.iter.toNat ++ leBytes 8 p.iterNext.toNat
      ++ leBytes 8 p.slot ++ int p.tick ++ leBytes 8 p.it.toNat ++ leBytes 8 0 ++ leBytes 8 d.w ++ run ++ swapBytes p.swap)
    ++ padTo 0x20 (p.lens.flatMap (leBytes 1))
    ++ (d.outs.take blockOuts).flatMap (fun o => leBytes 8 o.h ++ leBytes 8 o.pend.length
      ++ padTo 128 ((o.pend.take 8).flatMap (fun i => leBytes 8 i.1 ++ leBytes 8 i.2))
      ++ leBytes 8 o.queue.length ++ padTo 256 ((o.queue.take 16).flatMap Req.bytes)))

/-- A pen with its block put back. -/
def Pen.ofBlock (p : Pen) (bs : List Byte) : Pen :=
  let n := fun (i : Nat) => leAt bs (8 * i) 8
  let int := fun (i : Nat) => (BitVec.ofNat 64 (n i)).toInt
  let d := p.du
  { p with
    pid := BitVec.ofNat 16 (leAt bs 4 2)
    n := n 1
    iter := BitVec.ofNat 32 (n 2)
    iterNext := BitVec.ofNat 32 (n 3)
    slot := n 4
    tick := int 5
    it := BitVec.ofNat 32 (n 6)
    swap := if bitAt (n 14) 0 then p.swap.map (fun m => swapOf m ((bs.drop 112).take 40)) else if p.swapNew then p.swap else none
    lens := (List.range p.lens.length).map (fun i => leAt bs (0x100 + i) 1)
    du := { d with
      w := n 8
      run := if n 9 = 0 then none else some { first := int 10, s := n 11, n0 := n 12, n1 := n 13 }
      outs := d.outs.zipIdx.map (fun (x : Output × Nat) =>
        if blockOuts ≤ x.2 then x.1
        else
          let at_ := 0x120 + outBytes * x.2
          { x.1 with
            h := leAt bs at_ 8
            pend := (List.range (Nat.min 8 (leAt bs (at_ + 8) 8))).map (fun i => (leAt bs (at_ + 16 + 16 * i) 8, leAt bs (at_ + 24 + 16 * i) 8))
            queue := (List.range (Nat.min 16 (leAt bs (at_ + 144) 8))).map (fun i =>
              Req.ofBytes x.1.queue[i]? ((bs.drop (at_ + 152 + 16 * i)).take 16)) }) } }

/-! ### Core images -/

/-- The image of one core in a casting (R346). -/
def State.castCore (s : State) (p : Pen) (c : Nat) : List Byte :=
  let k := s.core c
  let rx := k.rx.toList
  let fs := k.flights.map Flight.landed
  let ls := landedOf fs
  (s.coreImage p c).take 0x12800
    ++ planeBytes k.live ++ planeBytes k.shadow
    ++ (List.range 64).flatMap (fun n => leBytes 8 (if csrKnown n then (s.csr c n).toNat else 0))
    ++ rx.flatMap (fun r => portBytes r.q) ++ k.tx.toList.flatMap portBytes
    ++ padTo 0x100 (rx.flatMap (fun r => leBytes 8 r.q.length ++ leBytes 8 r.taken)
        ++ k.tx.toList.flatMap (fun t => leBytes 8 t.length ++ leBytes 8 0))
    ++ cqBytes k.cq ++ landingBytes ls ++ tagBytes k.tags
    ++ padTo 0x2100 (padTo 8192 (k.byp.data.take 8192) ++ leBytes 1 k.byp.fmt.code ++ leBytes 1 (if k.byp.valid then 1 else 0))
    ++ snapBytes p k.snap ++ rgnBytes p c ++ padTo 0xF00 [] ++ arrayBytes fs ls

/-- Bytes of one core's image, with its scratchpad where that is included. -/
def castCoreLen (pad : Bool) : Nat := 0x37800 + (if pad then 2 ^ 20 else 0)

/-- Bytes of a pen's casting. -/
def Pen.castLen (p : Pen) (pad : Bool) : Nat := 4096 + p.h * p.w * castCoreLen pad

/-- Bytes of the casting of some pens. -/
def State.castingLen (s : State) (hs : List Nat) (pad : Bool) : Nat := hs.foldl (fun n h => n + (s.pen h).castLen pad) 64

/-- Where the scratchpads of some pens lie in their casting: the core, and the offset of its 1 MiB. -/
def State.castPads (s : State) (at_ : Nat) : List (Nat × List Nat) → List (Nat × Nat)
  | [] => []
  | (h, cs) :: r => (cs.zipIdx.map (fun c => (c.1, at_ + 4096 + c.2 * castCoreLen true + 0x37800)))
    ++ State.castPads s (at_ + (s.pen h).castLen true) r

/-- The casting of an instance: header, then its pens in PID order. -/
def State.casting (s : State) (hs : List Nat) (pad : Bool) : List Byte :=
  let len := s.castingLen hs pad
  padTo 64 (leBytes 2 hs.length ++ leBytes 1 (if pad then 1 else 0) ++ padTo 5 [] ++ leBytes 8 len)
    ++ hs.flatMap (fun h =>
      let p := s.pen h
      penBlock p ++ p.cores.flatMap (fun c =>
        s.castCore p c ++ (if pad then s.cleanRead c (nearAddr c 0) (2 ^ 20) else [])))

/-- Write one core's casting back, over what was kept of the core (R347). -/
def State.thawCore (s : State) (h c : Nat) (kept : Core) (bs : List Byte) : State :=
  let s := s.setCore c kept
  let s := s.loadImage (s.pen h) c (bs.take 0x12800)
  let s := (List.range 64).foldl (fun s n =>
    let v := BitVec.ofNat 64 (leAt bs (0x13800 + 8 * n) 8)
    if n = 0x02 || n = 0x30 || n = 0x31 then
      s.modPen h (fun p => { p with csrT := Tab.del p.csrT n }.wrCsr s.time n v)
    else s.modCore c (fun k => k.wrCsr s.time n v 0)) s
  let cnt := fun (i : Nat) => leAt bs (0x1DA00 + 16 * i) 8 % 65
  let port := fun (i : Nat) => (bs.drop (0x13A00 + 2560 * i)).take 2560
  let part := fun (at_ n : Nat) => (bs.drop at_).take n
  let s := s.modCore c (fun k => { k with
    live := planeOf ((bs.drop 0x12800).take 2048)
    shadow := if (s.pen h).shNew then k.shadow else planeOf ((bs.drop 0x13000).take 2048)
    rx := Vector.ofFn (fun i : Fin 8 => { q := portOf (port i.val) (cnt i.val) k.rx[i].q,
                                          taken := Nat.min (cnt i.val) (leAt bs (0x1DA08 + 16 * i.val) 8) })
    tx := Vector.ofFn (fun i : Fin 8 => portOf (port (8 + i.val)) (cnt (8 + i.val)) k.tx[i])
    cq := cqOf k.cq (part 0x1DB00 0x800)
    flights := flightsOf k.flights (part 0x1E300 0x5000) (part 0x27000 0x10800)
    tags := tagsOf (part 0x23300 0x400)
    byp := { k.byp with data := if bitAt (leAt bs 0x25701 1) 0 then (bs.drop 0x23700).take 8192 else [],
                        fmt := Fmt.ofCode (leAt bs 0x25700 1 % 32), valid := bitAt (leAt bs 0x25701 1) 0 }
    snap := snapOf k.snap (part 0x25800 0x800) })
  s.modPen h (fun p => p.ofRgn c (p.rel c = 0) (part 0x26000 0x100))

end Sys2Proof.Machine
end

