-- ==== Sys2Proof/Machine/Casting.lean ====
section
/-! DEFINITION. Freeze waves that end in a casting, castings and their restoration (R62, R63, R347, R351). -/

namespace Sys2Proof.Machine

open Sys2Proof

/-! ### Freeze waves (R62) -/

/-- A freeze wave reaches a pen. It takes effect at the pen's next slot boundary, after a rewind, where its waits are withdrawn
(SLOT_START, R54, R62). -/
def State.sendWave (s : State) (h : Nat) : State :=
  if (s.pen h).frozen = .running then s.modPen h (fun p => { p with frozen := .wave }) else s

/-- Does a chain still work on a command: a `dsend` with records to be accepted, a table command, a commit (R62)? -/
def Chain.works (c : Chain) (mine : Cmd → Bool) : Bool := c.sends.any (fun x => mine x.1) || c.ops.any mine || c.commit.any mine

/-- Does a demand unit still work on a command that is neither parked nor posted? One that waits for a tick boundary is at work while
the boundary can come (R62, R229). -/
def Pen.duWorks (p : Pen) (mine : Cmd → Bool) : Bool :=
  p.du.parked.isNone && p.frozen != .cast && (p.du.inbox.any mine || (p.frozen = .running && p.du.atBoundary.any mine))

/-- Is a released command of a pen still at work in an engine: not done, not parked, not waiting (R62)? -/
def State.working (s : State) (h : Nat) : Bool :=
  let mine := fun (m : Cmd) => m.pen = h && m.host.isNone
  s.dies.toList.any (fun d =>
    d.ladle.toList.any (fun q => q.any (fun j => mine j.cmd && j.parked.isNone))
      || d.bell.any (fun j => mine j.cmd && j.parked.isNone) || d.arrivals.any mine
      || d.loader.any (fun m => mine m && !s.cfgWaits m) || d.chains.toList.any (fun c => c.works mine))
    || s.pens.any (fun p => !p.ended && p.duWorks mine)

/-- Is an access of a pen's cores, or a store to one, still on its way, or a token that its port has room for (R62, R172)? -/
def State.underWay (s : State) (h : Nat) : Bool :=
  let p := s.pen h
  s.mesh.any (fun m => p.has m.src || p.has m.dst) || s.resps.any (fun m => p.has m.src)
    || s.dones.any (fun d => d.cmd.pen = h && d.cmd.host.isNone && (s.core d.cmd.core).rxRoom d.cmd.o.cp != 0)

/-- Has a freeze wave captured a pen: at a slot boundary, with loads returned and stores performed, commands complete or parked and their
tokens delivered, and the node done (R62, R150)? -/
def State.captured (s : State) (h : Nat) : Bool :=
  let p := s.pen h
  p.frozen = .cast || ((p.frozen = .wave || p.frozen = .reporting) && !p.started && p.rewind = 0 && p.ckpt = 0 && !s.working h && !s.underWay h
    && p.cores.all (fun c =>
      let k := s.core c
      k.out = [] && k.busy = 0 && k.recomp.isNone && k.flights.all (fun f => f.load.all Load.back)))

/-! ### Writing a casting (R347) -/

/-- The pens of an instance that hold or held cores, in PID order. -/
def State.castPens (s : State) (q n : Nat) : List Nat := (s.instPens q n).filter (fun h => !(s.pen h).ended)

/-- A captured pen is cast: what is in flight stands in the landing buffers; with its scratchpad its cores are released, without it
keeps them (R62, R347). -/
def State.castPen (s : State) (h : Nat) (pad : Bool) : State :=
  let s := s.modCores (s.pen h).cores (fun k => { k with flights := k.flights.map Flight.landed })
  s.modPen h (fun p => { p with
    frozen := .cast
    held := if pad then p.cores.map s.core else []
    withPad := pad
    live := !pad })

/-- Write the casting of an instance whose pens are all captured: the state, or the fault. Poison of a scratchpad stays poison in
the casting (R353, log 102). -/
def State.castInstance (s : State) (e : Entry) (va : Nat) (pad : Bool) : Except XFault State :=
  let hs := s.castPens e.qid e.seq
  match s.vwrite e.ctx va (s.casting hs pad) with
  | .error f => .error f
  | .ok t =>
    let pads := if pad then s.castPads 64 (hs.map (fun h => (h, (s.pen h).cores))) else []
    let bad := pads.flatMap (fun x => (s.padBad x.1 0 (2 ^ 20)).map (fun o => x.2 + o))
    let hit := fun (h : Nat) => pad && (s.pen h).cores.any (fun c => s.padBad c 0 (2 ^ 20) != [])
    let t := (hs.filter hit).foldl (fun t h => t.ueMet (s.pen h).die) (t.markPoison e.ctx va bad)
    .ok (hs.foldl (fun s h => s.castPen h pad) { t with fresh := t.fresh + 2 ^ 53 })

/-! ### Restoring (R347) -/

/-- Commands of a pen whose cores move: `f` gives the new core of an old one (R172, R351). -/
def Cmd.move (h : Nat) (f : Nat → Nat) (m : Cmd) : Cmd := if m.pen = h && m.host.isNone then { m with core := f m.core } else m

def Die.move (h : Nat) (f : Nat → Nat) (x : Die) : Die :=
  let mv := Cmd.move h f
  let js := fun (l : List Job) => l.map (fun (j : Job) => { j with cmd := mv j.cmd })
  { x with
    ladle := x.ladle.map js
    bell := js x.bell
    waits := js x.waits
    arrivals := x.arrivals.map mv
    loader := x.loader.map mv
    chains := x.chains.map (fun (c : Chain) => { c with
      sends := c.sends.map (fun (y : Cmd × Nat) => (mv y.1, y.2)), ops := c.ops.map mv, commit := c.commit.map mv }) }

/-- Move everything that names a pen's cores. -/
def State.movePen (s : State) (h : Nat) (f : Nat → Nat) : State :=
  let mv := Cmd.move h f
  let s := { s with
    dies := s.dies.map (Die.move h f)
    dones := s.dones.map (fun (d : Done) => { d with cmd := mv d.cmd })
    pens := s.pens.map (fun (p : Pen) => { p with du := { p.du with
      inbox := p.du.inbox.map mv, atBoundary := p.du.atBoundary.map mv, posted := p.du.posted.map (fun (x : Cmd × Nat) => (mv x.1, x.2)) } }) }
  s.modPen h (fun p => { p with syncs := p.syncs.map mv, sent := p.sent.map f, swap := p.swap.map mv })

/-- Is a core free to a context (R349, R370)? No pen holds it, no bit quarantines it, and no instance of another context that
has not completed. -/
def State.coreFree (s : State) (ctx c : Nat) : Bool :=
  !(s.pens.any (fun p => p.has c && (p.live || (p.ended && p.ctx != ctx && (s.entry? p.qid p.seq).isSome))))
    && !(s.quarCores.any (fun x => x.2 = c))

/-- Cores of a pen placed at a corner; empty where it does not lie within one die. -/
def Pen.coresAt (p : Pen) (d r c : Nat) : List Nat :=
  if d < 4 && r + p.h ≤ 12 && c + p.w ≤ 16 then { p with die := d, row := r, col := c }.cores else []

/-- Assign ladle engines to cores of an instance: per die, ascending core index, round-robin (R241, R328). -/
def State.assignEngines (s : State) (cs : List Nat) : State :=
  (List.range 4).foldl (fun s d =>
    (((List.range coresPerDie).map (fun i => d * coresPerDie + i)).filter (fun c => cs.contains c)).zipIdx.foldl (fun s x =>
      s.modCore x.1 (fun k => { k with eng := x.2 % 16 })) s) s

/-- A commit-queue entry whose core moves: a store to places named relative to the pen follows it, one to absolute places does not
(R234, R347). -/
def CqEntry.move (f : Nat → Nat) (e : CqEntry) : CqEntry :=
  match e.eff with
  | .store els true => { e with eff := .store (els.map (fun x => (nearAddr (f (nearCore x.1)) (x.1 % 2 ^ 20), x.2))) true }
  | .cmd m => { e with eff := .cmd { m with core := f m.core } }
  | _ => e

/-- Restore one pen of a casting at a corner from its bytes, and let it go on (R62, R347, R369); one that reported a stop when it was
pre-empted reports it again, until a THAW of the host (R101, R325). -/
def State.thawPen (s : State) (h d r c : Nat) (pad : Bool) (bs : List Byte) : State :=
  let p := s.pen h
  let old := p.cores
  let new := p.coresAt d r c
  let kept := if p.withPad then p.held else old.map s.core
  let mv := fun (x : Nat) => (old.zip new).foldl (fun y z => if z.1 = x then z.2 else y) x
  let s := s.movePen h mv
  let s := s.modPen h (fun p => ({ p with die := d, row := r, col := c, live := true, held := [] } : Pen).ofBlock (bs.take 4096))
  let s := new.zipIdx.foldl (fun s x =>
    let b := (bs.drop (4096 + x.2 * castCoreLen pad)).take (castCoreLen pad)
    let s := (s.thawCore h x.1 (kept.getD x.2 {}) b).modCore x.1 (fun k => { k with cq := k.cq.map (CqEntry.move mv), out := k.out.map (Cmd.move h mv) })
    if pad then s.nearWrite (nearAddr x.1 0) (b.drop 0x37800) else s) s
  let s := s.modPen h (fun p => { (if p.reports then { p with frozen := .reporting } else p.thaw) with
    hold := none, shNew := false, swapNew := false, reports := false })
  if p.reports then s else s.repostWaits h

/-- Where each pen of a casting goes: the same offset for every pen (R347). None where a target is not free. -/
def State.thawPlan (s : State) (e : Entry) (hs : List Nat) (to_ : Option Nat) : Option (List (Nat × Nat × Nat × Nat)) :=
  let f := s.pen (hs.headD 0)
  let at_ := fun (p : Pen) => match to_ with
    | none => some (p.die, p.row, p.col)
    | some c =>
      let d : Int := coreDie c - f.die
      let r : Int := coreIdx c / 16 - f.row
      let k : Int := coreIdx c % 16 - f.col
      let x := ((p.die : Int) + d, (p.row : Int) + r, (p.col : Int) + k)
      if 0 ≤ x.1 && 0 ≤ x.2.1 && 0 ≤ x.2.2 then some (x.1.toNat, x.2.1.toNat, x.2.2.toNat) else none
  hs.foldl (fun acc h =>
    match acc, at_ (s.pen h) with
    | some l, some (d, r, c) =>
      let p := s.pen h
      let cs := p.coresAt d r c
      let ok := cs != [] && cs.all (fun c => s.coreFree e.ctx c || hs.any (fun g => (s.pen g).live && (s.pen g).has c))
      if ok then some (l ++ [(h, d, r, c)]) else none
    | _, _ => none) (some [])

/-- Read a casting: its bytes, and the offsets of those that are poison, which only a scratchpad's may be (R353, log 102). -/
def State.castRead (s : State) (ctx va : Nat) (hs : List Nat) (pad : Bool) : Except XFault (List Byte × List Nat) :=
  let len := s.castingLen hs pad
  match s.places ctx va len .rd with
  | .error f => .error f
  | .ok pl =>
    let bad := if s.poison = [] then [] else
      pl.zipIdx.filterMap (fun p =>
        if s.poison.contains p.1.1 || (bitAt p.1.2 4 && s.poison.contains (s.hdrAt (p.1.1 / 4096))) then some p.2 else none)
    let pads := if pad then s.castPads 64 (hs.map (fun h => (h, (s.pen h).cores))) else []
    if !bad.all (fun i => pads.any (fun x => decide (x.2 ≤ i) && decide (i < x.2 + 2 ^ 20))) then .error .poison
    else
      let clean : State := if bad = [] then s else { s with poison := [] }
      (clean.readPlaces (s.home ctx) pl none).map (fun bs => (bs, bad))

/-- Restore a whole casting read from memory by a plan; `bad` are the offsets of poison. -/
def State.thawAll (s : State) (plan : List (Nat × Nat × Nat × Nat)) (pad : Bool) (bs : List Byte) (bad : List Nat := []) : State :=
  let (s, _) := plan.foldl (fun acc x =>
    let n := (acc.1.pen x.1).castLen pad
    (acc.1.thawPen x.1 x.2.1 x.2.2.1 x.2.2.2 pad (acc.2.take n), acc.2.drop n)) (s, bs.drop 64)
  let pads := s.castPads 64 (plan.map (fun x => (x.1, (s.pen x.1).cores)))
  let s : State := { s with poison := pads.flatMap (fun x =>
    (bad.filter (fun i => decide (x.2 ≤ i) && decide (i < x.2 + 2 ^ 20))).map (fun i => nearKey (nearAddr x.1 (i - x.2)))) ++ s.poison }
  s.assignEngines (plan.flatMap (fun x => (s.pen x.1).cores))

/-! ### FREEZE and THAW (R322, R347) -/

/-- The instance an entry names in words 1 and 2, of its own context (R321). -/
def State.instOf (s : State) (e : Entry) : Option Entry :=
  match s.entry? (e.word 1).toNat (e.word 2).toNat with
  | none => none
  | some i =>
    let op := bitsOf (i.word 0) 63 56
    if i.ctx = e.ctx && (op = 1 || op = 4) && (s.instPens i.qid i.seq) != [] then some i else none

/-- FREEZE: every pen of the instance takes the wave, and the casting is written once all are captured (R347). -/
def execFreeze (s : State) : Out :=
  s.entryRow (fun s e =>
    let va := (e.word 3).toNat
    match s.instOf e with
    | none => s.complete e 9 1 0 0
    | some i =>
      if va % 4096 != 0 || 2 ≤ (e.word 4).toNat then s.complete e 9 1 0 0
      else
        let hs := s.castPens i.qid i.seq
        let s := hs.foldl State.sendWave s
        if !(hs.all s.captured) then s
        else
          let pad := bitAt (e.word 4).toNat 0
          match s.castInstance { e with qid := i.qid, seq := i.seq } va pad with
          | .error f => s.entryFault e va .wr f
          | .ok s => s.complete e 0 0 0 (BitVec.ofNat 64 (s.castingLen hs pad)))

/-- THAW: a casting is restored onto its former or other rectangles (R347). An instance that is frozen for reporting and was not
cast goes on where it stands (R59, R101). -/
def execThaw (s : State) : Out :=
  s.entryRow (fun s e =>
    let va := (e.word 3).toNat
    match s.instOf e with
    | none => s.complete e 9 1 0 0
    | some i =>
      let hs := s.castPens i.qid i.seq
      let cast := hs.filter (fun h => (s.pen h).frozen = .cast)
      if hs = [] then s.complete e 9 1 0 0
      else if cast = [] then
        if hs.all (fun h => (s.pen h).frozen = .running) then s.complete e 9 1 0 0
        else
          let s := hs.foldl (fun s h =>
            if (s.pen h).frozen = .reporting then (s.modPen h Pen.thaw).repostWaits h else s) s
          s.complete e 0 0 0 0
      else
        match s.vread e.ctx va 64 with
        | .error f => s.entryFault e va .rd f
        | .ok hd =>
          let pad := bitAt (leAt hd 2 1) 0
          let len := s.castingLen hs pad
          let o := e.word 4
          if leAt hd 0 2 != hs.length || leAt hd 8 8 != len || pad != (s.pen (hs.headD 0)).withPad || (!pad && o != 0)
              || (o != 0 && !nearOk o) then s.complete e 9 1 0 0
          else
            match s.thawPlan e hs (if o = 0 then none else some (nearCore o.toNat)) with
            | none => s.complete e 9 6 0 0
            | some plan =>
              match s.castRead e.ctx va hs pad with
              | .error f => s.entryFault e va .rd f
              | .ok bs => (s.thawAll plan pad bs.1 bs.2).complete e 0 0 0 0)

/-- PREEMPT_RESTORE: a pre-empted instance goes back onto its own rectangles once they are free (R325). -/
def execPreemptRestore (n : Nat) (s : State) : Out :=
  match s.entries[n]? with
  | none => .next s
  | some e =>
    let hs := s.castPens e.qid e.seq
    if e.phase != 50 || e.parked.isSome || hs = [] then .next s
    else
      let higher := s.entries.any (fun x => x.ctx = e.ctx && x.phase = 50 && decide (e.level < x.level)
        && (s.thawPlan x (s.castPens x.qid x.seq) none).isSome)
      match s.thawPlan e hs none with
      | none => .next s
      | some plan =>
        if higher then .next s
        else s.keyGuard 0 e.ctx (match s.castRead e.ctx e.va hs true with
          | .error f => s.entryFault e e.va .rd f
          | .ok bs => (s.thawAll plan true bs.1 bs.2).modEntry e.qid e.seq (fun e => { e with phase := 2 }))

end Sys2Proof.Machine
end

