-- ==== Sys2Proof/Machine/Launch.lean ====
section
/-! DEFINITION. Launch parameter blocks and object images (R327, log 21), placement (R325, R328, R329), LAUNCH and REPLAY,
PATCH (R331), and the commands the shepherd passes to a demand unit: DEMAND, EXPORT, IMPORT (R322). -/

namespace Sys2Proof.Machine

open Sys2Proof

/-! ### Object images (log 21) -/

/-- A pen template: rows, columns, ITER, offsets of its configuration image and of its palettes. -/
structure Templ where
  rows : Nat := 1
  cols : Nat := 1
  iter : BitVec 32 := 1
  img : Nat := 0
  pal : Nat := 0
deriving DecidableEq, Repr, Inhabited

/-- An operator: its template, whether it is stateful, and its checkpoint word (R217). -/
structure OpRec where
  tmpl : Nat := 0
  stateful : Bool := false
  ckpt : W64 := 0
deriving DecidableEq, Repr, Inhabited

/-- An edge of the graph: operators and ports at both ends, LEN, hurdle lines, range-transfer word (R205, R206, R215). -/
structure EdgeRec where
  src : Nat := 0
  tx : Nat := 0
  dst : Nat := 0
  rx : Nat := 0
  len : Nat := 0
  full : Nat := 64
  empty : Nat := 63
  rtf : W64 := 0
deriving DecidableEq, Repr, Inhabited

/-- A sink: operator, port, window and LEN (R205). -/
structure SinkRec where
  op : Nat := 0
  tx : Nat := 0
  w : Nat := 0
  len : Nat := 0
deriving DecidableEq, Repr, Inhabited

/-- A near data section: its template, its place in the scratchpad, its length, its offset in the image (R200). -/
structure DataRec where
  tmpl : Nat := 0
  ofs : Nat := 0
  len : Nat := 0
  img : Nat := 0
deriving DecidableEq, Repr, Inhabited

/-- An object image. -/
structure Image where
  tmpls : List Templ := []
  ops : List OpRec := []
  edges : List EdgeRec := []
  sinks : List SinkRec := []
  datas : List DataRec := []
deriving DecidableEq, Repr, Inhabited

/-- The first words of `k` records of 64 bytes from the `i`-th on. -/
def recsAt (bs : List Byte) (i k : Nat) : List (List W64) :=
  (List.range k).map (fun j => (List.range 4).map (wordAt (bs.drop (64 * (i + j)))))

/-- Word `i` of a record. -/
def recW (r : List W64) (i : Nat) : W64 := r.getD i 0

/-- An image from its bytes: a header with five counts, then the records in order. -/
def Image.ofBytes (bs : List Byte) : Image :=
  let w0 := wordAt bs 0
  let (nt, no, ne, ns, nd) := (bitsOf w0 15 0, bitsOf w0 31 16, bitsOf w0 47 32, bitsOf w0 63 48, bitsOf (wordAt bs 1) 31 16)
  { tmpls := (recsAt bs 1 nt).map (fun r =>
      { rows := bitsOf (recW r 0) 7 0, cols := bitsOf (recW r 0) 15 8, iter := (recW r 1).truncate 32,
        img := (recW r 2).toNat, pal := (recW r 3).toNat })
    ops := (recsAt bs (1 + nt) no).map (fun r =>
      { tmpl := bitsOf (recW r 0) 15 0, stateful := bitAt (recW r 0).toNat 16, ckpt := recW r 1 })
    edges := (recsAt bs (1 + nt + no) ne).map (fun r =>
      { src := bitsOf (recW r 0) 15 0, tx := bitsOf (recW r 0) 18 16, dst := bitsOf (recW r 0) 47 32, rx := bitsOf (recW r 0) 50 48,
        len := bitsOf (recW r 1) 47 0, full := bitsOf (recW r 2) 7 0, empty := bitsOf (recW r 2) 15 8, rtf := recW r 3 })
    sinks := (recsAt bs (1 + nt + no + ne) ns).map (fun r =>
      { op := bitsOf (recW r 0) 15 0, tx := bitsOf (recW r 0) 18 16, w := bitsOf (recW r 0) 47 32, len := bitsOf (recW r 1) 47 0 })
    datas := (recsAt bs (1 + nt + no + ne + ns) nd).map (fun r =>
      { tmpl := bitsOf (recW r 0) 15 0, ofs := bitsOf (recW r 0) 51 32, len := (recW r 1).toNat, img := (recW r 2).toNat }) }

/-- Bytes of an image's header and records, from its first 64. -/
def imageBytes (hd : List Byte) : Nat :=
  let w0 := wordAt hd 0
  64 * (1 + bitsOf w0 15 0 + bitsOf w0 31 16 + bitsOf w0 47 32 + bitsOf w0 63 48 + bitsOf (wordAt hd 1) 31 16)

/-- Read an image: it, or where and how the read fails. -/
def State.readImage (s : State) (ctx va : Nat) : Except (Nat × XFault) Image :=
  match s.vread ctx va 64 with
  | .error f => .error (va, f)
  | .ok hd => match s.vread ctx va (imageBytes hd) with
    | .error f => .error (va, f)
    | .ok bs => .ok (Image.ofBytes bs)

/-! ### Launch blocks (R327) -/

/-- A placement record. -/
structure PlaceRec where
  tmpl : Nat := 0
  count : Nat := 1
  order : Nat := 0
  swz : Nat := 0
  fixed : Bool := false
  qal : Bool := false
  dies : Nat := 15
  origin : Nat := 0
deriving DecidableEq, Repr, Inhabited

def PlaceRec.ofWords (p0 p1 : W64) : PlaceRec :=
  { tmpl := bitsOf p0 63 48, count := bitsOf p0 47 32, order := bitsOf p0 31 30, swz := bitsOf p0 29 27, fixed := bitAt p0.toNat 26,
    qal := bitAt p0.toNat 25, dies := bitsOf p0 24 21, origin := bitsOf p1 63 32 }

/-- Word `i` of a launch block. -/
def blkW (blk : List W64) (i : Nat) : W64 := blk.getD i 0

/-- The placement records of a block. -/
def blkPlaces (blk : List W64) : List PlaceRec :=
  (List.range (bitsOf (blkW blk 3) 15 0)).map (fun i => PlaceRec.ofWords (blkW blk (8 + 2 * i)) (blkW blk (9 + 2 * i)))

/-- Read a launch block: its words. -/
def State.readBlock (s : State) (ctx va : Nat) : Except XFault (List W64) :=
  match s.vread ctx va 64 with
  | .error f => .error f
  | .ok hd =>
    let n := 64 + 16 * bitsOf (wordAt hd 3) 15 0
    match s.vread ctx va n with
    | .error f => .error f
    | .ok bs => .ok ((List.range (n / 8)).map (wordAt bs))

/-- Is a block malformed for its image (R217, R200, R327)? -/
def blkBad (blk : List W64) (im : Image) : Bool :=
  let ps := blkPlaces blk
  let named := fun (i : Nat) => im.edges.any (fun e => e.src = i || e.dst = i)
  let sz := bitsOf (blkW blk 3) 63 32
  ps.length != im.ops.length
    || ps.zipIdx.any (fun x => (1 < x.1.count && named x.2) || x.1.count = 0 || 768 < x.1.count || 4 < x.1.swz
        || im.tmpls.length ≤ x.1.tmpl || (im.ops.getD x.2 {}).tmpl != x.1.tmpl)
    || (blkW blk 2 != 0 && 1 ≤ sz && sz ≤ 31) || 20 < bitsOf (blkW blk 3) 31 27
    || im.tmpls.any (fun t => t.rows = 0 || 12 < t.rows || t.cols = 0 || 16 < t.cols)
    || im.ops.any (fun o => o.stateful && 2 ^ 20 < ckptOfs o.ckpt + ckptLen o.ckpt)
    || im.datas.any (fun d => 2 ^ 20 < d.ofs + d.len)
    || im.edges.any (fun e => im.ops.length ≤ e.src || im.ops.length ≤ e.dst)
    || im.sinks.any (fun k => im.ops.length ≤ k.op)

/-! ### Placement (R325, R328) -/

/-- One step of the Hilbert walk: x, y and t after a square of side `sd`. -/
def hilbertStep (sd : Nat) (a : Nat × Nat × Nat) : Nat × Nat × Nat :=
  let (x, y, t) := a
  let rx := t / 2 % 2
  let ry := Nat.xor t rx % 2
  let (x, y) := if ry = 0 then
      let (x, y) := if rx = 1 then (sd - 1 - x, sd - 1 - y) else (x, y)
      (y, x)
    else (x, y)
  (x + sd * rx, y + sd * ry, t / 4)

/-- Candidate corner `n` in an order: row and column (R328). -/
def cell (order n : Nat) : Nat × Nat :=
  let bit := fun (i : Nat) => n / 2 ^ i % 2
  if order = 0 then (n / 16, n % 16)
  else if order = 1 then (n % 16, n / 16)
  else if order = 2 then (8 * bit 7 + 4 * bit 5 + 2 * bit 3 + bit 1, 8 * bit 6 + 4 * bit 4 + 2 * bit 2 + bit 0)
  else
    let (x, y, _) := hilbertStep 8 (hilbertStep 4 (hilbertStep 2 (hilbertStep 1 (0, 0, n))))
    (y, x)

/-- The candidate corners of a record, in order: die, row, column. -/
def PlaceRec.corners (p : PlaceRec) : List (Nat × Nat × Nat) :=
  if p.fixed then
    if nearMalformed p.origin || p.origin % 2 ^ 20 != 0 then []
    else
      let c := nearCore p.origin
      [(coreDie c, coreIdx c / 16, coreIdx c % 16)]
  else ((List.range 4).filter (fun d => bitAt p.dies d)).flatMap (fun d => (List.range 256).filterMap (fun n =>
    let (r, c) := cell p.order n
    if 11 < r then none else some (d, r, Nat.xor c (r % 2 ^ p.swz))))

/-- Place one replica of `h` by `w` cores: the first candidate whose whole rectangle lies on free cores (R328). -/
def PlaceRec.one (p : PlaceRec) (free : Nat → Bool) (used : List Nat) (h w : Nat) : Option (Nat × Nat × Nat) :=
  p.corners.find? (fun x =>
    let (d, r, c) := x
    let cs := ({ h := h, w := w } : Pen).coresAt d r c
    cs != [] && (!p.qal || (r % 2 = 0 && c % 2 = 0)) && cs.all (fun k => free k && !used.contains k))

/-- A placed replica: the place of its record, then die, row and column. -/
structure Spot where
  op : Nat := 0
  die : Nat := 0
  row : Nat := 0
  col : Nat := 0
deriving DecidableEq, Repr, Inhabited

/-- Place every replica in PID order; none where one does not fit. -/
def placeAll (im : Image) (free : Nat → Bool) (ps : List PlaceRec) : Option (List Spot) :=
  let jobs := ps.zipIdx.flatMap (fun x => List.replicate x.1.count x)
  (jobs.foldl (fun (acc : Option (List Spot × List Nat)) x =>
    match acc with
    | none => none
    | some (out, used) =>
      let t := im.tmpls.getD x.1.tmpl {}
      match x.1.one free used t.rows t.cols with
      | none => none
      | some (d, r, c) => some (out ++ [{ op := x.2, die := d, row := r, col := c }],
          used ++ ({ h := t.rows, w := t.cols } : Pen).coresAt d r c)) (some ([], []))).map (·.1)

/-! ### Building an instance (R205, R206, R210, R217, R327 to R329) -/

/-- Beats that one tick of a core's plane pushes on a tx port (R210). -/
def pushesOf (pl : Plane) (n : Nat) (iter : BitVec 32) (port : Nat) : Nat :=
  iter.toNat * ((List.range n).foldl (fun k sl => [Col.v, .m, .x].foldl (fun k col =>
    let w := pl.word col sl
    match (decode col w).instr? with
    | some i => (i.txNeeds (wordLen w)).foldl (fun k x => if x.1.val = port then k + x.2 else k) k
    | none => k) k) 0)

/-- An input from its range-transfer word (R206). -/
def inputOf (e : EdgeRec) (edge : Nat) : Input :=
  let m := bitsOf e.rtf 63 62
  { port := Fin.ofNat 8 e.rx, mode := if m = 0 then .affine else if m = 1 then .stateful else if m = 2 then .cached else .all
    mul := bitsOf e.rtf 61 58 + 1, div := bitsOf e.rtf 57 54 + 1, off := signed 16 (bitsOf e.rtf 53 38)
    hlo := bitsOf e.rtf 37 26, hhi := bitsOf e.rtf 25 14, edge := edge }

/-- The outputs of an operator: its edges with a window of 64 and its sinks, in ascending tx order, their windows placed
downward from the top of each core's scratchpad (R205, R210). -/
def outputsOf (im : Image) (op base : Nat) (ks : Nat → List Nat) : List Output :=
  let raw := (List.range 8).flatMap (fun t =>
    ((im.edges.zipIdx.filter (fun (x : EdgeRec × Nat) => x.1.src = op && x.1.tx = t)).map (fun (x : EdgeRec × Nat) =>
        ({ port := Fin.ofNat 8 t, dest := .edge (base + x.2), w := 64, len := x.1.len, ks := ks t } : Output)))
      ++ ((im.sinks.filter (fun k => k.op = op && k.tx = t)).map (fun k =>
        ({ port := Fin.ofNat 8 t, dest := .sink, w := k.w, len := k.len, ks := ks t } : Output))))
  let down := fun (tops : List Nat) (o : Output) => tops.zipIdx.map (fun (x : Nat × Nat) => x.1 - o.w * entryBytes (o.ks.getD x.2 0))
  (raw.foldl (fun (acc : List Output × List Nat) o =>
    let b := down acc.2 o
    (acc.1 ++ [{ o with bases := b }], b)) ([], List.replicate (ks 0).length (2 ^ 20))).1

/-- The demand unit of an operator at launch. -/
def demandOf (im : Image) (op base : Nat) (ks : Nat → List Nat) : Demand :=
  let o := im.ops.getD op {}
  { outs := outputsOf im op base ks
    ins := (im.edges.zipIdx.filter (fun (x : EdgeRec × Nat) => x.1.dst = op)).map (fun x => inputOf x.1 (base + x.2))
    keeps := o.stateful
    ckptWord := if o.stateful then o.ckpt else 0 }

/-- Put a replica on its cores: fresh cores with palettes and live plane, the pen record, near data (R200, R327, R328); its
windows hold no tick (R210). -/
def State.putPen (s : State) (e : Entry) (blk : List W64) (tdt : W64) (im : Image) (base : Nat) (pid : Nat) (sp : Spot)
    (l : Loaded) (pals : List Byte) (datas : List (Nat × List Byte)) : State :=
  let op := im.ops.getD sp.op {}
  let t := im.tmpls.getD op.tmpl {}
  let h := s.pens.length
  let ks := fun (port : Nat) => l.planes.map (fun pl => pushesOf pl l.n t.iter port)
  let p : Pen :=
    { live := true, qid := e.qid, seq := e.seq, ctx := e.ctx, pid := BitVec.ofNat 16 pid, die := sp.die, row := sp.row, col := sp.col
      h := t.rows, w := t.cols, iter := t.iter, iterNext := t.iter, du := demandOf im sp.op base ks, tdt := tdt
      sbuf := blkW blk 2, ssize := BitVec.ofNat 64 (bitsOf (blkW blk 3) 63 32), trk := bitsOf (blkW blk 3) 31 27, tmpl := op.tmpl }
  let s := { s with pens := s.pens ++ [p] }
  let s := p.cores.zipIdx.foldl (fun s x =>
    let s := s.setCore x.1 { pal := Vector.ofFn (fun i : Fin 16 => BitVec.ofNat 5 (leAt pals (16 * x.2 + i.val) 1)) }
    datas.foldl (fun s d => s.nearWrite (nearAddr x.1 d.1) d.2) s) s
  let s := p.du.outs.foldl (fun s o => (List.range (p.h * p.w)).foldl (fun s q =>
    (List.range o.w).foldl (fun s t => s.nearWrite (o.entryAt p q t) (leBytes 8 0)) s) s) s
  let s := s.setLive h l
  if op.stateful then s.modDu h (fun d => { d with log := [(0, s.checkpoint h 0)] }) else s

/-- What LAUNCH reads for one operator: plane, palettes, near data. -/
structure OpLoad where
  plane : Loaded := {}
  pals : List Byte := []
  datas : List (Nat × List Byte) := []
deriving DecidableEq, Repr, Inhabited

/-- How reading an operator ends. -/
inductive OpEnd
  | ok (l : OpLoad)
  | abort (detail : Nat) (value : W64)
  | fault (va : Nat) (f : XFault)
deriving DecidableEq, Repr, Inhabited

/-- Read `n` bytes of an image, none of length 0. -/
def State.imgRead (s : State) (ctx va n : Nat) : Except (Nat × XFault) (List Byte) :=
  match s.vread ctx va n with
  | .ok bs => .ok bs
  | .error f => .error (va, f)

/-- Read near data sections of a template. -/
def State.readDatas (s : State) (ctx imgVa : Nat) : List DataRec → Except (Nat × XFault) (List (Nat × List Byte))
  | [] => .ok []
  | d :: ds => match s.imgRead ctx (imgVa + d.img) d.len, s.readDatas ctx imgVa ds with
    | .ok bs, .ok r => .ok ((d.ofs, bs) :: r)
    | .error x, _ => .error x
    | _, .error x => .error x

/-- Read what an operator needs (R83, R200, R327, R332). -/
def State.readOp (s : State) (e : Entry) (im : Image) (imgVa i : Nat) : State × OpEnd :=
  let ti := (im.ops.getD i {}).tmpl
  let t := im.tmpls.getD ti {}
  let who : Who := { ctx := e.ctx, acc := 3, agent := agLoader }
  match s.fetchPlane who (imgVa + t.img) (t.rows * t.cols) with
  | (s, none) => (s, .abort 1 0)
  | (s, some l) =>
    if bitsOf l.stat 63 56 != 0 then (s, .abort 5 l.stat)
    else match (if t.pal = 0 then .ok [] else s.imgRead e.ctx (imgVa + t.pal) (16 * t.rows * t.cols)),
        s.readDatas e.ctx imgVa (im.datas.filter (fun d => d.tmpl = ti)) with
      | .ok pals, .ok ds => (s, .ok { plane := l, pals := pals, datas := ds })
      | .error x, _ => (s, .fault x.1 x.2)
      | _, .error x => (s, .fault x.1 x.2)

/-- Read every operator; the first that fails ends it. Fuel: the operators. -/
def State.readOps (s : State) (e : Entry) (im : Image) (imgVa : Nat) : Nat → Nat → State × Except OpEnd (List OpLoad)
  | 0, _ => (s, .ok [])
  | n + 1, i =>
    match s.readOp e im imgVa i with
    | (s, .ok l) => match s.readOps e im imgVa n (i + 1) with
      | (s, .ok ls) => (s, .ok (l :: ls))
      | (s, .error x) => (s, .error x)
    | (s, x) => (s, .error x)

/-- Build the instance on its spots (R327 to R329). -/
def State.build (s : State) (e : Entry) (blk : List W64) (tdt : W64) (im : Image) (spots : List Spot)
    (ls : List OpLoad) : State :=
  let base := s.edges.length
  let first := s.pens.length
  let handle := fun (op : Nat) => first + spots.findIdx (fun (x : Spot) => x.op = op)
  let s := spots.zipIdx.foldl (fun s x =>
    let l := ls.getD x.1.op {}
    s.putPen e blk tdt im base x.2 x.1 l.plane l.pals l.datas) s
  let s := { s with edges := s.edges ++ im.edges.zipIdx.map (fun (x : EdgeRec × Nat) =>
    let ps := s.pen (handle x.1.src)
    let pd := s.pen (handle x.1.dst)
    let n := pd.h * pd.w
    ({ src := handle x.1.src, dst := handle x.1.dst
       out := ps.du.outs.findIdx (fun (o : Output) => o.dest = Dest.edge (base + x.2))
       inp := pd.du.ins.findIdx (fun (i : Input) => i.edge = base + x.2)
       full := x.1.full, empty := x.1.empty, isOpen := List.replicate n true, flight := List.replicate n [] } : Edge)) }
  s.assignEngines ((List.range spots.length).flatMap (fun i => (s.pen (first + i)).cores))

/-! ### Pre-emption (R325) -/

/-- Does a freeze wave run through an instance, or has a FREEZE cast it (R347)? -/
def State.freezing (s : State) (x : Entry) : Bool :=
  (s.castPens x.qid x.seq).any (fun h => (s.pen h).frozen = .wave || (s.pen h).frozen = .cast)

/-- Instances of a context that the shepherd may freeze for an entry, in the order it takes them: lowest recorded priority first,
within a level the latest taken first. One that a FREEZE has taken keeps what R347 leaves it. -/
def State.victims (s : State) (e : Entry) : List Entry :=
  let can := s.entries.filter (fun x => x.ctx = e.ctx && x.phase = 2 && decide (x.level < e.level) && !s.freezing x
    && (s.castPens x.qid x.seq).any (fun h => (s.pen h).live))
  (List.range 8).flatMap (fun l => (can.filter (fun x => x.level = l)).reverse)

/-- The cores of an instance. -/
def State.instCores (s : State) (q n : Nat) : List Nat := (s.castPens q n).flatMap (fun h => if (s.pen h).live then (s.pen h).cores else [])

/-- Does the placement fit once a list of instances has given its cores? -/
def State.fitsWith (s : State) (e : Entry) (im : Image) (ps : List PlaceRec) (taken : List Entry) : Bool :=
  let cs := taken.flatMap (fun v => s.instCores v.qid v.seq)
  (placeAll im (fun c => s.coreFree e.ctx c || (cs.contains c && !s.quarCores.any (fun x => x.2 = c))) ps).isSome

/-- The shortest run of victims with whose cores the placement fits; none where all do not suffice. -/
def State.chooseVictims (s : State) (e : Entry) (im : Image) (ps : List PlaceRec) (taken : List Entry) :
    List Entry → Option (List Entry)
  | [] => if s.fitsWith e im ps taken then some taken else none
  | v :: vs => if s.fitsWith e im ps taken then some taken else s.chooseVictims e im ps (taken ++ [v]) vs

/-- Bytes of the castings that already stand in a context's pre-emption area. -/
def State.careaUsed (s : State) (ctx : Nat) : Nat :=
  s.entries.foldl (fun n x => if x.ctx = ctx && x.phase = 50 then max n (x.va + x.aux - (s.ctx ctx).w[4].toNat) else n) 0

/-- Cast one captured victim into the area: it waits for its rectangles. -/
def State.castVictim (s : State) (v : Entry) : Except (Nat × XFault) State :=
  let hs := s.castPens v.qid v.seq
  let va := (s.ctx v.ctx).w[4].toNat + (s.careaUsed v.ctx + 4095) / 4096 * 4096
  let len := hs.foldl (fun n h => n + (s.pen h).castLen true) 64
  let s := hs.foldl (fun s h => s.modPen h (fun p => { p with reports := p.frozen = .reporting })) s
  match s.castInstance v va true with
  | .error f => .error (va, f)
  | .ok s => .ok (s.modEntry v.qid v.seq (fun x => { x with phase := 50, va := va, aux := len }))

/-- Cast every victim of an entry that is not cast yet. -/
def State.castVictims (s : State) : List Entry → Except (Nat × XFault) State
  | [] => .ok s
  | v :: vs => match s.castVictim v with
    | .error x => .error x
    | .ok s => s.castVictims vs

/-- The victims an entry has chosen. -/
def State.chosen (s : State) (e : Entry) : List Entry :=
  (List.range (e.nums.length / 2)).filterMap (fun i => s.entry? (e.nums.getD (2 * i) 0) (e.nums.getD (2 * i + 1) 0))

/-! ### LAUNCH and REPLAY (R322, R327, R331) -/

/-- An entry's fault: where an access failed before the entry had an effect. -/
def State.entryFaultAt (s : State) (e : Entry) (x : Nat × XFault) : State := s.entryFault e x.1 .rd x.2

/-- The instance is placed: the entry waits for its pens, which a graph of no operators has none of. -/
def State.placed (s : State) (e : Entry) (spots : List Spot) : State :=
  if spots = [] then s.complete e 0 0 0 0 else s.modEntry e.qid e.seq (fun x => { x with phase := 2, nums := [] })

/-- Place an instance of a block for an entry, freezing what R325 lets it freeze; `then_` follows once it is placed. -/
def State.launchWith (s : State) (e : Entry) (blk : List W64) (tdt : W64) (then_ : State → State) : State :=
  let imgVa := (blkW blk 0).toNat
  match s.readImage e.ctx imgVa with
  | .error x => s.entryFaultAt e x
  | .ok im =>
    let ps := blkPlaces blk
    if blkBad blk im then s.complete e 9 1 0 0
    else if s.entries.any (fun x => x.ctx = e.ctx && x.phase = 50 && decide (e.level < x.level)) then s
    else match placeAll im (s.coreFree e.ctx) ps with
      | some spots =>
        (match s.readOps e im imgVa im.ops.length 0 with
        | (s, .error (.abort d v)) => s.complete e 9 d 0 v
        | (s, .error (.fault va f)) => s.entryFaultAt e (va, f)
        | (s, .error (.ok _)) => s
        | (s, .ok ls) => (then_ (s.build e blk tdt im spots ls)).placed e spots)
      | none =>
        let vs := if (s.ctx e.ctx).w[4] = 0 then none else s.chooseVictims e im ps [] (s.victims e)
        (match vs with
        | none =>
          if (s.ctx e.ctx).w[4] != 0 && s.entries.any (fun x => x.ctx = e.ctx && x.phase = 2 && decide (x.level < e.level)
              && (s.castPens x.qid x.seq).any (fun h => (s.pen h).frozen = .wave)) then s
          else s.complete e 9 6 0 0
        | some vs =>
          let s := vs.foldl (fun s v => (s.castPens v.qid v.seq).foldl State.sendWave s) s
          s.modEntry e.qid e.seq (fun x => { x with phase := 1, nums := vs.flatMap (fun v => [v.qid, v.seq]) }))

/-- An entry that waits for the instances it has frozen: once all are captured they are cast, and it places again. -/
def State.launchWait (s : State) (e : Entry) : State :=
  let vs := (s.chosen e).filter (fun v => v.phase = 2)
  if vs.all (fun v => (s.castPens v.qid v.seq).all s.captured) then
    match s.castVictims vs with
    | .error x => s.entryFault e x.1 .wr x.2
    | .ok s => s.modEntry e.qid e.seq (fun x => { x with phase := 0, nums := [] })
  else s

/-- LAUNCH (R327): a graph that is kept has version 0 with this instance bound to it (R331). -/
def execLaunch (s : State) : Out :=
  s.entryRow (fun s e =>
    if e.phase = 1 then s.launchWait e
    else if e.phase != 0 then s
    else if (e.word 1).toNat % 64 != 0 then s.complete e 9 1 0 0
    else match s.readBlock e.ctx (e.word 1).toNat with
      | .error f => s.entryFault e (e.word 1).toNat .rd f
      | .ok blk =>
        let cap := fun (s : State) =>
          if bitAt (blkW blk 3).toNat 26 then
            { s with graphs := s.graphs.filter (fun g => !(g.qid = e.qid && g.seq = e.seq))
                       ++ [{ qid := e.qid, seq := e.seq, ctx := e.ctx, blk := blk, bound := [(0, e.qid, e.seq)] }] }
          else s
        s.launchWith e blk (blkW blk 1) cap)

/-- The graph an entry names, of its own context (R321). -/
def State.graphOf (s : State) (e : Entry) : Option Graph := (s.graph? (e.word 1) (e.word 2)).filter (fun g => g.ctx = e.ctx)

/-- The address of a version of a graph's table (R331). -/
def Graph.table (g : Graph) (v : Nat) : W64 :=
  if v = 0 then blkW g.blk 1 else blkW g.blk 4 + BitVec.ofNat 64 (v % 4 * 131072)

/-- The pen and output of an instance that a sink value names (R185). -/
def State.instSink (s : State) (q n : Nat) (v : W64) : Option Nat :=
  if bitsOf v 63 19 != 0 then none
  else (s.instPens q n).find? (fun h => !(s.pen h).ended && (s.pen h).pid.toNat = bitsOf v 15 0)

/-- A command the shepherd posts to a demand unit for an entry. -/
def State.hostCmd (s : State) (e : Entry) (w : Instr) (h : Nat) (cmd a b : W64) : State :=
  let m : Cmd := { id := s.fresh, pen := h, ctx := e.ctx, word := w, cmd := cmd, a := a, b := b, host := some (e.qid, e.seq), noTick := true }
  { s with fresh := s.fresh + 1 }.modDu h (fun d => { d with inbox := d.inbox ++ [m] })

/-- Once placed, a replay posts its demand; a sink its graph does not have was refused before. -/
def State.replayDemand (s : State) (e : Entry) : State :=
  match s.instSink e.qid e.seq (e.word 3) with
  | none => s
  | some h => s.hostCmd e .replay h (e.word 3) (e.word 4) (e.word 5)

/-- Does a graph's image have the sink a value names: PID, then tx port (R185, R329)? -/
def sinkIn (blk : List W64) (im : Image) (v : W64) : Bool :=
  let owners := (blkPlaces blk).zipIdx.flatMap (fun x => List.replicate x.1.count x.2)
  bitsOf v 63 19 = 0 && (match owners[bitsOf v 15 0]? with
    | none => false
    | some op => im.sinks.any (fun k => k.op = op && k.tx = bitsOf v 18 16))

/-- REPLAY (R331): it binds the newest version when it is taken, places an instance in launch state, and posts its demand. -/
def execReplay (s : State) : Out :=
  s.entryRow (fun s e =>
    let s := { s with dones := s.dones.filter (fun d => d.cmd.host != some (e.qid, e.seq)) }
    if e.phase = 1 then s.launchWait e
    else if e.phase != 0 then s
    else match s.graphOf e with
      | none => s.complete e 9 1 0 0
      | some g =>
        let held := g.bound.find? (fun b => b.2 = (e.qid, e.seq))
        let v := (held.map (·.1)).getD g.newest
        let s := if held.isSome then s else
          { s with graphs := s.graphs.map (fun (x : Graph) =>
              if x.qid = g.qid && x.seq = g.seq then { x with bound := x.bound ++ [(v, e.qid, e.seq)] } else x) }
        let drop := fun (s : State) => if (s.entry? e.qid e.seq).all (fun x => x.res.isSome) then s.unbind e.qid e.seq else s
        let big := bitsOf (e.word 4) 63 48 != 0 || bitsOf (e.word 5) 63 48 != 0
        match s.readImage e.ctx (blkW g.blk 0).toNat with
        | .error x => drop (s.entryFaultAt e x)
        | .ok im =>
          if !sinkIn g.blk im (e.word 3) then drop (s.complete e 9 1 0 0)
          else if big then drop (s.complete e 3 4 0 (if bitsOf (e.word 4) 63 48 != 0 then e.word 4 else e.word 5))
          else drop (s.launchWith e g.blk (g.table v) (fun s => s.replayDemand e)))

/-! ### PATCH (R331) -/

/-- Items of a PATCH applied to a table's bytes; none where an index is out of range. -/
def patchTable (tab : List Byte) : Nat → List Byte → Option (List Byte)
  | 0, _ => some tab
  | n + 1, items =>
    let i := (wordAt items 0).toNat
    if 4095 < i then none
    else patchTable (tab.take (32 * i) ++ (items.drop 8).take 32 ++ tab.drop (32 * i + 32)) n (items.drop 40)

/-- PATCH: version v + 1 is made from the newest version. It waits while an earlier PATCH of the graph is at work, or while its
slot of VAREA holds a version that still lives (log 28). -/
def execPatch (s : State) : Out :=
  s.entryRow (fun s e =>
    match s.graphOf e with
    | none => s.complete e 9 1 0 0
    | some g =>
      let n := (e.word 4).toNat
      let v := g.newest + 1
      let earlier := (s.entries.takeWhile (fun x => !(x.qid = e.qid && x.seq = e.seq))).any (fun x =>
        bitsOf (x.word 0) 63 56 = 3 && x.word 1 = e.word 1 && x.word 2 = e.word 2 && x.res.isNone)
      if n = 0 then s.complete e 9 1 0 0
      else if earlier || g.live.any (fun x => x != 0 && x != g.newest && x % 4 = v % 4) then s
      else match s.vread e.ctx (e.word 3).toNat (40 * n) with
        | .error f => s.entryFault e (e.word 3).toNat .rd f
        | .ok items => match s.vread e.ctx (g.table g.newest).toNat 131072 with
          | .error f => s.entryFault e (g.table g.newest).toNat .rd f
          | .ok tab => match patchTable tab n items with
            | none => s.complete e 9 1 0 0
            | some t => match s.vwrite e.ctx (g.table v).toNat t with
              | .error f => s.entryFault e (g.table v).toNat .wr f
              | .ok s =>
                let s := { s with graphs := s.graphs.map (fun (x : Graph) =>
                  if x.qid = g.qid && x.seq = g.seq then { x with newest := v } else x) }
                s.complete e 0 0 v 0)

/-! ### DEMAND, EXPORT, IMPORT (R322) -/

/-- A command for a demand unit: posted once it has room, and completed by its answer. -/
def State.unitEntry (s : State) (e : Entry) (w : Instr) (sink cmd a b : W64) : State :=
  if e.phase = 0 then
    match s.instOf e with
    | none => s.complete e 9 1 0 0
    | some i => match s.instSink i.qid i.seq sink with
      | none => s.complete e 9 1 0 0
      | some h =>
        if 16 ≤ s.duLoad h then s
        else (s.hostCmd e w h cmd a b).modEntry e.qid e.seq (fun x => { x with phase := 1 })
  else match s.dones.find? (fun d => d.cmd.host = some (e.qid, e.seq)) with
    | none => s
    | some d => s.complete e d.code (d.detail.toNat % 256) d.e4.toNat d.value

/-- DEMAND: as `dmd` at the named sink (R185). -/
def execDemand (s : State) : Out := s.entryRow (fun s e => s.unitEntry e .demand (e.word 3) (e.word 3) (e.word 4) (e.word 5))

/-- EXPORT: as `lexp` of the named operator (R176, R227). -/
def execExportRec (s : State) : Out := s.entryRow (fun s e => s.unitEntry e .exportRec (e.word 3) (e.word 4) (e.word 3) 0)

/-- IMPORT: as `limp` of the named operator (R228). -/
def execImportRec (s : State) : Out := s.entryRow (fun s e => s.unitEntry e .importRec (e.word 3) (e.word 4) (e.word 3) 0)

end Sys2Proof.Machine
end

