-- ==== Sys2Proof/Machine/Table.lean ====
section
/-! DEFINITION. TABLE: a list of table writes for a chain's shadow, then a commit (R330). -/

namespace Sys2Proof.Machine

open Sys2Proof

/-- How the items of a TABLE end early: an access that faults, or an item that fails with a code and a detail. -/
inductive TabStop
  | fault (i va : Nat) (f : XFault)
  | fail (i code detail : Nat)
deriving DecidableEq, Repr, Inhabited

/-- Apply one item (R184, R280, R330). -/
def State.tableItem (s : State) (ctx d ch i : Nat) (w0 w1 : W64) : State × Option TabStop :=
  let kind := bitsOf w1 63 56
  let stage := bitsOf w1 43 40
  let idx := bitsOf w1 31 0
  let c := s.chain d ch
  let put := fun (x : Chain × TabEnd) =>
    if x.2.1 = 0 then (s.modChain d ch (fun _ => x.1), none) else (s, some (TabStop.fail i x.2.1 x.2.2.1))
  if 2 ≤ kind || bitsOf w1 39 32 != 0 || bitsOf w1 54 44 != 0 || 12 ≤ stage then (s, some (.fail i 9 1))
  else if kind = 1 && skind (c.stage stage).cfg[c.shadow] != 1 then put (c.delEnt stage idx 0)
  else if w0.toNat % 64 != 0 then (s, some (.fail i 3 2))
  else match s.vread ctx w0.toNat 64 with
    | .error f => (s, some (.fault i w0.toNat f))
    | .ok bs => put (c.apply (kind = 1) stage (bitAt w1.toNat 55) idx (BitVec.ofNat 512 (leNat bs)))

/-- Apply the items from the `i`-th on, `n` of them. -/
def State.tableItems (s : State) (ctx va d ch : Nat) : Nat → Nat → State × Option TabStop
  | 0, _ => (s, none)
  | n + 1, i =>
    match s.vread ctx (va + 16 * i) 16 with
    | .error f => (s, some (.fault i (va + 16 * i) f))
    | .ok bs => match s.tableItem ctx d ch i (wordAt bs 0) (wordAt bs 1) with
      | (s, none) => s.tableItems ctx va d ch n (i + 1)
      | (s, some x) => (s, some x)

/-- A TABLE whose chain is its context's and has no commit at work: its items, then its commit (R279, R330). -/
def State.tableRun (s : State) (e : Entry) (d ch : Nat) : State :=
  match s.tableItems e.ctx (e.word 1).toNat d ch ((e.word 2).toNat - e.aux) e.aux with
  | (s, some (.fail i code detail)) => s.complete e code detail i 0
  | (s, some (.fault i va f)) =>
    if f.parkable then (s.modEntry e.qid e.seq (fun x => { x with aux := i })).entryFault e va .rd f
    else
      let (s, j) := s.recordFault { ctx := e.ctx, agent := agShepherd } va f false
      s.complete e f.code (f.e1 .rd j).toNat i 0
  | (s, none) =>
    let m : Cmd := { id := s.fresh, ctx := e.ctx, word := .table, host := some (e.qid, e.seq), noTick := true }
    ({ s with fresh := s.fresh + 1 }.modChain d ch (fun c => c.flip m)).modEntry e.qid e.seq (fun x => { x with phase := 1 })

/-- TABLE (R262, R330). -/
def execTable (s : State) : Out :=
  s.entryRow (fun s e =>
    let d := bitsOf (e.word 3) 3 2
    let ch := bitsOf (e.word 3) 1 0
    let n := (e.word 2).toNat
    let c := s.chain d ch
    if e.phase = 1 then
      match s.dones.find? (fun x => x.cmd.host = some (e.qid, e.seq)) with
      | none => s
      | some _ => (s.modChain d ch (fun c => { c with commit := none, settled := false })).complete e 0 0 0 0
    else if n = 0 || 65535 < n || bitsOf (e.word 3) 63 4 != 0 then s.complete e 9 1 0 0
    else if c.quar || (c.owner.isSome && c.owner != some e.ctx) then s.complete e 9 6 0 0
    else
      let s := if c.owner.isNone then (s.modChain d ch (fun c => c.fresh (some e.ctx))).wakeDie d else s
      if c.commit.isSome then s else s.tableRun e d ch)

end Sys2Proof.Machine
end

