-- ==== Sys2Proof/Machine/Context.lean ====
section
/-! DEFINITION. Contexts (R337, R338), keys (R348), invalidation (R341), the driver's fault and header registers (R340, R345),
breakpoint control (R310), and teardown with its scrub (R349, R350). -/

namespace Sys2Proof.Machine

open Sys2Proof

/-! ### The context table (R337, R339, R348) -/

def Ctx.en (c : Ctx) : Bool := bitAt c.w[2].toNat 63
def Ctx.prot (c : Ctx) : Bool := bitAt c.w[2].toNat 62
def Ctx.kslot (c : Ctx) : Nat := bitsOf c.w[2] 60 55

/-- The range entries a context's RTAB holds (R339). -/
def State.readRanges (s : State) (c : Ctx) : List (W64 × W64 × W64 × W64) :=
  if c.w[1] = 0 then []
  else (List.range 64).map (fun i =>
    let bs := s.mem.read (c.w[1].toNat + 32 * i) 32
    (wordAt bs 0, wordAt bs 1, wordAt bs 2, wordAt bs 3))

/-- The poisoned entries of a range table, each by the number of entries that follow it (R352). -/
def State.badRanges (s : State) (c : Ctx) : List Nat :=
  if c.w[1] = 0 then [] else (List.range 64).filter (fun i => poisonAt s.poison (c.w[1].toNat + 32 * (63 - i)) 32)

/-- The range table of a context is read and kept with what else is given of it (R339, R341). -/
def State.setRanges (s : State) (n : Nat) (c : Ctx) : State :=
  ((s.badRanges c).foldl (fun s _ => s.ueMet (paDie c.w[1].toNat)) s).setCtx n { c with ranges := s.readRanges c, badRanges := s.badRanges c }

/-- Is a key slot under quarantine (R349)? -/
def State.slotQuar (s : State) (k : Nat) : Bool := s.quarSlots.any (fun x => x.2 = k)

/-- May a context be enabled (R348, R349, R358, R368)? -/
def State.mayEnable (s : State) (n : Nat) (c : Ctx) : Bool :=
  decide (8 ≤ s.svc.boot) && !s.svc.recovery && !c.quar && !(s.svc.scrubFirst && s.ctxs.any (fun x => x.2.quar))
    && (!c.prot || ((Tab.find s.keys c.kslot).isSome && !s.slotQuar c.kslot
      && !s.ctxs.any (fun x => x.1 != n && x.2.en && x.2.prot && x.2.kslot = c.kslot)))

/-- The writable bits of a descriptor word (R337). -/
def ctxMask (i : Nat) : W64 :=
  if i = 0 then 0x000FFFFFFFFFF000 else if i = 2 then 0xFF80000000000000 else if i = 6 || i = 7 then 0xFFFF
  else BitVec.allOnes 64

/-- CONTEXT_WRITE: word `bus.b` of the descriptor of context `bus.a` gets `bus.v`. While EN is 1 only POL, EVQ and CAREA change;
EN rises only where R348 and R349 let it, and the range table is read then. -/
def execContextWrite (s : State) : Out :=
  let n := s.bus.a % 4096
  let i := s.bus.b % 8
  let c := s.ctx n
  let v := s.bus.v &&& ctxMask i
  let pol : W64 := BitVec.ofNat 64 (2 ^ 61)
  if c.en then
    s.driver (if i = 2 then s.setCtx n { c with w := c.w.set 2 ((c.w[2] &&& ~~~pol) ||| (v &&& pol)) }
      else if i = 3 || i = 4 then s.setCtx n { c with w := c.w.setIfInBounds i v } else s)
  else
    let c' := { c with w := c.w.setIfInBounds i v }
    if i != 2 || !c'.en then s.driver (s.setCtx n c')
    else if s.mayEnable n c' then
      let t := if c'.prot then
          { s with keys := s.keys.map (fun k => if k.1 = c'.kslot then (k.1, (k.2.1, n)) else k) }
        else s
      s.driver (t.setRanges n { c' with tearing := none })
    else s.driver (s.setCtx n { c' with w := c'.w.set 2 (v &&& ~~~(BitVec.ofNat 64 (2 ^ 63))) })

/-- KEY_INSTALL: firmware puts the key `bus.c` into slot `bus.b`, for context `bus.a` (R348): not in recovery (R358), and not into a slot
that is quarantined (R349) or that serves an enabled context. The key's bits are not visible; its identity stands for them. -/
def execKeyInstall (s : State) : Out :=
  let k := s.bus.b % 64
  let used := s.ctxs.any (fun x => x.2.en && x.2.prot && x.2.kslot = k)
  if s.offline || s.slotQuar k || used then .next s
  else .next { s with keys := Tab.put s.keys k (s.bus.c + 1, 4096) }

/-! ### Invalidation (R341) -/

/-- Base-2 logarithm of the bytes of a page size code. -/
def invalBits (sz : Nat) : Nat := [12, 16, 21, 25, 29, 30].getD sz 30

/-- Does an INVAL word name a cached page of a context? -/
def invalHits (v : W64) (e : Nat × Nat × Nat) : Bool :=
  e.1 = bitsOf v 63 52 && (bitAt v.toNat 51
    || e.2.1 * 4096 / 2 ^ invalBits (bitsOf v 50 48) = bitsOf v 47 12 * 4096 / 2 ^ invalBits (bitsOf v 50 48))

/-- INVAL: the driver's write `bus.v` starts an invalidation. -/
def execInval (s : State) : Out := s.driver { s with invs := s.invs ++ [s.bus.v] }

/-- A waiter after an invalidation of its page: it watches the places its word has now; where it has none, its next test finds that (R341). -/
def State.rewatch (s : State) (v : W64) (j : Job) : Job :=
  if j.watch = [] || !invalHits v (j.cmd.ctx, j.cmd.cmd.toNat % 2 ^ 48 / 4096, 0) then j
  else match s.places j.cmd.ctx j.cmd.cmd.toNat j.watch.length .rd with
    | .ok pl => { j with watch := pl }
    | .error _ => { j with watch := [] }

/-- INVAL_COMPLETE: the oldest invalidation completes: the entries it names are gone, no waiter watches an old place, and range entries
are read again with ALL. -/
def execInvalComplete (s : State) : Out :=
  match s.invs with
  | [] => .next s
  | v :: rest =>
    let n := bitsOf v 63 52
    let s := { s with invs := rest, invseq := s.invseq + 1, tlb := s.tlb.filter (fun e => !invalHits v e) }
    let s := if bitAt v.toNat 51 then s.setRanges n (s.ctx n) else s
    .next { s with dies := s.dies.map (fun x => { x with waits := x.waits.map (s.rewatch v) }) }

/-! ### FRPTR, HBASE and BPCTL (R310, R340, R345) -/

/-- Let every access parked on one of some records retry (R345). -/
def State.unpark (s : State) (hit : Nat → Bool) : State :=
  let f := fun (p : Option Nat) => p.filter (fun i => !hit i)
  let js := fun (l : List Job) => l.map (fun (j : Job) => { j with parked := f j.parked })
  { s with
    dies := s.dies.map (fun (x : Die) => { x with ladle := x.ladle.map js, bell := js x.bell, waits := js x.waits })
    entries := s.entries.map (fun (e : Entry) => { e with parked := f e.parked })
    queues := s.queues.map (fun x => (x.1, { x.2 with parked := f x.2.parked }))
    pens := s.pens.map (fun (p : Pen) => { p with du := { p.du with parked := f p.du.parked } }) }

/-- Write the records of parked accesses that found the buffer full, as far as there is room now (R344); the others are kept for later
room, resolved though they are. -/
def State.storeLost (s : State) : List FaultRec → State
  | [] => s
  | r :: rs =>
    if !bitAt (r.w.getD 1 0).toNat 31 then s.storeLost rs
    else if s.faultsFull then ({ s with faults := s.faults ++ [{ r with pen := none }] } : State).storeLost rs
    else (s.storeFault (r.w.take 3 ++ [s.fwptr])).storeLost rs

/-- FRPTR_WRITE: the faults whose records lie below the new FRPTR are resolved, and those that had no record; parked accesses
retry, and abandoned ticks may be requeued (R186, R345). -/
def execFrptrWrite (s : State) : Out :=
  let v := if s.fwptr.toNat < s.bus.v.toNat then s.fwptr else s.bus.v
  let hit := fun (i : Nat) => decide (i < v.toNat) || decide (2 ^ 64 ≤ i)
  let lost := s.faults.filter (fun f => !f.inBuf)
  let t := { s with frptr := v, faults := s.faults.filter (fun f => f.inBuf && !hit f.idx) }
  let freed := (List.range s.pens.length).filter (fun h => (s.pen h).du.parked.any hit)
  s.driver (freed.foldl (fun s h => s.retryBoundary h) ((t.storeLost lost).unpark hit))

/-- HBASE_WRITE: ignored while a context is enabled (R340). -/
def execHbaseWrite (s : State) : Out :=
  s.driver (if s.ctxs.any (fun x => x.2.en) then s else { s with hbase := s.bus.v &&& 0x000FFFFFFFFFFFF1 })

/-- BPCTL_WRITE: breakpoint control of context `bus.a`; each pen takes it at its next slot boundary (R310). -/
def execBpctlWrite (s : State) : Out :=
  let n := s.bus.a % 4096
  s.driver (s.setCtx n { s.ctx n with bp := s.bus.v &&& 0xC000FFFFFFFFFFFF })

/-! ### Teardown (R349) -/

/-- The extents of a scrub list: physical address and bytes. A poisoned one is no data, and left out (R352, log 122). -/
def State.scrubList (s : State) (c : Ctx) : List (Nat × Nat) :=
  ((List.range (Nat.min 256 (bitsOf c.w[6] 15 0))).filter (fun i => !poisonAt s.poison (c.w[5].toNat + 16 * i) 16)).map (fun i =>
    let bs := s.mem.read (c.w[5].toNat + 16 * i) 16
    ((wordAt bs 0).toNat / 4096 * 4096, (wordAt bs 1).toNat * 4096))

/-- The cores a context holds (R370). -/
def State.ctxCores (s : State) (n : Nat) : List Nat :=
  (s.pens.flatMap (fun (p : Pen) =>
    if p.ctx = n && (p.live || (p.ended && (s.entry? p.qid p.seq).isSome)) then p.cores else [])).eraseDups

/-- Everything of a context leaves a die: jobs, waits, arrivals, loader commands; its chains are emptied and quarantined (R282). -/
def Die.drop (x : Die) (n : Nat) : Die :=
  let js := fun (l : List Job) => l.filter (fun j => j.cmd.ctx != n)
  { x with
    ladle := x.ladle.map js
    bell := js x.bell
    waits := js x.waits
    arrivals := x.arrivals.filter (fun m => m.ctx != n)
    bars := x.bars.map (fun b =>
      let gone := (b.2.waiting.filter (fun m => m.ctx = n)).length
      (b.1, { b.2 with waiting := b.2.waiting.filter (fun m => m.ctx != n), count := b.2.count - gone }))
    loader := x.loader.filter (fun m => m.ctx != n)
    chains := x.chains.map (fun c => if c.owner = some n then { c.fresh (some n) with quar := true } else c) }

/-- The commands of a context that a die holds, as they complete: ABORTED, detail 2 (R282, R297, R349). -/
def State.dropped (s : State) (d n : Nat) : List Done :=
  let x := s.die d
  let end_ := fun (eng inst : Nat) (m : Cmd) => ({ cmd := m, eng := eng, die := d, inst := inst, code := 9, detail := 2 } : Done)
  let mine := fun (l : List Cmd) => l.filter (fun m => m.ctx = n && !m.sync && m.host.isNone)
  let jobs := fun (l : List Job) => mine (l.map (·.cmd))
  x.ladle.toList.zipIdx.flatMap (fun q => (jobs q.1).map (end_ agLadle q.2))
    ++ (jobs x.bell ++ jobs x.waits ++ mine x.arrivals).map (end_ agBell 0)
    ++ (mine x.loader).map (end_ agLoader 0)
    ++ x.chains.toList.zipIdx.flatMap (fun c => (mine (c.1.sends.map (·.1) ++ c.1.ops
        ++ (if c.1.settled then [] else c.1.commit.toList))).map (end_ agDrove c.2))

/-- The released commands of a context that no engine has accepted yet, as they complete: ABORTED, detail 2 (R297, R349). -/
def State.unsent (s : State) (n : Nat) : List Done :=
  s.cores.flatMap (fun x => (x.2.out.filter (fun m => m.ctx = n && !m.sync)).map (fun m =>
    ({ cmd := m, eng := 0, die := coreDie x.1, code := 9, detail := 2 } : Done)))

/-- An entry of a context that has not completed ends with ABORTED, detail 2; one whose status cannot be written is given up. -/
def State.abortEntry (s : State) (e : Entry) : State :=
  let s := (s.modEntry e.qid e.seq (fun e => { e with parked := none })).complete { e with parked := none } 9 2 0 0
  { s with entries := s.entries.filter (fun x => !(x.qid = e.qid && x.seq = e.seq)) }

/-- The entries a queue has not taken complete with ABORTED, detail 2, in order (R336). Fuel: how many. -/
def State.abortUntaken (s : State) (q : Nat) : Nat → State
  | 0 => s
  | k + 1 =>
    let x := s.queue q
    if x.tail.toNat ≤ x.taken.toNat then s
    else
      let n := x.taken.toNat + 1
      let w := match s.vread x.ctx (x.slotVa n) 64 with
        | .ok bs => (List.range 8).map (wordAt bs)
        | .error _ => []
      let e : Entry := { qid := q, seq := n, ctx := x.ctx, w := w }
      let s := s.setQueue q { x with taken := BitVec.ofNat 64 n, parked := none }
      (({ s with entries := s.entries ++ [e] } : State).abortEntry e).abortUntaken q k

/-- Teardown of a context up to its scrub (R349 steps 1 to 4); `by_` is the entry that asked for it. -/
def State.teardown (s : State) (n : Nat) (by_ : Option (Nat × Nat)) : State :=
  let c := s.ctx n
  let cores := s.ctxCores n
  let hs := (List.range s.pens.length).filter (fun h => (s.pen h).ctx = n && (s.pen h).live || ((s.pen h).ctx = n && (s.pen h).frozen = .cast))
  let s := (hs.foldl (fun s h => s.abortPosted h 2) s).stallEnd n
  let s := ((List.range 4).flatMap (fun d => s.dropped d n) ++ s.unsent n).foldl State.answer s
  let s : State := { s with cores := s.cores.map (fun (x : Nat × Core) => (x.1, { x.2 with out := x.2.out.filter (fun m => m.ctx != n) })) }
  let s := hs.foldl (fun s h => s.modPen h (fun p => { p with live := false, ended := true, held := [], syncs := [], frozen := .running })) s
  let s := (s.entries.filter (fun e => e.ctx = n && some (e.qid, e.seq) != by_)).foldl State.abortEntry s
  let s := (s.queues.filter (fun x => x.2.ctx = n)).foldl (fun s x => s.abortUntaken x.1 (x.2.tail.toNat - x.2.taken.toNat)) s
  let s := { s with
    dies := s.dies.map (fun (x : Die) => x.drop n)
    mesh := s.mesh.filter (fun m => !cores.contains m.src)
    resps := s.resps.filter (fun m => !cores.contains m.src)
    late := s.late.filter (fun e => !cores.contains e.agent.core)
    graphs := s.graphs.filter (fun g => g.ctx != n)
    faults := s.faults.filter (fun f => !(hs.any (fun h => f.pen.any (fun (p : Nat × Int) => p.1 = h))))
    keys := if c.prot && s.keyBound n then Tab.del s.keys c.kslot else s.keys
    quarCores := s.quarCores ++ cores.map (fun k => (n, k))
    quarSlots := if c.prot then s.quarSlots ++ [(n, c.kslot)] else s.quarSlots }
  s.setCtx n { c with quar := true, scrub := s.scrubList c, scrubPos := 0, tearing := by_ }

/-- TEARDOWN: of the queue's own context (R321, R349). -/
def execTeardown (s : State) : Out :=
  s.entryRow (fun s e =>
    if e.phase != 0 then s
    else if e.word 1 != BitVec.ofNat 64 e.ctx then s.complete e 9 1 0 0
    else if (s.ctx e.ctx).quar then s.complete e 9 2 0 0
    else (s.teardown e.ctx (some (e.qid, e.seq))).modEntry e.qid e.seq (fun x => { x with phase := 3 }))

/-- Bytes of scratchpad a quarantined context has to scrub. -/
def State.scrubNear (s : State) (n : Nat) : Nat := (s.quarCores.filter (fun x => x.1 = n)).length * 2 ^ 20

/-- The byte address of a position in a list of extents. -/
def extentAt : List (Nat × Nat) → Nat → Option Nat
  | [], _ => none
  | (a, l) :: es, pos => if pos < l then some (a + pos) else extentAt es (pos - l)

/-- The quarantine of a context ends (R349 step 6). -/
def State.scrubEnd (s : State) (n : Nat) : State :=
  let c := s.ctx n
  let s := { s with
    quarCores := s.quarCores.filter (fun x => x.1 != n)
    quarSlots := s.quarSlots.filter (fun x => x.1 != n)
    dies := s.dies.map (fun (x : Die) => { x with chains := x.chains.map (fun (c : Chain) =>
      if c.owner = some n then { c.fresh none with quar := false } else c) }) }
  let s := match c.tearing.bind (fun t => s.entry? t.1 t.2) with
    | some e => s.complete e 0 0 0 0
    | none => s
  let c := s.ctx n
  let s : State := { s with svc := { s.svc with scrubFirst := s.svc.scrubFirst && s.ctxs.any (fun x => x.1 != n && x.2.quar) } }
  s.setCtx n { c with quar := false, scrub := [], tearing := none, w := c.w.set 2 (c.w[2] &&& ~~~(BitVec.ofNat 64 (2 ^ 63))) }

/-- SCRUB_COMPLETE: the scrub of a quarantined context goes on by 4 KiB, its scratchpads first and then its extents in order; once
all is zero the quarantine ends (R349, R350). -/
def execScrubComplete (n : Nat) (s : State) : Out :=
  let c := s.ctx n
  if !c.quar then .next s
  else
    let near := s.scrubNear n
    let up := fun (s : State) => s.setCtx n { c with scrubPos := c.scrubPos + 4096 }
    if c.scrubPos < near then
      let k := (((s.quarCores.filter (fun x => x.1 = n)).map (·.2))).getD (c.scrubPos / 2 ^ 20) 0
      .next (up (s.nearWrite (nearAddr k (c.scrubPos % 2 ^ 20)) (List.replicate 4096 0)))
    else match extentAt c.scrub (c.scrubPos - near) with
      | some pa => .next (up (s.physWrite none 0 ((List.range 4096).map (fun i => (pa + i, 0)))))
      | none => .next (s.scrubEnd n)

end Sys2Proof.Machine
end

