-- ==== Sys2Proof/Machine/Service.lean ====
section
/-! DEFINITION. Soft errors (R352 to R354), other device registers (R10), security alarms (R355 to R357), firmware and attestation
(R358), power (R359 to R361), reset and bring-up (R367, R368), and the host's accesses to memory (R295, R296). -/

namespace Sys2Proof.Machine

open Sys2Proof

/-! ### Soft errors (R352 to R354) -/

/-- The number of the pseudo-context that holds what no context holds while everything is quarantined (R355, log 29). -/
def quarAll : Nat := 4096

/-- An upset that the scrubber cannot correct, by where it lies: 0 a byte of memory or of a scratchpad, by key; 1 a live-plane word,
2 a shadow-plane word, by core, column and slot; 3 a drove entry, by chain, stage and index; 4 a route, by chain, version and
index; 5 a register, accumulator, port or landing buffer of core `bus.c`; 6 a translation cache entry; 7 a bellwether's SRAM, by the
operation it holds (log 23). -/
def State.upset (s : State) : State :=
  let b := s.bus
  let n := fun (i : Nat) => b.nums.getD i 0
  let d := b.a % 4
  if b.b = 0 then
    if s.poison.contains b.c then s
    else
      let found := b.c < hbmBytes && !poisonAt s.poison (b.c / 32 * 32) 32
      let s := if found then s.errCount (paDie b.c) 0 16 else s
      { s with poison := b.c :: s.poison }
  else if b.b = 1 then { s with poison := liveKey (n 0) (colOf (n 1)) (n 2) :: s.poison }
  else if b.b = 2 then { s with poison := shadowKey (n 0) (colOf (n 1)) (n 2) :: s.poison }
  else if b.b = 3 then s.modChain d (n 0) (fun c => c.modStage (n 1) (fun st =>
    { st with ents := st.ents.map (fun e => if e.1 = n 2 then (e.1, { e.2 with bad := true }) else e) }))
  else if b.b = 4 then s.modChain d (n 0) (fun c =>
    let v : Fin 2 := if n 1 % 2 = 0 then 0 else 1
    { c with badRt := c.badRt.set v (n 2 :: c.badRt[v]) })
  else if b.b = 5 then
    let p := s.pen (s.penOf b.c)
    if p.live then (s.ueMet d).lateStop b.c .machineCheck .s p.slot p.it true else s
  else if b.b = 7 then s.modDie d (fun x =>
    let hit := fun (l : List Job) => l.map (fun (j : Job) => if j.cmd.id = n 0 then { j with upset := true } else j)
    { x with bell := hit x.bell, waits := hit x.waits })
  else { s with tlb := s.tlb.filter (fun e => !(e.1 = n 0 && e.2.1 = n 1)) }

/-- PATROL_SCRUB: the scrubber of die `bus.a` meets the upset of the bus: one that ECC corrects (`bus.v` 0) is written back and counted;
another is left for its readers. -/
def execPatrolScrub (s : State) : Out :=
  .next (if s.bus.v = 0 then s.errCount (s.bus.a % 4) 32 32 else s.upset)

/-! ### Other registers (R10) -/

/-- Bits written as 1 clear (R354): a counter field is cleared bit by bit. -/
def rw1c (old v : W64) : W64 := old &&& ~~~v

/-- PLIM, TTHR and FLOOR take a value, each within its bounds (R361). -/
def State.plimWrite (s : State) (v : W64) : State :=
  let clip := fun (lo hi x : Nat) => Nat.max lo (Nat.min hi x)
  { s with svc := { s.svc with
      plim := clip 600 3000 (bitsOf v 63 48), tthr := clip 70 105 (bitsOf v 47 40), floor := Nat.min 5 (bitsOf v 2 0) } }

/-- REGISTER_WRITE: register `bus.a` of die or index `bus.b`, element `bus.c`, gets `bus.v`: 0 FBASE (R342); 1 a sprue tile's SPRCTL
(R255); 2 and 3 a die's event counter and select (R316); 4 the power limits (R361); 5 a die's service counters (R354); 6 a word
of an export window (R365). Any other register has no effect here (log 30). -/
def execRegisterWrite (s : State) : Out :=
  let b := s.bus
  let d := b.b % 4
  s.driver (match b.a with
    | 0 => { s with fbase := b.v }
    | 1 => s.modDie d (fun x => { x with sprctl := x.sprctl.setIfInBounds b.c (BitVec.ofNat 64 (Nat.max 4 (Nat.min 64 (bitsOf b.v 6 0)))) })
    | 2 => s.modDie d (fun x => { x with devc := x.devc.setIfInBounds b.c b.v })
    | 3 => s.modDie d (fun x => { x with devs := x.devs.setIfInBounds b.c (b.v &&& 0x80FF) })
    | 4 => s.plimWrite b.v
    | 5 => s.modDie d (fun x => { x with errs := rw1c x.errs b.v })
    | 6 =>
      let m : W64 := if b.c % 3 = 2 then 0xC00000000000FFFF else 0x000000FFFFFFF000
      { s with svc := { s.svc with expwin := s.svc.expwin.setIfInBounds (3 * (b.b % 16) + b.c % 3) (b.v &&& m) } }
    | _ => s)

/-! ### Reset (R350, R367) -/

/-- A context after a reset: its descriptor is gone, its quarantine and retained scrub list are not, and the scrub starts anew. -/
def Ctx.afterReset (c : Ctx) : Ctx := { quar := c.quar, scrub := c.scrub }

/-- A die after a reset: quarantined chains stay so; the alarm log stays but for a cold reset (R356). -/
def Die.afterReset (x : Die) (log : Bool) : Die :=
  { chains := x.chains.map (fun c => if c.quar then { c.fresh c.owner with quar := true } else {})
    almlog := if log then x.almlog else 0 }

/-- A reset: every core, engine, queue, context and key slot, not the flash, the fuses, the quarantine bits and the scrub lists.
Host memory is the host's. Device memory loses its contents in a cold reset alone. -/
def State.afterReset (s : State) (cold : Bool) : State :=
  { mem := if cold then s.mem.filter (fun c => 2 ^ 51 ≤ c.1 && c.1 < 2 ^ 52) else s.mem
    poison := if cold then [] else s.poison.filter (· < 2 ^ 56)
    crypt := if cold then [] else s.crypt
    dies := s.dies.map (fun (x : Die) => x.afterReset (!cold))
    ctxs := (s.ctxs.filter (fun x => x.2.quar)).map (fun x => (x.1, x.2.afterReset))
    quarCores := s.quarCores
    quarSlots := s.quarSlots
    svc := { flash := s.svc.flash, fusedKey := s.svc.fusedKey, secret := s.svc.secret }
    inputs := s.inputs.map (fun x => (x.1 - s.time, x.2))
    fresh := s.fresh }

/-- COLD_RESET: power-on. -/
def execColdReset (s : State) : Out := .next (s.afterReset true)

/-- WARM_RESET: a host reset of the module. -/
def execWarmReset (s : State) : Out := .next (s.afterReset false)

/-- FUNCTION_LEVEL_RESET: a teardown of every enabled context, and the queues are gone; firmware, HBM and links go on as they are, and
contexts are enabled again only once the scrubs are done (R350, R367). -/
def execFunctionLevelReset (s : State) : Out :=
  let s := (s.ctxs.filter (fun x => x.2.en && !x.2.quar)).foldl (fun s x => s.teardown x.1 none) s
  .next { s with
    queues := []
    entries := []
    graphs := []
    ctxs := (s.ctxs.filter (fun x => x.2.quar)).map (fun x => (x.1, x.2.afterReset))
    svc := { s.svc with scrubFirst := s.ctxs.any (fun x => x.2.quar) } }

/-! ### Bring-up and firmware (R358, R368) -/

/-- The status word of a failed step: the step, and the stack or link that failed (log 30). -/
def bootFail (step unit : Nat) : W64 := BitVec.ofNat 64 (step * 2 ^ 56 + unit % 2 ^ 32)

/-- BRINGUP_STEP: the next step of bring-up: firmware, keys, HBM, die-to-die links, CXL, scrubs, flock links, contexts. A unit that
fails its training is `bus.a`, counted from 1. A step that has failed leaves the later ones undone. -/
def execBringupStep (s : State) : Out :=
  let v := s.svc
  let k := v.boot + 1
  if 8 ≤ v.boot || v.recovery || v.status != 0 then .next s
  else if k = 1 && !Config.slhVerify v.fusedKey v.flash then
    .next { s with svc := { v with recovery := true, status := bootFail 1 0 } }
  else if k != 1 && k != 2 && k != 6 && k != 8 && s.bus.a != 0 then .next { s with svc := { v with status := bootFail k s.bus.a } }
  else if k = 6 && s.ctxs.any (fun x => x.2.quar) then .next s
  else
    let s := if k = 2 then { s with keys := [] } else s
    .next { s with svc := { v with boot := k, fw := if k = 1 then v.flash else v.fw,
                                   ident := if k = 2 then Config.identityKey v.secret else v.ident } }

/-- RECOVERY_IMAGE_WRITE: bytes of the firmware image are written in place at offset `bus.a`. With `bus.b` set the image is complete: in
recovery the boot ROM verifies it, and bring-up starts again where it passes (R358). Nothing is heard before CXL.io opens (R368). -/
def execRecoveryImageWrite (s : State) : Out :=
  let v := s.svc
  let bs := s.bus.data
  let fl := v.flash.take s.bus.a ++ List.replicate (s.bus.a - v.flash.length) 0 ++ bs ++ v.flash.drop (s.bus.a + bs.length)
  let v := { v with flash := fl }
  if v.boot < 5 && !v.recovery && v.status = 0 then .next s
  else .next { s with svc :=
    if v.recovery && s.bus.b = 1 && Config.slhVerify v.fusedKey fl then { v with recovery := false, status := 0, boot := 0 } else v }

/-- SPDM_MEASUREMENTS: the five measurement blocks and their signature with the identity key (R358). The spec lays neither the boot ROM
nor the raw blocks out (log 22). None is given while the device is offline (R358, R368). -/
def execSpdmMeasurements (s : State) : Out :=
  let v := s.svc
  let digest := fun (bs : List Byte) => leBytes 32 (Config.sha256 bs).toNat
  let map64 := fun (f : Nat → Bool) => leBytes 8 ((List.range 64).foldl (fun n i => if f i then n + 2 ^ i else n) 0)
  let quar := map64 s.slotQuar
    ++ [BitVec.ofNat 8 0] ++ s.dies.toList.map (fun (x : Die) => BitVec.ofNat 8 (x.chains.toList.foldl (fun n c => 2 * n + (if c.quar then 1 else 0)) 0))
    ++ (s.ctxs.filter (fun x => x.2.quar)).flatMap (fun x => leBytes 2 x.1)
    ++ s.quarCores.flatMap (fun x => leBytes 2 x.2)
  let blocks := digest Config.bootRom ++ digest v.fw ++ digest (leBytes 32 v.fusedKey.toNat)
    ++ ([if v.recovery then 1 else 0] ++ s.dies.toList.flatMap (fun (x : Die) => leBytes 8 x.almlog.toNat))
    ++ (map64 (fun i => (Tab.find s.keys i).isSome) ++ quar)
  .next { s with svc := if s.offline then v else { v with meas := blocks ++ Config.slhSign v.ident blocks } }

/-! ### Alarms (R355 to R357) -/

/-- The alarm log word (R356). -/
def almWord (src : Nat) (b : Bool) (ctx cycles : Nat) : W64 :=
  BitVec.ofNat 64 (src % 256 * 2 ^ 56 + (if b then 2 ^ 55 + ctx % 4096 * 2 ^ 43 else 0) + cycles % 2 ^ 40)

/-- Record an alarm in a die's log. -/
def State.logAlarm (s : State) (d src : Nat) (b : Bool) (ctx : Nat) : State :=
  s.modDie d (fun x => { x with almlog := almWord src b ctx s.cycles })

/-- Quarantine what no context holds: it is scrubbed with the rest (R355). -/
def State.quarRest (s : State) : State :=
  let free := (List.range (4 * coresPerDie)).filter (fun c => !s.quarCores.any (fun x => x.2 = c))
  let s := { s with
    quarCores := s.quarCores ++ free.map (fun c => (quarAll, c))
    quarSlots := s.quarSlots ++ ((List.range 64).filter (fun k => !s.slotQuar k)).map (fun k => (quarAll, k))
    dies := s.dies.map (fun (x : Die) => { x with chains := x.chains.map (fun (c : Chain) =>
      if c.quar then c else { c.fresh (some quarAll) with quar := true }) }) }
  s.setCtx quarAll { quar := true }

/-- ALARM_CLASS_A: source `bus.a` on die `bus.b`: recorded, every key slot zeroised, everything quarantined, and an alarm reset follows
(R355, R357, R367). -/
def execAlarmClassA (s : State) : Out :=
  let s := s.logAlarm (s.bus.b % 4) s.bus.a false 0
  let s := { s with keys := [] }
  let s := (s.ctxs.filter (fun x => x.2.en && !x.2.quar)).foldl (fun s x => s.teardown x.1 none) s
  .next (s.quarRest.afterReset false)

/-- ALARM_CLASS_B: context `bus.a` reached what it does not own: its key slot is zeroised and it is torn down (R355, R357). -/
def execAlarmClassB (s : State) : Out :=
  let n := s.bus.a % 4096
  let s := s.logAlarm (s.bus.b % 4) 7 true n
  let c := s.ctx n
  if !c.en || c.quar then .next s
  else
    let s := if c.prot && s.keyBound n then { s with keys := Tab.del s.keys c.kslot } else s
    .next (s.teardown n none)

/-! ### Power (R359 to R361) -/

/-- Does an island of a die hold a running pen, or may it hold a chain that is owned? -/
def State.inUse (s : State) (d i : Nat) : Bool :=
  s.pens.any (fun p => p.live && !p.ended && p.frozen != .cast && p.die = d && p.islands.contains i)
    || (s.die d).chains.toList.any (fun c => c.owner.isSome)

/-- POWER_SAMPLE: `bus.a` is the module's power in W, `bus.nums` the dies' temperatures and then islands, each as 32·die + island: those
that draw most, which a sample over PLIM or TTHR requires one level more of, never beyond FLOOR; and with 128 added idle ones, which are
gated (R359). Well under both limits one level less is required of every island (R361). Islands without a pen change at once, those
with one at its slot boundary (R360). Dies at TALM raise the class A alarm, before anything else of the beat (R355, R357). -/
def execPowerSample (s : State) : Out :=
  let v := s.svc
  let temps := s.bus.nums.take 4
  let named := fun (k : Nat) => (((s.bus.nums.drop 4).filter (fun i => i / 128 = k)).map (fun i => (i / 32 % 4, i % 32))).eraseDups
  let require := fun (f : Nat → Nat) (s : State) (x : Nat × Nat) => s.modDie x.1 (fun d =>
    if x = (0, 0) then d else { d with req := d.req.setIfInBounds x.2 (f (d.req.toList.getD x.2 0)) })
  let all := (List.range 4).flatMap (fun d => (List.range 32).map (fun i => (d, i)))
  let s := ((named 1).filter (fun x => !s.inUse x.1 x.2)).foldl (require (fun _ => 6)) s
  let s :=
    if v.plim < s.bus.a || temps.any (fun t => decide (v.tthr < t)) then
      (named 0).foldl (require (fun l => if l < v.floor then l + 1 else l)) s
    else if 100 * s.bus.a < 95 * v.plim && temps.all (fun t => decide (t + 5 < v.tthr)) then
      all.foldl (require (fun l => if l = 6 then 6 else l - 1)) s
    else s
  let s := (List.range 4).foldl State.levelFree s
  match (List.range 4).filter (fun d => decide (v.talm ≤ temps.getD d 0)) with
  | [] => .next s
  | d :: ds => .next { ds.foldl (fun s d => s.logAlarm d 3 false 0) s with todo := .ev .alarmClassA { a := 3, b := d } :: s.todo }

/-- LEVEL_CHANGE_DONE: an island runs at its new clock, and the pens it held go on (R360). -/
def execLevelChangeDone (d i : Nat) (s : State) : Out := .next (s.modDie d (fun x => { x with changing := x.changing.setIfInBounds i false }))

/-! ### The host's accesses (R295, R296) -/

/-- The 64-byte lines of some bytes. -/
def linesOf (pa n : Nat) : List Nat := ((List.range n).map (fun i => (pa + i) / 64)).eraseDups

/-- A fetch-and-add by the host on `n` bytes it holds: what it writes back (R300). -/
def hostAdd (bs : List Byte) (v : Nat) : List Byte := leBytes bs.length (leNat bs + v)

/-- CXL_MEM_ACCESS at physical address `bus.c`: the host reads `bus.b` bytes (`bus.a` 0), answered in `bus.data`, writes `bus.data` there (1), or
adds `bus.w` to `bus.b` bytes of host memory that no die holds exclusively, as one access, with what stood there answered (2): a host
atomic on a host-shared line (R295); one on device memory is a read and a separate write. Through the interface bound to the protected
context `bus.v` - 1 bytes go under its key; outside it (`bus.v` 0) they are ciphertext (R348). Dies may read around a host write until
they acquire it at system scope (R288, R295). While the device is offline its memory answers nothing (R368). Poison is answered by its code 11 in `bus.nums`, with no data (R352). The host's access takes the line back from the bellwether (R296). -/
def execCxlMemAccess (s : State) : Out :=
  let b := s.bus
  let key := if b.v = 0 then 0 else s.keyOf (b.v.toNat - 1)
  let now := (List.range b.b).map (fun i => s.physByte { key := key } (b.c + i))
  let put := fun (s : State) (bs : List Byte) =>
    let s := s.physWrite (some { core := 1024 }) key (bs.zipIdx.map (fun x => (b.c + x.2, x.1)))
    ({ s with hostLines := s.hostLines.filter (fun l => !(linesOf b.c bs.length).contains l) } : State)
  let bad := poisonAt s.poison b.c b.b
  if s.offline && !paHost b.c then .next s
  else if bad && (b.a = 0 || b.a = 2) then .next { s.ueMet (paDie b.c) with bus := { b with data := [], nums := [11] } }
  else if b.a = 0 then .next { s with bus := { b with data := now } }
  else if b.a = 2 then .next { put s (hostAdd now b.w.toNat) with bus := { b with data := now } }
  else .next (put s b.data)

/-- CXL_CACHE_LINE_LOSS: the host takes back line `bus.a`, and the waiters of the die whose bellwether held it are checked again (R296). -/
def execCxlCacheLineLoss (s : State) : Out :=
  let s := { s with hostLines := s.hostLines.filter (· != s.bus.a) }
  let rows := (List.range 4).flatMap (fun d => ((List.range (s.die d).waits.length).reverse).map (fun i => Turn.ev (.awaitRecheck d i) {}))
  .next { s with todo := s.todo ++ rows }

end Sys2Proof.Machine
end

