-- ==== Sys2Proof/Machine/Pod.lean ====
section
/-! DEFINITION. Flock links and pods (R362 to R366): flits, flushes, pod barriers, and the pod's register. The spec gives flits no
contents beyond their CRC: a flit is a list of numbers, the link, the kind, and what the kind needs (log 31). -/

namespace Sys2Proof.Machine

open Sys2Proof

/-! ### Accesses by other members (R365) -/

/-- Another member's engines as an agent for a context with a tag: a core above the host's number (R364). -/
def memberAgent (m tag : Nat) : Agent := { core := 1025 + m, tag := tag }

/-- Does an export window of a tag hold some bytes of this package's memory, for writing too where asked (R365)? -/
def State.exported (s : State) (tag ofs n : Nat) (write : Bool) : Bool :=
  (List.range 16).any (fun i =>
    let x := fun (j : Nat) => (s.svc.expwin.toList.getD (3 * i + j) 0)
    bitAt (x 2).toNat 63 && bitsOf (x 2) 15 0 = tag && (!write || bitAt (x 2).toNat 62)
      && bitsOf (x 0) 39 12 * 4096 ≤ ofs && ofs + n ≤ bitsOf (x 1) 39 12 * 4096)

/-- Bytes as another member gets them: what is stored, so ciphertext where a key holds them (R348, R365). -/
def State.peerBytes (s : State) (ofs n : Nat) : List Byte := (List.range n).map (fun i => s.physByte {} (ofs + i))

/-- An access by another member (R365): a read, a write, or an atomic, performed inside a window of its tag, else answered with PERMISSION
and its detail; the answer names its number, code and detail. Poison is answered by its code (R352). -/
def State.peerAccess (s : State) (kind member id tag ofs : Nat) (rest : List Nat) : State :=
  let reply := fun (s : State) (code detail : Nat) (data : List Nat) =>
    s.sendFlit ([s.linkTo member, flReply, member, id, code, detail] ++ data)
  let write := fun (bs : List Byte) => s.physWrite (some (memberAgent member tag)) 0 (bs.zipIdx.map (fun x => (ofs + x.2, x.1)))
  if kind = flRead then
    let n := rest.headD 0
    if !s.exported tag ofs n false then reply s 2 0 []
    else if poisonAt s.poison ofs n then reply (s.ueMet (paDie ofs)) 11 0 []
    else reply s 0 0 ((s.peerBytes ofs n).map (·.toNat))
  else if kind = flWrite then
    if s.exported tag ofs rest.length true then reply (write (rest.map (BitVec.ofNat 8))) 0 0 [] else reply s 2 1 []
  else match rest with
    | [op, sub, a, b] =>
      let o : F6 := { sub := Fin.ofNat 256 sub }
      let n := atomBytes o.sub.val
      if ofs % n != 0 then reply s 3 2 []
      else if !s.exported tag ofs n true then reply s 2 2 []
      else if poisonAt s.poison ofs n then reply (s.ueMet (paDie ofs)) 11 0 []
      else
        let m : Cmd := { id := id, word := (bellWord op o).getD (.aadd {} o), o := o, a := BitVec.ofNat 64 a, b := BitVec.ofNat 64 b }
        let old := leNat (s.peerBytes ofs n)
        let (new, fl) := atomNew m old
        let s := s.countDie (paDie ofs) 7 1
        reply (if op = 0x28 then s else s.physWrite (some (memberAgent member tag)) 0 ((leBytes n new).zipIdx.map (fun x => (ofs + x.2, x.1))))
          0 fl.toNat [old]
    | _ => s

/-! ### Flits (R362, log 31) -/

/-- A flush of member `m` with number `id` and a tag has come in on a link, behind every flit that came there before it (R364): the
writes of members that came on that link are its own to wait for. Once a copy has come on every link in use, the member's writes under
the tag are released to the pod. -/
def State.flushArrives (s : State) (link m id tag : Nat) : State :=
  let same := fun (f : Nat × Nat × Nat × List Nat) => decide (f.1 = m) && decide (f.2.1 = id)
  let ls := link :: ((s.svc.flushIn.find? same).map (·.2.2.2)).getD []
  let all := s.links.all (fun l => ls.contains l)
  let mark := fun (e : ViewWrite) =>
    if 1024 < e.agent.core && s.linkTo (e.agent.core - 1025) = link && !e.flush.contains (m, id) then { e with flush := (m, id) :: e.flush } else e
  let free := fun (e : ViewWrite) =>
    let r := (5, memberAgent m tag)
    if all && e.agent = memberAgent m tag && !e.rel.contains r then { e with rel := r :: e.rel } else e
  { s with
    svc := { s.svc with flushIn := s.svc.flushIn.filter (fun f => !same f) ++ [(m, id, tag, ls)] }
    dies := s.dies.map (fun d => { d with remote := d.remote.map (fun e => free (mark e)) }) }

/-- A count message as a flit's numbers have it: the kind, the key, 1 for a withdrawal, how many arrivals, the number they name, the
member, and the arrivals' numbers (R366, log 31). -/
def CountMsg.ofNums (f : List Nat) : CountMsg :=
  { key := f.getD 1 0, back := decide (f.getD 2 0 = 1)
    arrs := (List.range (f.getD 3 0)).map (fun i => { member := f.getD 5 0, id := f.getD (6 + i) i, num := f.getD 4 0 }) }

def CountMsg.nums (c : CountMsg) (member : Nat) : List Nat :=
  [flCount, c.key, (if c.back then 1 else 0), c.arrs.length, (c.arrs.head?.map (·.num)).getD 0, member] ++ c.arrs.map (·.id)

/-- Deliver the contents of a good flit of a link: its kind and what the kind needs. -/
def State.deliverFlit (s : State) (link : Nat) (f : List Nat) : State :=
  let n := fun (i : Nat) => f.getD i 0
  let k := n 0
  if k = flFlush then s.flushArrives link (n 1) (n 2) (n 3)
  else if k = flAnswer then
    match Tab.find s.svc.flush (n 2) with
    | none => s
    | some x => { s with svc := { s.svc with flush := Tab.put s.svc.flush (n 2) { x with left := x.left.filter (· != n 1) } } }
  else if k = flCount then { s with todo := s.todo ++ [.ev .podCountMessage { nums := f }] }
  else if k = flRelease then { s with todo := s.todo ++ [.ev .podRelease { a := n 1, b := n 2 }] }
  else if k = flWrite || k = flRead || k = flAtomic then s.peerAccess k (n 1) (n 2) (n 3) (n 4 % 2 ^ 40) (f.drop 5)
  else if k = flReply then s.peerAnswer (n 2) (n 3) (n 4) (f.drop 5)
  else if k = flAgain then s.flitsAgain link (n 1)
  else s

/-- Is a flit of 64 bytes whose CRC-32C fits its payload (R362)? -/
def flitGood (bs : List Byte) : Bool := bs.length = 64 && leNat (bs.drop 60) = crc32c (bs.take 60)

/-- FLIT_RECEIVE: flit number `bus.b` of link `bus.a` arrives; `bus.data` are its bytes. A bad one is asked for again, one that has been
delivered is not delivered twice, and the next in order is delivered (R362). A link that is not trained carries none (R368). -/
def execFlitReceive (s : State) : Out :=
  let b := s.bus
  let want := (Tab.find s.svc.flitNext b.a).getD 0
  if 16 ≤ b.a || s.svc.boot < 7 then .next s
  else if !flitGood b.data || want < b.b then
    .next ({ s with svc := { s.svc with resend := s.svc.resend ++ [b.a] } }.sendFlit [b.a, flAgain, want])
  else if b.b < want then .next s
  else .next ({ s with svc := { s.svc with flitNext := Tab.put s.svc.flitNext b.a (want + 1) } }.deliverFlit b.a (Config.flitNums (b.data.take 60)))

/-! ### Flushes (R364) -/

/-- Is every write that arrived before a flush of a member applied at all four dies (R364)? -/
def State.outsideApplied (s : State) (m id : Nat) : Bool := s.dies.toList.all (fun d => d.remote.all (fun e => !e.flush.contains (m, id)))

/-- Does a context act under a pod tag? -/
def State.hasTag (s : State) (tag : Nat) : Bool := s.ctxs.any (fun x => x.2.en && bitsOf x.2.w[7] 15 0 = tag)

/-- POD_FLUSH: the oldest flush of another member that has come on every link in use and may be answered is, once: at once where no
context has the tag, else when the writes that arrived before it are applied (R364). -/
def execPodFlush (s : State) : Out :=
  let may := fun (f : Nat × Nat × Nat × List Nat) =>
    s.links.all (fun l => f.2.2.2.contains l) && (!s.hasTag f.2.2.1 || s.outsideApplied f.1 f.2.1)
  match s.svc.flushIn.find? may with
  | none => .next s
  | some f => .next ({ s with svc := { s.svc with flushIn := s.svc.flushIn.erase f } }.sendFlit [s.linkTo f.1, flAnswer, s.member, f.2.1])

/-! ### Pod barriers (R366) -/

/-- Beats of a gathering window: 64 drove cycles. -/
def gatherBeats : Nat := 128

/-- A count message of this package leaves for the switch. -/
def State.sendCount (s : State) (c : CountMsg) : State :=
  if c.arrs = [] then s
  else
    let s := s.sendFlit (s.links.headD 0 :: c.nums s.member)
    { s with svc := { s.svc with countOut := s.svc.countOut ++ [c] } }

/-- COUNT_MESSAGE_SEND: at the end of a window the die-0 bellwether sends what it has gathered, for each barrier one message of its
arrivals and a negative one of what a freeze has withdrawn (R366). -/
def execCountMessageSend (s : State) : Out :=
  if s.time % gatherBeats != 0 then .next s
  else
    let s' := s.svc.gather.foldl (fun s x =>
      (s.sendCount { key := x.1, arrs := x.2.1 }).sendCount { key := x.1, back := true, arrs := x.2.2 }) s
    .next { s' with svc := { s'.svc with gather := [] } }

/-- Does an arrival name another number than its generation's first? Its package posts the event (R181, R366). -/
def State.podOdd (s : State) (key exp : Nat) (a : PodArr) : State :=
  if a.num = exp || a.member != s.member then s
  else s.postEvent a.ctx 0x04 a.pid a.rel a.die [BitVec.ofNat 64 (key % 256), 5, BitVec.ofNat 64 exp, BitVec.ofNat 64 a.num]

/-- The switch applies a count message to the counter of its barrier (R366): a negative one takes out the arrivals that are still counted,
and so leaves a released generation alone; at the expected number, which the generation's first arrival names, the release goes out and
frees the counter. It waits where every counter is in use. -/
def State.podCount (s : State) (c : CountMsg) : Option State :=
  let bars := s.svc.podBars
  let put := fun (s : State) (b : List PodArr × Nat) =>
    if b.2 ≤ b.1.length then
      let s := { s with svc := { s.svc with podBars := Tab.del s.svc.podBars c.key } }
      let own := (b.1.filter (fun a => a.member = s.member)).map (·.id)
      if own != [] then { s with todo := s.todo ++ [.ev .podRelease { a := c.key / 256, b := c.key % 256, nums := own }] } else s
    else { s with svc := { s.svc with podBars := Tab.put s.svc.podBars c.key b } }
  match Tab.find bars c.key, c.back with
  | none, true => some s
  | some (as_, e), true =>
    let left := as_.filter (fun a => !c.arrs.any (fun x => x.member = a.member && x.id = a.id))
    some { s with svc := { s.svc with podBars := Tab.put bars c.key (left, e) } }
  | none, false =>
    if 4096 ≤ bars.length then none
    else
      let e := (c.arrs.head?.map (·.num)).getD 1
      some (put (c.arrs.foldl (fun s a => s.podOdd c.key e a) s) (c.arrs, e))
  | some (as_, e), false => some (put (c.arrs.foldl (fun s a => s.podOdd c.key e a) s) (as_ ++ c.arrs, e))

/-- POD_COUNT_MESSAGE: the message in `bus.nums` comes to the switch from another member, or the oldest that can be applied is,
those for one barrier in their order (R296, R366). -/
def execPodCountMessage (s : State) : Out :=
  if s.bus.nums != [] then .next { s with svc := { s.svc with countOut := s.svc.countOut ++ [CountMsg.ofNums s.bus.nums] } }
  else match s.svc.countOut.zipIdx.findIdx? (fun c => (s.podCount c.1).isSome && (s.svc.countOut.take c.2).all (fun x => x.key != c.1.key)) with
    | none => .next s
    | some i => .next (match s.podCount (s.svc.countOut.getD i { key := 0 }) with
      | some t => { t with svc := { t.svc with countOut := t.svc.countOut.eraseIdx i } }
      | none => s)

/-- POD_RELEASE: the release of barrier `bus.b` under tag `bus.a` reaches the package: its die-0 bellwether releases the cores that wait.
`bus.nums` are the package's arrivals that were counted: one that a freeze has withdrawn since is released with them (R366). -/
def execPodRelease (s : State) : Out :=
  let key := s.bus.a * 256 + s.bus.b
  let b := (Tab.find (s.die 0).bars key).getD {}
  let late := (s.pens.flatMap (·.syncs)).filter (fun m => s.bus.nums.contains m.id && !b.waiting.any (fun x => x.id = m.id))
  let s := if b.count = 0 then s else s.barRelease 0 key
  .next (late.foldl (fun s m =>
    let s : State := { s with dies := s.dies.map (fun (x : Die) => x.withdrawWait m.id) }
    ((s.modCore m.core (fun k => { k with out := k.out.filter (fun x => x.id != m.id) })).acq m).syncEnd m) s)

/-- PODCFG_WRITE: ignored while a context is enabled (R363), and where the driver is not heard (R358, R367). -/
def execPodcfgWrite (s : State) : Out :=
  .next (if s.offline || s.ctxs.any (fun x => x.2.en) then s
    else { s with svc := { s.svc with podcfg := s.bus.v &&& 0x800003FF03FFFFFF } })

end Sys2Proof.Machine
end

