-- ==== Sys2Proof/Machine/Beat.lean ====
section
/-! DEFINITION. One beat of the part: what time alone does, and the rows that then take their turn (log 7); and how the next row
is fetched. -/

namespace Sys2Proof.Machine

open Sys2Proof

/-! ### What time does -/

/-- A result comes one pen beat nearer (R43). -/
def Flight.near (f : Flight) : Flight := { f with remain := f.remain - 1 }

/-- The earliest response to a load comes nearer on every beat; a load that is waited for uses up its extension
(R43, R55, R128). -/
def Flight.wait (held : Bool) (f : Flight) : Flight :=
  { f with load := f.load.map (fun l => { l with resp := l.resp - 1, ext := if held && f.late then l.ext + 1 else l.ext }) }

/-- A core one beat later: `ran` on a pen beat, `held` while the pen waits for a late load. -/
def Core.tick (ran held : Bool) (k : Core) : Core :=
  { k with
    flights := k.flights.map (fun f => Flight.wait held (if ran then f.near else f))
    busy := k.busy - 1
    recomp := k.recomp.map (fun (r : Nat × Flight) => (r.1 - 1, r.2)) }

/-- Do results of a pen come nearer on this beat: it ran on the last one, or it drains for a swap (R333)? -/
def Pen.flows (p : Pen) : Bool := p.ran || (p.swap.isSome && !p.inTick && decide (p.frozen = .running))

/-- The slot after the one that has ended (R42). -/
def Pen.nextSlot (p : Pen) : Pen :=
  if p.slot + 1 < p.n then { p with started := false, ran := false, slot := p.slot + 1 }
  else { p with started := false, ran := false, slot := 0, it := p.it + 1 }

/-- A pen one beat later: its slot goes on or ends, its rewind runs down. A beat that was held inside a slot is tried again (R48). -/
def Pen.tickOn (p : Pen) : Pen :=
  let p := { p with rewind := if 1 < p.rewind then p.rewind - 1 else p.rewind, ckpt := p.ckpt - 1 }
  if !p.started then { p with ran := false }
  else if p.hold.isSome then { p with hold := none, ran := true }
  else if p.beat + 1 < p.lens.getD p.slot 1 then { p with beat := p.beat + 1, ran := true }
  else p.nextSlot

/-- One pen and its cores one beat later. -/
def State.beatPen (s : State) (h : Nat) : State :=
  let p := s.pen h
  if !p.live || p.ended || p.frozen = .cast then s
  else
    (s.modCores p.cores (Core.tick p.flows (p.hold = some .restart))).modPen h Pen.tickOn

/-! ### The rows of a beat -/

/-- Rows of a pen, in order: results first (R43), then the next slot or later chunks (R40, R48), the end of a rewind, after which the
restart slot may start on the next beat (R54), and what concerns the pen's end. -/
def State.penRows (s : State) (h : Nat) : List Turn :=
  let p := s.pen h
  if !p.live || p.ended || p.frozen = .cast then []
  else
    let ev := fun (i : Instr) => Turn.ev i {}
    let rs := p.cores.filter (fun c => match (s.core c).recomp with
      | some (0, _) => true
      | _ => false)
    let fs := p.cores.filter (fun c => (s.core c).flights.any (fun f => f.remain = 0))
    rs.map (fun c => ev (.recompactionEnd c))
      ++ fs.map (fun c => ev (.resultReady c))
      ++ (if 0 < p.shift && fs != [] then [ev (.restartHoldExpiry h)] else [])
      ++ [ev (.slotStart h)]
      ++ (if p.started then
          [Col.v, .m, .x].flatMap (fun col => (p.cores.filter (fun c => (s.core c).streams.any (fun t => t.col = col))).map (fun c =>
            ev (.chunkIssue c col)))
        else [])
      ++ (if p.rewind = 1 then [ev (.rewindResume h)] else [])
      ++ (if p.swap.isSome then [ev (.planeFlip h)] else [])
      ++ (if p.finRec.isSome then [ev (.finRecord h), ev (.penEnd h)] else [])

/-- Rows whose timing the spec fixes: drove stages, the shepherd's entries, windows of pod messages (R262, R323, R366). -/
def State.fixedRows (s : State) : List Turn :=
  let ev := fun (i : Instr) => Turn.ev i {}
  let chains := (List.range 4).flatMap (fun d => (List.range 4).flatMap (fun ch =>
    let c := s.chain d ch
    (if c.exits != [] || c.recs.any (fun r => r.stage = 12) then [ev (.droveExit d ch)] else [])
      ++ ((List.range 12).reverse.filter (fun st => c.recs.any (fun r => r.stage = st))).map (fun st => ev (.droveStage d ch st))
      ++ (if c.waiting != [] || c.recirc != [] then [ev (.droveAccept d ch)] else [])
      ++ (if c.commit.isSome then [ev (.dcommitDrained d ch)] else [])))
  let entries := s.entries.zipIdx.flatMap (fun x =>
    if x.1.phase = 50 then [ev (.preemptRestore x.2)]
    else match opcRow (bitsOf (x.1.word 0) 63 56) with
      | some i => [Turn.ev i { a := x.1.qid, b := x.1.seq }]
      | none => [])
  chains ++ entries
    ++ (if s.svc.gather != [] then [ev .countMessageSend] else [])

/-- Rows of the engines of a die that may act now. -/
def State.dieRows (s : State) (d : Nat) : List Instr :=
  let x := s.die d
  let waits := (List.range x.waits.length).reverse
  ((List.range 16).filter (fun e => x.ladle.toList.getD e [] != [])).map (fun e => .ladleExecute d e)
    ++ (if x.bell != [] then [.bellwetherOp d] else [])
    ++ waits.flatMap (fun n => [.awaitTimeout d n, .awaitRecheck d n])
    ++ (if x.arrivals != [] then [.barrierCount d] else [])
    ++ ((List.range 4).filter (fun ch => (s.chain d ch).ops != [])).map (fun ch => .droveTableOp d ch)
    ++ (if x.loader != [] then [.configLoad d] else [])
    ++ (if x.remote != [] || s.late != [] then [.remoteWriteApply d] else [])
    ++ ((List.range 32).filter (fun i => x.changing.toList.getD i false)).map (fun i => .levelChangeDone d i)

/-- Rows of a pen's demand unit that may act now. -/
def State.duRows (s : State) (h : Nat) : List Instr :=
  let p := s.pen h
  if !p.live || p.ended || p.frozen = .cast then []
  else
    (if p.du.inbox != [] then [.demandUnitCommand h] else [])
      ++ (if p.frozen = .running then p.du.outs else []).zipIdx.flatMap (fun x =>
        (if x.1.net != [] then [.demandRequest h x.2] else []) ++ (if x.1.queue != [] then [.outputDelivery h x.2] else []))

/-- Rows whose timing the spec bounds and does not fix (R208, R235, R287, R291, R296); each may act on this beat or not (log 4). -/
def State.freeRows (s : State) : List Instr :=
  (s.cores.filter (fun x => x.2.out != [])).map (fun x => .engineAccept x.1)
    ++ (List.range 4).flatMap s.dieRows
    ++ (List.range s.pens.length).flatMap s.duRows
    ++ (s.edges.zipIdx.filter (fun (x : Edge × Nat) => x.1.flight.any (· != []) && (s.pen x.1.dst).frozen != .cast)).map (fun x => .tokenArrival x.2)
    ++ s.mesh.map (fun m => .remoteAccessArrive m.src m.dst)
    ++ s.resps.map (fun m => .loadResponse m.src)
    ++ (((s.dones.filter (fun d => d.cmd.host.isNone)).map (fun d => (d.cmd.core, d.cmd.o.cp.val))).eraseDups).map (fun x =>
        .completionTokenDelivery x.1 x.2)
    ++ (if s.invs != [] then [.invalComplete] else [])
    ++ (if 5 ≤ s.svc.boot then (s.ctxs.filter (fun x => x.2.quar)).map (fun x => .scrubComplete x.1) else [])
    ++ (if s.svc.countOut != [] then [.podCountMessage] else [])
    ++ (if s.svc.flushIn != [] then [.podFlush] else [])
    ++ (if s.svc.boot < 8 then [.bringupStep] else [])

/-- Those of some rows that act on this beat. -/
def State.chosenRows (s : State) (is : List Instr) : List Turn :=
  (is.zipIdx.filter (fun x => Config.choice (s.fresh + x.2))).map (fun x => Turn.ev x.1 {})

/-- The events from outside whose time has come. -/
def State.dueInputs (s : State) : List Turn := (s.inputs.filter (fun x => x.1 ≤ s.time)).map (fun x => Turn.ev x.2.1 x.2.2)

/-- Pens in ascending PID order: held beats that meet at one place of the stall hash count in it (R315), and `fin` records (R372). -/
def State.byPid (s : State) : List Nat :=
  (List.range s.pens.length).foldl (fun l h => (l.filter (fun g => (s.pen g).pid.toNat ≤ (s.pen h).pid.toNat)) ++ h ::
    l.filter (fun g => !decide ((s.pen g).pid.toNat ≤ (s.pen h).pid.toNat))) []

/-- Is a row the write of a queue's descriptor? The shepherd's choice on its beat goes before it (R336). -/
def Turn.setsQueue : Turn → Bool
  | .ev .queueDescWrite _ => true
  | _ => false

/-- The next beat: time goes on, and the beat's rows are drawn up (log 7). -/
def State.beat (s : State) : State :=
  let s := ({ s with time := s.time + 1 } : State).lookQueues
  let s := (List.range s.pens.length).foldl State.beatPen s
  let free := s.freeRows
  let ins := s.dueInputs
  let take : List Turn := if s.time % 64 = 0 && s.queues != [] then [.ev .shepherdTake {}] else []
  let (first, last) := if ins.any Turn.setsQueue then (take, []) else ([], take)
  { s with
    todo := ins.takeWhile (fun t => !t.setsQueue) ++ first ++ ins.dropWhile (fun t => !t.setsQueue)
      ++ s.byPid.flatMap s.penRows ++ s.chosenRows free ++ s.fixedRows ++ last
    inputs := s.inputs.filter (fun x => s.time < x.1)
    fresh := s.fresh + free.length }

/-! ### Fetching the next row -/

/-- What the next row is: a slot word or a step with the state it runs in, the end of the beat, or a word no loader accepts. -/
inductive Fetched
  | row (i : Instr) (s : State)
  | idle
  | bad (reason : Nat)
deriving DecidableEq, Repr, Inhabited

/-- The live word of a core's column in the slot its pen stands at (R38, R80). -/
def State.liveWord (s : State) (c : Nat) (col : Col) : SlotWord := Plane.word (s.core c).live col (s.pen (s.penOf c)).slot

/-- Fetch the next row: of a slot word, the instruction its bits decode to in its column (R80, R82). -/
def State.fetch (s : State) : Fetched :=
  match s.todo with
  | [] => .idle
  | .word c col :: rest =>
    match decode col (s.liveWord c col) with
    | .ok i => .row i { s with todo := rest, cur := { core := c, col := col, slot := (s.pen (s.penOf c)).slot, it := (s.pen (s.penOf c)).it } }
    | .reject r => .bad r
  | .ev i b :: rest => .row i { s with todo := rest, bus := b }

/-- A pen of one core, core 0 of the package, whose one slot holds a word in a column; the word is the next row. -/
def State.placeWord (s : State) (col : Col) (w : SlotWord) : State :=
  let pl : Plane := if w = 0 then [] else [(32 * colCode col, w)]
  let p : Pen := { live := true, lens := [wordLen w], inTick := true, started := true, ran := true }
  { s with
    pens := [p]
    cores := Tab.put s.cores 0 { s.core 0 with live := pl }
    todo := [.word 0 col] }

end Sys2Proof.Machine
end

