-- ==== Sys2Proof/Machine/Dispatch.lean ====
section
/-! DEFINITION. What each instruction does: one arm per constructor, each a direct call of its meaning. -/

namespace Sys2Proof.Machine

open Sys2Proof

def exec (i : Instr) (s : State) : Host.Outcome State Fault Refusal :=
  match i with
  | .nop c h => Sys2Proof.Machine.execNop c h s
  | .add h d a b sat => Sys2Proof.Machine.execAdd h d a b sat s
  | .sub h d a b sat => Sys2Proof.Machine.execSub h d a b sat s
  | .mul h d a b sat => Sys2Proof.Machine.execMul h d a b sat s
  | .mulh h d a b => Sys2Proof.Machine.execMulh h d a b s
  | .mulhz h d a b => Sys2Proof.Machine.execMulhz h d a b s
  | .div h d a b => Sys2Proof.Machine.execDiv h d a b s
  | .divz h d a b => Sys2Proof.Machine.execDivz h d a b s
  | .rem h d a b => Sys2Proof.Machine.execRem h d a b s
  | .remz h d a b => Sys2Proof.Machine.execRemz h d a b s
  | .and h d a b => Sys2Proof.Machine.execAnd h d a b s
  | .or h d a b => Sys2Proof.Machine.execOr h d a b s
  | .xor h d a b => Sys2Proof.Machine.execXor h d a b s
  | .andn h d a b => Sys2Proof.Machine.execAndn h d a b s
  | .shl h d a b => Sys2Proof.Machine.execShl h d a b s
  | .shr h d a b => Sys2Proof.Machine.execShr h d a b s
  | .sra h d a b => Sys2Proof.Machine.execSra h d a b s
  | .rotl h d a b => Sys2Proof.Machine.execRotl h d a b s
  | .min h d a b => Sys2Proof.Machine.execMin h d a b s
  | .max h d a b => Sys2Proof.Machine.execMax h d a b s
  | .minz h d a b => Sys2Proof.Machine.execMinz h d a b s
  | .maxz h d a b => Sys2Proof.Machine.execMaxz h d a b s
  | .clz h d a => Sys2Proof.Machine.execClz h d a s
  | .ctz h d a => Sys2Proof.Machine.execCtz h d a s
  | .popc h d a => Sys2Proof.Machine.execPopc h d a s
  | .bext h d a b => Sys2Proof.Machine.execBext h d a b s
  | .bins h d a b c => Sys2Proof.Machine.execBins h d a b c s
  | .sel h d a b qc => Sys2Proof.Machine.execSel h d a b qc s
  | .cmp h cc qd a b => Sys2Proof.Machine.execCmp h cc qd a b s
  | .sext h ty d a => Sys2Proof.Machine.execSext h ty d a s
  | .mad h d a b c sat => Sys2Proof.Machine.execMad h d a b c sat s
  | .addsh h d a b k => Sys2Proof.Machine.execAddsh h d a b k s
  | .addi h d a imm => Sys2Proof.Machine.execAddi h d a imm s
  | .muli h d a imm => Sys2Proof.Machine.execMuli h d a imm s
  | .andi h d a imm => Sys2Proof.Machine.execAndi h d a imm s
  | .ori h d a imm => Sys2Proof.Machine.execOri h d a imm s
  | .xori h d a imm => Sys2Proof.Machine.execXori h d a imm s
  | .shli h d a imm => Sys2Proof.Machine.execShli h d a imm s
  | .shri h d a imm => Sys2Proof.Machine.execShri h d a imm s
  | .srai h d a imm => Sys2Proof.Machine.execSrai h d a imm s
  | .cmpi h cc qd a imm => Sys2Proof.Machine.execCmpi h cc qd a imm s
  | .mini h d a imm => Sys2Proof.Machine.execMini h d a imm s
  | .maxi h d a imm => Sys2Proof.Machine.execMaxi h d a imm s
  | .li h d imm => Sys2Proof.Machine.execLi h d imm s
  | .lih h d a imm => Sys2Proof.Machine.execLih h d a imm s
  | .lil h d imm => Sys2Proof.Machine.execLil h d imm s
  | .qand h d a b => Sys2Proof.Machine.execQand h d a b s
  | .qor h d a b => Sys2Proof.Machine.execQor h d a b s
  | .qxor h d a b => Sys2Proof.Machine.execQxor h d a b s
  | .qandn h d a b => Sys2Proof.Machine.execQandn h d a b s
  | .qnot h d a => Sys2Proof.Machine.execQnot h d a s
  | .qsetRange h d a b => Sys2Proof.Machine.execQsetRange h d a b s
  | .qsetWord h d a b => Sys2Proof.Machine.execQsetWord h d a b s
  | .qget h d a w => Sys2Proof.Machine.execQget h d a w s
  | .qfirst h d a => Sys2Proof.Machine.execQfirst h d a s
  | .lea h ty d br x ofs => Sys2Proof.Machine.execLea h ty d br x ofs s
  | .bld h d a idx lb => Sys2Proof.Machine.execBld h d a idx lb s
  | .bset h d w a => Sys2Proof.Machine.execBset h d w a s
  | .bget h d a w => Sys2Proof.Machine.execBget h d a w s
  | .mfc h d csr => Sys2Proof.Machine.execMfc h d csr s
  | .mtc h csr a => Sys2Proof.Machine.execMtc h csr a s
  | .rgnin h id => Sys2Proof.Machine.execRgnin h id s
  | .rgnout h => Sys2Proof.Machine.execRgnout h s
  | .trap h code a => Sys2Proof.Machine.execTrap h code a s
  | .brk h code => Sys2Proof.Machine.execBrk h code s
  | .fin h code => Sys2Proof.Machine.execFin h code s
  | .vadd h o => Sys2Proof.Machine.execVadd h o s
  | .vsub h o => Sys2Proof.Machine.execVsub h o s
  | .vmul h o => Sys2Proof.Machine.execVmul h o s
  | .vfma h o => Sys2Proof.Machine.execVfma h o s
  | .vfms h o => Sys2Proof.Machine.execVfms h o s
  | .vfnma h o => Sys2Proof.Machine.execVfnma h o s
  | .vmin h o => Sys2Proof.Machine.execVmin h o s
  | .vmax h o => Sys2Proof.Machine.execVmax h o s
  | .vabs h o => Sys2Proof.Machine.execVabs h o s
  | .vneg h o => Sys2Proof.Machine.execVneg h o s
  | .vrcp h o => Sys2Proof.Machine.execVrcp h o s
  | .vrsq h o => Sys2Proof.Machine.execVrsq h o s
  | .vrcps h o => Sys2Proof.Machine.execVrcps h o s
  | .vrsqs h o => Sys2Proof.Machine.execVrsqs h o s
  | .vexp2 h o => Sys2Proof.Machine.execVexp2 h o s
  | .vlog2 h o => Sys2Proof.Machine.execVlog2 h o s
  | .vscale h o => Sys2Proof.Machine.execVscale h o s
  | .vfrexpFrac h d a ty => Sys2Proof.Machine.execVfrexpFrac h d a ty s
  | .vfrexpExp h d a ty => Sys2Proof.Machine.execVfrexpExp h d a ty s
  | .vround h d a ty rm => Sys2Proof.Machine.execVround h d a ty rm s
  | .vcvt h d a td ts c rm sat => Sys2Proof.Machine.execVcvt h d a td ts c rm sat s
  | .vcmp h cc qd a b ty => Sys2Proof.Machine.execVcmp h cc qd a b ty s
  | .vsel h o qc => Sys2Proof.Machine.execVsel h o qc s
  | .vand h o => Sys2Proof.Machine.execVand h o s
  | .vor h o => Sys2Proof.Machine.execVor h o s
  | .vxor h o => Sys2Proof.Machine.execVxor h o s
  | .vshl h o => Sys2Proof.Machine.execVshl h o s
  | .vshr h o => Sys2Proof.Machine.execVshr h o s
  | .vsra h o => Sys2Proof.Machine.execVsra h o s
  | .vclamp h o c => Sys2Proof.Machine.execVclamp h o c s
  | .vdot h o c => Sys2Proof.Machine.execVdot h o c s
  | .vred h op d a ty rm sat => Sys2Proof.Machine.execVred h op d a ty rm sat s
  | .vscan h op d a ty rm sat => Sys2Proof.Machine.execVscan h op d a ty rm sat s
  | .vmred h op d a b qc ty rm sat => Sys2Proof.Machine.execVmred h op d a b qc ty rm sat s
  | .vtopk h d a ty km1 val => Sys2Proof.Machine.execVtopk h d a ty km1 val s
  | .vqcnt h d a ty => Sys2Proof.Machine.execVqcnt h d a ty s
  | .vperm h d a b ty => Sys2Proof.Machine.execVperm h d a b ty s
  | .vbcastElem h d a b ty => Sys2Proof.Machine.execVbcastElem h d a b ty s
  | .vbcastScalar h d b ty => Sys2Proof.Machine.execVbcastScalar h d b ty s
  | .vslide h d a b ty n => Sys2Proof.Machine.execVslide h d a b ty n s
  | .vcompress h d a ty => Sys2Proof.Machine.execVcompress h d a ty s
  | .vexpand h d a ty => Sys2Proof.Machine.execVexpand h d a ty s
  | .vidx h d a ty => Sys2Proof.Machine.execVidx h d a ty s
  | .vmov h d a ty => Sys2Proof.Machine.execVmov h d a ty s
  | .vins h d a ty n => Sys2Proof.Machine.execVins h d a ty n s
  | .vext h d a ty n => Sys2Proof.Machine.execVext h d a ty n s
  | .vli h d ty imm => Sys2Proof.Machine.execVli h d ty imm s
  | .vld h d n => Sys2Proof.Machine.execVld h d n s
  | .vst h d n => Sys2Proof.Machine.execVst h d n s
  | .vgth h d n => Sys2Proof.Machine.execVgth h d n s
  | .vsct h d n => Sys2Proof.Machine.execVsct h d n s
  | .vhouse h d a c => Sys2Proof.Machine.execVhouse h d a c s
  | .vnorm h d a c ty rm sat t => Sys2Proof.Machine.execVnorm h d a c ty rm sat t s
  | .vpack h d a b td ts rm sat => Sys2Proof.Machine.execVpack h d a b td ts rm sat s
  | .vunpk h d a td ts hi rm sat => Sys2Proof.Machine.execVunpk h d a td ts hi rm sat s
  | .mma h o => Sys2Proof.Machine.execMma h o s
  | .mmat h o => Sys2Proof.Machine.execMmat h o s
  | .mzero h ad => Sys2Proof.Machine.execMzero h ad s
  | .mdrain h o => Sys2Proof.Machine.execMdrain h o s
  | .mld h ad n => Sys2Proof.Machine.execMld h ad n s
  | .mst h ad n => Sys2Proof.Machine.execMst h ad n s
  | .mmov h ad ga tacc xp => Sys2Proof.Machine.execMmov h ad ga tacc xp s
  | .madd h ad ga tacc => Sys2Proof.Machine.execMadd h ad ga tacc s
  | .mscl h ad ga sr => Sys2Proof.Machine.execMscl h ad ga sr s
  | .mrowmax h vr ga tacc => Sys2Proof.Machine.execMrowmax h vr ga tacc s
  | .mrowsum h vr ga tacc => Sys2Proof.Machine.execMrowsum h vr ga tacc s
  | .ginit h g a ty cap kbm1 => Sys2Proof.Machine.execGinit h g a ty cap kbm1 s
  | .gadv h g n => Sys2Proof.Machine.execGadv h g n s
  | .gpop h g n => Sys2Proof.Machine.execGpop h g n s
  | .gstat h d g => Sys2Proof.Machine.execGstat h d g s
  | .gfill h g p ty cnt => Sys2Proof.Machine.execGfill h g p ty cnt s
  | .oaclr h o => Sys2Proof.Machine.execOaclr h o s
  | .oaapp h o vr sr kt => Sys2Proof.Machine.execOaapp h o vr sr kt s
  | .oahh h o vr sr kt => Sys2Proof.Machine.execOahh h o vr sr kt s
  | .oaml h o ga xp => Sys2Proof.Machine.execOaml h o ga xp s
  | .oamr h o ga xp => Sys2Proof.Machine.execOamr h o ga xp s
  | .oamv h o vr xp => Sys2Proof.Machine.execOamv h o vr xp s
  | .oarc h o => Sys2Proof.Machine.execOarc h o s
  | .oastat h o sr => Sys2Proof.Machine.execOastat h o sr s
  | .oacfg h o sr => Sys2Proof.Machine.execOacfg h o sr s
  | .oaform h o ga xp => Sys2Proof.Machine.execOaform h o ga xp s
  | .oasave h o n => Sys2Proof.Machine.execOasave h o n s
  | .oaload h o n => Sys2Proof.Machine.execOaload h o n s
  | .recvS h d p ty => Sys2Proof.Machine.execRecvS h d p ty s
  | .recvV h d p ty cnt => Sys2Proof.Machine.execRecvV h d p ty cnt s
  | .recvQ h d p => Sys2Proof.Machine.execRecvQ h d p s
  | .sendS h p a ty tag => Sys2Proof.Machine.execSendS h p a ty tag s
  | .sendV h p a ty cnt tag => Sys2Proof.Machine.execSendV h p a ty cnt tag s
  | .peekS h d p ty => Sys2Proof.Machine.execPeekS h d p ty s
  | .peekQ h d p => Sys2Proof.Machine.execPeekQ h d p s
  | .sendq h p a tag => Sys2Proof.Machine.execSendq h p a tag s
  | .rxstat h d p => Sys2Proof.Machine.execRxstat h d p s
  | .drop h p cnt => Sys2Proof.Machine.execDrop h p cnt s
  | .ld h d n => Sys2Proof.Machine.execLd h d n s
  | .st h d n => Sys2Proof.Machine.execSt h d n s
  | .lcopy h o => Sys2Proof.Machine.execLcopy h o s
  | .lcopyShort h o => Sys2Proof.Machine.execLcopyShort h o s
  | .lgath h o => Sys2Proof.Machine.execLgath h o s
  | .lscat h o => Sys2Proof.Machine.execLscat h o s
  | .lwin h o => Sys2Proof.Machine.execLwin h o s
  | .lfill h o => Sys2Proof.Machine.execLfill h o s
  | .lprf h o => Sys2Proof.Machine.execLprf h o s
  | .lprfShort h o => Sys2Proof.Machine.execLprfShort h o s
  | .lexp h o => Sys2Proof.Machine.execLexp h o s
  | .limp h o => Sys2Proof.Machine.execLimp h o s
  | .aadd h o => Sys2Proof.Machine.execAadd h o s
  | .amin h o => Sys2Proof.Machine.execAmin h o s
  | .amax h o => Sys2Proof.Machine.execAmax h o s
  | .aand h o => Sys2Proof.Machine.execAand h o s
  | .aor h o => Sys2Proof.Machine.execAor h o s
  | .axor h o => Sys2Proof.Machine.execAxor h o s
  | .aswap h o => Sys2Proof.Machine.execAswap h o s
  | .acas h o => Sys2Proof.Machine.execAcas h o s
  | .ald h o => Sys2Proof.Machine.execAld h o s
  | .ast h o => Sys2Proof.Machine.execAst h o s
  | .awaitSync h o => Sys2Proof.Machine.execAwaitSync h o s
  | .awaitAsync h o => Sys2Proof.Machine.execAwaitAsync h o s
  | .apop h o => Sys2Proof.Machine.execApop h o s
  | .apush h o => Sys2Proof.Machine.execApush h o s
  | .bar h o => Sys2Proof.Machine.execBar h o s
  | .arrive h o => Sys2Proof.Machine.execArrive h o s
  | .bwait h o => Sys2Proof.Machine.execBwait h o s
  | .fenceSync h o => Sys2Proof.Machine.execFenceSync h o s
  | .fenceAsync h o => Sys2Proof.Machine.execFenceAsync h o s
  | .dsend h o => Sys2Proof.Machine.execDsend h o s
  | .dtw h o => Sys2Proof.Machine.execDtw h o s
  | .dtd h o => Sys2Proof.Machine.execDtd h o s
  | .dcommit h o => Sys2Proof.Machine.execDcommit h o s
  | .dtr h o => Sys2Proof.Machine.execDtr h o s
  | .dmd h o => Sys2Proof.Machine.execDmd h o s
  | .dabn h o => Sys2Proof.Machine.execDabn h o s
  | .dret h o => Sys2Proof.Machine.execDret h o s
  | .dstat h o => Sys2Proof.Machine.execDstat h o s
  | .ckpt h o => Sys2Proof.Machine.execCkpt h o s
  | .liter h o => Sys2Proof.Machine.execLiter h o s
  | .tlk h d a => Sys2Proof.Machine.execTlk h d a s
  | .tins h a b c => Sys2Proof.Machine.execTins h a b c s
  | .tinv h a => Sys2Proof.Machine.execTinv h a s
  | .tclr h => Sys2Proof.Machine.execTclr h s
  | .cfgld h o => Sys2Proof.Machine.execCfgld h o s
  | .swap h o => Sys2Proof.Machine.execSwap h o s
  | .trmark h imm a => Sys2Proof.Machine.execTrmark h imm a s
  | .slotStart p => Sys2Proof.Machine.execSlotStart p s
  | .chunkIssue c k => Sys2Proof.Machine.execChunkIssue c k s
  | .rewindResume p => Sys2Proof.Machine.execRewindResume p s
  | .restartHoldExpiry p => Sys2Proof.Machine.execRestartHoldExpiry p s
  | .resultReady c => Sys2Proof.Machine.execResultReady c s
  | .loadResponse c => Sys2Proof.Machine.execLoadResponse c s
  | .recompactionEnd c => Sys2Proof.Machine.execRecompactionEnd c s
  | .remoteAccessArrive src dst => Sys2Proof.Machine.execRemoteAccessArrive src dst s
  | .remoteWriteApply die => Sys2Proof.Machine.execRemoteWriteApply die s
  | .tokenArrival edge => Sys2Proof.Machine.execTokenArrival edge s
  | .engineAccept c => Sys2Proof.Machine.execEngineAccept c s
  | .ladleExecute die e => Sys2Proof.Machine.execLadleExecute die e s
  | .bellwetherOp die => Sys2Proof.Machine.execBellwetherOp die s
  | .awaitRecheck die n => Sys2Proof.Machine.execAwaitRecheck die n s
  | .awaitTimeout die n => Sys2Proof.Machine.execAwaitTimeout die n s
  | .barrierCount die => Sys2Proof.Machine.execBarrierCount die s
  | .demandUnitCommand p => Sys2Proof.Machine.execDemandUnitCommand p s
  | .demandRequest p out => Sys2Proof.Machine.execDemandRequest p out s
  | .outputDelivery p out => Sys2Proof.Machine.execOutputDelivery p out s
  | .droveAccept die ch => Sys2Proof.Machine.execDroveAccept die ch s
  | .droveStage die ch stage => Sys2Proof.Machine.execDroveStage die ch stage s
  | .droveExit die ch => Sys2Proof.Machine.execDroveExit die ch s
  | .droveTableOp die ch => Sys2Proof.Machine.execDroveTableOp die ch s
  | .dcommitDrained die ch => Sys2Proof.Machine.execDcommitDrained die ch s
  | .configLoad die => Sys2Proof.Machine.execConfigLoad die s
  | .planeFlip p => Sys2Proof.Machine.execPlaneFlip p s
  | .completionTokenDelivery c port => Sys2Proof.Machine.execCompletionTokenDelivery c port s
  | .finRecord p => Sys2Proof.Machine.execFinRecord p s
  | .penEnd p => Sys2Proof.Machine.execPenEnd p s
  | .preemptRestore n => Sys2Proof.Machine.execPreemptRestore n s
  | .scrubComplete ctx => Sys2Proof.Machine.execScrubComplete ctx s
  | .levelChangeDone die island => Sys2Proof.Machine.execLevelChangeDone die island s
  | .shepherdTake => Sys2Proof.Machine.execShepherdTake s
  | .launch => Sys2Proof.Machine.execLaunch s
  | .demand => Sys2Proof.Machine.execDemand s
  | .patch => Sys2Proof.Machine.execPatch s
  | .replay => Sys2Proof.Machine.execReplay s
  | .exportRec => Sys2Proof.Machine.execExportRec s
  | .importRec => Sys2Proof.Machine.execImportRec s
  | .freeze => Sys2Proof.Machine.execFreeze s
  | .thaw => Sys2Proof.Machine.execThaw s
  | .teardown => Sys2Proof.Machine.execTeardown s
  | .table => Sys2Proof.Machine.execTable s
  | .wait => Sys2Proof.Machine.execWait s
  | .signal => Sys2Proof.Machine.execSignal s
  | .podCountMessage => Sys2Proof.Machine.execPodCountMessage s
  | .podRelease => Sys2Proof.Machine.execPodRelease s
  | .podFlush => Sys2Proof.Machine.execPodFlush s
  | .qtailWrite => Sys2Proof.Machine.execQtailWrite s
  | .queueDescWrite => Sys2Proof.Machine.execQueueDescWrite s
  | .contextWrite => Sys2Proof.Machine.execContextWrite s
  | .keyInstall => Sys2Proof.Machine.execKeyInstall s
  | .inval => Sys2Proof.Machine.execInval s
  | .invalComplete => Sys2Proof.Machine.execInvalComplete s
  | .frptrWrite => Sys2Proof.Machine.execFrptrWrite s
  | .hbaseWrite => Sys2Proof.Machine.execHbaseWrite s
  | .podcfgWrite => Sys2Proof.Machine.execPodcfgWrite s
  | .bpctlWrite => Sys2Proof.Machine.execBpctlWrite s
  | .registerWrite => Sys2Proof.Machine.execRegisterWrite s
  | .patrolScrub => Sys2Proof.Machine.execPatrolScrub s
  | .powerSample => Sys2Proof.Machine.execPowerSample s
  | .alarmClassA => Sys2Proof.Machine.execAlarmClassA s
  | .alarmClassB => Sys2Proof.Machine.execAlarmClassB s
  | .coldReset => Sys2Proof.Machine.execColdReset s
  | .warmReset => Sys2Proof.Machine.execWarmReset s
  | .functionLevelReset => Sys2Proof.Machine.execFunctionLevelReset s
  | .bringupStep => Sys2Proof.Machine.execBringupStep s
  | .recoveryImageWrite => Sys2Proof.Machine.execRecoveryImageWrite s
  | .spdmMeasurements => Sys2Proof.Machine.execSpdmMeasurements s
  | .flitReceive => Sys2Proof.Machine.execFlitReceive s
  | .cxlMemAccess => Sys2Proof.Machine.execCxlMemAccess s
  | .cxlCacheLineLoss => Sys2Proof.Machine.execCxlCacheLineLoss s
  | .countMessageSend => Sys2Proof.Machine.execCountMessageSend s

end Sys2Proof.Machine
end

