-- ==== Sys2Proof/Machine/Step.lean ====
section
/-! DEFINITION. One step of the part: one row of the beat's agenda, or the passage to the next beat (log 7). -/

namespace Sys2Proof.Machine

open Sys2Proof

/-- The next row runs; where none is left the next beat comes. -/
def step (s : State) : Host.Outcome State Fault Refusal :=
  match s.fetch with
  | .row i t => exec i t
  | .idle => .next s.beat
  | .bad r => .fault (.rejectedWord r)

/-- `s` with a table word (log 6) where `step` fetches next: a slot word in the one slot of a pen on core 0, a step of the part as the
agenda's next row. It stands for the load of a program (log 5). -/
def State.withFetchWord (s : State) (_nbits w : Nat) : State :=
  match w / 2 ^ 80 % 256 with
  | 0 => s.placeWord .s (BitVec.ofNat 80 w)
  | 1 => s.placeWord .v (BitVec.ofNat 80 w)
  | 2 => s.placeWord .m (BitVec.ofNat 80 w)
  | 3 => s.placeWord .x (BitVec.ofNat 80 w)
  | 4 => match stepOfNumber (w % 65536) with
    | some i => { s with todo := [.ev i {}] }
    | none => s
  | _ => s

end Sys2Proof.Machine
end

