-- ==== Sys2Proof/Safety.lean ====
section
/-! DEFINITION. What a safe run is, and the invariant that claims about runs use. -/

namespace Sys2Proof.Machine

open Sys2Proof

/-- A run of `k` steps from a state is safe if none of them is a fault or a refusal. -/
def safeFor (k : Nat) (s : State) : Prop := ∃ t, Sys2Proof.core.run k s = .next t

/-- The memory of a state is in its canonical form: equal memories are equal data. -/
def State.MemCanonical (s : State) : Prop := s.mem.wf = true

/-- The part can do no more than wait: every pen's live words are ones the loader accepts (R83), so no step is a fault. -/
def State.LiveAccepted (s : State) : Prop :=
  ∀ c col, ∃ i, decode col (s.liveWord c col) = .ok i

end Sys2Proof.Machine
end

