-- ==== Sys2Proof/Certificates/Slice0/Vocabulary.lean ====
section
/-! DEFINITION. The words in which the statements say what a step does: the state after, what a word puts in flight, what it
leaves alone, and the tables of results that the spec gives, written apart from the meanings. -/

namespace Sys2Proof.Machine

open Sys2Proof

/-! ### What a step answers -/

/-- The step answers a next state, and that state has the property. -/
def After (o : Out) (P : State → Prop) : Prop := ∃ t, o = .next t ∧ P t

/-- Nothing but one core has changed: every other core, every pen, all of memory and everything else is as before. -/
structure OnlyCore (c : Nat) (s t : State) : Prop where
  others : ∀ d, d ≠ c → t.core d = s.core d
  rest : { t with cores := s.cores } = s
  mem : ∀ a, t.mem.get a = s.mem.get a

/-- The result of the word in progress, `lat` pen beats from its ready beat (R43). -/
def resultOf (s : State) (lat : Nat) (ws : List Write) (fl : Flags) : Flight :=
  { col := s.cur.col, slot := s.cur.slot, it := s.curPen.it, ord := s.curCore.ord, remain := lat, writes := ws, flags := fl }

/-- The word in progress has put one result in flight, to be written `lat` pen beats on, and has changed nothing else: every register
keeps its value until then (R43). -/
structure Issued (s : State) (lat : Nat) (ws : List Write) (fl : Flags) (t : State) : Prop where
  only : OnlyCore s.cur.core s t
  core : t.curCore = { s.curCore with
    ord := s.curCore.ord + 1, flights := s.curCore.flights ++ [resultOf s lat ws fl] }

/-- The word in progress has taken its place in program order and has had no effect (R50, R85). -/
structure Passed (s t : State) : Prop where
  only : OnlyCore s.cur.core s t
  core : t.curCore = { s.curCore with ord := s.curCore.ord + 1 }

/-- Bit 0 of q[PQ] in the sense PN (R50). -/
abbrev isActive (s : State) (h : Hdr) : Prop := ((s.curCore.rdQ h.pq).getLsbD 0 ^^ h.pn) = true

/-- An S word with one result: when active it puts it in flight, when inactive it does nothing (R85). -/
def ScalarWord (i : Instr) (s : State) (h : Hdr) (lat : Nat) (ws : List Write) (fl : Flags) : Prop :=
  (isActive s h → After (exec i s) (Issued s lat ws fl)) ∧ (¬ isActive s h → After (exec i s) (Passed s))

/-- As `ScalarWord`, the value written to s[d] known by a property. -/
def ScalarWordSuch (i : Instr) (s : State) (h : Hdr) (lat : Nat) (d : Fin 32) (P : W64 → Prop) : Prop :=
  ∃ v, P v ∧ ScalarWord i s h lat [.s d v] 0

/-- A word that writes all 256 bits of q[d], known bit by bit. -/
def PredicateWord (i : Instr) (s : State) (h : Hdr) (d : Fin 16) (P : Nat → Prop) : Prop :=
  ∃ v, (∀ n < 256, v.getLsbD n = true ↔ P n) ∧ ScalarWord i s h 1 [.q d v (BitVec.allOnes 256)] 0

/-! ### The S column's results (R86 to R93), on the exact integers -/

/-- fix of R87. -/
def fixSpec (sat : Bool) (x : Int) : W64 × Flags :=
  if sat = true ∧ 2 ^ 63 - 1 < x then (BitVec.ofInt 64 (2 ^ 63 - 1), Flags.of)
  else if sat = true ∧ x < -2 ^ 63 then (BitVec.ofInt 64 (-2 ^ 63), Flags.of)
  else (BitVec.ofInt 64 x, 0)

/-- Sums and products: header, latency, destination, and the value with its flags (R86, R87, R91). -/
def arithSpec (k : Core) : Instr → Option (Hdr × Nat × Fin 32 × (W64 × Flags))
  | .add h d a b sat => some (h, 1, d, fixSpec sat ((k.rdS a).toInt + (k.rdS b).toInt))
  | .sub h d a b sat => some (h, 1, d, fixSpec sat ((k.rdS a).toInt - (k.rdS b).toInt))
  | .mul h d a b sat => some (h, 3, d, fixSpec sat ((k.rdS a).toInt * (k.rdS b).toInt))
  | .mad h d a b c sat => some (h, 3, d, fixSpec sat ((k.rdS a).toInt * (k.rdS b).toInt + (k.rdS c).toInt))
  | .mulh h d a b => some (h, 3, d, (BitVec.ofInt 64 ((k.rdS a).toInt * (k.rdS b).toInt / 2 ^ 64), 0))
  | .mulhz h d a b => some (h, 3, d, (BitVec.ofNat 64 ((k.rdS a).toNat * (k.rdS b).toNat / 2 ^ 64), 0))
  | .addsh h d a b n => some (h, 1, d, (BitVec.ofNat 64 ((k.rdS a).toNat + (k.rdS b).toNat * 2 ^ n.val), 0))
  | .addi h d a imm => some (h, 1, d, (BitVec.ofInt 64 ((k.rdS a).toInt + imm.toInt), 0))
  | .muli h d a imm => some (h, 3, d, (BitVec.ofInt 64 ((k.rdS a).toInt * imm.toInt), 0))
  | _ => none

/-- Quotients and remainders (R87): value and flags. -/
def divSpec (k : Core) : Instr → Option (Hdr × Fin 32 × (W64 × Flags))
  | .div h d a b =>
    let x := (k.rdS a).toInt
    let y := (k.rdS b).toInt
    some (h, d, if y = 0 then (0, Flags.dz) else if x = -2 ^ 63 ∧ y = -1 then (BitVec.ofInt 64 (-2 ^ 63), Flags.of)
      else (BitVec.ofInt 64 (x.tdiv y), 0))
  | .rem h d a b =>
    let x := (k.rdS a).toInt
    let y := (k.rdS b).toInt
    some (h, d, if y = 0 then (0, Flags.dz) else (BitVec.ofInt 64 (x - x.tdiv y * y), 0))
  | .divz h d a b =>
    let x := (k.rdS a).toNat
    let y := (k.rdS b).toNat
    some (h, d, if y = 0 then (0, Flags.dz) else (BitVec.ofNat 64 (x / y), 0))
  | .remz h d a b =>
    let x := (k.rdS a).toNat
    let y := (k.rdS b).toNat
    some (h, d, if y = 0 then (0, Flags.dz) else (BitVec.ofNat 64 (x - x / y * y), 0))
  | _ => none

/-- Logic and shifts (R86, R91). -/
def logicSpec (k : Core) : Instr → Option (Hdr × Fin 32 × W64)
  | .and h d a b => some (h, d, k.rdS a &&& k.rdS b)
  | .or h d a b => some (h, d, k.rdS a ||| k.rdS b)
  | .xor h d a b => some (h, d, k.rdS a ^^^ k.rdS b)
  | .andn h d a b => some (h, d, k.rdS a &&& ~~~(k.rdS b))
  | .andi h d a imm => some (h, d, k.rdS a &&& BitVec.ofInt 64 imm.toInt)
  | .ori h d a imm => some (h, d, k.rdS a ||| BitVec.ofInt 64 imm.toInt)
  | .xori h d a imm => some (h, d, k.rdS a ^^^ BitVec.ofInt 64 imm.toInt)
  | .shl h d a b => some (h, d, BitVec.ofNat 64 ((k.rdS a).toNat * 2 ^ ((k.rdS b).toNat % 64)))
  | .shr h d a b => some (h, d, BitVec.ofNat 64 ((k.rdS a).toNat / 2 ^ ((k.rdS b).toNat % 64)))
  | .sra h d a b => some (h, d, BitVec.ofInt 64 ((k.rdS a).toInt / 2 ^ ((k.rdS b).toNat % 64)))
  | .rotl h d a b =>
    let n := (k.rdS b).toNat % 64
    some (h, d, BitVec.ofNat 64 ((k.rdS a).toNat * 2 ^ n + (k.rdS a).toNat / 2 ^ (64 - n)))
  | .shli h d a imm => some (h, d, BitVec.ofNat 64 ((k.rdS a).toNat * 2 ^ (imm.toNat % 64)))
  | .shri h d a imm => some (h, d, BitVec.ofNat 64 ((k.rdS a).toNat / 2 ^ (imm.toNat % 64)))
  | .srai h d a imm => some (h, d, BitVec.ofInt 64 ((k.rdS a).toInt / 2 ^ (imm.toNat % 64)))
  | _ => none

/-- Extension from a narrow width (R90). -/
def sextSpec (ty : Fmt) (x : W64) : Option W64 :=
  match ty with
  | .int32 => some ((x.truncate 32).signExtend 64)
  | .int16 => some ((x.truncate 16).signExtend 64)
  | .int8 => some ((x.truncate 8).signExtend 64)
  | .int4 => some ((x.truncate 4).signExtend 64)
  | .uint8 => some ((x.truncate 8).zeroExtend 64)
  | .uint4 => some ((x.truncate 4).zeroExtend 64)
  | _ => none

/-- Choices, extensions and constants (R86, R90 to R92). -/
def selectSpec (k : Core) : Instr → Option (Hdr × Fin 32 × W64)
  | .min h d a b => some (h, d, if (k.rdS a).toInt ≤ (k.rdS b).toInt then k.rdS a else k.rdS b)
  | .max h d a b => some (h, d, if (k.rdS a).toInt ≤ (k.rdS b).toInt then k.rdS b else k.rdS a)
  | .minz h d a b => some (h, d, if (k.rdS a).toNat ≤ (k.rdS b).toNat then k.rdS a else k.rdS b)
  | .maxz h d a b => some (h, d, if (k.rdS a).toNat ≤ (k.rdS b).toNat then k.rdS b else k.rdS a)
  | .mini h d a imm => some (h, d, if (k.rdS a).toInt ≤ imm.toInt then k.rdS a else BitVec.ofInt 64 imm.toInt)
  | .maxi h d a imm => some (h, d, if (k.rdS a).toInt ≤ imm.toInt then BitVec.ofInt 64 imm.toInt else k.rdS a)
  | .sel h d a b qc => some (h, d, if (k.rdQ qc).getLsbD 0 then k.rdS a else k.rdS b)
  | .sext h ty d a => (sextSpec ty (k.rdS a)).map (fun v => (h, d, v))
  | .li h d imm => some (h, d, BitVec.ofInt 64 imm.toInt)
  | .lih h d a imm => some (h, d, BitVec.ofNat 64 (imm.toNat * 2 ^ 32 + (k.rdS a).toNat % 2 ^ 32))
  | .lil h d imm => some (h, d, BitVec.ofInt 64 imm.toInt)
  | _ => none

/-- The conditions of R89 on the exact numbers. -/
def ccSpec (cc : Cc) (a b : W64) : Prop :=
  match cc with
  | .eq => a.toNat = b.toNat
  | .ne => a.toNat ≠ b.toNat
  | .lt => a.toInt < b.toInt
  | .le => a.toInt ≤ b.toInt
  | .ltz => a.toNat < b.toNat
  | .lez => a.toNat ≤ b.toNat
  | .un | .ord => False

/-- Bit `n` of what a predicate word writes (R89, R93). -/
def predSpec (k : Core) : Instr → Option (Hdr × Fin 16 × (Nat → Prop))
  | .cmp h cc d a b => some (h, d, fun _ => ccSpec cc (k.rdS a) (k.rdS b))
  | .cmpi h cc d a imm => some (h, d, fun _ => ccSpec cc (k.rdS a) (BitVec.ofInt 64 imm.toInt))
  | .qand h d a b => some (h, d, fun n => (k.rdQ a).getLsbD n ∧ (k.rdQ b).getLsbD n)
  | .qor h d a b => some (h, d, fun n => (k.rdQ a).getLsbD n ∨ (k.rdQ b).getLsbD n)
  | .qxor h d a b => some (h, d, fun n => (k.rdQ a).getLsbD n ≠ (k.rdQ b).getLsbD n)
  | .qandn h d a b => some (h, d, fun n => (k.rdQ a).getLsbD n ∧ ¬ (k.rdQ b).getLsbD n)
  | .qnot h d a => some (h, d, fun n => ¬ (k.rdQ a).getLsbD n)
  | .qsetRange h d a b => some (h, d, fun n => (k.rdS a).toNat ≤ n ∧ n < (k.rdS b).toNat)
  | .qsetWord h d a b => some (h, d, fun n =>
      if n / 64 = (k.rdS b).toNat % 4 then (k.rdS a).getLsbD (n % 64) = true else (k.rdQ d).getLsbD n = true)
  | _ => none

/-- The field a `bext` or `bins` names (R88): position and effective width. -/
def fieldSpec (b : W64) : Nat × Nat := (b.toNat % 64, Nat.min (b.toNat / 256 % 128) (64 - b.toNat % 64))

/-- Words that count bits or move a field, by what their value is (R86, R88, R93, R96). -/
def bitSpec (k : Core) : Instr → Option (Hdr × Fin 32 × (W64 → Prop))
  | .clz h d a => some (h, d, fun v => v.toNat ≤ 64 ∧ (∀ n, 64 - v.toNat ≤ n → (k.rdS a).getLsbD n = false) ∧
      (v.toNat < 64 → (k.rdS a).getLsbD (63 - v.toNat) = true))
  | .ctz h d a => some (h, d, fun v => v.toNat ≤ 64 ∧ (∀ n < v.toNat, (k.rdS a).getLsbD n = false) ∧
      (v.toNat < 64 → (k.rdS a).getLsbD v.toNat = true))
  | .popc h d a => some (h, d, fun v => v.toNat = ((List.range 64).filter (fun n => (k.rdS a).getLsbD n)).length)
  | .bext h d a b => some (h, d, fun v =>
      ∀ n < 64, v.getLsbD n = (decide (n < (fieldSpec (k.rdS b)).2) && (k.rdS a).getLsbD ((fieldSpec (k.rdS b)).1 + n)))
  | .bins h d a b c => some (h, d, fun v => ∀ n < 64, v.getLsbD n =
      if (fieldSpec (k.rdS b)).1 ≤ n ∧ n < (fieldSpec (k.rdS b)).1 + (fieldSpec (k.rdS b)).2
        then (k.rdS a).getLsbD (n - (fieldSpec (k.rdS b)).1) else (k.rdS c).getLsbD n)
  | .qget h d a w => some (h, d, fun v => ∀ n < 64, v.getLsbD n = (k.rdQ a).getLsbD (64 * w.val + n))
  | .qfirst h d a => some (h, d, fun v => v.toNat ≤ 256 ∧ (∀ n < v.toNat, (k.rdQ a).getLsbD n = false) ∧
      (v.toNat < 256 → (k.rdQ a).getLsbD v.toNat = true))
  | .bget h d a w => some (h, d, fun v => ∀ n < 64, v.getLsbD n = (k.b[a]).getLsbD (64 * w.val + n))
  | _ => none

/-- Bytes of an element that `lea` allows (R94). -/
def leaSize : Fmt → Option Nat
  | .fp64 => some 8
  | .fp32 | .int32 => some 4
  | .fp16 | .bf16 | .int16 => some 2
  | .e4m3 | .e5m2 | .dm8 | .int8 | .uint8 => some 1
  | _ => none

end Sys2Proof.Machine
end

