-- ==== Sys2Proof/Certificates/Slice0/VectorTable.lean ====
section
/-! DEFINITION. The V column's results as the spec's tables give them (05_vector.md), written apart from the meanings: what each word
reads, how it computes one lane, and where the lanes go. -/

namespace Sys2Proof.Machine

open Sys2Proof

/-- One chunk of a V word (R107): its sources, how lane `i` comes of their lanes (`none`: the lane is inactive), and what the lanes
become. `once`: the word acts once, whatever its fold (R110). -/
structure ChunkWord where
  h : Hdr
  lat : Nat
  srcs : List (VSrc × Fmt) := []
  rm : Rm := .rne
  sat : Bool := false
  once : Bool := false
  n : Nat
  lane : List (List Lane) → Nat → Option (Nat × Flags)
  dest : List Lane → List Write

/-- The lane mask of a word: q[PQ], inverted when PN is 1 (R50). -/
def maskOf (k : Core) (h : Hdr) : Chunk := if h.pn then ~~~(k.rdQ h.pq) else k.rdQ h.pq

/-- The rounding of element `e` (R23, R27). -/
def roundOf (k : Core) (rm : Rm) (sat : Bool) (e : Nat) : Rnd :=
  { rm := rm, sat := sat, thr := if rm = .dither then ditherElem k.dith.toNat e else 0 }

/-- The lanes a source gives chunk 0 (R49, R105, R107, R109), each with the flags of its conversion, and the token's own flags. -/
def sourceGot (k : Core) (c : ChunkWord) (x : VSrc × Fmt) : Got :=
  let n := 256 / x.2.lane
  match x.1 with
  | .v r => { lanes := (List.range n).map (fun i => ((velem k.v[r] x.2.lane i, true), 0)) }
  | .rx p => match k.rx[p].avail.head? with
    | some t => t.lanes k x.2 n (roundOf k c.rm c.sat)
    | none => { lanes := [] }

def sourceLanes (k : Core) (c : ChunkWord) (x : VSrc × Fmt) : List Lane := (sourceGot k c x).lanes.map (·.1)

/-- The rx ports of some sources. -/
def portsOf (srcs : List (VSrc × Fmt)) : List (Fin 8) :=
  srcs.filterMap (fun x => match x.1 with
    | .v _ => none
    | .rx p => some p)

/-- Has every port a word reads a token (R49)? -/
def hasTokens (k : Core) (srcs : List (VSrc × Fmt)) : Prop := ∀ p ∈ portsOf srcs, k.rx[p].avail ≠ []

/-- The lanes of chunk 0, with the flags of the active ones. -/
def chunkLanes (k : Core) (c : ChunkWord) : List (Lane × Flags) :=
  let lss := c.srcs.map (sourceLanes k c)
  (List.range c.n).map (fun i => match c.lane lss i with
    | some (v, f) => ((v, true), f)
    | none => ((0, false), 0))

/-- The flags that the conversion of a word's tokens raises: of each source lane whose lane of the result is active, and of the token
itself where it has one (R31, R35, R109; the token's own so is the model's reading, log 89). -/
def tokenFlags (k : Core) (c : ChunkWord) : Flags :=
  let lss := c.srcs.map (sourceLanes k c)
  c.srcs.foldl (fun f x =>
    let per := 256 / x.2.lane / c.n
    f ||| (sourceGot k c x).flags (fun i => (c.lane lss (i / per)).isSome)) 0

/-- A core that differs from another only in what a V word changes on its issue beat: results in flight, words going on, program
order, popped tokens, the dither phase, raised flags and the event counters. -/
def SameRegisters (k k' : Core) : Prop :=
  { k' with flights := k.flights, streams := k.streams, ord := k.ord, rx := k.rx, dith := k.dith, fsr := k.fsr, evc := k.evc,
            raised := k.raised, raisedT := k.raisedT, trapF := k.trapF } = k

/-- Nothing but a core has changed, and of the pens at most the stop of its own, which a flag trap notes (R36). -/
structure OnlyCoreOrStop (c : Nat) (s t : State) : Prop where
  others : ∀ d, d ≠ c → t.core d = s.core d
  rest : { t with cores := s.cores, pens := s.pens } = s
  pens : ∀ h, { t.pen h with stop := (s.pen h).stop } = s.pen h
  mem : ∀ a, t.mem.get a = s.mem.get a

/-- Chunk 0 of a V word has issued (R40, R43, R49, R107): its result is in flight, its tokens are popped, the later chunks wait. -/
structure ChunkIssued (s : State) (i : Instr) (c : ChunkWord) (t : State) : Prop where
  only : OnlyCoreOrStop s.cur.core s t
  pens : portsOf c.srcs = [] → t.pens = s.pens
  regs : SameRegisters s.curCore t.curCore
  ord : t.curCore.ord = s.curCore.ord + 1
  flights : t.curCore.flights = s.curCore.flights ++ [resultOf s c.lat (c.dest ((chunkLanes s.curCore c).map (·.1)))
    ((chunkLanes s.curCore c).foldl (fun f x => f ||| x.2) 0)]
  tokens : ∀ p, t.curCore.rx[p] = if p ∈ portsOf c.srcs then (s.curCore.rx[p]).pop else s.curCore.rx[p]
  flags : t.curCore.fsr = s.curCore.fsr ||| tokenFlags s.curCore c
  dither : t.curCore.dith = if c.rm = .dither then ditherAdvance s.curCore.dith else s.curCore.dith
  later : if c.once ∨ c.h.beats = 1 then t.curCore.streams = s.curCore.streams
    else ∃ st, t.curCore.streams = s.curCore.streams ++ [st] ∧ st.col = .v ∧ st.instr = i ∧ st.next = 1 ∧ st.total = c.h.beats ∧
      st.ord = s.curCore.ord ∧ st.mask = maskOf s.curCore c.h

/-- A V word, run as a word of the V column, issues its first chunk. -/
def VectorWord (i : Instr) (s : State) (c : ChunkWord) : Prop :=
  s.cur.col = .v → hasTokens s.curCore c.srcs → After (exec i s) (ChunkIssued s i c)

/-! ### Operands -/

/-- The value of B: its lane, or the scalar register cut to the lane (R108). -/
def bVal (k : Core) (w : Nat) (b : VOpd) (vs : List Nat) : Nat :=
  match b with
  | .src _ => vs.getD 1 0
  | .s r => (k.rdS r).toNat % 2 ^ w

/-- The value of C. -/
def cVal (k : Core) (w : Nat) (b c : VOpd) (vs : List Nat) : Nat :=
  match c, b with
  | .src _, .src _ => vs.getD 2 0
  | .src _, .s _ => vs.getD 1 0
  | .s r, _ => (k.rdS r).toNat % 2 ^ w

/-- Lane by lane: active where the word and every source lane are (R50, R51). -/
def eachLane (mask : Chunk) (f : Nat → List Nat → Nat × Flags) (lss : List (List Lane)) (i : Nat) : Option (Nat × Flags) :=
  if mask.getLsbD i ∧ ∀ ls ∈ lss, (ls.getD i (0, false)).2 = true then some (f i (lss.map (fun ls => (ls.getD i (0, false)).1))) else none

def each1 (k : Core) (h : Hdr) (o : V1) (lat : Nat) (f : Rnd → Nat → Nat × Flags) : ChunkWord :=
  { h := h, lat := lat, srcs := [(o.a, o.ty)], rm := o.rm, sat := o.sat, n := 256 / o.ty.lane
    lane := eachLane (maskOf k h) (fun e vs => f (roundOf k o.rm o.sat e) (vs.getD 0 0))
    dest := fun ls => [vdest o.d o.ty.lane 0 ls] }

def each2 (k : Core) (h : Hdr) (o : V2) (lat : Nat) (f : Rnd → Nat → Nat → Nat × Flags) : ChunkWord :=
  { h := h, lat := lat, srcs := (o.a, o.ty) :: o.b.srcs o.ty, rm := o.rm, sat := o.sat, n := 256 / o.ty.lane
    lane := eachLane (maskOf k h) (fun e vs => f (roundOf k o.rm o.sat e) (vs.getD 0 0) (bVal k o.ty.lane o.b vs))
    dest := fun ls => [vdest o.d o.ty.lane 0 ls] }

def each3 (k : Core) (h : Hdr) (o : V3) (lat : Nat) (f : Rnd → Nat → Nat → Nat → Nat × Flags) : ChunkWord :=
  { h := h, lat := lat, srcs := (o.a, o.ty) :: (o.b.srcs o.ty ++ o.c.srcs o.ty), rm := o.rm, sat := o.sat, n := 256 / o.ty.lane
    lane := eachLane (maskOf k h) (fun e vs =>
      f (roundOf k o.rm o.sat e) (vs.getD 0 0) (bVal k o.ty.lane o.b vs) (cVal k o.ty.lane o.b o.c vs))
    dest := fun ls => [vdest o.d o.ty.lane 0 ls] }

/-- A word that never rounds: lane by lane on bit patterns (R121). -/
def eachB (k : Core) (h : Hdr) (o : VB) (f : Nat → Nat → Nat → Nat) : ChunkWord :=
  { h := h, lat := 2, srcs := (o.a, o.ty) :: o.b.srcs o.ty, n := 256 / o.ty.lane
    lane := eachLane (maskOf k h) (fun e vs => (f e (vs.getD 0 0) (bVal k o.ty.lane o.b vs), 0))
    dest := fun ls => [vdest o.d o.ty.lane 0 ls] }

/-- A word over whole sources: element `e` of the `total` of the destination (R107, R118). -/
def eachWhole (k : Core) (h : Hdr) (lat : Nat) (d : VDst) (w total : Nat) (rm : Rm) (sat : Bool) (f : Nat → Nat × Flags) : ChunkWord :=
  { h := h, lat := lat, rm := rm, sat := sat, n := 256 / w
    lane := fun _ i => if (maskOf k h).getLsbD i = true ∧ i < total then some (f i) else none
    dest := fun ls => [vdest d w 0 ls] }

/-! ### The tables -/

/-- Arithmetic (R112 to R114): exact integers finished by fix_w, or one rounding. -/
def vecArith (k : Core) : Instr → Option ChunkWord
  | .vadd h o => some (each2 k h o 2 (fun r a b =>
      if o.ty.unscaledInt then fixW o.ty o.sat (o.ty.intVal a + o.ty.intVal b) else fpAdd o.ty r false (.dec o.ty a) (.dec o.ty b)))
  | .vsub h o => some (each2 k h o 2 (fun r a b =>
      if o.ty.unscaledInt then fixW o.ty o.sat (o.ty.intVal a - o.ty.intVal b) else fpAdd o.ty r true (.dec o.ty a) (.dec o.ty b)))
  | .vmul h o => some (each2 k h o 4 (fun r a b =>
      if o.ty.unscaledInt then fixW o.ty o.sat (o.ty.intVal a * o.ty.intVal b) else fpMul o.ty r (.dec o.ty a) (.dec o.ty b)))
  | .vfma h o => some (each3 k h o 4 (fun r a b c =>
      if o.ty.unscaledInt then fixW o.ty o.sat (o.ty.intVal a * o.ty.intVal b + o.ty.intVal c)
      else fpFused o.ty r false false 0 (.dec o.ty a) (.dec o.ty b) (.dec o.ty c)))
  | .vfms h o => some (each3 k h o 4 (fun r a b c =>
      if o.ty.unscaledInt then fixW o.ty o.sat (o.ty.intVal a * o.ty.intVal b - o.ty.intVal c)
      else fpFused o.ty r false true 0 (.dec o.ty a) (.dec o.ty b) (.dec o.ty c)))
  | .vfnma h o => some (each3 k h o 4 (fun r a b c =>
      if o.ty.unscaledInt then fixW o.ty o.sat (o.ty.intVal c - o.ty.intVal a * o.ty.intVal b)
      else fpFused o.ty r true false 0 (.dec o.ty a) (.dec o.ty b) (.dec o.ty c)))
  | .vmin h o => some (each2 k h o 2 (fun _ a b => minMax o.ty false a b))
  | .vmax h o => some (each2 k h o 2 (fun _ a b => minMax o.ty true a b))
  | .vabs h o => some (each1 k h o 2 (fun _ a => absNeg o.ty o.sat false a))
  | .vneg h o => some (each1 k h o 2 (fun _ a => absNeg o.ty o.sat true a))
  | .vclamp h o c => some (each3 k h { d := o.d, a := o.a, b := o.b, c := c, ty := o.ty } 2 (fun _ a b c =>
      let x := minMax o.ty true a b
      ((minMax o.ty false x.1 c).1, x.2 ||| (minMax o.ty false x.1 c).2)))
  | _ => none

/-- Estimates, exponents and roundings (R115 to R117). -/
def vecFloat (k : Core) : Instr → Option ChunkWord
  | .vrcp h o => some (each1 k h o 5 (fun r a => fpRcp o.ty r (.dec o.ty a)))
  | .vrsq h o => some (each1 k h o 5 (fun r a => fpRsq o.ty r (.dec o.ty a)))
  | .vrcps h o => some (each2 k h o 4 (fun r a b => fpRcps o.ty r (.dec o.ty a) (.dec o.ty b)))
  | .vrsqs h o => some (each2 k h o 4 (fun r a b => fpRsqs o.ty r (.dec o.ty a) (.dec o.ty b)))
  | .vexp2 h o => some (each1 k h o 8 (fun r a => fpExp2 o.ty r (.dec o.ty a)))
  | .vlog2 h o => some (each1 k h o 8 (fun r a => fpLog2 o.ty r (.dec o.ty a)))
  | .vscale h o => some (each2 k h o 3 (fun r a b => fpScale o.ty r (.dec o.ty a) (signed o.ty.lane b)))
  | .vfrexpFrac h d a ty => some (each1 k h { d := d, a := a, ty := ty } 3 (fun _ a => fpFrac ty (.dec ty a)))
  | .vfrexpExp h d a ty => some (each1 k h { d := d, a := a, ty := ty } 3 (fun _ a =>
      (wrapN ty.lane (fpExp (.dec ty a)).1, (fpExp (.dec ty a)).2)))
  | .vround h d a ty rm => some (each1 k h { d := d, a := a, ty := ty, rm := rm } 3 (fun r a => fpRound ty r (.dec ty a)))
  | _ => none

/-- Logic, shifts, selection, comparison and moves lane by lane (R121, R127). -/
def vecLogic (k : Core) : Instr → Option ChunkWord
  | .vand h o => some (eachB k h o (fun _ a b => a &&& b))
  | .vor h o => some (eachB k h o (fun _ a b => a ||| b))
  | .vxor h o => some (eachB k h o (fun _ a b => a ^^^ b))
  | .vshl h o => some (eachB k h o (fun _ a n => if n < o.ty.lane then a * 2 ^ n % 2 ^ o.ty.lane else 0))
  | .vshr h o => some (eachB k h o (fun _ a n => if n < o.ty.lane then a / 2 ^ n else 0))
  | .vsra h o => some (eachB k h o (fun _ a n => wrapN o.ty.lane (o.ty.intVal a / 2 ^ (Nat.min n o.ty.lane))))
  | .vsel h o qc => some (eachB k h o (fun e a b => if (k.rdQ qc).getLsbD e then a else b))
  | .vmov h d a ty => some (each1 k h { d := d, a := a, ty := ty } 2 (fun _ x => (x, 0)))
  | .vcmp h cc qd a b ty => some
      { h := h, lat := 2, srcs := (a, ty) :: b.srcs ty, n := 256 / ty.lane
        lane := eachLane (maskOf k h) (fun _ vs =>
          ((if (cmpLane ty cc (vs.getD 0 0) (bVal k ty.lane b vs)).1 then 1 else 0), (cmpLane ty cc (vs.getD 0 0) (bVal k ty.lane b vs)).2))
        dest := fun ls => [qdest qd (256 / ty.lane) 0 ls] }
  | .vperm h d a b ty => some
      { h := h, lat := 4, srcs := [(b, ty)], n := 256 / ty.lane
        lane := eachLane (maskOf k h) (fun _ vs =>
          (if vs.getD 0 0 < h.elems ty.lane then velem k.v[a] ty.lane (vs.getD 0 0) else 0, 0))
        dest := fun ls => [vdest d ty.lane 0 ls] }
  | _ => none

/-- Conversions (R118 to R120): lane by lane where the widths agree, else over the whole source. -/
def vecConvert (k : Core) : Instr → Option ChunkWord
  | .vcvt h d (.v a) td ts c rm sat =>
    let sc : VWord := if td.scaled || ts.scaled then k.v[c] else 0
    if td.lane = ts.lane then some
      { h := h, lat := 3, srcs := [(.v a, ts)], rm := rm, sat := sat, n := 256 / td.lane
        lane := eachLane (maskOf k h) (fun e vs => cvtElem td ts sc (roundOf k rm sat e) e (vs.getD 0 0 % 2 ^ ts.bits))
        dest := fun ls => [vdest d td.lane 0 ls] }
    else some (eachWhole k h 3 d td.lane (256 * h.beats / Nat.max td.lane ts.lane) rm sat (fun e =>
      cvtElem td ts sc (roundOf k rm sat e) e (velem k.v[a] ts.lane e % 2 ^ ts.bits)))
  | .vcvt h d (.rx p) td ts c rm sat =>
    let sc : VWord := if td.scaled || ts.scaled then k.v[c] else 0
    if td.lane = ts.lane then some
      { h := h, lat := 3, srcs := [(.rx p, ts)], rm := rm, sat := sat, n := 256 / td.lane
        lane := eachLane (maskOf k h) (fun e vs => cvtElem td ts sc (roundOf k rm sat e) e (vs.getD 0 0 % 2 ^ ts.bits))
        dest := fun ls => [vdest d td.lane 0 ls] }
    else none
  | .vpack h d a b td ts rm sat =>
    let m := 256 * h.beats / ts.lane
    some (eachWhole k h 3 d td.lane (2 * m) rm sat (fun e =>
      convert td ts (roundOf k rm sat e) (if e < m then velem k.v[a] ts.lane e else velem k.v[b] ts.lane (e - m))))
  | .vunpk h d a td ts hi rm sat =>
    let m := 256 * h.beats / td.lane
    some (eachWhole k h 3 d td.lane m rm sat (fun e =>
      convert td ts (roundOf k rm sat e) (velem k.v[a] ts.lane (if hi then m + e else e))))
  | _ => none

/-- Exact sums of products (R122): lane `i` takes 32/w products. -/
def vecDot (k : Core) : Instr → Option ChunkWord
  | .vdot h o c =>
    let w := o.ty.lane
    let g := 32 / w
    let cty : Fmt := if o.ty.isFP then .fp32 else .int32
    some
      { h := h, lat := 4, srcs := (o.a, o.ty) :: (o.b.srcs o.ty ++ [(c, cty)]), rm := o.rm, sat := o.sat, n := 8
        lane := fun lss i =>
          let a := ((lss.getD 0 []).drop (g * i)).take g
          let b := match o.b with
            | .src _ => ((lss.getD 1 []).drop (g * i)).take g
            | .s r => ((List.replicate (256 / w) ((k.rdS r).toNat % 2 ^ w, true)).drop (g * i)).take g
          let z := (lss.getLastD []).getD i (0, false)
          if (maskOf k h).getLsbD i = true ∧ (∀ x ∈ a, x.2 = true) ∧ (∀ x ∈ b, x.2 = true) ∧ z.2 = true then
            some (if o.ty.isFP then
              (dotSum (a.map (fun x => .dec o.ty x.1)) (b.map (fun x => .dec o.ty x.1))).finish .fp32 (roundOf k o.rm o.sat i) (.dec .fp32 z.1)
            else fixW .int32 o.sat (((a.zip b).foldl (fun s p => s + o.ty.intVal p.1.1 * o.ty.intVal p.2.1) 0) + Fmt.intVal .int32 z.1))
          else none
        dest := fun ls => [vdest o.d 32 0 ls] }
  | _ => none

/-- Moves over whole registers and scalars (R127), and renormalisation (R131). -/
def vecMove (k : Core) : Instr → Option ChunkWord
  | .vbcastElem h d a b ty => some (eachWhole k h 2 d ty.lane (h.elems ty.lane) .rne false (fun _ =>
      (if (k.rdS b).toNat < h.elems ty.lane then velem k.v[a] ty.lane (k.rdS b).toNat else 0, 0)))
  | .vbcastScalar h d b ty => some (eachWhole k h 2 d ty.lane (h.elems ty.lane) .rne false (fun _ => ((k.rdS b).toNat % 2 ^ ty.lane, 0)))
  | .vslide h d a b ty n => some (eachWhole k h 2 d ty.lane (h.elems ty.lane) .rne false (fun e =>
      (if e + n.val < h.elems ty.lane then velem k.v[a] ty.lane (e + n.val) else velem k.v[b] ty.lane (e + n.val - h.elems ty.lane), 0)))
  | .vexpand h d a ty => some (eachWhole k h 4 d ty.lane (h.elems ty.lane) .rne false (fun e =>
      (velem k.v[a] ty.lane ((List.range e).filter (fun x => (maskOf k h).getLsbD x)).length, 0)))
  | .vidx h d a ty => some (eachWhole k h 2 d ty.lane (h.elems ty.lane) .rne false (fun e => (((k.rdS a).toNat + e) % 2 ^ ty.lane, 0)))
  | .vli h d ty imm => some (eachWhole k h 2 d ty.lane (h.elems ty.lane) .rne false (fun _ => (imm.toNat % 2 ^ ty.lane, 0)))
  | .vcompress h d a ty => some
      { h := h, lat := 4, n := 256 / ty.lane
        lane := fun _ i => (((List.range (h.elems ty.lane)).filter (fun x => (maskOf k h).getLsbD x))[i]?).map
          (fun e => (velem k.v[a] ty.lane e, 0))
        dest := fun ls => [vdest d ty.lane 0 ls] }
  | .vnorm h d a c ty rm sat t =>
    let xs := ((List.range (h.elems ty.lane)).filter (fun x => (maskOf k h).getLsbD x)).map (fun e => FVal.dec ty (velem k.v[a] ty.lane e))
    some { eachWhole k h 6 (.v d) ty.lane (h.elems ty.lane) rm sat (fun e =>
        fpScale ty (roundOf k rm sat e) (.dec ty (velem k.v[a] ty.lane e)) (normK t xs)) with
      dest := fun ls => [vdest (.v d) ty.lane 0 ls, .s c (BitVec.ofInt 64 (normK t xs))] }
  | _ => none

/-- Words that act once, under bit 0 of their predicate (R110, R126, R127). -/
def vecOnce (k : Core) : Instr → Option ChunkWord
  | .vqcnt h d a ty => some
      { h := h, lat := 2, once := true, n := 0, lane := fun _ _ => none
        dest := fun _ => if (maskOf k h).getLsbD 0 then
          [.s d (BitVec.ofNat 64 (popCount (k.rdQ a).toNat (h.elems ty.lane)))] else [] }
  | .vins h d a ty n => some
      { h := h, lat := 2, once := true, n := 0, lane := fun _ _ => none
        dest := fun _ => if (maskOf k h).getLsbD 0 then [vwrite d ty.lane n.val [((k.rdS a).toNat % 2 ^ ty.lane, true)]] else [] }
  | .vext h d a ty n => some
      { h := h, lat := 2, once := true, n := 0, lane := fun _ _ => none
        dest := fun _ => if (maskOf k h).getLsbD 0 then [.s d (extend ty (velem k.v[a] ty.lane n.val))] else [] }
  | _ => none

/-! ### Words that need all their elements (R107, R123 to R125, R130) -/

/-- A word whose result waits for its last chunk: latency after it, sources, element format, and its result from the elements that take
part and, for `vmred`, the keys. -/
structure GatherWord where
  h : Hdr
  lat : Nat
  srcs : List (VSrc × Fmt)
  ty : Fmt
  rm : Rm := .rne
  sat : Bool := false
  fin : (Nat → Option Nat) → (Nat → Nat) → List Write × Flags

/-- The elements that take part, in ascending order, with their index (R34). -/
def partOf (total : Nat) (el : Nat → Option Nat) : List (Nat × Nat) :=
  (List.range total).filterMap (fun e => (el e).map (fun v => (e, v)))

def vecGather (k : Core) : Instr → Option GatherWord
  | .vred h op d a ty rm sat => some
      { h := h, lat := 6, srcs := [(a, ty)], ty := ty, rm := rm, sat := sat
        fin := fun el _ =>
          let r := redAll ty op (roundOf k rm sat) (partOf (h.elems ty.lane) el) none 0
          ([vwrite d ty.lane 0 [((r.1.getLast?.map (·.2)).getD (redIdent ty op), true)]], r.2) }
  | .vscan h op d a ty rm sat => some
      { h := h, lat := 6, srcs := [(a, ty)], ty := ty, rm := rm, sat := sat
        fin := fun el _ =>
          let r := redAll ty op (roundOf k rm sat) (partOf (h.elems ty.lane) el) none 0
          ([vwrite d ty.lane 0 (lanesAt (h.elems ty.lane) r.1)], r.2) }
  | .vmred h op d a b qc ty rm sat => some
      { h := h, lat := 10, srcs := [(a, ty), (b, ty)], ty := ty, rm := rm, sat := sat
        fin := fun el key =>
          let n := h.elems ty.lane
          let part := partOf n el
          let group := fun (e : Nat) => part.filter (fun x => key x.1 = key e)
          let sum := fun (e : Nat) => redAll ty op (roundOf k rm sat) (group e) none 0
          ([vwrite d ty.lane 0 (lanesAt n (part.map (fun x => (x.1, ((sum x.1).1.getLast?.map (·.2)).getD 0)))),
            qdest qc n 0 ((List.range n).map (fun e => (if part.any (·.1 = e) && ((group e).head?.map (·.1)) = some e then 1 else 0, true)))],
           part.foldl (fun f x => f ||| (sum x.1).2) 0) }
  | .vtopk h d a ty km1 val => some
      { h := h, lat := 16, srcs := [(a, ty)], ty := ty
        fin := fun el _ =>
          let part := partOf (h.elems ty.lane) el
          let ranked := part.foldl (fun l x => rankInsert ty x l) []
          ([vwrite d ty.lane 0 ((List.range (km1.val + 1)).map (fun i => match ranked[i]? with
              | some x => (if val then x.2 else x.1 % 2 ^ ty.lane, true)
              | none => (topkFill ty val, true)))],
            Flags.when (!ty.unscaledInt && part.any (fun x => (FVal.dec ty x.2).isSig)) Flags.iv) }
  | .vhouse h d a c => some
      { h := h, lat := 24, srcs := [(a, .fp32)], ty := .fp32
        fin := fun el _ =>
          let n := h.elems 32
          match house64 ((List.range n).map (fun e => match el e with
            | some x => FVal.dec .fp32 x
            | none => .fin false 0 0)) with
          | none => ([vwrite d 32 0 ((List.range n).map (fun _ => (Fmt.dnan .fp32, true))), .s c (BitVec.ofNat 64 (Fmt.dnan .fp32))],
              Flags.iv)
          | some (tau, beta, v) =>
            let out := (tau :: v).map (fun x => x.finish .fp32 {})
            ([vwrite d 32 0 (out.map (fun x => (x.1, true))), .s c (BitVec.ofNat 64 (beta.finish .fp32 {}).1)],
              out.foldl (fun f x => f ||| x.2) (beta.finish .fp32 {}).2) }
  | _ => none

/-- Element `e` of chunk 0 as a gathering word takes it: present where the word and every source lane are active (R34, R50). -/
def gatherEl (k : Core) (g : GatherWord) (e : Nat) : Option Nat :=
  let c : ChunkWord := { h := g.h, lat := 0, rm := g.rm, sat := g.sat, n := 0, lane := fun _ _ => none, dest := fun _ => [] }
  let lss := g.srcs.map (sourceLanes k c)
  if (maskOf k g.h).getLsbD e ∧ ∀ ls ∈ lss, (ls.getD e (0, false)).2 = true then
    some (((lss.getD 0 []).getD e (0, false)).1 % 2 ^ g.ty.lane) else none

/-- The key of element `e`, from the second source (R124). -/
def gatherKey (k : Core) (g : GatherWord) (e : Nat) : Nat :=
  let c : ChunkWord := { h := g.h, lat := 0, rm := g.rm, sat := g.sat, n := 0, lane := fun _ _ => none, dest := fun _ => [] }
  match g.srcs[1]? with
  | some x => ((sourceLanes k c x).getD e (0, false)).1 % 2 ^ g.ty.lane
  | none => 0

/-- The flags that the conversion of a gathering word's tokens raises. -/
def gatherFlags (k : Core) (g : GatherWord) : Flags :=
  tokenFlags k { h := g.h, lat := 0, srcs := g.srcs, rm := g.rm, sat := g.sat, n := 256 / g.ty.lane
                 lane := fun _ e => (gatherEl k g e).map (fun x => (x, 0)), dest := fun _ => [] }

/-- Chunk 0 of a gathering word has issued: with one chunk its result is in flight, `lat` + 1 beats from its ready beat (R107); with
more, nothing is in flight yet and the word keeps the elements it has read. -/
structure GatherIssued (s : State) (i : Instr) (g : GatherWord) (t : State) : Prop where
  only : OnlyCoreOrStop s.cur.core s t
  pens : portsOf g.srcs = [] → t.pens = s.pens
  regs : SameRegisters s.curCore t.curCore
  ord : t.curCore.ord = s.curCore.ord + 1
  tokens : ∀ p, t.curCore.rx[p] = if p ∈ portsOf g.srcs then (s.curCore.rx[p]).pop else s.curCore.rx[p]
  flags : t.curCore.fsr = s.curCore.fsr ||| gatherFlags s.curCore g
  dither : t.curCore.dith = if g.rm = .dither then ditherAdvance s.curCore.dith else s.curCore.dith
  whole : g.h.beats = 1 → t.curCore.streams = s.curCore.streams ∧ t.curCore.flights = s.curCore.flights ++
    [resultOf s (g.lat + 1) (g.fin (gatherEl s.curCore g) (gatherKey s.curCore g)).1
      (g.fin (gatherEl s.curCore g) (gatherKey s.curCore g)).2]
  part : g.h.beats ≠ 1 → t.curCore.flights = s.curCore.flights ∧ ∃ st, t.curCore.streams = s.curCore.streams ++ [st] ∧
    st.col = .v ∧ st.instr = i ∧ st.next = 1 ∧ st.total = g.h.beats ∧ st.ord = s.curCore.ord ∧ st.mask = maskOf s.curCore g.h ∧
    ∀ e < 256 / g.ty.lane, st.lanes.getLsbD e = (gatherEl s.curCore g e).isSome ∧
      ∀ x, gatherEl s.curCore g e = some x → velem st.acc1 g.ty.lane e = x

/-- A gathering V word, run as a word of the V column, issues its first chunk. -/
def GatherWordIssues (i : Instr) (s : State) (g : GatherWord) : Prop :=
  s.cur.col = .v → hasTokens s.curCore g.srcs → After (exec i s) (GatherIssued s i g)

end Sys2Proof.Machine
end

