-- ==== Sys2Proof/Certificates/Slice0/OrthTable.lean ====
section
/-! DEFINITION. The numbers of orthogonal accumulators (R151, R155 to R157), element by element in the order of rounding the spec gives,
written apart from the meanings. -/

namespace Sys2Proof.Machine

open Sys2Proof

/-- Element `e` of an accumulator, row-major (R133). -/
def accEl (a : AccWord) (t : Tacc) (e : Nat) : Nat := a.toNat / 2 ^ (t.fmt.bits * e) % 2 ^ t.fmt.bits

/-! ### Rounding -/

def plusZero : FVal := .fin false 0 0
def plusOne : FVal := .fin false 1 0

/-- Fused multiply-adds over n places in ascending order from +0, each rounded to nearest even (R155 to R157). -/
def dotOf (f : Fmt) (n : Nat) (a b : Nat → FVal) : FVal × Flags :=
  (List.range n).foldl (fun x j =>
    let r := fpFused f {} false false 0 (a j) (b j) x.1
    (.dec f r.1, x.2 ||| r.2)) (plusZero, 0)

/-- A table of values and the flags of all of them. -/
def gridOf (r c : Nat) (g : Nat → Nat → FVal × Flags) : List (List FVal) × Flags :=
  let m := (List.range r).map (fun i => (List.range c).map (g i))
  (m.map (fun row => row.map (·.1)), m.foldl (fun fl row => row.foldl (fun fl x => fl ||| x.2) fl) 0)

def gridAt (m : List (List FVal)) (i j : Nat) : FVal := (m.getD i []).getD j plusZero

/-- Products and differences of R156. -/
def timesOf (r n c : Nat) (a b : Nat → Nat → FVal) : List (List FVal) × Flags :=
  gridOf r c (fun i j => dotOf .fp32 n (a i) (fun l => b l j))
def minusOf (r c : Nat) (a b : Nat → Nat → FVal) : List (List FVal) × Flags :=
  gridOf r c (fun i j =>
    let x := fpAdd .fp32 {} true (a i j) (b i j)
    (.dec .fp32 x.1, x.2))

/-! ### The state of an orthogonal accumulator (R151, R152) -/

def heldCnt (k : Core) (o : Fin 4) : Nat := Nat.min ((k.oStat[o]).toNat / 2 ^ 26 % 64) 32
def heldPiv (k : Core) (o : Fin 4) (j : Nat) : Nat := (k.oPiv[o]).toNat / 2 ^ (5 * j) % 32

/-- Stored elements of V and T. -/
def storedV (k : Core) (o : Fin 4) (i j : Nat) : Nat := accEl k.a[oaV o] .fp32 (32 * i + j)
def storedT (k : Core) (o : Fin 4) (i j : Nat) : Nat := accEl k.a[oaT o] .fp32 (32 * i + j)

/-- Row `i` of an effective reflector: zero above the pivot, 1 at it, what is stored below. -/
def reflectorAt (p : Nat) (x : Nat → Nat) (i : Nat) : FVal := if i < p then plusZero else if i = p then plusOne else .dec .fp32 (x i)

/-- V of R155 to R157, T, and D. -/
def effV (k : Core) (o : Fin 4) (i j : Nat) : FVal := reflectorAt (heldPiv k o j) (fun i => storedV k o i j) i
def valT (k : Core) (o : Fin 4) (i j : Nat) : FVal := .dec .fp32 (storedT k o i j)
def signD (k : Core) (o : Fin 4) (i j : Nat) : FVal :=
  if i = j then .fin (!(k.oStat[o]).getLsbD (32 + i)) 1 0 else plusZero

/-! ### Applying Q (R156) -/

/-- The four forms of R156 on an array with `c` columns (32 from the right). -/
def applied156 (k : Core) (o : Fin 4) (right xp : Bool) (x : Nat → Nat → FVal) (c : Nat) : List (List FVal) × Flags :=
  let n := heldCnt k o
  let v := effV k o
  let vt := fun i j => v j i
  let t := if xp then fun i j => valT k o j i else valT k o
  let d := signD k o
  match right, xp with
  | false, false =>
    let y := timesOf 32 32 c d x
    let a := timesOf n 32 c vt (gridAt y.1)
    let z := timesOf n n c t (gridAt a.1)
    let vz := timesOf 32 n c v (gridAt z.1)
    let r := minusOf 32 c (gridAt y.1) (gridAt vz.1)
    (r.1, y.2 ||| a.2 ||| z.2 ||| vz.2 ||| r.2)
  | false, true =>
    let a := timesOf n 32 c vt x
    let z := timesOf n n c t (gridAt a.1)
    let vz := timesOf 32 n c v (gridAt z.1)
    let r := minusOf 32 c x (gridAt vz.1)
    let q := timesOf 32 32 c d (gridAt r.1)
    (q.1, a.2 ||| z.2 ||| vz.2 ||| r.2 ||| q.2)
  | true, false =>
    let a := timesOf 32 32 n x v
    let b := timesOf 32 n n (gridAt a.1) t
    let z := timesOf 32 n 32 (gridAt b.1) vt
    let r := minusOf 32 32 x (gridAt z.1)
    let q := timesOf 32 32 32 (gridAt r.1) d
    (q.1, a.2 ||| b.2 ||| z.2 ||| r.2 ||| q.2)
  | true, true =>
    let y := timesOf 32 32 32 x d
    let a := timesOf 32 32 n (gridAt y.1) v
    let b := timesOf 32 n n (gridAt a.1) t
    let z := timesOf 32 n 32 (gridAt b.1) vt
    let r := minusOf 32 32 (gridAt y.1) (gridAt z.1)
    (r.1, y.2 ||| a.2 ||| b.2 ||| z.2 ||| r.2)

/-- The FP32 codes of a result, row-major. -/
def codes32 (m : List (List FVal)) : List Nat := m.flatten.map (fun x => (x.finish .fp32 {}).1)

/-! ### Appending (R155) -/

/-- The status word with CNT and APPS changed (R152). -/
def countsOf (st : W64) (cnt apps : Nat) : W64 := (st &&& 0xFFFFFFFF000FFFFF) ||| BitVec.ofNat 64 (cnt * 2 ^ 26 + apps * 2 ^ 20)

/-- Is a value a NaN or infinite? -/
def notFinite (x : FVal) : Bool := x.isNan || x.isInf

/-- The writes and flags of an append of the reflector with elements `v` below the pivot `p` and factor `tau` (R155). -/
def appended155 (k : Core) (o : Fin 4) (v : List Nat) (tau p : Nat) : List Write × Flags :=
  let veff := reflectorAt p (fun i => v.getD i 0)
  let bad := notFinite (.dec .fp32 tau) || (List.range 32).any (fun i => notFinite (veff i))
  let st : W64 := if bad then k.oStat[o] ||| 4 else k.oStat[o]
  let fl : Flags := if bad then Flags.iv else 0
  let n := heldCnt k o
  let apps : Nat := st.toNat / 2 ^ 20 % 64
  let thr : Nat := st.toNat / 2 ^ 14 % 64
  let pol : Nat := st.toNat / 2 ^ 12 % 4
  if n = 32 ∨ (pol = 0 ∧ thr ≠ 0 ∧ apps + 1 = thr) then
    if pol = 0 then ([.oStat o st, .recomp o (some (BitVec.ofNat 2048 (packLanes 32 v), BitVec.ofNat 32 tau, p))], fl)
    else if pol = 1 then ([.oStat o (st ||| 2), .stop .flagTrap 0], fl ||| Flags.of)
    else ([.oStat o (st ||| 2)], fl)
  else
    let u := (List.range n).map (fun j => dotOf .fp32 32 (fun i => effV k o i j) veff)
    let y := (List.range n).map (fun i => dotOf .fp32 n (valT k o i) (fun j => (u.getD j (plusZero, 0)).1))
    let t := y.map (fun x => fpMul .fp32 {} (FVal.dec .fp32 tau).neg x.1)
    let grid := fun (old new : Nat → Nat) => (List.range 1024).map (fun e => if e % 32 = n then new (e / 32) else old e)
    ([accWrite (oaV o) .fp32 (grid (accEl k.a[oaV o] .fp32) (fun i => if i < p then 0 else if i = p then tau else v.getD i 0)),
      accWrite (oaT o) .fp32 (grid (accEl k.a[oaT o] .fp32) (fun i => if i < n then (t.getD i (0, 0)).1 else if i = n then tau else 0)),
      .oStat o (countsOf st (n + 1) (Nat.min (apps + 1) 63)),
      .oPiv o (BitVec.ofNat 160 (packLanes 5 ((List.range 32).map (fun j => if j = n then p else heldPiv k o j))))],
     fl ||| u.foldl (fun f x => f ||| x.2) 0 ||| y.foldl (fun f x => f ||| x.2) 0 ||| t.foldl (fun f x => f ||| x.2) 0)

/-! ### Recompacting (R157) -/

def round64 (x : Nat × Flags) : FVal := .dec .fp64 x.1
def fused64 (a b c : FVal) : FVal := round64 (fpFused .fp64 {} false false 0 a b c)

/-- W, a list of columns, under a reflector that is zero above row `p`, from column `c0` on. -/
def struck (v : Nat → FVal) (tau : FVal) (p c0 : Nat) (w : List (List FVal)) : List (List FVal) :=
  (List.range 32).map (fun c =>
    let col := gridAt w c
    let t := round64 (fpMul .fp64 {} tau (dotOf .fp64 (32 - p) (fun i => v (p + i)) (fun i => col (p + i))).1)
    (List.range 32).map (fun i => if c < c0 ∨ i < p then col i else fused64 (v i).neg t (col i)))

/-- The factors of W, columns 0 to 30 in order, and what is left of W; none where a column holds a NaN or an infinity. -/
def factored (w : List (List FVal)) : Option (List (FVal × FVal × (Nat → FVal)) × List (List FVal)) :=
  (List.range 31).foldl (fun (x : Option (List (FVal × FVal × (Nat → FVal)) × List (List FVal))) j => x.bind (fun x =>
    (house64 ((List.range (32 - j)).map (fun i => gridAt x.2 j (j + i)))).map (fun r =>
      let v := fun i => if i < j then plusZero else if i = j then plusOne else r.2.2.getD (i - j - 1) plusZero
      (x.1 ++ [(r.1, r.2.1, v)], struck v r.1 j (j + 1) x.2)))) (some ([], w))

/-- The columns of T above the diagonal, from the stored factors: each element in FP64 and rounded once (R157). -/
def columnsT (v : Nat → Nat → Nat) (n : Nat) : List (List (Nat × Flags)) :=
  (List.range n).foldl (fun (cols : List (List (Nat × Flags))) c =>
    let eff := fun j => reflectorAt j (fun i => v i j)
    let t := fun i j => FVal.dec .fp32 (if i < j then ((cols.getD j []).getD i (0, 0)).1 else if i = j then v i i else 0)
    let u := (List.range c).map (fun j => (dotOf .fp64 32 (eff j) (eff c)).1)
    cols ++ [(List.range c).map (fun i =>
      (round64 (fpMul .fp64 {} (FVal.dec .fp32 (v c c)).neg (dotOf .fp64 c (t i) (fun j => u.getD j plusZero)).1)).finish .fp32 {})]) []

/-- What a recompaction writes, from the accumulator as it stands on its first beat (R157). -/
def recompacted (k : Core) (o : Fin 4) (pend : Option (VWord × BitVec 32 × Nat)) : List Write × Flags :=
  let st := countsOf k.oStat[o] 31 0 ||| 1
  let d := (List.range 32).map (fun c => (List.range 32).map (fun i => signD k o i c))
  let w0 := match pend with
    | none => d
    | some (v, tau, p) => struck (reflectorAt p (fun i => v.toNat / 2 ^ (32 * i) % 2 ^ 32)) (.dec .fp32 tau.toNat) p 0 d
  let w := (List.range (heldCnt k o)).reverse.foldl (fun w j =>
    struck (fun i => effV k o i j) (.dec .fp32 (storedV k o (heldPiv k o j) j)) (heldPiv k o j) 0 w) w0
  let ok := match factored w with
    | none => none
    | some x => if x.2.all (fun c => c.all (fun e => !notFinite e)) && x.1.all (fun f => !notFinite f.1 && !notFinite f.2.1 &&
        (List.range 32).all (fun i => !notFinite (f.2.2 i))) then some x else none
  match ok with
  | none =>
    let nan := List.replicate 1024 (Fmt.dnan .fp32)
    ([accWrite (oaV o) .fp32 nan, accWrite (oaT o) .fp32 nan, .oStat o (st ||| 0xFFFFFFFF00000004)], Flags.iv)
  | some (fs, w') =>
    let fl := fun (l : List (Nat × Flags)) => l.foldl (fun f x => f ||| x.2) 0
    -- rows 0 to 31 of the stored columns 0 to 30
    let cols := (List.range 31).map (fun j => (List.range 32).map (fun i =>
      let f := fs.getD j (plusZero, plusZero, fun _ => plusZero)
      if i < j then (0, 0) else if i = j then f.1.finish .fp32 {} else (f.2.2 i).finish .fp32 {}))
    let v := fun i j => ((cols.getD j []).getD i (0, 0)).1
    let ts := columnsT v 31
    let e := fun j => if j = 31 then gridAt w' 31 31 else (fs.getD j (plusZero, plusZero, fun _ => plusZero)).2.1
    let sgn := packLanes 1 ((List.range 32).map (fun j => if (e j).isZero || !(e j).sign then 1 else 0))
    ([accWrite (oaV o) .fp32 ((List.range 1024).map (fun x => v (x / 32) (x % 32))),
      accWrite (oaT o) .fp32 ((List.range 1024).map (fun x =>
        if x / 32 < x % 32 then ((ts.getD (x % 32) []).getD (x / 32) (0, 0)).1 else if x / 32 = x % 32 then v (x / 32) (x % 32) else 0)),
      .oStat o ((st &&& 0x00000000FFFFFFFF) ||| BitVec.ofNat 64 (sgn * 2 ^ 32)),
      .oPiv o (BitVec.ofNat 160 (packLanes 5 ((List.range 32).map (fun j => if j = 31 then heldPiv k o 31 else j))))],
     cols.foldl (fun f c => f ||| fl c) 0 ||| ts.foldl (fun f c => f ||| fl c) 0)

end Sys2Proof.Machine
end

