-- ==== Sys2Proof/Certificates/Slice0/MatrixTable.lean ====
section
/-! DEFINITION. The M column's results (06_matrix.md) and the near-space accesses of all columns (R128, R129), written apart from the
meanings. -/

namespace Sys2Proof.Machine

open Sys2Proof

/-! ### Stops of a word at its own issue (R59, R369) -/

/-- The word in progress has stopped its pen: none of its results is written, nothing else has changed, and where no other stop is
pending the stop, which tstat shows when it is taken, names it (R59, R369). -/
structure StoppedHere (s : State) (cause : Cause) (code value : W64) (t : State) : Prop where
  others : ∀ d, d ≠ s.cur.core → t.core d = s.core d
  core : t.curCore = { s.curCore with ord := s.curCore.ord + 1 }
  rest : { t with cores := s.cores, pens := s.pens } = s
  mem : ∀ a, t.mem.get a = s.mem.get a
  pens : ∀ h, h ≠ s.penOf s.cur.core → t.pen h = s.pen h
  pen : s.penOf s.cur.core < s.pens.length → s.curPen.stop = none → t.pen (s.penOf s.cur.core) = { s.curPen with
    stop := some { tstat := tstatWord cause (s.curPen.rel s.cur.core) s.cur.col s.cur.slot s.cur.it, code := code, value := value,
                   time := s.time, late := false } }

/-! ### Words that use the matrix node (R134, R148, R152 to R157) -/

/-- A word of the node: the accumulators it names, the beats it keeps the node busy, its latency and its result. -/
structure NodeWord where
  h : Hdr
  names : List (Fin 8) := []
  busy : Nat
  oa : Bool := false
  lat : Nat
  writes : List Write
  flags : Flags := 0

/-- Does an orthogonal accumulator that holds reflectors own one of the accumulators (R152, R153)? -/
def aliased (k : Core) (names : List (Fin 8)) : Prop :=
  ∃ a ∈ names, 0 < (k.oStat.toList.getD (a.val / 2) 0).toNat / 2 ^ 26 % 64

/-- The node is occupied and the result is in flight; nothing else has changed (R134). -/
structure NodeIssued (s : State) (n : NodeWord) (t : State) : Prop where
  only : OnlyCore s.cur.core s t
  core : t.curCore = { s.curCore with
    ord := s.curCore.ord + 1, busy := n.busy, busyOa := n.oa, busyOld := false
    flights := s.curCore.flights ++ [resultOf s n.lat n.writes n.flags] }

/-- An inactive word occupies the node and does nothing else (R134). -/
structure NodeIdle (s : State) (n : NodeWord) (t : State) : Prop where
  only : OnlyCore s.cur.core s t
  core : t.curCore = { s.curCore with ord := s.curCore.ord + 1, busy := n.busy, busyOa := n.oa, busyOld := false }

def MatrixWord (i : Instr) (s : State) (n : NodeWord) : Prop :=
  (aliased s.curCore n.names → After (exec i s) (StoppedHere s .alias_ 0 0)) ∧
  (¬ aliased s.curCore n.names → isActive s n.h → After (exec i s) (NodeIssued s n)) ∧
  (¬ aliased s.curCore n.names → ¬ isActive s n.h → After (exec i s) (NodeIdle s n))

/-- A fold of results with their flags. -/
def foldFlags (f : Nat → Nat → Nat × Flags) (x : Nat) (xs : List Nat) : Nat × Flags :=
  xs.foldl (fun a y => ((f a.1 y).1, a.2 ||| (f a.1 y).2)) (x, 0)

/-- The 32 elements of row `r` of an accumulator (R133). -/
def accRow (a : AccWord) (t : Tacc) (r : Nat) : List Nat := (List.range 32).map (fun c => accEl a t (32 * r + c))

/-- A sum of R148: exact integers finished without clamping, or one FP addition. -/
def accAdd (t : Tacc) (x y : Nat) : Nat × Flags :=
  if t = .int32 then fixW .int32 false (Fmt.intVal .int32 x + Fmt.intVal .int32 y) else fpAdd t.fmt {} false (.dec t.fmt x) (.dec t.fmt y)

/-- The words that compute 1,024 or 32 elements, element by element (R148). -/
def accWord (w : Fin 8) (t : Tacc) (f : Nat → Nat × Flags) (h : Hdr) (names : List (Fin 8)) : NodeWord :=
  { h := h, names := names, busy := 32, lat := 34
    writes := [accWrite w t ((List.range 1024).map (fun e => (f e).1))]
    flags := (List.range 1024).foldl (fun fl e => fl ||| (f e).2) 0 }

def rowWord (vr : Fin 32) (f : Nat → Nat × Flags) (h : Hdr) (names : List (Fin 8)) : NodeWord :=
  { h := h, names := names, busy := 32, lat := 34
    writes := [vwrite vr 32 0 ((List.range 32).map (fun r => ((f r).1, true)))]
    flags := (List.range 32).foldl (fun fl r => fl ||| (f r).2) 0 }

/-- Moves and arithmetic of accumulators (R148). -/
def moveSpec (k : Core) : Instr → Option NodeWord
  | .mzero h ad => some { h := h, names := [ad], busy := 1, lat := 1, writes := [.acc ad 0] }
  | .mmov h ad ga t xp => some (accWord ad t (fun e => (accEl k.a[ga] t (if xp then e % 32 * 32 + e / 32 else e), 0)) h [ad, ga])
  | .madd h ad ga t => some (accWord ad t (fun e => accAdd t (accEl k.a[ad] t e) (accEl k.a[ga] t e)) h [ad, ga])
  | .mscl h ad ga sr => some (accWord ad .fp32 (fun e =>
      fpMul .fp32 {} (.dec .fp32 (accEl k.a[ga] .fp32 e)) (.dec .fp32 (k.rdS sr).toNat)) h [ad, ga])
  | .mrowmax h vr ga t => some (rowWord vr (fun r =>
      foldFlags (minMax t.fmt true) (accEl k.a[ga] t (32 * r)) ((accRow k.a[ga] t r).drop 1)) h [ga])
  | .mrowsum h vr ga t => some (rowWord vr (fun r =>
      foldFlags (accAdd t) (accEl k.a[ga] t (32 * r)) ((accRow k.a[ga] t r).drop 1)) h [ga])
  | _ => none

/-- Orthogonal accumulators (R152, R154 to R157): what each word occupies, and where its result goes. V and T of o[i] are a[2i] and
a[2i + 1]. -/
def orthSpec (k : Core) : Instr → Option NodeWord
  | .oaclr h o => some { h := h, busy := 1, oa := true, lat := 1
                         writes := [.oStat o (oaSgnOnes (k.oStat[o] &&& 0x00000000000FF000)), .acc (oaV o) 0, .acc (oaT o) 0] }
  | .oastat h o sr => some { h := h, busy := 1, oa := true, lat := 2, writes := [.s sr k.oStat[o]] }
  | .oacfg h o sr =>
    let x := k.rdS sr
    let pol := if bitsOf x 13 12 = 3 then 0 else bitsOf x 13 12
    some { h := h, busy := 1, oa := true, lat := 1
           writes := [.oStat o ((k.oStat[o] &&& 0xFFFFFFFFFFF00FFF) ||| BitVec.ofNat 64 (bitsOf x 19 14 * 2 ^ 14 + pol * 2 ^ 12))] }
  | .oarc h o => some { h := h, busy := 1, oa := true, lat := 1, writes := [.recomp o none] }
  | .oaapp h o vr sr kt =>
    let p := if kt.val = 32 then Nat.min (heldCnt k o) 31 else kt.val
    let v := lanesOf 32 32 k.v[vr].toNat
    let r := appended155 k o v ((k.rdS sr).toNat % 2 ^ 32) p
    some { h := h, busy := 40, oa := true, lat := 40, writes := r.1, flags := r.2 }
  | .oahh h o vr sr kt =>
    let p := if kt.val = 32 then Nat.min (heldCnt k o) 31 else kt.val
    let made := match house64 (((lanesOf 32 32 k.v[vr].toNat).drop p).map (FVal.dec .fp32)) with
      | none => (Fmt.dnan .fp32, Fmt.dnan .fp32, List.replicate (32 - p) (Fmt.dnan .fp32), Flags.iv)
      | some (tau, beta, below) => ((tau.finish .fp32 {}).1, (beta.finish .fp32 {}).1, 0 :: below.map (fun (x : FVal) => (x.finish .fp32 {}).1),
          (below.map (fun (x : FVal) => (x.finish .fp32 {}).2)).foldl (· ||| ·) ((tau.finish .fp32 {}).2 ||| (beta.finish .fp32 {}).2))
    let r := appended155 k o (List.replicate p 0 ++ made.2.2.1) made.1 p
    some { h := h, busy := 64, oa := true, lat := 64, writes := .s sr (BitVec.ofNat 64 made.2.1) :: r.1
           flags := r.2 ||| made.2.2.2 }
  | .oamv h o vr xp =>
    let r := applied156 k o false xp (fun i _ => .dec .fp32 (velem k.v[vr] 32 i)) 1
    some { h := h, busy := 40, oa := true, lat := 40
           writes := [vwrite vr 32 0 ((codes32 r.1).map (fun x => (x, true)))], flags := r.2 }
  | .oaml h o ga xp =>
    let r := applied156 k o false xp (fun i j => .dec .fp32 (accEl k.a[ga] .fp32 (32 * i + j))) 32
    some { h := h, names := [ga], busy := 72, oa := true, lat := 72, writes := [accWrite ga .fp32 (codes32 r.1)], flags := r.2 }
  | .oamr h o ga xp =>
    let r := applied156 k o true xp (fun i j => .dec .fp32 (accEl k.a[ga] .fp32 (32 * i + j))) 32
    some { h := h, names := [ga], busy := 72, oa := true, lat := 72, writes := [accWrite ga .fp32 (codes32 r.1)], flags := r.2 }
  | .oaform h o ga xp =>
    let r := applied156 k o false xp (fun i j => .fin false (if i = j then 1 else 0) 0) 32
    some { h := h, names := [ga], busy := 72, oa := true, lat := 72, writes := [accWrite ga .fp32 (codes32 r.1)], flags := r.2 }
  | _ => none

/-! ### Multiply (R32, R33, R138, R140 to R142, R146) -/

/-- Is a ring fit for an operand: initialised, of the word's format, and with a slot for every k-block (R138)? -/
def ringFit (r : Ring) (f : Fmt) (blocks : Nat) : Prop := r.cap ≠ 0 ∧ r.fmt = f ∧ blocks ≤ r.cap.toNat

/-- The bytes of the tile `b` places after a ring's head (R136, R141). -/
def headTile (s : State) (r : Ring) (b : Nat) : List Byte :=
  s.nearRead s.cur.core (nearAddr s.cur.core (r.base.toNat * 64 + (r.head.toNat + b) % r.cap.toNat * r.fmt.slotBytes)) r.fmt.slotBytes

/-- Row `m` of a tile: its 32 values along k, down the column where the tile is read transposed (R141). -/
def tileRow (f : Fmt) (tile : List Byte) (transposed : Bool) (m : Nat) : List FVal :=
  if transposed then (tileVals f tile).map (fun r => r.getD m default) else (tileVals f tile).getD m []

/-- One element of a multiply: the k-blocks in ascending order (R33, R141). -/
def mulEl (s : State) (o : Mma) (tr : Bool) (e : Nat) : Nat × Flags :=
  let k := s.curCore
  let exact := o.ta.scaled || o.tb.scaled || (o.ta.bits ≤ 16 && o.tb.bits ≤ 16)
  (List.range (o.kt.val + 1)).foldl (fun x b =>
    let ta := if o.byp then k.byp.data else headTile s k.g[o.ga] b
    let y := kBlock o.tacc exact o.sata x.1 (tileRow o.ta ta tr (e / 32)) (tileRow o.tb (headTile s k.g[o.gb] b) o.xp (e % 32))
    (y.1, x.2 ||| y.2)) (if o.za then 0 else accEl k.a[o.ad] o.tacc e, 0)

/-- Ring slots a multiply retires with RET (R142, R146). -/
def mulPops (o : Mma) : List Write :=
  if !o.ret then []
  else if o.byp || o.ga = o.gb then [.ringPop o.gb (o.kt.val + 1)]
  else [.ringPop o.ga (o.kt.val + 1), .ringPop o.gb (o.kt.val + 1)]

/-- What a multiply puts in flight: an inactive one still retires its slots (R142). -/
def mulFlight (s : State) (h : Hdr) (o : Mma) (tr : Bool) : Flight :=
  let beats := (o.kt.val + 1) * Nat.max o.ta.kb o.tb.kb
  if ((s.curCore.rdQ h.pq).getLsbD 0 ^^ h.pn) = true then
    resultOf s (beats + 11) (accWrite o.ad o.tacc ((List.range 1024).map (fun e => (mulEl s o tr e).1)) :: mulPops o)
      ((List.range 1024).foldl (fun f e => f ||| (mulEl s o tr e).2) 0)
  else resultOf s (beats + 11) (mulPops o) 0

/-- One of the `n` oldest tiles of a ring holds a poisoned byte (R353). -/
def tilesPoisoned (s : State) (g : Fin 8) (n : Nat) : Prop :=
  let r := s.curCore.g[g]
  ∃ b < n, ∃ k ∈ nearKeys (nearAddr s.cur.core (r.slotOfs (if r.cap = 0 then 0 else (r.head.toNat + b) % r.cap.toNat))) r.fmt.slotBytes,
    k ∈ s.poison

/-- A multiply: ALIAS, a machine check for an unfit operand or, when active, a poisoned tile, which counts as an error met (R352 to R354),
or its result in flight (R138, R140, R146, R153). -/
def MultiplyWord (i : Instr) (s : State) (h : Hdr) (o : Mma) (tr : Bool) : Prop :=
  let k := s.curCore
  let names := if o.byp && k.byp.valid then [o.ad, k.byp.src] else [o.ad]
  let fitA := if o.byp then k.byp.valid = true ∧ k.byp.fmt = o.ta else ringFit k.g[o.ga] o.ta (o.kt.val + 1)
  let fit := fitA ∧ ringFit k.g[o.gb] o.tb (o.kt.val + 1)
  (aliased k names → After (exec i s) (StoppedHere s .alias_ 0 0)) ∧
  (¬ aliased k names → ¬ fit → After (exec i s) (StoppedHere s .machineCheck 0 0)) ∧
  let bad := isActive s h ∧ (o.byp = false ∧ tilesPoisoned s o.ga (o.kt.val + 1) ∨ tilesPoisoned s o.gb (o.kt.val + 1))
  (¬ aliased k names → fit → bad → After (exec i s) (StoppedHere (s.ueMet (coreDie s.cur.core)) .machineCheck 0 0)) ∧
  (¬ aliased k names → fit → ¬ bad → After (exec i s) (fun t =>
    OnlyCore s.cur.core s t ∧
    { t.curCore with evc := k.evc } = { k with
      ord := k.ord + 1, busy := (o.kt.val + 1) * Nat.max o.ta.kb o.tb.kb, busyOa := false, busyOld := false
      flights := k.flights ++ [mulFlight s h o tr] }))

/-! ### Drain (R143 to R147) -/

/-- One row of a drain: element codes, the scales that go with it, and flags. -/
def drainRow (s : State) (h : Hdr) (o : Mdrain) (r : Nat) : List Nat × List Nat × Flags :=
  if ((s.curCore.rdQ h.pq).getLsbD 0 ^^ h.pn) = true then (drainRows o s.curCore).getD r ([], [], 0)
  else (List.replicate 32 0, List.replicate (if o.ta.tileScaled then 1 else o.ta.rowScales) 0, 0)

/-- Where the data and the scales of row `r` lie in a tile (R135). -/
def rowData (f : Fmt) (r : Nat) : Nat := r * 4 * f.bits
def rowScale (f : Fmt) (r : Nat) : Nat := f.tileData + (if f.tileScaled then 0 else r * f.rowScales * f.scale.bytes)

/-- The result of row `r`, ready 16 + r beats on: the row goes to the ring's tail slot or as a token, and to the bypass buffer
(R143, R146). -/
def drainFlight (s : State) (h : Hdr) (o : Mdrain) (r : Nat) : Flight :=
  let row := drainRow s h o r
  let act := ((s.curCore.rdQ h.pq).getLsbD 0 ^^ h.pn)
  let data := leBytes (4 * o.ta.bits) (packLanes o.ta.bits row.1)
  let sc := if o.ta.tileScaled && 0 < r then [] else row.2.1.flatMap (fun n => leBytes o.ta.scale.bytes n)
  let out := match o.dst with
    | .ring g =>
      let b := s.curCore.g[g].slotOfs s.curCore.g[g].tail
      Write.mem (b + rowData o.ta r) data :: (if sc = [] then [] else [Write.mem (b + rowScale o.ta r) sc])
    | .tx p => [Write.push p (lanesTok 8 0 (row.1.map (fun v => (v, act))))]
  let byp := Write.bypRow o.ta o.ad (rowData o.ta r) data :: (if sc = [] then [] else [Write.bypRow o.ta o.ad (rowScale o.ta r) sc])
  { resultOf s (16 + r) (out ++ byp) (if act then row.2.2 else 0) with sub := r }

/-- What becomes ready 47 beats on: the ring's tail moves, the accumulator is zero with ZA, and DFN 4 writes the row maxima (R144, R147). -/
def drainLast (s : State) (h : Hdr) (o : Mdrain) : Flight :=
  let act := ((s.curCore.rdQ h.pq).getLsbD 0 ^^ h.pn)
  let el := fun (r c : Nat) => accEl s.curCore.a[o.ad] .fp32 (if o.xp then 32 * c + r else 32 * r + c)
  let mx := (List.range 32).map (fun r => foldFlags (minMax .fp32 true) (el r 0) ((List.range 31).map (fun c => el r (c + 1))))
  let adv := match o.dst with
    | .ring g => [Write.ringAdv g 1]
    | .tx _ => []
  let maxima := act = true ∧ o.dfn = .rowmax
  { resultOf s 47 (adv ++ (if act = true ∧ o.za = true then [.acc o.ad 0] else [])
      ++ (if maxima then [vwrite o.vr 32 0 (mx.map (fun x => (x.1, true)))] else []))
    (if maxima then mx.foldl (fun f x => f ||| x.2) 0 else 0) with sub := 32 }

/-- A drain (R143 to R147): ALIAS, a machine check for an unfit ring, or 32 rows in flight and, with the last, the slot, the zeroed
accumulator and the row maxima. -/
def DrainWord (s : State) (h : Hdr) (o : Mdrain) : Prop :=
  let k := s.curCore
  let unfit := match o.dst with
    | .ring g => k.g[g].cap = 0 ∨ k.g[g].fmt ≠ o.ta
    | .tx _ => False
  (aliased k [o.ad] → After (exec (.mdrain h o) s) (StoppedHere s .alias_ 0 0)) ∧
  (¬ aliased k [o.ad] → unfit → After (exec (.mdrain h o) s) (StoppedHere s .machineCheck 0 0)) ∧
  (¬ aliased k [o.ad] → ¬ unfit → After (exec (.mdrain h o) s) (fun t =>
    OnlyCore s.cur.core s t ∧
      t.curCore = { k with
        ord := k.ord + 1, busy := 48, busyOa := false, busyOld := false
        dith := if isActive s h ∧ o.rm = Rm.dither then ditherAdvance k.dith else k.dith
        flights := k.flights ++ (List.range 32).map (drainFlight s h o) ++ [drainLast s h o] }))

/-! ### Near space (R128, R129, R149, R158, R165) -/

/-- The elements of a load, own-core ones read at once, the others to come; out of range they read 0 (R128, R235). -/
def loadElemsOf (s : State) (size : Nat) (pls : List (Nat × Place)) : List LoadElem :=
  pls.map (fun x => match x.2 with
    | .at_ a => if nearCore a = s.cur.core then
        { i := x.1, got := some (s.nearRead s.cur.core a size), bad := s.poisoned (nearKeys a size) }
      else { i := x.1 }
    | _ => { i := x.1, got := some (List.replicate size 0) })

/-- The messages of a load to the cores that own its other elements, in ascending order (R129, R235). -/
def loadMsgs (s : State) (size sub : Nat) (pls : List (Nat × Place)) : List Msg :=
  pls.filterMap (fun x => match x.2 with
    | .at_ a => if nearCore a = s.cur.core then none
      else some { src := s.cur.core, dst := nearCore a, addr := a, len := size, ord := s.curCore.ord, sub := sub, i := x.1 }
    | _ => none)

/-- A load has issued: its result is in flight with its budget, its messages are on the way, and no register and no byte of memory has
changed (R43, R128). -/
structure LoadIssued (s : State) (kind : LoadKind) (size budget lat : Nat) (pls : List (Nat × Place)) (t : State) : Prop where
  others : ∀ d, d ≠ s.cur.core → t.core d = s.core d
  rest : { t with cores := s.cores, mesh := s.mesh } = s
  mem : ∀ a, t.mem.get a = s.mem.get a
  mesh : t.mesh = s.mesh ++ loadMsgs s size 0 pls
  regs : SameRegisters s.curCore { t.curCore with busy := s.curCore.busy, busyOa := s.curCore.busyOa, busyOld := s.curCore.busyOld }
  ord : t.curCore.ord = s.curCore.ord + 1
  flights : t.curCore.flights = s.curCore.flights ++ [{ resultOf s lat [] 0 with
    load := some { kind := kind, budget := budget, elems := loadElemsOf s size pls, resp := loadNominal s.cur.core pls } }]

/-- The elements of a store that have a place, in ascending order. -/
def storeCells (els : List (Place × List Byte)) : List (Nat × List Byte) :=
  els.filterMap (fun e => match e.1 with
    | .at_ a => some (a, e.2)
    | _ => none)

/-- A store has issued (R129): where every element is on the own core the bytes are written, the later element last, and every other
byte is as before; else one commit-queue entry holds it, with `prel` whether its record's address is pen-relative, and no byte has
changed. -/
structure StoreIssued (s : State) (prel : Bool) (els : List (Place × List Byte)) (t : State) : Prop where
  others : ∀ d, d ≠ s.cur.core → t.core d = s.core d
  rest : { t with cores := s.cores, pens := s.pens, mem := s.mem, poison := s.poison, late := s.late } = s
  regs : t.curCore.fen = s.curCore.fen ∧ t.curCore.s = s.curCore.s ∧ t.curCore.v = s.curCore.v ∧ t.curCore.q = s.curCore.q ∧
    t.curCore.a = s.curCore.a ∧ t.curCore.g = s.curCore.g ∧ t.curCore.b = s.curCore.b ∧ t.curCore.flights = s.curCore.flights ∧
    t.curCore.oStat = s.curCore.oStat ∧ t.curCore.oPiv = s.curCore.oPiv ∧ t.curCore.dith = s.curCore.dith ∧
    t.curCore.pal = s.curCore.pal ∧ t.curCore.tags = s.curCore.tags ∧ t.curCore.byp = s.curCore.byp
  ord : t.curCore.ord = s.curCore.ord + 1
  here : (∀ x ∈ storeCells els, nearCore x.1 = s.cur.core) →
    t.mem = (storeCells els).foldl (fun m x => m.writeAt (nearKeys x.1 x.2.length) x.2) s.mem ∧ t.curCore.cq = s.curCore.cq
  away : (∃ x ∈ storeCells els, nearCore x.1 ≠ s.cur.core) →
    t.mem = s.mem ∧ t.curCore.cq = s.curCore.cq ++ [{ ord := s.curCore.ord, eff := .store (storeCells els) prel }]

/-- An access of the word is refused by its record (R128): the pen stops with a machine check that names the word; no result of it will
be written and no byte has changed. -/
structure NearRefused (s : State) (t : State) : Prop where
  others : ∀ d, d ≠ s.cur.core → t.core d = s.core d
  mem : ∀ a, t.mem.get a = s.mem.get a
  flights : ∀ f ∈ t.curCore.flights, f ∈ s.curCore.flights ∧ f.ord ≠ s.curCore.ord
  regs : t.curCore.s = s.curCore.s ∧ t.curCore.v = s.curCore.v ∧ t.curCore.q = s.curCore.q ∧ t.curCore.a = s.curCore.a ∧
    t.curCore.g = s.curCore.g ∧ t.curCore.b = s.curCore.b
  pen : s.penOf s.cur.core < s.pens.length → s.curPen.stop = none →
    (t.pen (s.penOf s.cur.core)).stop.isSome = true ∧ (t.curCore.fsr = s.curCore.fsr →
      (t.pen (s.penOf s.cur.core)).stop.map (·.tstat) =
        some (tstatWord .machineCheck (s.curPen.rel s.cur.core) s.cur.col s.cur.slot s.cur.it))

/-- The places of chunk 0 of a vector access, active elements in ascending order (R128). -/
def vecPlaces (s : State) (h : Hdr) (n : Ns) (idx : Nat → Int) : List (Nat × Place) :=
  ((List.range (256 / n.ty.lane)).filter (fun e => (maskOf s.curCore h).getLsbD e)).map (fun e =>
    (e, placeElem s.curPen s.curCore.b[n.br] (n.ty.lane / 8) (idx e)))

/-- Array index of element `e`: s[X] + OFS + e, or v[X] element e + OFS (R128). -/
def linearIdx (k : Core) (n : Ns) (e : Nat) : Int := (k.rdS n.x).toInt + n.ofs.toInt + e
def indexedIdx (k : Core) (n : Ns) (e : Nat) : Int :=
  (if n.ty.lane = 32 then (BitVec.ofNat 32 (velem k.v[n.x] 32 e)).toInt else velem k.v[n.x] n.ty.lane e) + n.ofs.toInt

/-- The record refuses the word (R128): its SPC is not 01, or an active element of the first `span` chunks takes a machine check. That a
word with a linear index is judged whole on its issue beat, and one with an index register chunk by chunk, is the model's reading
(log 44). -/
def recordRefuses (s : State) (h : Hdr) (n : Ns) (idx : Nat → Int) (span : Nat) : Prop :=
  descSpc s.curCore.b[n.br] ≠ 1 ∨ ∃ e < span * (256 / n.ty.lane), (maskOf s.curCore h).getLsbD e = true ∧
    placeElem s.curPen s.curCore.b[n.br] (n.ty.lane / 8) (idx e) = .check

/-- A vector load's first chunk: refused, or issued with its budget (R45, R128). -/
def VectorLoad (i : Instr) (s : State) (h : Hdr) (d : VDst) (n : Ns) (idx : Nat → Int) (span : Nat) : Prop :=
  let pls := vecPlaces s h n idx
  (recordRefuses s h n idx span → After (exec i s) (NearRefused s)) ∧
  (¬ recordRefuses s h n idx span → After (exec i s) (LoadIssued s (.vchunk d n.ty 0) (n.ty.lane / 8) n.budget n.budget pls))

/-- The elements chunk 0 of a vector store writes: active lanes of the source. -/
def vecStore (s : State) (h : Hdr) (d : VSrc) (n : Ns) (idx : Nat → Int) : List (Place × List Byte) :=
  let c : ChunkWord := { h := h, lat := 0, n := 0, lane := fun _ _ => none, dest := fun _ => [] }
  let ls := sourceLanes s.curCore c (d, n.ty)
  ((List.range (256 / n.ty.lane)).filter (fun e => (maskOf s.curCore h).getLsbD e && (ls.getD e (0, false)).2)).map (fun e =>
    (placeElem s.curPen s.curCore.b[n.br] (n.ty.lane / 8) (idx e), leBytes (n.ty.lane / 8) (ls.getD e (0, false)).1))

/-- A vector store's first chunk (R128, R129); a port source must hold a token. -/
def VectorStore (i : Instr) (s : State) (h : Hdr) (d : VSrc) (n : Ns) (idx : Nat → Int) (span : Nat) : Prop :=
  let els := vecStore s h d n idx
  let refused := if d.isPort then descSpc s.curCore.b[n.br] ≠ 1 ∨ ∃ x ∈ els, x.1 = .check else recordRefuses s h n idx span
  hasTokens s.curCore [(d, n.ty)] →
    (refused → After (exec i s) (NearRefused s)) ∧ (¬ refused → After (exec i s) (StoreIssued s (s.curCore.b[n.br].getLsbD 32) els))

/-- The places of `m` consecutive elements of a block access (R149, R158). -/
def rowPlaces (s : State) (n : Ns) (m : Nat) : List (Nat × Place) :=
  (List.range m).map (fun e => (e, placeElem s.curPen s.curCore.b[n.br] (n.ty.bits / 8) (linearIdx s.curCore n e)))

/-- A block load or store of the M column: ALIAS, refused, issued, or inactive (R149, R153, R158). -/
def BlockWord (i : Instr) (s : State) (h : Hdr) (names : List (Fin 8)) (busy : Nat) (oa : Bool) (pls : List (Nat × Place))
    (issued : State → Prop) : Prop :=
  (aliased s.curCore names → After (exec i s) (StoppedHere s .alias_ 0 0)) ∧
  (¬ aliased s.curCore names → ¬ isActive s h →
    After (exec i s) (NodeIdle s { h := h, busy := busy, oa := oa, lat := 0, writes := [] })) ∧
  (¬ aliased s.curCore names → isActive s h → (∃ x ∈ pls, x.2 = .check) → After (exec i s) (NearRefused s)) ∧
  (¬ aliased s.curCore names → isActive s h → (∀ x ∈ pls, x.2 ≠ .check) → After (exec i s) (fun t =>
    t.curCore.busy = busy ∧ t.curCore.busyOa = oa ∧ issued t))

/-- The 2,064 elements of 32 bits an orthogonal accumulator is saved as (R158): V, T, the status word, PIV, and zeros. -/
def oaSaved (k : Core) (o : Fin 4) (e : Nat) : Nat :=
  if e < 1024 then accEl k.a[oaV o] .fp32 e
  else if e < 2048 then accEl k.a[oaT o] .fp32 (e - 1024)
  else if e < 2050 then k.oStat[o].toNat / 2 ^ (32 * (e - 2048)) % 2 ^ 32
  else if e < 2055 then k.oPiv[o].toNat / 2 ^ (32 * (e - 2050)) % 2 ^ 32
  else 0

end Sys2Proof.Machine
end

