-- ==== Sys2Proof/Certificates/Slice0/ExchangeTable.lean ====
section
/-! DEFINITION. The X column's results (07_exchange.md), what a timing trap does (R54) and what a result does on its ready beat (R43),
written apart from the meanings. -/

namespace Sys2Proof.Machine

open Sys2Proof

/-! ### Ports (R160 to R165) -/

/-- A port word has read the head token of a port: popped or not, with its result, if any, two beats from its ready beat (R160, R162). -/
structure PortRead (s : State) (p : Fin 8) (pop : Bool) (ws : Option (List Write)) (fl : Flags) (t : State) : Prop where
  only : OnlyCoreOrStop s.cur.core s t
  regs : SameRegisters s.curCore t.curCore
  ord : t.curCore.ord = s.curCore.ord + 1
  rx : ∀ q, t.curCore.rx[q] = if pop = true ∧ q = p then (s.curCore.rx[q]).pop else s.curCore.rx[q]
  fsr : t.curCore.fsr = s.curCore.fsr ||| fl
  flights : t.curCore.flights = s.curCore.flights ++ (match ws with
    | none => []
    | some ws => [resultOf s 2 ws 0])
  streams : t.curCore.streams = s.curCore.streams

/-- A scalar taken from a token (R162): an active word converts element 0; an inactive lane writes nothing; an inactive word only pops. -/
def TakesScalar (i : Instr) (s : State) (h : Hdr) (d : Fin 32) (p : Fin 8) (ty : Fmt) (pop : Bool) : Prop :=
  ∀ tok, (s.curCore.rx[p]).avail.head? = some tok →
    let e := tok.elem0 s.curCore ty
    (isActive s h → After (exec i s) (PortRead s p pop (if e.1.2 then some [.s d (extend ty e.1.1)] else none) e.2)) ∧
    (¬ isActive s h → After (exec i s) (PortRead s p pop none 0))

/-- 256 bits taken from a token into a predicate register (R162). -/
def TakesPredicate (i : Instr) (s : State) (h : Hdr) (d : Fin 16) (p : Fin 8) (pop : Bool) : Prop :=
  ∀ tok, (s.curCore.rx[p]).avail.head? = some tok →
    (isActive s h → After (exec i s) (PortRead s p pop (some [.q d tok.data (BitVec.allOnes 256)]) 0)) ∧
    (¬ isActive s h → After (exec i s) (PortRead s p pop none 0))

/-- The first of several pops has been made: the result of its chunk, if any, is in flight, and the word goes on where more are to
come (R160). -/
structure FirstPop (s : State) (i : Instr) (h : Hdr) (p : Fin 8) (pops lat : Nat) (ws : Option (List Write)) (fl : Flags) (t : State) :
    Prop where
  only : OnlyCoreOrStop s.cur.core s t
  regs : SameRegisters s.curCore t.curCore
  ord : t.curCore.ord = s.curCore.ord + 1
  rx : ∀ q, t.curCore.rx[q] = if q = p then (s.curCore.rx[q]).pop else s.curCore.rx[q]
  fsr : t.curCore.fsr = s.curCore.fsr ||| fl
  flights : t.curCore.flights = s.curCore.flights ++ (match ws with
    | none => []
    | some ws => [resultOf s lat ws 0])
  streams : if pops = 1 then t.curCore.streams = s.curCore.streams else ∃ st, t.curCore.streams = s.curCore.streams ++ [st] ∧
    st.instr = i ∧ st.next = 1 ∧ st.total = pops ∧ st.ord = s.curCore.ord ∧ st.col ≠ .s

/-- The lanes of the first token of a `recv.v`, with the word's own mask (R51, R109, R162). -/
def recvLanes (k : Core) (h : Hdr) (tok : Tok) (ty : Fmt) : List Lane × Flags :=
  let m := maskOf k h
  let n := 256 / ty.lane
  let g := tok.lanes k ty n (fun _ => {})
  let on := fun (e : Nat) => g.on e && m.getLsbD e
  ((List.range n).map (fun e => ((g.lanes.getD e ((0, false), 0)).1.1, on e)), g.flags on)

/-- Tokens have been sent towards a tx port, one a beat from two beats on (R163). -/
structure Sent (s : State) (p : Fin 8) (toks : List Tok) (t : State) : Prop where
  only : OnlyCore s.cur.core s t
  core : t.curCore = { s.curCore with
    ord := s.curCore.ord + 1
    flights := s.curCore.flights ++ toks.zipIdx.map (fun x => { resultOf s (2 + x.2) [.push p x.1] 0 with sub := x.2 }) }

/-- The tokens each send forms (R50, R163): an inactive word still sends, zeros with no predicate bit. -/
def sendSpec (s : State) : Instr → Option (Fin 8 × List Tok)
  | .sendS h p a ty tag => some (p, [if isActive s h then
      { data := BitVec.ofNat 256 ((s.curCore.rdS a).toNat % 2 ^ ty.lane), pred := 1, tag := tag } else { tag := tag }])
  | .sendV h p a ty cnt tag =>
    let n := 256 / ty.lane
    some (p, (List.range (cnt.val + 1)).map (fun j => lanesTok ty.lane tag ((List.range n).map (fun e =>
      (velem s.curCore.v[a] ty.lane (j * n + e), (maskOf s.curCore h).getLsbD (j * n + e))))))
  | .sendq h p a tag => some (p, [if isActive s h then { data := s.curCore.rdQ a, pred := 255, tag := tag } else { tag := tag }])
  | _ => none

/-! ### The timing trap (R54) -/

/-- A timing trap has been taken (R54): on every core of the pen the s, q and ring registers and dith are the snapshot's, the other
registers are as they were, popped tokens are back and the commit queue is empty; the pen stands before its restart slot, 32 beats of
rewind ahead of it, rpc has counted the restart, and the region stack has its depth and overflow count of the snapshot (R53, R98, R100). -/
structure Rewound (s : State) (h : Nat) (t : State) : Prop where
  cores : ∀ c ∈ (s.pen h).cores, (t.core c).s = (s.core c).snap.s ∧ (t.core c).q = (s.core c).snap.q ∧ (t.core c).g = (s.core c).snap.g ∧
    (t.core c).dith = (s.core c).snap.dith ∧ (t.core c).v = (s.core c).v ∧ (t.core c).a = (s.core c).a ∧ (t.core c).b = (s.core c).b ∧
    (t.core c).oStat = (s.core c).oStat ∧ (t.core c).oPiv = (s.core c).oPiv ∧ (t.core c).fen = (s.core c).fen ∧
    (t.core c).pal = (s.core c).pal ∧ (t.core c).tags = (s.core c).tags ∧ (t.core c).tx = (s.core c).tx ∧
    (t.core c).out = (s.core c).out ∧ (t.core c).cq = [] ∧
    (∀ p : Fin 8, (t.core c).rx[p].q = (s.core c).rx[p].q ∧ (t.core c).rx[p].taken = 0) ∧
    (∀ f ∈ (t.core c).flights, f.old = true)
  others : ∀ c, c ∉ (s.pen h).cores → t.core c = s.core c
  place : (t.pen h).slot = (s.pen h).rsSlot ∧ (t.pen h).it = (s.pen h).rsIt ∧ (t.pen h).started = false ∧ (t.pen h).rewind = 32 ∧
    (t.pen h).tick = (s.pen h).tick ∧ (t.pen h).finNew = []
  rpc : (t.pen h).rpc = if (s.pen h).rpc = BitVec.allOnes 32 then (s.pen h).rpc else (s.pen h).rpc + 1
  cons : (t.pen h).cons = (s.pen h).cons + 1
  lbs : (s.pen h).shift ≤ 4 → (lbsWord (t.pen h)).toNat / 256 = Nat.min ((s.pen h).cons + 1) 255
  shift : (t.pen h).shift = if (t.pen h).cons % 3 = 0 ∧ (s.pen h).shift < 4 then (s.pen h).shift + 1 else (s.pen h).shift
  stuck : (t.pen h).cons % 3 = 0 → 4 ≤ (s.pen h).shift → (t.pen h).stop.isSome = true
  tstat : (t.pen h).tstat = (s.pen h).tstat
  region : (t.pen h).rgnOv = (s.pen h).snapRgnOv ∧ (t.pen h).rgnPend = none ∧
    (t.pen h).rgn = ((s.pen h).rgn ++ (s.pen h).rgnGone).take (s.pen h).snapRgn
  mem : (t.pen h).cons % 3 ≠ 0 → ∀ a, t.mem.get a = s.mem.get a

/-- The ports a V or X word reads on its first beat. -/
def readsPorts : Instr → List (Fin 8)
  | .recvS _ _ p _ | .recvV _ _ p _ _ | .recvQ _ _ p | .peekS _ _ p _ | .peekQ _ _ p | .drop _ p _ | .st _ (.port p) _ => [p]
  | .gfill _ _ p _ _ => [p]
  | i => i.vRx

/-! ### Commands (R50, R56, R166) -/

/-- The request a command word makes, with its registers as they read on the issue beat. -/
def Requests (s : State) (i : Instr) (o : F6) (m : Cmd) : Prop :=
  m.word = i ∧ m.o = o ∧ m.cmd = s.curCore.rdS o.cmd ∧ m.a = s.curCore.rdS o.a ∧ m.b = s.curCore.rdS o.b ∧ m.core = s.cur.core ∧
  m.ctx = s.curPen.ctx ∧ m.tick = s.curPen.tick ∧ m.ord = s.curCore.ord ∧ m.slot = s.cur.slot

/-- An asynchronous word takes one entry of the commit queue, which leaves at the next restart point; an inactive one only stands for its
token of zeros (R50, R56, R166). Nothing else has changed. -/
def Queues (i : Instr) (s : State) (h : Hdr) (o : F6) : Prop :=
  After (exec i s) (fun t => ∃ m, Requests s i o m ∧ m.sync = false ∧ (m.zero = true ↔ ¬ isActive s h) ∧
    OnlyCore s.cur.core { s with fresh := s.fresh + 1 } t ∧
    t.curCore = { s.curCore with ord := s.curCore.ord + 1, cq := s.curCore.cq ++ [{ ord := s.curCore.ord, eff := .cmd m }] })

/-- The asynchronous command words of the X column (R173). -/
def asyncSpec : Instr → Option (Hdr × F6)
  | .lcopy h o | .lcopyShort h o | .lgath h o | .lscat h o | .lwin h o | .lfill h o | .lprf h o | .lprfShort h o | .lexp h o | .limp h o
  | .aadd h o | .amin h o | .amax h o | .aand h o | .aor h o | .axor h o | .aswap h o | .acas h o | .ald h o | .ast h o
  | .awaitAsync h o | .apop h o | .apush h o | .arrive h o | .fenceAsync h o | .dsend h o | .dtw h o | .dtd h o | .dcommit h o | .dtr h o
  | .dmd h o | .dabn h o | .dret h o | .dstat h o | .ckpt h o | .cfgld h o | .swap h o => some (h, o)
  | _ => none

/-- The synchronisation words, with the register check each makes (R167, R173, R177, R181, R187). -/
def syncSpec (s : State) : Instr → Option (Hdr × F6 × Bool)
  | .awaitSync h o =>
    let n := if o.sub.val % 8 = 1 || o.sub.val % 8 = 4 then 8 else 4
    some (h, o, (s.curCore.rdS o.cmd).toNat % n != 0)
  | .bar h o =>
    let n := (s.curCore.rdS o.a).toNat
    let most := match o.sc with
      | .quad => 4
      | .die => 192
      | _ => 2 ^ 32
    some (h, o, decide (n = 0 ∨ most < n))
  | .bwait h o => some (h, o, false)
  | .fenceSync h o => some (h, o, false)
  | .liter h o => some (h, o, (s.curCore.rdS o.cmd).toNat % 8 != 0)
  | _ => none

/-- A synchronisation word (R53, R167): sent directly, behind what its core's queue held, once for each time its slot is reached; a bad
register is a machine check; inactive or already sent it does nothing. -/
def SyncWord (i : Instr) (s : State) (h : Hdr) (o : F6) (bad : Bool) : Prop :=
  let c := s.cur.core
  (¬ isActive s h ∨ c ∈ s.curPen.sent → After (exec i s) (Passed s)) ∧
  (isActive s h → c ∉ s.curPen.sent → bad = true → After (exec i s) (StoppedHere s .machineCheck 0 0)) ∧
  (isActive s h → c ∉ s.curPen.sent → bad = false → s.penOf c < s.pens.length → After (exec i s) (fun t =>
    ∃ m, Requests s i o m ∧ m.sync = true ∧ m.zero = false ∧ t.curCore.cq = [] ∧
      t.curCore.out = ((s.releaseCore c).core c).out ++ [m] ∧ t.curCore.ord = s.curCore.ord + 1 ∧
      (t.pen (s.penOf c)).syncs = ((s.releaseCore c).pen (s.penOf c)).syncs ++ [m] ∧
      (t.pen (s.penOf c)).sent = ((s.releaseCore c).pen (s.penOf c)).sent ++ [c] ∧
      t.curCore.s = s.curCore.s ∧ t.curCore.q = s.curCore.q ∧ t.curCore.v = s.curCore.v ∧ t.curCore.flights = s.curCore.flights ∧
      ∀ a, t.mem.get a = (s.releaseCore c).mem.get a))

/-! ### Results on their ready beats (R43, R52, R98, R99) -/

/-- A core in which only the registers `f` rewrites have changed, and the bookkeeping of results and of raised flags. -/
def Landed (k : Core) (want : Core) (t : Core) : Prop :=
  { t with flights := k.flights, raised := k.raised, raisedT := k.raisedT, trapF := k.trapF, snap := k.snap } = want

/-- What one write does to its core (R43, R52, R96, R133, R139, R188): s0 and q0 discard, the lanes of a mask alone change, the lower half
of an accumulator alone is written under a 32-bit type. -/
def landSpec (k : Core) : Write → Option Core
  | .s r v => some (if r = 0 then k else { k with s := k.s.set r v })
  | .v r d m => some { k with v := k.v.set r ((k.v[r] &&& ~~~m) ||| (d &&& m)) }
  | .q r d m => some (if r = 0 then k else { k with q := k.q.set r ((k.q[r] &&& ~~~m) ||| (d &&& m)) })
  | .b r v => some { k with b := k.b.set r v }
  | .bw r i v =>
    let n := (k.b[r]).toNat
    some { k with b := k.b.set r (BitVec.ofNat 256
      (n % 2 ^ (64 * i.val) + v.toNat * 2 ^ (64 * i.val) + n / 2 ^ (64 * i.val + 64) * 2 ^ (64 * i.val + 64))) }
  | .acc r v => some { k with a := k.a.set r v }
  | .accLo r v => some { k with a := k.a.set r (BitVec.ofNat 65536 ((k.a[r]).toNat / 2 ^ 32768 * 2 ^ 32768 + v.toNat)) }
  | .ring g r => some { k with g := k.g.set g r }
  | .ringAdv g n => some { k with g := k.g.set g { k.g[g] with count := k.g[g].count + BitVec.ofNat 8 n } }
  | .ringPop g n => some { k with g := k.g.set g { k.g[g] with
      head := (if k.g[g].cap = 0 then k.g[g].head else BitVec.ofNat 8 ((k.g[g].head.toNat + n) % k.g[g].cap.toNat)),
      count := k.g[g].count - BitVec.ofNat 8 n } }
  | .ringRow g row => some { k with g := k.g.set g { k.g[g] with fillrow := row } }
  | .tagSet i e => some { k with tags := Tab.put k.tags i.val e }
  | .tagInv key => some { k with tags := k.tags.map (fun e => if e.2.key = key then (e.1, { e.2 with valid := false }) else e) }
  | .tagClr => some { k with tags := [] }
  | .oStat o v => some { k with oStat := k.oStat.set o v }
  | .oPiv o v => some { k with oPiv := k.oPiv.set o v }
  | _ => none

/-- What an `mtc` does to a core's own CSR on its ready beat (R57, R98): reserved and read-only bits ignore it. A select counts from the
beat after on, so the old selects are kept for this one (R316). -/
def csrSpec (k : Core) (now n : Nat) (v : W64) : Core :=
  if n = 0x05 then { k with fsr := v.truncate 5 ||| (if k.raisedT = now then k.raised else 0) }
  else if n = 0x06 then { k with fen := v.truncate 5 }
  else if n = 0x07 then { k with dith := v.truncate 16 }
  else if n < 0x10 then k
  else if n < 0x20 then { k with pal := k.pal.setIfInBounds (n - 0x10) (v.truncate 5) }
  else if n < 0x28 then { k with evc := k.evc.setIfInBounds (n - 0x20) v }
  else if n < 0x30 then { k with
    evs := k.evs.setIfInBounds (n - 0x28) (v &&& 0xFFFF80FF), evsPrev := (if k.evsT = now then k.evsPrev else k.evs), evsT := now }
  else k

end Sys2Proof.Machine
end

