-- ==== Sys2Proof/Certificates/Slice0/PartTable.lean ====
section
/-! DEFINITION. What the part's own steps do (95_what_each_step_holds.md), written apart from the meanings: pens, ports, engines, the
drove, demand units, the shepherd's entries. -/

namespace Sys2Proof.Machine

open Sys2Proof

/-- Bytes that hold a near-space element read as they did, and one place in near space holds new bytes. -/
def nearPut (m : Mem) (addr : Nat) (bs : List Byte) : Mem := m.writeAt (nearKeys addr bs.length) bs

/-! ### Results on their ready beats -/

/-- Of the results of a core exactly `f` is to be written on this beat, and none is late. -/
def OneReady (s : State) (c : Nat) (f : Flight) : Prop :=
  (s.pen (s.penOf c)).frozen = .running ∧ (s.core c).flights.filter Flight.due = [f] ∧ ∀ g ∈ (s.core c).flights, g.late = false

/-- A result has been written: of the core what `want` says and its flags, of the rest nothing but a stop of its pen (R35, R36, R43). -/
structure ResultWritten (s : State) (c : Nat) (f : Flight) (want : Core) (t : State) : Prop where
  others : ∀ d, d ≠ c → t.core d = s.core d
  rest : { t with cores := s.cores, pens := s.pens } = s
  core : Landed (s.core c) { want with fsr := want.fsr ||| f.flags } (t.core c)
  flights : (t.core c).flights = (s.core c).flights.filter (fun g => !g.due)
  snap : f.old = false → (t.core c).snap = (s.core c).snap
  quiet : f.flags &&& ~~~want.fsr &&& want.fen = 0 → t.pens = s.pens
  trap : f.flags &&& ~~~want.fsr &&& want.fen ≠ 0 → s.penOf c < s.pens.length → (s.pen (s.penOf c)).stop = none →
    (t.pen (s.penOf c)).stop.map (·.tstat) = some (tstatWord .flagTrap ((s.pen (s.penOf c)).rel c) f.col f.slot f.it)

/-- A token has taken its commit-queue entry on its ready beat (R56); the counters of the core may have counted it (R316). -/
def Pushed (s : State) (c : Nat) (f : Flight) (p : Fin 8) (tok : Tok) (t : State) : Prop :=
  ResultWritten s c f { s.core c with
    evc := (t.core c).evc, cq := (s.core c).cq ++ [{ ord := f.ord, sub := f.sub, col := f.col, eff := .push p tok }] } t

/-- The elements of a load whose bytes have all come. -/
def gotElems (xs : List (Nat × List Byte)) : List LoadElem := xs.map (fun x => { i := x.1, got := some x.2 })

/-- The lanes of a chunk they fill: the others are inactive (R128). -/
def gotLanes (ty : Fmt) (xs : List (Nat × List Byte)) : List (Nat × Bool) :=
  (List.range (256 / ty.lane)).map (fun i => match xs.find? (fun x => x.1 = i) with
    | some x => (leNat x.2, true)
    | none => (0, false))

/-- The loaded status word of an orthogonal accumulator, low half first (R158). -/
def oaStatusIn (bs : Nat → List Byte) : Nat := leNat (bs 2048) + 2 ^ 32 * leNat (bs 2049)

/-- Are the contents an `oaload` brings a machine check: CNT over 32, POL 11, a reserved bit or element that is not zero (R158)? -/
def oaRefused (bs : Nat → List Byte) : Bool :=
  decide (32 < oaStatusIn bs / 2 ^ 26 % 64) || oaStatusIn bs / 2 ^ 12 % 4 == 3 || oaStatusIn bs / 2 ^ 3 % 2 ^ 9 != 0 ||
    (List.range 9).any (fun i => leNat (bs (2055 + i)) != 0)

/-- What an `oaload` restores (R158): V, T, the status word and PIV. -/
def oaRestored (o : Fin 4) (bs : Nat → List Byte) : List Write :=
  let els := fun (from_ n : Nat) => (List.range n).map (fun i => leNat (bs (from_ + i)))
  [accWrite (oaV o) .fp32 (els 0 1024), accWrite (oaT o) .fp32 (els 1024 1024), .oStat o (BitVec.ofNat 64 (oaStatusIn bs)),
    .oPiv o (BitVec.ofNat 160 (packLanes 32 (els 2050 5)))]

/-- What an `mtc` does to a pen-wide CSR (R42, R57, R61, R99): the first write of a beat stands. -/
def penCsrSpec (p : Pen) (n : Nat) (v : W64) : Pen :=
  if n = 0x02 then { p with iterNext := if v.toNat % 2 ^ 32 = 0 then 1 else BitVec.ofNat 32 v.toNat }
  else if n = 0x30 then { p with rpc := BitVec.ofNat 32 v.toNat }
  else { p with shift := Nat.min 4 (v.toNat % 8) }

/-- What an `mfc` of CSR `n` reads on core `c` of a pen (R57 to R61, R308, R309). -/
def CsrSeen (p : Pen) (k : Core) (c n : Nat) (v : W64) : Prop :=
  (n = 0x00 → (v.toNat : Int) = p.tick % 2 ^ 48) ∧ (n = 0x01 → v.toNat = p.it.toNat) ∧ (n = 0x02 → v.toNat = p.iterNext.toNat) ∧
  (n = 0x03 → (∀ l ∈ p.lens, l = 1 ∨ l = 2 ∨ l = 4 ∨ l = 8) → ∀ j < 32,
    if j < p.n then 2 ^ (v.toNat / 4 ^ j % 4) = p.lens.getD j 1 else v.toNat / 4 ^ j % 4 = 0) ∧
  (n = 0x04 → 1 ≤ p.n → p.n ≤ 32 → (p.lens.take p.n).sum < 512 → v.toNat = (p.n - 1) * 2 ^ 16 + (p.lens.take p.n).sum) ∧
  (n = 0x05 → v.toNat = k.fsr.toNat) ∧ (n = 0x06 → v.toNat = k.fen.toNat) ∧ (n = 0x07 → v.toNat = k.dith.toNat) ∧
  (n = 0x08 → v = p.tstat) ∧
  (n = 0x09 → ∀ j < 4, v.toNat / 2 ^ (16 * j) % 2 ^ 16 = if j < p.rgn.length then (p.rgn.getD (p.rgn.length - 1 - j) 0).toNat else 0) ∧
  (n = 0x0A → p.rgnOv < 2048 → p.rgn.length ≤ 16 → v.toNat = p.rgnOv * 32 + p.rgn.length) ∧
  (n = 0x0B → ∀ y x, y < p.h → x < p.w → p.row + p.h ≤ 12 → p.col + p.w ≤ 16 → p.die < 4 →
    c = p.die * 192 + (p.row + y) * 16 + p.col + x →
    v.toNat = p.die * 2 ^ 30 + ((p.row + y) * 16 + p.col + x) * 2 ^ 22 + y * 2 ^ 18 + x * 2 ^ 14) ∧
  (n = 0x0C → 1 ≤ p.h → 1 ≤ p.w → p.row + p.h ≤ 12 → p.col + p.w ≤ 16 →
    v.toNat = p.pid.toNat * 2 ^ 32 + p.row * 2 ^ 28 + p.col * 2 ^ 24 + (p.h - 1) * 2 ^ 20 + (p.w - 1) * 2 ^ 16) ∧
  (n = 0x0D → v.toNat = p.ctx % 4096) ∧
  (∀ j : Fin 16, n = 0x10 + j.val → v.toNat = (k.pal[j]).toNat) ∧
  (∀ j : Fin 8, n = 0x20 + j.val → v = k.evc[j]) ∧ (∀ j : Fin 8, n = 0x28 + j.val → v = k.evs[j]) ∧
  (n = 0x30 → v.toNat = p.rpc.toNat) ∧ (n = 0x31 → p.shift < 8 → v.toNat = Nat.min p.cons 255 * 2 ^ 8 + p.shift)

/-! ### The region stack -/

/-- The region stack (R100, R309): a push stores its id, or on a full stack adds to the overflow count, which stops at 2,047 (that the
count itself stops there is the model's choice, log 97); a pop first takes from that count, then the top id; a rewind gives back depth and
count, with every id that no push has overwritten. Which ids are armed is R310's. -/
def RegionStack : Prop :=
  ∀ (p : Pen) (id : BitVec 16),
    (p.rgn.length < 16 → (p.rgnPush id).rgn = p.rgn ++ [id] ∧ (p.rgnPush id).rgnOv = p.rgnOv) ∧
    (16 ≤ p.rgn.length → (p.rgnPush id).rgn = p.rgn ∧ (p.rgnPush id).rgnOv = Nat.min 2047 (p.rgnOv + 1)) ∧
    (0 < p.rgnOv → p.rgnPop.rgn = p.rgn ∧ p.rgnPop.rgnOv = p.rgnOv - 1) ∧
    (p.rgnOv = 0 → p.rgnPop.rgn = p.rgn.dropLast ∧ p.rgnPop.rgnOv = 0) ∧
    (∀ n, (Nat.repeat Pen.rgnPop n { p with snapRgn := p.rgn.length, snapRgnOv := p.rgnOv }).rgnBack.rgn = p.rgn) ∧
    (∀ n, (Nat.repeat Pen.rgnPop n { p with snapRgn := p.rgn.length, snapRgnOv := p.rgnOv }).rgnBack.rgnOv = p.rgnOv) ∧
    (p.rgnOv < 2048 → p.rgn.length ≤ 16 → (rgndWord p).toNat = p.rgnOv * 32 + p.rgn.length) ∧
    (p.armed id = true ↔ p.bp.getLsbD 62 = true ∧ id ≠ 0 ∧
      (p.bp.extractLsb' 32 16 = id ∨ p.bp.extractLsb' 16 16 = id ∨ p.bp.extractLsb' 0 16 = id))

/-! ### Accesses to other cores -/

/-- Two cores on different dies have exchanged a flit each way, the second only where an answer returns: each die's counters that count flits
(source 8, R316; what counts as one flit is the model's choice, log 100) have gone up by one, and nothing else of any die has changed. -/
def FlitsSent (s t : State) (src dst : Nat) (back : Bool) : Prop :=
  let sends := fun (d : Nat) => coreDie src ≠ coreDie dst ∧ (d = coreDie src ∨ (back = true ∧ d = coreDie dst))
  ∀ d : Fin 4, { t.dies[d] with devc := s.dies[d].devc } = s.dies[d] ∧ ∀ i : Fin 16,
    t.dies[d].devc[i] = if sends d ∧ s.dies[d].devs[i].getLsbD 15 = true ∧ s.dies[d].devs[i].toNat % 256 = 8
      then s.dies[d].devc[i] + 1 else s.dies[d].devc[i]

/-! ### Slots -/

/-- A pen's next slot may start: it runs, is not rewinding, has no stop pending and no slot in progress, stands in a tick, and no push
waits for room (R48). -/
def MayStart (s : State) (h : Nat) : Prop :=
  let p := s.pen h
  h < s.pens.length ∧ p.live = true ∧ p.ended = false ∧ p.frozen = .running ∧ p.rewind = 0 ∧ p.started = false ∧ p.stop = none ∧
  p.rgnPend = none ∧ p.bp = (s.ctx p.ctx).bp ∧ p.inTick = true ∧ p.tickOver = false ∧ s.pushWaits h = false ∧
  ∀ k ∈ s.poison, k < 2 ^ 56

/-- A slot has started (R40, R42, R48): its rows are next, and nothing else has changed but the counters. -/
structure SlotStarted (s : State) (h : Nat) (t : State) : Prop where
  pens : ∀ g, g ≠ h → t.pen g = s.pen g
  pen : { t.pen h with afterSync := (s.pen h).afterSync, resuming := (s.pen h).resuming } =
    { s.pen h with started := true, beat := 0, ran := true, hold := none }
  sync : (t.pen h).afterSync = true ↔ ∃ c ∈ (s.pen h).cores, ∃ i hd, (s.core c).wordAt .x (s.pen h).slot = .ok i ∧ i.hdr? = some hd ∧ hd.hold = 2
  cores : ∀ c, { t.core c with evc := (s.core c).evc } = s.core c
  todo : t.todo = s.slotRows h ++ s.todo
  mem : t.mem = s.mem

/-- The reasons of a hold in the order of R48. -/
def holdRank : Hold → Nat
  | .sync => 0 | .ring => 1 | .portEmpty => 2 | .portFull => 3 | .oa => 4 | .noDemand => 5 | .freeze => 6 | .restart => 7

/-- A restart point has passed on a core (R49, R53): what is in flight is older than the snapshot, popped tokens are gone, and the
snapshot holds the s, q and ring registers and dith as they stand. -/
structure Snapshot (k k' : Core) : Prop where
  snap : k'.snap.s = k.s ∧ k'.snap.q = k.q ∧ k'.snap.g = k.g ∧ k'.snap.dith = k.dith
  old : k'.flights = k.flights.map (fun f => { f with old := true })
  rx : ∀ p : Fin 8, k'.rx[p] = { q := (k.rx[p]).avail, taken := 0 }
  same : k'.s = k.s ∧ k'.q = k.q ∧ k'.g = k.g ∧ k'.v = k.v ∧ k'.a = k.a ∧ k'.b = k.b ∧ k'.fsr = k.fsr ∧ k'.fen = k.fen ∧ k'.dith = k.dith ∧
    k'.pal = k.pal ∧ k'.oStat = k.oStat ∧ k'.oPiv = k.oPiv ∧ k'.tags = k.tags ∧ k'.live = k.live ∧ k'.shadow = k.shadow

/-- The token of a command that was active (R170): eight raw elements, every predicate bit 1. -/
structure CompletionToken (d : Done) (tok : Tok) : Prop where
  raw : tok.raw = true
  pred : tok.pred = 0xFF
  data : tok.data.toNat = (d.eng * 2 ^ 24 + d.code * 2 ^ 16 + d.cmd.o.tag.val * 2 ^ 8 + d.die * 2 ^ 6 + d.inst)
    + d.detail.toNat * 2 ^ 32 + d.value.toNat * 2 ^ 64 + d.e4.toNat * 2 ^ 128 + d.e5.toNat * 2 ^ 160 + d.e6.toNat * 2 ^ 192
    + d.e7.toNat * 2 ^ 224

/-! ### Later chunks -/

/-- The one word of a column that goes on over several beats. -/
def OneGoing (s : State) (c : Nat) (col : Col) (st : Stream) : Prop :=
  (s.core c).streams.filter (fun t => t.col = col) = [st] ∧ (s.pen (s.penOf c)).rewind = 0

/-- Chunk `next` of a word that goes on has issued: its result, if any, is in flight, a token is popped where it reads a port, and the
word goes on while more are to come (R40, R107, R160). -/
structure NextChunk (s : State) (c : Nat) (st : Stream) (pop : Option (Fin 8)) (lat : Nat) (ws : Option (List Write)) (fl : Flags)
    (t : State) : Prop where
  others : ∀ d, d ≠ c → t.core d = s.core d
  rest : { t with cores := s.cores, pens := s.pens, cur := s.cur } = s
  regs : SameRegisters (s.core c) (t.core c)
  rx : ∀ q, (t.core c).rx[q] = if pop = some q then ((s.core c).rx[q]).pop else (s.core c).rx[q]
  fsr : (t.core c).fsr = (s.core c).fsr ||| fl
  flights : (t.core c).flights = (s.core c).flights ++ (match ws with
    | none => []
    | some ws => [{ col := st.col, slot := st.slot, it := st.it, ord := st.ord, sub := st.next, remain := lat, writes := ws, old := st.old }])
  streams : (t.core c).streams = (s.core c).streams.filter (fun x => x.col != st.col) ++
    (if st.next + 1 = st.total then [] else [{ st with next := st.next + 1 }])

/-! ### The bellwethers (R177, R178) -/

/-- An integer operand of an atomic word of `n` bytes. -/
def atomInt (n v : Nat) : Int := if v % 2 ^ (8 * n) < 2 ^ (8 * n - 1) then (v % 2 ^ (8 * n) : Nat) else ((v % 2 ^ (8 * n) : Nat) : Int) - 2 ^ (8 * n)

/-- The new value of the word an integer atomic acts on: `n` bytes, `z` unsigned; operands A and B. -/
def atomSpec (n : Nat) (z : Bool) (old a b : Nat) : Instr → Option Nat
  | .aadd .. => some ((old + a) % 2 ^ (8 * n))
  | .amin .. => some (if z then (if old ≤ a then old else a) else if atomInt n old ≤ atomInt n a then old else a)
  | .amax .. => some (if z then (if a ≤ old then old else a) else if atomInt n a ≤ atomInt n old then old else a)
  | .aand .. => some (old &&& a)
  | .aor .. => some (old ||| a)
  | .axor .. => some (old ^^^ a)
  | .aswap .. | .ast .. => some a
  | .acas .. => some (if old = b then a else old)
  | _ => none

/-- Bytes and sign of the integer types of SUB (R177): i32, i64, z32, z64. -/
def atomType (sub : Nat) : Option (Nat × Bool) :=
  if sub = 0 then some (4, false) else if sub = 1 then some (8, false) else if sub = 3 then some (4, true)
  else if sub = 4 then some (8, true) else none

/-- The condition of an `await` by bits 5:3 of its SUB (R89, R179), on words of `n` bytes. -/
def awaitSpec (n cc x y : Nat) : Prop :=
  if cc = 0 then x = y else if cc = 1 then x ≠ y else if cc = 2 then atomInt n x < atomInt n y
  else if cc = 3 then atomInt n x ≤ atomInt n y else if cc = 4 then x < y else x ≤ y

/-- A waiting command without an ordering that no fault has parked and no upset has met. -/
def QuietJob (j : Job) : Prop := j.parked = none ∧ j.upset = false ∧ j.cmd.o.ord = .none

/-- A command without an ordering that no chain built, no fault has parked and no upset has met. -/
def PlainJob (j : Job) : Prop :=
  j.parked = none ∧ j.got = [] ∧ j.bad = [] ∧ j.clock = none ∧ j.upset = false ∧ j.cmd.chain = none ∧ j.cmd.o.ord = .none

/-- No member of the pod owes a job's command an answer (R365). -/
abbrev NoAnswerDue (s : State) (j : Job) : Prop := ∀ x ∈ s.svc.peers, x.2.cmd = j.cmd.id → x.2.ans ≠ none

/-! ### The ladle (R174, R243 to R247) -/

/-- A record that copies `n` elements of one row as they stand. -/
def RowCopy (r : LRec) (n : Nat) : Prop :=
  r.kind = 1 ∧ r.xp = false ∧ r.scm = 0 ∧ r.dfmt = 31 ∧ r.c = [0, 0, 0, 0] ∧ r.d = [0, 0, 0, 0] ∧ r.e = [n, 1, 1, 0] ∧ 0 < n ∧
  r.ilist = 0 ∧ r.icnt = 0 ∧ r.rsvd = false ∧ ∀ w ∈ r.win, w = 0

/-- A descriptor of a row-major array in near space: its address, its length and its format (R236). -/
def NearRow (p : Pen) (d : Chunk) (a len : Nat) (f : Fmt) : Prop :=
  descSpc d = 1 ∧ descLay d = 0 ∧ resolveNear p (descW d 0) = some a ∧ descExt0 d = len ∧ descFmt d = f

/-- Whole-byte formats without scales. -/
def byteFmt (f : Fmt) : Prop :=
  f = .fp32 ∨ f = .fp64 ∨ f = .fp16 ∨ f = .bf16 ∨ f = .e4m3 ∨ f = .e5m2 ∨ f = .dm8 ∨ f = .int32 ∨ f = .int16 ∨ f = .int8 ∨ f = .uint8

/-! ### The drove (R262 to R282) -/

/-- The eighteen words of a record (R263): its header, TAG, DEST, STAT, RC and VER from the top, then f0 to f15. -/
def recordWords (r : DRec) : List Nat :=
  let h := r.tag.toNat * 2 ^ 48 + r.dest.toNat * 2 ^ 36 + r.stat.toNat * 2 ^ 28 + r.rc % 4 * 2 ^ 26 + r.ver % 2 * 2 ^ 25
  [h % 2 ^ 32, h / 2 ^ 32] ++ r.f.map (·.toNat)

/-- A raw token of 32-bit elements, the first lowest. -/
def RawToken (ws : List Nat) (pred : BitVec 32) (tok : Tok) : Prop :=
  tok.raw = true ∧ tok.pred = pred ∧ ∀ i < 8, tok.data.toNat / 2 ^ (32 * i) % 2 ^ 32 = ws.getD i 0

/-- A chain takes no record on this beat: one entered stage 0 less than a drove cycle ago (R262). -/
def chainBusy (s : State) (c : Chain) : Prop := ∃ x, c.acc = some x ∧ s.time < x + 2

/-- A record whose next stage is `n` has reached it: two drove cycles a stage from its entry (R262). -/
def reached (s : State) (n : Nat) (r : DRec) : Prop := r.stage = n ∧ r.t0 + 4 * n ≤ s.time

/-- The stage's image in the version of a record. -/
def cfgOf (st : DStage) (r : DRec) : BitVec 512 := if r.ver = 0 then st.cfg[(0 : Fin 2)] else st.cfg[(1 : Fin 2)]

/-! ### Demand units and planes (R185, R189, R205) -/

/-- Output `i` of a pen is the sink that a command's operand names by its tx port (R185). -/
def NamesSink (p : Pen) (v : W64) (i : Nat) (o : Output) : Prop :=
  p.du.outs[i]? = some o ∧ o.dest = .sink ∧ o.port.val = v.toNat / 2 ^ 16 % 8 ∧
  ∀ j < i, ∀ x, p.du.outs[j]? = some x → ¬ (x.dest = .sink ∧ x.port.val = v.toNat / 2 ^ 16 % 8)

/-- Pen `h` is the pen of the issuer's own instance with a number, live or in a casting (R60, R189, R336). -/
def OwnPen (s : State) (own ctx pid h : Nat) : Prop :=
  let is := fun (p : Pen) => (p.live = true ∨ p.frozen = .cast) ∧ p.ended = false ∧ p.ctx = ctx ∧ p.pid.toNat = pid ∧ p.qid = (s.pen own).qid ∧ p.seq = (s.pen own).seq
  h < s.pens.length ∧ is (s.pen h) ∧ ∀ g < h, ¬ is (s.pen g)

/-- The header of a configuration image for `cores` cores and `n` slots (R332). -/
def ImageHeader (hd : List Byte) (cores n : Nat) : Prop :=
  leNat (hd.take 2) = cores ∧ leNat ((hd.drop 2).take 1) + 1 = n ∧ n ≤ 32 ∧ ∀ b ∈ hd.drop 3, b = 0

/-- A pen stands at a drain point (R333). -/
def Drained (s : State) (h : Nat) : Prop :=
  (s.pen h).inTick = false ∧ ∀ c ∈ (s.pen h).cores, (s.core c).flights = [] ∧ (s.core c).streams = [] ∧ (s.core c).cq = [] ∧
    (s.core c).busy = 0 ∧ (s.core c).recomp = none

/-- A pen whose recorded `fin` has been reported, with its last tick and its commands complete (R102). -/
def MayEnd (s : State) (h : Nat) : Prop :=
  let p := s.pen h
  h < s.pens.length ∧ p.live = true ∧ p.ended = false ∧ p.finRec ≠ none ∧ p.finReported = true ∧ p.inTick = false ∧ p.cmds = [] ∧
  p.syncs = [] ∧ p.frozen = .running ∧ p.du.posted = [] ∧ p.du.inbox = [] ∧ p.du.atBoundary = [] ∧
  ∀ c ∈ p.cores, (s.core c).out = [] ∧ (s.core c).cq = []

/-! ### The shepherd (R320 to R323) -/

/-- The entry that `bus` names is at work: not parked and not completed (R323, R344), and its context's key slot is its own (R355). -/
def AtWork (s : State) (e : Entry) : Prop :=
  s.entry? s.bus.a s.bus.b = some e ∧ e.parked = none ∧ e.res = none ∧ s.keyBound e.ctx = true

/-- The rows of the shepherd about an entry (R322). -/
def entryRows : List Instr :=
  [.launch, .demand, .patch, .replay, .exportRec, .importRec, .freeze, .thaw, .teardown, .table, .wait, .signal]

/-- The status word of a completed entry (R320). -/
def statusWord (code detail aux : Nat) : W64 := BitVec.ofNat 64 (code * 2 ^ 56 + detail * 2 ^ 48 + aux)

/-- The DEMAND, EXPORT and IMPORT commands (R322): the command word each posts, with its operands. -/
def unitSpec (e : Entry) : Instr → Option (Instr × W64 × W64 × W64)
  | .demand => some (.demand, e.word 3, e.word 4, e.word 5)
  | .exportRec => some (.exportRec, e.word 4, e.word 3, 0)
  | .importRec => some (.importRec, e.word 4, e.word 3, 0)
  | _ => none

/-- The entry's instance stands: one live pen for each spot of its placement, in PID order (R328, R329). -/
def PensPlaced (s : State) (e : Entry) (spots : List Spot) (t : State) : Prop :=
  t.pens.length = s.pens.length + spots.length ∧
  ∀ i (hi : i < spots.length), (t.pen (s.pens.length + i)).live = true ∧ (t.pen (s.pens.length + i)).qid = e.qid ∧
    (t.pen (s.pens.length + i)).seq = e.seq ∧ (t.pen (s.pens.length + i)).ctx = e.ctx ∧
    (t.pen (s.pens.length + i)).pid = BitVec.ofNat 16 i ∧ (t.pen (s.pens.length + i)).die = spots[i].die ∧
    (t.pen (s.pens.length + i)).row = spots[i].row ∧ (t.pen (s.pens.length + i)).col = spots[i].col ∧
    (t.pen (s.pens.length + i)).frozen = .running ∧ (t.pen (s.pens.length + i)).inTick = false

/-- Is some context enabled (R337)? -/
def someEnabled (s : State) : Prop := ∃ x ∈ s.ctxs, x.2.w[2].toNat / 2 ^ 63 % 2 = 1

/-- The bits of a context descriptor's word that are not reserved (R337). -/
def descriptorBits (i : Nat) (v : W64) : W64 :=
  if i = 0 then v &&& 0x000FFFFFFFFFF000 else if i = 2 then v &&& 0xFF80000000000000 else if i = 6 ∨ i = 7 then v &&& 0xFFFF else v

/-- A value brought between two bounds. -/
def clipped (lo hi x : Nat) : Nat := if x < lo then lo else if hi < x then hi else x

/-- Bytes put into a string from a place on; what lies between is 0. -/
def spliced (old : List Byte) (ofs : Nat) (bs : List Byte) (new : List Byte) : Prop :=
  ∀ i, new.getD i 0 = if ofs ≤ i ∧ i < ofs + bs.length then bs.getD (i - ofs) 0 else old.getD i 0

end Sys2Proof.Machine
end

