-- ==== Sys2Proof/Certificates/Slice0/Obligations.lean ====
section
/-! DEFINITION. The statements for the provers. Each docstring names the rules of spec/ it rests on; a clause that rests on a choice of the
model says so and names its log entry. -/

open Sys2Proof Sys2Proof.Machine

/-! ### Encodings (03_encoding.md) -/

/-- Words written out from the encoding tables decode to what they stand for (R66 to R75, R81, R84): the worked examples of 03_encoding.md,
04_scalar.md and 16_prog_decode.md, and `add`, `li` and `mzero` by hand; the misplaced `lcopy` of 03_encoding.md is rejected with REASON 2
in the V column and, with SC = 7, with REASON 8 in the X column (R82). -/
def Obligations.DecodeWords : Prop :=
  decode .s 0 = .ok (.nop .s {}) ∧ decode .v 0 = .ok (.nop .v {}) ∧ decode .m 0 = .ok (.nop .m {}) ∧ decode .x 0 = .ok (.nop .x {}) ∧
  decode .s 0x01000060840008000000#80 = .ok (.add {} 3 1 2 true) ∧
  decode .s 0x2B2000C00000048D1400#80 = .ok (.li {} 6 0x12345) ∧
  decode .s 0x2820604283FFFFFE7008#80 = .ok (.cmpi { pq := 1, pn := true } .lt 2 5 0xFFFFFF9C) ∧
  decode .v 0x01001821060000000000#80 = .ok (.vadd { fold := 3 } { d := .v 1, a := .v 2, b := .src (.v 3), ty := .fp32 }) ∧
  decode .m 0x03600300000000000000#80 = .ok (.mzero {} 3) ∧
  decode .x 0x10C00089400000000007#80 = .ok (.lcopy {} { cmd := 4, cp := 2, ord := .rel, sc := .package, tag := 7 }) ∧
  decode .x 0x41C12008100000000000#80 = .ok (.dabn { pq := 4, pn := true } { cp := 2 }) ∧
  decode .v 0x10C00089400000000007#80 = .reject 2 ∧ decode .x 0x10C00089700000000007#80 = .reject 8

/-- Decoding the word of a well-formed S instruction gives it back, with every operand at every value the encoding admits. -/
def Obligations.RoundTripScalar : Prop :=
  ∀ (i : Instr) (w : SlotWord), WellFormed i = true → encode i = some (.s, w) → decode .s w = .ok i

/-- The same for the V column. -/
def Obligations.RoundTripVector : Prop :=
  ∀ (i : Instr) (w : SlotWord), WellFormed i = true → encode i = some (.v, w) → decode .v w = .ok i

/-- The same for the M column. -/
def Obligations.RoundTripMatrix : Prop :=
  ∀ (i : Instr) (w : SlotWord), WellFormed i = true → encode i = some (.m, w) → decode .m w = .ok i

/-- The same for the X column. -/
def Obligations.RoundTripExchange : Prop :=
  ∀ (i : Instr) (w : SlotWord), WellFormed i = true → encode i = some (.x, w) → decode .x w = .ok i

/-! ### Steps, reset and memory -/

/-- A step runs the row it fetches (R38, R80, R83; the agenda of rows is the model's, log 7): a slot word runs as the instruction its bits
decode to in its column, with the core, column, slot and iteration noted; a row of the part runs with its operands; with no row left
the next beat comes; a word no loader accepts is a fault. -/
def Obligations.StepRunsDecoded : Prop :=
  ∀ (s : State) (rest : List Turn),
    (∀ c col i, s.todo = .word c col :: rest → decode col (s.liveWord c col) = .ok i →
      step s = exec i { s with todo := rest, cur := { core := c, col := col, slot := (s.pen (s.penOf c)).slot, it := (s.pen (s.penOf c)).it } }) ∧
    (∀ i b, s.todo = .ev i b :: rest → step s = exec i { s with todo := rest, bus := b }) ∧
    (∀ c col r, s.todo = .word c col :: rest → decode col (s.liveWord c col) = .reject r → step s = .fault (.rejectedWord r)) ∧
    (s.todo = [] → step s = .next s.beat)

/-- After reset (R57, R337, R367): no pen is placed, no queue and no context is enabled, the fault buffer is empty, and s0 and q0 of
every core read as R52 says; every other general register reads 0, which is the model's choice (logs 1, 2). -/
def Obligations.ResetState : Prop :=
  State.reset.pens = [] ∧ State.reset.queues = [] ∧ State.reset.ctxs = [] ∧ State.reset.entries = [] ∧
  State.reset.fwptr = 0 ∧ State.reset.frptr = 0 ∧ State.reset.svc.boot = 0 ∧
  (∀ c, (State.reset.core c).fsr = 0 ∧ (State.reset.core c).fen = 0 ∧ (State.reset.core c).dith = 0 ∧
    (State.reset.core c).rdQ 0 = BitVec.allOnes 256 ∧ (∀ r : Fin 32, (State.reset.core c).rdS r = 0 ∧ (State.reset.core c).v[r] = 0)) ∧
  (∀ a, State.reset.mem.get a = 0)

/-- Reset memory is in its canonical form. -/
def Obligations.ResetCanonical : Prop := State.reset.MemCanonical

/-- Every step keeps memory in its canonical form, from every state. -/
def Obligations.StepKeepsCanonical : Prop :=
  ∀ s t : State, s.MemCanonical → step s = .next t → t.MemCanonical

/-- Every instruction of the table answers a next state from every state: the model neither faults nor refuses within one. -/
def Obligations.EveryRowCompletes : Prop := ∀ (i : Instr) (s : State), ∃ t, exec i s = .next t

/-! ### The S column (04_scalar.md) -/

/-- `nop` has no effect in any column, active or not (R84, R103). -/
def Obligations.NopWord : Prop :=
  ∀ (c : Col) (h : Hdr) (s : State), ScalarWord (.nop c h) s h 1 [] 0

/-- Sums, products, quotients and remainders with their flags (R87): the value is the exact result finished by fix, or by the division's
own rule; an active word puts it in flight with its latency and changes nothing else, an inactive word does nothing. -/
def Obligations.ScalarArithmetic : Prop :=
  ∀ (i : Instr) (s : State),
    (∀ h lat d r, arithSpec s.curCore i = some (h, lat, d, r) → ScalarWord i s h lat [.s d r.1] r.2) ∧
    (∀ h d r, divSpec s.curCore i = some (h, d, r) → ScalarWord i s h 18 [.s d r.1] r.2)

/-- Logic and shifts (R86, R91). -/
def Obligations.ScalarLogic : Prop :=
  ∀ (i : Instr) (s : State) (h : Hdr) (d : Fin 32) (v : W64), logicSpec s.curCore i = some (h, d, v) → ScalarWord i s h 1 [.s d v] 0

/-- Minima, maxima, `sel`, `sext` and the constants (R86, R90 to R92). -/
def Obligations.ScalarSelect : Prop :=
  ∀ (i : Instr) (s : State) (h : Hdr) (d : Fin 32) (v : W64), selectSpec s.curCore i = some (h, d, v) → ScalarWord i s h 1 [.s d v] 0

/-- Comparisons write all 256 bits, predicate words theirs (R89, R93). -/
def Obligations.ScalarPredicate : Prop :=
  ∀ (i : Instr) (s : State) (h : Hdr) (d : Fin 16) (P : Nat → Prop), predSpec s.curCore i = some (h, d, P) → PredicateWord i s h d P

/-- Bit counts, `bext`, `bins`, and words of predicate and buffer registers, known bit by bit (R86, R88, R93, R96). -/
def Obligations.ScalarBits : Prop :=
  ∀ (i : Instr) (s : State) (h : Hdr) (d : Fin 32) (P : W64 → Prop), bitSpec s.curCore i = some (h, d, P) → ScalarWordSuch i s h 1 d P

/-- `lea` computes w0 + (s[X] + OFS) × size modulo 2^64 (R94); `bset` puts A into one word of b[D] on its ready beat (R96); an active `bld`
sends the read of entry A + IDX of the table and is ready after its budget, an inactive one does nothing (R95). -/
def Obligations.ScalarRecords : Prop :=
  ∀ s : State,
    (∀ h ty d br x ofs n, leaSize ty = some n → ScalarWord (.lea h ty d br x ofs) s h 1
      [.s d (BitVec.ofInt 64 ((s.curCore.b[br].toNat % 2 ^ 64 : Nat) + ((s.curCore.rdS x).toInt + ofs.toInt) * n))] 0) ∧
    (∀ h d w a, ScalarWord (.bset h d w a) s h 1 [.bw d w (s.curCore.rdS a)] 0) ∧
    (∀ h d a idx lb, ¬ isActive s h → After (exec (.bld h d a idx lb) s) (Passed s)) ∧
    (∀ h d a idx lb, isActive s h → After (exec (.bld h d a idx lb) s) (fun t =>
      let budget := if lb.val = 0 then 256 else lb.val
      let entry := ((s.curCore.rdS a).toNat + idx.toNat) % 4096
      OnlyCore s.cur.core { s with mesh := s.mesh ++ [{
        src := s.cur.core, dst := memPort s.curPen.die, addr := s.curPen.tdt.toNat + 32 * entry, len := 32, ord := s.curCore.ord }] } t ∧
      t.curCore = { s.curCore with ord := s.curCore.ord + 1, flights := s.curCore.flights ++ [{ resultOf s budget [] 0 with
        load := some { kind := .desc d, budget := budget, elems := [{ i := 0 }] } }] }))

/-- `mfc` reads a CSR as it stands (R57 to R61, R98, R308, R309) and `mtc` writes one on its ready beat (R98). -/
def Obligations.ScalarCsr : Prop :=
  ∀ s : State,
    (∀ h d n, ScalarWordSuch (.mfc h d n) s h 1 d (CsrSeen s.curPen s.curCore s.cur.core n.val)) ∧
    (∀ h n a, ScalarWord (.mtc h n a) s h 1 [.csr n.val (s.curCore.rdS a)] 0)

/-- A change of the pen alone by an active word of one of its cores. -/
def penChanged (s : State) (p : Pen) (t : State) : Prop :=
  { t with cores := s.cores, pens := s.pens } = s ∧ t.curCore = { s.curCore with ord := s.curCore.ord + 1 } ∧
  (∀ d, d ≠ s.cur.core → t.core d = s.core d) ∧ (∀ h, h ≠ s.penOf s.cur.core → t.pen h = s.pen h) ∧
  (s.penOf s.cur.core < s.pens.length → t.pen (s.penOf s.cur.core) = p) ∧ ∀ a, t.mem.get a = s.mem.get a

/-- `trap` and, with breakpoints enabled, `brk` stop the pen with their code, extended by its sign (R76), and value (R101, R310); `fin` notes
its code for the next restart point (R102); the first region edge of a slot is noted, and when the next slot starts the region stack
changes by it (R100, R308); an armed id that is pushed or popped stops the pen with the id and the kind of edge (R310); inactive words do
nothing; pushes, pops and rewinds of the stack are as `RegionStack` says. -/
def Obligations.ScalarStops : Prop :=
  ∀ (s : State) (h : Hdr),
    (∀ code a, ¬ isActive s h → After (exec (.trap h code a) s) (Passed s)) ∧
    (∀ code a, isActive s h → After (exec (.trap h code a) s) (StoppedHere s .trap (code.signExtend 64) (s.curCore.rdS a))) ∧
    (∀ code, (¬ isActive s h ∨ s.curPen.bp.getLsbD 63 = false) → After (exec (.brk h code) s) (Passed s)) ∧
    (∀ code, isActive s h → s.curPen.bp.getLsbD 63 = true → After (exec (.brk h code) s) (StoppedHere s .brk (code.signExtend 64) 0)) ∧
    (∀ code, ¬ isActive s h → After (exec (.fin h code) s) (Passed s)) ∧
    (∀ code, isActive s h → After (exec (.fin h code) s) (penChanged s
      { s.curPen with finNew := s.curPen.finNew ++ [(s.curPen.rel s.cur.core, code)] })) ∧
    (∀ id, (¬ isActive s h ∨ s.curPen.rgnPend ≠ none) → After (exec (.rgnin h id) s) (Passed s)) ∧
    ((¬ isActive s h ∨ s.curPen.rgnPend ≠ none) → After (exec (.rgnout h) s) (Passed s)) ∧
    (∀ id : BitVec 32, isActive s h → s.curPen.rgnPend = none → s.curPen.armed (id.truncate 16) = false →
      After (exec (.rgnin h id) s) (penChanged s { s.curPen with rgnPend := some (some (id.truncate 16)) })) ∧
    (∀ id : BitVec 32, isActive s h → s.curPen.rgnPend = none → s.curPen.armed (id.truncate 16) = true →
      s.penOf s.cur.core < s.pens.length → s.curPen.stop = none →
      After (exec (.rgnin h id) s) (fun t => (t.pen (s.penOf s.cur.core)).rgnPend = some (some (id.truncate 16)) ∧
        (t.pen (s.penOf s.cur.core)).stop.map (fun st => (st.code, st.value)) =
        some ((id.truncate 16).zeroExtend 64, 0))) ∧
    (isActive s h → s.curPen.rgnPend = none → (∀ id, s.curPen.rgn.getLast? = some id → s.curPen.rgnOv = 0 → s.curPen.armed id = false) →
      After (exec (.rgnout h) s) (penChanged s { s.curPen with rgnPend := some none })) ∧
    (∀ id, isActive s h → s.curPen.rgnPend = none → s.curPen.rgn.getLast? = some id → s.curPen.rgnOv = 0 → s.curPen.armed id = true →
      s.penOf s.cur.core < s.pens.length → s.curPen.stop = none →
      After (exec (.rgnout h) s) (fun t => (t.pen (s.penOf s.cur.core)).rgnPend = some none ∧
        (t.pen (s.penOf s.cur.core)).stop.map (fun st => (st.code, st.value)) = some (id.zeroExtend 64, 1))) ∧
    (∀ g edge, (s.pen g).rgnPend = some edge →
      let q := edge.elim (s.pen g).rgnPop (fun id => (s.pen g).rgnPush id)
      let s' := { s with pens := s.pens.set g { q with rgnPend := none } }
      MayStart s' g → s'.holds g = [] → ((s'.pen g).resuming = true ∨ s'.isRestart g = false) →
      After (exec (.slotStart g) s) (SlotStarted s' g)) ∧
    RegionStack

/-- Of stops taken on one beat the lowest pen-relative core, and of one core's columns the lowest, is the one tstat names; a stop of an
earlier beat stands (R59, R369). -/
def Obligations.StopNamesLowest : Prop :=
  ∀ (p : Pen) (now : Nat) (cause : Cause) (rel : Nat) (col : Col) (slot : Nat) (it : BitVec 32) (code value : W64) (late : Bool),
    (p.stop = none → (p.takeStop now cause rel col slot it code value late).stop.map (·.tstat) = some (tstatWord cause rel col slot it)) ∧
    (p.takeStop now cause rel col slot it code value late).tstat = p.tstat ∧
    (∀ o, p.stop = some o → o.time ≠ now → p.takeStop now cause rel col slot it code value late = p) ∧
    (∀ o, p.stop = some o → o.time = now → o.tstat.toNat / 2 ^ 38 % 2 ^ 10 ≤ rel * 4 + colCode col →
      p.takeStop now cause rel col slot it code value late = p) ∧
    (∀ o, p.stop = some o → o.time = now → rel * 4 + colCode col < o.tstat.toNat / 2 ^ 38 % 2 ^ 10 →
      (p.takeStop now cause rel col slot it code value late).stop.map (·.tstat) = some (tstatWord cause rel col slot it))

/-! ### The V column (05_vector.md) -/

/-- Arithmetic of R112 to R114, and `vclamp` (R121): chunk 0 of each word, from registers, scalars and ports, to a register or a port. -/
def Obligations.VectorArithmetic : Prop :=
  ∀ (i : Instr) (s : State) (c : ChunkWord), vecArith s.curCore i = some c → VectorWord i s c

/-- Estimates, exponents and roundings (R115 to R117). -/
def Obligations.VectorFloat : Prop :=
  ∀ (i : Instr) (s : State) (c : ChunkWord), vecFloat s.curCore i = some c → VectorWord i s c

/-- Logic, shifts, selection, comparison, permutation and moves lane by lane (R121, R127). -/
def Obligations.VectorLogic : Prop :=
  ∀ (i : Instr) (s : State) (c : ChunkWord), vecLogic s.curCore i = some c → VectorWord i s c

/-- Conversions: `vcvt`, `vpack`, `vunpk` (R118 to R120). -/
def Obligations.VectorConvert : Prop :=
  ∀ (i : Instr) (s : State) (c : ChunkWord), vecConvert s.curCore i = some c → VectorWord i s c

/-- `vdot` (R122), moves over whole registers and scalars, and `vnorm` (R127, R131). -/
def Obligations.VectorMove : Prop :=
  ∀ (i : Instr) (s : State) (c : ChunkWord), vecDot s.curCore i = some c ∨ vecMove s.curCore i = some c → VectorWord i s c

/-- `vqcnt`, `vins` and `vext` act once, under bit 0 of their predicate (R110, R126, R127); that they do whatever FOLD is is the model's
reading (log 54). -/
def Obligations.VectorOnce : Prop :=
  ∀ (i : Instr) (s : State) (c : ChunkWord), vecOnce s.curCore i = some c → VectorWord i s c

/-- Reductions, scans, `vmred`, `vtopk` and `vhouse` (R123 to R125, R130). That `vtopk.val` keeps the bits of a NaN (log 91), and that the FP64
steps of `vhouse` raise no flags (log 92), are the model's readings. -/
def Obligations.VectorGather : Prop :=
  ∀ (i : Instr) (s : State) (g : GatherWord), vecGather s.curCore i = some g → GatherWordIssues i s g

/-- Near-space loads and stores of the V column (R128, R129): refused by their record, issued with their budget, or written. That s[X] is
signed (log 12), and when the record is checked (log 44), are the model's readings. -/
def Obligations.VectorNear : Prop :=
  ∀ (s : State) (h : Hdr) (n : Ns),
    (∀ d, VectorLoad (.vld h d n) s h d n (linearIdx s.curCore n) h.beats) ∧
    (∀ d, VectorLoad (.vgth h d n) s h d n (indexedIdx s.curCore n) 1) ∧
    (∀ d, VectorStore (.vst h d n) s h d n (linearIdx s.curCore n) h.beats) ∧
    (∀ d, VectorStore (.vsct h d n) s h d n (indexedIdx s.curCore n) 1)

/-- A word that reads an empty port takes the timing trap (R49, R54): nothing of it is done, and the pen is rewound. -/
def Obligations.EmptyPortTraps : Prop :=
  ∀ (i : Instr) (s : State), WellFormed i = true → s.penOf s.cur.core < s.pens.length → s.cur.core ∈ s.curPen.cores →
    (∃ p ∈ readsPorts i, (s.curCore.rx[p]).avail = []) →
    (∀ h g p ty cnt, i = .gfill h g p ty cnt → s.curCore.g[g].cap ≠ 0 ∧ s.curCore.g[g].fmt = ty) →
    After (exec i s) (Rewound s (s.penOf s.cur.core))

/-! ### The M column (06_matrix.md) -/

/-- Accumulator moves and arithmetic (R134, R148, R153). -/
def Obligations.MatrixMove : Prop :=
  ∀ (i : Instr) (s : State) (n : NodeWord), moveSpec s.curCore i = some n → MatrixWord i s n

/-- Orthogonal accumulators: what each word occupies, when its result comes, where it goes, and its numbers, rounding by rounding (R134,
R152 to R156; `appended155` and `applied156` follow the spec's own steps). That `oahh` raises only the flags of its final roundings is the
model's reading (log 92). -/
def Obligations.MatrixOrth : Prop :=
  ∀ (i : Instr) (s : State) (n : NodeWord), orthSpec s.curCore i = some n → MatrixWord i s n

/-- `mma` and `mmat`, element by element (R32, R33, R138, R140 to R142, R146). -/
def Obligations.MatrixMultiply : Prop :=
  ∀ (s : State) (h : Hdr) (o : Mma), MultiplyWord (.mma h o) s h o false ∧ MultiplyWord (.mmat h o) s h o true

/-- `mdrain` (R143 to R147). That an inactive one does not advance the dither phase (log 46), and that the scale of BIN-B64H is the one tile's
(log 132), are the model's readings. -/
def Obligations.MatrixDrain : Prop := ∀ (s : State) (h : Hdr) (o : Mdrain), DrainWord s h o

/-- Ring control (R136 to R139): `ginit` checks its base and length, `gadv` and `gpop` that the ring is initialised, `gstat` reads its fields,
and `gfill` checks the ring and places its first token. -/
def Obligations.MatrixRings : Prop :=
  ∀ (s : State) (h : Hdr) (g : Fin 8),
    (∀ a ty cap kb, isActive s h → ((s.curCore.rdS a).toNat % 64 ≠ 0 ∨
        2 ^ 20 < (s.curCore.rdS a).toNat % 2 ^ 20 / 64 * 64 + cap.val * ty.slotBytes) →
      After (exec (.ginit h g a ty cap kb) s) (StoppedHere s .machineCheck 0 0)) ∧
    (∀ a ty cap kb, (¬ isActive s h ∨ ((s.curCore.rdS a).toNat % 64 = 0 ∧
        (s.curCore.rdS a).toNat % 2 ^ 20 + cap.val * ty.slotBytes ≤ 2 ^ 20)) →
      ScalarWord (.ginit h g a ty cap kb) s h 1 [.ring g {
        cap := BitVec.ofNat 8 cap.val, fmt := ty, kbm1 := BitVec.ofNat 6 kb.val, base := BitVec.ofNat 14 ((s.curCore.rdS a).toNat % 2 ^ 20 / 64) }] 0) ∧
    (∀ n, isActive s h → s.curCore.g[g].cap = 0 → After (exec (.gadv h g n) s) (StoppedHere s .machineCheck 0 0)) ∧
    (∀ n, (¬ isActive s h ∨ s.curCore.g[g].cap ≠ 0) → ScalarWord (.gadv h g n) s h 1 [.ringAdv g n.val] 0) ∧
    (∀ n, isActive s h → s.curCore.g[g].cap = 0 → After (exec (.gpop h g n) s) (StoppedHere s .machineCheck 0 0)) ∧
    (∀ n, (¬ isActive s h ∨ s.curCore.g[g].cap ≠ 0) → ScalarWord (.gpop h g n) s h 1 [.ringPop g n.val] 0) ∧
    (∀ d, ScalarWordSuch (.gstat h d g) s h 1 d (fun v => v.toNat / 2 ^ 56 = s.curCore.g[g].cap.toNat ∧
      v.toNat / 2 ^ 48 % 256 = s.curCore.g[g].count.toNat ∧ v.toNat / 2 ^ 40 % 256 = s.curCore.g[g].head.toNat ∧
      v.toNat / 2 ^ 32 % 256 = (if s.curCore.g[g].cap = 0 then 0
        else (s.curCore.g[g].head.toNat + s.curCore.g[g].count.toNat) % s.curCore.g[g].cap.toNat) ∧
      v.toNat / 2 ^ 27 % 32 = s.curCore.g[g].fillrow.toNat ∧ v.toNat / 2 ^ 22 % 32 = s.curCore.g[g].fmt.code ∧
      v.toNat / 2 ^ 16 % 64 = s.curCore.g[g].kbm1.toNat ∧ v.toNat % 2 ^ 16 = s.curCore.g[g].base.toNat)) ∧
    (∀ p ty cnt, (s.curCore.g[g].cap = 0 ∨ s.curCore.g[g].fmt ≠ ty) →
      After (exec (.gfill h g p ty cnt) s) (StoppedHere s .machineCheck 0 0)) ∧
    (∀ p ty cnt tok, s.cur.col = .m → s.curCore.g[g].cap ≠ 0 → s.curCore.g[g].fmt = ty → (s.curCore.rx[p]).avail.head? = some tok →
      s.curCore.g[g].fillrow.toNat < 31 → 0 < rowTokens ty →
      let n := 256 / ty.lane
      let g' := tok.lanes s.curCore ty n (fun _ => {})
      let on := fun (e : Nat) => ((s.curCore.rdQ h.pq).getLsbD 0 ^^ h.pn) && g'.on e
      let row := s.curCore.g[g].fillrow.toNat
      let bytes := leBytes (n * ty.bits / 8) (packLanes ty.bits ((List.range n).map (fun e =>
        if on e = true then (g'.lanes.getD e ((0, false), 0)).1.1 else 0)))
      After (exec (.gfill h g p ty cnt) s) (FirstPop s (.gfill h g p ty cnt) h p ((cnt.val + 1) * rowTokens ty) 2
        (some (.mem (s.curCore.g[g].slotOfs s.curCore.g[g].tail + row * 4 * ty.bits) bytes ::
          (if rowTokens ty = 1 then [.ringRow g (BitVec.ofNat 5 (row + 1))] else [])))
        (g'.flags on)))

/-- Block loads and stores of accumulators (R149, R158). That an inactive one is not checked (log 49) and that s[X] is signed (log 12) are the
model's readings. -/
def Obligations.MatrixNear : Prop :=
  ∀ (s : State) (h : Hdr) (n : Ns),
    (∀ ad, BlockWord (.mld h ad n) s h [ad] 32 false (rowPlaces s n 1024)
      (LoadIssued s (.acc ad n.ty) (n.ty.bits / 8) n.budget (n.budget + 32) (rowPlaces s n 1024))) ∧
    (∀ ad, BlockWord (.mst h ad n) s h [ad] 32 false (rowPlaces s n 1024)
      (StoreIssued s (s.curCore.b[n.br].getLsbD 32) ((rowPlaces s n 1024).map (fun x =>
        (x.2, leBytes (n.ty.bits / 8) (s.curCore.a[ad].toNat / 2 ^ (n.ty.bits * x.1) % 2 ^ n.ty.bits)))))) ∧
    (∀ o, n.ty = .fp32 → BlockWord (.oaload h o n) s h [] 72 true (rowPlaces s n 2064)
      (LoadIssued s (.oa o) 4 n.budget (n.budget + 72) (rowPlaces s n 2064))) ∧
    (∀ o, n.ty = .fp32 → BlockWord (.oasave h o n) s h [] 72 true (rowPlaces s n 2064)
      (StoreIssued s (s.curCore.b[n.br].getLsbD 32) ((rowPlaces s n 2064).map (fun x => (x.2, leBytes 4 (oaSaved s.curCore o x.1))))))

/-! ### The X column (07_exchange.md) -/

/-- `recv`, `peek` and `drop` (R160, R162, R164). -/
def Obligations.PortReceive : Prop :=
  ∀ (s : State) (h : Hdr) (p : Fin 8),
    (∀ d ty, TakesScalar (.recvS h d p ty) s h d p ty true) ∧ (∀ d ty, TakesScalar (.peekS h d p ty) s h d p ty false) ∧
    (∀ d, TakesPredicate (.recvQ h d p) s h d p true) ∧ (∀ d, TakesPredicate (.peekQ h d p) s h d p false) ∧
    (∀ d ty cnt tok, s.cur.col = .x → (s.curCore.rx[p]).avail.head? = some tok →
      After (exec (.recvV h d p ty cnt) s) (FirstPop s (.recvV h d p ty cnt) h p (cnt.val + 1) 2
        (some [vwrite d ty.lane 0 (recvLanes s.curCore h tok ty).1]) (recvLanes s.curCore h tok ty).2)) ∧
    (∀ cnt tok, (s.curCore.rx[p]).avail.head? = some tok →
      After (exec (.drop h p cnt) s) (FirstPop s (.drop h p cnt) h p (cnt.val + 1) 2 none 0))

/-- `send` and `sendq` send whether active or not (R50, R163). -/
def Obligations.PortSend : Prop :=
  ∀ (i : Instr) (s : State) (p : Fin 8) (toks : List Tok), sendSpec s i = some (p, toks) → After (exec i s) (Sent s p toks)

/-- `rxstat` reads a port's count, raw flag and tag (R164); the tag table's words (R188): `tlk` finds the lowest valid entry with the key;
`trmark` stores one record at the write position of its pen's sample buffer and moves that position on (R190, R312, R313, R317; that the ring
follows the control block is the model's choice, log 25), and without a buffer, or inactive, it does nothing. -/
def Obligations.PortStateWords : Prop :=
  ∀ (s : State) (h : Hdr),
    (∀ d p, ScalarWordSuch (.rxstat h d p) s h 2 d (fun v => match (s.curCore.rx[p]).avail with
      | [] => v = 0
      | tok :: rest => v.toNat % 128 = (rest.length + 1) % 128 ∧ v.toNat / 2 ^ 8 % 2 = (if tok.raw then 1 else 0) ∧
          v.toNat / 2 ^ 12 = tok.tag.val)) ∧
    (∀ d a, Tab.sorted s.curCore.tags = true → ScalarWordSuch (.tlk h d a) s h 2 d (fun v =>
      let hit := fun (e : Nat × TagEntry) => e.2.valid = true ∧ e.2.key = (s.curCore.rdS a).truncate 48
      (∃ e ∈ s.curCore.tags, hit e ∧ v.toNat = e.2.slot.toNat ∧ ∀ e' ∈ s.curCore.tags, hit e' → e.1 ≤ e'.1) ∨
      ((∀ e ∈ s.curCore.tags, ¬ hit e) ∧ v = 0xFFFF))) ∧
    (∀ a b c, ScalarWord (.tins h a b c) s h 2 [.tagSet (Fin.ofNat 64 (s.curCore.rdS c).toNat)
      { valid := true, key := (s.curCore.rdS a).truncate 48, slot := (s.curCore.rdS b).truncate 16 }] 0) ∧
    (∀ a, ScalarWord (.tinv h a) s h 2 [.tagInv ((s.curCore.rdS a).truncate 48)] 0) ∧
    ScalarWord (.tclr h) s h 2 [.tagClr] 0 ∧
    (∀ imm a, (¬ isActive s h ∨ s.curPen.sbuf.toNat = 0) → After (exec (.trmark h imm a) s) (Passed s)) ∧
    (∀ (imm : BitVec 32) a cb s1 s2, isActive s h → s.curPen.sbuf.toNat ≠ 0 → s.vread s.curPen.ctx s.curPen.sbuf.toNat 24 = .ok cb →
      let wptr := leNat (cb.take 8)
      let rptr := leNat ((cb.drop 8).take 8)
      let size := s.curPen.ssizeWords
      rptr ≤ wptr → wptr - rptr + 4 ≤ size → wptr % size + 4 ≤ size →
      s.vwrite s.curPen.ctx (s.curPen.sbuf.toNat + 64 + 8 * (wptr % size))
        (bytesOf [BitVec.ofNat 64 (0xA5 * 2 ^ 56 + 1 * 2 ^ 48 + 4 * 2 ^ 40 + s.cycles % 2 ^ 40), rgnWord s.curPen,
          BitVec.ofNat 64 (imm.toNat * 2 ^ 32 + s.curPen.pid.toNat * 2 ^ 16 + s.curPen.rel s.cur.core % 256 * 256),
          s.curCore.rdS a]) = .ok s1 →
      s1.vwrite s.curPen.ctx s.curPen.sbuf.toNat (leBytes 8 (BitVec.ofNat 64 (wptr + 4)).toNat) = .ok s2 →
      After (exec (.trmark h imm a) s) (fun t => t = s2.modCur Core.tickOrd))

/-- `ld` and `st` (R165), with a register or a port: inactive, refused by the record, or issued; a token whose element 0 has its predicate bit
0 is popped and nothing is stored. That an inactive word, or one with such a token, is not checked is the model's reading (log 44), as is
that s[X] is signed (log 12). -/
def Obligations.NearScalar : Prop :=
  ∀ (s : State) (h : Hdr) (n : Ns),
    let pl := placeElem s.curPen s.curCore.b[n.br] (n.ty.lane / 8) ((s.curCore.rdS n.x).toInt + n.ofs.toInt)
    (∀ r, ¬ isActive s h → After (exec (.ld h (.s r) n) s) (Passed s)) ∧
    (∀ p, ¬ isActive s h → After (exec (.ld h (.port p) n) s) (Issued s n.budget [.push p {}] 0)) ∧
    (∀ d, isActive s h → pl = .check → After (exec (.ld h d n) s) (NearRefused s)) ∧
    (∀ r, isActive s h → pl ≠ .check → After (exec (.ld h (.s r) n) s)
      (LoadIssued s (.scalar r n.ty) (n.ty.lane / 8) n.budget n.budget [(0, pl)])) ∧
    (∀ p, isActive s h → pl ≠ .check → After (exec (.ld h (.port p) n) s)
      (LoadIssued s (.tx p n.ty) (n.ty.lane / 8) n.budget n.budget [(0, pl)])) ∧
    (∀ r, ¬ isActive s h → After (exec (.st h (.s r) n) s) (Passed s)) ∧
    (∀ r, isActive s h → pl = .check → After (exec (.st h (.s r) n) s) (NearRefused s)) ∧
    (∀ r, isActive s h → pl ≠ .check → After (exec (.st h (.s r) n) s)
      (StoreIssued s (s.curCore.b[n.br].getLsbD 32) [(pl, leBytes (n.ty.lane / 8) (s.curCore.rdS r).toNat)])) ∧
    (∀ p tok, (s.curCore.rx[p]).avail.head? = some tok → isActive s h →
      let e := tok.elem0 s.curCore n.ty
      e.1.2 = true → pl ≠ .check → After (exec (.st h (.port p) n) s)
        (StoreIssued s (s.curCore.b[n.br].getLsbD 32) [(pl, leBytes (n.ty.lane / 8) e.1.1)])) ∧
    (∀ p tok, (s.curCore.rx[p]).avail.head? = some tok → isActive s h → (tok.elem0 s.curCore n.ty).1.2 = true → pl = .check →
      After (exec (.st h (.port p) n) s) (fun t => NearRefused s t ∧ (t.curCore.rx[p]) = (s.curCore.rx[p]).pop)) ∧
    (∀ p tok, (s.curCore.rx[p]).avail.head? = some tok → (¬ isActive s h ∨ (tok.elem0 s.curCore n.ty).1.2 = false) →
      After (exec (.st h (.port p) n) s) (fun t => SameRegisters s.curCore t.curCore ∧ (t.curCore.rx[p]) = (s.curCore.rx[p]).pop ∧
        ∀ a, t.mem.get a = s.mem.get a))

/-- Every asynchronous command word takes its commit-queue entry (R50, R56, R166, R173); that an inactive one takes one too, for its token of
zeros, is the model's reading (log 65). -/
def Obligations.CommandWords : Prop :=
  ∀ (i : Instr) (s : State) (h : Hdr) (o : F6), asyncSpec i = some (h, o) → Queues i s h o

/-- Every synchronisation word is sent once, directly (R53, R167, R173); that it releases its own core's queue, and not its pen's, is the
model's reading (log 32). -/
def Obligations.SyncWords : Prop :=
  ∀ (i : Instr) (s : State) (h : Hdr) (o : F6) (bad : Bool), syncSpec s i = some (h, o, bad) → SyncWord i s h o bad

/-! ### Results, loads and timing (02_pen_execution.md, 08_near_space.md) -/

/-- A result on its ready beat (R35, R36, R43, R52, R57, R98, R99, R158, R162, R369): each write changes its register alone, a store its bytes, a
push takes its commit-queue entry, a load's bytes are extended and written, as lanes, tokens, a whole accumulator or the state of an
orthogonal accumulator (R128, R149, R158, R165), a bad response is a machine check, and flags are ORed into fsr; a recompaction starts
with its result (R157), which its end writes. That an accumulator of a 32-bit type keeps its upper half is the model's reading (log 11), as
is that an `mtc` which sets an enabled bit of fsr takes no trap (log 94). -/
def Obligations.ResultsLand : Prop :=
  ∀ (s : State) (c : Nat) (f : Flight),
    (OneReady s c f →
      (∀ want, f.load = none → f.writes.foldlM landSpec (s.core c) = some want →
        After (exec (.resultReady c) s) (ResultWritten s c f want)) ∧
      (∀ n v, f.load = none → f.writes = [.csr n v] → n ≠ 0x02 → n ≠ 0x30 → n ≠ 0x31 →
        After (exec (.resultReady c) s) (ResultWritten s c f (csrSpec (s.core c) s.time n v))) ∧
      (∀ n v, f.load = none → f.writes = [.csr n v] → f.flags = 0 → n = 0x02 ∨ n = 0x30 ∨ n = 0x31 → s.penOf c < s.pens.length →
        After (exec (.resultReady c) s) (fun t => Landed (s.core c) (s.core c) (t.core c) ∧
          t.pen (s.penOf c) = if Tab.find (s.pen (s.penOf c)).csrT n = some s.time then s.pen (s.penOf c)
            else { penCsrSpec (s.pen (s.penOf c)) n v with csrT := Tab.put (s.pen (s.penOf c)).csrT n s.time })) ∧
      (∀ p tok, f.load = none → f.writes = [.push p tok] → f.col ≠ .s → After (exec (.resultReady c) s)
        (Pushed s c f p tok)) ∧
      (∀ ofs bs, f.load = none → f.writes = [.mem ofs bs] → After (exec (.resultReady c) s) (fun t =>
        Landed (s.core c) { s.core c with fsr := (s.core c).fsr ||| f.flags } (t.core c) ∧ t.mem = nearPut s.mem (nearAddr c ofs) bs)) ∧
      (∀ cause code, f.load = none → f.writes = [.stop cause code] → f.flags = 0 → s.penOf c < s.pens.length →
        (s.pen (s.penOf c)).stop = none → After (exec (.resultReady c) s) (fun t => Landed (s.core c) (s.core c) (t.core c) ∧
          t.mem = s.mem ∧ (t.pen (s.penOf c)).stop.map (·.tstat) =
            some (tstatWord cause ((s.pen (s.penOf c)).rel c) f.col f.slot f.it))) ∧
      (∀ d ty bs l, f.load = some l → l.kind = .scalar d ty → l.elems = [{ i := 0, got := some bs }] →
        After (exec (.resultReady c) s) (ResultWritten s c f
          (if d = 0 then s.core c else { s.core c with s := (s.core c).s.set d (extend ty (leNat bs)) }))) ∧
      (∀ b bs l, f.load = some l → l.kind = .desc b → l.elems = [{ i := 0, got := some bs }] →
        After (exec (.resultReady c) s) (ResultWritten s c f
          { s.core c with b := (s.core c).b.set b (BitVec.ofNat 256 (leNat bs)) })) ∧
      (∀ l d ty j xs want, f.load = some l → l.kind = .vchunk (.v d) ty j → l.elems = gotElems xs → (xs.map (·.1)).Nodup →
        landSpec (s.core c) (vwrite d ty.lane (j * (256 / ty.lane)) (gotLanes ty xs)) = some want →
        After (exec (.resultReady c) s) (ResultWritten s c f want)) ∧
      (∀ l p ty j xs, f.load = some l → l.kind = .vchunk (.tx p) ty j → l.elems = gotElems xs → (xs.map (·.1)).Nodup → f.col ≠ .s →
        After (exec (.resultReady c) s) (Pushed s c f p (lanesTok ty.lane 0 (gotLanes ty xs)))) ∧
      (∀ l p ty bs, f.load = some l → l.kind = .tx p ty → l.elems = gotElems [(0, bs)] → f.col ≠ .s →
        After (exec (.resultReady c) s) (Pushed s c f p (lanesTok ty.lane 0 [(leNat bs, true)]))) ∧
      (∀ l a ty (bs : Nat → List Byte) t want, f.load = some l → l.kind = .acc a ty → l.elems = gotElems ((List.range 1024).map (fun i => (i, bs i))) →
        (ty = .fp64 ∧ t = .fp64 ∨ ty = .int32 ∧ t = .int32 ∨ ty = .fp32 ∧ t = .fp32) →
        landSpec (s.core c) (accWrite a t ((List.range 1024).map (fun i => leNat (bs i)))) = some want →
        After (exec (.resultReady c) s) (ResultWritten s c f want)) ∧
      (∀ l o (bs : Nat → List Byte), f.load = some l → l.kind = .oa o → l.elems = gotElems ((List.range 2064).map (fun i => (i, bs i))) →
        (∀ i < 2064, (bs i).length = 4) →
        (oaRefused bs = false → ∀ want, (oaRestored o bs).foldlM landSpec (s.core c) = some want →
          After (exec (.resultReady c) s) (ResultWritten s c f want)) ∧
        (oaRefused bs = true → f.flags = 0 → s.penOf c < s.pens.length → (s.pen (s.penOf c)).stop = none →
          After (exec (.resultReady c) s) (fun t => Landed (s.core c) (s.core c) (t.core c) ∧ t.mem = s.mem ∧
            (t.pen (s.penOf c)).stop.map (·.tstat) =
              some (tstatWord .machineCheck ((s.pen (s.penOf c)).rel c) f.col f.slot f.it)))) ∧
      (∀ ws o pend want, f.load = none → f.writes = ws ++ [.recomp o pend] → ws.foldlM landSpec (s.core c) = some want →
        let r := recompacted want o pend
        After (exec (.resultReady c) s) (ResultWritten s c f
          { want with recomp := some (1024, { f with writes := r.1, flags := r.2, remain := 0 }) })) ∧
      (∀ l, f.load = some l → (∃ e ∈ l.elems, e.bad = true) → s.penOf c < s.pens.length → (s.pen (s.penOf c)).stop = none →
        After (exec (.resultReady c) s) (fun t => Landed (s.core c) (s.core c) (t.core c) ∧ t.mem = s.mem ∧
          (t.pen (s.penOf c)).stop.map (·.tstat) = some (tstatWord .machineCheck ((s.pen (s.penOf c)).rel c) f.col f.slot f.it)))) ∧
    (∀ want, (s.core c).recomp = some (0, f) → f.writes.foldlM landSpec (s.core c) = some want →
      After (exec (.recompactionEnd c) s) (fun t => (∀ d, d ≠ c → t.core d = s.core d) ∧
        Landed (s.core c) { want with fsr := want.fsr ||| f.flags, recomp := none } (t.core c) ∧
        (t.core c).flights = (s.core c).flights ∧ t.mem = s.mem ∧ (f.flags &&& ~~~want.fsr &&& want.fen = 0 → t.pens = s.pens)))

/-- A word that finds a load absent on the beat it would issue (R54, R55; that a load into a token is awaited on every beat is the model's
reading, log 8): on a later beat of a slot it is a timing trap while SHIFT is 0, and otherwise holds the pen, none of whose chunks issues on
that beat, until its extension has run out, which traps; the 32 beats of a rewind end it. -/
def Obligations.LateResults : Prop :=
  ∀ s : State,
    (∀ h w ws, h < s.pens.length → (s.pen h).live = true → (s.pen h).ended = false → (s.pen h).frozen = .running → (s.pen h).rewind = 0 →
      (s.pen h).started = true → s.pushWaits h = false → s.awaited h = w :: ws →
      ((s.pen h).shift = 0 → After (exec (.slotStart h) s) (Rewound s h)) ∧
      (w.over (s.pen h).shift = false → After (exec (.slotStart h) s) (fun t => (t.pen h).hold = some .restart ∧ (t.pen h).ran = false ∧
        (t.pen h).started = true ∧ (t.pen h).beat = (s.pen h).beat ∧ (t.pen h).slot = (s.pen h).slot ∧
        (∀ c b col, c ∈ (s.pen h).cores → .ev (.chunkIssue c col) b ∉ t.todo) ∧
        ∀ c, { t.core c with evc := (s.core c).evc } = s.core c))) ∧
    (∀ h w, h < s.pens.length → (s.pen h).live = true → (s.pen h).frozen = .running → (s.pen h).rewind = 0 → 0 < (s.pen h).shift →
      (s.pen h).hold = some .restart → ((s.pen h).started = true ∨ s.passes h = false) → w ∈ s.awaited h →
      (∀ l, w.load.load = some l → l.budget * (2 ^ (s.pen h).shift - 1) ≤ l.ext) → After (exec (.restartHoldExpiry h) s) (Rewound s h)) ∧
    (∀ h, (s.pen h).rewind = 1 → After (exec (.rewindResume h) s) (fun t =>
      t = { s with pens := s.pens.set h { s.pen h with rewind := 0 } })) ∧
    (∀ h, (s.pen h).rewind ≠ 1 → After (exec (.rewindResume h) s) (fun t => t = s))

/-- Accesses between cores (R95, R128, R129, R235, R291): the oldest store on its way writes its bytes at its owner, the oldest load sets out
back with what it read, a `bld` with its table entry; a response enters its load's buffer; a write reaches a die's view. That an access to a
core of another context is not performed and raises a class B alarm is the model's reading of R355 (log 34), as is that a `bld` of a context
whose key slot is bound to another raises one (log 125), and that each die has a view of its own in which writes of another die come late is
its reading of R287 to R291 (log 66). -/
def Obligations.LoadsAnswer : Prop :=
  ∀ s : State,
    (∀ src dst pre m post, s.mesh = pre ++ m :: post → (∀ x ∈ pre, ¬ (x.src = src ∧ x.dst = dst)) → m.src = src → m.dst = dst →
      dst < 768 →
      (∀ a b, s.coreCtx src = some a → s.coreCtx dst = some b → a ≠ b → After (exec (.remoteAccessArrive src dst) s) (fun t =>
        { t with dies := s.dies } = { s with mesh := pre ++ post, todo := s.todo ++ [.ev .alarmClassB { a := a, b := coreDie dst }] } ∧
        FlitsSent s t src dst (!m.store))) ∧
      ((∀ a b, s.coreCtx src = some a → s.coreCtx dst = some b → a = b) →
        (m.store = true → After (exec (.remoteAccessArrive src dst) s) (fun t => t.mem = nearPut s.mem m.addr m.bytes ∧
          t.mesh = pre ++ post ∧ t.cores = s.cores ∧ t.pens = s.pens ∧ t.resps = s.resps ∧ FlitsSent s t src dst false)) ∧
        (m.store = false → s.late = [] → (∀ k ∈ nearKeys m.addr m.len, k ∉ s.poison) →
          After (exec (.remoteAccessArrive src dst) s) (fun t => { t with dies := s.dies } = { s with
            mesh := pre ++ post
            resps := s.resps ++ [{ m with bytes := (nearKeys m.addr m.len).map s.mem.get }] } ∧ FlitsSent s t src dst true)))) ∧
    (∀ src dst pre m post pl bs, s.mesh = pre ++ m :: post → (∀ x ∈ pre, ¬ (x.src = src ∧ x.dst = dst)) → m.src = src → m.dst = dst →
      768 ≤ dst → s.places (s.pen (s.penOf src)).ctx m.addr m.len .rd = .ok pl →
      s.readPlaces (s.viewer (s.pen (s.penOf src)).ctx (s.coreAgent (s.pen (s.penOf src)).ctx src)) pl none = .ok bs →
      s.keyBound (s.pen (s.penOf src)).ctx = true → After (exec (.remoteAccessArrive src dst) s) (fun t =>
        t.mesh = pre ++ post ∧ t.resps = s.resps ++ [{ m with bytes := bs }] ∧ t.mem = s.mem ∧ t.cores = s.cores ∧ t.pens = s.pens)) ∧
    (∀ c pre m post, s.resps = pre ++ m :: post → (∀ x ∈ pre, x.src ≠ c) → m.src = c → After (exec (.loadResponse c) s) (fun t =>
      t.resps = pre ++ post ∧ { t with cores := s.cores, resps := s.resps } = s ∧ (∀ d, d ≠ c → t.core d = s.core d) ∧
      t.core c = { s.core c with flights := (s.core c).flights.map (fun f =>
        if f.ord = m.ord ∧ f.sub = m.sub then { f with load := f.load.map (fun l => { l with elems := l.elems.map (fun e =>
          if e.i = m.i ∧ e.got = none then { e with got := some m.bytes, bad := decide (m.bytes = []) } else e) }) } else f) })) ∧
    (∀ d pre e post, d < 4 → (s.die d).remote = pre ++ e :: post → (∀ w ∈ pre ++ post, w.before e = false) →
      (∀ x ∈ pre ++ post, ∃ w ∈ (s.die d).remote, w ≠ x ∧ w.before x = true) → s.late = [] →
      (∀ x ∈ pre, ∀ o ∈ x.olds, ∀ o' ∈ e.olds, o.1 ≠ o'.1) → (∀ x ∈ pre ++ post, x.olds ≠ []) →
      After (exec (.remoteWriteApply d) s) (fun t => { t with dies := s.dies, fresh := s.fresh } = s ∧ (t.die d).remote = pre ++ post ∧
        (∀ n, n ≠ d → t.die n = s.die n) ∧
        ∀ i : Fin 4, (t.die d).vc[i] = max (s.die d).vc[i] (max (e.stamp.getD i.val 0) (if coreDie e.agent.core = i.val then e.seq else 0)))) ∧
    (∀ d, d < 4 → (s.die d).remote ≠ [] → (∀ w ∈ (s.die d).remote, ∀ x ∈ (s.die d).remote, w.before x = false) →
      After (exec (.remoteWriteApply d) s) (fun t => ∃ e ∈ (s.die d).remote, e ∉ (t.die d).remote)) ∧
    (∀ d, d < 4 → (s.die d).remote = [] → s.late = [] → After (exec (.remoteWriteApply d) s) (fun t => t = s)) ∧
    (∀ src dst pre m post, s.mesh = pre ++ m :: post → (∀ x ∈ pre, ¬ (x.src = src ∧ x.dst = dst)) → m.src = src → m.dst = dst →
      768 ≤ dst → s.keyBound (s.pen (s.penOf src)).ctx = false → After (exec (.remoteAccessArrive src dst) s) (fun t =>
        t = { s with mesh := pre ++ post
                     todo := s.todo ++ [.ev .alarmClassB { a := (s.pen (s.penOf src)).ctx, b := coreDie src }] }))

/-- A slot starts where nothing holds it, and otherwise holds under the first reason of R48's order; a stop that is pending freezes the pen
for reporting instead, with FRZ set in tstat (R59, R101, R369); a restart point with nothing to release takes its snapshots and sets CONS
to 0 (R49, R53, R55); a load that is late with SHIFT 0 is a timing trap (R54). -/
def Obligations.SlotStart : Prop :=
  ∀ (s : State) (h : Nat),
    (MayStart s h → s.holds h = [] → ((s.pen h).resuming = true ∨ s.isRestart h = false) →
      After (exec (.slotStart h) s) (SlotStarted s h)) ∧
    (∀ r col, MayStart s h → (r, col) ∈ s.holds h → (∀ x ∈ s.holds h, holdRank r ≤ holdRank x.1) →
      (r ≠ .restart ∨ ∀ w ∈ s.awaited h, w.over (s.pen h).shift = false) →
      After (exec (.slotStart h) s) (fun t => (t.pen h).hold = some r ∧ (t.pen h).started = false ∧ (t.pen h).slot = (s.pen h).slot ∧
        (t.pen h).it = (s.pen h).it ∧ (t.pen h).ran = false ∧ (∀ c, { t.core c with evc := (s.core c).evc } = s.core c))) ∧
    (∀ col, MayStart s h → (.restart, col) ∈ s.holds h → (∀ x ∈ s.holds h, x.1 = .restart) → (s.pen h).shift = 0 → s.passes h = false →
      After (exec (.slotStart h) s) (Rewound s h)) ∧
    (∀ st, h < s.pens.length → (s.pen h).live = true → (s.pen h).ended = false → (s.pen h).frozen = .running → (s.pen h).rewind = 0 →
      (s.pen h).started = false → (s.pen h).stop = some st → (s.pen h).syncs = [] → s.pushWaits h = false →
      After (exec (.slotStart h) s) (fun t => (t.pen h).frozen = .reporting ∧ (t.pen h).tstat = st.tstat ||| BitVec.ofNat 64 (2 ^ 32) ∧
        (t.pen h).stop = none ∧ (t.pen h).slot = (s.pen h).slot ∧ (t.pen h).it = (s.pen h).it ∧ t.cores = s.cores)) ∧
    (MayStart s h → s.holds h = [] → (s.pen h).resuming = false → s.isRestart h = true →
      (∀ c ∈ (s.pen h).cores, (s.core c).cq = [] ∧ (s.core c).out = [] ∧ ∀ p : Fin 8, (s.core c).tx[p] = []) →
      After (exec (.slotStart h) s) (fun t => (t.pen h).started = true ∧ (t.pen h).beat = 0 ∧ (t.pen h).cons = 0 ∧
        (t.pen h).rsSlot = (s.pen h).slot ∧ (t.pen h).rsIt = (s.pen h).it ∧ (t.pen h).sent = [] ∧
        (t.pen h).snapRgn = (s.pen h).rgn.length ∧ (t.pen h).snapRgnOv = (s.pen h).rgnOv ∧
        (∀ c ∈ (s.pen h).cores, Snapshot (s.core c) (t.core c)) ∧
        (∀ c, c ∉ (s.pen h).cores → t.core c = s.core c) ∧ t.mem = s.mem))

/-- Later beats of a word that goes on (R40, R107, R160): chunk after chunk of `vli` and `vmov`, token after token of `recv.v` and `drop`. That
the mask read at issue governs the later chunks is the model's reading (log 9). -/
def Obligations.ChunkIssue : Prop :=
  ∀ (s : State) (c : Nat) (st : Stream),
    (∀ h d ty imm, OneGoing s c .v st → st.col = .v → st.instr = .vli h (.v d) ty imm → st.next < h.beats →
      After (exec (.chunkIssue c .v) s)
      (NextChunk s c st none 2 (some [vwrite d ty.lane (st.next * (256 / ty.lane)) ((List.range (256 / ty.lane)).map (fun i =>
        if st.mask.getLsbD (st.next * (256 / ty.lane) + i) then (imm.toNat % 2 ^ ty.lane, true) else (0, false)))]) 0)) ∧
    (∀ h d a ty, OneGoing s c .v st → st.col = .v → st.instr = .vmov h (.v d) (.v a) ty → After (exec (.chunkIssue c .v) s)
      (NextChunk s c st none 2 (some [vwrite d ty.lane (st.next * (256 / ty.lane)) ((List.range (256 / ty.lane)).map (fun i =>
        if st.mask.getLsbD (st.next * (256 / ty.lane) + i) then (velem (s.core c).v[a] ty.lane (st.next * (256 / ty.lane) + i), true)
        else (0, false)))]) 0)) ∧
    (∀ h d p ty cnt tok, OneGoing s c .x st → st.col = .x → st.instr = .recvV h d p ty cnt → ((s.core c).rx[p]).avail.head? = some tok →
      let n := 256 / ty.lane
      let g := tok.lanes (s.core c) ty n (fun _ => {})
      let on := fun (i : Nat) => g.on i && st.mask.getLsbD (st.next * n + i)
      g.flags on &&& ~~~(s.core c).fsr &&& (s.core c).fen = 0 → After (exec (.chunkIssue c .x) s)
        (NextChunk s c st (some p) 2 (some [vwrite d ty.lane (st.next * n) ((List.range n).map (fun i =>
          ((g.lanes.getD i ((0, false), 0)).1.1, on i)))]) (g.flags on))) ∧
    (∀ h p cnt tok, OneGoing s c .x st → st.col = .x → st.instr = .drop h p cnt → ((s.core c).rx[p]).avail.head? = some tok →
      After (exec (.chunkIssue c .x) s) (NextChunk s c st (some p) 2 none 0)) ∧
    (∀ h p cnt, OneGoing s c .x st → st.col = .x → st.instr = .drop h p cnt → ((s.core c).rx[p]).avail = [] →
      s.penOf c < s.pens.length → c ∈ (s.pen (s.penOf c)).cores → After (exec (.chunkIssue c .x) s) (Rewound s (s.penOf c)))

/-- Tokens and commands on their way (R50, R166, R170, R172, R215): a token reaches its rx port where there is room, a completion token its
CP port, a released command its engine where that has room. That a command holds its place there until its token is delivered (log 119),
and that an inactive one answers its token of zeros when it is released (log 65), are the model's readings. -/
def Obligations.TokensTravel : Prop :=
  ∀ s : State,
    (∀ i tok rest, i < s.edges.length → (s.edge i).flight = [tok :: rest] →
      let c := (s.pen (s.edge i).dst).coreAt 0
      let p := s.edgePort (s.edge i)
      (((s.core c).rx[p]).q.length < 64 → After (exec (.tokenArrival i) s) (fun t =>
        { t with cores := s.cores, edges := s.edges } = s ∧ t.edges = s.edges.set i { s.edge i with flight := [rest] } ∧
        (∀ d, d ≠ c → t.core d = s.core d) ∧
        t.core c = { s.core c with rx := (s.core c).rx.set p { (s.core c).rx[p] with q := ((s.core c).rx[p]).q ++ [tok] } })) ∧
      (64 ≤ ((s.core c).rx[p]).q.length → After (exec (.tokenArrival i) s) (fun t => t = s))) ∧
    (∀ c port pre d post, s.dones = pre ++ d :: post →
      (∀ x ∈ pre, ¬ (x.cmd.host = none ∧ x.cmd.core = c ∧ x.cmd.o.cp.val = port)) →
      d.cmd.host = none → d.cmd.core = c → d.cmd.o.cp.val = port → d.clock = [] → (∀ x ∈ s.dones, x.cmd.o.ord = .none) →
      let p := s.pen d.cmd.pen
      (p.frozen ≠ .cast → p.live = true → p.ended = false → ((s.core c).rx[d.cmd.o.cp]).q.length < 64 →
        d.cmd.zero = false → d.eng < 256 → d.code < 256 → d.die < 4 → d.inst < 64 → c < 768 →
        After (exec (.completionTokenDelivery c port) s) (fun t => ∃ tok, CompletionToken d tok ∧ t.dones = pre ++ post ∧
          (∀ x, x ≠ c → t.core x = s.core x) ∧ t.mem = s.mem ∧
          t.core c = { s.core c with rx := (s.core c).rx.set d.cmd.o.cp { (s.core c).rx[d.cmd.o.cp] with
            q := ((s.core c).rx[d.cmd.o.cp]).q ++ [tok] } })) ∧
      (p.frozen ≠ .cast → p.live = false ∨ p.ended = true → After (exec (.completionTokenDelivery c port) s)
        (fun t => t.dones = pre ++ post ∧ t.cores = s.cores)) ∧
      (p.frozen = .cast → After (exec (.completionTokenDelivery c port) s) (fun t => t = s)) ∧
      (p.frozen ≠ .cast → p.live = true → p.ended = false → 64 ≤ ((s.core c).rx[d.cmd.o.cp]).q.length →
        After (exec (.completionTokenDelivery c port) s) (fun t => t = s))) ∧
    (∀ c m rest, (s.core c).out = m :: rest → m.core = c →
      (m.zero = true → After (exec (.engineAccept c) s) (fun t => t.dones = s.dones ++ [{ cmd := m, eng := 0, die := coreDie c }] ∧
        (t.core c).out = rest ∧ t.dies = s.dies)) ∧
      (m.zero = false → m.ladleKind.isSome = true → c < 768 → (s.core c).eng < 16 →
        let e := (s.core c).eng
        let q := (s.die (coreDie c)).ladle.toList.getD e []
        let held := q.length + (s.dones.filter (fun x => x.eng = 1 ∧ x.die = coreDie c ∧ x.inst = e)).length
        (held < 64 → After (exec (.engineAccept c) s) (fun t => (t.core c).out = rest ∧
          (t.die (coreDie c)).ladle.toList.getD e [] = q ++ [{ cmd := m }] ∧ t.dones = s.dones)) ∧
        (64 ≤ held → After (exec (.engineAccept c) s) (fun t => t = s))) ∧
      (∀ h o, m.zero = false → m.word = .cfgld h o ∨ m.word = .swap h o → c < 768 →
        let held := (s.die (coreDie c)).loader.length + (s.dones.filter (fun x => x.eng = 5 ∧ x.die = coreDie c)).length
        (held < 8 → After (exec (.engineAccept c) s) (fun t => (t.core c).out = rest ∧
          (t.die (coreDie c)).loader = (s.die (coreDie c)).loader ++ [m])) ∧
        (8 ≤ held → After (exec (.engineAccept c) s) (fun t => t = s)))) ∧
    (∀ c, (s.core c).out = [] → After (exec (.engineAccept c) s) (fun t => t = s))

/-! ### Engines (07_exchange.md, 11_memory.md) -/

/-- An engine performs its oldest command: a ladle that copies a row of whole-byte elements in near space reads all of them and then writes
them (R174, R175, R236, R237, R243 to R245, R249), and answers OK with the bytes written in e4 (R259); an integer atomic leaves the old
word in its answer and the new one in memory, a misaligned one answers 3 (R177); a command of a context whose key slot is bound to another
is a class B alarm, and nothing of it is done (R355; that this holds of any command, and not of its first access to memory, is the model's
choice, log 125). -/
def Obligations.EngineSteps : Prop :=
  ∀ s : State,
    (∀ die e j rest r n a b la lb f, (s.die die).ladle.toList.getD e [] = j :: rest → PlainJob j → j.pos = 0 → j.wrote = 0 → j.list = [] →
      j.cmd.ladleKind = some 1 → j.cmd.ladleRec = some r → RowCopy r n → j.cmd.img.length = 64 →
      NearRow (s.pen j.cmd.pen) (BitVec.ofNat 256 (leNat (j.cmd.img.take 32))) a la f →
      NearRow (s.pen j.cmd.pen) (BitVec.ofNat 256 (leNat (j.cmd.img.drop 32))) b lb f →
      byteFmt f → n ≤ la → n ≤ lb → (s.pen j.cmd.pen).trk = 0 → s.late = [] → s.poison = [] → s.keyBound j.cmd.ctx = true →
      NoAnswerDue s j → (∀ i ∈ [r.src, r.dst], (s.xlatePa j.cmd.ctx ((s.pen j.cmd.pen).tdt.toNat + 32 * i) .rd).toOption.any paPeer = false) →
      let size := f.bits / 8
      let spot := fun (base i : Nat) => base / 2 ^ 20 * 2 ^ 20 + (base + i * size) % 2 ^ 20
      After (exec (.ladleExecute die e) s) (fun t =>
        t.mem = (List.range n).foldl (fun m i => nearPut m (spot b i) ((nearKeys (spot a i) size).map s.mem.get)) s.mem ∧
        t.dones = s.dones ++ [{ cmd := j.cmd, eng := 1, die := die, inst := e, e4 := BitVec.ofNat 32 (min (n * size) (2 ^ 32 - 1)),
                                e7 := BitVec.ofNat 32 r.utag }] ∧
        (t.die die).ladle.toList.getD e [] = rest ∧ t.cores = s.cores ∧ t.pens = s.pens)) ∧
    (∀ die e, (s.die die).ladle.toList.getD e [] = [] → After (exec (.ladleExecute die e) s) (fun t => t = s)) ∧
    (∀ die j rest n z pl bs new s', (s.die die).bell = j :: rest → PlainJob j → atomType (j.cmd.o.sub.val % 8) = some (n, z) →
      s.places j.cmd.ctx j.cmd.cmd.toNat n .atomic = .ok pl → splitAtomic pl = false → NoAnswerDue s j → (∀ p ∈ pl, paPeer p.1 = false) →
      s.readPlaces (s.home j.cmd.ctx) pl none = .ok bs → j.cmd.cmd.toNat % n = 0 →
      atomSpec n z (leNat bs) (j.cmd.a.toNat % 2 ^ (8 * n)) (j.cmd.b.toNat % 2 ^ (8 * n)) j.cmd.word = some new →
      s.writePlaces (some (s.agent j.cmd)) j.cmd.ctx pl (leBytes n new) = .ok s' → s.keyBound j.cmd.ctx = true →
      After (exec (.bellwetherOp die) s) (fun t => t.mem = s'.mem ∧ (t.die die).bell = rest ∧ t.cores = s.cores ∧ t.pens = s.pens ∧
        t.dones = s.dones ++ [{ cmd := j.cmd, eng := 2, die := die, value := BitVec.ofNat 64 (leNat bs) }])) ∧
    (∀ die j rest n z i, (s.die die).bell = j :: rest → PlainJob j → atomType (j.cmd.o.sub.val % 8) = some (n, z) →
      j.cmd.word = i → (∃ new, atomSpec n z 0 0 0 i = some new) → j.cmd.cmd.toNat % n ≠ 0 → s.keyBound j.cmd.ctx = true → NoAnswerDue s j →
      After (exec (.bellwetherOp die) s) (fun t => t.mem = s.mem ∧ (t.die die).bell = rest ∧ t.cores = s.cores ∧ t.pens = s.pens ∧
        t.dones = s.dones ++ [{ cmd := j.cmd, eng := 2, die := die, code := 3, detail := 2, value := j.cmd.cmd }])) ∧
    (∀ die j rest, (s.die die).bell = j :: rest → PlainJob j → NoAnswerDue s j → s.keyBound j.cmd.ctx = false →
      After (exec (.bellwetherOp die) s) (fun t => t.mem = s.mem ∧ (t.die die).bell = j :: rest ∧ t.cores = s.cores ∧ t.dones = s.dones ∧
        t.todo = s.todo ++ [.ev .alarmClassB { a := j.cmd.ctx, b := die }])) ∧
    (∀ die e j rest, (s.die die).ladle.toList.getD e [] = j :: rest → PlainJob j → NoAnswerDue s j → s.keyBound j.cmd.ctx = false →
      After (exec (.ladleExecute die e) s) (fun t => t.mem = s.mem ∧ (t.die die).ladle.toList.getD e [] = j :: rest ∧
        t.cores = s.cores ∧ t.dones = s.dones ∧ t.todo = s.todo ++ [.ev .alarmClassB { a := j.cmd.ctx, b := die }])) ∧
    (∀ die, (s.die die).bell = [] → After (exec (.bellwetherOp die) s) (fun t => t = s)) ∧
    (∀ die j rest n z pl bs pa, (s.die die).bell = j :: rest → PlainJob j → (∀ x ∈ rest, x.cmd.o.ord = .none) →
      atomType (j.cmd.o.sub.val % 8) = some (n, z) →
      (∃ new, atomSpec n z 0 0 0 j.cmd.word = some new) → s.places j.cmd.ctx j.cmd.cmd.toNat n .atomic = .ok pl → (pl.headD (0, 0)).1 = pa →
      paPeer pa = true → s.readPlaces (s.home j.cmd.ctx) pl none = .ok bs → j.cmd.cmd.toNat % n = 0 → s.keyBound j.cmd.ctx = true →
      (∀ x ∈ s.svc.peers, x.2.cmd ≠ j.cmd.id) → After (exec (.bellwetherOp die) s) (fun t => t.mem = s.mem ∧ t.dies = s.dies ∧
        t.dones = s.dones ∧ ∃ f, t.svc.flitOut = s.svc.flitOut ++ [f] ∧ f.getD 1 0 = 8 ∧ f.getD 3 0 = s.fresh ∧ f.getD 5 0 = pa % 2 ^ 50))

/-- Waits and barriers (R167, R179, R181): an `await` is released by its word as it stands or by any value written there since the last test,
another notes what it saw; a `bwait` with no `arrive` before it is done; an asynchronous `await` past its deadline that no value written
before then satisfies answers 8 with the last value; an arrival is counted, and the one that completes the count releases every waiting pen and starts the next generation. That a waiter of a context whose key slot is bound
to another raises a class B alarm (R355) is the model's choice (log 125). -/
def Obligations.WaitSteps : Prop :=
  ∀ s : State,
    (∀ die n j h o b z pl bs, die < 4 → (s.die die).waits[n]? = some j → QuietJob j → j.cmd.word = .awaitSync h o → j.cmd.sync = true →
      atomType (j.cmd.o.sub.val % 8) = some (b, z) → j.cmd.cmd.toNat % b = 0 → s.places j.cmd.ctx j.cmd.cmd.toNat b .rd = .ok pl →
      s.readPlaces (s.home j.cmd.ctx) pl none = .ok bs → NoAnswerDue s j → (∀ p ∈ pl, paPeer p.1 = false) → s.keyBound j.cmd.ctx = true →
      ((∃ v ∈ j.seen ++ [leNat bs], awaitSpec b (j.cmd.o.sub.val / 8 % 8) v (j.cmd.a.toNat % 2 ^ (8 * b))) →
        After (exec (.awaitRecheck die n) s) (fun t => (∀ m ∈ (t.pen j.cmd.pen).syncs, m.id ≠ j.cmd.id) ∧ t.mem = s.mem ∧
          t.cores = s.cores ∧ (t.die die).waits = (s.die die).waits.eraseIdx n)) ∧
      ((∀ v ∈ j.seen ++ [leNat bs], ¬ awaitSpec b (j.cmd.o.sub.val / 8 % 8) v (j.cmd.a.toNat % 2 ^ (8 * b))) →
        After (exec (.awaitRecheck die n) s) (fun t => t.pens = s.pens ∧ t.mem = s.mem ∧ t.cores = s.cores ∧
          (t.die die).waits = (s.die die).waits.set n { j with got := [(leNat bs, 0, 0)], watch := pl, seen := [] }))) ∧
    (∀ die n j h o, die < 4 → (s.die die).waits[n]? = some j → QuietJob j → j.cmd.word = .bwait h o → (s.die die).arrivals = [] →
      Tab.find (s.core j.cmd.core).arrGen (s.barKey j.cmd) = none →
      After (exec (.awaitRecheck die n) s) (fun t => (∀ m ∈ (t.pen j.cmd.pen).syncs, m.id ≠ j.cmd.id) ∧ t.mem = s.mem ∧
        t.cores = s.cores ∧ (t.die die).waits = (s.die die).waits.eraseIdx n)) ∧
    (∀ die n j due more h o b z, die < 4 → (s.die die).waits[n]? = some j → j.list = due :: more → j.cmd.o.ord = .none →
      j.cmd.word = .awaitAsync h o → atomType (j.cmd.o.sub.val % 8) = some (b, z) →
      (due ≤ s.time → (∀ v ∈ j.seen, ¬ awaitSpec b (j.cmd.o.sub.val / 8 % 8) v (j.cmd.a.toNat % 2 ^ (8 * b))) →
        After (exec (.awaitTimeout die n) s) (fun t => t.dones = s.dones ++ [{
            cmd := j.cmd, eng := 2, die := die, code := 8, value := BitVec.ofNat 64 (j.seen.getLastD ((j.got.map (·.1)).headD 0)) }] ∧
          (t.die die).waits = (s.die die).waits.eraseIdx n ∧ t.mem = s.mem)) ∧
      ((∃ v ∈ j.seen, awaitSpec b (j.cmd.o.sub.val / 8 % 8) v (j.cmd.a.toNat % 2 ^ (8 * b))) →
        After (exec (.awaitTimeout die n) s) (fun t => t = s)) ∧
      (s.time < due → After (exec (.awaitTimeout die n) s) (fun t => t = s))) ∧
    (∀ die n, (s.die die).waits[n]? = none → After (exec (.awaitTimeout die n) s) (fun t => t = s) ∧
      After (exec (.awaitRecheck die n) s) (fun t => t = s)) ∧
    (∀ die m rest b, die < 4 → (s.die die).arrivals = m :: rest → (∃ h o, m.word = .bar h o) → m.o.ord = .none → (∀ x ∈ rest, x.o.ord = .none) → m.o.sc ≠ .pod →
      1 ≤ m.a.toNat → m.a.toNat ≤ (match m.o.sc with | .quad => 4 | .die => 192 | _ => 2 ^ 32) →
      b = (Tab.find (s.die die).bars (s.barKey m)).getD {} → (b.count = 0 ∨ b.expected = m.a.toNat) →
      (b.count + 1 < m.a.toNat → After (exec (.barrierCount die) s) (fun t => (t.die die).arrivals = rest ∧ t.pens = s.pens ∧
        Tab.find (t.die die).bars (s.barKey m) = some { b with expected := m.a.toNat, count := b.count + 1, waiting := b.waiting ++ [m] })) ∧
      (m.a.toNat ≤ b.count + 1 → (∀ w ∈ b.waiting, w.o.ord = .none) →
        After (exec (.barrierCount die) s) (fun t => (t.die die).arrivals = rest ∧
          Tab.find (t.die die).bars (s.barKey m) = some { gen := b.gen + 1 } ∧
          ∀ w ∈ b.waiting ++ [m], ∀ x ∈ (t.pen w.pen).syncs, x.id ≠ w.id))) ∧
    (∀ die m rest b, die < 4 → (s.die die).arrivals = m :: rest → (∃ h o, m.word = .arrive h o) → m.o.ord = .none → (∀ x ∈ rest, x.o.ord = .none) → m.o.sc ≠ .pod →
      1 ≤ m.a.toNat → m.a.toNat ≤ (match m.o.sc with | .quad => 4 | .die => 192 | _ => 2 ^ 32) →
      b = (Tab.find (s.die die).bars (s.barKey m)).getD {} → (b.count = 0 ∨ b.expected = m.a.toNat) → b.count + 1 < m.a.toNat →
      After (exec (.barrierCount die) s) (fun t => (t.die die).arrivals = rest ∧ t.pens = s.pens ∧
        Tab.find (t.die die).bars (s.barKey m) = some { b with expected := m.a.toNat, count := b.count + 1 } ∧
        Tab.find (t.core m.core).arrGen (s.barKey m) = some b.gen ∧
        t.dones = s.dones ++ [{ cmd := m, eng := 2, die := die, value := BitVec.ofNat 64 (b.gen % 2 ^ 32) }])) ∧
    (∀ die n j h o, (s.die die).waits[n]? = some j → QuietJob j → (j.cmd.word = .awaitSync h o ∨ j.cmd.word = .awaitAsync h o ∨
      j.cmd.word = .liter h o) → NoAnswerDue s j → s.keyBound j.cmd.ctx = false → After (exec (.awaitRecheck die n) s) (fun t =>
        t = { s with todo := s.todo ++ [.ev .alarmClassB { a := j.cmd.ctx, b := die }] }))

/-! ### The drove (13_drove.md) -/

/-- Records through a chain (R262 to R273, R277, R281): one enters stage 0 per drove cycle, a recirculating one first, none while the exit
buffer is full, and the last record of a `dsend` answers it; a stage runs its action (none at all, or an addition of fields here) and
counts no miss of its own kind 0; a record that has passed stage 11 goes to its route's port as three raw tokens, and stays in the exit
buffer while the port has no room or a casting has taken its pen off the core. -/
def Obligations.DroveSteps : Prop :=
  ∀ (s : State) (die ch : Nat), die < 4 → ch < 4 →
    let c := s.chain die ch
    (chainBusy s c → After (exec (.droveAccept die ch) s) (fun t => t = s)) ∧
    (∀ r rest, ¬ chainBusy s c → c.recirc = r :: rest → r.t0 ≤ s.time → After (exec (.droveAccept die ch) s) (fun t =>
      t = s.modChain die ch (fun c => { c with recirc := rest, recs := c.recs ++ [{ r with stage := 0, t0 := s.time }], acc := some s.time }))) ∧
    (∀ r rest, ¬ chainBusy s c → c.recirc = [] → c.waiting = r :: rest → (∀ x ∈ c.sends, x.1.o.ord = .none) → 64 ≤ c.exits.length →
      After (exec (.droveAccept die ch) s) (fun t => t = s)) ∧
    (∀ r rest m n, ¬ chainBusy s c → c.recirc = [] → c.waiting = r :: rest → c.exits.length < 64 → c.sends = [(m, n)] → m.id = r.id →
      m.o.ord = .none → After (exec (.droveAccept die ch) s) (fun t => t.cores = s.cores ∧ t.mem = s.mem ∧
        t.chain die ch = { c with
          waiting := rest, recs := c.recs ++ [{ r with rc := 0, ver := c.ver.val, stage := 0, t0 := s.time }], acc := some s.time,
          sends := if n ≤ 1 then [] else [(m, n - 1)] } ∧
        t.dones = s.dones ++ (if n ≤ 1 then [{ cmd := m, eng := 3, die := die, inst := ch }] else []))) ∧
    (∀ n pre r post, n < 12 → c.recs = pre ++ r :: post → (∀ x ∈ pre, ¬ reached s n x) → reached s n r →
      (cfgOf (c.stage n) r = 0 → After (exec (.droveStage die ch n) s) (fun t => t.cores = s.cores ∧ t.mem = s.mem ∧
        t.chain die ch = { c with recs := pre ++ { r with stage := n + 1 } :: post })) ∧
      (∀ d x : Fin 16, cfgOf (c.stage n) r = BitVec.ofNat 512 ((3 * 2 ^ 19 + d.val * 2 ^ 15 + x.val * 2 ^ 11) * 2 ^ 104) → r.f.length = 16 →
        After (exec (.droveStage die ch n) s) (fun t => t.cores = s.cores ∧ t.mem = s.mem ∧
          t.chain die ch = { c with recs := pre ++
            { r with stage := n + 1, f := r.f.set d.val (r.f.getD d.val 0 + r.f.getD x.val 0) } :: post }))) ∧
    (∀ n, (∀ x ∈ c.recs, ¬ reached s n x) → After (exec (.droveStage die ch n) s) (fun t => t = s)) ∧
    (∀ r rest v rt, c.recs = r :: rest → r.stage = 12 → r.t0 + 48 ≤ s.time → c.exits = [] → r.f.length = 16 → r.dest.toNat / 512 = 0 →
      v = (if r.ver = 0 then (0 : Fin 2) else 1) → r.dest.toNat % 256 ∉ c.badRt[v] → Tab.find c.routes[v] (r.dest.toNat % 256) = some rt →
      rt.getLsbD 63 = true →
      let core := nearCore (rt.toNat % 2 ^ 32)
      let port := Fin.ofNat 8 (rt.toNat / 2 ^ 35)
      (s.coreCtx core = none ∨ s.coreCtx core = some (c.owner.getD 0)) →
      ((∀ p ∈ s.pens, p.ended = true ∨ p.frozen ≠ .cast ∨ core ∉ p.cores) → ((s.core core).rx[port]).q.length ≤ 61 →
        After (exec (.droveExit die ch) s) (fun t => t.chain die ch = { c with recs := rest } ∧ t.mem = s.mem ∧
          (∀ d, d ≠ core → t.core d = s.core d) ∧ ∃ t1 t2 t3,
            t.core core = { s.core core with rx := (s.core core).rx.set port { (s.core core).rx[port] with
              q := ((s.core core).rx[port]).q ++ [t1, t2, t3] } } ∧
            RawToken ((recordWords r).take 8) 0xFF t1 ∧ RawToken (((recordWords r).drop 8).take 8) 0xFF t2 ∧
            RawToken ((recordWords r).drop 16) 3 t3)) ∧
      ((61 < ((s.core core).rx[port]).q.length ∨
          (∃ p ∈ s.pens, p.ended = false ∧ p.frozen = .cast ∧ core ∈ p.cores) ∧
            ∀ p ∈ s.pens, p.live = false ∨ p.ended = true ∨ p.frozen = .cast ∨ core ∉ p.cores) →
        After (exec (.droveExit die ch) s) (fun t => t.chain die ch = { c with recs := rest, exits := [r] } ∧ t.mem = s.mem ∧
          t.cores = s.cores ∧ t.dones = s.dones))) ∧
    (∀ r rest, c.recs = r :: rest → (r.stage ≠ 12 ∨ s.time < r.t0 + 48) → c.exits = [] →
      After (exec (.droveExit die ch) s) (fun t => t = s))

/-- The tables of a chain (R184, R278 to R280): a commit makes the other version current, and once no record of the old one is left both
hold the new one and the commit answers, and its token, once delivered, ends it; a `dtw` puts its image into the shadow alone; a `dtr` reads
the miss counter; a command waits until the commit before it has ended. That the delivery of its token ends a commit is the model's reading
(log 119). -/
def Obligations.DroveTables : Prop :=
  ∀ (s : State) (die ch : Nat), die < 4 → ch < 4 →
    let c := s.chain die ch
    (c.ops = [] → After (exec (.droveTableOp die ch) s) (fun t => t = s)) ∧
    (∀ m rest h o, c.commit = none → c.ops = m :: rest → (∀ x ∈ c.ops, x.o.ord = .none) → m.word = .dcommit h o →
      After (exec (.droveTableOp die ch) s) (fun t => t = s.modChain die ch (fun c => { c with
        ops := rest, ver := 1 - c.ver, commit := some m, settled := false }))) ∧
    (∀ m h o, c.commit ≠ none → c.ops = [m] → m.o.ord = .none → m.word = .dcommit h o ∨ m.word = .dtw h o ∨ m.word = .dtd h o →
      After (exec (.droveTableOp die ch) s) (fun t => t = s)) ∧
    (∀ m rest h o n idx kind, c.commit = none → c.ops = m :: rest → m.o.ord = .none → m.word = .dtw h o →
      m.o.imm.getLsbD 15 = false → m.o.imm.toNat % 16 = n → n < 12 → m.cmd.toNat % 64 = 0 → m.img.length = 64 → s.poison = [] →
      m.a.toNat = idx → skind (c.stage n).cfg[(1 - c.ver : Fin 2)] = kind → kind ≠ 1 → idx < tableSize kind →
      entBad (BitVec.ofNat 512 (leNat m.img)) kind (skw (c.stage n).cfg[(1 - c.ver : Fin 2)]) = false →
      (∀ e, Tab.find (c.stage n).ents idx = some e → e.vm.getLsbD c.ver.val = false) →
      After (exec (.droveTableOp die ch) s) (fun t => t.cores = s.cores ∧ t.mem = s.mem ∧ (t.chain die ch).ops = rest ∧
        (t.chain die ch).ver = c.ver ∧
        Tab.find ((t.chain die ch).stage n).ents idx = some { img := BitVec.ofNat 512 (leNat m.img), vm := BitVec.ofNat 2 (2 - c.ver.val) } ∧
        (∀ k, k ≠ idx → Tab.find ((t.chain die ch).stage n).ents k = Tab.find (c.stage n).ents k) ∧
        ((t.chain die ch).stage n).cfg = (c.stage n).cfg ∧
        t.dones = s.dones ++ [{ cmd := m, eng := 3, die := die, inst := ch }])) ∧
    (∀ m rest h o n, c.ops = m :: rest → m.o.ord = .none → m.word = .dtr h o → m.o.imm.toNat % 16 = n → m.a = 0xFFFF →
      m.o.sub.val % 2 = 0 → After (exec (.droveTableOp die ch) s) (fun t => t.chain die ch = { c with ops := rest } ∧ t.cores = s.cores ∧
        t.mem = s.mem ∧ t.dones = s.dones ++ [{
          cmd := m, eng := 3, die := die, inst := ch, value := BitVec.ofNat 64 ((c.stage n).miss.toNat + c.ver.val * 2 ^ 34) }])) ∧
    (c.commit = none → After (exec (.dcommitDrained die ch) s) (fun t => t = s)) ∧
    (∀ m r, c.commit = some m → r ∈ c.recirc ++ c.recs ++ c.exits → r.ver = 1 - c.ver.val →
      After (exec (.dcommitDrained die ch) s) (fun t => t = s)) ∧
    (c.settled = true → After (exec (.dcommitDrained die ch) s) (fun t => t = s)) ∧
    (∀ m, c.commit = some m → c.settled = false → m.o.ord = .none → (∀ r ∈ c.recirc ++ c.recs ++ c.exits, r.ver = c.ver.val) →
      After (exec (.dcommitDrained die ch) s) (fun t => t.cores = s.cores ∧ t.mem = s.mem ∧ (t.chain die ch).commit = some m ∧
        (t.chain die ch).settled = true ∧
        (t.chain die ch).ver = c.ver ∧ (t.chain die ch).recs = c.recs ∧
        (∀ v : Fin 2, (t.chain die ch).routes[v] = c.routes[c.ver] ∧ (t.chain die ch).ctl[v] = c.ctl[c.ver] ∧
          ∀ n < 12, ((t.chain die ch).stage n).cfg[v] = (c.stage n).cfg[c.ver]) ∧
        (∀ n < 12, ∀ e ∈ ((t.chain die ch).stage n).ents, e.2.vm = 3 ∨ e.2.vm = 0) ∧
        t.dones = s.dones ++ [{ cmd := m, eng := 3, die := die, inst := ch }])) ∧
    (∀ m d rest h o, c.commit = some m → c.settled = true → m.word = .dcommit h o → d.cmd = m → m.host = none → d.die = die → d.inst = ch →
      d.clock = [] → s.dones = d :: rest → m.o.ord = .none → (s.pen m.pen).live = true → (s.pen m.pen).ended = false → (s.pen m.pen).frozen = .running →
      ((s.core m.core).rx[m.o.cp]).q.length < 64 →
      After (exec (.completionTokenDelivery m.core m.o.cp.val) s) (fun t => t.chain die ch = { c with commit := none, settled := false }))

/-! ### Demand units (09_demand.md) -/

/-- Commands and requests of a demand unit (R166, R185, R204, R208, R209): `dstat` answers the unit's state, `dmd` posts its ticks at the sink,
one that names no sink is ABORTED; a request enters an output with room and makes its ticks pending; a tick at or past LEN is
delivered to a sink, and with its last tick a demand answers H; a pending tick waits. That a command of a context whose key slot is bound to
another is a class B alarm whatever it accesses (R355) is the model's choice (log 125). -/
def Obligations.DemandSteps : Prop :=
  ∀ (s : State) (h : Nat),
    ((s.pen h).du.inbox = [] → After (exec (.demandUnitCommand h) s) (fun t => t = s)) ∧
    (∀ m rest f o i x, h < s.pens.length → (s.pen h).du.inbox = m :: rest → (s.pen h).du.parked = none → m.o.ord = .none →
      s.keyBound m.ctx = true → m.word = .dstat f o → NamesSink (s.pen h) m.cmd i x → After (exec (.demandUnitCommand h) s) (fun t => t = { s with
        pens := s.pens.set h { s.pen h with du := { (s.pen h).du with inbox := rest } }
        dones := s.dones ++ [{ cmd := m, eng := 4, die := (s.pen h).die, value := BitVec.ofNat 64 x.h, e4 := BitVec.ofNat 32 x.pend.length,
                               e5 := BitVec.ofNat 32 x.w, e6 := BitVec.ofNat 32 (s.pen h).du.w,
                               e7 := BitVec.ofNat 32 ((s.pen h).du.w / 2 ^ 32) }] })) ∧
    (∀ m rest f o, h < s.pens.length → (s.pen h).du.inbox = m :: rest → (s.pen h).du.parked = none → m.o.ord = .none →
      s.keyBound m.ctx = true → (m.word = .dstat f o ∨ m.word = .dmd f o ∨ m.word = .dret f o) → (∀ x ∈ (s.pen h).du.outs, x.dest ≠ .sink) →
      After (exec (.demandUnitCommand h) s) (fun t => t = { s with
        pens := s.pens.set h { s.pen h with du := { (s.pen h).du with inbox := rest } }
        dones := s.dones ++ [{ cmd := m, eng := 4, die := (s.pen h).die, code := 9, detail := 1 }] })) ∧
    (∀ m rest f o i x, h < s.pens.length → (s.pen h).du.inbox = m :: rest → (s.pen h).du.parked = none → m.o.ord = .none →
      s.keyBound m.ctx = true → m.word = .dmd f o → NamesSink (s.pen h) m.cmd i x → m.a.toNat < m.b.toNat → m.b.toNat < 2 ^ 48 →
      After (exec (.demandUnitCommand h) s) (fun t => t = { s with
        pens := s.pens.set h { s.pen h with du := { (s.pen h).du with
          inbox := rest
          outs := (s.pen h).du.outs.set i { x with net := x.net ++ [{ ticks := [(m.a.toNat, m.b.toNat)], asker := .dmd m.id }] }
          posted := (s.pen h).du.posted ++ [(m, i)] } } })) ∧
    (∀ m rest, (s.pen h).du.inbox = m :: rest → (s.pen h).du.parked = none → m.o.ord = .none → s.keyBound m.ctx = false →
      After (exec (.demandUnitCommand h) s) (fun t =>
        t = { s with todo := s.todo ++ [.ev .alarmClassB { a := m.ctx, b := (s.pen h).die }] })) ∧
    (∀ i x r rest, h < s.pens.length → (s.pen h).du.outs[i]? = some x → x.net = r :: rest → 16 ≤ x.queue.length →
      After (exec (.demandRequest h i) s) (fun t => t = s)) ∧
    (∀ i x r rest a b, h < s.pens.length → (s.pen h).du.outs[i]? = some x → x.net = r :: rest → x.queue.length < 16 → r.ticks = [(a, b)] →
      x.w = 0 → x.pend = [] → x.lost = [] → a < b → b ≤ x.len → (s.pen h).inTick = false → (s.pen h).du.run = none →
      After (exec (.demandRequest h i) s) (fun t => t = { s with
        pens := s.pens.set h { s.pen h with du := { (s.pen h).du with
          outs := (s.pen h).du.outs.set i { x with net := rest, queue := x.queue ++ [{ r with seq := s.fresh }], pend := [(a, b)] } } }
        fresh := s.fresh + 1 })) ∧
    (∀ i x r a, h < s.pens.length → (s.pen h).du.outs[i]? = some x → x.queue = [r] → r.ticks = [(a, a + 1)] → x.dest = .sink → x.len ≤ a →
      (∀ id m, x.net = [] → r.asker = .dmd id → (s.pen h).du.posted = [(m, i)] → m.id = id → r.lost = 0 → r.retracted = false →
        After (exec (.outputDelivery h i) s) (fun t => (t.pen h).du.posted = [] ∧ t.mem = s.mem ∧ t.cores = s.cores ∧
          (∃ y, (t.pen h).du.outs[i]? = some y ∧ y.queue = []) ∧
          t.dones = s.dones ++ [{ cmd := m, eng := 4, die := (s.pen h).die, value := BitVec.ofNat 64 x.h }]))) ∧
    (∀ i x r rest a b, h < s.pens.length → (s.pen h).du.outs[i]? = some x → x.queue = r :: rest → r.ticks = [(a, b)] → a < x.len → x.w = 0 →
      x.lost = [] → (a, b) ∈ x.pend → a < b → After (exec (.outputDelivery h i) s) (fun t => t = s))

/-! ### Planes and the end of a pen (02_pens.md, 19_shepherd.md) -/

/-- Configuration and completion of a pen (R83, R102, R189, R332 to R334, R372): `cfgld` puts an image into the shadow plane and answers its
status; `swap` holds a token, or is ABORTED where the shadow is not valid; at a drain point the planes change places; a recorded `fin`
gives the instance its exit code; a pen ends, and with the last one the launch completes. That a PID names the command's own instance first
(log 74), which of the codes recorded on one drove cycle counts (log 98), and that any command of a context whose key slot is bound to
another is a class B alarm (R355, log 125), are the model's choices. -/
def Obligations.PlaneSteps : Prop :=
  ∀ s : State,
    (∀ d h m f o, (s.die d).loader = [m] → m.word = .swap f o → OwnPen s m.pen m.ctx (m.a.toNat % 65536) h → (s.pen h).swap = none →
      m.o.ord = .none → s.keyBound m.ctx = true →
      ((s.pen h).shStat.toNat / 2 ^ 56 = 0 → After (exec (.configLoad d) s) (fun t => (t.die d).loader = [] ∧
        t.pens = s.pens.set h { s.pen h with swap := some m, swapNew := (s.pen h).frozen = .cast } ∧ t.cores = s.cores ∧ t.mem = s.mem ∧ t.dones = s.dones)) ∧
      ((s.pen h).shStat.toNat / 2 ^ 56 ≠ 0 → After (exec (.configLoad d) s) (fun t => (t.die d).loader = [] ∧ t.pens = s.pens ∧
        t.cores = s.cores ∧ t.dones = s.dones ++ [{ cmd := m, eng := 5, die := d, code := 9, detail := 5, value := (s.pen h).shStat }]))) ∧
    (∀ d m, (s.die d).loader = [m] → (∀ p ∈ s.pens, ¬ ((p.live = true ∨ p.frozen = .cast) ∧ p.ended = false ∧
        p.ctx = m.ctx ∧ p.pid.toNat = m.a.toNat % 65536)) →
      m.o.ord = .none → s.keyBound m.ctx = true →
      After (exec (.configLoad d) s) (fun t => t.pens = s.pens ∧ t.cores = s.cores ∧
        t.dones = s.dones ++ [{ cmd := m, eng := 5, die := d, code := 9, detail := 1 }])) ∧
    (∀ d h m f o hd n, (s.die d).loader = [m] → m.word = .cfgld f o → OwnPen s m.pen m.ctx (m.a.toNat % 65536) h → (s.pen h).swap = none →
      m.o.ord = .none → s.keyBound m.ctx = true → (∀ k ∈ s.poison, k < 2 ^ 57) → (s.pen h).cores.Nodup → s.vread m.ctx m.cmd.toNat 64 = .ok hd → ImageHeader hd ((s.pen h).h * (s.pen h).w) n →
      (∀ i < (s.pen h).h * (s.pen h).w * 4 * n, ∃ bs, s.vread m.ctx (m.cmd.toNat + 64 + 16 * i) 16 = .ok bs) →
      After (exec (.configLoad d) s) (fun t => (t.pen h).shN = n ∧ t.mem = s.mem ∧ (t.pen h).n = (s.pen h).n ∧
        t.dones = s.dones ++ [{ cmd := m, eng := 5, die := d, value := (t.pen h).shStat }] ∧
        (∀ c, { t.core c with shadow := (s.core c).shadow } = s.core c) ∧
        -- a pen whose cores a casting has freed keeps them in its record
        (let away := (s.pen h).frozen = .cast ∧ (s.pen h).withPad = true
         (away → t.cores = s.cores ∧ (t.pen h).shNew = true) ∧
         ∀ q j k bs, q < (s.pen h).h * (s.pen h).w → j < 4 → k < n →
          s.vread m.ctx (m.cmd.toNat + 64 + 16 * (q * (4 * n) + j * n + k)) 16 = .ok bs →
          (¬ away → Plane.word (t.core ((s.pen h).coreAt q)).shadow (colOf j) k = BitVec.ofNat 80 (leNat (bs.take 10))) ∧
          (∀ y, away → (t.pen h).held[q]? = some y → Plane.word y.shadow (colOf j) k = BitVec.ofNat 80 (leNat (bs.take 10)))) ∧
        (¬ ((s.pen h).frozen = .cast ∧ (s.pen h).withPad = true) → (∀ c ∈ (s.pen h).cores, ∀ j < 4, ∀ k < n, ∃ i, decode (colOf j) (Plane.word (t.core c).shadow (colOf j) k) = .ok i ∧
          (∀ x y, i ≠ .rgnin x y) ∧ ∀ x, i ≠ .rgnout x) → (t.pen h).shStat = 0))) ∧
    (∀ d m, (s.die d).loader = [m] → m.o.ord = .none → s.keyBound m.ctx = false →
      (∀ p ∈ s.pens, p.swap = none) → After (exec (.configLoad d) s) (fun t =>
        t = { s with todo := s.todo ++ [.ev .alarmClassB { a := m.ctx, b := d }] })) ∧
    (∀ h, (s.pen h).inTick = true → After (exec (.planeFlip h) s) (fun t => t = s)) ∧
    (∀ h m, h < s.pens.length → (s.pen h).swap = some m → m.o.ord = .none → (s.pen h).frozen = .running → Drained s h → (s.pen h).cores.Nodup →
      After (exec (.planeFlip h) s) (fun t => t.mem = s.mem ∧ t.dones = s.dones ++ [{ cmd := m, eng := 5, die := (s.pen h).die }] ∧
        (∀ c ∈ (s.pen h).cores, t.core c = { s.core c with live := (s.core c).shadow, shadow := (s.core c).live }) ∧
        (∀ c, c ∉ (s.pen h).cores → t.core c = s.core c) ∧ t.pens = s.pens.set h { s.pen h with
          swap := none, n := (s.pen h).shN, lens := (s.pen h).shLens, liveStat := (s.pen h).shStat,
          shN := (s.pen h).n, shLens := (s.pen h).lens, shStat := (s.pen h).liveStat })) ∧
    (∀ h c, (s.pen h).finRec = some c → (s.pen h).finReported = false → s.time % 2 = 0 →
      (∀ g ∈ s.instPens (s.pen h).qid (s.pen h).seq, (s.pen g).finWaits = true → g = h) → After (exec (.finRecord h) s) (fun t => t = { s with
      pens := s.pens.set h { s.pen h with finReported := true }
      entries := s.entries.map (fun e => if e.qid = (s.pen h).qid ∧ e.seq = (s.pen h).seq then
        { e with exit := some (e.exit.getD c) } else e) })) ∧
    (∀ h g c, (s.pen h).finWaits = true → s.time % 2 = 0 → g ∈ s.instPens (s.pen h).qid (s.pen h).seq → (s.pen g).finRec = some c →
      (s.pen g).finReported = false → (g = h ∨ (s.pen g).finTime < s.time) →
      (∀ x, x ≠ g → x = h ∨ (x ∈ s.instPens (s.pen h).qid (s.pen h).seq ∧ (s.pen x).finWaits = true ∧ (s.pen x).finTime < s.time) →
        (s.pen g).pid.toNat < (s.pen x).pid.toNat) → After (exec (.finRecord h) s) (fun t =>
        (t.pen h).finReported = true ∧ (t.pen g).finReported = true ∧
        (∀ x, x ≠ h → s.time ≤ (s.pen x).finTime → t.pen x = s.pen x) ∧
        t.entries = s.entries.map (fun e => if e.qid = (s.pen h).qid ∧ e.seq = (s.pen h).seq then
          { e with exit := some (e.exit.getD c) } else e))) ∧
    (∀ h, ((s.pen h).finRec = none ∨ (s.pen h).finReported = true ∨ s.time % 2 = 1) → After (exec (.finRecord h) s) (fun t => t = s)) ∧
    (∀ h, (s.pen h).inTick = true → After (exec (.penEnd h) s) (fun t => t = s)) ∧
    (∀ h g, MayEnd s h → g ≠ h → g < s.pens.length → (s.pen g).qid = (s.pen h).qid → (s.pen g).seq = (s.pen h).seq →
      ((s.pen g).live = true ∨ (s.pen g).frozen = .cast) → (s.pen g).ended = false → After (exec (.penEnd h) s) (fun t =>
        t = { s with pens := s.pens.set h { s.pen h with live := false, ended := true } })) ∧
    (∀ h e x, MayEnd s h → (∀ g, g ≠ h → g < s.pens.length → (s.pen g).qid = (s.pen h).qid → (s.pen g).seq = (s.pen h).seq →
        (s.pen g).ended = true ∨ (s.pen g).live = false ∧ (s.pen g).frozen ≠ .cast) →
      s.graphs = [] → (∃ g, g ≠ h ∧ g < s.pens.length ∧ (s.pen g).live = true ∧ (s.pen g).ended = false ∧ (s.pen g).ctx = (s.pen h).ctx) →
      s.entry? (s.pen h).qid (s.pen h).seq = some e → e.exit = some x → After (exec (.penEnd h) s) (fun t =>
        t = ({ s with pens := s.pens.set h { s.pen h with live := false, ended := true } }).complete e 0 0 0 (x.zeroExtend 64)))

/-! ### The shepherd (19_shepherd.md, 20_contexts.md) -/

/-- How an entry that completes is written (R320, R321, R335): VALUE and the status word into its w6 and w7, then COMPSEQ at CADDR when every
entry below it has completed; it leaves the shepherd. Entries whose writes do not fault and that ask for no event are meant. Under a key slot of
another context the alarm is raised and nothing is written (R355; that the entry still leaves is the model's choice, log 125). -/
def Obligations.EntryCompletion : Prop :=
  ∀ (s : State) (e : Entry) (code detail aux : Nat) (value : W64), code < 256 → detail < 256 → aux < 2 ^ 48 →
    (e.word 0).getLsbD 49 = false →
    let q := s.queue e.qid
    (∀ s1, s.keyBound e.ctx = true → (s.modEntry e.qid e.seq (fun x => { x with res := some (code, detail, aux, value) })).vwrite e.ctx (q.slotVa e.seq + 48)
      (leBytes 8 value.toNat ++ leBytes 8 (statusWord code detail aux).toNat) = .ok s1 →
    (∀ s2, e.seq = q.compseq.toNat + 1 → q.comp = [] → s1.vwrite e.ctx q.w1.toNat (leBytes 8 e.seq) = .ok s2 →
      let t := s.complete e code detail aux value
      t.mem = s2.mem ∧ (t.queue e.qid).compseq = BitVec.ofNat 64 e.seq ∧ (t.queue e.qid).comp = [] ∧ t.entry? e.qid e.seq = none ∧
      t.cores = s2.cores ∧ t.pens = s2.pens) ∧
    (q.compseq.toNat + 1 < e.seq → q.comp = [] →
      let t := s.complete e code detail aux value
      t.mem = s1.mem ∧ (t.queue e.qid).compseq = q.compseq ∧ (t.queue e.qid).comp = [e.seq] ∧ t.entry? e.qid e.seq = none)) ∧
    (s.keyBound e.ctx = false →
      let t := s.complete e code detail aux value
      t.mem = s.mem ∧ t.entry? e.qid e.seq = none ∧ .ev .alarmClassB { a := e.ctx, b := 0 } ∈ t.todo)

/-- Taking entries, WAIT, SIGNAL, TABLE and TEARDOWN (R321 to R326, R330, R349): the shepherd takes from a queue of the highest level every
32 drove cycles; a malformed entry is ABORTED with detail 1, one of a context that is not enabled with 2; a queue's ageing clock starts when it becomes
eligible; WAIT waits for COMPSEQ and acquires, SIGNAL is an `ast` (a misaligned one completes with BOUNDS, that it publishes all that was
released to the package or wider is the model's reading, log 67), TABLE commits its items, and TEARDOWN quarantines the queue's own context;
of a context whose key slot is bound to another nothing is done but the alarm (R355, log 125). A queue number above 65535 in WAIT is
malformed by the model's reading (log 62). -/
def Obligations.ShepherdEntries : Prop :=
  ∀ s : State,
    (s.time % 64 ≠ 0 → After (exec .shepherdTake s) (fun t => t = s)) ∧
    (∀ q l, s.chooseQueue = some (q, l) → ∃ x, (q, x) ∈ s.queues ∧ s.eligible q x = true ∧ x.level s.time = l ∧
      ∀ y ∈ s.queues, s.eligible y.1 y.2 = true → y.2.level s.time ≤ l) ∧
    (∀ q x, Tab.sorted s.queues = true → (q, x) ∈ s.queues → x.elig = false → s.eligible q x = true →
      s.lookQueues.queue q = { x with elig := true, clock := s.time }) ∧
    (s.time % 64 = 0 → s.lookQueues.chooseQueue = none → After (exec .shepherdTake s) (fun t => t = s.lookQueues)) ∧
    (∀ q l bs, s.time % 64 = 0 → s.lookQueues.chooseQueue = some (q, l) →
      let x := s.lookQueues.queue q
      let n := x.taken.toNat + 1
      let w := (List.range 8).map (wordAt bs)
      let e : Entry := { qid := q, seq := n, ctx := x.ctx, level := l, w := w }
      let s1 := { s.lookQueues.setQueue q { x with taken := BitVec.ofNat 64 n, clock := s.time } with
        entries := s.entries ++ [e], lastQid := s.lastQid.setIfInBounds l q }
      s.keyBound x.ctx = true → s.vread x.ctx (x.slotVa n) 64 = .ok bs →
      (((s.ctx x.ctx).quar = true ∨ (s.ctx x.ctx).tearing ≠ none ∨ (s.ctx x.ctx).w[2].getLsbD 63 = false) →
        After (exec .shepherdTake s) (fun t => t = s1.complete e 9 2 0 0)) ∧
      ((s.ctx x.ctx).quar = false → (s.ctx x.ctx).tearing = none → (s.ctx x.ctx).w[2].getLsbD 63 = true →
        (entryBad w = true → After (exec .shepherdTake s) (fun t => t = s1.complete e 9 1 0 0)) ∧
        (∀ i, entryBad w = false → opcRow ((w.getD 0 0).toNat / 2 ^ 56) = some i →
          After (exec .shepherdTake s) (fun t => t = { s1 with todo := .ev i { a := q, b := n } :: s.todo })))) ∧
    (∀ e, AtWork s e →
      ((e.word 1).toNat < 65536 → (e.word 2).toNat ≤ (s.queue (e.word 1).toNat).compseq.toNat →
        After (exec .wait s) (fun t => t = (s.applyReleased (· = 6)).complete e 0 0 0 0)) ∧
      ((e.word 1).toNat < 65536 → (s.queue (e.word 1).toNat).compseq.toNat < (e.word 2).toNat → After (exec .wait s) (fun t => t = s)) ∧
      (65536 ≤ (e.word 1).toNat → After (exec .wait s) (fun t => t = s.complete e 9 1 0 0)) ∧
      ((e.word 1).toNat % 8 ≠ 0 → After (exec .signal s) (fun t => t = s.complete e 3 2 0 (e.word 1))) ∧
      (∀ pl old s', (e.word 1).toNat % 8 = 0 → s.places e.ctx (e.word 1).toNat 8 .atomic = .ok pl →
        s.readPlaces (s.home e.ctx) pl none = .ok old →
        (s.applyReleased (4 ≤ ·)).vwriteBy none e.ctx (e.word 1).toNat .atomic (leBytes 8 (e.word 2).toNat) = .ok s' →
        After (exec .signal s) (fun t => t = s'.complete e 0 0 0 0)) ∧
      (∀ d, e.phase = 1 → s.dones.find? (fun x => x.cmd.host = some (e.qid, e.seq)) = some d →
        After (exec .table s) (fun t => t = (s.modChain ((e.word 3).toNat / 4 % 4) ((e.word 3).toNat % 4) (fun c =>
          { c with commit := none, settled := false })).complete e 0 0 0 0)) ∧
      (e.phase = 0 → ((e.word 2).toNat = 0 ∨ 65535 < (e.word 2).toNat ∨ 16 ≤ (e.word 3).toNat) →
        After (exec .table s) (fun t => t = s.complete e 9 1 0 0)) ∧
      (∀ s', e.phase = 0 → 0 < (e.word 2).toNat → (e.word 2).toNat ≤ 65535 → (e.word 3).toNat < 16 → e.aux = 0 →
        let d := (e.word 3).toNat / 4
        let ch := (e.word 3).toNat % 4
        ((s.chain d ch).quar = true ∨ (∃ o, (s.chain d ch).owner = some o ∧ o ≠ e.ctx) →
          After (exec .table s) (fun t => t = s.complete e 9 6 0 0)) ∧
        ((s.chain d ch).quar = false → (s.chain d ch).owner = some e.ctx → (s.chain d ch).commit = none →
          s.tableItems e.ctx (e.word 1).toNat d ch (e.word 2).toNat 0 = (s', none) →
          After (exec .table s) (fun t => (t.chain d ch).ver = 1 - (s'.chain d ch).ver ∧ (t.chain d ch).commit ≠ none ∧
            t.mem = s'.mem ∧ (t.entry? e.qid e.seq).map (·.phase) = some 1))) ∧
      (e.phase = 0 → e.word 1 ≠ BitVec.ofNat 64 e.ctx → After (exec .teardown s) (fun t => t = s.complete e 9 1 0 0)) ∧
      (e.phase = 0 → e.word 1 = BitVec.ofNat 64 e.ctx → (s.ctx e.ctx).quar = true →
        After (exec .teardown s) (fun t => t = s.complete e 9 2 0 0)) ∧
      (e.phase = 0 → e.word 1 = BitVec.ofNat 64 e.ctx → (s.ctx e.ctx).quar = false → After (exec .teardown s) (fun t =>
        (t.ctx e.ctx).quar = true ∧ (t.ctx e.ctx).tearing = some (e.qid, e.seq) ∧
        (∀ h < s.pens.length, (s.pen h).ctx = e.ctx → (s.pen h).live = true → (t.pen h).live = false ∧ (t.pen h).ended = true) ∧
        (∀ h < s.pens.length, (s.pen h).ctx ≠ e.ctx → t.pen h = s.pen h) ∧
        (∀ h < s.pens.length, (s.pen h).ctx = e.ctx → (s.pen h).live = true → ∀ c ∈ (s.pen h).cores, (e.ctx, c) ∈ t.quarCores) ∧
        (∀ d : Fin 4, (∀ j ∈ t.dies[d].bell, j.cmd.ctx ≠ e.ctx) ∧ (∀ j ∈ t.dies[d].waits, j.cmd.ctx ≠ e.ctx) ∧
          ∀ ch : Fin 4, t.dies[d].chains[ch].owner = some e.ctx → t.dies[d].chains[ch].quar = true)))) ∧
    (∀ q l, s.time % 64 = 0 → s.lookQueues.chooseQueue = some (q, l) → s.keyBound (s.lookQueues.queue q).ctx = false →
      After (exec .shepherdTake s) (fun t => t = { s.lookQueues with
        todo := s.todo ++ [.ev .alarmClassB { a := (s.lookQueues.queue q).ctx, b := 0 }] })) ∧
    (∀ i ∈ entryRows, s.entry? s.bus.a s.bus.b = none → After (exec i s) (fun t => t = s)) ∧
    (∀ i ∈ entryRows, ∀ e, s.entry? s.bus.a s.bus.b = some e →
      (e.parked ≠ none → After (exec i s) (fun t => t = s)) ∧
      (e.parked = none → e.res = none → s.keyBound e.ctx = false → After (exec i s) (fun t =>
        t = { s with todo := s.todo ++ [.ev .alarmClassB { a := e.ctx, b := 0 }] })))

/-- LAUNCH, REPLAY, PATCH, DEMAND, EXPORT and IMPORT (R322, R325, R327 to R329, R331): a graph whose placement fits gets one pen for each spot,
in PID order, and its entry waits for them; a bad block or graph is ABORTED with detail 1, one that does not fit with 6; a PATCH makes
the next version; the others are passed to the demand unit of the named operator and complete with its answer. What of a launch block is bad
beyond the two cases of R327 is the model's choice (log 84). -/
def Obligations.InstanceEntries : Prop :=
  ∀ (s : State) (e : Entry), AtWork s e →
    (e.phase = 0 → (e.word 1).toNat % 64 ≠ 0 → After (exec .launch s) (fun t => t = s.complete e 9 1 0 0)) ∧
    (∀ blk im, e.phase = 0 → (e.word 1).toNat % 64 = 0 → s.readBlock e.ctx (e.word 1).toNat = .ok blk →
      s.readImage e.ctx (blkW blk 0).toNat = .ok im →
      (blkBad blk im = true → After (exec .launch s) (fun t => t = s.complete e 9 1 0 0)) ∧
      (blkBad blk im = false → (∀ x ∈ s.entries, x.ctx = e.ctx → x.phase = 50 → x.level ≤ e.level) →
        (placeAll im (s.coreFree e.ctx) (blkPlaces blk) = none → (s.ctx e.ctx).w[4] = 0 →
          After (exec .launch s) (fun t => t = s.complete e 9 6 0 0)) ∧
        (∀ spots s' ls, placeAll im (s.coreFree e.ctx) (blkPlaces blk) = some spots → spots ≠ [] →
          s.readOps e im (blkW blk 0).toNat im.ops.length 0 = (s', .ok ls) →
          After (exec .launch s) (fun t => PensPlaced s e spots t ∧ (t.entry? e.qid e.seq).map (·.phase) = some 2)))) ∧
    (e.phase = 0 → s.graphOf e = none → (∀ d ∈ s.dones, d.cmd.host ≠ some (e.qid, e.seq)) →
      After (exec .replay s) (fun t => t = s.complete e 9 1 0 0)) ∧
    (∀ g v im spots s' ls, e.phase = 0 → s.graphOf e = some g → (∀ d ∈ s.dones, d.cmd.host ≠ some (e.qid, e.seq)) →
      g.bound.find? (fun b => b.2 = (e.qid, e.seq)) = some (v, e.qid, e.seq) →
      s.readImage e.ctx (blkW g.blk 0).toNat = .ok im → sinkIn g.blk im (e.word 3) = true → (e.word 4).toNat < 2 ^ 48 →
      (e.word 5).toNat < 2 ^ 48 → blkBad g.blk im = false → (∀ x ∈ s.entries, x.ctx = e.ctx → x.phase = 50 → x.level ≤ e.level) →
      placeAll im (s.coreFree e.ctx) (blkPlaces g.blk) = some spots → spots ≠ [] →
      s.readOps e im (blkW g.blk 0).toNat im.ops.length 0 = (s', .ok ls) →
      After (exec .replay s) (fun t => PensPlaced s e spots t ∧ (t.entry? e.qid e.seq).map (·.phase) = some 2)) ∧
    (s.graphOf e = none → After (exec .patch s) (fun t => t = s.complete e 9 1 0 0)) ∧
    (∀ g items tab tab' s', s.graphOf e = some g → s.entries.head? = some e → e.word 4 ≠ 0 →
      (∀ x ∈ g.live, x = 0 ∨ x = g.newest ∨ x % 4 ≠ (g.newest + 1) % 4) →
      s.vread e.ctx (e.word 3).toNat (40 * (e.word 4).toNat) = .ok items → s.vread e.ctx (g.table g.newest).toNat 131072 = .ok tab →
      patchTable tab (e.word 4).toNat items = some tab' → s.vwrite e.ctx (g.table (g.newest + 1)).toNat tab' = .ok s' →
      After (exec .patch s) (fun t => t = ({ s' with graphs := s'.graphs.map (fun (x : Graph) =>
        if x.qid = g.qid ∧ x.seq = g.seq then { x with newest := g.newest + 1 } else x) }).complete e 0 0 (g.newest + 1) 0)) ∧
    (∀ i w cmd a b, unitSpec e i = some (w, cmd, a, b) →
      (e.phase = 0 → s.instOf e = none → After (exec i s) (fun t => t = s.complete e 9 1 0 0)) ∧
      (∀ x h, e.phase = 0 → s.instOf e = some x → s.instSink x.qid x.seq (e.word 3) = some h → h < s.pens.length →
        (16 ≤ s.duLoad h → After (exec i s) (fun t => t = s)) ∧
        (s.duLoad h < 16 → After (exec i s) (fun t => (t.entry? e.qid e.seq).map (·.phase) = some 1 ∧ t.mem = s.mem ∧
          ∃ m, (t.pen h).du.inbox = (s.pen h).du.inbox ++ [m] ∧ m.word = w ∧ m.cmd = cmd ∧ m.a = a ∧ m.b = b ∧ m.ctx = e.ctx ∧
            m.host = some (e.qid, e.seq)))) ∧
      (e.phase = 1 → s.dones.find? (fun d => d.cmd.host = some (e.qid, e.seq)) = none → After (exec i s) (fun t => t = s)) ∧
      (∀ d, e.phase = 1 → s.dones.find? (fun d => d.cmd.host = some (e.qid, e.seq)) = some d →
        After (exec i s) (fun t => t = s.complete e d.code (d.detail.toNat % 256) d.e4.toNat d.value)))

/-- FREEZE, THAW, a pre-empted instance that goes back, and the scrub of a quarantined context (R62, R325, R347, R349, R350): a wave reaches
every pen; a captured instance is cast and its cores, with the scratchpad, are free; THAW of one that only reports clears tstat and lets
it go on (that one need not have been cast for this is the model's reading, log 80); a scrub zeroes scratchpads and extents, 4 KiB a row
(log 64), and ends the quarantine. Where a casting lies for a pre-empted instance is the model's choice (log 82),
as is the alarm for a context whose key slot is bound to another (R355, log 125). -/
def Obligations.CastingEntries : Prop :=
  ∀ s : State,
    (∀ e, AtWork s e → s.instOf e = none → After (exec .freeze s) (fun t => t = s.complete e 9 1 0 0) ∧
      After (exec .thaw s) (fun t => t = s.complete e 9 1 0 0)) ∧
    (∀ e i, AtWork s e → s.instOf e = some i → ((e.word 3).toNat % 4096 ≠ 0 ∨ 2 ≤ (e.word 4).toNat) →
      After (exec .freeze s) (fun t => t = s.complete e 9 1 0 0)) ∧
    (∀ e i, AtWork s e → s.instOf e = some i → (e.word 3).toNat % 4096 = 0 → (e.word 4).toNat < 2 →
      let hs := s.castPens i.qid i.seq
      (∀ h ∈ hs, (s.pen h).frozen = .running → (s.pen h).started = true → After (exec .freeze s) (fun t =>
        t.mem = s.mem ∧ ∀ g ∈ hs, (s.pen g).frozen = .running → (t.pen g).frozen = .wave ∧ (t.pen g).slot = (s.pen g).slot)) ∧
      (∀ s', (∀ h ∈ hs, (s.pen h).frozen ≠ .running ∧ s.captured h = true) →
        s.castInstance { e with qid := i.qid, seq := i.seq } (e.word 3).toNat ((e.word 4).getLsbD 0) = .ok s' →
        After (exec .freeze s) (fun t => (∀ h ∈ hs, (t.pen h).frozen = .cast ∧
            (t.pen h).live = !(e.word 4).getLsbD 0) ∧
          t = s'.complete e 0 0 0 (BitVec.ofNat 64 (hs.foldl (fun n h => n + 4096 + (s'.pen h).h * (s'.pen h).w *
            (0x37800 + if (e.word 4).getLsbD 0 then 2 ^ 20 else 0)) 64))))) ∧
    (∀ e i, AtWork s e → s.instOf e = some i →
      let hs := s.castPens i.qid i.seq
      hs ≠ [] → (∀ h ∈ hs, (s.pen h).frozen = .reporting) → After (exec .thaw s) (fun t => ∀ h ∈ hs, (t.pen h).frozen = .running ∧
        (t.pen h).tstat = 0 ∧ (t.pen h).stop = none ∧ (t.pen h).slot = (s.pen h).slot ∧ (t.pen h).it = (s.pen h).it)) ∧
    (∀ e i hd bs bad plan, AtWork s e → s.instOf e = some i →
      let hs := s.castPens i.qid i.seq
      let pad := (hd.getD 2 0).getLsbD 0
      let len := hs.foldl (fun n h => n + 4096 + (s.pen h).h * (s.pen h).w * (0x37800 + if pad then 2 ^ 20 else 0)) 64
      (∃ h ∈ hs, (s.pen h).frozen = .cast) → s.vread e.ctx (e.word 3).toNat 64 = .ok hd → leNat (hd.take 2) = hs.length →
      leNat ((hd.drop 8).take 8) = len → pad = (s.pen (hs.headD 0)).withPad → e.word 4 = 0 → s.thawPlan e hs none = some plan →
      s.castRead e.ctx (e.word 3).toNat hs pad = .ok (bs, bad) →
      After (exec .thaw s) (fun t => t = (s.thawAll plan pad bs bad).complete e 0 0 0 0)) ∧
    (∀ n, s.entries[n]? = none → After (exec (.preemptRestore n) s) (fun t => t = s)) ∧
    (∀ n e, s.entries[n]? = some e → e.phase = 50 → e.parked = none → s.castPens e.qid e.seq ≠ [] →
      (s.thawPlan e (s.castPens e.qid e.seq) none = none → After (exec (.preemptRestore n) s) (fun t => t = s)) ∧
      (∀ plan, s.thawPlan e (s.castPens e.qid e.seq) none = some plan →
        let waits := fun (x : Entry) => x.ctx = e.ctx ∧ x.phase = 50 ∧ e.level < x.level ∧ s.thawPlan x (s.castPens x.qid x.seq) none ≠ none
        ((∃ x ∈ s.entries, waits x) → After (exec (.preemptRestore n) s) (fun t => t = s)) ∧
        ((∀ x ∈ s.entries, ¬ waits x) →
          ∀ bs bad, s.keyBound e.ctx = true → s.castRead e.ctx e.va (s.castPens e.qid e.seq) true = .ok (bs, bad) →
            After (exec (.preemptRestore n) s) (fun t =>
              t = (s.thawAll plan true bs bad).modEntry e.qid e.seq (fun x => { x with phase := 2 }))))) ∧
    (∀ n, (s.ctx n).quar = false → After (exec (.scrubComplete n) s) (fun t => t = s)) ∧
    (∀ n cs k, (s.ctx n).quar = true → cs = (s.quarCores.filter (fun x => x.1 = n)).map (·.2) →
      cs[(s.ctx n).scrubPos / 2 ^ 20]? = some k → After (exec (.scrubComplete n) s) (fun t =>
        t.mem = nearPut s.mem (nearAddr k ((s.ctx n).scrubPos % 2 ^ 20)) (List.replicate 4096 0) ∧
        t.ctx n = { s.ctx n with scrubPos := (s.ctx n).scrubPos + 4096 })) ∧
    (∀ n pa len more, (s.ctx n).quar = true → (∀ x ∈ s.quarCores, x.1 ≠ n) → (s.ctx n).scrub = (pa, len) :: more →
      (s.ctx n).scrubPos < len → Mem.wf s.mem = true → After (exec (.scrubComplete n) s) (fun t =>
        (∀ a, t.mem.get a = if pa + (s.ctx n).scrubPos ≤ a ∧ a < pa + (s.ctx n).scrubPos + 4096 then 0 else s.mem.get a) ∧
        t.ctx n = { s.ctx n with scrubPos := (s.ctx n).scrubPos + 4096 })) ∧
    (∀ n, (s.ctx n).quar = true → (s.quarCores.filter (fun x => x.1 = n)).length * 2 ^ 20 +
        (s.ctx n).scrub.foldl (fun m x => m + x.2) 0 ≤ (s.ctx n).scrubPos → After (exec (.scrubComplete n) s) (fun t =>
        (t.ctx n).quar = false ∧ (t.ctx n).w[2].getLsbD 63 = false ∧ (∀ x ∈ t.quarCores, x.1 ≠ n) ∧ t.pens = s.pens)) ∧
    -- without poison a casting is read as memory is; with it, what it says of a scratchpad stays marked
    (∀ ctx va hs pad, s.poison = [] → s.castRead ctx va hs pad = (s.vread ctx va (hs.foldl (fun n h => n + 4096 + (s.pen h).h * (s.pen h).w *
        (0x37800 + if pad then 2 ^ 20 else 0)) 64)).map (fun bs => (bs, []))) ∧
    (∀ n e plan, s.entries[n]? = some e → e.phase = 50 → e.parked = none → s.castPens e.qid e.seq ≠ [] →
      s.thawPlan e (s.castPens e.qid e.seq) none = some plan → (∀ x ∈ s.entries, x.ctx = e.ctx → x.phase = 50 → x.level ≤ e.level) →
      s.keyBound e.ctx = false → After (exec (.preemptRestore n) s) (fun t =>
        t = { s with todo := s.todo ++ [.ev .alarmClassB { a := e.ctx, b := 0 }] }))

/-! ### Registers of the driver and the host (10_host.md and the files of each register) -/

/-- Writes of the host and the driver (R255, R310, R316, R319, R320, R337 to R341, R345, R348, R354, R361, R363): each changes its register within
its writable bits and bounds, and nothing else; a bad QTAIL disables its queue; an enabled queue or context guards its descriptor;
in recovery, before step 5 of bring-up and after a failed step, none has an effect (R358, R368). Register numbers of `registerWrite` are the
model's (log 30), as are what an enable needs of its context (log 75), QTAIL with EN = 0 (log 77), and the comparison in a write of FRPTR
(log 87). -/
def Obligations.RegisterWrites : Prop :=
  ∀ s : State,
    let off := s.svc.boot < 5 ∨ s.svc.recovery = true ∨ s.svc.status ≠ 0
    (off → ∀ i ∈ [Instr.qtailWrite, .queueDescWrite, .contextWrite, .bpctlWrite, .keyInstall, .hbaseWrite, .podcfgWrite, .inval, .frptrWrite,
      .registerWrite], After (exec i s) (fun t => t = s)) ∧
    (¬ off → let q := s.bus.a % 65536
     let x := s.queue q
     (x.tail.toNat ≤ s.bus.v.toNat → s.bus.v.toNat ≤ x.compseq.toNat + 2 ^ x.log2 →
        After (exec .qtailWrite s) (fun t => t = s.setQueue q { x with tail := s.bus.v })) ∧
     ((s.bus.v.toNat < x.tail.toNat ∨ x.compseq.toNat + 2 ^ x.log2 < s.bus.v.toNat) →
        After (exec .qtailWrite s) (fun t => (t.queue q).w2.getLsbD 43 = false ∧ (t.queue q).tail = x.tail ∧
          (t.queue q).compseq = x.compseq ∧ t.pens = s.pens ∧ t.cores = s.cores)) ∧
     (s.bus.b ≠ 2 → x.w2.getLsbD 43 = true → After (exec .queueDescWrite s) (fun t => t = s)) ∧
     (s.bus.b = 0 → x.w2.getLsbD 43 = false → After (exec .queueDescWrite s) (fun t => t = s.setQueue q { x with w0 := s.bus.v })) ∧
     (s.bus.b = 1 → x.w2.getLsbD 43 = false → After (exec .queueDescWrite s) (fun t => t = s.setQueue q { x with w1 := s.bus.v })) ∧
     (s.bus.b = 2 → After (exec .queueDescWrite s) (fun t => (t.queue q).clock = s.time)) ∧
     (s.bus.b = 2 → x.w2.getLsbD 43 = true → After (exec .queueDescWrite s) (fun t =>
        (t.queue q).w2.toNat / 2 ^ 47 = x.w2.toNat / 2 ^ 47 ∧ (t.queue q).w2.toNat / 2 ^ 43 % 16 = s.bus.v.toNat / 2 ^ 43 % 16 ∧
        (t.queue q).w2.toNat % 65536 = s.bus.v.toNat % 65536 ∧ (t.queue q).tail = x.tail ∧ (t.queue q).taken = x.taken ∧
        (t.queue q).compseq = x.compseq)) ∧
     (s.bus.b = 2 → x.w2.getLsbD 43 = false → s.bus.v.getLsbD 43 = true → (s.ctx (s.bus.v.toNat / 2 ^ 52)).w[2].getLsbD 63 = false →
        After (exec .queueDescWrite s) (fun t => (t.queue q).w2.getLsbD 43 = false)) ∧
     (s.bus.b = 2 → x.w2.getLsbD 43 = false → s.bus.v.getLsbD 43 = true → (s.ctx (s.bus.v.toNat / 2 ^ 52)).w[2].getLsbD 63 = true →
        (s.ctx (s.bus.v.toNat / 2 ^ 52)).quar = false → 1 ≤ s.bus.v.toNat / 2 ^ 47 % 32 → s.bus.v.toNat / 2 ^ 47 % 32 ≤ 16 →
        After (exec .queueDescWrite s) (fun t => (t.queue q).w2.getLsbD 43 = true ∧ (t.queue q).tail = 0 ∧ (t.queue q).taken = 0 ∧
          (t.queue q).compseq = 0))) ∧
    (¬ off → let n := s.bus.a % 4096
     let i := s.bus.b % 8
     let c := s.ctx n
     (c.w[2].getLsbD 63 = true → i ≠ 2 → i ≠ 3 → i ≠ 4 → After (exec .contextWrite s) (fun t => t = s)) ∧
     (c.w[2].getLsbD 63 = true → (i = 3 ∨ i = 4) →
        After (exec .contextWrite s) (fun t => t = s.setCtx n { c with w := c.w.setIfInBounds i s.bus.v })) ∧
     (c.w[2].getLsbD 63 = true → i = 2 → After (exec .contextWrite s) (fun t => (t.ctx n).w[2].getLsbD 61 = s.bus.v.getLsbD 61 ∧
        (∀ b, b ≠ 61 → (t.ctx n).w[2].getLsbD b = c.w[2].getLsbD b) ∧ (∀ j : Fin 8, j ≠ 2 → (t.ctx n).w[j] = c.w[j]))) ∧
     (c.w[2].getLsbD 63 = false → (i ≠ 2 ∨ s.bus.v.getLsbD 63 = false) →
        After (exec .contextWrite s) (fun t => t = s.setCtx n { c with w := c.w.setIfInBounds i (descriptorBits i s.bus.v) })) ∧
     (c.w[2].getLsbD 63 = false → i = 2 → s.bus.v.getLsbD 63 = true → (s.svc.boot < 8 ∨ c.quar = true ∨
          s.bus.v.getLsbD 62 = true ∧ (Tab.find s.keys (s.bus.v.toNat / 2 ^ 55 % 64) = none ∨
            ∃ x ∈ s.quarSlots, x.2 = s.bus.v.toNat / 2 ^ 55 % 64)) →
        After (exec .contextWrite s) (fun t => (t.ctx n).w[2].getLsbD 63 = false)) ∧
     (c.w[2].getLsbD 63 = false → i = 2 → s.bus.v.getLsbD 63 = true → s.svc.boot = 8 → c.quar = false →
        (s.svc.scrubFirst = true → ∀ x ∈ s.ctxs, x.2.quar = false) → s.bus.v.getLsbD 62 = false → c.w[1] = 0 → After (exec .contextWrite s) (fun t =>
          (t.ctx n).w[2] = s.bus.v &&& 0xFF80000000000000 ∧ (t.ctx n).ranges = [] ∧ t.keys = s.keys)) ∧
     (c.w[2].getLsbD 63 = false → i = 2 → s.bus.v.getLsbD 63 = true → s.svc.scrubFirst = true → (∃ x ∈ s.ctxs, x.2.quar = true) →
        After (exec .contextWrite s) (fun t => (t.ctx n).w[2].getLsbD 63 = false)) ∧
     After (exec .bpctlWrite s) (fun t => t = s.setCtx n { c with bp := s.bus.v &&& 0xC000FFFFFFFFFFFF })) ∧
    (¬ off → let slot := s.bus.b % 64
     let used := (∃ x ∈ s.quarSlots, x.2 = slot) ∨ ∃ x ∈ s.ctxs, x.2.w[2].getLsbD 63 = true ∧ x.2.w[2].getLsbD 62 = true ∧ x.2.w[2].toNat / 2 ^ 55 % 64 = slot
     (used → After (exec .keyInstall s) (fun t => t = s)) ∧
     (¬ used → After (exec .keyInstall s) (fun t => t = { s with keys := Tab.put s.keys slot (s.bus.c + 1, 4096) }))) ∧
    (¬ off → (someEnabled s → After (exec .hbaseWrite s) (fun t => t = s) ∧ After (exec .podcfgWrite s) (fun t => t = s)) ∧
     (¬ someEnabled s → After (exec .hbaseWrite s) (fun t => t = { s with hbase := s.bus.v &&& 0x000FFFFFFFFFFFF1 }) ∧
        After (exec .podcfgWrite s) (fun t => t = { s with svc := { s.svc with podcfg := s.bus.v &&& 0x800003FF03FFFFFF } }))) ∧
    (¬ off → After (exec .inval s) (fun t => t = { s with invs := s.invs ++ [s.bus.v] })) ∧
    (s.invs = [] → After (exec .invalComplete s) (fun t => t = s)) ∧
    (∀ v rest, s.invs = v :: rest → v.getLsbD 51 = true → (s.ctx (v.toNat / 2 ^ 52)).w[1] = 0 → After (exec .invalComplete s) (fun t =>
      t.invs = rest ∧ t.invseq = s.invseq + 1 ∧ (∀ e ∈ t.tlb, e ∈ s.tlb ∧ e.1 ≠ v.toNat / 2 ^ 52) ∧
      (∀ e ∈ s.tlb, e.1 ≠ v.toNat / 2 ^ 52 → e ∈ t.tlb))) ∧
    (∀ v rest, s.invs = v :: rest → v.toNat / 2 ^ 48 % 16 = 0 → After (exec .invalComplete s) (fun t =>
      -- a waiter on the page watches the places its word has now
      { t with dies := s.dies } = { s with
        invs := rest
        invseq := s.invseq + 1
        tlb := s.tlb.filter (fun e => !(e.1 = v.toNat / 2 ^ 52 && e.2.1 = v.toNat / 2 ^ 12 % 2 ^ 36)) } ∧
      ∀ d : Fin 4, t.dies[d] = { s.dies[d] with waits := s.dies[d].waits.map (fun j =>
        if j.watch = [] ∨ j.cmd.ctx ≠ v.toNat / 2 ^ 52 ∨ j.cmd.cmd.toNat / 2 ^ 12 % 2 ^ 36 ≠ v.toNat / 2 ^ 12 % 2 ^ 36 then j
        else { j with watch := (match s.places j.cmd.ctx j.cmd.cmd.toNat j.watch.length .rd with
          | .ok pl => pl
          | .error _ => []) }) })) ∧
    (¬ off → (∀ f ∈ s.faults, f.inBuf = true) → (∀ h < s.pens.length, ∀ i, (s.pen h).du.parked = some i →
        s.bus.v.toNat ≤ i ∧ i < 2 ^ 64) → After (exec .frptrWrite s) (fun t =>
      t.frptr = (if s.fwptr.toNat < s.bus.v.toNat then s.fwptr else s.bus.v) ∧ t.fwptr = s.fwptr ∧ t.mem = s.mem ∧
      (∀ f, f ∈ t.faults ↔ f ∈ s.faults ∧ t.frptr.toNat ≤ f.idx ∧ f.idx < 2 ^ 64) ∧
      (∀ e ∈ t.entries, ∀ i, e.parked = some i → t.frptr.toNat ≤ i ∧ i < 2 ^ 64))) ∧
    (¬ off → (s.bus.a = 0 → After (exec .registerWrite s) (fun t => t = { s with fbase := s.bus.v })) ∧
     (s.bus.a = 1 → After (exec .registerWrite s) (fun t => t = s.modDie (s.bus.b % 4) (fun x => { x with
        sprctl := x.sprctl.setIfInBounds s.bus.c (BitVec.ofNat 64 (clipped 4 64 (s.bus.v.toNat % 128))) }))) ∧
     (s.bus.a = 2 → After (exec .registerWrite s) (fun t => t = s.modDie (s.bus.b % 4) (fun x => { x with
        devc := x.devc.setIfInBounds s.bus.c s.bus.v }))) ∧
     (s.bus.a = 3 → After (exec .registerWrite s) (fun t => t = s.modDie (s.bus.b % 4) (fun x => { x with
        devs := x.devs.setIfInBounds s.bus.c (s.bus.v &&& 0x80FF) }))) ∧
     (s.bus.a = 4 → After (exec .registerWrite s) (fun t => t = { s with svc := { s.svc with
        plim := clipped 600 3000 (s.bus.v.toNat / 2 ^ 48), tthr := clipped 70 105 (s.bus.v.toNat / 2 ^ 40 % 256),
        floor := clipped 0 5 (s.bus.v.toNat % 8) } })) ∧
     (s.bus.a = 5 → After (exec .registerWrite s) (fun t => t = s.modDie (s.bus.b % 4) (fun x => { x with errs := x.errs &&& ~~~s.bus.v }))) ∧
     (s.bus.a = 6 → After (exec .registerWrite s) (fun t => t = { s with svc := { s.svc with
        expwin := s.svc.expwin.setIfInBounds (3 * (s.bus.b % 16) + s.bus.c % 3)
          (s.bus.v &&& (if s.bus.c % 3 = 2 then 0xC00000000000FFFF else 0x000000FFFFFFF000)) } })) ∧
     (7 ≤ s.bus.a → After (exec .registerWrite s) (fun t => t = s)))

/-! ### Service, reset and power (21_security.md to 24_reset.md) -/

/-- Errors, alarms, power and bring-up (R352 to R361, R367, R368): a corrected error is counted, an uncorrectable byte is left poisoned; an alarm
of class B tears its context down, one of class A zeroises the keys, quarantines every core and resets; over a limit islands slow
down, TALM raises the alarm; bring-up takes its steps in order, and recovery verifies an image. Bus operands are the model's
(logs 23, 30), as are the layout of the measurements (log 22), a cold reset that keeps the quarantine while memory reads 0 (R350, log 29), the
islands' levels (log 86), and what an alarm does whose context's key slot is bound to another (log 117). -/
def Obligations.ServiceEvents : Prop :=
  ∀ s : State,
    (s.bus.v = 0 → After (exec .patrolScrub s) (fun t => ∀ d : Fin 4,
      t.dies[d] = if d.val = s.bus.a % 4 then { s.dies[d] with
        errs := (if s.dies[d].errs.toNat / 2 ^ 32 = 2 ^ 32 - 1 then s.dies[d].errs else s.dies[d].errs + BitVec.ofNat 64 (2 ^ 32)) }
        else s.dies[d])) ∧
    (s.bus.v ≠ 0 → s.bus.b = 0 → After (exec .patrolScrub s) (fun t => s.bus.c ∈ t.poison ∧ (∀ k ∈ s.poison, k ∈ t.poison) ∧
      t.mem = s.mem ∧ t.cores = s.cores)) ∧
    (∀ t0 t1 t2 t3 i, s.bus.nums = [t0, t1, t2, t3, i] → s.pens = [] → s.svc.plim < s.bus.a →
      (∀ x ∈ [t0, t1, t2, t3], x < s.svc.talm) → i < 128 → After (exec .powerSample s) (fun t => t.todo = s.todo ∧
        let l := (s.die (i / 32)).req.toList.getD (i % 32) 0
        let l' := if i ≠ 0 ∧ l < s.svc.floor then l + 1 else l
        (t.die (i / 32)).req.toList.getD (i % 32) 0 = l' ∧ (i ≠ 0 → (t.die (i / 32)).levels.toList.getD (i % 32) 0 = l'))) ∧
    (∀ t0 rest, s.bus.nums = t0 :: rest → s.svc.talm ≤ t0 → After (exec .powerSample s) (fun t =>
      t.todo = .ev .alarmClassA { a := 3, b := 0 } :: s.todo)) ∧
    (∀ d i, After (exec (.levelChangeDone d i) s) (fun t =>
      t = s.modDie d (fun x => { x with changing := x.changing.setIfInBounds i false }))) ∧
    After (exec .alarmClassA s) (fun t => t.keys = [] ∧ t.queues = [] ∧ t.entries = [] ∧ t.pens = [] ∧ t.cores = [] ∧
      (∀ c < 768, ∃ n, (n, c) ∈ t.quarCores) ∧ (∀ k < 64, ∃ n, (n, k) ∈ t.quarSlots) ∧ (∀ x ∈ t.ctxs, x.2.quar = true) ∧ t.svc.boot = 0 ∧
      ∀ d : Fin 4, d.val = s.bus.b % 4 → t.dies[d].almlog.toNat / 2 ^ 56 = s.bus.a % 256) ∧
    (let n := s.bus.a % 4096
     (((s.ctx n).w[2].getLsbD 63 = false ∨ (s.ctx n).quar = true) → After (exec .alarmClassB s) (fun t => t.ctxs = s.ctxs ∧
        t.pens = s.pens ∧ t.cores = s.cores ∧ ∀ d : Fin 4, d.val = s.bus.b % 4 →
          t.dies[d].almlog.toNat / 2 ^ 56 = 7 ∧ t.dies[d].almlog.toNat / 2 ^ 43 % 2 ^ 12 = n)) ∧
     ((s.ctx n).w[2].getLsbD 63 = true → (s.ctx n).quar = false → After (exec .alarmClassB s) (fun t => (t.ctx n).quar = true ∧
        (∀ h < s.pens.length, (s.pen h).ctx = n → (s.pen h).live = true → (t.pen h).live = false) ∧
        (∀ h < s.pens.length, (s.pen h).ctx ≠ n → t.pen h = s.pen h) ∧
        (s.keyBound n = false → t.keys = s.keys) ∧
        ((s.ctx n).w[2].getLsbD 62 = true → s.keyBound n = true → Tab.sorted s.keys = true → Tab.find t.keys ((s.ctx n).w[2].toNat / 2 ^ 55 % 64) = none)))) ∧
    After (exec .coldReset s) (fun t => t.pens = [] ∧ t.cores = [] ∧ t.queues = [] ∧ t.entries = [] ∧ t.graphs = [] ∧ t.keys = [] ∧ t.tlb = [] ∧
      t.svc.boot = 0 ∧ t.svc.flash = s.svc.flash ∧ t.quarCores = s.quarCores ∧ t.quarSlots = s.quarSlots ∧ (∀ x ∈ t.ctxs, x.2.quar = true ∧ x.2.w[2] = 0) ∧
      (∀ a, t.mem.get a = if 2 ^ 51 ≤ a ∧ a < 2 ^ 52 then s.mem.get a else 0)) ∧
    After (exec .warmReset s) (fun t => t.pens = [] ∧ t.cores = [] ∧ t.queues = [] ∧ t.entries = [] ∧ t.graphs = [] ∧ t.keys = [] ∧ t.tlb = [] ∧
      t.svc.boot = 0 ∧ t.svc.flash = s.svc.flash ∧ t.quarCores = s.quarCores ∧ t.quarSlots = s.quarSlots ∧ (∀ x ∈ t.ctxs, x.2.quar = true ∧ x.2.w[2] = 0) ∧
      t.mem = s.mem ∧ ∀ d : Fin 4, t.dies[d].almlog = s.dies[d].almlog) ∧
    After (exec .functionLevelReset s) (fun t => t.queues = [] ∧ t.entries = [] ∧ t.graphs = [] ∧ (∀ x ∈ t.ctxs, x.2.quar = true ∧ x.2.w[2] = 0) ∧
      t.svc = { s.svc with scrubFirst := t.svc.scrubFirst } ∧ (t.svc.scrubFirst = true ↔ ∃ x ∈ t.ctxs, x.2.quar = true)) ∧
    ((8 ≤ s.svc.boot ∨ s.svc.recovery = true ∨ s.svc.status ≠ 0) → After (exec .bringupStep s) (fun t => t = s)) ∧
    (s.svc.boot < 8 → s.svc.recovery = false → s.svc.status = 0 →
      (s.svc.boot = 0 → Config.slhVerify s.svc.fusedKey s.svc.flash = false → After (exec .bringupStep s) (fun t =>
        t.svc.recovery = true ∧ t.svc.boot = 0)) ∧
      (s.svc.boot = 0 → Config.slhVerify s.svc.fusedKey s.svc.flash = true → After (exec .bringupStep s) (fun t =>
        t = { s with svc := { s.svc with boot := 1, fw := s.svc.flash } })) ∧
      (s.svc.boot = 1 → After (exec .bringupStep s) (fun t => t = { s with
        keys := [], svc := { s.svc with boot := 2, ident := Config.identityKey s.svc.secret } })) ∧
      (2 ≤ s.svc.boot → s.bus.a = 0 → (s.svc.boot = 5 → ∀ x ∈ s.ctxs, x.2.quar = false) →
        After (exec .bringupStep s) (fun t => t = { s with svc := { s.svc with boot := s.svc.boot + 1 } })) ∧
      (s.svc.boot = 5 → (∃ x ∈ s.ctxs, x.2.quar = true) → After (exec .bringupStep s) (fun t => t = s)) ∧
      (s.svc.boot = 2 ∨ s.svc.boot = 3 ∨ s.svc.boot = 4 ∨ s.svc.boot = 6 → s.bus.a ≠ 0 → After (exec .bringupStep s) (fun t =>
        t.svc.boot = s.svc.boot ∧ t.svc.status.toNat / 2 ^ 56 = s.svc.boot + 1))) ∧
    (s.svc.boot < 5 → s.svc.recovery = false → s.svc.status = 0 → After (exec .recoveryImageWrite s) (fun t => t = s)) ∧
    ((5 ≤ s.svc.boot ∨ s.svc.recovery = true ∨ s.svc.status ≠ 0) → After (exec .recoveryImageWrite s) (fun t => spliced s.svc.flash s.bus.a s.bus.data t.svc.flash ∧
      ((s.svc.recovery = false ∨ s.bus.b ≠ 1 ∨ Config.slhVerify s.svc.fusedKey t.svc.flash = false) →
        { t with svc := { t.svc with flash := s.svc.flash } } = s) ∧
      (s.svc.recovery = true → s.bus.b = 1 → Config.slhVerify s.svc.fusedKey t.svc.flash = true →
        t.svc.recovery = false ∧ t.svc.boot = 0 ∧ t.svc.status = 0))) ∧
    ((s.svc.boot < 5 ∨ s.svc.recovery = true ∨ s.svc.status ≠ 0) → After (exec .spdmMeasurements s) (fun t => t = s)) ∧
    (5 ≤ s.svc.boot → s.svc.recovery = false → s.svc.status = 0 → After (exec .spdmMeasurements s) (fun t => { t with svc := { t.svc with meas := s.svc.meas } } = s ∧
      (∃ blocks, t.svc.meas = blocks ++ Config.slhSign s.svc.ident blocks) ∧
      t.svc.meas.take 32 = leBytes 32 (Config.sha256 Config.bootRom).toNat ∧
      (t.svc.meas.drop 32).take 32 = leBytes 32 (Config.sha256 s.svc.fw).toNat ∧
      (t.svc.meas.drop 64).take 32 = leBytes 32 (Config.sha256 (leBytes 32 s.svc.fusedKey.toNat)).toNat ∧
      t.svc.meas.getD 96 0 = 0))

/-! ### The host's accesses and the pod (11_memory.md, 22_pod.md) -/

/-- Events from outside (R295, R296, R348, R352, R362 to R366): a flit with a bad CRC or out of order is asked for again and sent again from there,
a repeated one is dropped; a member's answer brings what it read; the host reads plain bytes of memory and its writes land, poison has no
data; a lost line wakes the waiters; gathered arrivals and withdrawals are sent at the end of a window and counted by the switch, whose
release ends the barrier's generation; a flush is answered once the writes before it are applied. Flit contents and the members' requests
are the model's (log 31), as are a host fetch-and-add, bus.a = 2 (log 109), a flush answered once though it comes on every link (log 118),
and the shape of count messages (log 123). -/
def Obligations.OutsideEvents : Prop :=
  ∀ s : State,
    (let want := (Tab.find s.svc.flitNext s.bus.a).getD 0
     let next := { s with svc := { s.svc with flitNext := Tab.put s.svc.flitNext s.bus.a (want + 1) } }
     let good := s.bus.data.length = 64 ∧ leNat (s.bus.data.drop 60) = crc32c (s.bus.data.take 60)
     ((16 ≤ s.bus.a ∨ s.svc.boot < 7) → After (exec .flitReceive s) (fun t => t = s)) ∧
     (s.bus.a < 16 → 7 ≤ s.svc.boot → (¬ good ∨ want < s.bus.b) → After (exec .flitReceive s) (fun t =>
        t = { s with svc := { s.svc with resend := s.svc.resend ++ [s.bus.a], flitOut := s.svc.flitOut ++ [[s.bus.a, 9, want]] } })) ∧
     (s.bus.a < 16 → 7 ≤ s.svc.boot → good → s.bus.b < want → After (exec .flitReceive s) (fun t => t = s)) ∧
     (s.bus.a < 16 → 7 ≤ s.svc.boot → good → s.bus.b = want → After (exec .flitReceive s) (fun t =>
        t = next.deliverFlit s.bus.a (Config.flitNums (s.bus.data.take 60))))) ∧
    (∀ link x y, s.deliverFlit link [4, x, y] = { s with todo := s.todo ++ [.ev .podRelease { a := x, b := y }] }) ∧
    (∀ link n, s.deliverFlit link [9, n] = { s with svc := { s.svc with again := s.svc.again
      ++ ((s.svc.flitOut.filter (fun f => f.headD 0 = link)).drop n).zipIdx.map (fun x => (link, n + x.2, flitImage (x.1.drop 1))) } }) ∧
    (∀ f, let p := Config.flitBytes f
      flitImage f = p ++ leBytes 4 (crc32c p)) ∧
    (∀ link m id code detail x data, Tab.find s.svc.peers id = some x → (code ≠ 0 ∨ x.flit.getD 1 0 = 5) →
      s.deliverFlit link ([7, m, id, code, detail] ++ data) =
        { s with svc := { s.svc with peers := Tab.put s.svc.peers id { x with ans := some (code, detail) } } }) ∧
    (∀ link m id x data, Tab.find s.svc.peers id = some x → x.flit.getD 1 0 = 6 → s.crypt = [] → Mem.wf s.mem = true →
      let t := s.deliverFlit link ([7, m, id, 0, 0] ++ data)
      let at_ := 2 ^ 50 + x.flit.getD 5 0
      Tab.find t.svc.peers id = some { x with ans := some (0, 0) } ∧
      ∀ k, t.mem.get k = if at_ ≤ k ∧ k < at_ + data.length then BitVec.ofNat 8 (data.getD (k - at_) 0) else s.mem.get k) ∧
    (∀ link key sign n exp m rest, s.deliverFlit link ([3, key, sign, n, exp, m] ++ rest) =
      { s with todo := s.todo ++ [.ev .podCountMessage { nums := [3, key, sign, n, exp, m] ++ rest }] }) ∧
    (∀ link m id x, Tab.find s.svc.flush id = some x → s.deliverFlit link [2, m, id] =
      { s with svc := { s.svc with flush := Tab.put s.svc.flush id { x with left := x.left.filter (· != m) } } }) ∧
    (∀ link m id tag,
      let t := s.deliverFlit link [1, m, id, tag]
      let came := link :: (s.svc.flushIn.find? (fun f => decide (f.1 = m) && decide (f.2.1 = id))).elim [] (fun f => f.2.2.2)
      t.mem = s.mem ∧ (m, id, tag, came) ∈ t.svc.flushIn ∧
      (∀ f ∈ s.svc.flushIn, (f.1 ≠ m ∨ f.2.1 ≠ id) → f ∈ t.svc.flushIn) ∧
      (∀ d : Fin 4, ∀ e ∈ t.dies[d].remote, 1024 < e.agent.core → s.linkTo (e.agent.core - 1025) = link → (m, id) ∈ e.flush) ∧
      ((∀ l ∈ s.links, l ∈ came) → ∀ d : Fin 4, ∀ e ∈ t.dies[d].remote, e.agent = { core := 1025 + m, tag := tag } →
        (5, { core := 1025 + m, tag := tag }) ∈ e.rel)) ∧
    (∀ link m id tag ofs n, ofs < 2 ^ 40 → s.exported tag ofs n false = false →
      s.deliverFlit link [6, m, id, tag, ofs, n] = s.sendFlit [s.linkTo m, 7, m, id, 2, 0]) ∧
    (∀ link m id tag ofs n, ofs < 2 ^ 40 → s.exported tag ofs n false = true → (∃ k ∈ s.poison, ofs ≤ k ∧ k < ofs + n) →
      After (.next (s.deliverFlit link [6, m, id, tag, ofs, n])) (fun t => t.svc.flitOut = s.svc.flitOut ++ [[s.linkTo m, 7, m, id, 11, 0]])) ∧
    (∀ link m id tag ofs n, ofs < 2 ^ 40 → s.exported tag ofs n false = true → s.crypt = [] → (∀ k ∈ s.poison, ¬ (ofs ≤ k ∧ k < ofs + n)) →
      s.deliverFlit link [6, m, id, tag, ofs, n] =
        s.sendFlit ([s.linkTo m, 7, m, id, 0, 0] ++ (List.range n).map (fun i => (s.mem.get (ofs + i)).toNat))) ∧
    (let off := (s.svc.boot < 5 ∨ s.svc.recovery = true ∨ s.svc.status ≠ 0) ∧ s.bus.c.testBit 51 = false
     let bad := ∃ k ∈ s.poison, s.bus.c ≤ k ∧ k < s.bus.c + s.bus.b
     (off → After (exec .cxlMemAccess s) (fun t => t = s)) ∧
     (¬ off → bad → (s.bus.a = 0 ∨ s.bus.a = 2) → After (exec .cxlMemAccess s) (fun t => t.bus = { s.bus with data := [], nums := [11] } ∧
        t.mem = s.mem)) ∧
     (¬ off → (bad → s.bus.a = 1) → s.bus.v = 0 → s.crypt = [] →
      let old := (List.range s.bus.b).map (fun i => s.mem.get (s.bus.c + i))
      (s.bus.a = 0 → After (exec .cxlMemAccess s) (fun t => t = { s with bus := { s.bus with data := old } })) ∧
      (s.bus.a = 1 → Mem.wf s.mem = true → After (exec .cxlMemAccess s) (fun t => t.cores = s.cores ∧ t.pens = s.pens ∧
        (∀ k, t.mem.get k = if s.bus.c ≤ k ∧ k < s.bus.c + s.bus.data.length then s.bus.data.getD (k - s.bus.c) 0 else s.mem.get k) ∧
        (∀ k ∈ t.poison, ¬ (s.bus.c ≤ k ∧ k < s.bus.c + s.bus.data.length)))) ∧
      (s.bus.a = 2 → Mem.wf s.mem = true → After (exec .cxlMemAccess s) (fun t => t.bus.data = old ∧ t.cores = s.cores ∧ t.pens = s.pens ∧
        let new := leBytes s.bus.b (leNat old + s.bus.w.toNat)
        ∀ k, t.mem.get k = if s.bus.c ≤ k ∧ k < s.bus.c + s.bus.b then new.getD (k - s.bus.c) 0 else s.mem.get k)))) ∧
    After (exec .cxlCacheLineLoss s) (fun t => s.bus.a ∉ t.hostLines ∧ (∀ l ∈ s.hostLines, l ≠ s.bus.a → l ∈ t.hostLines) ∧
      (∀ d < 4, ∀ n < (s.die d).waits.length, Turn.ev (.awaitRecheck d n) {} ∈ t.todo) ∧
      { t with hostLines := s.hostLines, todo := s.todo } = s) ∧
    (s.time % 128 ≠ 0 → After (exec .countMessageSend s) (fun t => t = s)) ∧
    (∀ key as_, s.time % 128 = 0 → s.svc.gather = [(key, as_, [])] → as_ ≠ [] → After (exec .countMessageSend s) (fun t =>
      t = { s with svc := { s.svc with
        gather := [], flitOut := s.svc.flitOut
          ++ [[s.links.headD 0, 3, key, 0, as_.length, (as_.head?.map (·.num)).getD 0, s.member] ++ as_.map (·.id)]
        countOut := s.svc.countOut ++ [{ key := key, arrs := as_ }] } })) ∧
    (∀ key as_, s.time % 128 = 0 → s.svc.gather = [(key, [], as_)] → as_ ≠ [] → After (exec .countMessageSend s) (fun t =>
      t = { s with svc := { s.svc with
        gather := [], flitOut := s.svc.flitOut
          ++ [[s.links.headD 0, 3, key, 1, as_.length, (as_.head?.map (·.num)).getD 0, s.member] ++ as_.map (·.id)]
        countOut := s.svc.countOut ++ [{ key := key, back := true, arrs := as_ }] } })) ∧
    (∀ key sign n exp m ids, s.bus.nums = [3, key, sign, n, exp, m] ++ ids → n = ids.length → After (exec .podCountMessage s) (fun t =>
      ∃ as_, t = { s with svc := { s.svc with countOut := s.svc.countOut ++ [{ key := key, back := decide (sign = 1), arrs := as_ }] } } ∧
        as_.length = n ∧ (∀ a ∈ as_, a.member = m ∧ a.num = exp) ∧ as_.map (·.id) = ids)) ∧
    (s.bus.nums = [] → ∀ c rest, s.svc.countOut = c :: rest →
      let done := fun (t : State) (b : Tab (List PodArr × Nat)) => t.svc.podBars = b ∧ t.svc.countOut = rest ∧ t.mem = s.mem
      let mine := c.arrs.filter (fun a => a.member = s.member)
      -- the first of a generation takes a counter, and names the expected number
      (∀ a, c.back = false → Tab.find s.svc.podBars c.key = none → s.svc.podBars.length < 4096 → c.arrs.head? = some a →
        (∀ x ∈ c.arrs, x.num = a.num) →
        (c.arrs.length < a.num → After (exec .podCountMessage s) (fun t => done t (Tab.put s.svc.podBars c.key (c.arrs, a.num)) ∧ t.todo = s.todo)) ∧
        (a.num ≤ c.arrs.length → After (exec .podCountMessage s) (fun t => done t (Tab.del s.svc.podBars c.key) ∧
          t.todo = s.todo ++ (if mine = [] then [] else [.ev .podRelease { a := c.key / 256, b := c.key % 256, nums := mine.map (·.id) }])))) ∧
      -- a later one counts; another number makes an event of it, and counts all the same
      (∀ as_ e, c.back = false → Tab.find s.svc.podBars c.key = some (as_, e) → (∀ x ∈ c.arrs, x.num = e ∨ x.member ≠ s.member) →
        (as_.length + c.arrs.length < e → After (exec .podCountMessage s) (fun t => done t (Tab.put s.svc.podBars c.key (as_ ++ c.arrs, e)) ∧
          t.todo = s.todo)) ∧
        (e ≤ as_.length + c.arrs.length → After (exec .podCountMessage s) (fun t => done t (Tab.del s.svc.podBars c.key)))) ∧
      (∀ a as_ e, c.back = false → Tab.find s.svc.podBars c.key = some (as_, e) → c.arrs = [a] → a.num ≠ e → a.member = s.member →
        as_.length + 1 < e → After (exec .podCountMessage s) (fun t => t.svc.podBars = Tab.put s.svc.podBars c.key (as_ ++ [a], e) ∧
          t.svc.countOut = rest ∧ t.ctxs = (s.postEvent a.ctx 0x04 a.pid a.rel a.die
            [BitVec.ofNat 64 (c.key % 256), 5, BitVec.ofNat 64 e, BitVec.ofNat 64 a.num]).ctxs ∧
          t.mem = (s.postEvent a.ctx 0x04 a.pid a.rel a.die
            [BitVec.ofNat 64 (c.key % 256), 5, BitVec.ofNat 64 e, BitVec.ofNat 64 a.num]).mem)) ∧
      -- a withdrawal takes out what is still counted, and nothing of a generation that has released
      (∀ as_ e, c.back = true → Tab.find s.svc.podBars c.key = some (as_, e) → After (exec .podCountMessage s) (fun t =>
        done t (Tab.put s.svc.podBars c.key
          (as_.filter (fun a => ¬ ∃ x ∈ c.arrs, x.member = a.member ∧ x.id = a.id), e)) ∧ t.todo = s.todo)) ∧
      (c.back = true → Tab.find s.svc.podBars c.key = none → After (exec .podCountMessage s) (fun t => done t s.svc.podBars ∧ t.todo = s.todo)) ∧
      -- every counter in use: it waits, and the next one for another barrier goes before it
      (c.back = false → Tab.find s.svc.podBars c.key = none → 4096 ≤ s.svc.podBars.length →
        (rest = [] → After (exec .podCountMessage s) (fun t => t = s)) ∧
        (∀ g more as_ e, rest = g :: more → g.back = true → g.key ≠ c.key → Tab.find s.svc.podBars g.key = some (as_, e) →
          After (exec .podCountMessage s) (fun t => t.svc.countOut = c :: more)))) ∧
    (∀ b, s.bus.nums = [] → Tab.find (s.die 0).bars (s.bus.a * 256 + s.bus.b) = some b → b.count ≠ 0 → (∀ m ∈ b.waiting, m.o.ord = .none) →
      After (exec .podRelease s) (fun t => Tab.find (t.die 0).bars (s.bus.a * 256 + s.bus.b) = some { gen := b.gen + 1 } ∧
        ∀ m ∈ b.waiting, ∀ x ∈ (t.pen m.pen).syncs, x.id ≠ m.id)) ∧
    (s.bus.nums = [] → Tab.find (s.die 0).bars (s.bus.a * 256 + s.bus.b) = none → After (exec .podRelease s) (fun t => t = s)) ∧
    (∀ m, s.bus.nums = [m.id] → Tab.find (s.die 0).bars (s.bus.a * 256 + s.bus.b) = none → s.pens.flatMap (·.syncs) = [m] → m ∈ (s.pen m.pen).syncs →
      m.o.ord = .none → After (exec .podRelease s) (fun t => ∀ p ∈ t.pens, ∀ x ∈ p.syncs, x.id ≠ m.id)) ∧
    (s.bus.nums = [] → s.svc.countOut = [] → After (exec .podCountMessage s) (fun t => t = s)) ∧
    ((∀ f ∈ s.svc.flushIn, ∃ l ∈ s.links, l ∉ f.2.2.2) → After (exec .podFlush s) (fun t => t = s)) ∧
    (let has := fun (tag : Nat) => ∃ x ∈ s.ctxs, x.2.w[2].getLsbD 63 = true ∧ x.2.w[7].toNat % 2 ^ 16 = tag
     let left := fun (m id : Nat) => ∃ d : Fin 4, ∃ e ∈ s.dies[d].remote, (m, id) ∈ e.flush
     let waits := fun (f : Nat × Nat × Nat × List Nat) => (∃ l ∈ s.links, l ∉ f.2.2.2) ∨ (has f.2.2.1 ∧ left f.1 f.2.1)
     ((∀ f ∈ s.svc.flushIn, waits f) → After (exec .podFlush s) (fun t => t = s)) ∧
     (∀ f pre post, s.svc.flushIn = pre ++ f :: post → (∀ g ∈ pre, waits g) → ¬ waits f →
       After (exec .podFlush s) (fun t => t = { s with svc := { s.svc with
         flushIn := pre ++ post, flitOut := s.svc.flitOut ++ [[s.linkTo f.1, 2, s.member, f.2.1]] } })))
end

