-- ==== Sys2Proof/Laws/Memory.lean ====
section
/-! SUPPORT. Laws of tables and of memory: read after write, and the canonical form is kept. -/

namespace Sys2Proof.Machine

open Sys2Proof

/-! ### Tables -/

theorem tab_find_put_self {α : Type} (t : Tab α) (n : Nat) (x : α) : Tab.find (Tab.put t n x) n = some x := by
  induction t with
  | nil => simp [Tab.put, Tab.find]
  | cons h t ih =>
    obtain ⟨k, v⟩ := h
    unfold Tab.put
    split
    · simp [Tab.find]
    · split
      · simp [Tab.find]
      · rename_i h1 h2
        have : k ≠ n := fun e => h2 e.symm
        simp [Tab.find, this, ih]

theorem tab_find_put_of_ne {α : Type} (t : Tab α) {n m : Nat} (x : α) (h : m ≠ n) :
    Tab.find (Tab.put t n x) m = Tab.find t m := by
  induction t with
  | nil => simp [Tab.put, Tab.find, h.symm]
  | cons c t ih =>
    obtain ⟨k, v⟩ := c
    unfold Tab.put
    split
    · simp [Tab.find, h.symm]
    · split
      · rename_i h1 h2
        subst h2
        simp [Tab.find, h.symm]
      · simp [Tab.find, ih]

theorem tab_find_put {α : Type} (t : Tab α) (n m : Nat) (x : α) :
    Tab.find (Tab.put t n x) m = if m = n then some x else Tab.find t m := by
  split
  · subst_vars; exact tab_find_put_self t _ x
  · exact tab_find_put_of_ne t x ‹_›

/-- Keys at or above a bound, rising strictly: the form an induction over a sorted table needs. -/
def Tab.above {α : Type} : Nat → Tab α → Prop
  | _, [] => True
  | lo, (k, _) :: t => lo ≤ k ∧ Tab.above (k + 1) t

theorem tab_above_of_sorted {α : Type} : ∀ (t : Tab α), t.sorted = true → ∀ lo, (∀ c ∈ t.head?, lo ≤ c.1) → Tab.above lo t
  | [], _, _, _ => trivial
  | [(k, v)], _, lo, h => ⟨h (k, v) rfl, trivial⟩
  | (k, v) :: (k', v') :: t, hs, lo, h => by
    simp only [Tab.sorted, Bool.and_eq_true, decide_eq_true_eq] at hs
    refine ⟨h (k, v) rfl, tab_above_of_sorted ((k', v') :: t) hs.2 (k + 1) ?_⟩
    intro c hc
    simp at hc
    subst hc
    exact hs.1

theorem tab_above_mono {α : Type} {lo lo' : Nat} (h : lo ≤ lo') : ∀ {t : Tab α}, Tab.above lo' t → Tab.above lo t
  | [], _ => trivial
  | (_, _) :: _, ha => ⟨Nat.le_trans h ha.1, ha.2⟩

theorem tab_sorted_of_above {α : Type} : ∀ (t : Tab α) (lo : Nat), Tab.above lo t → t.sorted = true
  | [], _, _ => rfl
  | [_], _, _ => rfl
  | (k, v) :: (k', v') :: t, _, h => by
    simp only [Tab.sorted, Bool.and_eq_true, decide_eq_true_eq]
    exact ⟨h.2.1, tab_sorted_of_above ((k', v') :: t) (k + 1) h.2⟩

theorem tab_sorted_iff {α : Type} (t : Tab α) : t.sorted = true ↔ Tab.above 0 t :=
  ⟨fun h => tab_above_of_sorted t h 0 (fun _ _ => Nat.zero_le _), tab_sorted_of_above t 0⟩

theorem tab_above_put {α : Type} : ∀ (t : Tab α) (lo n : Nat) (x : α), Tab.above lo t → lo ≤ n → Tab.above lo (Tab.put t n x)
  | [], _, _, _, _, hn => ⟨hn, trivial⟩
  | (k, v) :: t, lo, n, x, h, hn => by
    unfold Tab.put
    split
    · exact ⟨hn, by assumption, h.2⟩
    · split
      · rename_i h1 h2
        subst h2
        exact ⟨h.1, h.2⟩
      · exact ⟨h.1, tab_above_put t (k + 1) n x h.2 (by omega)⟩

theorem tab_above_del {α : Type} : ∀ (t : Tab α) (lo n : Nat), Tab.above lo t → Tab.above lo (Tab.del t n)
  | [], _, _, _ => trivial
  | (k, v) :: t, lo, n, h => by
    unfold Tab.del
    split
    · exact tab_above_mono (by have := h.1; omega) h.2
    · exact ⟨h.1, tab_above_del t (k + 1) n h.2⟩

theorem tab_above_filter {α : Type} (p : Nat × α → Bool) : ∀ (t : Tab α) (lo : Nat), Tab.above lo t → Tab.above lo (t.filter p)
  | [], _, _ => trivial
  | (k, v) :: t, lo, h => by
    unfold List.filter
    split
    · exact ⟨h.1, tab_above_filter p t (k + 1) h.2⟩
    · exact tab_above_mono (by have := h.1; omega) (tab_above_filter p t (k + 1) h.2)

theorem tab_find_of_above {α : Type} : ∀ (t : Tab α) (lo n : Nat), Tab.above lo t → n < lo → Tab.find t n = none
  | [], _, _, _, _ => rfl
  | (k, v) :: t, lo, n, h, hn => by
    have hk : k ≠ n := by have := h.1; omega
    have := h.1
    simp [Tab.find, hk, tab_find_of_above t (k + 1) n h.2 (by omega)]

theorem tab_find_del {α : Type} : ∀ (t : Tab α) (lo n m : Nat), Tab.above lo t →
    Tab.find (Tab.del t n) m = if m = n then none else Tab.find t m
  | [], _, _, _, _ => by simp [Tab.del, Tab.find]
  | (k, v) :: t, lo, n, m, h => by
    unfold Tab.del
    split
    · subst_vars
      split
      · subst_vars
        exact tab_find_of_above t _ _ h.2 (by omega)
      · rename_i hne
        have : n ≠ m := fun e => hne e.symm
        simp [Tab.find, this]
    · rename_i hkn
      simp only [Tab.find, tab_find_del t (k + 1) n m h.2]
      by_cases hm : m = n
      · subst hm
        simp [hkn]
      · simp [hm]

/-! ### Memory -/

theorem mem_wf_iff (m : Mem) : m.wf = true ↔ Tab.above 0 m ∧ ∀ c ∈ m, c.2 ≠ Mem.blank := by
  simp [Mem.wf, tab_sorted_iff]

theorem mem_put_nonblank : ∀ (m : Mem) (k : Nat) (b : Byte), b ≠ Mem.blank → (∀ c ∈ m, c.2 ≠ Mem.blank) →
    ∀ c ∈ Tab.put m k b, c.2 ≠ Mem.blank
  | [], k, b, hb, _, c, hc => by
    simp [Tab.put] at hc
    subst hc
    exact hb
  | (k', v) :: t, k, b, hb, h, c, hc => by
    unfold Tab.put at hc
    split at hc
    · rcases List.mem_cons.1 hc with rfl | hc
      · exact hb
      · exact h c hc
    · split at hc
      · rcases List.mem_cons.1 hc with rfl | hc
        · exact hb
        · exact h c (List.mem_cons_of_mem _ hc)
      · rcases List.mem_cons.1 hc with rfl | hc
        · exact h _ List.mem_cons_self
        · exact mem_put_nonblank t k b hb (fun c hc => h c (List.mem_cons_of_mem _ hc)) c hc

theorem mem_del_nonblank : ∀ (m : Mem) (k : Nat), (∀ c ∈ m, c.2 ≠ Mem.blank) → ∀ c ∈ Tab.del m k, c.2 ≠ Mem.blank
  | [], _, _, c, hc => by simp [Tab.del] at hc
  | (k', v) :: t, k, h, c, hc => by
    unfold Tab.del at hc
    split at hc
    · exact h c (List.mem_cons_of_mem _ hc)
    · rcases List.mem_cons.1 hc with rfl | hc
      · exact h _ List.mem_cons_self
      · exact mem_del_nonblank t k (fun c hc => h c (List.mem_cons_of_mem _ hc)) c hc

/-- A write keeps the canonical form. -/
theorem mem_wf_set {m : Mem} (h : m.wf = true) (k : Nat) (b : Byte) : (m.set k b).wf = true := by
  rw [mem_wf_iff] at h ⊢
  unfold Mem.set
  split
  · exact ⟨tab_above_del m 0 k h.1, mem_del_nonblank m k h.2⟩
  · exact ⟨tab_above_put m 0 k b h.1 (Nat.zero_le _), mem_put_nonblank m k b ‹_› h.2⟩

/-- A byte reads as what was written last. -/
theorem mem_get_set {m : Mem} (h : m.wf = true) (k k' : Nat) (b : Byte) :
    (m.set k b).get k' = if k' = k then b else m.get k' := by
  rw [mem_wf_iff] at h
  unfold Mem.set Mem.get
  split
  · subst_vars
    rw [tab_find_del m 0 k k' h.1]
    split <;> rfl
  · rw [tab_find_put]
    split <;> rfl

theorem mem_wf_write {m : Mem} (h : m.wf = true) (k : Nat) (bs : List Byte) : (m.write k bs).wf = true := by
  induction bs generalizing m k with
  | nil => exact h
  | cons b bs ih => exact ih (mem_wf_set h k b) (k + 1)

theorem mem_wf_writeAt {m : Mem} (h : m.wf = true) (ks : List Nat) (bs : List Byte) : (m.writeAt ks bs).wf = true := by
  induction ks generalizing m bs with
  | nil => exact h
  | cons k ks ih =>
    cases bs with
    | nil => exact h
    | cons b bs => exact ih (mem_wf_set h k b) bs

theorem mem_wf_foldl {m : Mem} (h : m.wf = true) (cs : List (Nat × Byte)) :
    (cs.foldl (fun m c => Mem.set m c.1 c.2) m).wf = true := by
  induction cs generalizing m with
  | nil => exact h
  | cons c cs ih => exact ih (mem_wf_set h c.1 c.2)

theorem mem_wf_filter {m : Mem} (h : m.wf = true) (p : Nat × Byte → Bool) : Mem.wf (m.filter p) = true := by
  rw [mem_wf_iff] at h ⊢
  exact ⟨tab_above_filter p m 0 h.1, fun c hc => h.2 c (List.mem_filter.1 hc).1⟩

/-- A byte outside the written ones keeps its value. -/
theorem mem_get_writeAt_of_not_mem {m : Mem} (h : m.wf = true) (ks : List Nat) (bs : List Byte) (k : Nat) (hk : k ∉ ks) :
    (m.writeAt ks bs).get k = m.get k := by
  induction ks generalizing m bs with
  | nil => rfl
  | cons k' ks ih =>
    rw [List.mem_cons, not_or] at hk
    cases bs with
    | nil => rfl
    | cons b bs =>
      rw [show Mem.writeAt m (k' :: ks) (b :: bs) = Mem.writeAt (m.set k' b) ks bs from rfl,
        ih (mem_wf_set h k' b) bs hk.2, mem_get_set h, if_neg hk.1]

theorem mem_get_write_of_lt {m : Mem} (h : m.wf = true) (k a : Nat) (bs : List Byte) (ha : a < k ∨ k + bs.length ≤ a) :
    (m.write k bs).get a = m.get a := by
  induction bs generalizing m k with
  | nil => rfl
  | cons b bs ih =>
    rw [List.length_cons] at ha
    rw [show m.write k (b :: bs) = (m.set k b).write (k + 1) bs from rfl, ih (mem_wf_set h k b) (k + 1) (by omega),
      mem_get_set h, if_neg (by omega)]

end Sys2Proof.Machine
end

