-- ==== Sys2Proof/Laws/State.lean ====
section
/-! SUPPORT. What the updates of a state leave alone, field by field, and what its accessors read after them. -/

namespace Sys2Proof.Machine

open Sys2Proof

/-! ### A core is changed -/

@[simp] theorem setCore_pens (s : State) (c : Nat) (k : Core) : (s.setCore c k).pens = s.pens := rfl
@[simp] theorem setCore_edges (s : State) (c : Nat) (k : Core) : (s.setCore c k).edges = s.edges := rfl
@[simp] theorem setCore_mem (s : State) (c : Nat) (k : Core) : (s.setCore c k).mem = s.mem := rfl
@[simp] theorem setCore_poison (s : State) (c : Nat) (k : Core) : (s.setCore c k).poison = s.poison := rfl
@[simp] theorem setCore_mesh (s : State) (c : Nat) (k : Core) : (s.setCore c k).mesh = s.mesh := rfl
@[simp] theorem setCore_late (s : State) (c : Nat) (k : Core) : (s.setCore c k).late = s.late := rfl
@[simp] theorem setCore_resps (s : State) (c : Nat) (k : Core) : (s.setCore c k).resps = s.resps := rfl
@[simp] theorem setCore_dones (s : State) (c : Nat) (k : Core) : (s.setCore c k).dones = s.dones := rfl
@[simp] theorem setCore_dies (s : State) (c : Nat) (k : Core) : (s.setCore c k).dies = s.dies := rfl
@[simp] theorem setCore_queues (s : State) (c : Nat) (k : Core) : (s.setCore c k).queues = s.queues := rfl
@[simp] theorem setCore_lastQid (s : State) (c : Nat) (k : Core) : (s.setCore c k).lastQid = s.lastQid := rfl
@[simp] theorem setCore_entries (s : State) (c : Nat) (k : Core) : (s.setCore c k).entries = s.entries := rfl
@[simp] theorem setCore_graphs (s : State) (c : Nat) (k : Core) : (s.setCore c k).graphs = s.graphs := rfl
@[simp] theorem setCore_ctxs (s : State) (c : Nat) (k : Core) : (s.setCore c k).ctxs = s.ctxs := rfl
@[simp] theorem setCore_keys (s : State) (c : Nat) (k : Core) : (s.setCore c k).keys = s.keys := rfl
@[simp] theorem setCore_crypt (s : State) (c : Nat) (k : Core) : (s.setCore c k).crypt = s.crypt := rfl
@[simp] theorem setCore_quarCores (s : State) (c : Nat) (k : Core) : (s.setCore c k).quarCores = s.quarCores := rfl
@[simp] theorem setCore_quarSlots (s : State) (c : Nat) (k : Core) : (s.setCore c k).quarSlots = s.quarSlots := rfl
@[simp] theorem setCore_fbase (s : State) (c : Nat) (k : Core) : (s.setCore c k).fbase = s.fbase := rfl
@[simp] theorem setCore_fwptr (s : State) (c : Nat) (k : Core) : (s.setCore c k).fwptr = s.fwptr := rfl
@[simp] theorem setCore_frptr (s : State) (c : Nat) (k : Core) : (s.setCore c k).frptr = s.frptr := rfl
@[simp] theorem setCore_faults (s : State) (c : Nat) (k : Core) : (s.setCore c k).faults = s.faults := rfl
@[simp] theorem setCore_hbase (s : State) (c : Nat) (k : Core) : (s.setCore c k).hbase = s.hbase := rfl
@[simp] theorem setCore_invseq (s : State) (c : Nat) (k : Core) : (s.setCore c k).invseq = s.invseq := rfl
@[simp] theorem setCore_invs (s : State) (c : Nat) (k : Core) : (s.setCore c k).invs = s.invs := rfl
@[simp] theorem setCore_tlb (s : State) (c : Nat) (k : Core) : (s.setCore c k).tlb = s.tlb := rfl
@[simp] theorem setCore_hostLines (s : State) (c : Nat) (k : Core) : (s.setCore c k).hostLines = s.hostLines := rfl
@[simp] theorem setCore_svc (s : State) (c : Nat) (k : Core) : (s.setCore c k).svc = s.svc := rfl
@[simp] theorem setCore_time (s : State) (c : Nat) (k : Core) : (s.setCore c k).time = s.time := rfl
@[simp] theorem setCore_todo (s : State) (c : Nat) (k : Core) : (s.setCore c k).todo = s.todo := rfl
@[simp] theorem setCore_cur (s : State) (c : Nat) (k : Core) : (s.setCore c k).cur = s.cur := rfl
@[simp] theorem setCore_bus (s : State) (c : Nat) (k : Core) : (s.setCore c k).bus = s.bus := rfl
@[simp] theorem setCore_inputs (s : State) (c : Nat) (k : Core) : (s.setCore c k).inputs = s.inputs := rfl
@[simp] theorem setCore_fresh (s : State) (c : Nat) (k : Core) : (s.setCore c k).fresh = s.fresh := rfl
@[simp] theorem modCore_pens (s : State) (c : Nat) (g : Core → Core) : (s.modCore c g).pens = s.pens := rfl
@[simp] theorem modCore_edges (s : State) (c : Nat) (g : Core → Core) : (s.modCore c g).edges = s.edges := rfl
@[simp] theorem modCore_mem (s : State) (c : Nat) (g : Core → Core) : (s.modCore c g).mem = s.mem := rfl
@[simp] theorem modCore_poison (s : State) (c : Nat) (g : Core → Core) : (s.modCore c g).poison = s.poison := rfl
@[simp] theorem modCore_mesh (s : State) (c : Nat) (g : Core → Core) : (s.modCore c g).mesh = s.mesh := rfl
@[simp] theorem modCore_late (s : State) (c : Nat) (g : Core → Core) : (s.modCore c g).late = s.late := rfl
@[simp] theorem modCore_resps (s : State) (c : Nat) (g : Core → Core) : (s.modCore c g).resps = s.resps := rfl
@[simp] theorem modCore_dones (s : State) (c : Nat) (g : Core → Core) : (s.modCore c g).dones = s.dones := rfl
@[simp] theorem modCore_dies (s : State) (c : Nat) (g : Core → Core) : (s.modCore c g).dies = s.dies := rfl
@[simp] theorem modCore_queues (s : State) (c : Nat) (g : Core → Core) : (s.modCore c g).queues = s.queues := rfl
@[simp] theorem modCore_lastQid (s : State) (c : Nat) (g : Core → Core) : (s.modCore c g).lastQid = s.lastQid := rfl
@[simp] theorem modCore_entries (s : State) (c : Nat) (g : Core → Core) : (s.modCore c g).entries = s.entries := rfl
@[simp] theorem modCore_graphs (s : State) (c : Nat) (g : Core → Core) : (s.modCore c g).graphs = s.graphs := rfl
@[simp] theorem modCore_ctxs (s : State) (c : Nat) (g : Core → Core) : (s.modCore c g).ctxs = s.ctxs := rfl
@[simp] theorem modCore_keys (s : State) (c : Nat) (g : Core → Core) : (s.modCore c g).keys = s.keys := rfl
@[simp] theorem modCore_crypt (s : State) (c : Nat) (g : Core → Core) : (s.modCore c g).crypt = s.crypt := rfl
@[simp] theorem modCore_quarCores (s : State) (c : Nat) (g : Core → Core) : (s.modCore c g).quarCores = s.quarCores := rfl
@[simp] theorem modCore_quarSlots (s : State) (c : Nat) (g : Core → Core) : (s.modCore c g).quarSlots = s.quarSlots := rfl
@[simp] theorem modCore_fbase (s : State) (c : Nat) (g : Core → Core) : (s.modCore c g).fbase = s.fbase := rfl
@[simp] theorem modCore_fwptr (s : State) (c : Nat) (g : Core → Core) : (s.modCore c g).fwptr = s.fwptr := rfl
@[simp] theorem modCore_frptr (s : State) (c : Nat) (g : Core → Core) : (s.modCore c g).frptr = s.frptr := rfl
@[simp] theorem modCore_faults (s : State) (c : Nat) (g : Core → Core) : (s.modCore c g).faults = s.faults := rfl
@[simp] theorem modCore_hbase (s : State) (c : Nat) (g : Core → Core) : (s.modCore c g).hbase = s.hbase := rfl
@[simp] theorem modCore_invseq (s : State) (c : Nat) (g : Core → Core) : (s.modCore c g).invseq = s.invseq := rfl
@[simp] theorem modCore_invs (s : State) (c : Nat) (g : Core → Core) : (s.modCore c g).invs = s.invs := rfl
@[simp] theorem modCore_tlb (s : State) (c : Nat) (g : Core → Core) : (s.modCore c g).tlb = s.tlb := rfl
@[simp] theorem modCore_hostLines (s : State) (c : Nat) (g : Core → Core) : (s.modCore c g).hostLines = s.hostLines := rfl
@[simp] theorem modCore_svc (s : State) (c : Nat) (g : Core → Core) : (s.modCore c g).svc = s.svc := rfl
@[simp] theorem modCore_time (s : State) (c : Nat) (g : Core → Core) : (s.modCore c g).time = s.time := rfl
@[simp] theorem modCore_todo (s : State) (c : Nat) (g : Core → Core) : (s.modCore c g).todo = s.todo := rfl
@[simp] theorem modCore_cur (s : State) (c : Nat) (g : Core → Core) : (s.modCore c g).cur = s.cur := rfl
@[simp] theorem modCore_bus (s : State) (c : Nat) (g : Core → Core) : (s.modCore c g).bus = s.bus := rfl
@[simp] theorem modCore_inputs (s : State) (c : Nat) (g : Core → Core) : (s.modCore c g).inputs = s.inputs := rfl
@[simp] theorem modCore_fresh (s : State) (c : Nat) (g : Core → Core) : (s.modCore c g).fresh = s.fresh := rfl
@[simp] theorem modCur_pens (s : State) (g : Core → Core) : (s.modCur g).pens = s.pens := rfl
@[simp] theorem modCur_edges (s : State) (g : Core → Core) : (s.modCur g).edges = s.edges := rfl
@[simp] theorem modCur_mem (s : State) (g : Core → Core) : (s.modCur g).mem = s.mem := rfl
@[simp] theorem modCur_poison (s : State) (g : Core → Core) : (s.modCur g).poison = s.poison := rfl
@[simp] theorem modCur_mesh (s : State) (g : Core → Core) : (s.modCur g).mesh = s.mesh := rfl
@[simp] theorem modCur_late (s : State) (g : Core → Core) : (s.modCur g).late = s.late := rfl
@[simp] theorem modCur_resps (s : State) (g : Core → Core) : (s.modCur g).resps = s.resps := rfl
@[simp] theorem modCur_dones (s : State) (g : Core → Core) : (s.modCur g).dones = s.dones := rfl
@[simp] theorem modCur_dies (s : State) (g : Core → Core) : (s.modCur g).dies = s.dies := rfl
@[simp] theorem modCur_queues (s : State) (g : Core → Core) : (s.modCur g).queues = s.queues := rfl
@[simp] theorem modCur_lastQid (s : State) (g : Core → Core) : (s.modCur g).lastQid = s.lastQid := rfl
@[simp] theorem modCur_entries (s : State) (g : Core → Core) : (s.modCur g).entries = s.entries := rfl
@[simp] theorem modCur_graphs (s : State) (g : Core → Core) : (s.modCur g).graphs = s.graphs := rfl
@[simp] theorem modCur_ctxs (s : State) (g : Core → Core) : (s.modCur g).ctxs = s.ctxs := rfl
@[simp] theorem modCur_keys (s : State) (g : Core → Core) : (s.modCur g).keys = s.keys := rfl
@[simp] theorem modCur_crypt (s : State) (g : Core → Core) : (s.modCur g).crypt = s.crypt := rfl
@[simp] theorem modCur_quarCores (s : State) (g : Core → Core) : (s.modCur g).quarCores = s.quarCores := rfl
@[simp] theorem modCur_quarSlots (s : State) (g : Core → Core) : (s.modCur g).quarSlots = s.quarSlots := rfl
@[simp] theorem modCur_fbase (s : State) (g : Core → Core) : (s.modCur g).fbase = s.fbase := rfl
@[simp] theorem modCur_fwptr (s : State) (g : Core → Core) : (s.modCur g).fwptr = s.fwptr := rfl
@[simp] theorem modCur_frptr (s : State) (g : Core → Core) : (s.modCur g).frptr = s.frptr := rfl
@[simp] theorem modCur_faults (s : State) (g : Core → Core) : (s.modCur g).faults = s.faults := rfl
@[simp] theorem modCur_hbase (s : State) (g : Core → Core) : (s.modCur g).hbase = s.hbase := rfl
@[simp] theorem modCur_invseq (s : State) (g : Core → Core) : (s.modCur g).invseq = s.invseq := rfl
@[simp] theorem modCur_invs (s : State) (g : Core → Core) : (s.modCur g).invs = s.invs := rfl
@[simp] theorem modCur_tlb (s : State) (g : Core → Core) : (s.modCur g).tlb = s.tlb := rfl
@[simp] theorem modCur_hostLines (s : State) (g : Core → Core) : (s.modCur g).hostLines = s.hostLines := rfl
@[simp] theorem modCur_svc (s : State) (g : Core → Core) : (s.modCur g).svc = s.svc := rfl
@[simp] theorem modCur_time (s : State) (g : Core → Core) : (s.modCur g).time = s.time := rfl
@[simp] theorem modCur_todo (s : State) (g : Core → Core) : (s.modCur g).todo = s.todo := rfl
@[simp] theorem modCur_cur (s : State) (g : Core → Core) : (s.modCur g).cur = s.cur := rfl
@[simp] theorem modCur_bus (s : State) (g : Core → Core) : (s.modCur g).bus = s.bus := rfl
@[simp] theorem modCur_inputs (s : State) (g : Core → Core) : (s.modCur g).inputs = s.inputs := rfl
@[simp] theorem modCur_fresh (s : State) (g : Core → Core) : (s.modCur g).fresh = s.fresh := rfl

/-! ### A pen is changed -/

@[simp] theorem setPen_cores (s : State) (h : Nat) (p : Pen) : (s.setPen h p).cores = s.cores := rfl
@[simp] theorem setPen_edges (s : State) (h : Nat) (p : Pen) : (s.setPen h p).edges = s.edges := rfl
@[simp] theorem setPen_mem (s : State) (h : Nat) (p : Pen) : (s.setPen h p).mem = s.mem := rfl
@[simp] theorem setPen_poison (s : State) (h : Nat) (p : Pen) : (s.setPen h p).poison = s.poison := rfl
@[simp] theorem setPen_mesh (s : State) (h : Nat) (p : Pen) : (s.setPen h p).mesh = s.mesh := rfl
@[simp] theorem setPen_late (s : State) (h : Nat) (p : Pen) : (s.setPen h p).late = s.late := rfl
@[simp] theorem setPen_resps (s : State) (h : Nat) (p : Pen) : (s.setPen h p).resps = s.resps := rfl
@[simp] theorem setPen_dones (s : State) (h : Nat) (p : Pen) : (s.setPen h p).dones = s.dones := rfl
@[simp] theorem setPen_dies (s : State) (h : Nat) (p : Pen) : (s.setPen h p).dies = s.dies := rfl
@[simp] theorem setPen_queues (s : State) (h : Nat) (p : Pen) : (s.setPen h p).queues = s.queues := rfl
@[simp] theorem setPen_lastQid (s : State) (h : Nat) (p : Pen) : (s.setPen h p).lastQid = s.lastQid := rfl
@[simp] theorem setPen_entries (s : State) (h : Nat) (p : Pen) : (s.setPen h p).entries = s.entries := rfl
@[simp] theorem setPen_graphs (s : State) (h : Nat) (p : Pen) : (s.setPen h p).graphs = s.graphs := rfl
@[simp] theorem setPen_ctxs (s : State) (h : Nat) (p : Pen) : (s.setPen h p).ctxs = s.ctxs := rfl
@[simp] theorem setPen_keys (s : State) (h : Nat) (p : Pen) : (s.setPen h p).keys = s.keys := rfl
@[simp] theorem setPen_crypt (s : State) (h : Nat) (p : Pen) : (s.setPen h p).crypt = s.crypt := rfl
@[simp] theorem setPen_quarCores (s : State) (h : Nat) (p : Pen) : (s.setPen h p).quarCores = s.quarCores := rfl
@[simp] theorem setPen_quarSlots (s : State) (h : Nat) (p : Pen) : (s.setPen h p).quarSlots = s.quarSlots := rfl
@[simp] theorem setPen_fbase (s : State) (h : Nat) (p : Pen) : (s.setPen h p).fbase = s.fbase := rfl
@[simp] theorem setPen_fwptr (s : State) (h : Nat) (p : Pen) : (s.setPen h p).fwptr = s.fwptr := rfl
@[simp] theorem setPen_frptr (s : State) (h : Nat) (p : Pen) : (s.setPen h p).frptr = s.frptr := rfl
@[simp] theorem setPen_faults (s : State) (h : Nat) (p : Pen) : (s.setPen h p).faults = s.faults := rfl
@[simp] theorem setPen_hbase (s : State) (h : Nat) (p : Pen) : (s.setPen h p).hbase = s.hbase := rfl
@[simp] theorem setPen_invseq (s : State) (h : Nat) (p : Pen) : (s.setPen h p).invseq = s.invseq := rfl
@[simp] theorem setPen_invs (s : State) (h : Nat) (p : Pen) : (s.setPen h p).invs = s.invs := rfl
@[simp] theorem setPen_tlb (s : State) (h : Nat) (p : Pen) : (s.setPen h p).tlb = s.tlb := rfl
@[simp] theorem setPen_hostLines (s : State) (h : Nat) (p : Pen) : (s.setPen h p).hostLines = s.hostLines := rfl
@[simp] theorem setPen_svc (s : State) (h : Nat) (p : Pen) : (s.setPen h p).svc = s.svc := rfl
@[simp] theorem setPen_time (s : State) (h : Nat) (p : Pen) : (s.setPen h p).time = s.time := rfl
@[simp] theorem setPen_todo (s : State) (h : Nat) (p : Pen) : (s.setPen h p).todo = s.todo := rfl
@[simp] theorem setPen_cur (s : State) (h : Nat) (p : Pen) : (s.setPen h p).cur = s.cur := rfl
@[simp] theorem setPen_bus (s : State) (h : Nat) (p : Pen) : (s.setPen h p).bus = s.bus := rfl
@[simp] theorem setPen_inputs (s : State) (h : Nat) (p : Pen) : (s.setPen h p).inputs = s.inputs := rfl
@[simp] theorem setPen_fresh (s : State) (h : Nat) (p : Pen) : (s.setPen h p).fresh = s.fresh := rfl
@[simp] theorem modPen_cores (s : State) (h : Nat) (g : Pen → Pen) : (s.modPen h g).cores = s.cores := rfl
@[simp] theorem modPen_edges (s : State) (h : Nat) (g : Pen → Pen) : (s.modPen h g).edges = s.edges := rfl
@[simp] theorem modPen_mem (s : State) (h : Nat) (g : Pen → Pen) : (s.modPen h g).mem = s.mem := rfl
@[simp] theorem modPen_poison (s : State) (h : Nat) (g : Pen → Pen) : (s.modPen h g).poison = s.poison := rfl
@[simp] theorem modPen_mesh (s : State) (h : Nat) (g : Pen → Pen) : (s.modPen h g).mesh = s.mesh := rfl
@[simp] theorem modPen_late (s : State) (h : Nat) (g : Pen → Pen) : (s.modPen h g).late = s.late := rfl
@[simp] theorem modPen_resps (s : State) (h : Nat) (g : Pen → Pen) : (s.modPen h g).resps = s.resps := rfl
@[simp] theorem modPen_dones (s : State) (h : Nat) (g : Pen → Pen) : (s.modPen h g).dones = s.dones := rfl
@[simp] theorem modPen_dies (s : State) (h : Nat) (g : Pen → Pen) : (s.modPen h g).dies = s.dies := rfl
@[simp] theorem modPen_queues (s : State) (h : Nat) (g : Pen → Pen) : (s.modPen h g).queues = s.queues := rfl
@[simp] theorem modPen_lastQid (s : State) (h : Nat) (g : Pen → Pen) : (s.modPen h g).lastQid = s.lastQid := rfl
@[simp] theorem modPen_entries (s : State) (h : Nat) (g : Pen → Pen) : (s.modPen h g).entries = s.entries := rfl
@[simp] theorem modPen_graphs (s : State) (h : Nat) (g : Pen → Pen) : (s.modPen h g).graphs = s.graphs := rfl
@[simp] theorem modPen_ctxs (s : State) (h : Nat) (g : Pen → Pen) : (s.modPen h g).ctxs = s.ctxs := rfl
@[simp] theorem modPen_keys (s : State) (h : Nat) (g : Pen → Pen) : (s.modPen h g).keys = s.keys := rfl
@[simp] theorem modPen_crypt (s : State) (h : Nat) (g : Pen → Pen) : (s.modPen h g).crypt = s.crypt := rfl
@[simp] theorem modPen_quarCores (s : State) (h : Nat) (g : Pen → Pen) : (s.modPen h g).quarCores = s.quarCores := rfl
@[simp] theorem modPen_quarSlots (s : State) (h : Nat) (g : Pen → Pen) : (s.modPen h g).quarSlots = s.quarSlots := rfl
@[simp] theorem modPen_fbase (s : State) (h : Nat) (g : Pen → Pen) : (s.modPen h g).fbase = s.fbase := rfl
@[simp] theorem modPen_fwptr (s : State) (h : Nat) (g : Pen → Pen) : (s.modPen h g).fwptr = s.fwptr := rfl
@[simp] theorem modPen_frptr (s : State) (h : Nat) (g : Pen → Pen) : (s.modPen h g).frptr = s.frptr := rfl
@[simp] theorem modPen_faults (s : State) (h : Nat) (g : Pen → Pen) : (s.modPen h g).faults = s.faults := rfl
@[simp] theorem modPen_hbase (s : State) (h : Nat) (g : Pen → Pen) : (s.modPen h g).hbase = s.hbase := rfl
@[simp] theorem modPen_invseq (s : State) (h : Nat) (g : Pen → Pen) : (s.modPen h g).invseq = s.invseq := rfl
@[simp] theorem modPen_invs (s : State) (h : Nat) (g : Pen → Pen) : (s.modPen h g).invs = s.invs := rfl
@[simp] theorem modPen_tlb (s : State) (h : Nat) (g : Pen → Pen) : (s.modPen h g).tlb = s.tlb := rfl
@[simp] theorem modPen_hostLines (s : State) (h : Nat) (g : Pen → Pen) : (s.modPen h g).hostLines = s.hostLines := rfl
@[simp] theorem modPen_svc (s : State) (h : Nat) (g : Pen → Pen) : (s.modPen h g).svc = s.svc := rfl
@[simp] theorem modPen_time (s : State) (h : Nat) (g : Pen → Pen) : (s.modPen h g).time = s.time := rfl
@[simp] theorem modPen_todo (s : State) (h : Nat) (g : Pen → Pen) : (s.modPen h g).todo = s.todo := rfl
@[simp] theorem modPen_cur (s : State) (h : Nat) (g : Pen → Pen) : (s.modPen h g).cur = s.cur := rfl
@[simp] theorem modPen_bus (s : State) (h : Nat) (g : Pen → Pen) : (s.modPen h g).bus = s.bus := rfl
@[simp] theorem modPen_inputs (s : State) (h : Nat) (g : Pen → Pen) : (s.modPen h g).inputs = s.inputs := rfl
@[simp] theorem modPen_fresh (s : State) (h : Nat) (g : Pen → Pen) : (s.modPen h g).fresh = s.fresh := rfl

/-! ### A die or a context is changed -/

@[simp] theorem modDie_cores (s : State) (d : Nat) (g : Die → Die) : (s.modDie d g).cores = s.cores := by
  unfold State.modDie; split <;> rfl
@[simp] theorem modDie_pens (s : State) (d : Nat) (g : Die → Die) : (s.modDie d g).pens = s.pens := by
  unfold State.modDie; split <;> rfl
@[simp] theorem modDie_edges (s : State) (d : Nat) (g : Die → Die) : (s.modDie d g).edges = s.edges := by
  unfold State.modDie; split <;> rfl
@[simp] theorem modDie_mem (s : State) (d : Nat) (g : Die → Die) : (s.modDie d g).mem = s.mem := by
  unfold State.modDie; split <;> rfl
@[simp] theorem modDie_poison (s : State) (d : Nat) (g : Die → Die) : (s.modDie d g).poison = s.poison := by
  unfold State.modDie; split <;> rfl
@[simp] theorem modDie_mesh (s : State) (d : Nat) (g : Die → Die) : (s.modDie d g).mesh = s.mesh := by
  unfold State.modDie; split <;> rfl
@[simp] theorem modDie_late (s : State) (d : Nat) (g : Die → Die) : (s.modDie d g).late = s.late := by
  unfold State.modDie; split <;> rfl
@[simp] theorem modDie_resps (s : State) (d : Nat) (g : Die → Die) : (s.modDie d g).resps = s.resps := by
  unfold State.modDie; split <;> rfl
@[simp] theorem modDie_dones (s : State) (d : Nat) (g : Die → Die) : (s.modDie d g).dones = s.dones := by
  unfold State.modDie; split <;> rfl
@[simp] theorem modDie_queues (s : State) (d : Nat) (g : Die → Die) : (s.modDie d g).queues = s.queues := by
  unfold State.modDie; split <;> rfl
@[simp] theorem modDie_lastQid (s : State) (d : Nat) (g : Die → Die) : (s.modDie d g).lastQid = s.lastQid := by
  unfold State.modDie; split <;> rfl
@[simp] theorem modDie_entries (s : State) (d : Nat) (g : Die → Die) : (s.modDie d g).entries = s.entries := by
  unfold State.modDie; split <;> rfl
@[simp] theorem modDie_graphs (s : State) (d : Nat) (g : Die → Die) : (s.modDie d g).graphs = s.graphs := by
  unfold State.modDie; split <;> rfl
@[simp] theorem modDie_ctxs (s : State) (d : Nat) (g : Die → Die) : (s.modDie d g).ctxs = s.ctxs := by
  unfold State.modDie; split <;> rfl
@[simp] theorem modDie_keys (s : State) (d : Nat) (g : Die → Die) : (s.modDie d g).keys = s.keys := by
  unfold State.modDie; split <;> rfl
@[simp] theorem modDie_crypt (s : State) (d : Nat) (g : Die → Die) : (s.modDie d g).crypt = s.crypt := by
  unfold State.modDie; split <;> rfl
@[simp] theorem modDie_quarCores (s : State) (d : Nat) (g : Die → Die) : (s.modDie d g).quarCores = s.quarCores := by
  unfold State.modDie; split <;> rfl
@[simp] theorem modDie_quarSlots (s : State) (d : Nat) (g : Die → Die) : (s.modDie d g).quarSlots = s.quarSlots := by
  unfold State.modDie; split <;> rfl
@[simp] theorem modDie_fbase (s : State) (d : Nat) (g : Die → Die) : (s.modDie d g).fbase = s.fbase := by
  unfold State.modDie; split <;> rfl
@[simp] theorem modDie_fwptr (s : State) (d : Nat) (g : Die → Die) : (s.modDie d g).fwptr = s.fwptr := by
  unfold State.modDie; split <;> rfl
@[simp] theorem modDie_frptr (s : State) (d : Nat) (g : Die → Die) : (s.modDie d g).frptr = s.frptr := by
  unfold State.modDie; split <;> rfl
@[simp] theorem modDie_faults (s : State) (d : Nat) (g : Die → Die) : (s.modDie d g).faults = s.faults := by
  unfold State.modDie; split <;> rfl
@[simp] theorem modDie_hbase (s : State) (d : Nat) (g : Die → Die) : (s.modDie d g).hbase = s.hbase := by
  unfold State.modDie; split <;> rfl
@[simp] theorem modDie_invseq (s : State) (d : Nat) (g : Die → Die) : (s.modDie d g).invseq = s.invseq := by
  unfold State.modDie; split <;> rfl
@[simp] theorem modDie_invs (s : State) (d : Nat) (g : Die → Die) : (s.modDie d g).invs = s.invs := by
  unfold State.modDie; split <;> rfl
@[simp] theorem modDie_tlb (s : State) (d : Nat) (g : Die → Die) : (s.modDie d g).tlb = s.tlb := by
  unfold State.modDie; split <;> rfl
@[simp] theorem modDie_hostLines (s : State) (d : Nat) (g : Die → Die) : (s.modDie d g).hostLines = s.hostLines := by
  unfold State.modDie; split <;> rfl
@[simp] theorem modDie_svc (s : State) (d : Nat) (g : Die → Die) : (s.modDie d g).svc = s.svc := by
  unfold State.modDie; split <;> rfl
@[simp] theorem modDie_time (s : State) (d : Nat) (g : Die → Die) : (s.modDie d g).time = s.time := by
  unfold State.modDie; split <;> rfl
@[simp] theorem modDie_todo (s : State) (d : Nat) (g : Die → Die) : (s.modDie d g).todo = s.todo := by
  unfold State.modDie; split <;> rfl
@[simp] theorem modDie_cur (s : State) (d : Nat) (g : Die → Die) : (s.modDie d g).cur = s.cur := by
  unfold State.modDie; split <;> rfl
@[simp] theorem modDie_bus (s : State) (d : Nat) (g : Die → Die) : (s.modDie d g).bus = s.bus := by
  unfold State.modDie; split <;> rfl
@[simp] theorem modDie_inputs (s : State) (d : Nat) (g : Die → Die) : (s.modDie d g).inputs = s.inputs := by
  unfold State.modDie; split <;> rfl
@[simp] theorem modDie_fresh (s : State) (d : Nat) (g : Die → Die) : (s.modDie d g).fresh = s.fresh := by
  unfold State.modDie; split <;> rfl
@[simp] theorem setCtx_cores (s : State) (n : Nat) (c : Ctx) : (s.setCtx n c).cores = s.cores := rfl
@[simp] theorem setCtx_pens (s : State) (n : Nat) (c : Ctx) : (s.setCtx n c).pens = s.pens := rfl
@[simp] theorem setCtx_edges (s : State) (n : Nat) (c : Ctx) : (s.setCtx n c).edges = s.edges := rfl
@[simp] theorem setCtx_mem (s : State) (n : Nat) (c : Ctx) : (s.setCtx n c).mem = s.mem := rfl
@[simp] theorem setCtx_poison (s : State) (n : Nat) (c : Ctx) : (s.setCtx n c).poison = s.poison := rfl
@[simp] theorem setCtx_mesh (s : State) (n : Nat) (c : Ctx) : (s.setCtx n c).mesh = s.mesh := rfl
@[simp] theorem setCtx_late (s : State) (n : Nat) (c : Ctx) : (s.setCtx n c).late = s.late := rfl
@[simp] theorem setCtx_resps (s : State) (n : Nat) (c : Ctx) : (s.setCtx n c).resps = s.resps := rfl
@[simp] theorem setCtx_dones (s : State) (n : Nat) (c : Ctx) : (s.setCtx n c).dones = s.dones := rfl
@[simp] theorem setCtx_dies (s : State) (n : Nat) (c : Ctx) : (s.setCtx n c).dies = s.dies := rfl
@[simp] theorem setCtx_queues (s : State) (n : Nat) (c : Ctx) : (s.setCtx n c).queues = s.queues := rfl
@[simp] theorem setCtx_lastQid (s : State) (n : Nat) (c : Ctx) : (s.setCtx n c).lastQid = s.lastQid := rfl
@[simp] theorem setCtx_entries (s : State) (n : Nat) (c : Ctx) : (s.setCtx n c).entries = s.entries := rfl
@[simp] theorem setCtx_graphs (s : State) (n : Nat) (c : Ctx) : (s.setCtx n c).graphs = s.graphs := rfl
@[simp] theorem setCtx_keys (s : State) (n : Nat) (c : Ctx) : (s.setCtx n c).keys = s.keys := rfl
@[simp] theorem setCtx_crypt (s : State) (n : Nat) (c : Ctx) : (s.setCtx n c).crypt = s.crypt := rfl
@[simp] theorem setCtx_quarCores (s : State) (n : Nat) (c : Ctx) : (s.setCtx n c).quarCores = s.quarCores := rfl
@[simp] theorem setCtx_quarSlots (s : State) (n : Nat) (c : Ctx) : (s.setCtx n c).quarSlots = s.quarSlots := rfl
@[simp] theorem setCtx_fbase (s : State) (n : Nat) (c : Ctx) : (s.setCtx n c).fbase = s.fbase := rfl
@[simp] theorem setCtx_fwptr (s : State) (n : Nat) (c : Ctx) : (s.setCtx n c).fwptr = s.fwptr := rfl
@[simp] theorem setCtx_frptr (s : State) (n : Nat) (c : Ctx) : (s.setCtx n c).frptr = s.frptr := rfl
@[simp] theorem setCtx_faults (s : State) (n : Nat) (c : Ctx) : (s.setCtx n c).faults = s.faults := rfl
@[simp] theorem setCtx_hbase (s : State) (n : Nat) (c : Ctx) : (s.setCtx n c).hbase = s.hbase := rfl
@[simp] theorem setCtx_invseq (s : State) (n : Nat) (c : Ctx) : (s.setCtx n c).invseq = s.invseq := rfl
@[simp] theorem setCtx_invs (s : State) (n : Nat) (c : Ctx) : (s.setCtx n c).invs = s.invs := rfl
@[simp] theorem setCtx_tlb (s : State) (n : Nat) (c : Ctx) : (s.setCtx n c).tlb = s.tlb := rfl
@[simp] theorem setCtx_hostLines (s : State) (n : Nat) (c : Ctx) : (s.setCtx n c).hostLines = s.hostLines := rfl
@[simp] theorem setCtx_svc (s : State) (n : Nat) (c : Ctx) : (s.setCtx n c).svc = s.svc := rfl
@[simp] theorem setCtx_time (s : State) (n : Nat) (c : Ctx) : (s.setCtx n c).time = s.time := rfl
@[simp] theorem setCtx_todo (s : State) (n : Nat) (c : Ctx) : (s.setCtx n c).todo = s.todo := rfl
@[simp] theorem setCtx_cur (s : State) (n : Nat) (c : Ctx) : (s.setCtx n c).cur = s.cur := rfl
@[simp] theorem setCtx_bus (s : State) (n : Nat) (c : Ctx) : (s.setCtx n c).bus = s.bus := rfl
@[simp] theorem setCtx_inputs (s : State) (n : Nat) (c : Ctx) : (s.setCtx n c).inputs = s.inputs := rfl
@[simp] theorem setCtx_fresh (s : State) (n : Nat) (c : Ctx) : (s.setCtx n c).fresh = s.fresh := rfl

/-! ### What is read after a change -/

@[simp] theorem core_setCore_self (s : State) (c : Nat) (k : Core) : (s.setCore c k).core c = k := by
  simp [State.core, State.setCore, tab_find_put_self]

theorem core_setCore_of_ne (s : State) {c d : Nat} (k : Core) (h : d ≠ c) : (s.setCore c k).core d = s.core d := by
  simp [State.core, State.setCore, tab_find_put_of_ne _ _ h]

theorem core_setCore (s : State) (c d : Nat) (k : Core) : (s.setCore c k).core d = if d = c then k else s.core d := by
  split
  · subst_vars; exact core_setCore_self s _ k
  · exact core_setCore_of_ne s k ‹_›

@[simp] theorem core_modCore_self (s : State) (c : Nat) (g : Core → Core) : (s.modCore c g).core c = g (s.core c) :=
  core_setCore_self s c _

theorem core_modCore_of_ne (s : State) {c d : Nat} (g : Core → Core) (h : d ≠ c) : (s.modCore c g).core d = s.core d :=
  core_setCore_of_ne s _ h

@[simp] theorem curCore_modCur (s : State) (g : Core → Core) : (s.modCur g).curCore = g s.curCore :=
  core_modCore_self s _ g

@[simp] theorem core_setPen (s : State) (h c : Nat) (p : Pen) : (s.setPen h p).core c = s.core c := rfl
@[simp] theorem core_modPen (s : State) (h c : Nat) (g : Pen → Pen) : (s.modPen h g).core c = s.core c := rfl
@[simp] theorem core_modDie (s : State) (d c : Nat) (g : Die → Die) : (s.modDie d g).core c = s.core c := by
  simp [State.core]
@[simp] theorem core_setCtx (s : State) (n c : Nat) (x : Ctx) : (s.setCtx n x).core c = s.core c := rfl
@[simp] theorem pen_setCore (s : State) (c h : Nat) (k : Core) : (s.setCore c k).pen h = s.pen h := rfl
@[simp] theorem pen_modCore (s : State) (c h : Nat) (g : Core → Core) : (s.modCore c g).pen h = s.pen h := rfl
@[simp] theorem pen_modCur (s : State) (h : Nat) (g : Core → Core) : (s.modCur g).pen h = s.pen h := rfl
@[simp] theorem penOf_setCore (s : State) (c d : Nat) (k : Core) : (s.setCore c k).penOf d = s.penOf d := rfl
@[simp] theorem penOf_modCore (s : State) (c d : Nat) (g : Core → Core) : (s.modCore c g).penOf d = s.penOf d := rfl
@[simp] theorem penOf_modCur (s : State) (d : Nat) (g : Core → Core) : (s.modCur g).penOf d = s.penOf d := rfl
@[simp] theorem curPen_modCur (s : State) (g : Core → Core) : (s.modCur g).curPen = s.curPen := rfl

@[simp] theorem pens_length_setPen (s : State) (h : Nat) (p : Pen) : (s.setPen h p).pens.length = s.pens.length := by
  simp [State.setPen]

theorem pen_setPen_self (s : State) {h : Nat} (p : Pen) (hh : h < s.pens.length) : (s.setPen h p).pen h = p := by
  simp [State.pen, State.setPen, hh]

theorem pen_setPen_of_ne (s : State) {h j : Nat} (p : Pen) (hj : j ≠ h) : (s.setPen h p).pen j = s.pen j := by
  simp [State.pen, State.setPen, hj.symm]

theorem pen_modPen_self (s : State) {h : Nat} (g : Pen → Pen) (hh : h < s.pens.length) : (s.modPen h g).pen h = g (s.pen h) :=
  pen_setPen_self s _ hh

theorem pen_modPen_of_ne (s : State) {h j : Nat} (g : Pen → Pen) (hj : j ≠ h) : (s.modPen h g).pen j = s.pen j :=
  pen_setPen_of_ne s _ hj

/-! ### Registers (R52) -/

@[simp] theorem rdS_zero (k : Core) : k.rdS 0 = 0 := rfl
@[simp] theorem rdQ_zero (k : Core) : k.rdQ 0 = BitVec.allOnes 256 := rfl
@[simp] theorem wrS_zero (k : Core) (v : W64) : k.wrS 0 v = k := rfl
@[simp] theorem wrQ_zero (k : Core) (v : Chunk) : k.wrQ 0 v = k := rfl

theorem rdS_wrS (k : Core) (r q : Fin 32) (v : W64) : (k.wrS r v).rdS q = if q = r ∧ r ≠ 0 then v else k.rdS q := by
  unfold Core.wrS
  by_cases hr : r = 0
  · simp [hr]
  · simp only [hr, if_false]
    unfold Core.rdS
    by_cases hq : q = 0
    · subst hq
      have : ¬((0 : Fin 32) = r ∧ r ≠ 0) := fun e => hr e.1.symm
      simp [this]
    · simp only [hq, if_false]
      by_cases h : q = r
      · subst h; simp [hr]
      · have : r.val ≠ q.val := fun e => h (Fin.ext e.symm)
        simp [h, this]

/-! ### Program order and results (R43, R80) -/

@[simp] theorem tickOrd_ord (k : Core) : k.tickOrd.ord = k.ord + 1 := rfl
@[simp] theorem issue_flights (k : Core) (f : Flight) : (k.issue f).flights = k.flights ++ [f] := rfl
@[simp] theorem enqueue_cq (k : Core) (e : CqEntry) : (k.enqueue e).cq = k.cq ++ [e] := rfl

end Sys2Proof.Machine
end

