-- ==== Sys2Proof/Laws/Ops.lean ====
section
/-! SUPPORT. What the shared operations can do, said once: results, stops, stores, and the forms of memory they keep. -/

namespace Sys2Proof.Machine

open Sys2Proof

/-! ### Stores -/

theorem nearWrite_mem (s : State) (addr : Nat) (bs : List Byte) : (s.nearWrite addr bs).mem = nearPut s.mem addr bs := rfl

theorem nearWrite_rest (s : State) (addr : Nat) (bs : List Byte) :
    { s.nearWrite addr bs with mem := s.mem, poison := s.poison, late := s.late } = s := rfl

theorem nearPut_wf {m : Mem} (h : m.wf = true) (addr : Nat) (bs : List Byte) : (nearPut m addr bs).wf = true :=
  mem_wf_writeAt h _ _

theorem nearPut_get_of_not_mem {m : Mem} (h : m.wf = true) (addr : Nat) (bs : List Byte) (k : Nat) (hk : k ∉ nearKeys addr bs.length) :
    (nearPut m addr bs).get k = m.get k :=
  mem_get_writeAt_of_not_mem h _ _ k hk

theorem nearWrite_canonical {s : State} (h : s.MemCanonical) (addr : Nat) (bs : List Byte) : (s.nearWrite addr bs).MemCanonical :=
  nearPut_wf h addr bs

/-- A counter of a die leaves memory, cores and pens alone. -/
theorem countDie_frame (s : State) (d src n : Nat) :
    (s.countDie d src n).mem = s.mem ∧ (s.countDie d src n).cores = s.cores ∧ (s.countDie d src n).pens = s.pens :=
  ⟨modDie_mem _ _ _, modDie_cores _ _ _, modDie_pens _ _ _⟩

/-- So do the flits between dies. -/
theorem dieFlits_frame (s : State) (a b : Nat) (back : Bool) :
    (s.dieFlits a b back).mem = s.mem ∧ (s.dieFlits a b back).cores = s.cores ∧ (s.dieFlits a b back).pens = s.pens := by
  unfold State.dieFlits
  dsimp only
  split
  · exact ⟨rfl, rfl, rfl⟩
  · split
    · simp only [(countDie_frame _ _ _ _).1, (countDie_frame _ _ _ _).2.1, (countDie_frame _ _ _ _).2.2, and_self]
    · exact countDie_frame _ _ _ _

/-- All a physical write does to memory, cores and pens: the bytes around it in the data units it takes under its key, then its own. -/
theorem physWrite_frame (s : State) (w : Option Agent) (key : Nat) (cells : List (Nat × Byte)) :
    (s.physWrite w key cells).mem = (s.rekey key cells ++ cells).foldl (fun m c => Mem.set m c.1 c.2) s.mem ∧
    (s.physWrite w key cells).cores = s.cores ∧ (s.physWrite w key cells).pens = s.pens := by
  unfold State.physWrite
  cases w <;> dsimp only <;> split
  · exact countDie_frame _ _ _ _
  · exact ⟨rfl, rfl, rfl⟩
  · split
    · simp only [(dieFlits_frame _ _ _ _).1, (dieFlits_frame _ _ _ _).2.1, (dieFlits_frame _ _ _ _).2.2, (countDie_frame _ _ _ _).1,
        (countDie_frame _ _ _ _).2.1, (countDie_frame _ _ _ _).2.2, and_self]
    · exact countDie_frame _ _ _ _
  · exact ⟨rfl, rfl, rfl⟩

theorem physWrite_canonical {s : State} (h : s.MemCanonical) (w : Option Agent) (key : Nat) (cells : List (Nat × Byte)) :
    (s.physWrite w key cells).MemCanonical := by
  unfold State.MemCanonical
  rw [(physWrite_frame s w key cells).1]
  exact mem_wf_foldl h _

theorem storeFault_canonical {s : State} (h : s.MemCanonical) (ws : List W64) : (s.storeFault ws).MemCanonical :=
  physWrite_canonical h none 0 _

theorem afterReset_canonical {s : State} (h : s.MemCanonical) (cold : Bool) : (s.afterReset cold).MemCanonical := by
  cases cold
  · exact h
  · exact mem_wf_filter h _

/-! ### Flits, and members -/

/-- A flit that is sent changes what has been sent alone. -/
theorem sendFlit_rest (s : State) (f : List Nat) : { s.sendFlit f with svc := s.svc } = s := rfl

/-- So do flits sent again. -/
theorem flitsAgain_rest (s : State) (l n : Nat) : { s.flitsAgain l n with svc := s.svc } = s := rfl

/-- An access of peer memory sends a flit, and one of this package's memory none. -/
theorem peerFlit_rest (s : State) (kind ctx pa : Nat) (rest : List Nat) : { s.peerFlit kind ctx pa rest with svc := s.svc } = s := by
  unfold State.peerFlit
  split <;> rfl

theorem peerFlit_own (s : State) (kind ctx : Nat) {pa : Nat} (rest : List Nat) (h : paPeer pa = false) : s.peerFlit kind ctx pa rest = s := by
  simp [State.peerFlit, h]

/-- A write that reaches no member sends nothing. -/
@[simp] theorem peerWrite_nil (s : State) (ctx : Nat) : s.peerWrite ctx [] = s := rfl

/-- A run of a command that sends no request waits for no member. -/
theorem peerGate_none {s t : State} (h : s.peerNew t = []) (id : Nat) (fail : Nat → Nat → Nat → State) : s.peerGate id t fail = t := by
  simp [State.peerGate, h]

/-! ### A key slot that is the context's own, or another's (R355) -/

theorem keyGuard_bound {s : State} {ctx : Nat} (h : s.keyBound ctx = true) (die : Nat) (t : State) : s.keyGuard die ctx t = .next t := by
  simp [State.keyGuard, h]

theorem keyGuard_unbound {s : State} {ctx : Nat} (h : s.keyBound ctx = false) (die : Nat) (t : State) :
    s.keyGuard die ctx t = .next (s.alarmB die ctx) := by
  simp [State.keyGuard, h]

/-! ### Results and stops of a word -/

/-- A stop by a result of the interval is one that a timing trap of its beat drops. -/
theorem lateStop_young (s : State) (c : Nat) (cause : Cause) (col : Col) (slot : Nat) (it : BitVec 32) :
    s.lateStop c cause col slot it false = s.stopAt c cause col slot it 0 0 true := rfl

/-- A stop by an older result is taken as any, and kept besides. -/
theorem keepStop_stop (p : Pen) (now : Nat) (cause : Cause) (rel : Nat) (col : Col) (slot : Nat) (it : BitVec 32) :
    { p.keepStop now cause rel col slot it with stopKept := p.stopKept } = p.takeStop now cause rel col slot it 0 0 true := by
  unfold Pen.keepStop Pen.takeStop
  cases p.stop with
  | none => rfl
  | some o => dsimp only; split <;> rfl

theorem onlyCore_modCur (s : State) (g : Core → Core) : OnlyCore s.cur.core s (s.modCur g) :=
  ⟨fun _ hd => core_modCore_of_ne s g hd, rfl, fun _ => rfl⟩

theorem isActive_iff (s : State) (h : Hdr) : isActive s h ↔ s.curCore.active h = true := by
  unfold isActive Core.active Core.pred
  cases h.pn <;> simp

theorem passed_tickOrd (s : State) : Passed s (s.modCur Core.tickOrd) :=
  ⟨onlyCore_modCur s _, curCore_modCur s _⟩

/-- A word that ends in `result` is a word with one result. -/
theorem scalarWord_of_result {i : Instr} {s : State} {h : Hdr} {lat : Nat} {ws : List Write} {fl : Flags}
    (he : exec i s = .next (s.result h lat ws fl)) : ScalarWord i s h lat ws fl := by
  constructor
  · intro ha
    rw [isActive_iff] at ha
    refine ⟨_, he, ?_⟩
    unfold State.result
    simp only [ha, if_true]
    refine ⟨onlyCore_modCur _ _, ?_⟩
    rw [curCore_modCur]
    rfl
  · intro ha
    rw [isActive_iff] at ha
    refine ⟨_, he, ?_⟩
    unfold State.result
    simp only [ha]
    exact passed_tickOrd s

theorem stopHere_core (s : State) (cause : Cause) (code value : W64) (c : Nat) : (s.stopHere cause code value).core c = s.core c := rfl

theorem stopHere_mem (s : State) (cause : Cause) (code value : W64) : (s.stopHere cause code value).mem = s.mem := rfl

theorem stopHere_pen_of_ne (s : State) (cause : Cause) (code value : W64) {h : Nat} (hh : h ≠ s.penOf s.cur.core) :
    (s.stopHere cause code value).pen h = s.pen h :=
  pen_modPen_of_ne s _ hh

theorem stopHere_pen_self (s : State) (cause : Cause) (code value : W64) (hp : s.penOf s.cur.core < s.pens.length) :
    (s.stopHere cause code value).pen (s.penOf s.cur.core) =
      s.curPen.takeStop s.time cause (s.curPen.rel s.cur.core) s.cur.col s.cur.slot s.cur.it code value false :=
  pen_modPen_self s _ hp

/-- Where no stop is pending, the first one is taken. -/
theorem takeStop_none {p : Pen} (h : p.stop = none) (now : Nat) (cause : Cause) (rel : Nat) (col : Col) (slot : Nat)
    (it : BitVec 32) (code value : W64) (late : Bool) :
    p.takeStop now cause rel col slot it code value late =
      { p with stop := some ⟨tstatWord cause rel col slot it, code, value, now, late⟩ } := by
  simp [Pen.takeStop, h]

theorem stoppedHere_tickOrd (s : State) (cause : Cause) (code value : W64) :
    StoppedHere s cause code value ((s.stopHere cause code value).modCur Core.tickOrd) where
  others d hd := core_modCore_of_ne _ _ hd
  core := curCore_modCur _ _
  rest := rfl
  mem _ := rfl
  pens h hh := stopHere_pen_of_ne s cause code value hh
  pen hp hs := by
    show (s.stopHere cause code value).pen _ = _
    rw [stopHere_pen_self s cause code value hp, takeStop_none hs]

/-- The place in program order and the stop come in either order. -/
theorem stopHere_modCur_tickOrd (s : State) (cause : Cause) (code value : W64) :
    (s.modCur Core.tickOrd).stopHere cause code value = (s.stopHere cause code value).modCur Core.tickOrd := rfl

end Sys2Proof.Machine
end

