-- ==== Sys2Proof/Tests/Slice0.lean ====
section
/-! SUPPORT. The model's own tests: words written out from the encoding tables of 03_encoding.md and the field layouts of 04_scalar.md to
08_mesh.md, ill-formed words, reset, worked examples of the spec, and a state and operands for each clause of the obligations that has
hypotheses. -/

namespace Sys2Proof.Tests

open Sys2Proof Sys2Proof.Machine

set_option Elab.async false
set_option linter.all false

/-! ### Words of the encoding tables -/

/-- A word in its column decodes to the instruction, and the instruction encodes to that word. -/
def reads (x : Col × SlotWord × Instr) : Bool :=
  decode x.1 x.2.1 = .ok x.2.2 && encode x.2.2 = some (x.1, x.2.1) && WellFormed x.2.2

def words0 : List (Col × SlotWord × Instr) := [
  (.s, 0x00054800000000000000#80, .nop (.s) {rp := true, pq := 5, fold := 1}),
  (.s, 0x0100006F840008000000#80, .add {} 3 31 2 true),
  (.s, 0x0200006F840008000000#80, .sub {} 3 31 2 true),
  (.s, 0x0300006F840008000000#80, .mul {} 3 31 2 true),
  (.s, 0x0400006F840000000000#80, .mulh {} 3 31 2),
  (.s, 0x0500006F840000000000#80, .mulhz {} 3 31 2),
  (.s, 0x0600006F840000000000#80, .div {} 3 31 2),
  (.s, 0x0700006F840000000000#80, .divz {} 3 31 2),
  (.s, 0x0800006F840000000000#80, .rem {} 3 31 2),
  (.s, 0x0900006F840000000000#80, .remz {} 3 31 2),
  (.s, 0x0A00006F840000000000#80, .and {} 3 31 2),
  (.s, 0x0B00006F840000000000#80, .or {} 3 31 2),
  (.s, 0x0C00006F840000000000#80, .xor {} 3 31 2),
  (.s, 0x0D00006F840000000000#80, .andn {} 3 31 2),
  (.s, 0x0E00006F840000000000#80, .shl {} 3 31 2),
  (.s, 0x0F00006F840000000000#80, .shr {} 3 31 2),
  (.s, 0x1000006F840000000000#80, .sra {} 3 31 2),
  (.s, 0x1100006F840000000000#80, .rotl {} 3 31 2),
  (.s, 0x1200006F840000000000#80, .min {} 3 31 2),
  (.s, 0x1300006F840000000000#80, .max {} 3 31 2),
  (.s, 0x1400006F840000000000#80, .minz {} 3 31 2)]

theorem test_words_nop_to_minz : ∀ x ∈ words0, reads x = true := by decide +kernel

def words1 : List (Col × SlotWord × Instr) := [
  (.s, 0x1500006F840000000000#80, .maxz {} 3 31 2),
  (.s, 0x160003E2000000000000#80, .clz {} 31 4),
  (.s, 0x170003E2000000000000#80, .ctz {} 31 4),
  (.s, 0x180003E2000000000000#80, .popc {} 31 4),
  (.s, 0x1900006F840000000000#80, .bext {} 3 31 2),
  (.s, 0x1A00006F843800000000#80, .bins {} 3 31 2 7),
  (.s, 0x1B00006F847800000000#80, .sel {} 3 31 2 15),
  (.s, 0x1C0001E0840000200000#80, .cmp {} (.ltz) 15 1 2),
  (.s, 0x1D0000210002C0000000#80, .sext {} (.int16) 1 2),
  (.s, 0x1E00006F84F008000000#80, .mad {} 3 31 2 30 true),
  (.s, 0x1F00006F840001F80000#80, .addsh {} 3 31 2 63),
  (.s, 0x2020012403FFFFFE7000#80, .addi {} 9 8 0xffffff9c#32),
  (.s, 0x2120012403FFFFFE7000#80, .muli {} 9 8 0xffffff9c#32),
  (.s, 0x2220012403FFFFFE7000#80, .andi {} 9 8 0xffffff9c#32),
  (.s, 0x2320012403FFFFFE7000#80, .ori {} 9 8 0xffffff9c#32),
  (.s, 0x2420012403FFFFFE7000#80, .xori {} 9 8 0xffffff9c#32),
  (.s, 0x2520012400000000FC00#80, .shli {} 9 8 0x0000003f#32),
  (.s, 0x2620012400000000FC00#80, .shri {} 9 8 0x0000003f#32),
  (.s, 0x2720012400000000FC00#80, .srai {} 9 8 0x0000003f#32),
  (.s, 0x28200042820000000014#80, .cmpi {} (.lez) 2 5 0x80000000#32),
  (.s, 0x29200124000000001C00#80, .mini {} 9 8 0x00000007#32)]

theorem test_words_maxz_to_mini : ∀ x ∈ words1, reads x = true := by decide +kernel

def words2 : List (Col × SlotWord × Instr) := [
  (.s, 0x2A200124000000001C00#80, .maxi {} 9 8 0x00000007#32),
  (.s, 0x2B200120020000000400#80, .li {} 9 0x80000001#32),
  (.s, 0x2C200124020000000400#80, .lih {} 9 8 0x80000001#32),
  (.s, 0x2FE00130000000000001#80, .lil {} 9 0x10000000000001#53),
  (.s, 0x30000027860000000000#80, .qand {} 1 15 3),
  (.s, 0x31000027860000000000#80, .qor {} 1 15 3),
  (.s, 0x32000027860000000000#80, .qxor {} 1 15 3),
  (.s, 0x33000027860000000000#80, .qandn {} 1 15 3),
  (.s, 0x34000027800000000000#80, .qnot {} 1 15),
  (.s, 0x3500002F860000000000#80, .qsetRange {} 1 31 3),
  (.s, 0x3500002F860000080000#80, .qsetWord {} 1 31 3),
  (.s, 0x360003E7800000180000#80, .qget {} 31 15 3),
  (.s, 0x370003E7800000000000#80, .qfirst {} 31 15),
  (.s, 0x384003EF78000FFFFFF0#80, .lea {} (.fp32) 31 15 30 0xffffff#24),
  (.s, 0x392001EF800240001400#80, .bld {} 15 31 0x005#12 9),
  (.s, 0x3A0001EF800000180000#80, .bset {} 15 3 31),
  (.s, 0x3B0003E7800000100000#80, .bget {} 31 15 2),
  (.s, 0x40A0006BE00000000000#80, .mfc {} 31 13),
  (.s, 0x41A00033E00000000000#80, .mtc {} 6 31),
  (.s, 0x42A0000000001FFFE000#80, .rgnin {} 0x0000ffff#32),
  (.s, 0x43A00000000000000000#80, .rgnout {})]

theorem test_words_maxi_to_rgnout : ∀ x ∈ words2, reads x = true := by decide +kernel

def words3 : List (Col × SlotWord × Instr) := [
  (.s, 0x44A00003F00000002000#80, .trap {} 0x80000001#32 31),
  (.s, 0x45A0000000000009A000#80, .brk {} 0x0000004d#32),
  (.s, 0x46A00000100000002000#80, .fin {} 0x80000001#32),
  (.v, 0x010018A13E0098000000#80, .vadd {fold := 3} { d := .v 5, a := .v 2, b := .src (.v 31), ty := .fp16, rm := .rtz, sat := true }),
  (.v, 0x020018A13E0098000000#80, .vsub {fold := 3} { d := .v 5, a := .v 2, b := .src (.v 31), ty := .fp16, rm := .rtz, sat := true }),
  (.v, 0x030018A13E0098000000#80, .vmul {fold := 3} { d := .v 5, a := .v 2, b := .src (.v 31), ty := .fp16, rm := .rtz, sat := true }),
  (.v, 0x040005108A4806000000#80, .vfma {} { d := .tx 0, a := .rx 1, b := .s 5, c := .s 9, ty := .fp32, rm := .rne, sat := false }),
  (.v, 0x050005108A4806000000#80, .vfms {} { d := .tx 0, a := .rx 1, b := .s 5, c := .s 9, ty := .fp32, rm := .rne, sat := false }),
  (.v, 0x060005108A4806000000#80, .vfnma {} { d := .tx 0, a := .rx 1, b := .s 5, c := .s 9, ty := .fp32, rm := .rne, sat := false }),
  (.v, 0x070000A13E0300000000#80, .vmin {} { d := .v 5, a := .v 2, b := .src (.v 31), ty := .int8, rm := .rne, sat := false }),
  (.v, 0x080000A13E0300000000#80, .vmax {} { d := .v 5, a := .v 2, b := .src (.v 31), ty := .int8, rm := .rne, sat := false }),
  (.v, 0x090005F3800000000000#80, .vabs {} { d := .tx 7, a := .rx 7, ty := .fp32, rm := .rne, sat := false }),
  (.v, 0x0A0005F3800000000000#80, .vneg {} { d := .tx 7, a := .rx 7, ty := .fp32, rm := .rne, sat := false }),
  (.v, 0x0B0005F3800000000000#80, .vrcp {} { d := .tx 7, a := .rx 7, ty := .fp32, rm := .rne, sat := false }),
  (.v, 0x0C0005F3800000000000#80, .vrsq {} { d := .tx 7, a := .rx 7, ty := .fp32, rm := .rne, sat := false }),
  (.v, 0x0D0000A13E0004000000#80, .vrcps {} { d := .v 5, a := .v 2, b := .s 31, ty := .fp32, rm := .rne, sat := false }),
  (.v, 0x0E0000A13E0004000000#80, .vrsqs {} { d := .v 5, a := .v 2, b := .s 31, ty := .fp32, rm := .rne, sat := false }),
  (.v, 0x0F0000A1000020000000#80, .vexp2 {} { d := .v 5, a := .v 2, ty := .fp32, rm := .down, sat := false }),
  (.v, 0x100000A1000020000000#80, .vlog2 {} { d := .v 5, a := .v 2, ty := .fp32, rm := .down, sat := false }),
  (.v, 0x110000A13E0030000000#80, .vscale {} { d := .v 5, a := .v 2, b := .src (.v 31), ty := .fp32, rm := .dither, sat := false }),
  (.v, 0x120000A1000000000000#80, .vfrexpFrac {} (.v 5) (.v 2) (.fp32))]

theorem test_words_trap_to_vfrexpFrac : ∀ x ∈ words3, reads x = true := by decide +kernel

def words4 : List (Col × SlotWord × Instr) := [
  (.v, 0x120000A1000000080000#80, .vfrexpExp {} (.v 5) (.v 2) (.fp32)),
  (.v, 0x130000A1000020000000#80, .vround {} (.v 5) (.v 2) (.fp32) (.down)),
  (.v, 0x140018A2000138000000#80, .vcvt {fold := 3} (.v 5) (.v 4) (.e4m3) (.fp32) 0 (.dither) true),
  (.v, 0x150001E13E0000300000#80, .vcmp {} (.un) 15 (.v 2) (.src (.v 31)) (.fp32)),
  (.v, 0x160000A13E7800000000#80, .vsel {} { d := .v 5, a := .v 2, b := .src (.v 31), ty := .fp32 } 15),
  (.v, 0x170000A13E0280000000#80, .vand {} { d := .v 5, a := .v 2, b := .src (.v 31), ty := .int32 }),
  (.v, 0x180000A13E0280000000#80, .vor {} { d := .v 5, a := .v 2, b := .src (.v 31), ty := .int32 }),
  (.v, 0x190000A13E0280000000#80, .vxor {} { d := .v 5, a := .v 2, b := .src (.v 31), ty := .int32 }),
  (.v, 0x1A0000A13E0280000000#80, .vshl {} { d := .v 5, a := .v 2, b := .src (.v 31), ty := .int32 }),
  (.v, 0x1B0000A13E0280000000#80, .vshr {} { d := .v 5, a := .v 2, b := .src (.v 31), ty := .int32 }),
  (.v, 0x1C0000A13E0280000000#80, .vsra {} { d := .v 5, a := .v 2, b := .src (.v 31), ty := .int32 }),
  (.v, 0x1D0000A13EF000000000#80, .vclamp {} { d := .v 5, a := .v 2, b := .src (.v 31), ty := .fp32 } (.src (.v 30))),
  (.v, 0x1E0000A13EF300000000#80, .vdot {} { d := .v 5, a := .v 2, b := .src (.v 31), ty := .int8, rm := .rne, sat := false } (.v 30)),
  (.v, 0x200000A1000000100000#80, .vred {} (.max) 5 (.v 2) (.fp32) (.rne) false),
  (.v, 0x210000A1000000080000#80, .vscan {} (.min) 5 (.v 2) (.fp32) (.rne) false),
  (.v, 0x220000A13E7800080000#80, .vmred {} (.min) 5 (.v 2) (.v 31) 15 (.fp32) (.rne) false),
  (.v, 0x23001123000000380000#80, .vtopk {fold := 2} 9 (.v 6) (.fp32) 7 false),
  (.v, 0x240000A13E0000000000#80, .vperm {} (.v 5) 2 (.v 31) (.fp32)),
  (.v, 0x250000A13E0000000000#80, .vbcastElem {} (.v 5) 2 31 (.fp32)),
  (.v, 0x250000A03E0000080000#80, .vbcastScalar {} (.v 5) 31 (.fp32)),
  (.v, 0x260000A13E0000400000#80, .vslide {} (.v 5) 2 31 (.fp32) 8)]

theorem test_words_vfrexpExp_to_vslide : ∀ x ∈ words4, reads x = true := by decide +kernel

def words5 : List (Col × SlotWord × Instr) := [
  (.v, 0x270000A1000000000000#80, .vcompress {} (.v 5) 2 (.fp32)),
  (.v, 0x280000A1000000000000#80, .vexpand {} (.v 5) 2 (.fp32)),
  (.v, 0x290000AF800280000000#80, .vidx {} (.v 5) 31 (.int32)),
  (.v, 0x2A0003E7800000000000#80, .vqcnt {} 31 15 (.fp32)),
  (.v, 0x304000AFF80FF0000010#80, .vld {} (.v 5) { br := 15, x := 31, ty := .fp32, sp := 0, lb := 255, ofs := 0x000001#24 }),
  (.v, 0x314004AFF80008000000#80, .vst {} (.rx 5) { br := 15, x := 31, ty := .fp32, sp := 0, lb := 0, ofs := 0x800000#24 }),
  (.v, 0x324005AFF83000000000#80, .vgth {} (.tx 5) { br := 15, x := 31, ty := .fp32, sp := 3, lb := 0, ofs := 0x000000#24 }),
  (.v, 0x334000AFF80000000000#80, .vsct {} (.v 5) { br := 15, x := 31, ty := .fp32, sp := 0, lb := 0, ofs := 0x000000#24 }),
  (.v, 0x340000A1000000000000#80, .vmov {} (.v 5) (.v 2) (.fp32)),
  (.v, 0x350000AF800001F80000#80, .vins {} 5 31 (.fp32) 63),
  (.v, 0x360003E1000001F80000#80, .vext {} 31 2 (.fp32) 63),
  (.v, 0x372000A000FE00000000#80, .vli {} (.v 5) (.fp32) 0x3f800000#32),
  (.v, 0x380010A100F800000000#80, .vhouse {fold := 2} 5 (.v 2) 31),
  (.v, 0x390000A100F804000000#80, .vnorm {} 5 2 31 (.fp32) (.rne) false 0x80#8),
  (.v, 0x3A0000A13E0080000000#80, .vpack {} (.v 5) 2 31 (.fp16) (.fp32) (.rne) false),
  (.v, 0x3B0000A1000001100000#80, .vunpk {} (.v 5) 2 (.fp32) (.fp16) true (.rne) false),
  (.m, 0x01600728840320000000#80, .mma {} { ad := 7, ga := 1, gb := 2, ta := .e4m3, tb := .e4m3, tacc := .fp32, kt := 3, byp := false, za := false, ret := true, xp := false, sata := false }),
  (.m, 0x02600728843F40000000#80, .mmat {} { ad := 7, ga := 1, gb := 2, ta := .e4m3, tb := .e4m3, tacc := .fp32, kt := 63, byp := false, za := true, ret := false, xp := false, sata := false }),
  (.m, 0x03600700000000000000#80, .mzero {} 7),
  (.m, 0x046007148000517DE02F#80, .mdrain {} { ad := 7, tacc := .fp32, ta := .e4m3, dst := .tx 7, dfn := .exp2, vr := 31, sr := 30, rm := .rtz, sat := true, za := true, xp := true }),
  (.m, 0x054000EFFA8010000020#80, .mld {} 7 { br := 15, x := 31, ty := .int32, sp := 0, lb := 1, ofs := 0x000002#24 })]

theorem test_words_vcompress_to_mld : ∀ x ∈ words5, reads x = true := by decide +kernel

def words6 : List (Col × SlotWord × Instr) := [
  (.m, 0x064000EFF80000000020#80, .mst {} 7 { br := 15, x := 31, ty := .fp32, sp := 0, lb := 0, ofs := 0x000002#24 }),
  (.m, 0x07600720008010000000#80, .mmov {} 7 1 (.fp64) true),
  (.m, 0x08600720004000000000#80, .madd {} 7 1 (.int32)),
  (.m, 0x0960072000000001F000#80, .mscl {} 7 1 31),
  (.m, 0x0A6000E00040007C0000#80, .mrowmax {} 31 7 (.int32)),
  (.m, 0x0B6000E00000007C0000#80, .mrowsum {} 31 7 (.fp32)),
  (.m, 0x102000EFFC0000FFFC00#80, .ginit {} 7 31 (.binb64h) 255 63),
  (.m, 0x112000E000000003FC00#80, .gadv {} 7 255),
  (.m, 0x122000E0000000000400#80, .gpop {} 7 1),
  (.m, 0x132003E3800000000000#80, .gstat {} 31 7),
  (.m, 0x148800F4803E00000000#80, .gfill {hold := 1} 7 5 (.e4m3) 31),
  (.m, 0x20600300000000000000#80, .oaclr {} 3),
  (.m, 0x21600300001F007DE000#80, .oaapp {} 3 31 30 31),
  (.m, 0x22600000002000048000#80, .oahh {} 0 1 8 32),
  (.m, 0x236003E0000010000000#80, .oaml {} 3 7 true),
  (.m, 0x246003C0000000000000#80, .oamr {} 3 6 false),
  (.m, 0x256003000000107C0000#80, .oamv {} 3 31 true),
  (.m, 0x26600200000000000000#80, .oarc {} 2),
  (.m, 0x2760030000000001F000#80, .oastat {} 3 31),
  (.m, 0x2860030000000001F000#80, .oacfg {} 3 31),
  (.m, 0x296003C0000010000000#80, .oaform {} 3 6 true)]

theorem test_words_mst_to_oaform : ∀ x ∈ words6, reads x = true := by decide +kernel

def words7 : List (Col × SlotWord × Instr) := [
  (.m, 0x2A40006FF80000000030#80, .oasave {} 3 { br := 15, x := 31, ty := .fp32, sp := 0, lb := 0, ofs := 0x000003#24 }),
  (.m, 0x2B40006FF80040000000#80, .oaload {} 3 { br := 15, x := 31, ty := .fp32, sp := 0, lb := 4, ofs := 0x000000#24 }),
  (.x, 0x018803FD400000000000#80, .recvS {hold := 1} 31 7 (.int32)),
  (.x, 0x018003FC000E00000001#80, .recvV {} 31 7 (.fp32) 7),
  (.x, 0x018001FD400000000002#80, .recvQ {} 15 7),
  (.x, 0x028003F81E0000000000#80, .sendS {} 6 31 (.fp32) 15),
  (.x, 0x028003F81E0E00000001#80, .sendV {} 6 31 (.fp32) 7 15),
  (.x, 0x038003F8000000000000#80, .peekS {} 31 6 (.fp32)),
  (.x, 0x038001F9400000000002#80, .peekQ {} 15 6),
  (.x, 0x048001F9460000000000#80, .sendq {} 6 15 3),
  (.x, 0x058003F8000000000000#80, .rxstat {} 31 6),
  (.x, 0x06800018007E00000000#80, .drop {} 6 63),
  (.x, 0x084005EFFAC020000010#80, .ld {} (.port 7) { br := 15, x := 31, ty := .int16, sp := 0, lb := 2, ofs := 0x000001#24 }),
  (.x, 0x094004EFFAC000000010#80, .st {} (.port 7) { br := 15, x := 31, ty := .int16, sp := 0, lb := 0, ofs := 0x000001#24 }),
  (.x, 0x10C003FDE000000000FF#80, .lcopy {} { cmd := 31, cp := 7, ord := .both, sc := .system, a := 0, b := 0, imm := 0x0000#16, sub := 0, tag := 255 }),
  (.x, 0x10C0001C17DEFFFE0100#80, .lcopyShort {} { cmd := 0, cp := 7, ord := .none, sc := .core, a := 31, b := 30, imm := 0xfffe#16, sub := 1, tag := 0 }),
  (.x, 0x11C003FC400000000001#80, .lgath {} { cmd := 31, cp := 7, ord := .none, sc := .package, a := 0, b := 0, imm := 0x0000#16, sub := 0, tag := 1 }),
  (.x, 0x12C003FC400000000001#80, .lscat {} { cmd := 31, cp := 7, ord := .none, sc := .package, a := 0, b := 0, imm := 0x0000#16, sub := 0, tag := 1 }),
  (.x, 0x13C003FC400000000001#80, .lwin {} { cmd := 31, cp := 7, ord := .none, sc := .package, a := 0, b := 0, imm := 0x0000#16, sub := 0, tag := 1 }),
  (.x, 0x14C003FC400000000001#80, .lfill {} { cmd := 31, cp := 7, ord := .none, sc := .package, a := 0, b := 0, imm := 0x0000#16, sub := 0, tag := 1 }),
  (.x, 0x15C003FC000000000000#80, .lprf {} { cmd := 31, cp := 7, ord := .none, sc := .lane, a := 0, b := 0, imm := 0x0000#16, sub := 0, tag := 0 })]

theorem test_words_oasave_to_lprf : ∀ x ∈ words7, reads x = true := by decide +kernel

def words8 : List (Col × SlotWord × Instr) := [
  (.x, 0x15C0001C17C000FF0100#80, .lprfShort {} { cmd := 0, cp := 7, ord := .none, sc := .core, a := 31, b := 0, imm := 0x00ff#16, sub := 1, tag := 0 }),
  (.x, 0x16C003FC178000000000#80, .lexp {} { cmd := 31, cp := 7, ord := .none, sc := .core, a := 30, b := 0, imm := 0x0000#16, sub := 0, tag := 0 }),
  (.x, 0x17C003FC178000000000#80, .limp {} { cmd := 31, cp := 7, ord := .none, sc := .core, a := 30, b := 0, imm := 0x0000#16, sub := 0, tag := 0 }),
  (.x, 0x20C003FCC78000000300#80, .aadd {} { cmd := 31, cp := 7, ord := .acq, sc := .package, a := 30, b := 0, imm := 0x0000#16, sub := 3, tag := 0 }),
  (.x, 0x21C003FCC78000000300#80, .amin {} { cmd := 31, cp := 7, ord := .acq, sc := .package, a := 30, b := 0, imm := 0x0000#16, sub := 3, tag := 0 }),
  (.x, 0x22C003FCC78000000300#80, .amax {} { cmd := 31, cp := 7, ord := .acq, sc := .package, a := 30, b := 0, imm := 0x0000#16, sub := 3, tag := 0 }),
  (.x, 0x23C003FCC78000000300#80, .aand {} { cmd := 31, cp := 7, ord := .acq, sc := .package, a := 30, b := 0, imm := 0x0000#16, sub := 3, tag := 0 }),
  (.x, 0x24C003FCC78000000300#80, .aor {} { cmd := 31, cp := 7, ord := .acq, sc := .package, a := 30, b := 0, imm := 0x0000#16, sub := 3, tag := 0 }),
  (.x, 0x25C003FCC78000000300#80, .axor {} { cmd := 31, cp := 7, ord := .acq, sc := .package, a := 30, b := 0, imm := 0x0000#16, sub := 3, tag := 0 }),
  (.x, 0x26C003FCC78000000300#80, .aswap {} { cmd := 31, cp := 7, ord := .acq, sc := .package, a := 30, b := 0, imm := 0x0000#16, sub := 3, tag := 0 }),
  (.x, 0x27C003FCC79D00000300#80, .acas {} { cmd := 31, cp := 7, ord := .acq, sc := .package, a := 30, b := 29, imm := 0x0000#16, sub := 3, tag := 0 }),
  (.x, 0x28C003FC400000000100#80, .ald {} { cmd := 31, cp := 7, ord := .none, sc := .package, a := 0, b := 0, imm := 0x0000#16, sub := 1, tag := 0 }),
  (.x, 0x29C003FC478000000400#80, .ast {} { cmd := 31, cp := 7, ord := .none, sc := .package, a := 30, b := 0, imm := 0x0000#16, sub := 4, tag := 0 }),
  (.x, 0x2AC003FC478000091100#80, .awaitAsync {} { cmd := 31, cp := 7, ord := .none, sc := .package, a := 30, b := 0, imm := 0x0009#16, sub := 17, tag := 0 }),
  (.x, 0x2AD003E0478000001100#80, .awaitSync {hold := 2} { cmd := 31, cp := 0, ord := .none, sc := .package, a := 30, b := 0, imm := 0x0000#16, sub := 17, tag := 0 }),
  (.x, 0x2BC003FC178000000000#80, .apop {} { cmd := 31, cp := 7, ord := .none, sc := .core, a := 30, b := 0, imm := 0x0000#16, sub := 0, tag := 0 }),
  (.x, 0x2CC003FC178000000000#80, .apush {} { cmd := 31, cp := 7, ord := .none, sc := .core, a := 30, b := 0, imm := 0x0000#16, sub := 0, tag := 0 }),
  (.x, 0x30D00001A24000010000#80, .bar {hold := 2} { cmd := 0, cp := 0, ord := .both, sc := .quad, a := 9, b := 0, imm := 0x0001#16, sub := 0, tag := 0 }),
  (.x, 0x31C0001DA24000010000#80, .arrive {} { cmd := 0, cp := 7, ord := .both, sc := .quad, a := 9, b := 0, imm := 0x0001#16, sub := 0, tag := 0 }),
  (.x, 0x32D00000A00000010000#80, .bwait {hold := 2} { cmd := 0, cp := 0, ord := .acq, sc := .quad, a := 0, b := 0, imm := 0x0001#16, sub := 0, tag := 0 }),
  (.x, 0x33C0001D400000000000#80, .fenceAsync {} { cmd := 0, cp := 7, ord := .rel, sc := .package, a := 0, b := 0, imm := 0x0000#16, sub := 0, tag := 0 })]

theorem test_words_lprfShort_to_fenceAsync : ∀ x ∈ words8, reads x = true := by decide +kernel

def words9 : List (Col × SlotWord × Instr) := [
  (.x, 0x33D00001400000000000#80, .fenceSync {hold := 2} { cmd := 0, cp := 0, ord := .rel, sc := .package, a := 0, b := 0, imm := 0x0000#16, sub := 0, tag := 0 }),
  (.x, 0x38C003FC178000030000#80, .dsend {} { cmd := 31, cp := 7, ord := .none, sc := .core, a := 30, b := 0, imm := 0x0003#16, sub := 0, tag := 0 }),
  (.x, 0x39C003FC178000030000#80, .dtw {} { cmd := 31, cp := 7, ord := .none, sc := .core, a := 30, b := 0, imm := 0x0003#16, sub := 0, tag := 0 }),
  (.x, 0x3AC003FC178000030000#80, .dtd {} { cmd := 31, cp := 7, ord := .none, sc := .core, a := 30, b := 0, imm := 0x0003#16, sub := 0, tag := 0 }),
  (.x, 0x3BC0001C100000030000#80, .dcommit {} { cmd := 0, cp := 7, ord := .none, sc := .core, a := 0, b := 0, imm := 0x0003#16, sub := 0, tag := 0 }),
  (.x, 0x3CC0001C178000030100#80, .dtr {} { cmd := 0, cp := 7, ord := .none, sc := .core, a := 30, b := 0, imm := 0x0003#16, sub := 1, tag := 0 }),
  (.x, 0x40C003FC179D00000000#80, .dmd {} { cmd := 31, cp := 7, ord := .none, sc := .core, a := 30, b := 29, imm := 0x0000#16, sub := 0, tag := 0 }),
  (.x, 0x41C12008100000000000#80, .dabn {pq := 4, pn := true} { cmd := 0, cp := 2, ord := .none, sc := .core, a := 0, b := 0, imm := 0x0000#16, sub := 0, tag := 0 }),
  (.x, 0x42C003FC179D00000000#80, .dret {} { cmd := 31, cp := 7, ord := .none, sc := .core, a := 30, b := 29, imm := 0x0000#16, sub := 0, tag := 0 }),
  (.x, 0x43C003FC100000000000#80, .dstat {} { cmd := 31, cp := 7, ord := .none, sc := .core, a := 0, b := 0, imm := 0x0000#16, sub := 0, tag := 0 }),
  (.x, 0x44C003FC100000000000#80, .ckpt {} { cmd := 31, cp := 7, ord := .none, sc := .core, a := 0, b := 0, imm := 0x0000#16, sub := 0, tag := 0 }),
  (.x, 0x45D003E0C78000000000#80, .liter {hold := 2} { cmd := 31, cp := 0, ord := .acq, sc := .package, a := 30, b := 0, imm := 0x0000#16, sub := 0, tag := 0 }),
  (.x, 0x480003EF000000000000#80, .tlk {} 31 30),
  (.x, 0x4900000F3AE000000000#80, .tins {} 30 29 28),
  (.x, 0x4A00000F000000000000#80, .tinv {} 30),
  (.x, 0x4B000000000000000000#80, .tclr {}),
  (.x, 0x50C003FC178000000000#80, .cfgld {} { cmd := 31, cp := 7, ord := .none, sc := .core, a := 30, b := 0, imm := 0x0000#16, sub := 0, tag := 0 }),
  (.x, 0x51C0001C178000000000#80, .swap {} { cmd := 0, cp := 7, ord := .none, sc := .core, a := 30, b := 0, imm := 0x0000#16, sub := 0, tag := 0 }),
  (.x, 0x52A00003F00000002000#80, .trmark {} 0x80000001#32 31)]

theorem test_words_fenceSync_to_trmark : ∀ x ∈ words9, reads x = true := by decide +kernel

/-! ### The words the spec encodes in full -/

def workedWords : List (Col × SlotWord × Instr) := [
  -- 03_encoding.md, an F0 word
  (.v, 0x01001821060000000000#80, .vadd { fold := 3 } { d := .v 1, a := .v 2, b := .src (.v 3), ty := .fp32 }),
  -- 03_encoding.md, an F6 word
  (.x, 0x10C00089400000000007#80, .lcopy {} { cmd := 4, cp := 2, ord := .rel, sc := .package, tag := 7 }),
  -- 04_scalar.md
  (.s, 0x1F000060840000180000#80, .addsh {} 3 1 2 3),
  -- 04_scalar.md
  (.s, 0x2820604283FFFFFE7008#80, .cmpi { pq := 1, pn := true } .lt 2 5 (BitVec.ofInt 32 (-100))),
  -- 05_vector.md
  (.v, 0x140018A2000138000000#80, .vcvt { fold := 3 } (.v 5) (.v 4) .e4m3 .fp32 0 .dither true),
  -- 06_matrix.md
  (.m, 0x01600004840320000000#80, .mma {} { ad := 0, ga := 0, gb := 1, ta := .e4m3, tb := .e4m3, tacc := .fp32, kt := 3, byp := false, za := false, ret := true, xp := false, sata := false }),
  -- 07_exchange.md
  (.x, 0x20C00065410000000111#80, .aadd {} { cmd := 3, cp := 1, ord := .rel, sc := .package, a := 4, sub := 1, tag := 17 }),
  -- 10_prog_filter.md
  (.v, 0x040000A10A2004000000#80, .vfma {} { d := .v 5, a := .v 2, b := .s 5, c := .src (.v 4), ty := .fp32 }),
  -- 12_prog_ladle.md
  (.x, 0x10C00020100000000003#80, .lcopy {} { cmd := 1, tag := 3 }),
  -- 15_prog_conv.md
  (.m, 0x016000218C4060000000#80, .mma {} { ad := 0, ga := 1, gb := 0, ta := .int8, tb := .int8, tacc := .int32, kt := 0, byp := false, za := true, ret := true, xp := false, sata := false }),
  -- 15_prog_conv.md
  (.x, 0x30D00001A24000010000#80, .bar { hold := 2 } { ord := .both, sc := .quad, a := 9, imm := 1 }),
  -- 16_prog_decode.md
  (.v, 0x23001123000000380000#80, .vtopk { fold := 2 } 9 (.v 6) .fp32 7 false),
  -- 16_prog_decode.md
  (.x, 0x41C12008100000000000#80, .dabn { pq := 4, pn := true } { cp := 2 }),
  -- 17_prog_qr.md
  (.m, 0x22600000002000048000#80, .oahh {} 0 1 8 32),
  -- 17_prog_qr.md
  (.m, 0x2B400001980000000000#80, .oaload {} 0 { br := 3, x := 3, ty := .fp32 })]

theorem test_worked_words : ∀ x ∈ workedWords, reads x = true := by decide +kernel

/-- Words the loader refuses, with the REASON of R82: no row's opcode, another format, a reserved bit set, a scalar register 40, CSR 0x0E,
RP in the V column, HOLD 3, scope 7. -/
theorem test_refused_words :
    decode .s 0xFF000000000000000000#80 = .reject 1 ∧ decode .v 0x10C00089400000000007#80 = .reject 2 ∧
    decode .s 0x01000060840000000001#80 = .reject 3 ∧ decode .s 0x01000500840000000000#80 = .reject 4 ∧
    decode .s 0x40A00073E00000000000#80 = .reject 5 ∧ decode .v 0x01041821060000000000#80 = .reject 6 ∧
    decode .v 0x01181821060000000000#80 = .reject 7 ∧ decode .x 0x10C00089700000000007#80 = .reject 8 := by decide +kernel

/-! ### Ill-formed terms, one for each check -/

/-- RP outside the S column (R66). -/
theorem test_ill_rp : ∀ i ∈ ([
    .vadd { rp := true } { d := .v 1, a := .v 2, b := .src (.v 3), ty := .fp32 },
    .nop .x { rp := true },
    .mzero { rp := true } 3,
    .recvS { rp := true } 1 1 .fp32] : List Instr), WellFormed i = false := by decide +kernel

/-- HOLD (R67): 1 without a port, 2 on no synchronisation word, 3, and a synchronisation word without 2. -/
theorem test_ill_hold : ∀ i ∈ ([
    .add { hold := 1 } 1 2 3 false,
    .vadd { hold := 1 } { d := .v 1, a := .v 2, b := .src (.v 3), ty := .fp32 },
    .recvS { hold := 2 } 1 1 .fp32,
    .recvS { hold := 3 } 1 1 .fp32,
    .fenceSync {} { ord := .rel },
    .bar { hold := 1 } { sc := .quad }] : List Instr), WellFormed i = false := by decide +kernel

/-- Field values of the S column (R104): conditions of floating point, a format of no integer, shift counts of 64, a CSR of no number, region ids 0 and 65536. -/
theorem test_ill_scalar : ∀ i ∈ ([
    .cmp {} .un 1 2 3,
    .cmpi {} .ord 1 2 0,
    .sext {} .fp32 1 2,
    .addsh {} 1 2 3 64,
    .shli {} 1 2 64,
    .shri {} 1 2 64,
    .srai {} 1 2 64,
    .lea {} .int4 1 2 3 0,
    .lea {} .mxfp4 1 2 3 0,
    .mfc {} 1 0x0E,
    .mtc {} 0x32 1,
    .rgnin {} 0,
    .rgnin {} 65536] : List Instr), WellFormed i = false := by decide +kernel

/-- Types, rounding and saturation of the V column's arithmetic (R106, R111, R132). -/
theorem test_ill_vector_arithmetic : ∀ i ∈ ([
    .vadd {} { d := .v 1, a := .v 2, b := .src (.v 3), ty := .fp64 },
    .vadd {} { d := .v 1, a := .v 2, b := .src (.v 3), ty := .int8, rm := .rtz },
    .vsub {} { d := .v 1, a := .v 2, b := .src (.v 3), ty := .fp64 },
    .vsub {} { d := .v 1, a := .v 2, b := .src (.v 3), ty := .int8, rm := .rtz },
    .vmul {} { d := .v 1, a := .v 2, b := .src (.v 3), ty := .fp64 },
    .vmul {} { d := .v 1, a := .v 2, b := .src (.v 3), ty := .int8, rm := .rtz },
    .vfma {} { d := .v 1, a := .v 2, b := .src (.v 3), c := .src (.v 4), ty := .e4m3 },
    .vfma {} { d := .v 1, a := .v 2, b := .src (.v 3), c := .src (.v 4), ty := .int8, rm := .rtz },
    .vfms {} { d := .v 1, a := .v 2, b := .src (.v 3), c := .src (.v 4), ty := .e4m3 },
    .vfms {} { d := .v 1, a := .v 2, b := .src (.v 3), c := .src (.v 4), ty := .int8, rm := .rtz },
    .vfnma {} { d := .v 1, a := .v 2, b := .src (.v 3), c := .src (.v 4), ty := .e4m3 },
    .vfnma {} { d := .v 1, a := .v 2, b := .src (.v 3), c := .src (.v 4), ty := .int8, rm := .rtz },
    .vmin {} { d := .v 1, a := .v 2, b := .src (.v 3), ty := .int4 },
    .vmin {} { d := .v 1, a := .v 2, b := .src (.v 3), ty := .fp32, rm := .down },
    .vmax {} { d := .v 1, a := .v 2, b := .src (.v 3), ty := .int4 },
    .vmax {} { d := .v 1, a := .v 2, b := .src (.v 3), ty := .fp32, rm := .down },
    .vabs {} { d := .v 1, a := .v 2, ty := .fp64 },
    .vabs {} { d := .v 1, a := .v 2, ty := .fp32, rm := .down },
    .vneg {} { d := .v 1, a := .v 2, ty := .fp64 },
    .vneg {} { d := .v 1, a := .v 2, ty := .fp32, rm := .down },
    .vrcp {} { d := .v 1, a := .v 2, ty := .int32 },
    .vrcp {} { d := .v 1, a := .v 2, ty := .fp32, sat := true },
    .vrsq {} { d := .v 1, a := .v 2, ty := .int32 },
    .vrsq {} { d := .v 1, a := .v 2, ty := .fp32, sat := true },
    .vrcps {} { d := .v 1, a := .v 2, b := .src (.v 3), ty := .int32 },
    .vrsqs {} { d := .v 1, a := .v 2, b := .src (.v 3), ty := .int32 },
    .vscale {} { d := .v 1, a := .v 2, b := .src (.v 3), ty := .int32 },
    .vexp2 {} { d := .v 1, a := .v 2, ty := .int32 },
    .vlog2 {} { d := .v 1, a := .v 2, ty := .int32 }] : List Instr), WellFormed i = false := by decide +kernel

/-- Types, conditions, element numbers and ports of the other V words (R118 to R132). -/
theorem test_ill_vector_moves : ∀ i ∈ ([
    .vfrexpFrac {} (.v 1) (.v 2) .int32,
    .vfrexpExp {} (.v 1) (.v 2) .int32,
    .vround {} (.v 1) (.v 2) .int32 .rne,
    .vcvt {} (.v 1) (.v 2) .mxfp4 .mxfp4 0 .rne false,
    .vcvt {} (.v 1) (.v 2) .fp16 .fp32 3 .rne false,
    .vcvt {} (.v 1) (.rx 2) .fp16 .fp32 0 .rne false,
    .vcvt {} (.v 1) (.rx 2) .fp32 .mxfp4 3 .rne false,
    .vcmp {} .lt 1 (.v 2) (.src (.v 3)) .fp64,
    .vcmp {} .ltz 1 (.v 2) (.src (.v 3)) .fp32,
    .vcmp {} .un 1 (.v 2) (.src (.v 3)) .int32,
    .vsel {} { d := .v 1, a := .v 2, b := .src (.v 3), ty := .fp64 } 1,
    .vand {} { d := .v 1, a := .v 2, b := .src (.v 3), ty := .fp64 },
    .vor {} { d := .v 1, a := .v 2, b := .src (.v 3), ty := .fp64 },
    .vxor {} { d := .v 1, a := .v 2, b := .src (.v 3), ty := .fp64 },
    .vclamp {} { d := .v 1, a := .v 2, b := .src (.v 3), ty := .fp64 } (.src (.v 4)),
    .vshl {} { d := .v 1, a := .v 2, b := .src (.v 3), ty := .fp32 },
    .vshr {} { d := .v 1, a := .v 2, b := .src (.v 3), ty := .fp32 },
    .vsra {} { d := .v 1, a := .v 2, b := .src (.v 3), ty := .uint8 },
    .vdot {} { d := .v 1, a := .v 2, b := .src (.v 3), ty := .fp32 } (.v 4),
    .vdot {} { d := .v 1, a := .v 2, b := .src (.v 3), ty := .int8, rm := .rtz } (.v 4),
    .vred {} .sum 1 (.v 2) .fp64 .rne false,
    .vred {} .and 1 (.v 2) .fp32 .rne false,
    .vred {} .sum 1 (.v 2) .int32 .rtz false,
    .vscan {} .xor 1 (.v 2) .int32 .rne false,
    .vmred {} .or 1 (.v 2) (.v 3) 1 .int32 .rne false,
    .vtopk {} 1 (.v 2) .fp32 8 false,
    .vtopk {} 1 (.v 2) .fp64 1 false,
    .vqcnt {} 1 1 .fp64,
    .vperm {} (.v 1) 2 (.v 3) .fp64,
    .vbcastElem {} (.v 1) 2 3 .fp64,
    .vbcastScalar {} (.v 1) 2 .fp64,
    .vslide {} (.v 1) 2 3 .fp32 9,
    .vcompress {} (.v 1) 2 .fp64,
    .vexpand {} (.v 1) 2 .fp64,
    .vidx {} (.v 1) 2 .fp32,
    .vmov {} (.v 1) (.v 2) .fp64,
    .vins {} 1 2 .fp32 64,
    .vext {} 1 2 .fp16 128,
    .vli {} (.v 1) .fp64 0,
    .vld {} (.v 1) { br := 1, x := 1, ty := .fp64 },
    .vgth {} (.v 1) { br := 1, x := 1, ty := .fp64 },
    .vst {} (.v 1) { br := 1, x := 1, ty := .fp32, lb := 1 },
    .vsct {} (.v 1) { br := 1, x := 1, ty := .fp64 },
    .vhouse { fold := 3 } 1 (.v 2) 3,
    .vnorm {} 1 2 3 .int32 .rne false 0,
    .vpack {} (.v 1) 2 3 .fp32 .fp16 .rne false,
    .vunpk {} (.v 1) 2 .fp16 .fp32 true .rne false] : List Instr), WellFormed i = false := by decide +kernel

/-- Field values of the M column (R139 to R159). -/
theorem test_ill_matrix : ∀ i ∈ ([
    .mma {} { ad := 0, ga := 0, gb := 1, ta := .fp16, tb := .fp16, tacc := .fp32, kt := 0, byp := false, za := false, ret := false, xp := false, sata := true },
    .mma {} { ad := 0, ga := 0, gb := 1, ta := .fp16, tb := .fp16, tacc := .int32, kt := 0, byp := false, za := false, ret := false, xp := false, sata := false },
    .mma {} { ad := 0, ga := 1, gb := 1, ta := .fp16, tb := .fp16, tacc := .fp32, kt := 0, byp := true, za := false, ret := false, xp := false, sata := false },
    .mma {} { ad := 0, ga := 0, gb := 1, ta := .fp16, tb := .fp16, tacc := .fp32, kt := 1, byp := true, za := false, ret := false, xp := false, sata := false },
    .mma {} { ad := 0, ga := 0, gb := 1, ta := .fp16, tb := .mxfp4, tacc := .fp32, kt := 0, byp := false, za := false, ret := false, xp := true, sata := false },
    .mmat {} { ad := 0, ga := 0, gb := 1, ta := .mxfp4, tb := .fp16, tacc := .fp32, kt := 0, byp := false, za := false, ret := false, xp := false, sata := false },
    .mdrain {} { ad := 0, tacc := .int32, ta := .fp16, dst := (.ring 1), dfn := .exp2, vr := 0, sr := 0, rm := .rne, sat := false, za := false, xp := false },
    .mdrain {} { ad := 0, tacc := .int32, ta := .fp16, dst := (.ring 1), dfn := .scale, vr := 0, sr := 0, rm := .rne, sat := false, za := false, xp := false },
    .mdrain {} { ad := 0, tacc := .fp64, ta := .fp16, dst := (.ring 1), dfn := .rowmax, vr := 0, sr := 0, rm := .rne, sat := false, za := false, xp := false },
    .mdrain {} { ad := 0, tacc := .fp32, ta := .fp16, dst := (.tx 1), dfn := .rowmax, vr := 0, sr := 0, rm := .rne, sat := false, za := false, xp := false },
    .mdrain {} { ad := 0, tacc := .fp32, ta := .mxfp4, dst := (.tx 1), dfn := .rowmax, vr := 0, sr := 0, rm := .rne, sat := false, za := false, xp := false },
    .mld {} 1 { br := 1, x := 1, ty := .fp16 },
    .mst {} 1 { br := 1, x := 1, ty := .fp16 },
    .mst {} 1 { br := 1, x := 1, ty := .fp32, lb := 1 },
    .mrowmax {} 1 1 .fp64,
    .mrowsum {} 1 1 .fp64,
    .ginit {} 1 1 .fp32 0 0,
    .gadv {} 1 0,
    .gpop {} 1 0,
    .gfill {} 1 1 .mxfp4 0,
    .gfill {} 1 1 .fp64 0,
    .gfill {} 1 1 .fp32 16,
    .oaapp {} 0 1 1 33,
    .oahh {} 0 1 1 33,
    .oasave {} 0 { br := 1, x := 1, ty := .int32 },
    .oasave {} 0 { br := 1, x := 1, ty := .fp32, lb := 1 },
    .oaload {} 0 { br := 1, x := 1, ty := .int32 }] : List Instr), WellFormed i = false := by decide +kernel

/-- Field values of the X column (R77, R173 to R191). -/
theorem test_ill_exchange : ∀ i ∈ ([
    .recvS {} 1 1 .fp64,
    .recvV {} 1 1 .fp64 0,
    .sendS {} 1 1 .fp64 0,
    .sendV {} 1 1 .fp64 0 0,
    .peekS {} 1 1 .fp64,
    .ld {} (.s 1) { br := 1, x := 1, ty := .int4 },
    .ld {} (.port 1) { br := 1, x := 1, ty := .fp64 },
    .st {} (.s 1) { br := 1, x := 1, ty := .int4 },
    .st {} (.port 1) { br := 1, x := 1, ty := .fp64 },
    .st {} (.s 1) { br := 1, x := 1, ty := .fp32, lb := 1 },
    .lcopy {} { a := 1 },
    .lcopy {} { b := 1 },
    .lcopy {} { imm := 1 },
    .lcopy {} { sub := 1 },
    .lcopyShort {} { cmd := 1, sub := 1 },
    .lcopyShort {} { sub := 0 },
    .lgath {} { a := 1 },
    .lgath {} { sub := 1 },
    .lscat {} { a := 1 },
    .lscat {} { sub := 1 },
    .lwin {} { a := 1 },
    .lwin {} { sub := 1 },
    .lfill {} { a := 1 },
    .lfill {} { sub := 1 },
    .lprf {} { a := 1 },
    .lprf {} { sub := 1 },
    .lprfShort {} { cmd := 1, sub := 1 },
    .lprfShort {} { b := 1, sub := 1 },
    .lprfShort {} { sub := 0 },
    .lexp {} { b := 1 },
    .lexp {} { sub := 1 },
    .limp {} { b := 1 },
    .limp {} { sub := 1 },
    .aadd {} { sub := 5 },
    .aadd {} { b := 1 },
    .amin {} { sub := 5 },
    .amin {} { b := 1 },
    .amax {} { sub := 5 },
    .amax {} { b := 1 },
    .aswap {} { sub := 5 },
    .aswap {} { b := 1 },
    .aand {} { sub := 2 },
    .aand {} { sub := 5 },
    .aand {} { imm := 1 },
    .aor {} { sub := 2 },
    .aor {} { sub := 5 },
    .aor {} { imm := 1 },
    .axor {} { sub := 2 },
    .axor {} { sub := 5 },
    .axor {} { imm := 1 },
    .acas {} { sub := 2 },
    .acas {} { sub := 5 },
    .acas {} { imm := 1 },
    .ald {} { ord := .rel },
    .ald {} { a := 1 },
    .ald {} { sub := 5 },
    .ast {} { ord := .acq },
    .ast {} { b := 1 },
    .ast {} { sub := 5 },
    .awaitSync { hold := 2 } { sub := 2 },
    .awaitSync { hold := 2 } { sub := 48 },
    .awaitSync { hold := 2 } { imm := 1 },
    .awaitSync { hold := 2 } { ord := .rel },
    .awaitSync { hold := 2 } { cp := 1 },
    .awaitAsync {} { sub := 2 },
    .awaitAsync {} { sub := 48 },
    .awaitAsync {} { ord := .both },
    .awaitAsync {} { b := 1 },
    .apop {} { b := 1 },
    .apop {} { sub := 1 },
    .apush {} { b := 1 },
    .apush {} { sub := 1 },
    .bar { hold := 2 } { sc := .core },
    .bar { hold := 2 } { sc := .quad, imm := 256 },
    .bar { hold := 2 } { sc := .quad, cmd := 1 },
    .bar { hold := 2 } { sc := .quad, sub := 1 },
    .arrive {} { sc := .system },
    .arrive {} { sc := .quad, b := 1 },
    .arrive {} { sc := .quad, sub := 1 },
    .bwait { hold := 2 } { sc := .quad, a := 1 },
    .bwait { hold := 2 } { sc := .quad, ord := .rel },
    .bwait { hold := 2 } { sc := .core },
    .fenceSync { hold := 2 } { ord := .none },
    .fenceSync { hold := 2 } { ord := .rel, a := 1 },
    .fenceSync { hold := 2 } { ord := .rel, cp := 1 },
    .fenceAsync {} { ord := .none },
    .fenceAsync {} { ord := .rel, imm := 1 },
    .fenceAsync {} { ord := .rel, sub := 1 },
    .dsend {} { imm := 32 },
    .dsend {} { b := 1 },
    .dsend {} { sub := 1 },
    .dtw {} { imm := 12 },
    .dtw {} { imm := 512 },
    .dtw {} { b := 1 },
    .dtd {} { imm := 12 },
    .dtd {} { imm := 512 },
    .dtd {} { b := 1 },
    .dcommit {} { imm := 32 },
    .dcommit {} { a := 1 },
    .dcommit {} { sub := 1 },
    .dtr {} { imm := 12 },
    .dtr {} { sub := 2 },
    .dtr {} { cmd := 1 },
    .dmd {} { imm := 1 },
    .dmd {} { sub := 1 },
    .dret {} { imm := 1 },
    .dret {} { sub := 1 },
    .dabn {} { ord := .acq },
    .dabn {} { cmd := 1 },
    .dabn {} { sub := 1 },
    .dstat {} { a := 1 },
    .dstat {} { sub := 1 },
    .ckpt {} { a := 1 },
    .ckpt {} { sub := 1 },
    .liter { hold := 2 } { ord := .none },
    .liter { hold := 2 } { ord := .acq, b := 1 },
    .liter { hold := 2 } { ord := .acq, cp := 1 },
    .liter { hold := 2 } { ord := .acq, sub := 1 },
    .cfgld {} { b := 1 },
    .cfgld {} { sub := 1 },
    .swap {} { cmd := 1 },
    .swap {} { b := 1 },
    .swap {} { sub := 1 }] : List Instr), WellFormed i = false := by decide +kernel

/-! ### Reset -/

theorem test_reset_memory : State.reset.mem = [] ∧ State.reset.cores = [] ∧ State.reset.todo = [] ∧ Mem.wf State.reset.mem = true := by decide +kernel


/-! ### One step on a small state, by the spec's worked values -/

/-- A core with the given scalar registers, the rest at reset. -/
def coreS (l : List (Nat × W64)) : Core := { s := l.foldl (fun v x => v.setIfInBounds x.1 x.2) (Vector.replicate 32 0) }

/-- One placed pen of one core, in a tick. -/
def penOne : Pen := { live := true, ctx := 1, pid := 2, n := 2, lens := [2, 3], started := true, inTick := true, it := 4, iter := 9, iterNext := 9, tick := 3, slot := 1 }

/-- A state in which a word of the given column of core 0 is about to issue. -/
def one (c : Core) (col : Col) : State :=
  { cores := [(0, c)], pens := [penOne], ctxs := [(1, {})], time := 6, cur := { core := 0, col := col, slot := 1, it := 4 } }

/-- What a word put in flight: the pen beats to its ready beat, its writes and its flags. -/
def flown (i : Instr) (s : State) : List (Nat × List Write × Flags) :=
  match exec i s with
  | .next t => (t.core 0).flights.map (fun f => (f.remain, f.writes, f.flags))
  | _ => []

/-- R88: with B = 0xC3C the field is the top nibble of A. -/
theorem test_bext_top_nibble :
    flown (.bext {} 3 1 2) (one (coreS [(1, 0xA123456789ABCDEF), (2, 0xC3C)]) .s) = [(1, [.s 3 0xA], 0)] := by decide +kernel

/-- R87: fix saturates a sum at the largest integer, with OF; without SAT it wraps and raises nothing. -/
theorem test_add_saturates :
    flown (.add {} 3 1 1 true) (one (coreS [(1, 0x7FFFFFFFFFFFFFFF)]) .s) = [(1, [.s 3 0x7FFFFFFFFFFFFFFF], Flags.of)] ∧
    flown (.add {} 3 1 1 false) (one (coreS [(1, 0x7FFFFFFFFFFFFFFF)]) .s) = [(1, [.s 3 0xFFFFFFFFFFFFFFFE], 0)] := by decide +kernel

/-- R87: a quotient by zero is 0 with DZ; the most negative number by −1 is itself with OF; the quotient rounds toward zero. -/
theorem test_div_corners :
    flown (.div {} 3 1 2) (one (coreS [(1, 7)]) .s) = [(18, [.s 3 0], Flags.dz)] ∧
    flown (.div {} 3 1 2) (one (coreS [(1, 0x8000000000000000), (2, 0xFFFFFFFFFFFFFFFF)]) .s) = [(18, [.s 3 0x8000000000000000], Flags.of)] ∧
    flown (.div {} 3 1 2) (one (coreS [(1, 0xFFFFFFFFFFFFFFF9), (2, 2)]) .s) = [(18, [.s 3 0xFFFFFFFFFFFFFFFD], 0)] ∧
    flown (.rem {} 3 1 2) (one (coreS [(1, 0xFFFFFFFFFFFFFFF9), (2, 2)]) .s) = [(18, [.s 3 0xFFFFFFFFFFFFFFFF], 0)] := by decide +kernel

/-- R91: `lih` keeps the low 32 bits, and the immediate takes the high ones. -/
theorem test_lih_pair :
    flown (.lih {} 5 5 0xFEDCBA98) (one (coreS [(5, 0x12345678)]) .s) = [(1, [.s 5 0xFEDCBA9812345678], 0)] := by decide +kernel

/-- R93: `qset q1, s0, s7` with s7 = 20 sets the first 20 bits; `qset q1, s7, s0` clears them all. -/
theorem test_qset_tail_mask :
    flown (.qsetRange {} 1 0 7) (one (coreS [(7, 20)]) .s) = [(1, [.q 1 0xFFFFF (BitVec.allOnes 256)], 0)] ∧
    flown (.qsetRange {} 1 7 0) (one (coreS [(7, 20)]) .s) = [(1, [.q 1 0 (BitVec.allOnes 256)], 0)] := by decide +kernel

/-- R89 and the worked `cmpi` of 04_scalar.md: −101 is below −100, and 4294967196 is not. -/
theorem test_cmpi_signed :
    flown (.cmpi {} .lt 2 5 0xFFFFFF9C) (one (coreS [(5, 0xFFFFFFFFFFFFFF9B)]) .s) = [(1, [.q 2 (BitVec.allOnes 256) (BitVec.allOnes 256)], 0)] ∧
    flown (.cmpi {} .lt 2 5 0xFFFFFF9C) (one (coreS [(5, 0xFFFFFF9C)]) .s) = [(1, [.q 2 0 (BitVec.allOnes 256)], 0)] := by decide +kernel

/-- Lane 0 of what a V word put in flight. -/
def laneFlown (i : Instr) (s : State) : List (Nat × BitVec 32) :=
  match exec i s with
  | .next t => (t.core 0).flights.flatMap (fun f => f.writes.filterMap (fun w => (match w with | .v _ x _ => some (f.remain, x.truncate 32) | _ => none)))
  | _ => []

def coreV (l : List (Nat × VWord)) : Core := { v := l.foldl (fun v x => v.setIfInBounds x.1 x.2) (Vector.replicate 32 0), q := Vector.replicate 16 1 }

/-- The Newton step of 05_vector.md for 3.0 in FP32: the estimate, the correction and the product. -/
theorem test_newton_step :
    (laneFlown (.vrcp {} { d := .v 4, a := .v 1, ty := .fp32 }) (one (coreV [(1, 0x40400000)]) .v)).map (·.2) = [0x3EAA7000] ∧
    laneFlown (.vrcps {} { d := .v 4, a := .v 1, b := .src (.v 2), ty := .fp32 }) (one (coreV [(1, 0x40400000), (2, 0x3EAA7000)]) .v) = [(4, 0x3F802C00)] ∧
    (laneFlown (.vmul {} { d := .v 4, a := .v 1, b := .src (.v 2), ty := .fp32 }) (one (coreV [(1, 0x3EAA7000), (2, 0x3F802C00)]) .v)).map (·.2) = [0x3EAAAA96] := by
  decide +kernel

/-! ### A state and operands for every clause that has hypotheses -/

/-- A word that is not active: bit 0 of q0 is 1 (R52). -/
def off : Hdr := { pn := true }
def withPen (p : Pen) : State := { one {} .s with pens := [p] }
def token1 : Tok := { data := 0x3FC00000, pred := 0x17, tag := 1 }
def rxOne (p : Fin 8) : Vector Rx 8 := (Vector.replicate 8 {}).set p { q := [token1, token1] }
/-- A state whose rx1 holds two tokens. -/
def ported (col : Col) : State := one { rx := rxOne 1 } col
def ringed (col : Col) : State := one { rx := rxOne 1, g := (Vector.replicate 8 {}).set 1 { cap := 4 } } col
def mapped : Ctx := { ranges := [(0, 0x10000000000, 0, 0x800000000000000C)] }

/-- A pen whose sample buffer of 64 words lies in device memory. -/
def tracing : State := { withPen { penOne with sbuf := 0x1000, ssize := 64 } with ctxs := [(1, mapped)] }
/-- Context 1 is `mapped`, alone, and nothing is poisoned. -/
structure Flat (s : State) : Prop where
  ctxs : s.ctxs = [(1, mapped)]
  own : s.member = 0
  clean : s.poison = []

theorem mapped_off : bitAt mapped.w[2].toNat 63 = false := by decide

theorem xlate_flat {s : State} (f : Flat s) (acc : Acc) (va : Nat) (h : va < 2 ^ 30) : ∃ x, s.xlate 1 va acc = .ok (x, 15) := by
  have h1 : va / 2 ^ 47 = 0 := by omega
  have h2 : va % 2 ^ 48 = va := by omega
  have h3 : va % 2 ^ 52 = va := by omega
  have h4 : (va / 4096 * 4096 + 15) % 4096 = 15 := by omega
  have h5 : (va / 4096 * 4096 + 15) / 4096 * 4096 = va / 4096 * 4096 := by omega
  have h6 : va / 4096 * 4096 / 2 ^ 50 = 0 := by omega
  have h7 : va / 4096 * 4096 / 2 ^ 51 = 0 := by omega
  have h8 : ¬ hbmBytes ≤ va / 4096 * 4096 := by unfold hbmBytes; omega
  have h9 : va < 0x10000000000 := by omega
  have h10 : (va / 4096 * 4096 + 15) % 2 ^ 52 = va / 4096 * 4096 + 15 := by omega
  have b50 : bitAt (va / 4096 * 4096) 50 = false := by unfold bitAt; rw [h6]; rfl
  have b51 : bitAt (va / 4096 * 4096) 51 = false := by unfold bitAt; rw [h7]; rfl
  have hp : paPeer (va / 4096 * 4096) = false := by rw [paPeer, b50, b51]; rfl
  have hh : paHost (va / 4096 * 4096) = false := by rw [paHost, b51]
  have hr : paReserved 0 (va / 4096 * 4096) = false := by simp [paReserved, hp, h8]
  have hx : s.ctx 1 = mapped := by rw [State.ctx, f.ctxs]; rfl
  have hc : rangeHit s.member va (s.ctx 1).badRanges (s.ctx 1).ranges = some (.ok (va / 4096 * 4096 + 15)) := by
    rw [hx, f.own]
    have e : bitsOf (0x800000000000000C : W64) 62 11 = 0 := by decide
    have e1 : (bitsOf (0x800000000000000C : W64) 10 9 = 3) = False := by simp only [eq_iff_iff, iff_false]; decide
    have e2 : bitsOf (0x800000000000000C : W64) 10 2 * 4 + 3 = 15 := by decide
    have e3 : bitAt (0x800000000000000C : W64).toNat 63 = true := by decide
    have e4 : (va + (0 : W64).toNat) % 2 ^ 52 = va := h3
    have e5 : va < (0x10000000000 : W64).toNat := h9
    have e6 : (0 : W64).toNat < (0x10000000000 : W64).toNat := by decide
    have e7 : (0 : W64).toNat ≤ va := Nat.zero_le _
    rw [mapped, rangeHit, if_neg (by simp)]
    rw [if_pos (by simp only [e, e3, e5, e6, e7, decide_true, Bool.and_true])]
    dsimp only
    rw [e4, hr]
    simp only [e1, decide_false, Bool.or_false, Bool.false_eq_true, if_false, Nat.add_assoc, e2]
  refine ⟨va / 4096 * 4096 + va % 4096, ?_⟩
  unfold State.xlate
  simp only [h1, h2, hc]
  unfold leafPa
  have hv : s.compressedView (va / 4096 * 4096) = false := by
    have m := mapped_off
    rw [State.compressedView, f.ctxs]
    simp only [List.any_cons, List.any_nil, m, Bool.false_and, Bool.or_false]
  simp only [h10, h4, h5, hp, hh, hv]
  cases acc <;> rfl

theorem places_flat {s : State} (f : Flat s) (acc : Acc) : ∀ (n va : Nat) (cur : Option (Nat × Nat)), va + n ≤ 2 ^ 30 →
    (∀ x, cur = some x → x.2 = 15) → ∃ pl, s.placesAux 1 acc n va cur = .ok pl ∧ pl.length = n ∧ ∀ x ∈ pl, x.2 = 15
  | 0, _, _, _, _ => ⟨[], rfl, rfl, by simp⟩
  | n + 1, va, cur, h, hc => by
    obtain ⟨x, hx, h15⟩ : ∃ x, (match cur with | some x => Except.ok x | none => s.xlate 1 va acc) = .ok x ∧ x.2 = 15 := by
      cases cur with
      | none =>
        obtain ⟨a, ha⟩ := xlate_flat f acc va (by omega)
        exact ⟨(a, 15), ha, rfl⟩
      | some x => exact ⟨x, rfl, hc x rfl⟩
    obtain ⟨pl, hp, hl, ha⟩ := places_flat f acc n (va + 1) (if (va + 1) % 64 = 0 then none else some (x.1 + 1, x.2)) (by omega)
      (by
        intro y hy
        split at hy
        · exact nomatch hy
        · rw [← Option.some.inj hy]; exact h15)
    refine ⟨x :: pl, ?_, by simp [hl], ?_⟩
    · rw [State.placesAux.eq_def]
      cases cur with
      | none => dsimp only at hx ⊢; rw [hx]; dsimp only; rw [hp]
      | some y => cases hx; dsimp only; rw [hp]
    · intro y hy
      rcases List.mem_cons.mp hy with rfl | hy
      · exact h15
      · exact ha y hy

theorem readPlaces_flat {s : State} (f : Flat s) (r : Reader) (last : Option (Nat × List Byte)) : ∀ pl : List (Nat × Nat), (∀ x ∈ pl, x.2 = 15) →
    ∃ bs, s.readPlaces r pl last = .ok bs ∧ bs.length = pl.length
  | [], _ => ⟨[], rfl, rfl⟩
  | (pa, attr) :: rest, h => by
    obtain ⟨bs, hb, hl⟩ := readPlaces_flat f r last rest (fun x hx => h x (List.mem_cons_of_mem _ hx))
    have ha : attr = 15 := h (pa, attr) List.mem_cons_self
    refine ⟨s.physByte r pa :: bs, ?_, by simp [hl]⟩
    rw [State.readPlaces.eq_def]
    dsimp only
    rw [ha, if_neg (by decide), f.clean, hb]
    rfl

/-- A read of `n` bytes answers `n` bytes. -/
theorem vread_flat {s : State} (f : Flat s) (va n : Nat) (h : va + n ≤ 2 ^ 30) : ∃ bs, s.vread 1 va n = .ok bs ∧ bs.length = n := by
  obtain ⟨pl, hp, hl, ha⟩ := places_flat f .rd n va none h (by simp)
  obtain ⟨bs, hb, hn⟩ := readPlaces_flat f (s.home 1) none pl ha
  refine ⟨bs, ?_, by omega⟩
  rw [State.vread, State.places, hp]
  exact hb

theorem patchChunks_flat : ∀ ps : List Patch, (∀ p ∈ ps, p.1.2 = 15) → patchChunks ps = [] := by
  intro ps h
  unfold patchChunks
  suffices ∀ l, List.foldl (fun l p => if bitAt p.1.2 4 && !l.contains (p.1.1 / 4096) then l ++ [p.1.1 / 4096] else l) l ps = l from this []
  induction ps with
  | nil => intro l; rfl
  | cons p ps ih =>
    intro l
    have hp : p.1.2 = 15 := h p List.mem_cons_self
    rw [List.foldl_cons, hp]
    exact ih (fun q hq => h q (List.mem_cons_of_mem _ hq)) l

/-- A write answers a state. -/
theorem vwrite_flat {s : State} (f : Flat s) (va : Nat) (bs : List Byte) (h : va + bs.length ≤ 2 ^ 30) : ∃ t, s.vwrite 1 va bs = .ok t := by
  obtain ⟨pl, hp, _, ha⟩ := places_flat f .wr bs.length va none h (by simp)
  have hz : patchChunks (pl.zip (bs.map (fun b => ((255 : Byte), b)))) = [] :=
    patchChunks_flat _ (fun p hp => ha p.1 (List.of_mem_zip (a := p.1) (b := p.2) hp).1)
  refine ⟨(s.rawPatches none (s.keyOf 1) (pl.zip (bs.map (fun b => (255, b))))).peerWrite 1 ((pl.map (·.1)).filter paPeer), ?_⟩
  rw [State.vwrite, State.vwriteBy, State.places, hp]
  simp only [State.writePlaces, hz]
  rfl

def okOf {ε α : Type} (d : α) (x : Except ε α) : α := match x with | .ok a => a | .error _ => d
def isOk {ε α : Type} (x : Except ε α) : Bool := match x with | .ok _ => true | .error _ => false
theorem okOf_eq {ε α : Type} (d : α) (x : Except ε α) (h : isOk x = true) : x = .ok (okOf d x) := by
  cases x <;> simp_all [okOf, isOk]
theorem okOf_snd {σ ε α : Type} (d : α) (x : σ × Except ε α) (h : isOk x.2 = true) : x = (x.1, .ok (okOf d x.2)) :=
  Prod.ext rfl (okOf_eq d x.2 h)
theorem none_snd {σ α : Type} (x : σ × Option α) (h : x.2.isNone = true) : x = (x.1, none) :=
  Prod.ext rfl (by simpa using h)

def nearB (a ext : Nat) : Vector Chunk 16 := (Vector.replicate 16 0).set 1 (BitVec.ofNat 256 (a + ext * 2 ^ 104 + 2 ^ 244))
def nearOk (q : Nat) : State := one { rx := rxOne 1, b := nearB 0x1000 100 } .x

/-- One result is ready. -/
def flew (f : Flight) (p : Pen) : State := { one { flights := [f] } .s with pens := [p] }
def fl0 : Flight := { col := .v, slot := 1, it := 4, ord := 0, remain := 0 }

/-- The elements of an orthogonal accumulator that holds one reflector, or has a reserved element that is not zero. -/
def oneHeld (i : Nat) : List Byte := if i = 2048 then [0, 0, 0, 4] else [0, 0, 0, 0]
def oneBad (i : Nat) : List Byte := if i = 2060 then [1, 0, 0, 0] else [0, 0, 0, 0]

/-- A word in its second chunk that waits for a late load. -/
def waiting (ext : Nat) (p : Pen) : State :=
  { one { streams := [{ col := .v, instr := .vmov {} (.v 3) (.v 7) .fp32, slot := 1, it := 4, ord := 5, next := 1, total := 3, mask := 0 }],
          flights := [{ fl0 with load := some { kind := .vchunk (.v 7) .fp32 1, budget := 4, elems := [{ i := 0 }], ext := ext } }] } .v with
    pens := [{ p with started := true, beat := 1 }] }

def base : State := { one {} .x with ctxs := [(1, mapped)] }
/-- Two pens of one context, the second on core 64 of die 0. -/
def pair : State := { base with pens := [penOne, { penOne with pid := 5, row := 1 }] }
def onDie (d : Die) : State := { base with dies := (Vector.replicate 4 {}).set 0 d }
def onChain (c : Chain) : State := onDie { chains := (Vector.replicate 4 {}).set 0 c }
def cmd0 : Cmd := { id := 77, core := 0, pen := 0, ctx := 1, o := { cp := 2, tag := 9 }, word := .lcopy {} {} }
def penWith (p : Pen) : State := { base with pens := [p] }
def msg0 : Msg := { src := 0, dst := 1, addr := 0x1000, len := 4 }

def stream0 (i : Instr) (c : Col) : Stream := { col := c, instr := i, slot := 1, it := 4, ord := 5, next := 1, total := 3, mask := 0xFF0F0F3355AA77 }
def going (st : Stream) (k : Core) : State := one { k with streams := [st] } st.col

def edged (n : Nat) : State :=
  let p : Pen := { penOne with pid := 5, row := 1, du := { ins := [{ port := 3, edge := 0 }] } }
  { base with
    pens := [penOne, p], edges := [{ src := 0, out := 0, dst := 1, inp := 0, isOpen := [true], flight := [[token1]] }]
    cores := [(p.coreAt 0, { rx := (Vector.replicate 8 {}).set 3 { q := List.replicate n token1 } })] }
def done0 : Done := { cmd := cmd0, eng := 1, inst := 5, code := 3, value := 0x123456789 }
def finished (n : Nat) (p : Pen) : State :=
  { base with cores := [(0, { rx := (Vector.replicate 8 {}).set 2 { q := List.replicate n token1 } })], pens := [p], dones := [done0] }
def sending (m : Cmd) (d : Die) : State := { onDie d with cores := [(0, { out := [m] })] }

def ladleImage : List Byte := leBytes 8 (2 ^ 56 + 31 * 2 ^ 20) ++ leBytes 16 0 ++ leBytes 8 (5 + 2 ^ 16 + 2 ^ 32) ++ leBytes 24 0 ++ leBytes 8 0x1234
/-- A row of 100 FP32 elements at an own-scratchpad address. -/
def rowRecord (a : Nat) : List Byte := leBytes 32 (a + 100 * 2 ^ 104 + 2 ^ 244)
def ladleJob : Job := { cmd := { cmd0 with ldl := ladleImage, img := rowRecord 0x1000 ++ rowRecord 0x1004 } }
def bellJob (a : W64) : Job := { cmd := { cmd0 with word := .aadd {} {}, cmd := a, a := 5 } }

/-- Context 1 names key slot 0, which is bound to context 5. -/
def keyless : Ctx := { mapped with w := (Vector.replicate 8 0).set 2 0x4000000000000000 }
def unbound (s : State) : State := { s with ctxs := [(1, keyless)], keys := [(0, (1, 5))] }

/-- Context 1 sees the memory of member 1 of the pod. -/
def peerCtx : Ctx := { ranges := [(0, 0x10000000000, 0x5000000000000, 0x800000000000000C)] }

def waitJob (k : W64) : Job := { cmd := { cmd0 with word := .awaitSync { hold := 2 } {}, cmd := 0x1000, a := k, sync := true } }
def bwaitJob : Job := { cmd := { cmd0 with word := .bwait { hold := 2 } { sc := .quad } } }
def arrival (k : W64) : Cmd := { cmd0 with word := .bar { hold := 2 } { sc := .quad }, o := { sc := .quad }, a := k }
def arrival' (k : W64) : Cmd := { cmd0 with word := .arrive {} { sc := .quad }, o := { sc := .quad }, a := k }

def timedJob (v : Nat) : Job := { cmd := { cmd0 with word := .awaitAsync {} {}, cmd := 0x1000, a := 3 }, list := [9], seen := [v] }

def rec0 : DRec := { f := List.replicate 16 0, dest := 3, id := 77 }

def shaped : DStage := { cfg := Vector.replicate 2 (BitVec.ofNat 512 ((3 * 2 ^ 19 + 2 * 2 ^ 15 + 5 * 2 ^ 11) * 2 ^ 104)) }
def rec12 : DRec := { rec0 with stage := 12, t0 := 0 }

def commitCmd : Cmd := { cmd0 with word := .dcommit {} {}, o := {} }
def dtwCmd : Cmd := { cmd0 with word := .dtw {} {}, o := { imm := 2 }, cmd := 0x1000, a := 5, img := List.replicate 64 0 }
def dtrCmd : Cmd := { cmd0 with word := .dtr {} {}, o := { imm := 2 }, a := 0xFFFF }
def skinded : DStage := { cfg := Vector.replicate 2 (BitVec.ofNat 512 (2 * 2 ^ 28 + 2 ^ 25)) }

def sink0 : Output := { port := 3, dest := .sink }
def posted (i : Instr) : Cmd := { cmd0 with word := i, cmd := 3 * 2 ^ 16, a := 2, b := 5 }
def asking (m : Cmd) (o : Output) : State := penWith { penOne with du := { outs := [o], inbox := [m] } }
def req0 : Req := { ticks := [(2, 5)], asker := .edge }
def reqD : Req := { ticks := [(2, 3)], asker := .dmd 77 }

def swapCmd (i : Instr) : Cmd := { cmd0 with word := i, a := 2, cmd := 0x2000 }
def loading (i : Instr) (p : Pen) : State := { onDie { loader := [swapCmd i] } with pens := [p], mem := [(0x2000, 1)] }

/-- Two pens of one instance have recorded a `fin`, the second with the lower number. -/
def finTwo : State := { base with pens := [{ penOne with finRec := some 3, pid := 6 }, { penOne with finRec := some 4, col := 1 }] }
theorem finTwo_pens : ∀ x ∈ finTwo.instPens 0 0, x ≠ 1 → x = 0 := by decide +kernel

def ent0 (w : List W64) : Entry := { qid := 3, seq := 7, ctx := 1, w := w }
/-- The LAUNCH entry of the instance whose pens have queue 0 and number 0. -/
def launched : Entry := { qid := 0, seq := 0, ctx := 1, w := [0x0100000000000000] }
/-- An entry at work, beside the instance it may name. -/
def work (e : Entry) : State := { base with entries := [launched, e], bus := { a := e.qid, b := e.seq } }
def queue0 : Queue := { w0 := 0x7000, w2 := BitVec.ofNat 64 (2 ^ 52 + 2 * 2 ^ 47 + 5 * 2 ^ 44 + 2 ^ 43), tail := 1 }
def queued (c : Ctx) (m : Mem) : State := { base with queues := [(3, queue0)], ctxs := [(1, c)], time := 64, mem := m }
def enabled : Ctx := { mapped with w := (Vector.replicate 8 0).set 2 0x8000000000000000 }
def hostDone : Done := { cmd := { cmd0 with host := some (3, 7) }, eng := 2, code := 4 }

/-- An image of one template of one core, one operator and one sink at 0x5000, its plane 0x1000 bytes on; a block of one placement at 0x4000. -/
def imageMem (dies : Bool) : Mem :=
  [(0x4001, 0x50), (0x4018, 1)] ++ (if dies then [(0x4042, 0xE0), (0x4043, 1)] else []) ++ [(0x4044, 1),
   (0x5000, 1), (0x5002, 1), (0x5006, 1), (0x5040, 1), (0x5041, 1), (0x5051, 0x10), (0x6000, 1)]
def graph0 : Graph := { qid := 0, seq := 0, ctx := 1, blk := [0x5000, 0, 0, 1, 0, 0, 0, 0, 0x101E00000, 0], bound := [(0, 3, 7)] }

def quarantined (c : Ctx) (l : List (Nat × Nat)) : State := { base with ctxs := [(1, { c with quar := true })], quarCores := l }

/-- The registers an access of the host or the driver names. -/
def reg (a b c : Nat) (v : W64) (ctxs : Tab Ctx := []) (queues : Tab Queue := []) (svc : Service := { boot := 8 }) : State :=
  { base with bus := { a := a, b := b, c := c, v := v }, ctxs := ctxs, queues := queues, svc := svc }

/-- A flit of zeros with its CRC, and its number, on link 2. -/
def flit (b : Nat) (svc : Service) : State :=
  { base with bus := { a := 2, b := b, data := List.replicate 60 0 ++ leBytes 4 (crc32c (List.replicate 60 0)) }, svc := svc }
def pods (f : List (Nat × Nat × Nat × List Nat)) : Service := { flushIn := f }

/-- Window 0 exports 64 KiB to tag 9. -/
def exporting (k : List Nat) : State :=
  { base with svc := { expwin := ((Vector.replicate 48 0).set 1 0x10000).set 2 0x8000000000000009 }, poison := k }
def arr (id num : Nat) : PodArr := { member := 0, id := id, num := num }
def switch (cs : List CountMsg) (bars : Tab (List PodArr × Nat)) : State := { base with svc := { countOut := cs, podBars := bars } }

theorem witness_RoundTripScalar_0 : ∃ i : Instr, ∃ w : SlotWord, ((WellFormed i = true) ∧ (encode i = some (.s, w))) :=
  ⟨.add {} 3 1 2 true, 0x01000060840008000000#80, by and_intros <;> decide +kernel⟩

theorem witness_RoundTripVector_0 : ∃ i : Instr, ∃ w : SlotWord, ((WellFormed i = true) ∧ (encode i = some (.v, w))) :=
  ⟨.vadd { fold := 3 } { d := .v 1, a := .v 2, b := .src (.v 3), ty := .fp32 }, 0x01001821060000000000#80, by and_intros <;> decide +kernel⟩

theorem witness_RoundTripMatrix_0 : ∃ i : Instr, ∃ w : SlotWord, ((WellFormed i = true) ∧ (encode i = some (.m, w))) :=
  ⟨.mzero {} 3, 0x03600300000000000000#80, by and_intros <;> decide +kernel⟩

theorem witness_RoundTripExchange_0 : ∃ i : Instr, ∃ w : SlotWord, ((WellFormed i = true) ∧ (encode i = some (.x, w))) :=
  ⟨.dabn { pq := 4, pn := true } { cp := 2 }, 0x41C12008100000000000#80, by and_intros <;> decide +kernel⟩

theorem witness_StepKeepsCanonical_0 : ∃ s : State, ∃ t : State, (s.MemCanonical) ∧ (step s = .next t) :=
  ⟨State.reset, State.reset.beat, (by decide +kernel : State.reset.mem.wf = true), rfl⟩

theorem witness_ScalarArithmetic_0 : ∃ i : Instr, ∃ s : State, ∃ h, ∃ lat, ∃ d, ∃ r, (arithSpec s.curCore i = some (h, lat, d, r)) :=
  ⟨.add {} 3 1 2 true, one {} .s, _, _, _, _, rfl⟩

theorem witness_ScalarArithmetic_1 : ∃ i : Instr, ∃ s : State, ∃ h, ∃ d, ∃ r, (divSpec s.curCore i = some (h, d, r)) :=
  ⟨.div {} 3 1 2, one {} .s, _, _, _, rfl⟩

theorem witness_ScalarLogic_0 : ∃ i : Instr, ∃ s : State, ∃ h : Hdr, ∃ d : Fin 32, ∃ v : W64, (logicSpec s.curCore i = some (h, d, v)) :=
  ⟨.xor {} 3 1 2, one {} .s, _, _, _, rfl⟩

theorem witness_ScalarSelect_0 : ∃ i : Instr, ∃ s : State, ∃ h : Hdr, ∃ d : Fin 32, ∃ v : W64, (selectSpec s.curCore i = some (h, d, v)) :=
  ⟨.sel {} 3 1 2 4, one {} .s, _, _, _, rfl⟩

theorem witness_ScalarPredicate_0 : ∃ i : Instr, ∃ s : State, ∃ h : Hdr, ∃ d : Fin 16, ∃ P : Nat → Prop, (predSpec s.curCore i = some (h, d, P)) :=
  ⟨.cmp {} .lt 3 1 2, one {} .s, _, _, _, rfl⟩

theorem witness_ScalarBits_0 : ∃ i : Instr, ∃ s : State, ∃ h : Hdr, ∃ d : Fin 32, ∃ P : W64 → Prop, (bitSpec s.curCore i = some (h, d, P)) :=
  ⟨.bext {} 3 1 2, one {} .s, _, _, _, rfl⟩

theorem witness_ScalarRecords_0 : ∃ ty, ∃ n, (leaSize ty = some n) :=
  ⟨.int16, 2, by decide +kernel⟩

theorem witness_ScalarRecords_2 : ∃ s : State, ∃ h, (¬ isActive s h) :=
  ⟨one {} .s, off, by decide +kernel⟩

theorem witness_ScalarRecords_3 : ∃ s : State, ∃ h, (isActive s h) :=
  ⟨one {} .s, {}, by decide +kernel⟩

theorem witness_ScalarStops_0 : ∃ s : State, ∃ h : Hdr, (¬ isActive s h) :=
  ⟨one {} .s, off, by decide +kernel⟩

theorem witness_ScalarStops_1 : ∃ s : State, ∃ h : Hdr, (isActive s h) :=
  ⟨one {} .s, {}, by decide +kernel⟩

theorem witness_ScalarStops_2 : ∃ s : State, ∃ h : Hdr, ((¬ isActive s h ∨ s.curPen.bp.getLsbD 63 = false)) :=
  ⟨one {} .s, {}, by decide +kernel⟩

theorem witness_ScalarStops_3 : ∃ s : State, ∃ h : Hdr, ((isActive s h) ∧ (s.curPen.bp.getLsbD 63 = true)) :=
  ⟨withPen { penOne with bp := 0x8000000000000000 }, {}, by and_intros <;> decide +kernel⟩

theorem witness_ScalarStops_4 : ∃ s : State, ∃ h : Hdr, (¬ isActive s h) :=
  ⟨one {} .s, off, by decide +kernel⟩

theorem witness_ScalarStops_5 : ∃ s : State, ∃ h : Hdr, (isActive s h) :=
  ⟨one {} .s, {}, by decide +kernel⟩

theorem witness_ScalarStops_6 : ∃ s : State, ∃ h : Hdr, ((¬ isActive s h ∨ s.curPen.rgnPend ≠ none)) :=
  ⟨one {} .s, off, by decide +kernel⟩

theorem witness_ScalarStops_7 : ∃ s : State, ∃ h : Hdr, ((¬ isActive s h ∨ s.curPen.rgnPend ≠ none)) :=
  ⟨one {} .s, off, by decide +kernel⟩

theorem witness_ScalarStops_8 : ∃ s : State, ∃ h : Hdr, ∃ id : BitVec 32, ((isActive s h) ∧ (s.curPen.rgnPend = none) ∧ (s.curPen.armed (id.truncate 16) = false)) :=
  ⟨one {} .s, {}, 7, by and_intros <;> decide +kernel⟩

theorem witness_ScalarStops_9 : ∃ s : State, ∃ h : Hdr, ∃ id : BitVec 32, ((isActive s h) ∧ (s.curPen.rgnPend = none) ∧ (s.curPen.armed (id.truncate 16) = true) ∧ (s.penOf s.cur.core < s.pens.length) ∧ (s.curPen.stop = none)) :=
  ⟨withPen { penOne with bp := 0x4000000000000007 }, {}, 7, by and_intros <;> decide +kernel⟩

theorem witness_ScalarStops_10 : ∃ s : State, ∃ h : Hdr, ((isActive s h) ∧ (s.curPen.rgnPend = none) ∧ ((∀ id, s.curPen.rgn.getLast? = some id → s.curPen.rgnOv = 0 → s.curPen.armed id = false))) :=
  ⟨one {} .s, {}, by and_intros <;> decide +kernel⟩

theorem witness_ScalarStops_11 : ∃ s : State, ∃ h : Hdr, ∃ id : BitVec 16, ((isActive s h) ∧ (s.curPen.rgnPend = none) ∧ (s.curPen.rgn.getLast? = some id) ∧ (s.curPen.rgnOv = 0) ∧ (s.curPen.armed id = true) ∧ (s.penOf s.cur.core < s.pens.length) ∧ (s.curPen.stop = none)) :=
  ⟨withPen { penOne with bp := 0x4000000000000007, rgn := [3, 7] }, {}, 7, by and_intros <;> decide +kernel⟩

theorem witness_ScalarStops_12 : ∃ s : State, ∃ g, ∃ edge, (((s.pen g).rgnPend = some edge) ∧ (MayStart ({ s with pens := s.pens.set g { (edge.elim (s.pen g).rgnPop (fun id => (s.pen g).rgnPush id)) with rgnPend := none } }) g) ∧ (({ s with pens := s.pens.set g { (edge.elim (s.pen g).rgnPop (fun id => (s.pen g).rgnPush id)) with rgnPend := none } }).holds g = []) ∧ (((({ s with pens := s.pens.set g { (edge.elim (s.pen g).rgnPop (fun id => (s.pen g).rgnPush id)) with rgnPend := none } }).pen g).resuming = true ∨ ({ s with pens := s.pens.set g { (edge.elim (s.pen g).rgnPop (fun id => (s.pen g).rgnPush id)) with rgnPend := none } }).isRestart g = false))) :=
  ⟨{ one {} .s with pens := [{ penOne with started := false, rgnPend := some (some 9) }] }, 0, some 9, by and_intros <;> decide +kernel⟩

theorem witness_VectorArithmetic_0 : ∃ i : Instr, ∃ s : State, ∃ c : ChunkWord, (vecArith s.curCore i = some c) :=
  ⟨.vadd {} { d := .v 1, a := .v 2, b := .src (.v 3), ty := .fp32 }, one {} .v, _, rfl⟩

theorem witness_VectorFloat_0 : ∃ i : Instr, ∃ s : State, ∃ c : ChunkWord, (vecFloat s.curCore i = some c) :=
  ⟨.vrcp {} { d := .v 1, a := .v 2, ty := .fp32 }, one {} .v, _, rfl⟩

theorem witness_VectorLogic_0 : ∃ i : Instr, ∃ s : State, ∃ c : ChunkWord, (vecLogic s.curCore i = some c) :=
  ⟨.vand {} { d := .v 1, a := .v 2, b := .src (.v 3), ty := .fp32 }, one {} .v, _, rfl⟩

theorem witness_VectorConvert_0 : ∃ i : Instr, ∃ s : State, ∃ c : ChunkWord, (vecConvert s.curCore i = some c) :=
  ⟨.vcvt {} (.v 1) (.v 2) .fp16 .fp32 0 .rne false, one {} .v, _, rfl⟩

theorem witness_VectorOnce_0 : ∃ i : Instr, ∃ s : State, ∃ c : ChunkWord, (vecOnce s.curCore i = some c) :=
  ⟨.vqcnt {} 1 1 .fp32, one {} .v, _, rfl⟩

theorem witness_VectorMove_0 : ∃ i : Instr, ∃ s : State, ∃ c : ChunkWord, (vecDot s.curCore i = some c ∨ vecMove s.curCore i = some c) :=
  ⟨.vdot {} { d := .v 1, a := .v 2, b := .src (.v 3), ty := .int8 } (.v 4), one {} .v, _, .inl rfl⟩

theorem witness_VectorGather_0 : ∃ i : Instr, ∃ s : State, ∃ g : GatherWord, (vecGather s.curCore i = some g) :=
  ⟨.vred {} .sum 1 (.v 2) .fp32 .rne false, one {} .v, _, rfl⟩

theorem witness_EmptyPortTraps_0 : ∃ i : Instr, ∃ s : State, ((WellFormed i = true) ∧ (s.penOf s.cur.core < s.pens.length) ∧ (s.cur.core ∈ s.curPen.cores) ∧ ((∃ p ∈ readsPorts i, (s.curCore.rx[p]).avail = []))) ∧ ((∀ h g p ty cnt, i = .gfill h g p ty cnt → s.curCore.g[g].cap ≠ 0 ∧ s.curCore.g[g].fmt = ty)) :=
  ⟨.recvS {} 1 1 .fp32, one {} .x, by and_intros <;> decide +kernel, by intros; contradiction⟩

theorem witness_MatrixMove_0 : ∃ i : Instr, ∃ s : State, ∃ n : NodeWord, (moveSpec s.curCore i = some n) :=
  ⟨.mzero {} 3, one {} .m, _, rfl⟩

theorem witness_MatrixOrth_0 : ∃ i : Instr, ∃ s : State, ∃ n : NodeWord, (orthSpec s.curCore i = some n) :=
  ⟨.oaclr {} 3, one {} .m, _, rfl⟩

theorem witness_MatrixRings_0 : ∃ s : State, ∃ h : Hdr, ∃ a : Fin 32, ∃ ty : Fmt, ∃ cap : Fin 256, ((isActive s h) ∧ (((s.curCore.rdS a).toNat % 64 ≠ 0 ∨ 2 ^ 20 < (s.curCore.rdS a).toNat % 2 ^ 20 / 64 * 64 + cap.val * ty.slotBytes))) :=
  ⟨one (coreS [(1, 32)]) .m, {}, 1, .fp32, 4, by and_intros <;> decide +kernel⟩

theorem witness_MatrixRings_1 : ∃ s : State, ∃ h : Hdr, ∃ a : Fin 32, ∃ ty : Fmt, ∃ cap : Fin 256, ((¬ isActive s h ∨ ((s.curCore.rdS a).toNat % 64 = 0 ∧ (s.curCore.rdS a).toNat % 2 ^ 20 + cap.val * ty.slotBytes ≤ 2 ^ 20))) :=
  ⟨one (coreS [(1, 64)]) .m, {}, 1, .fp32, 4, by and_intros <;> decide +kernel⟩

theorem witness_MatrixRings_2 : ∃ s : State, ∃ h : Hdr, ∃ g : Fin 8, ((isActive s h) ∧ (s.curCore.g[g].cap = 0)) :=
  ⟨one {} .m, {}, 1, by and_intros <;> decide +kernel⟩

theorem witness_MatrixRings_3 : ∃ s : State, ∃ h : Hdr, ∃ g : Fin 8, ((¬ isActive s h ∨ s.curCore.g[g].cap ≠ 0)) :=
  ⟨ringed .m, {}, 1, by decide +kernel⟩

theorem witness_MatrixRings_4 : ∃ s : State, ∃ h : Hdr, ∃ g : Fin 8, ((isActive s h) ∧ (s.curCore.g[g].cap = 0)) :=
  ⟨one {} .m, {}, 1, by and_intros <;> decide +kernel⟩

theorem witness_MatrixRings_5 : ∃ s : State, ∃ h : Hdr, ∃ g : Fin 8, ((¬ isActive s h ∨ s.curCore.g[g].cap ≠ 0)) :=
  ⟨ringed .m, {}, 1, by decide +kernel⟩

theorem witness_MatrixRings_7 : ∃ s : State, ∃ g : Fin 8, ∃ ty, ((s.curCore.g[g].cap = 0 ∨ s.curCore.g[g].fmt ≠ ty)) :=
  ⟨ringed .m, 1, .fp16, by decide +kernel⟩

theorem witness_MatrixRings_8 : ∃ s : State, ∃ g : Fin 8, ∃ p : Fin 8, ∃ ty, ∃ tok : Tok, ((s.cur.col = .m) ∧ (s.curCore.g[g].cap ≠ 0) ∧ (s.curCore.g[g].fmt = ty) ∧ ((s.curCore.rx[p]).avail.head? = some tok) ∧ (s.curCore.g[g].fillrow.toNat < 31) ∧ (0 < rowTokens ty)) :=
  ⟨ringed .m, 1, 1, .fp32, token1, by and_intros <;> decide +kernel⟩

theorem witness_MatrixNear_2 : ∃ n : Ns, (n.ty = .fp32) :=
  ⟨{ br := 3, x := 3, ty := .fp32 }, by decide +kernel⟩

theorem witness_MatrixNear_3 : ∃ n : Ns, (n.ty = .fp32) :=
  ⟨{ br := 3, x := 3, ty := .fp32 }, by decide +kernel⟩

theorem witness_PortReceive_4 : ∃ s : State, ∃ p : Fin 8, ∃ tok : Tok, ((s.cur.col = .x) ∧ ((s.curCore.rx[p]).avail.head? = some tok)) :=
  ⟨ported .x, 1, token1, by and_intros <;> decide +kernel⟩

theorem witness_PortReceive_5 : ∃ s : State, ∃ p : Fin 8, ∃ tok : Tok, ((s.curCore.rx[p]).avail.head? = some tok) :=
  ⟨ported .x, 1, token1, by decide +kernel⟩

theorem witness_PortSend_0 : ∃ i : Instr, ∃ s : State, ∃ p : Fin 8, ∃ toks : List Tok, (sendSpec s i = some (p, toks)) :=
  ⟨.sendS {} 1 2 .fp32 3, one {} .x, _, _, rfl⟩

theorem witness_PortStateWords_1 : ∃ s : State, (Tab.sorted s.curCore.tags = true) :=
  ⟨one {} .x, by decide +kernel⟩

theorem witness_PortStateWords_5 : ∃ s : State, ∃ h : Hdr, ((¬ isActive s h ∨ s.curPen.sbuf.toNat = 0)) :=
  ⟨one {} .x, {}, by decide +kernel⟩

def wportStateWords6_cb : List Byte := okOf default ((tracing).vread (tracing).curPen.ctx (tracing).curPen.sbuf.toNat 24)

def wportStateWords6_s1 : State := okOf default ((tracing).vwrite (tracing).curPen.ctx ((tracing).curPen.sbuf.toNat + 64 + 8 * ((leNat ((wportStateWords6_cb).take 8)) % ((tracing).curPen.ssizeWords))) (bytesOf [BitVec.ofNat 64 (0xA5 * 2 ^ 56 + 1 * 2 ^ 48 + 4 * 2 ^ 40 + (tracing).cycles % 2 ^ 40), rgnWord (tracing).curPen, BitVec.ofNat 64 (((9 : BitVec 32)).toNat * 2 ^ 32 + (tracing).curPen.pid.toNat * 2 ^ 16 + (tracing).curPen.rel (tracing).cur.core % 256 * 256), (tracing).curCore.rdS (0)]))

def wportStateWords6_s2 : State := okOf default ((wportStateWords6_s1).vwrite (tracing).curPen.ctx (tracing).curPen.sbuf.toNat (leBytes 8 (BitVec.ofNat 64 ((leNat ((wportStateWords6_cb).take 8)) + 4)).toNat))

theorem witness_PortStateWords_6 : ∃ s : State, ∃ h : Hdr, ∃ imm : BitVec 32, ∃ a, ∃ cb, ∃ s1, ∃ s2, ((isActive s h) ∧ (s.curPen.sbuf.toNat ≠ 0) ∧ ((leNat ((cb.drop 8).take 8)) ≤ (leNat (cb.take 8))) ∧ ((leNat (cb.take 8)) - (leNat ((cb.drop 8).take 8)) + 4 ≤ (s.curPen.ssizeWords)) ∧ ((leNat (cb.take 8)) % (s.curPen.ssizeWords) + 4 ≤ (s.curPen.ssizeWords))) ∧ (s.vread s.curPen.ctx s.curPen.sbuf.toNat 24 = .ok cb) ∧ (s.vwrite s.curPen.ctx (s.curPen.sbuf.toNat + 64 + 8 * ((leNat (cb.take 8)) % (s.curPen.ssizeWords))) (bytesOf [BitVec.ofNat 64 (0xA5 * 2 ^ 56 + 1 * 2 ^ 48 + 4 * 2 ^ 40 + s.cycles % 2 ^ 40), rgnWord s.curPen, BitVec.ofNat 64 (imm.toNat * 2 ^ 32 + s.curPen.pid.toNat * 2 ^ 16 + s.curPen.rel s.cur.core % 256 * 256), s.curCore.rdS a]) = .ok s1) ∧ (s1.vwrite s.curPen.ctx s.curPen.sbuf.toNat (leBytes 8 (BitVec.ofNat 64 ((leNat (cb.take 8)) + 4)).toNat) = .ok s2) :=
  ⟨tracing, {}, (9 : BitVec 32), 0, wportStateWords6_cb, wportStateWords6_s1, wportStateWords6_s2, by and_intros <;> decide +kernel, okOf_eq _ _ (by decide +kernel), okOf_eq _ _ (by decide +kernel), okOf_eq _ _ (by decide +kernel)⟩

theorem witness_NearScalar_0 : ∃ s : State, ∃ h : Hdr, (¬ isActive s h) :=
  ⟨nearOk 0, off, by decide +kernel⟩

theorem witness_NearScalar_1 : ∃ s : State, ∃ h : Hdr, (¬ isActive s h) :=
  ⟨nearOk 0, off, by decide +kernel⟩

theorem witness_NearScalar_2 : ∃ s : State, ∃ h : Hdr, ∃ n : Ns, ((isActive s h) ∧ ((placeElem s.curPen s.curCore.b[n.br] (n.ty.lane / 8) ((s.curCore.rdS n.x).toInt + n.ofs.toInt)) = .check)) :=
  ⟨one {} .x, {}, { br := 1, x := 0, ty := .fp32 }, by and_intros <;> decide +kernel⟩

theorem witness_NearScalar_3 : ∃ s : State, ∃ h : Hdr, ∃ n : Ns, ((isActive s h) ∧ ((placeElem s.curPen s.curCore.b[n.br] (n.ty.lane / 8) ((s.curCore.rdS n.x).toInt + n.ofs.toInt)) ≠ .check)) :=
  ⟨nearOk 0, {}, { br := 1, x := 0, ty := .fp32 }, by and_intros <;> decide +kernel⟩

theorem witness_NearScalar_4 : ∃ s : State, ∃ h : Hdr, ∃ n : Ns, ((isActive s h) ∧ ((placeElem s.curPen s.curCore.b[n.br] (n.ty.lane / 8) ((s.curCore.rdS n.x).toInt + n.ofs.toInt)) ≠ .check)) :=
  ⟨nearOk 0, {}, { br := 1, x := 0, ty := .fp32 }, by and_intros <;> decide +kernel⟩

theorem witness_NearScalar_5 : ∃ s : State, ∃ h : Hdr, (¬ isActive s h) :=
  ⟨nearOk 0, off, by decide +kernel⟩

theorem witness_NearScalar_6 : ∃ s : State, ∃ h : Hdr, ∃ n : Ns, ((isActive s h) ∧ ((placeElem s.curPen s.curCore.b[n.br] (n.ty.lane / 8) ((s.curCore.rdS n.x).toInt + n.ofs.toInt)) = .check)) :=
  ⟨one {} .x, {}, { br := 1, x := 0, ty := .fp32 }, by and_intros <;> decide +kernel⟩

theorem witness_NearScalar_7 : ∃ s : State, ∃ h : Hdr, ∃ n : Ns, ((isActive s h) ∧ ((placeElem s.curPen s.curCore.b[n.br] (n.ty.lane / 8) ((s.curCore.rdS n.x).toInt + n.ofs.toInt)) ≠ .check)) :=
  ⟨nearOk 0, {}, { br := 1, x := 0, ty := .fp32 }, by and_intros <;> decide +kernel⟩

theorem witness_NearScalar_8 : ∃ s : State, ∃ h : Hdr, ∃ n : Ns, ∃ p : Fin 8, ∃ tok : Tok, (((s.curCore.rx[p]).avail.head? = some tok) ∧ (isActive s h) ∧ ((tok.elem0 s.curCore n.ty).1.2 = true) ∧ ((placeElem s.curPen s.curCore.b[n.br] (n.ty.lane / 8) ((s.curCore.rdS n.x).toInt + n.ofs.toInt)) ≠ .check)) :=
  ⟨nearOk 0, {}, { br := 1, x := 0, ty := .fp32 }, 1, token1, by and_intros <;> decide +kernel⟩

theorem witness_NearScalar_9 : ∃ s : State, ∃ h : Hdr, ∃ n : Ns, ∃ p : Fin 8, ∃ tok : Tok, (((s.curCore.rx[p]).avail.head? = some tok) ∧ (isActive s h) ∧ ((tok.elem0 s.curCore n.ty).1.2 = true) ∧ ((placeElem s.curPen s.curCore.b[n.br] (n.ty.lane / 8) ((s.curCore.rdS n.x).toInt + n.ofs.toInt)) = .check)) :=
  ⟨ported .x, {}, { br := 1, x := 0, ty := .fp32 }, 1, token1, by and_intros <;> decide +kernel⟩

theorem witness_NearScalar_10 : ∃ s : State, ∃ h : Hdr, ∃ n : Ns, ∃ p : Fin 8, ∃ tok : Tok, (((s.curCore.rx[p]).avail.head? = some tok) ∧ ((¬ isActive s h ∨ (tok.elem0 s.curCore n.ty).1.2 = false))) :=
  ⟨nearOk 0, off, { br := 1, x := 0, ty := .fp32 }, 1, token1, by and_intros <;> decide +kernel⟩

theorem witness_CommandWords_0 : ∃ i : Instr, ∃ h : Hdr, ∃ o : F6, (asyncSpec i = some (h, o)) :=
  ⟨.lcopy {} {}, _, _, rfl⟩

theorem witness_SyncWords_0 : ∃ i : Instr, ∃ s : State, ∃ h : Hdr, ∃ o : F6, ∃ bad : Bool, (syncSpec s i = some (h, o, bad)) :=
  ⟨.fenceSync { hold := 2 } { ord := .both }, one {} .x, _, _, _, rfl⟩

theorem witness_ResultsLand_0 : ∃ s : State, ∃ c : Nat, ∃ f : Flight, ∃ want, ((OneReady s c f) ∧ (f.load = none) ∧ (f.writes.foldlM landSpec (s.core c) = some want)) :=
  ⟨flew { fl0 with writes := [.s 3 7] } penOne, 0, { fl0 with writes := [.s 3 7] }, _, by and_intros <;> first | decide +kernel | exact rfl⟩

theorem witness_ResultsLand_1 : ∃ s : State, ∃ c : Nat, ∃ f : Flight, ∃ n, ∃ v, ((OneReady s c f) ∧ (f.load = none) ∧ (f.writes = [.csr n v]) ∧ (n ≠ 0x02) ∧ (n ≠ 0x30) ∧ (n ≠ 0x31)) :=
  ⟨flew { fl0 with writes := [.csr 7 7] } penOne, 0, { fl0 with writes := [.csr 7 7] }, 7, 7, by and_intros <;> decide +kernel⟩

theorem witness_ResultsLand_2 : ∃ s : State, ∃ c : Nat, ∃ f : Flight, ∃ n, ∃ v, ((OneReady s c f) ∧ (f.load = none) ∧ (f.writes = [.csr n v]) ∧ (f.flags = 0) ∧ (n = 0x02 ∨ n = 0x30 ∨ n = 0x31) ∧ (s.penOf c < s.pens.length)) :=
  ⟨flew { fl0 with writes := [.csr 2 7] } penOne, 0, { fl0 with writes := [.csr 2 7] }, 2, 7, by and_intros <;> decide +kernel⟩

theorem witness_ResultsLand_3 : ∃ s : State, ∃ c : Nat, ∃ f : Flight, ∃ p : Fin 8, ∃ tok : Tok, ((OneReady s c f) ∧ (f.load = none) ∧ (f.writes = [.push p tok]) ∧ (f.col ≠ .s)) :=
  ⟨flew { fl0 with writes := [.push 3 token1] } penOne, 0, { fl0 with writes := [.push 3 token1] }, 3, token1, by and_intros <;> decide +kernel⟩

theorem witness_ResultsLand_4 : ∃ s : State, ∃ c : Nat, ∃ f : Flight, ∃ ofs, ∃ bs, ((OneReady s c f) ∧ (f.load = none) ∧ (f.writes = [.mem ofs bs])) :=
  ⟨flew { fl0 with writes := [.mem 3 [7]] } penOne, 0, { fl0 with writes := [.mem 3 [7]] }, 3, [7], by and_intros <;> decide +kernel⟩

theorem witness_ResultsLand_5 : ∃ s : State, ∃ c : Nat, ∃ f : Flight, ∃ cause, ∃ code, ((OneReady s c f) ∧ (f.load = none) ∧ (f.writes = [.stop cause code]) ∧ (f.flags = 0) ∧ (s.penOf c < s.pens.length) ∧ ((s.pen (s.penOf c)).stop = none)) :=
  ⟨flew { fl0 with writes := [.stop .trap 7] } penOne, 0, { fl0 with writes := [.stop .trap 7] }, .trap, 7, by and_intros <;> decide +kernel⟩

theorem witness_ResultsLand_6 : ∃ s : State, ∃ c : Nat, ∃ f : Flight, ∃ d, ∃ ty, ∃ bs, ∃ l, ((OneReady s c f) ∧ (f.load = some l) ∧ (l.kind = .scalar d ty) ∧ (l.elems = [{ i := 0, got := some bs }])) :=
  ⟨flew { fl0 with load := some { kind := .scalar 3 .fp32, budget := 4, elems := [{ i := 0, got := some [1, 2, 3, 4] }] } } penOne, 0, { fl0 with load := some { kind := .scalar 3 .fp32, budget := 4, elems := [{ i := 0, got := some [1, 2, 3, 4] }] } }, 3, .fp32, [1, 2, 3, 4], { kind := .scalar 3 .fp32, budget := 4, elems := [{ i := 0, got := some [1, 2, 3, 4] }] }, by and_intros <;> decide +kernel⟩

theorem witness_ResultsLand_7 : ∃ s : State, ∃ c : Nat, ∃ f : Flight, ∃ b, ∃ bs, ∃ l, ((OneReady s c f) ∧ (f.load = some l) ∧ (l.kind = .desc b) ∧ (l.elems = [{ i := 0, got := some bs }])) :=
  ⟨flew { fl0 with load := some { kind := .desc 3, budget := 4, elems := [{ i := 0, got := some [1, 2, 3, 4] }] } } penOne, 0, { fl0 with load := some { kind := .desc 3, budget := 4, elems := [{ i := 0, got := some [1, 2, 3, 4] }] } }, 3, [1, 2, 3, 4], { kind := .desc 3, budget := 4, elems := [{ i := 0, got := some [1, 2, 3, 4] }] }, by and_intros <;> decide +kernel⟩

theorem witness_ResultsLand_8 : ∃ s : State, ∃ c : Nat, ∃ f : Flight, ∃ l, ∃ d, ∃ ty, ∃ j, ∃ xs, ∃ want, ((OneReady s c f) ∧ (f.load = some l) ∧ (l.kind = .vchunk (.v d) ty j) ∧ (l.elems = gotElems xs) ∧ ((xs.map (·.1)).Nodup) ∧ (landSpec (s.core c) (vwrite d ty.lane (j * (256 / ty.lane)) (gotLanes ty xs)) = some want)) :=
  ⟨flew { fl0 with load := some { kind := .vchunk (.v 3) .fp32 1, budget := 4, elems := gotElems ([(2, [1, 2, 3, 4])]) } } penOne, 0, { fl0 with load := some { kind := .vchunk (.v 3) .fp32 1, budget := 4, elems := gotElems ([(2, [1, 2, 3, 4])]) } }, { kind := .vchunk (.v 3) .fp32 1, budget := 4, elems := gotElems ([(2, [1, 2, 3, 4])]) }, 3, .fp32, 1, [(2, [1, 2, 3, 4])], _, by and_intros <;> first | decide +kernel | exact rfl⟩

theorem witness_ResultsLand_9 : ∃ s : State, ∃ c : Nat, ∃ f : Flight, ∃ l, ∃ p : Fin 8, ∃ ty, ∃ j, ∃ xs, ((OneReady s c f) ∧ (f.load = some l) ∧ (l.kind = .vchunk (.tx p) ty j) ∧ (l.elems = gotElems xs) ∧ ((xs.map (·.1)).Nodup) ∧ (f.col ≠ .s)) :=
  ⟨flew { fl0 with load := some { kind := .vchunk (.tx 3) .fp32 1, budget := 4, elems := gotElems ([(2, [1, 2, 3, 4])]) } } penOne, 0, { fl0 with load := some { kind := .vchunk (.tx 3) .fp32 1, budget := 4, elems := gotElems ([(2, [1, 2, 3, 4])]) } }, { kind := .vchunk (.tx 3) .fp32 1, budget := 4, elems := gotElems ([(2, [1, 2, 3, 4])]) }, 3, .fp32, 1, [(2, [1, 2, 3, 4])], by and_intros <;> first | decide +kernel | exact rfl⟩

theorem witness_ResultsLand_10 : ∃ s : State, ∃ c : Nat, ∃ f : Flight, ∃ l, ∃ p : Fin 8, ∃ ty, ∃ bs, ((OneReady s c f) ∧ (f.load = some l) ∧ (l.kind = .tx p ty) ∧ (l.elems = gotElems [(0, bs)]) ∧ (f.col ≠ .s)) :=
  ⟨flew { fl0 with load := some { kind := .tx 3 .fp32, budget := 4, elems := gotElems ([(0, [1, 2, 3, 4])]) } } penOne, 0, { fl0 with load := some { kind := .tx 3 .fp32, budget := 4, elems := gotElems ([(0, [1, 2, 3, 4])]) } }, { kind := .tx 3 .fp32, budget := 4, elems := gotElems ([(0, [1, 2, 3, 4])]) }, 3, .fp32, [1, 2, 3, 4], by and_intros <;> first | decide +kernel | exact rfl⟩

theorem witness_ResultsLand_11 : ∃ s : State, ∃ c : Nat, ∃ f : Flight, ∃ l, ∃ a, ∃ ty, ∃ bs : Nat → List Byte, ∃ t, ∃ want, ((OneReady s c f) ∧ (f.load = some l) ∧ (l.kind = .acc a ty) ∧ (l.elems = gotElems ((List.range 1024).map (fun i => (i, bs i)))) ∧ ((ty = .fp64 ∧ t = .fp64 ∨ ty = .int32 ∧ t = .int32 ∨ ty = .fp32 ∧ t = .fp32)) ∧ (landSpec (s.core c) (accWrite a t ((List.range 1024).map (fun i => leNat (bs i)))) = some want)) :=
  ⟨flew { fl0 with load := some { kind := .acc 3 .fp32, budget := 4, elems := gotElems ((List.range 1024).map (fun i => (i, oneHeld i))) } } penOne, 0, { fl0 with load := some { kind := .acc 3 .fp32, budget := 4, elems := gotElems ((List.range 1024).map (fun i => (i, oneHeld i))) } }, { kind := .acc 3 .fp32, budget := 4, elems := gotElems ((List.range 1024).map (fun i => (i, oneHeld i))) }, 3, .fp32, oneHeld, .fp32, _, by and_intros <;> first | decide +kernel | exact rfl⟩

theorem witness_ResultsLand_12 : ∃ s : State, ∃ c : Nat, ∃ f : Flight, ∃ l, ∃ o, ∃ bs : Nat → List Byte, ∃ want, ((OneReady s c f) ∧ (f.load = some l) ∧ (l.kind = .oa o) ∧ (l.elems = gotElems ((List.range 2064).map (fun i => (i, bs i)))) ∧ ((∀ i < 2064, (bs i).length = 4)) ∧ (oaRefused bs = false) ∧ ((oaRestored o bs).foldlM landSpec (s.core c) = some want)) :=
  ⟨flew { fl0 with load := some { kind := .oa 3, budget := 4, elems := gotElems ((List.range 2064).map (fun i => (i, oneHeld i))) } } penOne, 0, { fl0 with load := some { kind := .oa 3, budget := 4, elems := gotElems ((List.range 2064).map (fun i => (i, oneHeld i))) } }, { kind := .oa 3, budget := 4, elems := gotElems ((List.range 2064).map (fun i => (i, oneHeld i))) }, 3, oneHeld, _, by and_intros <;> first | decide +kernel | exact rfl⟩

theorem witness_ResultsLand_13 : ∃ s : State, ∃ c : Nat, ∃ f : Flight, ∃ l, ∃ o, ∃ bs : Nat → List Byte, ((OneReady s c f) ∧ (f.load = some l) ∧ (l.kind = .oa o) ∧ (l.elems = gotElems ((List.range 2064).map (fun i => (i, bs i)))) ∧ ((∀ i < 2064, (bs i).length = 4)) ∧ (oaRefused bs = true) ∧ (f.flags = 0) ∧ (s.penOf c < s.pens.length) ∧ ((s.pen (s.penOf c)).stop = none)) :=
  ⟨flew { fl0 with load := some { kind := .oa 3, budget := 4, elems := gotElems ((List.range 2064).map (fun i => (i, oneBad i))) } } penOne, 0, { fl0 with load := some { kind := .oa 3, budget := 4, elems := gotElems ((List.range 2064).map (fun i => (i, oneBad i))) } }, { kind := .oa 3, budget := 4, elems := gotElems ((List.range 2064).map (fun i => (i, oneBad i))) }, 3, oneBad, by and_intros <;> first | decide +kernel | exact rfl⟩

theorem witness_ResultsLand_14 : ∃ s : State, ∃ c : Nat, ∃ f : Flight, ∃ ws, ∃ o, ∃ pend, ∃ want, ((OneReady s c f) ∧ (f.load = none) ∧ (f.writes = ws ++ [.recomp o pend]) ∧ (ws.foldlM landSpec (s.core c) = some want)) :=
  ⟨flew { fl0 with writes := [.recomp 3 none] } penOne, 0, { fl0 with writes := [.recomp 3 none] }, [], 3, none, _, by and_intros <;> first | decide +kernel | exact rfl⟩

theorem witness_ResultsLand_15 : ∃ s : State, ∃ c : Nat, ∃ f : Flight, ∃ l, ((OneReady s c f) ∧ (f.load = some l) ∧ ((∃ e ∈ l.elems, e.bad = true)) ∧ (s.penOf c < s.pens.length) ∧ ((s.pen (s.penOf c)).stop = none)) :=
  ⟨flew { fl0 with load := some { kind := .desc 3, budget := 4, elems := [{ i := 0, bad := true, got := some [1] }] } } penOne, 0, { fl0 with load := some { kind := .desc 3, budget := 4, elems := [{ i := 0, bad := true, got := some [1] }] } }, { kind := .desc 3, budget := 4, elems := [{ i := 0, bad := true, got := some [1] }] }, by and_intros <;> decide +kernel⟩

theorem witness_ResultsLand_16 : ∃ s : State, ∃ c : Nat, ∃ f : Flight, ∃ want, (((s.core c).recomp = some (0, f))) ∧ (f.writes.foldlM landSpec (s.core c) = some want) :=
  ⟨one { recomp := some (0, { fl0 with writes := [.s 3 7] }) } .m, 0, { fl0 with writes := [.s 3 7] }, _, by decide +kernel, rfl⟩

theorem witness_LateResults_0 : ∃ s : State, ∃ h, ∃ w, ∃ ws, ((h < s.pens.length) ∧ ((s.pen h).live = true) ∧ ((s.pen h).ended = false) ∧ ((s.pen h).frozen = .running) ∧ ((s.pen h).rewind = 0) ∧ ((s.pen h).started = true) ∧ (s.pushWaits h = false) ∧ (s.awaited h = w :: ws) ∧ ((s.pen h).shift = 0)) :=
  ⟨waiting 20 penOne, 0, { core := 0, col := .v, slot := 1, it := 4, load := { fl0 with load := some { kind := .vchunk (.v 7) .fp32 1, budget := 4, elems := [{ i := 0 }], ext := 20 } } }, [], by and_intros <;> decide +kernel⟩

theorem witness_LateResults_1 : ∃ s : State, ∃ h, ∃ w, ∃ ws, ((h < s.pens.length) ∧ ((s.pen h).live = true) ∧ ((s.pen h).ended = false) ∧ ((s.pen h).frozen = .running) ∧ ((s.pen h).rewind = 0) ∧ ((s.pen h).started = true) ∧ (s.pushWaits h = false) ∧ (s.awaited h = w :: ws) ∧ (w.over (s.pen h).shift = false)) :=
  ⟨waiting 3 { penOne with shift := 1 }, 0, { core := 0, col := .v, slot := 1, it := 4, load := { fl0 with load := some { kind := .vchunk (.v 7) .fp32 1, budget := 4, elems := [{ i := 0 }], ext := 3 } } }, [], by and_intros <;> decide +kernel⟩

theorem witness_LateResults_2 : ∃ s : State, ∃ h, ∃ w, ((h < s.pens.length) ∧ ((s.pen h).live = true) ∧ ((s.pen h).frozen = .running) ∧ ((s.pen h).rewind = 0) ∧ (0 < (s.pen h).shift) ∧ ((s.pen h).hold = some .restart) ∧ (((s.pen h).started = true ∨ s.passes h = false)) ∧ (w ∈ s.awaited h) ∧ ((∀ l, w.load.load = some l → l.budget * (2 ^ (s.pen h).shift - 1) ≤ l.ext))) :=
  ⟨waiting 4 { penOne with shift := 1, hold := some .restart }, 0, { core := 0, col := .v, slot := 1, it := 4, load := { fl0 with load := some { kind := .vchunk (.v 7) .fp32 1, budget := 4, elems := [{ i := 0 }], ext := 4 } } }, by and_intros <;> first | decide +kernel | (intro l hl; obtain rfl := Option.some.inj hl; decide +kernel)⟩

theorem witness_LateResults_3 : ∃ s : State, ∃ h, ((s.pen h).rewind = 1) :=
  ⟨withPen { penOne with rewind := 1 }, 0, by decide +kernel⟩

theorem witness_LateResults_4 : ∃ s : State, ∃ h, ((s.pen h).rewind ≠ 1) :=
  ⟨one {} .s, 0, by decide +kernel⟩

theorem witness_LoadsAnswer_0 : ∃ s : State, ∃ src, ∃ dst, ∃ pre, ∃ m, ∃ post, ∃ a, ∃ b, ((s.mesh = pre ++ m :: post) ∧ ((∀ x ∈ pre, ¬ (x.src = src ∧ x.dst = dst))) ∧ (m.src = src) ∧ (m.dst = dst) ∧ (dst < 768) ∧ (s.coreCtx src = some a) ∧ (s.coreCtx dst = some b) ∧ (a ≠ b)) :=
  ⟨{ base with mesh := [msg0], pens := [penOne, { penOne with ctx := 2, col := 1 }] }, 0, 1, [], msg0, [], 1, 2, by and_intros <;> decide +kernel⟩

theorem witness_LoadsAnswer_1 : ∃ s : State, ∃ src, ∃ dst, ∃ pre, ∃ m, ∃ post, ((s.mesh = pre ++ m :: post) ∧ ((∀ x ∈ pre, ¬ (x.src = src ∧ x.dst = dst))) ∧ (m.src = src) ∧ (m.dst = dst) ∧ (dst < 768) ∧ ((∀ a b, s.coreCtx src = some a → s.coreCtx dst = some b → a = b)) ∧ (m.store = true)) :=
  ⟨{ base with mesh := [{ msg0 with dst := 0, store := true, bytes := [1, 2, 3, 4] }] }, 0, 0, [], { msg0 with dst := 0, store := true, bytes := [1, 2, 3, 4] }, [], by and_intros <;> first | decide +kernel | exact ⟨_, _, rfl⟩ | exact ⟨_, rfl⟩ | (intros; contradiction) | (intro a b h1 h2; rw [h1] at h2; exact Option.some.inj h2)⟩

theorem witness_LoadsAnswer_2 : ∃ s : State, ∃ src, ∃ dst, ∃ pre, ∃ m, ∃ post, ((s.mesh = pre ++ m :: post) ∧ ((∀ x ∈ pre, ¬ (x.src = src ∧ x.dst = dst))) ∧ (m.src = src) ∧ (m.dst = dst) ∧ (dst < 768) ∧ ((∀ a b, s.coreCtx src = some a → s.coreCtx dst = some b → a = b)) ∧ (m.store = false) ∧ (s.late = []) ∧ ((∀ k ∈ nearKeys m.addr m.len, k ∉ s.poison))) :=
  ⟨{ base with mesh := [{ msg0 with dst := 0 }] }, 0, 0, [], { msg0 with dst := 0 }, [], by and_intros <;> first | decide +kernel | exact ⟨_, _, rfl⟩ | exact ⟨_, rfl⟩ | (intros; contradiction) | (intro a b h1 h2; rw [h1] at h2; exact Option.some.inj h2)⟩

def wloadsAnswer3_pl : List (Nat × Nat) := okOf default (({ base with mesh := [{ msg0 with dst := 768, addr := 0x1000 }] }).places (({ base with mesh := [{ msg0 with dst := 768, addr := 0x1000 }] }).pen (({ base with mesh := [{ msg0 with dst := 768, addr := 0x1000 }] }).penOf (0))).ctx ({ msg0 with dst := 768, addr := 0x1000 }).addr ({ msg0 with dst := 768, addr := 0x1000 }).len .rd)

def wloadsAnswer3_bs : List Byte := okOf default (({ base with mesh := [{ msg0 with dst := 768, addr := 0x1000 }] }).readPlaces (({ base with mesh := [{ msg0 with dst := 768, addr := 0x1000 }] }).viewer (({ base with mesh := [{ msg0 with dst := 768, addr := 0x1000 }] }).pen (({ base with mesh := [{ msg0 with dst := 768, addr := 0x1000 }] }).penOf (0))).ctx (({ base with mesh := [{ msg0 with dst := 768, addr := 0x1000 }] }).coreAgent (({ base with mesh := [{ msg0 with dst := 768, addr := 0x1000 }] }).pen (({ base with mesh := [{ msg0 with dst := 768, addr := 0x1000 }] }).penOf (0))).ctx (0))) (wloadsAnswer3_pl) none)

theorem witness_LoadsAnswer_3 : ∃ s : State, ∃ src, ∃ dst, ∃ pre, ∃ m, ∃ post, ∃ pl, ∃ bs, ((s.mesh = pre ++ m :: post) ∧ ((∀ x ∈ pre, ¬ (x.src = src ∧ x.dst = dst))) ∧ (m.src = src) ∧ (m.dst = dst) ∧ (768 ≤ dst) ∧ (s.keyBound (s.pen (s.penOf src)).ctx = true)) ∧ (s.places (s.pen (s.penOf src)).ctx m.addr m.len .rd = .ok pl) ∧ (s.readPlaces (s.viewer (s.pen (s.penOf src)).ctx (s.coreAgent (s.pen (s.penOf src)).ctx src)) pl none = .ok bs) :=
  ⟨{ base with mesh := [{ msg0 with dst := 768, addr := 0x1000 }] }, 0, 768, [], { msg0 with dst := 768, addr := 0x1000 }, [], wloadsAnswer3_pl, wloadsAnswer3_bs, by and_intros <;> decide +kernel, okOf_eq _ _ (by decide +kernel), okOf_eq _ _ (by decide +kernel)⟩

theorem witness_LoadsAnswer_8 : ∃ s : State, ∃ src, ∃ dst, ∃ pre, ∃ m, ∃ post, ((s.mesh = pre ++ m :: post) ∧ ((∀ x ∈ pre, ¬ (x.src = src ∧ x.dst = dst))) ∧ (m.src = src) ∧ (m.dst = dst) ∧ (768 ≤ dst) ∧ (s.keyBound (s.pen (s.penOf src)).ctx = false)) :=
  ⟨unbound { base with mesh := [{ msg0 with dst := 768, addr := 0x1000 }] }, 0, 768, [], { msg0 with dst := 768, addr := 0x1000 }, [], by and_intros <;> decide +kernel⟩

theorem witness_LoadsAnswer_4 : ∃ s : State, ∃ c, ∃ pre, ∃ m, ∃ post, ((s.resps = pre ++ m :: post) ∧ ((∀ x ∈ pre, x.src ≠ c)) ∧ (m.src = c)) :=
  ⟨{ base with resps := [msg0] }, 0, [], msg0, [], by and_intros <;> decide +kernel⟩

theorem witness_LoadsAnswer_5 : ∃ s : State, ∃ d, ∃ pre, ∃ e, ∃ post, ((d < 4) ∧ ((s.die d).remote = pre ++ e :: post) ∧ ((∀ w ∈ pre ++ post, w.before e = false)) ∧ ((∀ x ∈ pre ++ post, ∃ w ∈ (s.die d).remote, w ≠ x ∧ w.before x = true)) ∧ (s.late = []) ∧ ((∀ x ∈ pre, ∀ o ∈ x.olds, ∀ o' ∈ e.olds, o.1 ≠ o'.1)) ∧ ((∀ x ∈ pre ++ post, x.olds ≠ []))) :=
  ⟨onDie { remote := [{ agent := { core := 0 }, stamp := [1], seq := 2, olds := [(0x1000, 7)] }, { agent := { core := 1 }, stamp := [2], olds := [(0x1001, 8)] }] }, 0, [], { agent := { core := 0 }, stamp := [1], seq := 2, olds := [(0x1000, 7)] }, [{ agent := { core := 1 }, stamp := [2], olds := [(0x1001, 8)] }], by and_intros <;> first | decide +kernel | exact ⟨_, _, rfl⟩ | exact ⟨_, rfl⟩ | (intros; contradiction) | (intro x hx; obtain rfl := List.mem_singleton.mp hx; exact ⟨{ agent := { core := 0 }, stamp := [1], seq := 2, olds := [(0x1000, 7)] }, by decide +kernel⟩)⟩

theorem witness_LoadsAnswer_6 : ∃ s : State, ∃ d, ((d < 4) ∧ ((s.die d).remote ≠ []) ∧ ((∀ w ∈ (s.die d).remote, ∀ x ∈ (s.die d).remote, w.before x = false))) :=
  ⟨onDie { remote := [{ agent := { core := 0 }, stamp := [1], olds := [(0x1000, 7)] }, { agent := { core := 1 }, stamp := [2], olds := [(0x1001, 8)] }] }, 0, by and_intros <;> decide +kernel⟩

theorem witness_LoadsAnswer_7 : ∃ s : State, ∃ d, ((d < 4) ∧ ((s.die d).remote = []) ∧ (s.late = [])) :=
  ⟨base, 0, by and_intros <;> decide +kernel⟩

theorem witness_SlotStart_0 : ∃ s : State, ∃ h : Nat, ((MayStart s h) ∧ (s.holds h = []) ∧ (((s.pen h).resuming = true ∨ s.isRestart h = false))) :=
  ⟨{ one {} .s with pens := [{ penOne with started := false }] }, 0, by and_intros <;> first | decide +kernel | exact ⟨_, _, rfl⟩ | exact ⟨_, rfl⟩ | (intros; contradiction)⟩

theorem witness_SlotStart_1 : ∃ s : State, ∃ h : Nat, ∃ r, ∃ col, ((MayStart s h) ∧ ((r, col) ∈ s.holds h) ∧ ((∀ x ∈ s.holds h, holdRank r ≤ holdRank x.1)) ∧ ((r ≠ .restart ∨ ∀ w ∈ s.awaited h, w.over (s.pen h).shift = false))) :=
  ⟨{ one {} .s with pens := [{ penOne with started := false, ckpt := 1 }] }, 0, .freeze, 0, by and_intros <;> decide +kernel⟩

theorem witness_SlotStart_2 : ∃ s : State, ∃ h : Nat, ∃ col, ((MayStart s h) ∧ ((.restart, col) ∈ s.holds h) ∧ ((∀ x ∈ s.holds h, x.1 = .restart)) ∧ ((s.pen h).shift = 0) ∧ (s.passes h = false)) :=
  ⟨{ one { flights := [{ fl0 with load := some { kind := .vchunk (.tx 1) .fp32 0, budget := 4, elems := [{ i := 0 }], ext := 20 } }] } .s with pens := [{ penOne with started := false }] }, 0, 1, by and_intros <;> first | decide +kernel | exact ⟨_, _, rfl⟩ | exact ⟨_, rfl⟩ | (intros; contradiction)⟩

theorem witness_SlotStart_3 : ∃ s : State, ∃ h : Nat, ∃ st, ((h < s.pens.length) ∧ ((s.pen h).live = true) ∧ ((s.pen h).ended = false) ∧ ((s.pen h).frozen = .running) ∧ ((s.pen h).rewind = 0) ∧ ((s.pen h).started = false) ∧ ((s.pen h).stop = some st) ∧ ((s.pen h).syncs = []) ∧ (s.pushWaits h = false)) :=
  ⟨{ one {} .s with pens := [{ penOne with started := false, stop := some { tstat := 5 } }] }, 0, { tstat := 5 }, by and_intros <;> decide +kernel⟩

theorem witness_SlotStart_4 : ∃ s : State, ∃ h : Nat, ((MayStart s h) ∧ (s.holds h = []) ∧ ((s.pen h).resuming = false) ∧ (s.isRestart h = true) ∧ ((∀ c ∈ (s.pen h).cores, (s.core c).cq = [] ∧ (s.core c).out = [] ∧ ∀ p : Fin 8, (s.core c).tx[p] = []))) :=
  ⟨{ one {} .s with pens := [{ penOne with started := false, afterSync := true }] }, 0, by and_intros <;> first | decide +kernel | exact ⟨_, _, rfl⟩ | exact ⟨_, rfl⟩ | (intros; contradiction)⟩

theorem witness_ChunkIssue_0 : ∃ s : State, ∃ c : Nat, ∃ st : Stream, ∃ h, ∃ d, ∃ ty, ∃ imm, ((OneGoing s c .v st) ∧ (st.col = .v) ∧ (st.instr = .vli h (.v d) ty imm) ∧ (st.next < h.beats)) :=
  ⟨going (stream0 (.vli { fold := 2 } (.v 3) .int16 0x12345) .v) {}, 0, stream0 (.vli { fold := 2 } (.v 3) .int16 0x12345) .v, { fold := 2 }, 3, .int16, 0x12345, by and_intros <;> decide +kernel⟩

theorem witness_ChunkIssue_1 : ∃ s : State, ∃ c : Nat, ∃ st : Stream, ∃ h, ∃ d, ∃ a, ∃ ty, ((OneGoing s c .v st) ∧ (st.col = .v) ∧ (st.instr = .vmov h (.v d) (.v a) ty)) :=
  ⟨going (stream0 (.vmov {} (.v 3) (.v 7) .fp32) .v) {}, 0, stream0 (.vmov {} (.v 3) (.v 7) .fp32) .v, {}, 3, 7, .fp32, by and_intros <;> decide +kernel⟩

theorem witness_ChunkIssue_2 : ∃ s : State, ∃ c : Nat, ∃ st : Stream, ∃ h, ∃ d, ∃ p : Fin 8, ∃ ty, ∃ cnt, ∃ tok : Tok, ((OneGoing s c .x st) ∧ (st.col = .x) ∧ (st.instr = .recvV h d p ty cnt) ∧ (((s.core c).rx[p]).avail.head? = some tok) ∧ ((tok.lanes (s.core c) ty (256 / ty.lane) (fun _ => {})).flags (fun (i : Nat) => (tok.lanes (s.core c) ty (256 / ty.lane) (fun _ => {})).on i && st.mask.getLsbD (st.next * (256 / ty.lane) + i)) &&& ~~~(s.core c).fsr &&& (s.core c).fen = 0)) :=
  ⟨going (stream0 (.recvV {} 3 1 .fp32 2) .x) { rx := rxOne 1 }, 0, stream0 (.recvV {} 3 1 .fp32 2) .x, {}, 3, 1, .fp32, 2, token1, by and_intros <;> decide +kernel⟩

theorem witness_ChunkIssue_3 : ∃ s : State, ∃ c : Nat, ∃ st : Stream, ∃ h, ∃ p : Fin 8, ∃ cnt, ∃ tok : Tok, ((OneGoing s c .x st) ∧ (st.col = .x) ∧ (st.instr = .drop h p cnt) ∧ (((s.core c).rx[p]).avail.head? = some tok)) :=
  ⟨going (stream0 (.drop {} 1 2) .x) { rx := rxOne 1 }, 0, stream0 (.drop {} 1 2) .x, {}, 1, 2, token1, by and_intros <;> decide +kernel⟩

theorem witness_ChunkIssue_4 : ∃ s : State, ∃ c : Nat, ∃ st : Stream, ∃ h, ∃ p : Fin 8, ∃ cnt, ((OneGoing s c .x st) ∧ (st.col = .x) ∧ (st.instr = .drop h p cnt) ∧ (((s.core c).rx[p]).avail = []) ∧ (s.penOf c < s.pens.length) ∧ (c ∈ (s.pen (s.penOf c)).cores)) :=
  ⟨going (stream0 (.drop {} 1 2) .x) {}, 0, stream0 (.drop {} 1 2) .x, {}, 1, 2, by and_intros <;> decide +kernel⟩

theorem witness_TokensTravel_0 : ∃ s : State, ∃ i, ∃ tok : Tok, ∃ rest, ((i < s.edges.length) ∧ ((s.edge i).flight = [tok :: rest]) ∧ (((s.core ((s.pen (s.edge i).dst).coreAt 0)).rx[(s.edgePort (s.edge i))]).q.length < 64)) :=
  ⟨edged 3, 0, token1, [], by and_intros <;> decide +kernel⟩

theorem witness_TokensTravel_1 : ∃ s : State, ∃ i, ∃ tok : Tok, ∃ rest, ((i < s.edges.length) ∧ ((s.edge i).flight = [tok :: rest]) ∧ (64 ≤ ((s.core ((s.pen (s.edge i).dst).coreAt 0)).rx[(s.edgePort (s.edge i))]).q.length)) :=
  ⟨edged 64, 0, token1, [], by and_intros <;> decide +kernel⟩

theorem witness_TokensTravel_2 : ∃ s : State, ∃ c, ∃ port, ∃ pre, ∃ d, ∃ post, ((s.dones = pre ++ d :: post) ∧ ((∀ x ∈ pre, ¬ (x.cmd.host = none ∧ x.cmd.core = c ∧ x.cmd.o.cp.val = port))) ∧ (d.cmd.host = none) ∧ (d.cmd.core = c) ∧ (d.cmd.o.cp.val = port) ∧ (d.clock = []) ∧ ((∀ x ∈ s.dones, x.cmd.o.ord = .none)) ∧ ((s.pen d.cmd.pen).frozen ≠ .cast) ∧ ((s.pen d.cmd.pen).live = true) ∧ ((s.pen d.cmd.pen).ended = false) ∧ (((s.core c).rx[d.cmd.o.cp]).q.length < 64) ∧ (d.cmd.zero = false) ∧ (d.eng < 256) ∧ (d.code < 256) ∧ (d.die < 4) ∧ (d.inst < 64) ∧ (c < 768)) :=
  ⟨finished 0 penOne, 0, 2, [], done0, [], by and_intros <;> decide +kernel⟩

theorem witness_TokensTravel_3 : ∃ s : State, ∃ c, ∃ port, ∃ pre, ∃ d, ∃ post, ((s.dones = pre ++ d :: post) ∧ ((∀ x ∈ pre, ¬ (x.cmd.host = none ∧ x.cmd.core = c ∧ x.cmd.o.cp.val = port))) ∧ (d.cmd.host = none) ∧ (d.cmd.core = c) ∧ (d.cmd.o.cp.val = port) ∧ (d.clock = []) ∧ ((∀ x ∈ s.dones, x.cmd.o.ord = .none)) ∧ ((s.pen d.cmd.pen).frozen ≠ .cast) ∧ ((s.pen d.cmd.pen).live = false ∨ (s.pen d.cmd.pen).ended = true)) :=
  ⟨finished 0 { penOne with live := false }, 0, 2, [], done0, [], by and_intros <;> decide +kernel⟩

theorem witness_TokensTravel_4 : ∃ s : State, ∃ c, ∃ port, ∃ pre, ∃ d, ∃ post, ((s.dones = pre ++ d :: post) ∧ ((∀ x ∈ pre, ¬ (x.cmd.host = none ∧ x.cmd.core = c ∧ x.cmd.o.cp.val = port))) ∧ (d.cmd.host = none) ∧ (d.cmd.core = c) ∧ (d.cmd.o.cp.val = port) ∧ (d.clock = []) ∧ ((∀ x ∈ s.dones, x.cmd.o.ord = .none)) ∧ ((s.pen d.cmd.pen).frozen = .cast)) :=
  ⟨finished 0 { penOne with frozen := .cast }, 0, 2, [], done0, [], by and_intros <;> decide +kernel⟩

theorem witness_TokensTravel_5 : ∃ s : State, ∃ c, ∃ port, ∃ pre, ∃ d, ∃ post, ((s.dones = pre ++ d :: post) ∧ ((∀ x ∈ pre, ¬ (x.cmd.host = none ∧ x.cmd.core = c ∧ x.cmd.o.cp.val = port))) ∧ (d.cmd.host = none) ∧ (d.cmd.core = c) ∧ (d.cmd.o.cp.val = port) ∧ (d.clock = []) ∧ ((∀ x ∈ s.dones, x.cmd.o.ord = .none)) ∧ ((s.pen d.cmd.pen).frozen ≠ .cast) ∧ ((s.pen d.cmd.pen).live = true) ∧ ((s.pen d.cmd.pen).ended = false) ∧ (64 ≤ ((s.core c).rx[d.cmd.o.cp]).q.length)) :=
  ⟨finished 64 penOne, 0, 2, [], done0, [], by and_intros <;> decide +kernel⟩

theorem witness_TokensTravel_6 : ∃ s : State, ∃ c, ∃ m, ∃ rest, (((s.core c).out = m :: rest) ∧ (m.core = c) ∧ (m.zero = true)) :=
  ⟨sending ({ cmd0 with zero := true }) {}, 0, { cmd0 with zero := true }, [], by and_intros <;> decide +kernel⟩

theorem witness_TokensTravel_7 : ∃ s : State, ∃ c, ∃ m, ∃ rest, (((s.core c).out = m :: rest) ∧ (m.core = c) ∧ (m.zero = false) ∧ (m.ladleKind.isSome = true) ∧ (c < 768) ∧ ((s.core c).eng < 16) ∧ ((((s.die (coreDie c)).ladle.toList.getD ((s.core c).eng) []).length + (s.dones.filter (fun x => x.eng = 1 ∧ x.die = coreDie c ∧ x.inst = ((s.core c).eng))).length) < 64)) :=
  ⟨sending (cmd0) {}, 0, cmd0, [], by and_intros <;> decide +kernel⟩

theorem witness_TokensTravel_8 : ∃ s : State, ∃ c, ∃ m, ∃ rest, (((s.core c).out = m :: rest) ∧ (m.core = c) ∧ (m.zero = false) ∧ (m.ladleKind.isSome = true) ∧ (c < 768) ∧ ((s.core c).eng < 16) ∧ (64 ≤ (((s.die (coreDie c)).ladle.toList.getD ((s.core c).eng) []).length + (s.dones.filter (fun x => x.eng = 1 ∧ x.die = coreDie c ∧ x.inst = ((s.core c).eng))).length))) :=
  ⟨sending (cmd0) { ladle := (Vector.replicate 16 []).set 0 (List.replicate 64 { cmd := cmd0 }) }, 0, cmd0, [], by and_intros <;> decide +kernel⟩

theorem witness_TokensTravel_9 : ∃ s : State, ∃ c, ∃ m, ∃ rest, ∃ h : Hdr, ∃ o : F6, (((s.core c).out = m :: rest) ∧ (m.core = c) ∧ (m.zero = false) ∧ (m.word = .cfgld h o ∨ m.word = .swap h o) ∧ (c < 768) ∧ (((s.die (coreDie c)).loader.length + (s.dones.filter (fun x => x.eng = 5 ∧ x.die = coreDie c)).length) < 8)) :=
  ⟨sending ({ cmd0 with word := .swap {} {} }) {}, 0, { cmd0 with word := .swap {} {} }, [], {}, {}, by and_intros <;> decide +kernel⟩

theorem witness_TokensTravel_10 : ∃ s : State, ∃ c, ∃ m, ∃ rest, ∃ h : Hdr, ∃ o : F6, (((s.core c).out = m :: rest) ∧ (m.core = c) ∧ (m.zero = false) ∧ (m.word = .cfgld h o ∨ m.word = .swap h o) ∧ (c < 768) ∧ (8 ≤ ((s.die (coreDie c)).loader.length + (s.dones.filter (fun x => x.eng = 5 ∧ x.die = coreDie c)).length))) :=
  ⟨sending ({ cmd0 with word := .swap {} {} }) { loader := List.replicate 8 cmd0 }, 0, { cmd0 with word := .swap {} {} }, [], {}, {}, by and_intros <;> decide +kernel⟩

theorem witness_TokensTravel_11 : ∃ s : State, ∃ c, ((s.core c).out = []) :=
  ⟨base, 0, by decide +kernel⟩

theorem witness_EngineSteps_0 : ∃ s : State, ∃ die, ∃ e, ∃ j, ∃ rest, ∃ r, ∃ n, ∃ a, ∃ b, ∃ la, ∃ lb, ∃ f, (((s.die die).ladle.toList.getD e [] = j :: rest) ∧ (PlainJob j) ∧ (j.pos = 0) ∧ (j.wrote = 0) ∧ (j.list = []) ∧ (j.cmd.ladleKind = some 1) ∧ (j.cmd.ladleRec = some r) ∧ (RowCopy r n) ∧ (j.cmd.img.length = 64) ∧ (NearRow (s.pen j.cmd.pen) (BitVec.ofNat 256 (leNat (j.cmd.img.take 32))) a la f) ∧ (NearRow (s.pen j.cmd.pen) (BitVec.ofNat 256 (leNat (j.cmd.img.drop 32))) b lb f) ∧ (byteFmt f) ∧ (n ≤ la) ∧ (n ≤ lb) ∧ ((s.pen j.cmd.pen).trk = 0) ∧ (s.late = []) ∧ (s.poison = []) ∧ (s.keyBound j.cmd.ctx = true) ∧ (NoAnswerDue s j) ∧ ((∀ i ∈ [r.src, r.dst], (s.xlatePa j.cmd.ctx ((s.pen j.cmd.pen).tdt.toNat + 32 * i) .rd).toOption.any paPeer = false))) :=
  ⟨onDie { ladle := (Vector.replicate 16 []).set 0 [ladleJob] }, 0, 0, ladleJob, [], ladleJob.cmd.ladleRec.getD (shortRec cmd0 false), 5, 0x1000, 0x1004, 100, 100, .fp32, by and_intros <;> first | decide +kernel | exact ⟨_, _, rfl⟩ | exact ⟨_, rfl⟩ | (intros; contradiction) | exact .inl rfl⟩

theorem witness_EngineSteps_1 : ∃ s : State, ∃ die, ∃ e, ((s.die die).ladle.toList.getD e [] = []) :=
  ⟨base, 0, 0, by decide +kernel⟩

def wengineSteps2_pl : List (Nat × Nat) := okOf default ((onDie { bell := [bellJob 0x1000] }).places (bellJob 0x1000).cmd.ctx (bellJob 0x1000).cmd.cmd.toNat (4) .atomic)

def wengineSteps2_bs : List Byte := okOf default ((onDie { bell := [bellJob 0x1000] }).readPlaces ((onDie { bell := [bellJob 0x1000] }).home (bellJob 0x1000).cmd.ctx) (wengineSteps2_pl) none)

def wengineSteps2_new : Nat := (atomSpec (4) (false) (leNat (wengineSteps2_bs)) ((bellJob 0x1000).cmd.a.toNat % 2 ^ (8 * (4))) ((bellJob 0x1000).cmd.b.toNat % 2 ^ (8 * (4))) (bellJob 0x1000).cmd.word).getD default

def wengineSteps2_s' : State := okOf default ((onDie { bell := [bellJob 0x1000] }).writePlaces (some ((onDie { bell := [bellJob 0x1000] }).agent (bellJob 0x1000).cmd)) (bellJob 0x1000).cmd.ctx (wengineSteps2_pl) (leBytes (4) (wengineSteps2_new)))

theorem witness_EngineSteps_2 : ∃ s : State, ∃ die, ∃ j, ∃ rest, ∃ n, ∃ z, ∃ pl, ∃ bs, ∃ new, ∃ s', (((s.die die).bell = j :: rest) ∧ (PlainJob j) ∧ (atomType (j.cmd.o.sub.val % 8) = some (n, z)) ∧ (splitAtomic pl = false) ∧ (NoAnswerDue s j) ∧ ((∀ p ∈ pl, paPeer p.1 = false)) ∧ (j.cmd.cmd.toNat % n = 0) ∧ (atomSpec n z (leNat bs) (j.cmd.a.toNat % 2 ^ (8 * n)) (j.cmd.b.toNat % 2 ^ (8 * n)) j.cmd.word = some new) ∧ (s.keyBound j.cmd.ctx = true)) ∧ (s.places j.cmd.ctx j.cmd.cmd.toNat n .atomic = .ok pl) ∧ (s.readPlaces (s.home j.cmd.ctx) pl none = .ok bs) ∧ (s.writePlaces (some (s.agent j.cmd)) j.cmd.ctx pl (leBytes n new) = .ok s') :=
  ⟨onDie { bell := [bellJob 0x1000] }, 0, bellJob 0x1000, [], 4, false, wengineSteps2_pl, wengineSteps2_bs, wengineSteps2_new, wengineSteps2_s', by and_intros <;> decide +kernel, okOf_eq _ _ (by decide +kernel), okOf_eq _ _ (by decide +kernel), okOf_eq _ _ (by decide +kernel)⟩

theorem witness_EngineSteps_3 : ∃ s : State, ∃ die, ∃ j, ∃ rest, ∃ n, ∃ z, ∃ i, (((s.die die).bell = j :: rest) ∧ (PlainJob j) ∧ (atomType (j.cmd.o.sub.val % 8) = some (n, z)) ∧ (j.cmd.word = i) ∧ ((∃ new, atomSpec n z 0 0 0 i = some new)) ∧ (j.cmd.cmd.toNat % n ≠ 0) ∧ (s.keyBound j.cmd.ctx = true) ∧ (NoAnswerDue s j)) :=
  ⟨onDie { bell := [bellJob 0x1001] }, 0, bellJob 0x1001, [], 4, false, .aadd {} {}, by and_intros <;> first | decide +kernel | exact ⟨_, _, rfl⟩ | exact ⟨_, rfl⟩ | (intros; contradiction)⟩

theorem witness_EngineSteps_4 : ∃ s : State, ∃ die, ∃ j, ∃ rest, (((s.die die).bell = j :: rest) ∧ (PlainJob j) ∧ (NoAnswerDue s j) ∧ (s.keyBound j.cmd.ctx = false)) :=
  ⟨unbound (onDie { bell := [bellJob 0x1000] }), 0, bellJob 0x1000, [], by and_intros <;> decide +kernel⟩

theorem witness_EngineSteps_5 : ∃ s : State, ∃ die, ∃ e, ∃ j, ∃ rest, (((s.die die).ladle.toList.getD e [] = j :: rest) ∧ (PlainJob j) ∧ (NoAnswerDue s j) ∧ (s.keyBound j.cmd.ctx = false)) :=
  ⟨unbound (onDie { ladle := (Vector.replicate 16 []).set 0 [ladleJob] }), 0, 0, ladleJob, [], by and_intros <;> decide +kernel⟩

theorem witness_EngineSteps_6 : ∃ s : State, ∃ die, ((s.die die).bell = []) :=
  ⟨base, 0, by decide +kernel⟩

def wengineSteps7_pl : List (Nat × Nat) := okOf default (({ onDie { bell := [bellJob 0x1000] } with ctxs := [(1, peerCtx)] }).places (bellJob 0x1000).cmd.ctx (bellJob 0x1000).cmd.cmd.toNat (4) .atomic)

def wengineSteps7_bs : List Byte := okOf default (({ onDie { bell := [bellJob 0x1000] } with ctxs := [(1, peerCtx)] }).readPlaces (({ onDie { bell := [bellJob 0x1000] } with ctxs := [(1, peerCtx)] }).home (bellJob 0x1000).cmd.ctx) (wengineSteps7_pl) none)

theorem witness_EngineSteps_7 : ∃ s : State, ∃ die, ∃ j, ∃ rest, ∃ n, ∃ z, ∃ pl, ∃ bs, ∃ pa, (((s.die die).bell = j :: rest) ∧ (PlainJob j) ∧ ((∀ x ∈ rest, x.cmd.o.ord = .none)) ∧ (atomType (j.cmd.o.sub.val % 8) = some (n, z)) ∧ ((∃ new, atomSpec n z 0 0 0 j.cmd.word = some new)) ∧ ((pl.headD (0, 0)).1 = pa) ∧ (paPeer pa = true) ∧ (j.cmd.cmd.toNat % n = 0) ∧ (s.keyBound j.cmd.ctx = true) ∧ ((∀ x ∈ s.svc.peers, x.2.cmd ≠ j.cmd.id))) ∧ (s.places j.cmd.ctx j.cmd.cmd.toNat n .atomic = .ok pl) ∧ (s.readPlaces (s.home j.cmd.ctx) pl none = .ok bs) :=
  ⟨{ onDie { bell := [bellJob 0x1000] } with ctxs := [(1, peerCtx)] }, 0, bellJob 0x1000, [], 4, false, wengineSteps7_pl, wengineSteps7_bs, 0x5000000001000, by and_intros <;> first | decide +kernel | exact ⟨_, _, rfl⟩ | exact ⟨_, rfl⟩ | (intros; contradiction), okOf_eq _ _ (by decide +kernel), okOf_eq _ _ (by decide +kernel)⟩

def wwaitSteps0_pl : List (Nat × Nat) := okOf default ((onDie { waits := [waitJob 0] }).places (waitJob 0).cmd.ctx (waitJob 0).cmd.cmd.toNat (4) .rd)

def wwaitSteps0_bs : List Byte := okOf default ((onDie { waits := [waitJob 0] }).readPlaces ((onDie { waits := [waitJob 0] }).home (waitJob 0).cmd.ctx) (wwaitSteps0_pl) none)

theorem witness_WaitSteps_0 : ∃ s : State, ∃ die, ∃ n : Nat, ∃ j : Job, ∃ h, ∃ o, ∃ b, ∃ z, ∃ pl, ∃ bs, ((die < 4) ∧ ((s.die die).waits[n]? = some j) ∧ (QuietJob j) ∧ (j.cmd.word = .awaitSync h o) ∧ (j.cmd.sync = true) ∧ (atomType (j.cmd.o.sub.val % 8) = some (b, z)) ∧ (j.cmd.cmd.toNat % b = 0) ∧ (NoAnswerDue s j) ∧ ((∀ p ∈ pl, paPeer p.1 = false)) ∧ (s.keyBound j.cmd.ctx = true) ∧ ((∃ v ∈ j.seen ++ [leNat bs], awaitSpec b (j.cmd.o.sub.val / 8 % 8) v (j.cmd.a.toNat % 2 ^ (8 * b))))) ∧ (s.places j.cmd.ctx j.cmd.cmd.toNat b .rd = .ok pl) ∧ (s.readPlaces (s.home j.cmd.ctx) pl none = .ok bs) :=
  ⟨onDie { waits := [waitJob 0] }, 0, 0, waitJob 0, { hold := 2 }, {}, 4, false, wwaitSteps0_pl, wwaitSteps0_bs, by and_intros <;> first | decide +kernel | exact ⟨_, _, rfl⟩ | exact ⟨_, rfl⟩ | (intros; contradiction) | (unfold awaitSpec; decide +kernel), okOf_eq _ _ (by decide +kernel), okOf_eq _ _ (by decide +kernel)⟩

def wwaitSteps1_pl : List (Nat × Nat) := okOf default ((onDie { waits := [waitJob 3] }).places (waitJob 3).cmd.ctx (waitJob 3).cmd.cmd.toNat (4) .rd)

def wwaitSteps1_bs : List Byte := okOf default ((onDie { waits := [waitJob 3] }).readPlaces ((onDie { waits := [waitJob 3] }).home (waitJob 3).cmd.ctx) (wwaitSteps1_pl) none)

theorem witness_WaitSteps_1 : ∃ s : State, ∃ die, ∃ n : Nat, ∃ j : Job, ∃ h, ∃ o, ∃ b, ∃ z, ∃ pl, ∃ bs, ((die < 4) ∧ ((s.die die).waits[n]? = some j) ∧ (QuietJob j) ∧ (j.cmd.word = .awaitSync h o) ∧ (j.cmd.sync = true) ∧ (atomType (j.cmd.o.sub.val % 8) = some (b, z)) ∧ (j.cmd.cmd.toNat % b = 0) ∧ (NoAnswerDue s j) ∧ ((∀ p ∈ pl, paPeer p.1 = false)) ∧ (s.keyBound j.cmd.ctx = true) ∧ ((∀ v ∈ j.seen ++ [leNat bs], ¬ awaitSpec b (j.cmd.o.sub.val / 8 % 8) v (j.cmd.a.toNat % 2 ^ (8 * b))))) ∧ (s.places j.cmd.ctx j.cmd.cmd.toNat b .rd = .ok pl) ∧ (s.readPlaces (s.home j.cmd.ctx) pl none = .ok bs) :=
  ⟨onDie { waits := [waitJob 3] }, 0, 0, waitJob 3, { hold := 2 }, {}, 4, false, wwaitSteps1_pl, wwaitSteps1_bs, by and_intros <;> first | decide +kernel | exact ⟨_, _, rfl⟩ | exact ⟨_, rfl⟩ | (intros; contradiction) | (unfold awaitSpec; decide +kernel), okOf_eq _ _ (by decide +kernel), okOf_eq _ _ (by decide +kernel)⟩

theorem witness_WaitSteps_2 : ∃ s : State, ∃ die, ∃ n : Nat, ∃ j : Job, ∃ h, ∃ o, ((die < 4) ∧ ((s.die die).waits[n]? = some j) ∧ (QuietJob j) ∧ (j.cmd.word = .bwait h o) ∧ ((s.die die).arrivals = []) ∧ (Tab.find (s.core j.cmd.core).arrGen (s.barKey j.cmd) = none)) :=
  ⟨onDie { waits := [bwaitJob] }, 0, 0, bwaitJob, { hold := 2 }, { sc := .quad }, by and_intros <;> first | decide +kernel | exact ⟨_, _, rfl⟩ | exact ⟨_, rfl⟩ | (intros; contradiction)⟩

theorem witness_WaitSteps_3 : ∃ s : State, ∃ die, ∃ n : Nat, ∃ j : Job, ∃ due, ∃ more, ∃ h, ∃ o, ∃ b, ∃ z, ((die < 4) ∧ ((s.die die).waits[n]? = some j) ∧ (j.list = due :: more) ∧ (j.cmd.o.ord = .none) ∧ (j.cmd.word = .awaitAsync h o) ∧ (atomType (j.cmd.o.sub.val % 8) = some (b, z)) ∧ (due ≤ s.time) ∧ ((∀ v ∈ j.seen, ¬ awaitSpec b (j.cmd.o.sub.val / 8 % 8) v (j.cmd.a.toNat % 2 ^ (8 * b))))) :=
  ⟨{ onDie { waits := [timedJob 5] } with time := 9 }, 0, 0, timedJob 5, 9, [], {}, {}, 4, false, by and_intros <;> first | decide +kernel | exact ⟨_, _, rfl⟩ | exact ⟨_, rfl⟩ | (intros; contradiction) | (unfold awaitSpec; decide +kernel)⟩

theorem witness_WaitSteps_4 : ∃ s : State, ∃ die, ∃ n : Nat, ∃ j : Job, ∃ due, ∃ more, ∃ h, ∃ o, ∃ b, ∃ z, ((die < 4) ∧ ((s.die die).waits[n]? = some j) ∧ (j.list = due :: more) ∧ (j.cmd.o.ord = .none) ∧ (j.cmd.word = .awaitAsync h o) ∧ (atomType (j.cmd.o.sub.val % 8) = some (b, z)) ∧ ((∃ v ∈ j.seen, awaitSpec b (j.cmd.o.sub.val / 8 % 8) v (j.cmd.a.toNat % 2 ^ (8 * b))))) :=
  ⟨{ onDie { waits := [timedJob 3] } with time := 9 }, 0, 0, timedJob 3, 9, [], {}, {}, 4, false, by and_intros <;> first | decide +kernel | exact ⟨_, _, rfl⟩ | exact ⟨_, rfl⟩ | (intros; contradiction) | (unfold awaitSpec; decide +kernel)⟩

theorem witness_WaitSteps_5 : ∃ s : State, ∃ die, ∃ n : Nat, ∃ j : Job, ∃ due, ∃ more, ∃ h, ∃ o, ∃ b, ∃ z, ((die < 4) ∧ ((s.die die).waits[n]? = some j) ∧ (j.list = due :: more) ∧ (j.cmd.o.ord = .none) ∧ (j.cmd.word = .awaitAsync h o) ∧ (atomType (j.cmd.o.sub.val % 8) = some (b, z)) ∧ (s.time < due)) :=
  ⟨{ onDie { waits := [timedJob 5] } with time := 8 }, 0, 0, timedJob 5, 9, [], {}, {}, 4, false, by and_intros <;> first | decide +kernel | exact ⟨_, _, rfl⟩ | exact ⟨_, rfl⟩ | (intros; contradiction)⟩

theorem witness_WaitSteps_11 : ∃ s : State, ∃ die, ∃ n : Nat, ∃ j : Job, ∃ h, ∃ o, (((s.die die).waits[n]? = some j) ∧ (QuietJob j) ∧ ((j.cmd.word = .awaitSync h o ∨ j.cmd.word = .awaitAsync h o ∨ j.cmd.word = .liter h o)) ∧ (NoAnswerDue s j) ∧ (s.keyBound j.cmd.ctx = false)) :=
  ⟨unbound (onDie { waits := [waitJob 0] }), 0, 0, waitJob 0, { hold := 2 }, {}, by and_intros <;> first | decide +kernel | exact ⟨_, _, rfl⟩ | exact ⟨_, rfl⟩ | (intros; contradiction) | exact .inl rfl⟩

theorem witness_WaitSteps_6 : ∃ s : State, ∃ die, ∃ n : Nat, ((s.die die).waits[n]? = none) :=
  ⟨base, 0, 0, by decide +kernel⟩

theorem witness_WaitSteps_7 : ∃ s : State, ∃ die, ∃ n : Nat, ((s.die die).waits[n]? = none) :=
  ⟨base, 0, 0, by decide +kernel⟩

theorem witness_WaitSteps_8 : ∃ s : State, ∃ die, ∃ m, ∃ rest, ∃ b, ((die < 4) ∧ ((s.die die).arrivals = m :: rest) ∧ ((∃ h o, m.word = .bar h o)) ∧ (m.o.ord = .none) ∧ ((∀ x ∈ rest, x.o.ord = .none)) ∧ (m.o.sc ≠ .pod) ∧ (1 ≤ m.a.toNat) ∧ (m.a.toNat ≤ (match m.o.sc with | .quad => 4 | .die => 192 | _ => 2 ^ 32)) ∧ (b = (Tab.find (s.die die).bars (s.barKey m)).getD {}) ∧ ((b.count = 0 ∨ b.expected = m.a.toNat)) ∧ (b.count + 1 < m.a.toNat)) :=
  ⟨onDie { arrivals := [arrival 3] }, 0, arrival 3, [], {}, by and_intros <;> first | decide +kernel | exact ⟨_, _, rfl⟩ | exact ⟨_, rfl⟩ | (intros; contradiction)⟩

theorem witness_WaitSteps_9 : ∃ s : State, ∃ die, ∃ m, ∃ rest, ∃ b, ((die < 4) ∧ ((s.die die).arrivals = m :: rest) ∧ ((∃ h o, m.word = .bar h o)) ∧ (m.o.ord = .none) ∧ ((∀ x ∈ rest, x.o.ord = .none)) ∧ (m.o.sc ≠ .pod) ∧ (1 ≤ m.a.toNat) ∧ (m.a.toNat ≤ (match m.o.sc with | .quad => 4 | .die => 192 | _ => 2 ^ 32)) ∧ (b = (Tab.find (s.die die).bars (s.barKey m)).getD {}) ∧ ((b.count = 0 ∨ b.expected = m.a.toNat)) ∧ (m.a.toNat ≤ b.count + 1) ∧ ((∀ w ∈ b.waiting, w.o.ord = .none))) :=
  ⟨onDie { arrivals := [arrival 1] }, 0, arrival 1, [], {}, by and_intros <;> first | decide +kernel | exact ⟨_, _, rfl⟩ | exact ⟨_, rfl⟩ | (intros; contradiction)⟩

theorem witness_WaitSteps_10 : ∃ s : State, ∃ die, ∃ m, ∃ rest, ∃ b, ((die < 4) ∧ ((s.die die).arrivals = m :: rest) ∧ ((∃ h o, m.word = .arrive h o)) ∧ (m.o.ord = .none) ∧ ((∀ x ∈ rest, x.o.ord = .none)) ∧ (m.o.sc ≠ .pod) ∧ (1 ≤ m.a.toNat) ∧ (m.a.toNat ≤ (match m.o.sc with | .quad => 4 | .die => 192 | _ => 2 ^ 32)) ∧ (b = (Tab.find (s.die die).bars (s.barKey m)).getD {}) ∧ ((b.count = 0 ∨ b.expected = m.a.toNat)) ∧ (b.count + 1 < m.a.toNat)) :=
  ⟨onDie { arrivals := [arrival' 3] }, 0, arrival' 3, [], {}, by and_intros <;> first | decide +kernel | exact ⟨_, _, rfl⟩ | exact ⟨_, rfl⟩ | (intros; contradiction)⟩

theorem witness_DroveSteps_0 : ∃ s : State, ∃ die : Nat, ∃ ch : Nat, ((die < 4) ∧ (ch < 4) ∧ (chainBusy s (s.chain die ch))) :=
  ⟨onChain { acc := some 5 }, 0, 0, by and_intros <;> first | decide +kernel | exact ⟨_, _, rfl⟩ | exact ⟨_, rfl⟩ | (intros; contradiction) | exact ⟨_, rfl, by decide +kernel⟩⟩

theorem witness_DroveSteps_1 : ∃ s : State, ∃ die : Nat, ∃ ch : Nat, ∃ r, ∃ rest, ((die < 4) ∧ (ch < 4) ∧ (¬ chainBusy s (s.chain die ch)) ∧ ((s.chain die ch).recirc = r :: rest) ∧ (r.t0 ≤ s.time)) :=
  ⟨onChain { recirc := [rec0] }, 0, 0, rec0, [], by and_intros <;> first | decide +kernel | exact ⟨_, _, rfl⟩ | exact ⟨_, rfl⟩ | (intros; contradiction) | (rintro ⟨x, h, -⟩; exact nomatch (show (none : Option Nat) = some _ from h))⟩

theorem witness_DroveSteps_2 : ∃ s : State, ∃ die : Nat, ∃ ch : Nat, ∃ r, ∃ rest, ((die < 4) ∧ (ch < 4) ∧ (¬ chainBusy s (s.chain die ch)) ∧ ((s.chain die ch).recirc = []) ∧ ((s.chain die ch).waiting = r :: rest) ∧ ((∀ x ∈ (s.chain die ch).sends, x.1.o.ord = .none)) ∧ (64 ≤ (s.chain die ch).exits.length)) :=
  ⟨onChain { waiting := [rec0], exits := List.replicate 64 rec0 }, 0, 0, rec0, [], by and_intros <;> first | decide +kernel | exact ⟨_, _, rfl⟩ | exact ⟨_, rfl⟩ | (intros; contradiction) | (rintro ⟨x, h, -⟩; exact nomatch (show (none : Option Nat) = some _ from h))⟩

theorem witness_DroveSteps_3 : ∃ s : State, ∃ die : Nat, ∃ ch : Nat, ∃ r, ∃ rest, ∃ m, ∃ n, ((die < 4) ∧ (ch < 4) ∧ (¬ chainBusy s (s.chain die ch)) ∧ ((s.chain die ch).recirc = []) ∧ ((s.chain die ch).waiting = r :: rest) ∧ ((s.chain die ch).exits.length < 64) ∧ ((s.chain die ch).sends = [(m, n)]) ∧ (m.id = r.id) ∧ (m.o.ord = .none)) :=
  ⟨onChain { waiting := [rec0], sends := [(cmd0, 2)] }, 0, 0, rec0, [], cmd0, 2, by and_intros <;> first | decide +kernel | exact ⟨_, _, rfl⟩ | exact ⟨_, rfl⟩ | (intros; contradiction) | (rintro ⟨x, h, -⟩; exact nomatch (show (none : Option Nat) = some _ from h))⟩

theorem witness_DroveSteps_4 : ∃ s : State, ∃ die : Nat, ∃ ch : Nat, ∃ n, ∃ pre, ∃ r, ∃ post, ((die < 4) ∧ (ch < 4) ∧ (n < 12) ∧ ((s.chain die ch).recs = pre ++ r :: post) ∧ ((∀ x ∈ pre, ¬ reached s n x)) ∧ (reached s n r) ∧ (cfgOf ((s.chain die ch).stage n) r = 0)) :=
  ⟨onChain { recs := [rec0] }, 0, 0, 0, [], rec0, [], by and_intros <;> first | decide +kernel | exact ⟨_, _, rfl⟩ | exact ⟨_, rfl⟩ | (intros; contradiction) | (unfold reached; decide +kernel)⟩

theorem witness_DroveSteps_5 : ∃ s : State, ∃ die : Nat, ∃ ch : Nat, ∃ n, ∃ pre, ∃ r, ∃ post, ∃ d : Fin 16, ∃ x : Fin 16, ((die < 4) ∧ (ch < 4) ∧ (n < 12) ∧ ((s.chain die ch).recs = pre ++ r :: post) ∧ ((∀ x ∈ pre, ¬ reached s n x)) ∧ (reached s n r) ∧ (cfgOf ((s.chain die ch).stage n) r = BitVec.ofNat 512 ((3 * 2 ^ 19 + d.val * 2 ^ 15 + x.val * 2 ^ 11) * 2 ^ 104)) ∧ (r.f.length = 16)) :=
  ⟨onChain { recs := [rec0], stages := (Vector.replicate 12 {}).set 0 shaped }, 0, 0, 0, [], rec0, [], 2, 5, by and_intros <;> first | decide +kernel | exact ⟨_, _, rfl⟩ | exact ⟨_, rfl⟩ | (intros; contradiction) | (unfold reached; decide +kernel)⟩

theorem witness_DroveSteps_6 : ∃ s : State, ∃ die : Nat, ∃ ch : Nat, ∃ n, ((die < 4) ∧ (ch < 4) ∧ ((∀ x ∈ (s.chain die ch).recs, ¬ reached s n x))) :=
  ⟨onChain {}, 0, 0, 3, by and_intros <;> first | decide +kernel | exact ⟨_, _, rfl⟩ | exact ⟨_, rfl⟩ | (intros; contradiction) | (unfold reached; decide +kernel)⟩

theorem witness_DroveSteps_7 : ∃ s : State, ∃ die : Nat, ∃ ch : Nat, ∃ r, ∃ rest, ∃ v, ∃ rt, ((die < 4) ∧ (ch < 4) ∧ ((s.chain die ch).recs = r :: rest) ∧ (r.stage = 12) ∧ (r.t0 + 48 ≤ s.time) ∧ ((s.chain die ch).exits = []) ∧ (r.f.length = 16) ∧ (r.dest.toNat / 512 = 0) ∧ (v = (if r.ver = 0 then (0 : Fin 2) else 1)) ∧ (r.dest.toNat % 256 ∉ (s.chain die ch).badRt[v]) ∧ (Tab.find (s.chain die ch).routes[v] (r.dest.toNat % 256) = some rt) ∧ (rt.getLsbD 63 = true) ∧ ((s.coreCtx (nearCore (rt.toNat % 2 ^ 32)) = none ∨ s.coreCtx (nearCore (rt.toNat % 2 ^ 32)) = some ((s.chain die ch).owner.getD 0))) ∧ ((∀ p ∈ s.pens, p.ended = true ∨ p.frozen ≠ .cast ∨ (nearCore (rt.toNat % 2 ^ 32)) ∉ p.cores)) ∧ (((s.core (nearCore (rt.toNat % 2 ^ 32))).rx[(Fin.ofNat 8 (rt.toNat / 2 ^ 35))]).q.length ≤ 61)) :=
  ⟨{ onChain { owner := some 1, recs := [rec12], routes := Vector.replicate 2 [(3, BitVec.ofNat 512 (2 ^ 63 + 2 * 2 ^ 35))] } with time := 50 }, 0, 0, rec12, [], 0, BitVec.ofNat 512 (2 ^ 63 + 2 * 2 ^ 35), by and_intros <;> first | decide +kernel | exact ⟨_, _, rfl⟩ | exact ⟨_, rfl⟩ | (intros; contradiction) | exact .inr rfl⟩

theorem witness_DroveSteps_8 : ∃ s : State, ∃ die : Nat, ∃ ch : Nat, ∃ r, ∃ rest, ∃ v, ∃ rt, ((die < 4) ∧ (ch < 4) ∧ ((s.chain die ch).recs = r :: rest) ∧ (r.stage = 12) ∧ (r.t0 + 48 ≤ s.time) ∧ ((s.chain die ch).exits = []) ∧ (r.f.length = 16) ∧ (r.dest.toNat / 512 = 0) ∧ (v = (if r.ver = 0 then (0 : Fin 2) else 1)) ∧ (r.dest.toNat % 256 ∉ (s.chain die ch).badRt[v]) ∧ (Tab.find (s.chain die ch).routes[v] (r.dest.toNat % 256) = some rt) ∧ (rt.getLsbD 63 = true) ∧ ((s.coreCtx (nearCore (rt.toNat % 2 ^ 32)) = none ∨ s.coreCtx (nearCore (rt.toNat % 2 ^ 32)) = some ((s.chain die ch).owner.getD 0))) ∧ ((61 < ((s.core (nearCore (rt.toNat % 2 ^ 32))).rx[(Fin.ofNat 8 (rt.toNat / 2 ^ 35))]).q.length ∨ (∃ p ∈ s.pens, p.ended = false ∧ p.frozen = .cast ∧ (nearCore (rt.toNat % 2 ^ 32)) ∈ p.cores) ∧ ∀ p ∈ s.pens, p.live = false ∨ p.ended = true ∨ p.frozen = .cast ∨ (nearCore (rt.toNat % 2 ^ 32)) ∉ p.cores))) :=
  ⟨{ onChain { owner := some 1, recs := [rec12], routes := Vector.replicate 2 [(3, BitVec.ofNat 512 (2 ^ 63 + 2 * 2 ^ 35))] } with time := 50, pens := [{ penOne with frozen := .cast, live := false }] }, 0, 0, rec12, [], 0, BitVec.ofNat 512 (2 ^ 63 + 2 * 2 ^ 35), by and_intros <;> first | decide +kernel | exact ⟨_, _, rfl⟩ | exact ⟨_, rfl⟩ | (intros; contradiction) | exact .inl rfl⟩

theorem witness_DroveSteps_9 : ∃ s : State, ∃ die : Nat, ∃ ch : Nat, ∃ r, ∃ rest, ((die < 4) ∧ (ch < 4) ∧ ((s.chain die ch).recs = r :: rest) ∧ ((r.stage ≠ 12 ∨ s.time < r.t0 + 48)) ∧ ((s.chain die ch).exits = [])) :=
  ⟨{ onChain { recs := [rec12] } with time := 47 }, 0, 0, rec12, [], by and_intros <;> first | decide +kernel | exact ⟨_, _, rfl⟩ | exact ⟨_, rfl⟩ | (intros; contradiction) | (unfold reached; decide +kernel)⟩

theorem witness_DroveTables_0 : ∃ s : State, ∃ die : Nat, ∃ ch : Nat, ((die < 4) ∧ (ch < 4) ∧ ((s.chain die ch).ops = [])) :=
  ⟨onChain {}, 0, 0, by and_intros <;> first | decide +kernel | exact ⟨_, _, rfl⟩ | exact ⟨_, rfl⟩ | (intros; contradiction)⟩

theorem witness_DroveTables_1 : ∃ s : State, ∃ die : Nat, ∃ ch : Nat, ∃ m, ∃ rest, ∃ h, ∃ o, ((die < 4) ∧ (ch < 4) ∧ ((s.chain die ch).commit = none) ∧ ((s.chain die ch).ops = m :: rest) ∧ ((∀ x ∈ (s.chain die ch).ops, x.o.ord = .none)) ∧ (m.word = .dcommit h o)) :=
  ⟨onChain { ops := [commitCmd] }, 0, 0, commitCmd, [], {}, {}, by and_intros <;> first | decide +kernel | exact ⟨_, _, rfl⟩ | exact ⟨_, rfl⟩ | (intros; contradiction)⟩

theorem witness_DroveTables_2 : ∃ s : State, ∃ die : Nat, ∃ ch : Nat, ∃ m, ∃ h, ∃ o, ((die < 4) ∧ (ch < 4) ∧ ((s.chain die ch).commit ≠ none) ∧ ((s.chain die ch).ops = [m]) ∧ (m.o.ord = .none) ∧ (m.word = .dcommit h o ∨ m.word = .dtw h o ∨ m.word = .dtd h o)) :=
  ⟨onChain { ops := [commitCmd], commit := some commitCmd }, 0, 0, commitCmd, {}, {}, by and_intros <;> first | decide +kernel | exact ⟨_, _, rfl⟩ | exact ⟨_, rfl⟩ | (intros; contradiction) | exact .inl rfl⟩

theorem witness_DroveTables_3 : ∃ s : State, ∃ die : Nat, ∃ ch : Nat, ∃ m, ∃ rest, ∃ h, ∃ o, ∃ n, ∃ idx, ∃ kind, ((die < 4) ∧ (ch < 4) ∧ ((s.chain die ch).commit = none) ∧ ((s.chain die ch).ops = m :: rest) ∧ (m.o.ord = .none) ∧ (m.word = .dtw h o) ∧ (m.o.imm.getLsbD 15 = false) ∧ (m.o.imm.toNat % 16 = n) ∧ (n < 12) ∧ (m.cmd.toNat % 64 = 0) ∧ (m.img.length = 64) ∧ (s.poison = []) ∧ (m.a.toNat = idx) ∧ (skind ((s.chain die ch).stage n).cfg[(1 - (s.chain die ch).ver : Fin 2)] = kind) ∧ (kind ≠ 1) ∧ (idx < tableSize kind) ∧ (entBad (BitVec.ofNat 512 (leNat m.img)) kind (skw ((s.chain die ch).stage n).cfg[(1 - (s.chain die ch).ver : Fin 2)]) = false) ∧ ((∀ e, Tab.find ((s.chain die ch).stage n).ents idx = some e → e.vm.getLsbD (s.chain die ch).ver.val = false))) :=
  ⟨onChain { ops := [dtwCmd], stages := (Vector.replicate 12 {}).set 2 skinded }, 0, 0, dtwCmd, [], {}, {}, 2, 5, 2, by and_intros <;> first | decide +kernel | exact fun e h => nomatch (show (none : Option DEnt) = some _ from h)⟩

theorem witness_DroveTables_4 : ∃ s : State, ∃ die : Nat, ∃ ch : Nat, ∃ m, ∃ rest, ∃ h, ∃ o, ∃ n, ((die < 4) ∧ (ch < 4) ∧ ((s.chain die ch).ops = m :: rest) ∧ (m.o.ord = .none) ∧ (m.word = .dtr h o) ∧ (m.o.imm.toNat % 16 = n) ∧ (m.a = 0xFFFF) ∧ (m.o.sub.val % 2 = 0)) :=
  ⟨onChain { ops := [dtrCmd] }, 0, 0, dtrCmd, [], {}, {}, 2, by and_intros <;> first | decide +kernel | exact ⟨_, _, rfl⟩ | exact ⟨_, rfl⟩ | (intros; contradiction)⟩

theorem witness_DroveTables_5 : ∃ s : State, ∃ die : Nat, ∃ ch : Nat, ((die < 4) ∧ (ch < 4) ∧ ((s.chain die ch).commit = none)) :=
  ⟨onChain {}, 0, 0, by and_intros <;> first | decide +kernel | exact ⟨_, _, rfl⟩ | exact ⟨_, rfl⟩ | (intros; contradiction)⟩

theorem witness_DroveTables_6 : ∃ s : State, ∃ die : Nat, ∃ ch : Nat, ∃ m, ∃ r, ((die < 4) ∧ (ch < 4) ∧ ((s.chain die ch).commit = some m) ∧ (r ∈ (s.chain die ch).recirc ++ (s.chain die ch).recs ++ (s.chain die ch).exits) ∧ (r.ver = 1 - (s.chain die ch).ver.val)) :=
  ⟨onChain { commit := some commitCmd, recs := [{ rec0 with ver := 1 }] }, 0, 0, commitCmd, { rec0 with ver := 1 }, by and_intros <;> first | decide +kernel | exact ⟨_, _, rfl⟩ | exact ⟨_, rfl⟩ | (intros; contradiction)⟩

theorem witness_DroveTables_7 : ∃ s : State, ∃ die : Nat, ∃ ch : Nat, ((die < 4) ∧ (ch < 4) ∧ ((s.chain die ch).settled = true)) :=
  ⟨onChain { settled := true }, 0, 0, by and_intros <;> first | decide +kernel | exact ⟨_, _, rfl⟩ | exact ⟨_, rfl⟩ | (intros; contradiction)⟩

theorem witness_DroveTables_8 : ∃ s : State, ∃ die : Nat, ∃ ch : Nat, ∃ m, ((die < 4) ∧ (ch < 4) ∧ ((s.chain die ch).commit = some m) ∧ ((s.chain die ch).settled = false) ∧ (m.o.ord = .none) ∧ ((∀ r ∈ (s.chain die ch).recirc ++ (s.chain die ch).recs ++ (s.chain die ch).exits, r.ver = (s.chain die ch).ver.val))) :=
  ⟨onChain { commit := some commitCmd, recs := [rec0] }, 0, 0, commitCmd, by and_intros <;> first | decide +kernel | exact ⟨_, _, rfl⟩ | exact ⟨_, rfl⟩ | (intros; contradiction)⟩

theorem witness_DroveTables_9 : ∃ s : State, ∃ die : Nat, ∃ ch : Nat, ∃ m, ∃ d, ∃ rest, ∃ h, ∃ o, ((die < 4) ∧ (ch < 4) ∧ ((s.chain die ch).commit = some m) ∧ ((s.chain die ch).settled = true) ∧ (m.word = .dcommit h o) ∧ (d.cmd = m) ∧ (m.host = none) ∧ (d.die = die) ∧ (d.inst = ch) ∧ (d.clock = []) ∧ (s.dones = d :: rest) ∧ (m.o.ord = .none) ∧ ((s.pen m.pen).live = true) ∧ ((s.pen m.pen).ended = false) ∧ ((s.pen m.pen).frozen = .running) ∧ (((s.core m.core).rx[m.o.cp]).q.length < 64)) :=
  ⟨{ onChain { commit := some commitCmd, settled := true } with dones := [{ cmd := commitCmd, eng := 3 }] }, 0, 0, commitCmd, { cmd := commitCmd, eng := 3 }, [], {}, {}, by and_intros <;> first | decide +kernel | exact ⟨_, _, rfl⟩ | exact ⟨_, rfl⟩ | (intros; contradiction)⟩

theorem witness_DemandSteps_0 : ∃ s : State, ∃ h : Nat, ((s.pen h).du.inbox = []) :=
  ⟨base, 0, by first | decide +kernel | exact ⟨_, _, rfl⟩ | exact ⟨_, rfl⟩ | (intros; contradiction) | (intro j hj; exact absurd hj (Nat.not_lt_zero _)) | exact .inl rfl⟩

theorem witness_DemandSteps_1 : ∃ s : State, ∃ h : Nat, ∃ m, ∃ rest, ∃ f, ∃ o, ∃ i : Nat, ∃ x : Output, ((h < s.pens.length) ∧ ((s.pen h).du.inbox = m :: rest) ∧ ((s.pen h).du.parked = none) ∧ (m.o.ord = .none) ∧ (s.keyBound m.ctx = true) ∧ (m.word = .dstat f o) ∧ (NamesSink (s.pen h) m.cmd i x)) :=
  ⟨asking (posted (.dstat {} {})) sink0, 0, posted (.dstat {} {}), [], {}, {}, 0, sink0, by and_intros <;> first | decide +kernel | exact ⟨_, _, rfl⟩ | exact ⟨_, rfl⟩ | (intros; contradiction) | (intro j hj; exact absurd hj (Nat.not_lt_zero _)) | exact .inl rfl⟩

theorem witness_DemandSteps_2 : ∃ s : State, ∃ h : Nat, ∃ m, ∃ rest, ∃ f, ∃ o, ((h < s.pens.length) ∧ ((s.pen h).du.inbox = m :: rest) ∧ ((s.pen h).du.parked = none) ∧ (m.o.ord = .none) ∧ (s.keyBound m.ctx = true) ∧ ((m.word = .dstat f o ∨ m.word = .dmd f o ∨ m.word = .dret f o)) ∧ ((∀ x ∈ (s.pen h).du.outs, x.dest ≠ .sink))) :=
  ⟨asking (posted (.dstat {} {})) { sink0 with dest := .none_ }, 0, posted (.dstat {} {}), [], {}, {}, by and_intros <;> first | decide +kernel | exact ⟨_, _, rfl⟩ | exact ⟨_, rfl⟩ | (intros; contradiction) | (intro j hj; exact absurd hj (Nat.not_lt_zero _)) | exact .inl rfl⟩

theorem witness_DemandSteps_3 : ∃ s : State, ∃ h : Nat, ∃ m, ∃ rest, ∃ f, ∃ o, ∃ i : Nat, ∃ x : Output, ((h < s.pens.length) ∧ ((s.pen h).du.inbox = m :: rest) ∧ ((s.pen h).du.parked = none) ∧ (m.o.ord = .none) ∧ (s.keyBound m.ctx = true) ∧ (m.word = .dmd f o) ∧ (NamesSink (s.pen h) m.cmd i x) ∧ (m.a.toNat < m.b.toNat) ∧ (m.b.toNat < 2 ^ 48)) :=
  ⟨asking (posted (.dmd {} {})) sink0, 0, posted (.dmd {} {}), [], {}, {}, 0, sink0, by and_intros <;> first | decide +kernel | exact ⟨_, _, rfl⟩ | exact ⟨_, rfl⟩ | (intros; contradiction) | (intro j hj; exact absurd hj (Nat.not_lt_zero _)) | exact .inl rfl⟩

theorem witness_DemandSteps_4 : ∃ s : State, ∃ h : Nat, ∃ m, ∃ rest, (((s.pen h).du.inbox = m :: rest) ∧ ((s.pen h).du.parked = none) ∧ (m.o.ord = .none) ∧ (s.keyBound m.ctx = false)) :=
  ⟨unbound (asking (posted (.dmd {} {})) sink0), 0, posted (.dmd {} {}), [], by and_intros <;> first | decide +kernel | exact ⟨_, _, rfl⟩ | exact ⟨_, rfl⟩ | (intros; contradiction) | (intro j hj; exact absurd hj (Nat.not_lt_zero _)) | exact .inl rfl⟩

theorem witness_DemandSteps_5 : ∃ s : State, ∃ h : Nat, ∃ i : Nat, ∃ x : Output, ∃ r : Req, ∃ rest, ((h < s.pens.length) ∧ ((s.pen h).du.outs[i]? = some x) ∧ (x.net = r :: rest) ∧ (16 ≤ x.queue.length)) :=
  ⟨asking cmd0 { sink0 with net := [req0], queue := List.replicate 16 req0 }, 0, 0, { sink0 with net := [req0], queue := List.replicate 16 req0 }, req0, [], by and_intros <;> first | decide +kernel | exact ⟨_, _, rfl⟩ | exact ⟨_, rfl⟩ | (intros; contradiction) | (intro j hj; exact absurd hj (Nat.not_lt_zero _)) | exact .inl rfl⟩

theorem witness_DemandSteps_6 : ∃ s : State, ∃ h : Nat, ∃ i : Nat, ∃ x : Output, ∃ r : Req, ∃ rest, ∃ a, ∃ b, ((h < s.pens.length) ∧ ((s.pen h).du.outs[i]? = some x) ∧ (x.net = r :: rest) ∧ (x.queue.length < 16) ∧ (r.ticks = [(a, b)]) ∧ (x.w = 0) ∧ (x.pend = []) ∧ (x.lost = []) ∧ (a < b) ∧ (b ≤ x.len) ∧ ((s.pen h).inTick = false) ∧ ((s.pen h).du.run = none)) :=
  ⟨penWith { penOne with inTick := false, du := { outs := [{ sink0 with net := [req0], dest := .edge 0 }] } }, 0, 0, { sink0 with net := [req0], dest := .edge 0 }, req0, [], 2, 5, by and_intros <;> first | decide +kernel | exact ⟨_, _, rfl⟩ | exact ⟨_, rfl⟩ | (intros; contradiction) | (intro j hj; exact absurd hj (Nat.not_lt_zero _)) | exact .inl rfl⟩

theorem witness_DemandSteps_7 : ∃ s : State, ∃ h : Nat, ∃ i : Nat, ∃ x : Output, ∃ r : Req, ∃ a, ∃ id, ∃ m, ((h < s.pens.length) ∧ ((s.pen h).du.outs[i]? = some x) ∧ (x.queue = [r]) ∧ (r.ticks = [(a, a + 1)]) ∧ (x.dest = .sink) ∧ (x.len ≤ a) ∧ (x.net = []) ∧ (r.asker = .dmd id) ∧ ((s.pen h).du.posted = [(m, i)]) ∧ (m.id = id) ∧ (r.lost = 0) ∧ (r.retracted = false)) :=
  ⟨penWith { penOne with du := { outs := [{ sink0 with queue := [reqD], len := 2 }], posted := [(cmd0, 0)] } }, 0, 0, { sink0 with queue := [reqD], len := 2 }, reqD, 2, 77, cmd0, by and_intros <;> first | decide +kernel | exact ⟨_, _, rfl⟩ | exact ⟨_, rfl⟩ | (intros; contradiction) | (intro j hj; exact absurd hj (Nat.not_lt_zero _)) | exact .inl rfl⟩

theorem witness_DemandSteps_8 : ∃ s : State, ∃ h : Nat, ∃ i : Nat, ∃ x : Output, ∃ r : Req, ∃ rest, ∃ a, ∃ b, ((h < s.pens.length) ∧ ((s.pen h).du.outs[i]? = some x) ∧ (x.queue = r :: rest) ∧ (r.ticks = [(a, b)]) ∧ (a < x.len) ∧ (x.w = 0) ∧ (x.lost = []) ∧ ((a, b) ∈ x.pend) ∧ (a < b)) :=
  ⟨penWith { penOne with du := { outs := [{ sink0 with queue := [req0], pend := [(2, 5)] }] } }, 0, 0, { sink0 with queue := [req0], pend := [(2, 5)] }, req0, [], 2, 5, by and_intros <;> first | decide +kernel | exact ⟨_, _, rfl⟩ | exact ⟨_, rfl⟩ | (intros; contradiction) | (intro j hj; exact absurd hj (Nat.not_lt_zero _)) | exact .inl rfl⟩

theorem witness_PlaneSteps_0 : ∃ s : State, ∃ d, ∃ h, ∃ m, ∃ f, ∃ o, (((s.die d).loader = [m]) ∧ (m.word = .swap f o) ∧ (OwnPen s m.pen m.ctx (m.a.toNat % 65536) h) ∧ ((s.pen h).swap = none) ∧ (m.o.ord = .none) ∧ (s.keyBound m.ctx = true) ∧ ((s.pen h).shStat.toNat / 2 ^ 56 = 0)) :=
  ⟨loading (.swap {} {}) penOne, 0, 0, swapCmd (.swap {} {}), {}, {}, by and_intros <;> first | decide +kernel | exact ⟨_, _, rfl⟩ | exact ⟨_, rfl⟩ | (intros; contradiction) | (intro j hj; exact absurd hj (Nat.not_lt_zero _))⟩

theorem witness_PlaneSteps_1 : ∃ s : State, ∃ d, ∃ h, ∃ m, ∃ f, ∃ o, (((s.die d).loader = [m]) ∧ (m.word = .swap f o) ∧ (OwnPen s m.pen m.ctx (m.a.toNat % 65536) h) ∧ ((s.pen h).swap = none) ∧ (m.o.ord = .none) ∧ (s.keyBound m.ctx = true) ∧ ((s.pen h).shStat.toNat / 2 ^ 56 ≠ 0)) :=
  ⟨loading (.swap {} {}) { penOne with shStat := 0x0500000000000000 }, 0, 0, swapCmd (.swap {} {}), {}, {}, by and_intros <;> first | decide +kernel | exact ⟨_, _, rfl⟩ | exact ⟨_, rfl⟩ | (intros; contradiction) | (intro j hj; exact absurd hj (Nat.not_lt_zero _))⟩

theorem witness_PlaneSteps_2 : ∃ s : State, ∃ d, ∃ m, (((s.die d).loader = [m]) ∧ ((∀ p ∈ s.pens, ¬ ((p.live = true ∨ p.frozen = .cast) ∧ p.ended = false ∧ p.ctx = m.ctx ∧ p.pid.toNat = m.a.toNat % 65536))) ∧ (m.o.ord = .none) ∧ (s.keyBound m.ctx = true)) :=
  ⟨{ loading (.swap {} {}) penOne with pens := [] }, 0, swapCmd (.swap {} {}), by and_intros <;> first | decide +kernel | exact ⟨_, _, rfl⟩ | exact ⟨_, rfl⟩ | (intros; contradiction) | (intro j hj; exact absurd hj (Nat.not_lt_zero _))⟩

def wplaneSteps3_hd : List Byte := okOf default ((loading (.cfgld {} {}) penOne).vread (swapCmd (.cfgld {} {})).ctx (swapCmd (.cfgld {} {})).cmd.toNat 64)

theorem witness_PlaneSteps_3 : ∃ s : State, ∃ d, ∃ h, ∃ m, ∃ f, ∃ o, ∃ hd, ∃ n, (((s.die d).loader = [m]) ∧ (m.word = .cfgld f o) ∧ (OwnPen s m.pen m.ctx (m.a.toNat % 65536) h) ∧ ((s.pen h).swap = none) ∧ (m.o.ord = .none) ∧ (s.keyBound m.ctx = true) ∧ ((∀ k ∈ s.poison, k < 2 ^ 57)) ∧ ((s.pen h).cores.Nodup) ∧ (ImageHeader hd ((s.pen h).h * (s.pen h).w) n) ∧ ((∀ i < (s.pen h).h * (s.pen h).w * 4 * n, ∃ bs, s.vread m.ctx (m.cmd.toNat + 64 + 16 * i) 16 = .ok bs))) ∧ (s.vread m.ctx m.cmd.toNat 64 = .ok hd) :=
  ⟨loading (.cfgld {} {}) penOne, 0, 0, swapCmd (.cfgld {} {}), {}, {}, wplaneSteps3_hd, 1, by and_intros <;> first | decide +kernel | exact ⟨_, _, rfl⟩ | exact ⟨_, rfl⟩ | (intros; contradiction) | (intro j hj; exact absurd hj (Nat.not_lt_zero _)) | (exact fun i hi => ⟨_, okOf_eq [] _ ((by decide +kernel : ∀ i < 4, isOk ((loading (.cfgld {} {}) penOne).vread 1 (0x2000 + 64 + 16 * i) 16) = true) i hi)⟩), okOf_eq _ _ (by decide +kernel)⟩

theorem witness_PlaneSteps_4 : ∃ s : State, ∃ d, ∃ m, (((s.die d).loader = [m]) ∧ (m.o.ord = .none) ∧ (s.keyBound m.ctx = false) ∧ ((∀ p ∈ s.pens, p.swap = none))) :=
  ⟨unbound (loading (.swap {} {}) penOne), 0, swapCmd (.swap {} {}), by and_intros <;> first | decide +kernel | exact ⟨_, _, rfl⟩ | exact ⟨_, rfl⟩ | (intros; contradiction) | (intro j hj; exact absurd hj (Nat.not_lt_zero _))⟩

theorem witness_PlaneSteps_5 : ∃ s : State, ∃ h, ((s.pen h).inTick = true) :=
  ⟨base, 0, by first | decide +kernel | exact ⟨_, _, rfl⟩ | exact ⟨_, rfl⟩ | (intros; contradiction) | (intro j hj; exact absurd hj (Nat.not_lt_zero _))⟩

theorem witness_PlaneSteps_6 : ∃ s : State, ∃ h, ∃ m, ((h < s.pens.length) ∧ ((s.pen h).swap = some m) ∧ (m.o.ord = .none) ∧ ((s.pen h).frozen = .running) ∧ (Drained s h) ∧ ((s.pen h).cores.Nodup)) :=
  ⟨penWith { penOne with inTick := false, swap := some cmd0 }, 0, cmd0, by and_intros <;> first | decide +kernel | exact ⟨_, _, rfl⟩ | exact ⟨_, rfl⟩ | (intros; contradiction) | (intro j hj; exact absurd hj (Nat.not_lt_zero _))⟩

theorem witness_PlaneSteps_7 : ∃ s : State, ∃ h, ∃ c, (((s.pen h).finRec = some c) ∧ ((s.pen h).finReported = false) ∧ (s.time % 2 = 0) ∧ ((∀ g ∈ s.instPens (s.pen h).qid (s.pen h).seq, (s.pen g).finWaits = true → g = h))) :=
  ⟨penWith { penOne with finRec := some 3 }, 0, 3, by and_intros <;> first | decide +kernel | exact ⟨_, _, rfl⟩ | exact ⟨_, rfl⟩ | (intros; contradiction) | (intro j hj; exact absurd hj (Nat.not_lt_zero _))⟩

theorem witness_PlaneSteps_8 : ∃ s : State, ∃ h, ∃ g, ∃ c, (((s.pen h).finWaits = true) ∧ (s.time % 2 = 0) ∧ (g ∈ s.instPens (s.pen h).qid (s.pen h).seq) ∧ ((s.pen g).finRec = some c) ∧ ((s.pen g).finReported = false) ∧ ((g = h ∨ (s.pen g).finTime < s.time)) ∧ ((∀ x, x ≠ g → x = h ∨ (x ∈ s.instPens (s.pen h).qid (s.pen h).seq ∧ (s.pen x).finWaits = true ∧ (s.pen x).finTime < s.time) → (s.pen g).pid.toNat < (s.pen x).pid.toNat))) :=
  ⟨finTwo, 0, 1, 4, by and_intros <;> first | decide +kernel | exact ⟨_, _, rfl⟩ | exact ⟨_, rfl⟩ | (intros; contradiction) | (intro j hj; exact absurd hj (Nat.not_lt_zero _)) | (intro x hx hm; obtain rfl : x = 0 := hm.elim id (fun h => finTwo_pens x h.1 hx); decide +kernel)⟩

theorem witness_PlaneSteps_9 : ∃ s : State, ∃ h, (((s.pen h).finRec = none ∨ (s.pen h).finReported = true ∨ s.time % 2 = 1)) :=
  ⟨base, 0, by first | decide +kernel | exact ⟨_, _, rfl⟩ | exact ⟨_, rfl⟩ | (intros; contradiction) | (intro j hj; exact absurd hj (Nat.not_lt_zero _))⟩

theorem witness_PlaneSteps_10 : ∃ s : State, ∃ h, ((s.pen h).inTick = true) :=
  ⟨base, 0, by first | decide +kernel | exact ⟨_, _, rfl⟩ | exact ⟨_, rfl⟩ | (intros; contradiction) | (intro j hj; exact absurd hj (Nat.not_lt_zero _))⟩

theorem witness_PlaneSteps_11 : ∃ s : State, ∃ h, ∃ g, ((MayEnd s h) ∧ (g ≠ h) ∧ (g < s.pens.length) ∧ ((s.pen g).qid = (s.pen h).qid) ∧ ((s.pen g).seq = (s.pen h).seq) ∧ (((s.pen g).live = true ∨ (s.pen g).frozen = .cast)) ∧ ((s.pen g).ended = false)) :=
  ⟨{ base with pens := [{ penOne with inTick := false, finRec := some 3, finReported := true }, { penOne with pid := 5, col := 1 }] }, 0, 1, by and_intros <;> first | decide +kernel | exact ⟨_, _, rfl⟩ | exact ⟨_, rfl⟩ | (intros; contradiction) | (intro j hj; exact absurd hj (Nat.not_lt_zero _))⟩

theorem witness_PlaneSteps_12 : ∃ s : State, ∃ h, ∃ e, ∃ x, ((MayEnd s h) ∧ ((∀ g, g ≠ h → g < s.pens.length → (s.pen g).qid = (s.pen h).qid → (s.pen g).seq = (s.pen h).seq → (s.pen g).ended = true ∨ (s.pen g).live = false ∧ (s.pen g).frozen ≠ .cast)) ∧ (s.graphs = []) ∧ ((∃ g, g ≠ h ∧ g < s.pens.length ∧ (s.pen g).live = true ∧ (s.pen g).ended = false ∧ (s.pen g).ctx = (s.pen h).ctx)) ∧ (s.entry? (s.pen h).qid (s.pen h).seq = some e) ∧ (e.exit = some x)) :=
  ⟨{ base with pens := [{ penOne with inTick := false, finRec := some 3, finReported := true }, { penOne with qid := 4, col := 1 }], entries := [{ qid := 0, seq := 0, exit := some 3 }] }, 0, { qid := 0, seq := 0, exit := some 3 }, 3, by and_intros <;> first | decide +kernel | exact ⟨_, _, rfl⟩ | exact ⟨_, rfl⟩ | (intros; contradiction) | (intro j hj; exact absurd hj (Nat.not_lt_zero _)) | exact ⟨1, by decide +kernel⟩ | (intro g hg hl; have hl2 : g < 2 := hl; obtain rfl : g = 1 := (by omega); decide +kernel)⟩

/-- The states after the writes of an entry of number `n` that completes with 3, 4, 5 and value 9. -/
def endEnt (n : Nat) : Entry := { ent0 [] with seq := n }
def end1 (n : Nat) : Except XFault State := ((work (endEnt n)).modEntry 3 n (fun x => { x with res := some (3, 4, 5, 9) })).vwrite 1
  (((work (endEnt n)).queue 3).slotVa n + 48) (leBytes 8 9 ++ leBytes 8 (statusWord 3 4 5).toNat)

theorem witness_EntryCompletion_0 : ∃ (s : State) (e : Entry) (s1 s2 : State), (e.word 0).getLsbD 49 = false ∧ s.keyBound e.ctx = true ∧
    (s.modEntry e.qid e.seq (fun x => { x with res := some (3, 4, 5, 9) })).vwrite e.ctx ((s.queue e.qid).slotVa e.seq + 48)
      (leBytes 8 9 ++ leBytes 8 (statusWord 3 4 5).toNat) = .ok s1 ∧ e.seq = (s.queue e.qid).compseq.toNat + 1 ∧ (s.queue e.qid).comp = [] ∧
    s1.vwrite e.ctx (s.queue e.qid).w1.toNat (leBytes 8 e.seq) = .ok s2 :=
  ⟨work (endEnt 1), endEnt 1, okOf default (end1 1), okOf default ((okOf default (end1 1)).vwrite 1 ((work (endEnt 1)).queue 3).w1.toNat (leBytes 8 1)),
    by decide +kernel, by decide +kernel, okOf_eq _ (end1 1) (by decide +kernel), by decide +kernel, by decide +kernel, okOf_eq _ _ (by decide +kernel)⟩

theorem witness_EntryCompletion_1 : ∃ (s : State) (e : Entry) (s1 : State), (e.word 0).getLsbD 49 = false ∧ s.keyBound e.ctx = true ∧
    (s.modEntry e.qid e.seq (fun x => { x with res := some (3, 4, 5, 9) })).vwrite e.ctx ((s.queue e.qid).slotVa e.seq + 48)
      (leBytes 8 9 ++ leBytes 8 (statusWord 3 4 5).toNat) = .ok s1 ∧ (s.queue e.qid).compseq.toNat + 1 < e.seq ∧ (s.queue e.qid).comp = [] :=
  ⟨work (endEnt 7), endEnt 7, okOf default (end1 7), by decide +kernel, by decide +kernel, okOf_eq _ (end1 7) (by decide +kernel),
    by decide +kernel, by decide +kernel⟩

theorem witness_EntryCompletion_2 : ∃ (s : State) (e : Entry), (e.word 0).getLsbD 49 = false ∧ s.keyBound e.ctx = false :=
  ⟨unbound (work (ent0 [])), ent0 [], by decide +kernel⟩

theorem witness_ShepherdEntries_0 : ∃ s : State, (s.time % 64 ≠ 0) :=
  ⟨base, by decide +kernel⟩

theorem witness_ShepherdEntries_1 : ∃ s : State, ∃ q l, s.chooseQueue = some (q, l) :=
  ⟨queued enabled [], 3, 5, by decide +kernel⟩

theorem witness_ShepherdEntries_2 : ∃ s : State, ∃ q, ∃ x, ((Tab.sorted s.queues = true) ∧ ((q, x) ∈ s.queues) ∧ (x.elig = false) ∧ (s.eligible q x = true)) :=
  ⟨queued enabled [], 3, queue0, by and_intros <;> decide +kernel⟩

theorem witness_ShepherdEntries_3 : ∃ s : State, ((s.time % 64 = 0) ∧ (s.lookQueues.chooseQueue = none)) :=
  ⟨{ base with time := 64 }, by and_intros <;> decide +kernel⟩

def wshepherdEntries4_bs : List Byte := okOf default ((queued mapped []).vread ((queued mapped []).lookQueues.queue (3)).ctx (((queued mapped []).lookQueues.queue (3)).slotVa (((queued mapped []).lookQueues.queue (3)).taken.toNat + 1)) 64)

theorem witness_ShepherdEntries_4 : ∃ s : State, ∃ q, ∃ l, ∃ bs, ((s.time % 64 = 0) ∧ (s.lookQueues.chooseQueue = some (q, l)) ∧ (s.keyBound (s.lookQueues.queue q).ctx = true) ∧ (((s.ctx (s.lookQueues.queue q).ctx).quar = true ∨ (s.ctx (s.lookQueues.queue q).ctx).tearing ≠ none ∨ (s.ctx (s.lookQueues.queue q).ctx).w[2].getLsbD 63 = false))) ∧ (s.vread (s.lookQueues.queue q).ctx ((s.lookQueues.queue q).slotVa ((s.lookQueues.queue q).taken.toNat + 1)) 64 = .ok bs) :=
  ⟨queued mapped [], 3, 5, wshepherdEntries4_bs, by and_intros <;> decide +kernel, okOf_eq _ _ (by decide +kernel)⟩

def wshepherdEntries5_bs : List Byte := okOf default ((queued enabled []).vread ((queued enabled []).lookQueues.queue (3)).ctx (((queued enabled []).lookQueues.queue (3)).slotVa (((queued enabled []).lookQueues.queue (3)).taken.toNat + 1)) 64)

theorem witness_ShepherdEntries_5 : ∃ s : State, ∃ q, ∃ l, ∃ bs, ((s.time % 64 = 0) ∧ (s.lookQueues.chooseQueue = some (q, l)) ∧ (s.keyBound (s.lookQueues.queue q).ctx = true) ∧ ((s.ctx (s.lookQueues.queue q).ctx).quar = false) ∧ ((s.ctx (s.lookQueues.queue q).ctx).tearing = none) ∧ ((s.ctx (s.lookQueues.queue q).ctx).w[2].getLsbD 63 = true) ∧ (entryBad ((List.range 8).map (wordAt bs)) = true)) ∧ (s.vread (s.lookQueues.queue q).ctx ((s.lookQueues.queue q).slotVa ((s.lookQueues.queue q).taken.toNat + 1)) 64 = .ok bs) :=
  ⟨queued enabled [], 3, 5, wshepherdEntries5_bs, by and_intros <;> decide +kernel, okOf_eq _ _ (by decide +kernel)⟩

def wshepherdEntries6_bs : List Byte := okOf default ((queued enabled [(0x7007, 12)]).vread ((queued enabled [(0x7007, 12)]).lookQueues.queue (3)).ctx (((queued enabled [(0x7007, 12)]).lookQueues.queue (3)).slotVa (((queued enabled [(0x7007, 12)]).lookQueues.queue (3)).taken.toNat + 1)) 64)

theorem witness_ShepherdEntries_6 : ∃ s : State, ∃ q, ∃ l, ∃ bs, ∃ i, ((s.time % 64 = 0) ∧ (s.lookQueues.chooseQueue = some (q, l)) ∧ (s.keyBound (s.lookQueues.queue q).ctx = true) ∧ ((s.ctx (s.lookQueues.queue q).ctx).quar = false) ∧ ((s.ctx (s.lookQueues.queue q).ctx).tearing = none) ∧ ((s.ctx (s.lookQueues.queue q).ctx).w[2].getLsbD 63 = true) ∧ (entryBad ((List.range 8).map (wordAt bs)) = false) ∧ (opcRow ((((List.range 8).map (wordAt bs)).getD 0 0).toNat / 2 ^ 56) = some i)) ∧ (s.vread (s.lookQueues.queue q).ctx ((s.lookQueues.queue q).slotVa ((s.lookQueues.queue q).taken.toNat + 1)) 64 = .ok bs) :=
  ⟨queued enabled [(0x7007, 12)], 3, 5, wshepherdEntries6_bs, .signal, by and_intros <;> decide +kernel, okOf_eq _ _ (by decide +kernel)⟩

theorem witness_ShepherdEntries_7 : ∃ s : State, ∃ e, ((AtWork s e) ∧ ((e.word 1).toNat < 65536) ∧ ((e.word 2).toNat ≤ (s.queue (e.word 1).toNat).compseq.toNat)) :=
  ⟨work (ent0 [0, 5, 0]), ent0 [0, 5, 0], by and_intros <;> decide +kernel⟩

theorem witness_ShepherdEntries_8 : ∃ s : State, ∃ e, ((AtWork s e) ∧ ((e.word 1).toNat < 65536) ∧ ((s.queue (e.word 1).toNat).compseq.toNat < (e.word 2).toNat)) :=
  ⟨work (ent0 [0, 5, 3]), ent0 [0, 5, 3], by and_intros <;> decide +kernel⟩

theorem witness_ShepherdEntries_9 : ∃ s : State, ∃ e, ((AtWork s e) ∧ (65536 ≤ (e.word 1).toNat)) :=
  ⟨work (ent0 [0, 65536, 0]), ent0 [0, 65536, 0], by and_intros <;> decide +kernel⟩

theorem witness_ShepherdEntries_10 : ∃ s : State, ∃ e, ((AtWork s e) ∧ ((e.word 1).toNat % 8 ≠ 0)) :=
  ⟨work (ent0 [0, 4, 9]), ent0 [0, 4, 9], by and_intros <;> decide +kernel⟩

def wshepherdEntries11_pl : List (Nat × Nat) := okOf default ((work (ent0 [0, 0x3000, 9])).places (ent0 [0, 0x3000, 9]).ctx ((ent0 [0, 0x3000, 9]).word 1).toNat 8 .atomic)

def wshepherdEntries11_old : List Byte := okOf default ((work (ent0 [0, 0x3000, 9])).readPlaces ((work (ent0 [0, 0x3000, 9])).home (ent0 [0, 0x3000, 9]).ctx) (wshepherdEntries11_pl) none)

def wshepherdEntries11_s' : State := okOf default (((work (ent0 [0, 0x3000, 9])).applyReleased (4 ≤ ·)).vwriteBy none (ent0 [0, 0x3000, 9]).ctx ((ent0 [0, 0x3000, 9]).word 1).toNat .atomic (leBytes 8 ((ent0 [0, 0x3000, 9]).word 2).toNat))

theorem witness_ShepherdEntries_11 : ∃ s : State, ∃ e, ∃ pl, ∃ old, ∃ s', ((AtWork s e) ∧ ((e.word 1).toNat % 8 = 0)) ∧ (s.places e.ctx (e.word 1).toNat 8 .atomic = .ok pl) ∧ (s.readPlaces (s.home e.ctx) pl none = .ok old) ∧ ((s.applyReleased (4 ≤ ·)).vwriteBy none e.ctx (e.word 1).toNat .atomic (leBytes 8 (e.word 2).toNat) = .ok s') :=
  ⟨work (ent0 [0, 0x3000, 9]), ent0 [0, 0x3000, 9], wshepherdEntries11_pl, wshepherdEntries11_old, wshepherdEntries11_s', by and_intros <;> decide +kernel, okOf_eq _ _ (by decide +kernel), okOf_eq _ _ (by decide +kernel), okOf_eq _ _ (by decide +kernel)⟩

theorem witness_ShepherdEntries_12 : ∃ s : State, ∃ e, ∃ d, ((AtWork s e) ∧ (e.phase = 1) ∧ (s.dones.find? (fun x => x.cmd.host = some (e.qid, e.seq)) = some d)) :=
  ⟨{ work ({ ent0 [0, 0, 1] with phase := 1 }) with dones := [hostDone] }, { ent0 [0, 0, 1] with phase := 1 }, hostDone, by and_intros <;> decide +kernel⟩

theorem witness_ShepherdEntries_13 : ∃ s : State, ∃ e, ((AtWork s e) ∧ (e.phase = 0) ∧ (((e.word 2).toNat = 0 ∨ 65535 < (e.word 2).toNat ∨ 16 ≤ (e.word 3).toNat))) :=
  ⟨work (ent0 [0, 0, 0]), ent0 [0, 0, 0], by and_intros <;> decide +kernel⟩

theorem witness_ShepherdEntries_14 : ∃ s : State, ∃ e, ((AtWork s e) ∧ (e.phase = 0) ∧ (0 < (e.word 2).toNat) ∧ ((e.word 2).toNat ≤ 65535) ∧ ((e.word 3).toNat < 16) ∧ (e.aux = 0) ∧ ((s.chain ((e.word 3).toNat / 4) ((e.word 3).toNat % 4)).quar = true ∨ (∃ o, (s.chain ((e.word 3).toNat / 4) ((e.word 3).toNat % 4)).owner = some o ∧ o ≠ e.ctx))) :=
  ⟨{ work (ent0 [0, 0, 1]) with dies := (onChain { quar := true }).dies }, ent0 [0, 0, 1], by and_intros <;> decide +kernel⟩

def tableEnt : Entry := ent0 [0, 0x3000, 1, 0]

def tabled : State := { work (ent0 [0, 0x3000, 1, 0]) with dies := (onChain { owner := some 1, stages := (Vector.replicate 12 ({} : DStage)).set 0 skinded }).dies }

def tableDone : State × Option TabStop := tabled.tableItems tableEnt.ctx (tableEnt.word 1).toNat ((tableEnt.word 3).toNat / 4) ((tableEnt.word 3).toNat % 4) (tableEnt.word 2).toNat 0

theorem witness_ShepherdEntries_15 : ∃ s : State, ∃ e, ∃ s', ((AtWork s e) ∧ (e.phase = 0) ∧ (0 < (e.word 2).toNat) ∧ ((e.word 2).toNat ≤ 65535) ∧ ((e.word 3).toNat < 16) ∧ (e.aux = 0) ∧ ((s.chain ((e.word 3).toNat / 4) ((e.word 3).toNat % 4)).quar = false) ∧ ((s.chain ((e.word 3).toNat / 4) ((e.word 3).toNat % 4)).owner = some e.ctx) ∧ ((s.chain ((e.word 3).toNat / 4) ((e.word 3).toNat % 4)).commit = none)) ∧ (s.tableItems e.ctx (e.word 1).toNat ((e.word 3).toNat / 4) ((e.word 3).toNat % 4) (e.word 2).toNat 0 = (s', none)) :=
  ⟨tabled, tableEnt, tableDone.1, by and_intros <;> decide +kernel, none_snd tableDone (by decide +kernel)⟩

theorem witness_ShepherdEntries_19 : ∃ s : State, ∃ q, ∃ l, ((s.time % 64 = 0) ∧ (s.lookQueues.chooseQueue = some (q, l)) ∧ (s.keyBound (s.lookQueues.queue q).ctx = false)) :=
  ⟨{ queued { keyless with ranges := [] } [] with keys := [(0, (1, 5))] }, 3, 5, by and_intros <;> decide +kernel⟩

theorem witness_ShepherdEntries_20 : ∃ s : State, ∃ i, ((i ∈ entryRows) ∧ (s.entry? s.bus.a s.bus.b = none)) :=
  ⟨base, .wait, by and_intros <;> decide +kernel⟩

theorem witness_ShepherdEntries_21 : ∃ s : State, ∃ i, ∃ e, ((i ∈ entryRows) ∧ (s.entry? s.bus.a s.bus.b = some e) ∧ (e.parked ≠ none)) :=
  ⟨work { ent0 [] with parked := some 5 }, .launch, { ent0 [] with parked := some 5 }, by and_intros <;> decide +kernel⟩

theorem witness_ShepherdEntries_22 : ∃ s : State, ∃ i, ∃ e, ((i ∈ entryRows) ∧ (s.entry? s.bus.a s.bus.b = some e) ∧ (e.parked = none) ∧ (e.res = none) ∧ (s.keyBound e.ctx = false)) :=
  ⟨unbound (work (ent0 [])), .table, ent0 [], by and_intros <;> decide +kernel⟩

theorem witness_ShepherdEntries_16 : ∃ s : State, ∃ e, ((AtWork s e) ∧ (e.phase = 0) ∧ (e.word 1 ≠ BitVec.ofNat 64 e.ctx)) :=
  ⟨work (ent0 [0, 2]), ent0 [0, 2], by and_intros <;> decide +kernel⟩

theorem witness_ShepherdEntries_17 : ∃ s : State, ∃ e, ((AtWork s e) ∧ (e.phase = 0) ∧ (e.word 1 = BitVec.ofNat 64 e.ctx) ∧ ((s.ctx e.ctx).quar = true)) :=
  ⟨{ work (ent0 [0, 1]) with ctxs := [(1, { mapped with quar := true })] }, ent0 [0, 1], by and_intros <;> decide +kernel⟩

theorem witness_ShepherdEntries_18 : ∃ s : State, ∃ e, ((AtWork s e) ∧ (e.phase = 0) ∧ (e.word 1 = BitVec.ofNat 64 e.ctx) ∧ ((s.ctx e.ctx).quar = false)) :=
  ⟨work (ent0 [0, 1]), ent0 [0, 1], by and_intros <;> decide +kernel⟩

theorem witness_InstanceEntries_0 : ∃ s : State, ∃ e : Entry, ((AtWork s e) ∧ (e.phase = 0) ∧ ((e.word 1).toNat % 64 ≠ 0)) :=
  ⟨work (ent0 [0, 1]), ent0 [0, 1], by and_intros <;> decide +kernel⟩

def winstanceEntries1_blk : List W64 := okOf default (({ work (ent0 [0, 0x4000]) with mem := [(0x4018, 1)] }).readBlock (ent0 [0, 0x4000]).ctx ((ent0 [0, 0x4000]).word 1).toNat)

def winstanceEntries1_im : Image := okOf default (({ work (ent0 [0, 0x4000]) with mem := [(0x4018, 1)] }).readImage (ent0 [0, 0x4000]).ctx (blkW (winstanceEntries1_blk) 0).toNat)

theorem witness_InstanceEntries_1 : ∃ s : State, ∃ e : Entry, ∃ blk, ∃ im, ((AtWork s e) ∧ (e.phase = 0) ∧ ((e.word 1).toNat % 64 = 0) ∧ (blkBad blk im = true)) ∧ (s.readBlock e.ctx (e.word 1).toNat = .ok blk) ∧ (s.readImage e.ctx (blkW blk 0).toNat = .ok im) :=
  ⟨{ work (ent0 [0, 0x4000]) with mem := [(0x4018, 1)] }, ent0 [0, 0x4000], winstanceEntries1_blk, winstanceEntries1_im, by and_intros <;> decide +kernel, okOf_eq _ _ (by decide +kernel), okOf_eq _ _ (by decide +kernel)⟩

def winstanceEntries2_blk : List W64 := okOf default (({ work (ent0 [0, 0x4000]) with mem := imageMem false }).readBlock (ent0 [0, 0x4000]).ctx ((ent0 [0, 0x4000]).word 1).toNat)

def winstanceEntries2_im : Image := okOf default (({ work (ent0 [0, 0x4000]) with mem := imageMem false }).readImage (ent0 [0, 0x4000]).ctx (blkW (winstanceEntries2_blk) 0).toNat)

theorem witness_InstanceEntries_2 : ∃ s : State, ∃ e : Entry, ∃ blk, ∃ im, ((AtWork s e) ∧ (e.phase = 0) ∧ ((e.word 1).toNat % 64 = 0) ∧ (blkBad blk im = false) ∧ ((∀ x ∈ s.entries, x.ctx = e.ctx → x.phase = 50 → x.level ≤ e.level)) ∧ (placeAll im (s.coreFree e.ctx) (blkPlaces blk) = none) ∧ ((s.ctx e.ctx).w[4] = 0)) ∧ (s.readBlock e.ctx (e.word 1).toNat = .ok blk) ∧ (s.readImage e.ctx (blkW blk 0).toNat = .ok im) :=
  ⟨{ work (ent0 [0, 0x4000]) with mem := imageMem false }, ent0 [0, 0x4000], winstanceEntries2_blk, winstanceEntries2_im, by and_intros <;> decide +kernel, okOf_eq _ _ (by decide +kernel), okOf_eq _ _ (by decide +kernel)⟩

def launchEnt : Entry := ent0 [0, 0x4000]

def launching : State := { work (ent0 [0, 0x4000]) with mem := imageMem true }

def winstanceEntries3_blk : List W64 := okOf default ((launching).readBlock (launchEnt).ctx ((launchEnt).word 1).toNat)

def winstanceEntries3_im : Image := okOf default ((launching).readImage (launchEnt).ctx (blkW (winstanceEntries3_blk) 0).toNat)

def winstanceEntries3_spots : List Spot := (placeAll (winstanceEntries3_im) ((launching).coreFree (launchEnt).ctx) (blkPlaces (winstanceEntries3_blk))).getD default

def opsRead3 : State × Except OpEnd (List OpLoad) := (launching.readOps launchEnt winstanceEntries3_im (blkW winstanceEntries3_blk 0).toNat winstanceEntries3_im.ops.length 0)

theorem witness_InstanceEntries_3 : ∃ s : State, ∃ e : Entry, ∃ blk, ∃ im, ∃ spots, ∃ s', ∃ ls, ((AtWork s e) ∧ (e.phase = 0) ∧ ((e.word 1).toNat % 64 = 0) ∧ (blkBad blk im = false) ∧ ((∀ x ∈ s.entries, x.ctx = e.ctx → x.phase = 50 → x.level ≤ e.level)) ∧ (placeAll im (s.coreFree e.ctx) (blkPlaces blk) = some spots) ∧ (spots ≠ [])) ∧ (s.readBlock e.ctx (e.word 1).toNat = .ok blk) ∧ (s.readImage e.ctx (blkW blk 0).toNat = .ok im) ∧ (s.readOps e im (blkW blk 0).toNat im.ops.length 0 = (s', .ok ls)) :=
  ⟨launching, launchEnt, winstanceEntries3_blk, winstanceEntries3_im, winstanceEntries3_spots, opsRead3.1, okOf [] opsRead3.2, by and_intros <;> decide +kernel, okOf_eq _ _ (by decide +kernel), okOf_eq _ _ (by decide +kernel), okOf_snd [] opsRead3 (by decide +kernel)⟩

theorem witness_InstanceEntries_4 : ∃ s : State, ∃ e : Entry, ((AtWork s e) ∧ (e.phase = 0) ∧ (s.graphOf e = none) ∧ ((∀ d ∈ s.dones, d.cmd.host ≠ some (e.qid, e.seq)))) :=
  ⟨work (ent0 [0, 9, 9]), ent0 [0, 9, 9], by and_intros <;> decide +kernel⟩

def replayEnt : Entry := ent0 [0, 0, 0, 0]

def replaying : State := { work (ent0 [0, 0, 0, 0]) with mem := imageMem true, graphs := [graph0] }

def winstanceEntries5_im : Image := okOf default ((replaying).readImage (replayEnt).ctx (blkW (graph0).blk 0).toNat)

def winstanceEntries5_spots : List Spot := (placeAll (winstanceEntries5_im) ((replaying).coreFree (replayEnt).ctx) (blkPlaces (graph0).blk)).getD default

def opsRead5 : State × Except OpEnd (List OpLoad) := (replaying.readOps replayEnt winstanceEntries5_im (blkW graph0.blk 0).toNat winstanceEntries5_im.ops.length 0)

theorem witness_InstanceEntries_5 : ∃ s : State, ∃ e : Entry, ∃ g, ∃ v, ∃ im, ∃ spots, ∃ s', ∃ ls, ((AtWork s e) ∧ (e.phase = 0) ∧ (s.graphOf e = some g) ∧ ((∀ d ∈ s.dones, d.cmd.host ≠ some (e.qid, e.seq))) ∧ (g.bound.find? (fun b => b.2 = (e.qid, e.seq)) = some (v, e.qid, e.seq)) ∧ (sinkIn g.blk im (e.word 3) = true) ∧ ((e.word 4).toNat < 2 ^ 48) ∧ ((e.word 5).toNat < 2 ^ 48) ∧ (blkBad g.blk im = false) ∧ ((∀ x ∈ s.entries, x.ctx = e.ctx → x.phase = 50 → x.level ≤ e.level)) ∧ (placeAll im (s.coreFree e.ctx) (blkPlaces g.blk) = some spots) ∧ (spots ≠ [])) ∧ (s.readImage e.ctx (blkW g.blk 0).toNat = .ok im) ∧ (s.readOps e im (blkW g.blk 0).toNat im.ops.length 0 = (s', .ok ls)) :=
  ⟨replaying, replayEnt, graph0, 0, winstanceEntries5_im, winstanceEntries5_spots, opsRead5.1, okOf [] opsRead5.2, by and_intros <;> decide +kernel, okOf_eq _ _ (by decide +kernel), okOf_snd [] opsRead5 (by decide +kernel)⟩

theorem witness_InstanceEntries_6 : ∃ s : State, ∃ e : Entry, ((AtWork s e) ∧ (s.graphOf e = none)) :=
  ⟨work (ent0 [0, 9, 9]), ent0 [0, 9, 9], by and_intros <;> decide +kernel⟩

theorem witness_InstanceEntries_8 : ∃ s : State, ∃ e : Entry, ∃ i, ∃ w, ∃ cmd, ∃ a, ∃ b, ((AtWork s e) ∧ (unitSpec e i = some (w, cmd, a, b)) ∧ (e.phase = 0) ∧ (s.instOf e = none)) :=
  ⟨work (ent0 [0, 9, 9]), ent0 [0, 9, 9], .demand, .demand, (ent0 [0, 9, 9]).word 3, (ent0 [0, 9, 9]).word 4, (ent0 [0, 9, 9]).word 5, by and_intros <;> decide +kernel⟩

theorem witness_InstanceEntries_9 : ∃ s : State, ∃ e : Entry, ∃ i, ∃ w, ∃ cmd, ∃ a, ∃ b, ∃ x, ∃ h, ((AtWork s e) ∧ (unitSpec e i = some (w, cmd, a, b)) ∧ (e.phase = 0) ∧ (s.instOf e = some x) ∧ (s.instSink x.qid x.seq (e.word 3) = some h) ∧ (h < s.pens.length) ∧ (16 ≤ s.duLoad h)) :=
  ⟨{ work (ent0 [0, 0, 0, 2]) with pens := [{ penOne with du := { inbox := List.replicate 16 cmd0 } }] }, ent0 [0, 0, 0, 2], .demand, .demand, (ent0 [0, 0, 0, 2]).word 3, (ent0 [0, 0, 0, 2]).word 4, (ent0 [0, 0, 0, 2]).word 5, launched, 0, by and_intros <;> decide +kernel⟩

theorem witness_InstanceEntries_10 : ∃ s : State, ∃ e : Entry, ∃ i, ∃ w, ∃ cmd, ∃ a, ∃ b, ∃ x, ∃ h, ((AtWork s e) ∧ (unitSpec e i = some (w, cmd, a, b)) ∧ (e.phase = 0) ∧ (s.instOf e = some x) ∧ (s.instSink x.qid x.seq (e.word 3) = some h) ∧ (h < s.pens.length) ∧ (s.duLoad h < 16)) :=
  ⟨work (ent0 [0, 0, 0, 2]), ent0 [0, 0, 0, 2], .demand, .demand, (ent0 [0, 0, 0, 2]).word 3, (ent0 [0, 0, 0, 2]).word 4, (ent0 [0, 0, 0, 2]).word 5, launched, 0, by and_intros <;> decide +kernel⟩

theorem witness_InstanceEntries_11 : ∃ s : State, ∃ e : Entry, ∃ i, ∃ w, ∃ cmd, ∃ a, ∃ b, ((AtWork s e) ∧ (unitSpec e i = some (w, cmd, a, b)) ∧ (e.phase = 1) ∧ (s.dones.find? (fun d => d.cmd.host = some (e.qid, e.seq)) = none)) :=
  ⟨work ({ ent0 [0, 0, 0, 2] with phase := 1 }), { ent0 [0, 0, 0, 2] with phase := 1 }, .demand, .demand, ({ ent0 [0, 0, 0, 2] with phase := 1 }).word 3, ({ ent0 [0, 0, 0, 2] with phase := 1 }).word 4, ({ ent0 [0, 0, 0, 2] with phase := 1 }).word 5, by and_intros <;> decide +kernel⟩

theorem witness_InstanceEntries_12 : ∃ s : State, ∃ e : Entry, ∃ i, ∃ w, ∃ cmd, ∃ a, ∃ b, ∃ d, ((AtWork s e) ∧ (unitSpec e i = some (w, cmd, a, b)) ∧ (e.phase = 1) ∧ (s.dones.find? (fun d => d.cmd.host = some (e.qid, e.seq)) = some d)) :=
  ⟨{ work ({ ent0 [0, 0, 0, 2] with phase := 1 }) with dones := [hostDone] }, { ent0 [0, 0, 0, 2] with phase := 1 }, .demand, .demand, ({ ent0 [0, 0, 0, 2] with phase := 1 }).word 3, ({ ent0 [0, 0, 0, 2] with phase := 1 }).word 4, ({ ent0 [0, 0, 0, 2] with phase := 1 }).word 5, hostDone, by and_intros <;> decide +kernel⟩

theorem witness_CastingEntries_0 : ∃ s : State, ∃ e : Entry, ((AtWork s e) ∧ (s.instOf e = none)) :=
  ⟨work (ent0 [0, 9, 9]), ent0 [0, 9, 9], by and_intros <;> decide +kernel⟩

theorem witness_CastingEntries_1 : ∃ s : State, ∃ e : Entry, ((AtWork s e) ∧ (s.instOf e = none)) :=
  ⟨work (ent0 [0, 9, 9]), ent0 [0, 9, 9], by and_intros <;> decide +kernel⟩

theorem witness_CastingEntries_2 : ∃ s : State, ∃ e : Entry, ∃ i : Entry, ((AtWork s e) ∧ (s.instOf e = some i) ∧ (((e.word 3).toNat % 4096 ≠ 0 ∨ 2 ≤ (e.word 4).toNat))) :=
  ⟨work (ent0 [0, 0, 0, 1]), ent0 [0, 0, 0, 1], launched, by and_intros <;> decide +kernel⟩

theorem witness_CastingEntries_3 : ∃ s : State, ∃ e : Entry, ∃ i : Entry, ∃ h : Nat, ((AtWork s e) ∧ (s.instOf e = some i) ∧ ((e.word 3).toNat % 4096 = 0) ∧ ((e.word 4).toNat < 2) ∧ (h ∈ (s.castPens i.qid i.seq)) ∧ ((s.pen h).frozen = .running) ∧ ((s.pen h).started = true)) :=
  ⟨work (ent0 [0, 0, 0, 0x1000, 0]), ent0 [0, 0, 0, 0x1000, 0], launched, 0, by and_intros <;> decide +kernel⟩

def wcastingEntries4_s' : State := okOf default (({ work (ent0 [0, 0, 0, 0x1000, 0]) with pens := [{ penOne with ended := true, frozen := .wave, started := false }] }).castInstance { (ent0 [0, 0, 0, 0x1000, 0]) with qid := (launched).qid, seq := (launched).seq } ((ent0 [0, 0, 0, 0x1000, 0]).word 3).toNat (((ent0 [0, 0, 0, 0x1000, 0]).word 4).getLsbD 0))

theorem witness_CastingEntries_4 : ∃ s : State, ∃ e : Entry, ∃ i : Entry, ∃ s', ((AtWork s e) ∧ (s.instOf e = some i) ∧ ((e.word 3).toNat % 4096 = 0) ∧ ((e.word 4).toNat < 2) ∧ ((∀ h ∈ (s.castPens i.qid i.seq), (s.pen h).frozen ≠ .running ∧ s.captured h = true))) ∧ (s.castInstance { e with qid := i.qid, seq := i.seq } (e.word 3).toNat ((e.word 4).getLsbD 0) = .ok s') :=
  ⟨{ work (ent0 [0, 0, 0, 0x1000, 0]) with pens := [{ penOne with ended := true, frozen := .wave, started := false }] }, ent0 [0, 0, 0, 0x1000, 0], launched, wcastingEntries4_s', by and_intros <;> decide +kernel, okOf_eq _ _ (by decide +kernel)⟩

theorem witness_CastingEntries_5 : ∃ s : State, ∃ e : Entry, ∃ i : Entry, ((AtWork s e) ∧ (s.instOf e = some i) ∧ ((s.castPens i.qid i.seq) ≠ []) ∧ ((∀ h ∈ (s.castPens i.qid i.seq), (s.pen h).frozen = .reporting))) :=
  ⟨{ work (ent0 [0, 0, 0, 0]) with pens := [{ penOne with frozen := .reporting }] }, ent0 [0, 0, 0, 0], launched, by and_intros <;> decide +kernel⟩

theorem witness_CastingEntries_7 : ∃ s : State, ∃ n : Nat, (s.entries[n]? = none) :=
  ⟨base, 4, by decide +kernel⟩

theorem witness_CastingEntries_8 : ∃ s : State, ∃ n : Nat, ∃ e : Entry, ((s.entries[n]? = some e) ∧ (e.phase = 50) ∧ (e.parked = none) ∧ (s.castPens e.qid e.seq ≠ []) ∧ (s.thawPlan e (s.castPens e.qid e.seq) none = none)) :=
  ⟨{ base with pens := [{ penOne with row := 12, live := true }], entries := [{ launched with phase := 50, va := 0x3000, aux := 64 }] }, 0, { launched with phase := 50, va := 0x3000, aux := 64 }, by and_intros <;> decide +kernel⟩

def wcastingEntries9_plan : List (Nat × Nat × Nat × Nat) := (({ base with entries := [{ launched with phase := 50, va := 0x3000, aux := 64 }, { ent0 [] with phase := 50, level := 5 }] }).thawPlan ({ launched with phase := 50, va := 0x3000, aux := 64 }) (({ base with entries := [{ launched with phase := 50, va := 0x3000, aux := 64 }, { ent0 [] with phase := 50, level := 5 }] }).castPens ({ launched with phase := 50, va := 0x3000, aux := 64 }).qid ({ launched with phase := 50, va := 0x3000, aux := 64 }).seq) none).getD default

theorem witness_CastingEntries_9 : ∃ s : State, ∃ n : Nat, ∃ e : Entry, ∃ plan, ((s.entries[n]? = some e) ∧ (e.phase = 50) ∧ (e.parked = none) ∧ (s.castPens e.qid e.seq ≠ []) ∧ (s.thawPlan e (s.castPens e.qid e.seq) none = some plan) ∧ ((∃ x ∈ s.entries, (fun (x : Entry) => x.ctx = e.ctx ∧ x.phase = 50 ∧ e.level < x.level ∧ s.thawPlan x (s.castPens x.qid x.seq) none ≠ none) x))) :=
  ⟨{ base with entries := [{ launched with phase := 50, va := 0x3000, aux := 64 }, { ent0 [] with phase := 50, level := 5 }] }, 0, { launched with phase := 50, va := 0x3000, aux := 64 }, wcastingEntries9_plan, by and_intros <;> decide +kernel⟩

theorem witness_CastingEntries_15 : ∃ s : State, (s.poison = []) :=
  ⟨base, by decide +kernel⟩

def wcastingEntries16_plan : List (Nat × Nat × Nat × Nat) := ((unbound { base with entries := [{ launched with phase := 50, va := 0x3000, aux := 64 }] }).thawPlan ({ launched with phase := 50, va := 0x3000, aux := 64 }) ((unbound { base with entries := [{ launched with phase := 50, va := 0x3000, aux := 64 }] }).castPens ({ launched with phase := 50, va := 0x3000, aux := 64 }).qid ({ launched with phase := 50, va := 0x3000, aux := 64 }).seq) none).getD default

theorem witness_CastingEntries_16 : ∃ s : State, ∃ n : Nat, ∃ e : Entry, ∃ plan, ((s.entries[n]? = some e) ∧ (e.phase = 50) ∧ (e.parked = none) ∧ (s.castPens e.qid e.seq ≠ []) ∧ (s.thawPlan e (s.castPens e.qid e.seq) none = some plan) ∧ ((∀ x ∈ s.entries, x.ctx = e.ctx → x.phase = 50 → x.level ≤ e.level)) ∧ (s.keyBound e.ctx = false)) :=
  ⟨unbound { base with entries := [{ launched with phase := 50, va := 0x3000, aux := 64 }] }, 0, { launched with phase := 50, va := 0x3000, aux := 64 }, wcastingEntries16_plan, by and_intros <;> decide +kernel⟩

theorem witness_CastingEntries_11 : ∃ s : State, ∃ n : Nat, ((s.ctx n).quar = false) :=
  ⟨base, 1, by decide +kernel⟩

theorem witness_CastingEntries_12 : ∃ s : State, ∃ n : Nat, ∃ cs, ∃ k, (((s.ctx n).quar = true) ∧ (cs = (s.quarCores.filter (fun x => x.1 = n)).map (·.2)) ∧ (cs[(s.ctx n).scrubPos / 2 ^ 20]? = some k)) :=
  ⟨quarantined {} [(1, 9), (2, 8)], 1, [9], 9, by and_intros <;> decide +kernel⟩

theorem witness_CastingEntries_13 : ∃ s : State, ∃ n : Nat, ∃ pa, ∃ len, ∃ more, (((s.ctx n).quar = true) ∧ ((∀ x ∈ s.quarCores, x.1 ≠ n)) ∧ ((s.ctx n).scrub = (pa, len) :: more) ∧ ((s.ctx n).scrubPos < len) ∧ (Mem.wf s.mem = true)) :=
  ⟨quarantined { scrub := [(0x9000, 64)] } [], 1, 0x9000, 64, [], by and_intros <;> decide +kernel⟩

theorem witness_CastingEntries_14 : ∃ s : State, ∃ n : Nat, (((s.ctx n).quar = true) ∧ ((s.quarCores.filter (fun x => x.1 = n)).length * 2 ^ 20 + (s.ctx n).scrub.foldl (fun m x => m + x.2) 0 ≤ (s.ctx n).scrubPos)) :=
  ⟨quarantined { scrub := [(0x9000, 64)], scrubPos := 64 } [], 1, by and_intros <;> decide +kernel⟩

theorem witness_RegisterWrites_0 : ∃ s : State, ∃ i ∈ [Instr.qtailWrite, .queueDescWrite, .contextWrite, .bpctlWrite, .keyInstall, .hbaseWrite,
    .podcfgWrite, .inval, .frptrWrite, .registerWrite], (s.svc.boot < 5 ∨ s.svc.recovery = true ∨ s.svc.status ≠ 0) ∧ i = i :=
  ⟨reg 3 0 0 4 [] [] { recovery := true }, .inval, by decide +kernel, by decide +kernel⟩

theorem witness_RegisterWrites_1 : ∃ s : State, ((¬ (s.svc.boot < 5 ∨ s.svc.recovery = true ∨ s.svc.status ≠ 0)) ∧ ((s.queue (s.bus.a % 65536)).tail.toNat ≤ s.bus.v.toNat) ∧ (s.bus.v.toNat ≤ (s.queue (s.bus.a % 65536)).compseq.toNat + 2 ^ (s.queue (s.bus.a % 65536)).log2)) :=
  ⟨reg 3 0 0 4 [] [(3, queue0)], by and_intros <;> decide +kernel⟩

theorem witness_RegisterWrites_2 : ∃ s : State, ((¬ (s.svc.boot < 5 ∨ s.svc.recovery = true ∨ s.svc.status ≠ 0)) ∧ ((s.bus.v.toNat < (s.queue (s.bus.a % 65536)).tail.toNat ∨ (s.queue (s.bus.a % 65536)).compseq.toNat + 2 ^ (s.queue (s.bus.a % 65536)).log2 < s.bus.v.toNat))) :=
  ⟨reg 3 0 0 5 [] [(3, queue0)], by and_intros <;> decide +kernel⟩

theorem witness_RegisterWrites_3 : ∃ s : State, ((¬ (s.svc.boot < 5 ∨ s.svc.recovery = true ∨ s.svc.status ≠ 0)) ∧ (s.bus.b ≠ 2) ∧ ((s.queue (s.bus.a % 65536)).w2.getLsbD 43 = true)) :=
  ⟨reg 3 1 0 5 [] [(3, queue0)], by and_intros <;> decide +kernel⟩

theorem witness_RegisterWrites_4 : ∃ s : State, ((¬ (s.svc.boot < 5 ∨ s.svc.recovery = true ∨ s.svc.status ≠ 0)) ∧ (s.bus.b = 0) ∧ ((s.queue (s.bus.a % 65536)).w2.getLsbD 43 = false)) :=
  ⟨reg 3 0 0 5 [] [(3, { queue0 with w2 := BitVec.ofNat 64 (2 ^ 52 + 2 * 2 ^ 47 + 5 * 2 ^ 44) })], by and_intros <;> decide +kernel⟩

theorem witness_RegisterWrites_5 : ∃ s : State, ((¬ (s.svc.boot < 5 ∨ s.svc.recovery = true ∨ s.svc.status ≠ 0)) ∧ (s.bus.b = 1) ∧ ((s.queue (s.bus.a % 65536)).w2.getLsbD 43 = false)) :=
  ⟨reg 3 1 0 5 [] [(3, { queue0 with w2 := BitVec.ofNat 64 (2 ^ 52 + 2 * 2 ^ 47 + 5 * 2 ^ 44) })], by and_intros <;> decide +kernel⟩

theorem witness_RegisterWrites_6 : ∃ s : State, ((¬ (s.svc.boot < 5 ∨ s.svc.recovery = true ∨ s.svc.status ≠ 0)) ∧ (s.bus.b = 2)) :=
  ⟨reg 3 2 0 5 [] [(3, queue0)], by and_intros <;> decide +kernel⟩

theorem witness_RegisterWrites_7 : ∃ s : State, ((¬ (s.svc.boot < 5 ∨ s.svc.recovery = true ∨ s.svc.status ≠ 0)) ∧ (s.bus.b = 2) ∧ ((s.queue (s.bus.a % 65536)).w2.getLsbD 43 = true)) :=
  ⟨reg 3 2 0 5 [] [(3, queue0)], by and_intros <;> decide +kernel⟩

theorem witness_RegisterWrites_8 : ∃ s : State, ((¬ (s.svc.boot < 5 ∨ s.svc.recovery = true ∨ s.svc.status ≠ 0)) ∧ (s.bus.b = 2) ∧ ((s.queue (s.bus.a % 65536)).w2.getLsbD 43 = false) ∧ (s.bus.v.getLsbD 43 = true) ∧ ((s.ctx (s.bus.v.toNat / 2 ^ 52)).w[2].getLsbD 63 = false)) :=
  ⟨reg 3 2 0 (BitVec.ofNat 64 (2 ^ 52 + 2 * 2 ^ 47 + 2 ^ 43)) [(1, mapped)] [(3, { queue0 with w2 := BitVec.ofNat 64 (2 ^ 52 + 2 * 2 ^ 47 + 5 * 2 ^ 44) })], by and_intros <;> decide +kernel⟩

theorem witness_RegisterWrites_9 : ∃ s : State, ((¬ (s.svc.boot < 5 ∨ s.svc.recovery = true ∨ s.svc.status ≠ 0)) ∧ (s.bus.b = 2) ∧ ((s.queue (s.bus.a % 65536)).w2.getLsbD 43 = false) ∧ (s.bus.v.getLsbD 43 = true) ∧ ((s.ctx (s.bus.v.toNat / 2 ^ 52)).w[2].getLsbD 63 = true) ∧ ((s.ctx (s.bus.v.toNat / 2 ^ 52)).quar = false) ∧ (1 ≤ s.bus.v.toNat / 2 ^ 47 % 32) ∧ (s.bus.v.toNat / 2 ^ 47 % 32 ≤ 16)) :=
  ⟨reg 3 2 0 (BitVec.ofNat 64 (2 ^ 52 + 2 * 2 ^ 47 + 2 ^ 43)) [(1, enabled)] [(3, { queue0 with w2 := BitVec.ofNat 64 (2 ^ 52 + 2 * 2 ^ 47 + 5 * 2 ^ 44) })], by and_intros <;> decide +kernel⟩

theorem witness_RegisterWrites_10 : ∃ s : State, ((¬ (s.svc.boot < 5 ∨ s.svc.recovery = true ∨ s.svc.status ≠ 0)) ∧ ((s.ctx (s.bus.a % 4096)).w[2].getLsbD 63 = true) ∧ ((s.bus.b % 8) ≠ 2) ∧ ((s.bus.b % 8) ≠ 3) ∧ ((s.bus.b % 8) ≠ 4)) :=
  ⟨reg 1 7 0 5 [(1, enabled)], by and_intros <;> decide +kernel⟩

theorem witness_RegisterWrites_11 : ∃ s : State, ((¬ (s.svc.boot < 5 ∨ s.svc.recovery = true ∨ s.svc.status ≠ 0)) ∧ ((s.ctx (s.bus.a % 4096)).w[2].getLsbD 63 = true) ∧ (((s.bus.b % 8) = 3 ∨ (s.bus.b % 8) = 4))) :=
  ⟨reg 1 4 0 5 [(1, enabled)], by and_intros <;> decide +kernel⟩

theorem witness_RegisterWrites_12 : ∃ s : State, ((¬ (s.svc.boot < 5 ∨ s.svc.recovery = true ∨ s.svc.status ≠ 0)) ∧ ((s.ctx (s.bus.a % 4096)).w[2].getLsbD 63 = true) ∧ ((s.bus.b % 8) = 2)) :=
  ⟨reg 1 2 0 5 [(1, enabled)], by and_intros <;> decide +kernel⟩

theorem witness_RegisterWrites_13 : ∃ s : State, ((¬ (s.svc.boot < 5 ∨ s.svc.recovery = true ∨ s.svc.status ≠ 0)) ∧ ((s.ctx (s.bus.a % 4096)).w[2].getLsbD 63 = false) ∧ (((s.bus.b % 8) ≠ 2 ∨ s.bus.v.getLsbD 63 = false))) :=
  ⟨reg 1 2 0 5 [(1, mapped)], by and_intros <;> decide +kernel⟩

theorem witness_RegisterWrites_14 : ∃ s : State, ((¬ (s.svc.boot < 5 ∨ s.svc.recovery = true ∨ s.svc.status ≠ 0)) ∧ ((s.ctx (s.bus.a % 4096)).w[2].getLsbD 63 = false) ∧ ((s.bus.b % 8) = 2) ∧ (s.bus.v.getLsbD 63 = true) ∧ ((s.svc.boot < 8 ∨ (s.ctx (s.bus.a % 4096)).quar = true ∨ s.bus.v.getLsbD 62 = true ∧ (Tab.find s.keys (s.bus.v.toNat / 2 ^ 55 % 64) = none ∨ ∃ x ∈ s.quarSlots, x.2 = s.bus.v.toNat / 2 ^ 55 % 64)))) :=
  ⟨reg 1 2 0 0x8000000000000000 [(1, mapped)] [] { boot := 5 }, by and_intros <;> decide +kernel⟩

theorem witness_RegisterWrites_15 : ∃ s : State, ((¬ (s.svc.boot < 5 ∨ s.svc.recovery = true ∨ s.svc.status ≠ 0)) ∧ ((s.ctx (s.bus.a % 4096)).w[2].getLsbD 63 = false) ∧ ((s.bus.b % 8) = 2) ∧ (s.bus.v.getLsbD 63 = true) ∧ (s.svc.boot = 8) ∧ ((s.ctx (s.bus.a % 4096)).quar = false) ∧ ((s.svc.scrubFirst = true → ∀ x ∈ s.ctxs, x.2.quar = false)) ∧ (s.bus.v.getLsbD 62 = false) ∧ ((s.ctx (s.bus.a % 4096)).w[1] = 0)) :=
  ⟨reg 1 2 0 0x8000000000000000 [(1, mapped)] [] { boot := 8 }, by and_intros <;> decide +kernel⟩

theorem witness_RegisterWrites_16 : ∃ s : State, ((¬ (s.svc.boot < 5 ∨ s.svc.recovery = true ∨ s.svc.status ≠ 0)) ∧ ((s.ctx (s.bus.a % 4096)).w[2].getLsbD 63 = false) ∧ ((s.bus.b % 8) = 2) ∧ (s.bus.v.getLsbD 63 = true) ∧ (s.svc.scrubFirst = true) ∧ ((∃ x ∈ s.ctxs, x.2.quar = true))) :=
  ⟨reg 1 2 0 0x8000000000000000 [(1, mapped), (2, { quar := true })] [] { boot := 8, scrubFirst := true }, by and_intros <;> decide +kernel⟩

theorem witness_RegisterWrites_17 : ∃ s : State, (¬ (s.svc.boot < 5 ∨ s.svc.recovery = true ∨ s.svc.status ≠ 0)) :=
  ⟨reg 1 2 0 5 [(1, mapped)], by decide +kernel⟩

theorem witness_RegisterWrites_18 : ∃ s : State, ((¬ (s.svc.boot < 5 ∨ s.svc.recovery = true ∨ s.svc.status ≠ 0)) ∧ (((∃ x ∈ s.quarSlots, x.2 = (s.bus.b % 64)) ∨ ∃ x ∈ s.ctxs, x.2.w[2].getLsbD 63 = true ∧ x.2.w[2].getLsbD 62 = true ∧ x.2.w[2].toNat / 2 ^ 55 % 64 = (s.bus.b % 64)))) :=
  ⟨reg 0 5 0 0 [(1, { mapped with w := (Vector.replicate 8 0).set 2 (BitVec.ofNat 64 (2 ^ 63 + 2 ^ 62 + 5 * 2 ^ 55)) })], by and_intros <;> decide +kernel⟩

theorem witness_RegisterWrites_19 : ∃ s : State, ((¬ (s.svc.boot < 5 ∨ s.svc.recovery = true ∨ s.svc.status ≠ 0)) ∧ (¬ ((∃ x ∈ s.quarSlots, x.2 = (s.bus.b % 64)) ∨ ∃ x ∈ s.ctxs, x.2.w[2].getLsbD 63 = true ∧ x.2.w[2].getLsbD 62 = true ∧ x.2.w[2].toNat / 2 ^ 55 % 64 = (s.bus.b % 64)))) :=
  ⟨reg 0 5 0 0 [(1, enabled)], by and_intros <;> decide +kernel⟩

theorem witness_RegisterWrites_20 : ∃ s : State, ((¬ (s.svc.boot < 5 ∨ s.svc.recovery = true ∨ s.svc.status ≠ 0))) ∧ (someEnabled s) :=
  ⟨reg 0 0 0 0 [(1, enabled)], by decide +kernel, by unfold someEnabled; decide +kernel⟩

theorem witness_RegisterWrites_21 : ∃ s : State, ((¬ (s.svc.boot < 5 ∨ s.svc.recovery = true ∨ s.svc.status ≠ 0))) ∧ (someEnabled s) :=
  ⟨reg 0 0 0 0 [(1, enabled)], by decide +kernel, by unfold someEnabled; decide +kernel⟩

theorem witness_RegisterWrites_22 : ∃ s : State, ((¬ (s.svc.boot < 5 ∨ s.svc.recovery = true ∨ s.svc.status ≠ 0))) ∧ (¬ someEnabled s) :=
  ⟨reg 0 0 0 0 [(1, mapped)], by decide +kernel, by unfold someEnabled; decide +kernel⟩

theorem witness_RegisterWrites_23 : ∃ s : State, ((¬ (s.svc.boot < 5 ∨ s.svc.recovery = true ∨ s.svc.status ≠ 0))) ∧ (¬ someEnabled s) :=
  ⟨reg 0 0 0 0 [(1, mapped)], by decide +kernel, by unfold someEnabled; decide +kernel⟩

theorem witness_RegisterWrites_24 : ∃ s : State, (¬ (s.svc.boot < 5 ∨ s.svc.recovery = true ∨ s.svc.status ≠ 0)) :=
  ⟨reg 0 0 0 5, by decide +kernel⟩

theorem witness_RegisterWrites_25 : ∃ s : State, (s.invs = []) :=
  ⟨base, by decide +kernel⟩

theorem witness_RegisterWrites_26 : ∃ s : State, ∃ v, ∃ rest, ((s.invs = v :: rest) ∧ (v.getLsbD 51 = true) ∧ ((s.ctx (v.toNat / 2 ^ 52)).w[1] = 0)) :=
  ⟨{ base with invs := [BitVec.ofNat 64 (2 ^ 52 + 2 ^ 51)] }, BitVec.ofNat 64 (2 ^ 52 + 2 ^ 51), [], by and_intros <;> decide +kernel⟩

theorem witness_RegisterWrites_27 : ∃ s : State, ∃ v, ∃ rest, ((s.invs = v :: rest) ∧ (v.toNat / 2 ^ 48 % 16 = 0)) :=
  ⟨{ onDie { waits := [{ waitJob 3 with cmd := { (waitJob 3).cmd with cmd := 0x5008 }, watch := [(1, 1)] }, { waitJob 3 with watch := [(1, 1)] }] } with invs := [BitVec.ofNat 64 (2 ^ 52 + 5 * 2 ^ 12)] }, BitVec.ofNat 64 (2 ^ 52 + 5 * 2 ^ 12), [], by and_intros <;> decide +kernel⟩

theorem witness_RegisterWrites_28 : ∃ s : State, ((¬ (s.svc.boot < 5 ∨ s.svc.recovery = true ∨ s.svc.status ≠ 0)) ∧ ((∀ f ∈ s.faults, f.inBuf = true)) ∧ ((∀ h < s.pens.length, ∀ i, (s.pen h).du.parked = some i → s.bus.v.toNat ≤ i ∧ i < 2 ^ 64))) :=
  ⟨reg 0 0 0 4, by and_intros <;> decide +kernel⟩

theorem witness_RegisterWrites_29 : ∃ s : State, ((¬ (s.svc.boot < 5 ∨ s.svc.recovery = true ∨ s.svc.status ≠ 0)) ∧ (s.bus.a = 0)) :=
  ⟨reg 0 0 0 4, by and_intros <;> decide +kernel⟩

theorem witness_RegisterWrites_30 : ∃ s : State, ((¬ (s.svc.boot < 5 ∨ s.svc.recovery = true ∨ s.svc.status ≠ 0)) ∧ (s.bus.a = 1)) :=
  ⟨reg 1 0 0 4, by and_intros <;> decide +kernel⟩

theorem witness_RegisterWrites_31 : ∃ s : State, ((¬ (s.svc.boot < 5 ∨ s.svc.recovery = true ∨ s.svc.status ≠ 0)) ∧ (s.bus.a = 2)) :=
  ⟨reg 2 0 0 4, by and_intros <;> decide +kernel⟩

theorem witness_RegisterWrites_32 : ∃ s : State, ((¬ (s.svc.boot < 5 ∨ s.svc.recovery = true ∨ s.svc.status ≠ 0)) ∧ (s.bus.a = 3)) :=
  ⟨reg 3 0 0 4, by and_intros <;> decide +kernel⟩

theorem witness_RegisterWrites_33 : ∃ s : State, ((¬ (s.svc.boot < 5 ∨ s.svc.recovery = true ∨ s.svc.status ≠ 0)) ∧ (s.bus.a = 4)) :=
  ⟨reg 4 0 0 4, by and_intros <;> decide +kernel⟩

theorem witness_RegisterWrites_34 : ∃ s : State, ((¬ (s.svc.boot < 5 ∨ s.svc.recovery = true ∨ s.svc.status ≠ 0)) ∧ (s.bus.a = 5)) :=
  ⟨reg 5 0 0 4, by and_intros <;> decide +kernel⟩

theorem witness_RegisterWrites_35 : ∃ s : State, ((¬ (s.svc.boot < 5 ∨ s.svc.recovery = true ∨ s.svc.status ≠ 0)) ∧ (s.bus.a = 6)) :=
  ⟨reg 6 0 0 4, by and_intros <;> decide +kernel⟩

theorem witness_RegisterWrites_36 : ∃ s : State, ((¬ (s.svc.boot < 5 ∨ s.svc.recovery = true ∨ s.svc.status ≠ 0)) ∧ (7 ≤ s.bus.a)) :=
  ⟨reg 7 0 0 4, by and_intros <;> decide +kernel⟩

theorem witness_ServiceEvents_0 : ∃ s : State, (s.bus.v = 0) :=
  ⟨reg 1 0 0 0, by decide +kernel⟩

theorem witness_ServiceEvents_1 : ∃ s : State, ((s.bus.v ≠ 0) ∧ (s.bus.b = 0)) :=
  ⟨reg 1 0 5 1, by and_intros <;> decide +kernel⟩

theorem witness_ServiceEvents_2 : ∃ s : State, ∃ t0, ∃ t1, ∃ t2, ∃ t3, ∃ i, ((s.bus.nums = [t0, t1, t2, t3, i]) ∧ (s.pens = []) ∧ (s.svc.plim < s.bus.a) ∧ ((∀ x ∈ [t0, t1, t2, t3], x < s.svc.talm)) ∧ (i < 128)) :=
  ⟨{ base with bus := { a := 3001, nums := [50, 60, 70, 109, 127] }, pens := [] }, 50, 60, 70, 109, 127, by and_intros <;> decide +kernel⟩

theorem witness_ServiceEvents_3 : ∃ s : State, ∃ t0, ∃ rest, ((s.bus.nums = t0 :: rest) ∧ (s.svc.talm ≤ t0)) :=
  ⟨{ base with bus := { nums := [110] } }, 110, [], by and_intros <;> decide +kernel⟩

theorem witness_ServiceEvents_6 : ∃ s : State, (((s.ctx (s.bus.a % 4096)).w[2].getLsbD 63 = false ∨ (s.ctx (s.bus.a % 4096)).quar = true)) :=
  ⟨reg 1 0 0 0 [(1, mapped)], by decide +kernel⟩

theorem witness_ServiceEvents_7 : ∃ s : State, (((s.ctx (s.bus.a % 4096)).w[2].getLsbD 63 = true) ∧ ((s.ctx (s.bus.a % 4096)).quar = false)) :=
  ⟨reg 1 0 0 0 [(1, enabled)], by and_intros <;> decide +kernel⟩

theorem witness_ServiceEvents_11 : ∃ s : State, ((8 ≤ s.svc.boot ∨ s.svc.recovery = true ∨ s.svc.status ≠ 0)) :=
  ⟨reg 0 0 0 0 [] [] { boot := 8 }, by decide +kernel⟩

theorem witness_ServiceEvents_12_or_13 : ∃ s : State, (s.svc.boot < 8) ∧ (s.svc.recovery = false) ∧ (s.svc.status = 0) ∧ (s.svc.boot = 0) ∧
    (Config.slhVerify s.svc.fusedKey s.svc.flash = false ∨ Config.slhVerify s.svc.fusedKey s.svc.flash = true) :=
  ⟨base, by decide +kernel, rfl, rfl, rfl, by cases Config.slhVerify base.svc.fusedKey base.svc.flash <;> decide⟩

theorem witness_ServiceEvents_14 : ∃ s : State, ((s.svc.boot < 8) ∧ (s.svc.recovery = false) ∧ (s.svc.status = 0) ∧ (s.svc.boot = 1)) :=
  ⟨reg 0 0 0 0 [] [] { boot := 1 }, by and_intros <;> decide +kernel⟩

theorem witness_ServiceEvents_15 : ∃ s : State, ((s.svc.boot < 8) ∧ (s.svc.recovery = false) ∧ (s.svc.status = 0) ∧ (2 ≤ s.svc.boot) ∧ (s.bus.a = 0) ∧ ((s.svc.boot = 5 → ∀ x ∈ s.ctxs, x.2.quar = false))) :=
  ⟨reg 0 0 0 0 [] [] { boot := 5 }, by and_intros <;> decide +kernel⟩

theorem witness_ServiceEvents_18 : ∃ s : State, ((s.svc.boot < 5) ∧ (s.svc.recovery = false) ∧ (s.svc.status = 0)) :=
  ⟨reg 0 0 0 0 [] [] { boot := 3 }, by and_intros <;> decide +kernel⟩

theorem witness_ServiceEvents_19 : ∃ s : State, ((5 ≤ s.svc.boot ∨ s.svc.recovery = true ∨ s.svc.status ≠ 0)) :=
  ⟨reg 0 0 0 0, by decide +kernel⟩

theorem witness_ServiceEvents_20 : ∃ s : State, ((s.svc.boot < 5 ∨ s.svc.recovery = true ∨ s.svc.status ≠ 0)) :=
  ⟨reg 0 0 0 0 [] [] { boot := 3 }, by decide +kernel⟩

theorem witness_ServiceEvents_21 : ∃ s : State, ((5 ≤ s.svc.boot) ∧ (s.svc.recovery = false) ∧ (s.svc.status = 0)) :=
  ⟨reg 0 0 0 0, by and_intros <;> decide +kernel⟩

theorem witness_ServiceEvents_16 : ∃ s : State, ((s.svc.boot < 8) ∧ (s.svc.recovery = false) ∧ (s.svc.status = 0) ∧ (s.svc.boot = 5) ∧ ((∃ x ∈ s.ctxs, x.2.quar = true))) :=
  ⟨reg 0 0 0 0 [(1, { quar := true })] [] { boot := 5 }, by and_intros <;> decide +kernel⟩

theorem witness_ServiceEvents_17 : ∃ s : State, ((s.svc.boot < 8) ∧ (s.svc.recovery = false) ∧ (s.svc.status = 0) ∧ (s.svc.boot = 2 ∨ s.svc.boot = 3 ∨ s.svc.boot = 4 ∨ s.svc.boot = 6) ∧ (s.bus.a ≠ 0)) :=
  ⟨reg 1 0 0 0 [] [] { boot := 6 }, by and_intros <;> decide +kernel⟩

theorem witness_OutsideEvents_0 : ∃ s : State, ((16 ≤ s.bus.a ∨ s.svc.boot < 7)) :=
  ⟨flit 0 {}, by decide +kernel⟩

theorem witness_OutsideEvents_1 : ∃ s : State, ((s.bus.a < 16) ∧ (7 ≤ s.svc.boot) ∧ ((¬ (s.bus.data.length = 64 ∧ leNat (s.bus.data.drop 60) = crc32c (s.bus.data.take 60)) ∨ ((Tab.find s.svc.flitNext s.bus.a).getD 0) < s.bus.b))) :=
  ⟨flit 1 { boot := 7 }, by and_intros <;> first | decide +kernel | exact ⟨_, _, rfl⟩ | exact ⟨_, rfl⟩ | (intros; contradiction) | exact .inr (by decide +kernel)⟩

theorem witness_OutsideEvents_2 : ∃ s : State, ((s.bus.a < 16) ∧ (7 ≤ s.svc.boot) ∧ ((s.bus.data.length = 64 ∧ leNat (s.bus.data.drop 60) = crc32c (s.bus.data.take 60))) ∧ (s.bus.b < ((Tab.find s.svc.flitNext s.bus.a).getD 0))) :=
  ⟨flit 0 { boot := 7, flitNext := [(2, 3)] }, by and_intros <;> decide +kernel⟩

theorem witness_OutsideEvents_3 : ∃ s : State, ((s.bus.a < 16) ∧ (7 ≤ s.svc.boot) ∧ ((s.bus.data.length = 64 ∧ leNat (s.bus.data.drop 60) = crc32c (s.bus.data.take 60))) ∧ (s.bus.b = ((Tab.find s.svc.flitNext s.bus.a).getD 0))) :=
  ⟨flit 0 { boot := 7 }, by and_intros <;> decide +kernel⟩

theorem witness_OutsideEvents_7 : ∃ s : State, ∃ id, ∃ code, ∃ x, ((Tab.find s.svc.peers id = some x) ∧ ((code ≠ 0 ∨ x.flit.getD 1 0 = 5))) :=
  ⟨{ base with svc := { peers := [(6, { cmd := 3, flit := [0, 5] })] } }, 6, 0, { cmd := 3, flit := [0, 5] }, by and_intros <;> decide +kernel⟩

theorem witness_OutsideEvents_8 : ∃ s : State, ∃ id, ∃ x, ((Tab.find s.svc.peers id = some x) ∧ (x.flit.getD 1 0 = 6) ∧ (s.crypt = []) ∧ (Mem.wf s.mem = true)) :=
  ⟨{ base with svc := { peers := [(6, { cmd := 3, flit := [0, 6, 0, 6, 9, 0x100] })] } }, 6, { cmd := 3, flit := [0, 6, 0, 6, 9, 0x100] }, by and_intros <;> decide +kernel⟩

theorem witness_OutsideEvents_10 : ∃ s : State, ∃ id, ∃ x, (Tab.find s.svc.flush id = some x) :=
  ⟨{ base with svc := { flush := [(6, { left := [5, 8] })] } }, 6, { left := [5, 8] }, by decide +kernel⟩

theorem witness_OutsideEvents_12 : ∃ s : State, ∃ tag, ∃ ofs, ∃ n, ((ofs < 2 ^ 40) ∧ (s.exported tag ofs n false = false)) :=
  ⟨base, 9, 0x1000, 8, by and_intros <;> decide +kernel⟩

theorem witness_OutsideEvents_13 : ∃ s : State, ∃ tag, ∃ ofs, ∃ n, ((ofs < 2 ^ 40) ∧ (s.exported tag ofs n false = true) ∧ ((∃ k ∈ s.poison, ofs ≤ k ∧ k < ofs + n))) :=
  ⟨exporting [0x1004], 9, 0x1000, 8, by and_intros <;> decide +kernel⟩

theorem witness_OutsideEvents_14 : ∃ s : State, ∃ tag, ∃ ofs, ∃ n, ((ofs < 2 ^ 40) ∧ (s.exported tag ofs n false = true) ∧ (s.crypt = []) ∧ ((∀ k ∈ s.poison, ¬ (ofs ≤ k ∧ k < ofs + n)))) :=
  ⟨exporting [], 9, 0x1000, 8, by and_intros <;> decide +kernel⟩

theorem witness_OutsideEvents_15 : ∃ s : State, (((s.svc.boot < 5 ∨ s.svc.recovery = true ∨ s.svc.status ≠ 0) ∧ s.bus.c.testBit 51 = false)) :=
  ⟨reg 0 4 0x1000 0 [] [] { recovery := true }, by and_intros <;> decide +kernel⟩

theorem witness_OutsideEvents_16 : ∃ s : State, ((¬ ((s.svc.boot < 5 ∨ s.svc.recovery = true ∨ s.svc.status ≠ 0) ∧ s.bus.c.testBit 51 = false)) ∧ ((∃ k ∈ s.poison, s.bus.c ≤ k ∧ k < s.bus.c + s.bus.b)) ∧ ((s.bus.a = 0 ∨ s.bus.a = 2))) :=
  ⟨{ reg 0 4 0x1000 0 with poison := [0x1002] }, by and_intros <;> decide +kernel⟩

theorem witness_OutsideEvents_17 : ∃ s : State, ((¬ ((s.svc.boot < 5 ∨ s.svc.recovery = true ∨ s.svc.status ≠ 0) ∧ s.bus.c.testBit 51 = false)) ∧ (((∃ k ∈ s.poison, s.bus.c ≤ k ∧ k < s.bus.c + s.bus.b) → s.bus.a = 1)) ∧ (s.bus.v = 0) ∧ (s.crypt = []) ∧ (s.bus.a = 0)) :=
  ⟨reg 0 4 0x1000 0, by and_intros <;> decide +kernel⟩

theorem witness_OutsideEvents_18 : ∃ s : State, ((¬ ((s.svc.boot < 5 ∨ s.svc.recovery = true ∨ s.svc.status ≠ 0) ∧ s.bus.c.testBit 51 = false)) ∧ (((∃ k ∈ s.poison, s.bus.c ≤ k ∧ k < s.bus.c + s.bus.b) → s.bus.a = 1)) ∧ (s.bus.v = 0) ∧ (s.crypt = []) ∧ (s.bus.a = 1) ∧ (Mem.wf s.mem = true)) :=
  ⟨reg 1 4 0x1000 0, by and_intros <;> decide +kernel⟩

theorem witness_OutsideEvents_19 : ∃ s : State, ((¬ ((s.svc.boot < 5 ∨ s.svc.recovery = true ∨ s.svc.status ≠ 0) ∧ s.bus.c.testBit 51 = false)) ∧ (((∃ k ∈ s.poison, s.bus.c ≤ k ∧ k < s.bus.c + s.bus.b) → s.bus.a = 1)) ∧ (s.bus.v = 0) ∧ (s.crypt = []) ∧ (s.bus.a = 2) ∧ (Mem.wf s.mem = true)) :=
  ⟨reg 2 4 0x1000 0, by and_intros <;> decide +kernel⟩

theorem witness_OutsideEvents_21 : ∃ s : State, (s.time % 128 ≠ 0) :=
  ⟨base, by decide +kernel⟩

theorem witness_OutsideEvents_22 : ∃ s : State, ∃ key, ∃ as_, ((s.time % 128 = 0) ∧ (s.svc.gather = [(key, as_, [])]) ∧ (as_ ≠ [])) :=
  ⟨{ base with time := 128, svc := { gather := [(5, [arr 7 3, arr 8 3], [])] } }, 5, [arr 7 3, arr 8 3], by and_intros <;> decide +kernel⟩

theorem witness_OutsideEvents_23 : ∃ s : State, ∃ key, ∃ as_, ((s.time % 128 = 0) ∧ (s.svc.gather = [(key, [], as_)]) ∧ (as_ ≠ [])) :=
  ⟨{ base with time := 128, svc := { gather := [(5, [], [arr 7 3])] } }, 5, [arr 7 3], by and_intros <;> decide +kernel⟩

theorem witness_OutsideEvents_24 : ∃ s : State, ∃ key, ∃ sign, ∃ n, ∃ exp, ∃ m, ∃ ids, ((s.bus.nums = [3, key, sign, n, exp, m] ++ ids) ∧ (n = ids.length)) :=
  ⟨{ base with bus := { nums := [3, 5, 0, 2, 3, 1, 7, 8] } }, 5, 0, 2, 3, 1, [7, 8], by and_intros <;> decide +kernel⟩

theorem witness_OutsideEvents_25 : ∃ s : State, ∃ c : CountMsg, ∃ rest : List CountMsg, ∃ a, ((s.bus.nums = []) ∧ (s.svc.countOut = c :: rest) ∧ (c.back = false) ∧ (Tab.find s.svc.podBars c.key = none) ∧ (s.svc.podBars.length < 4096) ∧ (c.arrs.head? = some a) ∧ ((∀ x ∈ c.arrs, x.num = a.num)) ∧ (c.arrs.length < a.num)) :=
  ⟨switch ({ key := 5, arrs := [arr 7 2] } :: []) [], { key := 5, arrs := [arr 7 2] }, [], arr 7 2, by and_intros <;> decide +kernel⟩

theorem witness_OutsideEvents_26 : ∃ s : State, ∃ c : CountMsg, ∃ rest : List CountMsg, ∃ a, ((s.bus.nums = []) ∧ (s.svc.countOut = c :: rest) ∧ (c.back = false) ∧ (Tab.find s.svc.podBars c.key = none) ∧ (s.svc.podBars.length < 4096) ∧ (c.arrs.head? = some a) ∧ ((∀ x ∈ c.arrs, x.num = a.num)) ∧ (a.num ≤ c.arrs.length)) :=
  ⟨switch ({ key := 5, arrs := [arr 7 1] } :: []) [], { key := 5, arrs := [arr 7 1] }, [], arr 7 1, by and_intros <;> decide +kernel⟩

theorem witness_OutsideEvents_27 : ∃ s : State, ∃ c : CountMsg, ∃ rest : List CountMsg, ∃ as_, ∃ e, ((s.bus.nums = []) ∧ (s.svc.countOut = c :: rest) ∧ (c.back = false) ∧ (Tab.find s.svc.podBars c.key = some (as_, e)) ∧ ((∀ x ∈ c.arrs, x.num = e ∨ x.member ≠ s.member)) ∧ (as_.length + c.arrs.length < e)) :=
  ⟨switch ({ key := 5, arrs := [arr 7 3] } :: []) [(5, ([arr 8 3], 3))], { key := 5, arrs := [arr 7 3] }, [], [arr 8 3], 3, by and_intros <;> decide +kernel⟩

theorem witness_OutsideEvents_28 : ∃ s : State, ∃ c : CountMsg, ∃ rest : List CountMsg, ∃ as_, ∃ e, ((s.bus.nums = []) ∧ (s.svc.countOut = c :: rest) ∧ (c.back = false) ∧ (Tab.find s.svc.podBars c.key = some (as_, e)) ∧ ((∀ x ∈ c.arrs, x.num = e ∨ x.member ≠ s.member)) ∧ (e ≤ as_.length + c.arrs.length)) :=
  ⟨switch ({ key := 5, arrs := [arr 7 2] } :: []) [(5, ([arr 8 2], 2))], { key := 5, arrs := [arr 7 2] }, [], [arr 8 2], 2, by and_intros <;> decide +kernel⟩

theorem witness_OutsideEvents_29 : ∃ s : State, ∃ c : CountMsg, ∃ rest : List CountMsg, ∃ a, ∃ as_, ∃ e, ((s.bus.nums = []) ∧ (s.svc.countOut = c :: rest) ∧ (c.back = false) ∧ (Tab.find s.svc.podBars c.key = some (as_, e)) ∧ (c.arrs = [a]) ∧ (a.num ≠ e) ∧ (a.member = s.member) ∧ (as_.length + 1 < e)) :=
  ⟨switch ({ key := 5, arrs := [arr 7 2] } :: []) [(5, ([arr 8 3], 3))], { key := 5, arrs := [arr 7 2] }, [], arr 7 2, [arr 8 3], 3, by and_intros <;> decide +kernel⟩

theorem witness_OutsideEvents_30 : ∃ s : State, ∃ c : CountMsg, ∃ rest : List CountMsg, ∃ as_, ∃ e, ((s.bus.nums = []) ∧ (s.svc.countOut = c :: rest) ∧ (c.back = true) ∧ (Tab.find s.svc.podBars c.key = some (as_, e))) :=
  ⟨switch ({ key := 5, back := true, arrs := [arr 8 3] } :: []) [(5, ([arr 8 3], 3))], { key := 5, back := true, arrs := [arr 8 3] }, [], [arr 8 3], 3, by and_intros <;> decide +kernel⟩

theorem witness_OutsideEvents_31 : ∃ s : State, ∃ c : CountMsg, ∃ rest : List CountMsg, ((s.bus.nums = []) ∧ (s.svc.countOut = c :: rest) ∧ (c.back = true) ∧ (Tab.find s.svc.podBars c.key = none)) :=
  ⟨switch ({ key := 5, back := true, arrs := [arr 8 3] } :: []) [], { key := 5, back := true, arrs := [arr 8 3] }, [], by and_intros <;> decide +kernel⟩

theorem witness_OutsideEvents_32 : ∃ s : State, ∃ c : CountMsg, ∃ rest : List CountMsg, ((s.bus.nums = []) ∧ (s.svc.countOut = c :: rest) ∧ (c.back = false) ∧ (Tab.find s.svc.podBars c.key = none) ∧ (4096 ≤ s.svc.podBars.length) ∧ (rest = [])) :=
  ⟨switch ({ key := 5, arrs := [arr 7 2] } :: []) (List.replicate 4096 (9, ([], 0))), { key := 5, arrs := [arr 7 2] }, [], by and_intros <;> decide +kernel⟩

theorem witness_OutsideEvents_33 : ∃ s : State, ∃ c : CountMsg, ∃ rest : List CountMsg, ∃ g : CountMsg, ∃ more, ∃ as_, ∃ e, ((s.bus.nums = []) ∧ (s.svc.countOut = c :: rest) ∧ (c.back = false) ∧ (Tab.find s.svc.podBars c.key = none) ∧ (4096 ≤ s.svc.podBars.length) ∧ (rest = g :: more) ∧ (g.back = true) ∧ (g.key ≠ c.key) ∧ (Tab.find s.svc.podBars g.key = some (as_, e))) :=
  ⟨switch ({ key := 5, arrs := [arr 7 2] } :: [{ key := 6, back := true }]) (List.replicate 4096 (6, ([], 2))), { key := 5, arrs := [arr 7 2] }, [{ key := 6, back := true }], { key := 6, back := true }, [], [], 2, by and_intros <;> decide +kernel⟩

theorem witness_OutsideEvents_34 : ∃ s : State, ∃ b, ((s.bus.nums = []) ∧ (Tab.find (s.die 0).bars (s.bus.a * 256 + s.bus.b) = some b) ∧ (b.count ≠ 0) ∧ ((∀ m ∈ b.waiting, m.o.ord = .none))) :=
  ⟨{ onDie { bars := [(261, { expected := 2, count := 1, waiting := [arrival 2] })] } with bus := { a := 1, b := 5 } }, { expected := 2, count := 1, waiting := [arrival 2] }, by and_intros <;> decide +kernel⟩

theorem witness_OutsideEvents_35 : ∃ s : State, ((s.bus.nums = []) ∧ (Tab.find (s.die 0).bars (s.bus.a * 256 + s.bus.b) = none)) :=
  ⟨base, by and_intros <;> decide +kernel⟩

theorem witness_OutsideEvents_36 : ∃ s : State, ∃ m, ((s.bus.nums = [m.id]) ∧ (Tab.find (s.die 0).bars (s.bus.a * 256 + s.bus.b) = none) ∧ (s.pens.flatMap (·.syncs) = [m]) ∧ (m ∈ (s.pen m.pen).syncs) ∧ (m.o.ord = .none)) :=
  ⟨{ penWith { penOne with syncs := [cmd0] } with bus := { nums := [77] } }, cmd0, by and_intros <;> decide +kernel⟩

theorem witness_OutsideEvents_37 : ∃ s : State, ((s.bus.nums = []) ∧ (s.svc.countOut = [])) :=
  ⟨base, by and_intros <;> decide +kernel⟩

theorem witness_OutsideEvents_38 : ∃ s : State, ((∀ f ∈ s.svc.flushIn, ∃ l ∈ s.links, l ∉ f.2.2.2)) :=
  ⟨base, by decide +kernel⟩

theorem witness_OutsideEvents_39 : ∃ s : State, ((∀ f ∈ s.svc.flushIn, (fun (f : Nat × Nat × Nat × List Nat) => (∃ l ∈ s.links, l ∉ f.2.2.2) ∨ ((fun (tag : Nat) => ∃ x ∈ s.ctxs, x.2.w[2].getLsbD 63 = true ∧ x.2.w[7].toNat % 2 ^ 16 = tag) f.2.2.1 ∧ (fun (m id : Nat) => ∃ d : Fin 4, ∃ e ∈ s.dies[d].remote, (m, id) ∈ e.flush) f.1 f.2.1)) f)) :=
  ⟨{ onDie { remote := [{ agent := { core := 1030, tag := 9 }, flush := [(5, 6)] }] } with ctxs := [(1, { enabled with w := ((Vector.replicate 8 0).set 2 0x8000000000000000).set 7 9 })], svc := pods [(5, 6, 9, (List.range 16))] }, by and_intros <;> decide +kernel⟩

theorem witness_OutsideEvents_40 : ∃ s : State, ∃ f, ∃ pre, ∃ post, ((s.svc.flushIn = pre ++ f :: post) ∧ ((∀ g ∈ pre, (fun (f : Nat × Nat × Nat × List Nat) => (∃ l ∈ s.links, l ∉ f.2.2.2) ∨ ((fun (tag : Nat) => ∃ x ∈ s.ctxs, x.2.w[2].getLsbD 63 = true ∧ x.2.w[7].toNat % 2 ^ 16 = tag) f.2.2.1 ∧ (fun (m id : Nat) => ∃ d : Fin 4, ∃ e ∈ s.dies[d].remote, (m, id) ∈ e.flush) f.1 f.2.1)) g)) ∧ (¬ (fun (f : Nat × Nat × Nat × List Nat) => (∃ l ∈ s.links, l ∉ f.2.2.2) ∨ ((fun (tag : Nat) => ∃ x ∈ s.ctxs, x.2.w[2].getLsbD 63 = true ∧ x.2.w[7].toNat % 2 ^ 16 = tag) f.2.2.1 ∧ (fun (m id : Nat) => ∃ d : Fin 4, ∃ e ∈ s.dies[d].remote, (m, id) ∈ e.flush) f.1 f.2.1)) f)) :=
  ⟨{ base with svc := pods [(5, 6, 9, (List.range 16))] }, (5, 6, 9, (List.range 16)), [], [], by and_intros <;> decide +kernel⟩

/-- A reading of `n` bytes in a flat context. -/
theorem vread_ok {s : State} (f : Flat s) (va n : Nat) (h : va + n ≤ 2 ^ 30) : s.vread 1 va n = .ok (okOf [] (s.vread 1 va n)) := by
  obtain ⟨bs, hb, _⟩ := vread_flat f va n h
  rw [hb]; rfl

theorem vread_length {s : State} (f : Flat s) (va n : Nat) (h : va + n ≤ 2 ^ 30) : (okOf [] (s.vread 1 va n)).length = n := by
  obtain ⟨bs, hb, hl⟩ := vread_flat f va n h
  rw [hb]; exact hl

theorem vwrite_ok {s : State} (f : Flat s) (va : Nat) (bs : List Byte) (h : va + bs.length ≤ 2 ^ 30) :
    s.vwrite 1 va bs = .ok (okOf s (s.vwrite 1 va bs)) := by
  obtain ⟨t, ht⟩ := vwrite_flat f va bs h
  rw [ht]; rfl

theorem vread_at {s : State} (f : Flat s) {c va n : Nat} (v m : Nat) (hc : c = 1) (hv : va = v) (hn : n = m) (h : v + m ≤ 2 ^ 30) :
    s.vread c va n = .ok (okOf [] (s.vread 1 v m)) := by
  subst hc hv hn
  exact vread_ok f _ _ h

theorem vwrite_at {s : State} (f : Flat s) {c va : Nat} (v : Nat) (bs : List Byte) (hc : c = 1) (hv : va = v) (h : v + bs.length ≤ 2 ^ 30) :
    s.vwrite c va bs = .ok (okOf s (s.vwrite 1 v bs)) := by
  subst hc hv
  exact vwrite_ok f _ _ h

def patchEnt : Entry := ent0 [0, 0, 0, 0x200000, 1]

def patching : State := { work patchEnt with entries := [patchEnt], graphs := [graph0] }

theorem patching_flat : Flat patching := ⟨rfl, by decide +kernel, rfl⟩

def patchItems : List Byte := okOf [] (patching.vread 1 0x200000 40)

def patchFrom : List Byte := okOf [] (patching.vread 1 0 131072)

def patchTo : List Byte := patchFrom.take 0 ++ (patchItems.drop 8).take 32 ++ patchFrom.drop 32

theorem patchTo_length : patchTo.length ≤ 2 ^ 20 := by
  have h : patchFrom.length = 131072 := vread_length patching_flat 0 131072 (by decide)
  simp only [patchTo, List.length_append, List.length_take, List.length_drop, h]
  omega

theorem patchTo_eq : patchTable patchFrom 1 patchItems = some patchTo := by
  have h : (wordAt patchItems 0).toNat = 0 := by decide +kernel
  rw [patchTable, h, if_neg (by decide)]
  rfl

theorem witness_InstanceEntries_7 : ∃ s : State, ∃ e : Entry, ∃ g, ∃ items, ∃ tab, ∃ tab', ∃ s', ((AtWork s e) ∧ (s.graphOf e = some g) ∧ (s.entries.head? = some e) ∧ (e.word 4 ≠ 0) ∧ ((∀ x ∈ g.live, x = 0 ∨ x = g.newest ∨ x % 4 ≠ (g.newest + 1) % 4))) ∧ (s.vread e.ctx (e.word 3).toNat (40 * (e.word 4).toNat) = .ok items) ∧ (s.vread e.ctx (g.table g.newest).toNat 131072 = .ok tab) ∧ (patchTable tab (e.word 4).toNat items = some tab') ∧ (s.vwrite e.ctx (g.table (g.newest + 1)).toNat tab' = .ok s') :=
  ⟨patching, patchEnt, graph0, patchItems, patchFrom, patchTo, okOf patching (patching.vwrite 1 131072 patchTo), by and_intros <;> decide +kernel, by unfold patchItems; exact vread_at patching_flat 0x200000 40 rfl (by decide +kernel) (by decide +kernel) (by decide), by unfold patchFrom; exact vread_at patching_flat 0 131072 rfl (by decide +kernel) rfl (by decide), patchTo_eq, vwrite_at patching_flat 131072 patchTo rfl (by decide +kernel) (by have := patchTo_length; omega)⟩

def thawEnt : Entry := ent0 [0, 0, 0, 0x2000, 0]

/-- A casting of one core without its scratchpad: 64 bytes, 4 KiB for the pen, 0x37800 for the core. -/
def thawing : State :=
  { work thawEnt with pens := [{ penOne with frozen := .cast }], mem := [(0x2000, 1), (0x2008, 0x40), (0x2009, 0x88), (0x200A, 3)] }

def thawHd : List Byte := okOf [] (thawing.vread 1 0x2000 64)

theorem thawing_flat : Flat thawing := ⟨rfl, by decide +kernel, rfl⟩

theorem castRead_at {s : State} (f : Flat s) {c va : Nat} {hs : List Nat} {pad : Bool} (v m : Nat) (hc : c = 1) (hv : va = v)
    (hn : s.castingLen hs pad = m) (h : v + m ≤ 2 ^ 30) : s.castRead c va hs pad = .ok (okOf [] (s.vread 1 v m), []) := by
  subst hc hv
  obtain ⟨pl, hp, _, _⟩ := places_flat f .rd m va none h (by simp)
  have hq : s.places 1 va m .rd = .ok pl := hp
  have hw := vread_ok f va m h
  have he : s.vread 1 va m = s.readPlaces (s.home 1) pl none := by rw [State.vread, hq]
  rw [State.castRead, hn, hq]
  simp only [f.clean, if_true, List.all_nil, Bool.not_true, Bool.false_eq_true, if_false]
  rw [← he, hw]
  rfl

def preEnt : Entry := { launched with phase := 50, va := 0x3000, aux := 64 }

def preempted : State := { base with entries := [preEnt] }

theorem preempted_flat : Flat preempted := ⟨rfl, by decide +kernel, rfl⟩

def preemptedLen : Nat := preempted.castingLen (preempted.castPens preEnt.qid preEnt.seq) true

theorem witness_CastingEntries_6 : ∃ s : State, ∃ e : Entry, ∃ i : Entry, ∃ hd, ∃ bs, ∃ bad, ∃ plan, ((AtWork s e) ∧ (s.instOf e = some i) ∧ ((∃ h ∈ (s.castPens i.qid i.seq), (s.pen h).frozen = .cast)) ∧ (leNat (hd.take 2) = (s.castPens i.qid i.seq).length) ∧ (leNat ((hd.drop 8).take 8) = ((s.castPens i.qid i.seq).foldl (fun n h => n + 4096 + (s.pen h).h * (s.pen h).w * (0x37800 + if ((hd.getD 2 0).getLsbD 0) then 2 ^ 20 else 0)) 64)) ∧ (((hd.getD 2 0).getLsbD 0) = (s.pen ((s.castPens i.qid i.seq).headD 0)).withPad) ∧ (e.word 4 = 0) ∧ (s.thawPlan e (s.castPens i.qid i.seq) none = some plan)) ∧ (s.vread e.ctx (e.word 3).toNat 64 = .ok hd) ∧ (s.castRead e.ctx (e.word 3).toNat (s.castPens i.qid i.seq) ((hd.getD 2 0).getLsbD 0) = .ok (bs, bad)) :=
  ⟨thawing, thawEnt, launched, thawHd, okOf [] (thawing.vread 1 0x2000 0x38840), [], [(0, 0, 0, 0)], by and_intros <;> decide +kernel, vread_at thawing_flat 0x2000 64 rfl (by decide +kernel) rfl (by decide), castRead_at thawing_flat 0x2000 0x38840 rfl (by decide +kernel) (by decide +kernel) (by decide)⟩

theorem witness_CastingEntries_10 : ∃ s : State, ∃ n : Nat, ∃ e : Entry, ∃ plan, ∃ bs, ∃ bad, ((s.entries[n]? = some e) ∧ (e.phase = 50) ∧ (e.parked = none) ∧ (s.castPens e.qid e.seq ≠ []) ∧ (s.thawPlan e (s.castPens e.qid e.seq) none = some plan) ∧ ((∀ x ∈ s.entries, ¬ (fun (x : Entry) => x.ctx = e.ctx ∧ x.phase = 50 ∧ e.level < x.level ∧ s.thawPlan x (s.castPens x.qid x.seq) none ≠ none) x)) ∧ (s.keyBound e.ctx = true)) ∧ (s.castRead e.ctx e.va (s.castPens e.qid e.seq) true = .ok (bs, bad)) :=
  ⟨preempted, 0, preEnt, (preempted.thawPlan preEnt (preempted.castPens preEnt.qid preEnt.seq) none).getD [], okOf [] (preempted.vread 1 0x3000 preemptedLen), [], by and_intros <;> decide +kernel, castRead_at preempted_flat 0x3000 preemptedLen rfl rfl rfl (by decide +kernel)⟩

end Sys2Proof.Tests
end

section
/-! PROOFS. What reset leaves, and why the statement about `mma` and `mmat` fails: it overlooks what a counter notes of its beat. -/

namespace Sys2Proof.Machine

open Sys2Proof

/-! ### Reset -/

/-- A core that reset leaves is the core nothing has written. -/
theorem core_reset (c : Nat) : State.reset.core c = {} := rfl

theorem rdS_untouched (r : Fin 32) : ({} : Core).rdS r = 0 := by
  unfold Core.rdS
  split
  · rfl
  · exact Vector.getElem_replicate _

theorem v_untouched (r : Fin 32) : ({} : Core).v[r] = 0 := Vector.getElem_replicate _

/-- Settles O7: no core has an entry in the table of cores, so each reads as the core nothing has written. -/
theorem resetState : Obligations.ResetState := by
  unfold Obligations.ResetState
  have cores : ∀ c, (State.reset.core c).fsr = 0 ∧ (State.reset.core c).fen = 0 ∧ (State.reset.core c).dith = 0 ∧
      (State.reset.core c).rdQ 0 = BitVec.allOnes 256 ∧
      ∀ r : Fin 32, (State.reset.core c).rdS r = 0 ∧ (State.reset.core c).v[r] = 0 := fun c => by
    rw [core_reset]
    exact ⟨rfl, rfl, rfl, rdQ_zero _, fun r => ⟨rdS_untouched r, v_untouched r⟩⟩
  exact ⟨rfl, rfl, rfl, rfl, rfl, rfl, rfl, cores, fun _ => rfl⟩

/-! ### The checks of a multiply, in the words of the statements (R138, R153, R353) -/

/-- Capping CNT at 32 does not change whether it is 0 (R152). -/
theorem owned_iff (k : Core) (a : Fin 8) :
    k.owned a = true ↔ 0 < (k.oStat.toList.getD (a.val / 2) 0).toNat / 2 ^ 26 % 64 := by
  simp [Core.owned, oaCnt, bitsOf, natBits]

theorem aliased_iff (k : Core) (names : List (Fin 8)) : aliased k names ↔ names.any k.owned = true := by
  simp only [aliased, List.any_eq_true, owned_iff]

theorem ringFit_iff (r : Ring) (f : Fmt) (kt : Nat) : ringFit r f (kt + 1) ↔ r.fits f kt = true := by
  simp [ringFit, Ring.fits, and_assoc]

theorem ringBad_of_poison_nil {s : State} (hp : s.poison = []) (c : Nat) (r : Ring) (n : Nat) : s.ringBad c r n = false := by
  simp [State.ringBad, State.poisoned, hp]

theorem not_tilesPoisoned_of_poison_nil {s : State} (hp : s.poison = []) (g : Fin 8) (n : Nat) : ¬ tilesPoisoned s g n := by
  simp [tilesPoisoned, hp]

/-! ### What a multiply does to the counters (R316) -/

/-- A multiply of two rings passes its checks: its accumulator is no reflector's, both rings fit, and no byte is poisoned. -/
structure RingMultiply (s : State) (o : Mma) : Prop where
  byp : o.byp = false
  free : s.curCore.owned o.ad = false
  fitA : s.curCore.g[o.ga].fits o.ta o.kt.val = true
  fitB : s.curCore.g[o.gb].fits o.tb o.kt.val = true
  clean : s.poison = []

/-- The statement lets such a word change of the counters `evc` alone: the beat of the last count stays. -/
theorem multiplyWord_evcT {i : Instr} {s : State} {h : Hdr} {o : Mma} {tr : Bool} (hw : MultiplyWord i s h o tr)
    (hr : RingMultiply s o) : After (exec i s) (fun t => t.curCore.evcT = s.curCore.evcT) := by
  obtain ⟨-, -, -, issued⟩ := hw
  have hfree : ¬ aliased s.curCore (if o.byp && s.curCore.byp.valid then [o.ad, s.curCore.byp.src] else [o.ad]) := by
    simp [aliased_iff, hr.byp, hr.free]
  have hfit : (if o.byp then s.curCore.byp.valid = true ∧ s.curCore.byp.fmt = o.ta
      else ringFit s.curCore.g[o.ga] o.ta (o.kt.val + 1)) ∧ ringFit s.curCore.g[o.gb] o.tb (o.kt.val + 1) := by
    simp only [hr.byp, Bool.false_eq_true, if_false, ringFit_iff]
    exact ⟨hr.fitA, hr.fitB⟩
  have hclean : ¬ (isActive s h ∧ (o.byp = false ∧ tilesPoisoned s o.ga (o.kt.val + 1) ∨ tilesPoisoned s o.gb (o.kt.val + 1))) := by
    simp [not_tilesPoisoned_of_poison_nil hr.clean]
  obtain ⟨t, ht, -, hcore⟩ := issued hfree hfit hclean
  exact ⟨t, ht, (congrArg Core.evcT hcore :)⟩

/-- The meaning counts the k-blocks of an active one on source 4, which notes the beat. -/
theorem multiply_evcT {s : State} {h : Hdr} {o : Mma} (tr : Bool) (hr : RingMultiply s o) (ha : s.curCore.active h = true) :
    (s.multiply h o tr).curCore.evcT = (s.count s.cur.core 4 (o.kt.val + 1)).curCore.evcT := by
  simp only [State.multiply, hr.byp, hr.free, hr.fitA, hr.fitB, ha, ringBad_of_poison_nil hr.clean, Bool.false_eq_true, Bool.false_and,
    Bool.or_self, Bool.and_false, Bool.not_true, if_true, if_false, State.fly, curCore_modCur]
  rfl

/-- A word under q0 in its plain sense is active on every core (R50, R52). -/
theorem active_q0 (k : Core) : k.active {} = true := by
  simp [Core.active, Core.pred]

theorem exec_mma (h : Hdr) (o : Mma) (s : State) : exec (.mma h o) s = .next (s.multiply h o false) := rfl

/-- A core whose counter 0 is enabled (bit 15) for source 4, and whose ring 0 is initialised with one slot of FP16 tiles. -/
def countingCore : Core :=
  { evs := (Vector.replicate 8 0).set 0 0x8004, g := (Vector.replicate 8 {}).set 0 { cap := 1, fmt := .fp16 } }

theorem countingCore_free : countingCore.owned 0 = false := by decide

/-- Refutes O32: the statement lets an `mma` change `evc` of its core and no other field of the counters, but a core that counts
k-blocks (SRC 4 of R316) also notes what it has counted on the beat (`evcAdd`) and the beat itself (`evcT`). On beat 1 the core below
has last counted on beat 0; one active `mma` of ring 0 with itself moves `evcT` to 1. -/
theorem not_matrixMultiply : ¬ Obligations.MatrixMultiply := by
  unfold Obligations.MatrixMultiply
  intro hall
  let s : State := { time := 1, cores := [(0, countingCore)] }
  let o : Mma := { ad := 0, ga := 0, gb := 0, ta := .fp16, tb := .fp16, tacc := .fp32, kt := 0, byp := false, za := true,
                   ret := false, xp := false, sata := false }
  have hr : RingMultiply s o := ⟨rfl, countingCore_free, rfl, rfl, rfl⟩
  obtain ⟨t, ht, kept⟩ := multiplyWord_evcT (hall s {} o).1 hr
  rw [exec_mma, Host.Outcome.next.injEq] at ht
  have moved : t.curCore.evcT = 1 := by
    rw [← ht, multiply_evcT false hr (active_q0 _)]
    rfl
  have before : s.curCore.evcT = 0 := rfl
  omega

end Sys2Proof.Machine
end

section
/-! PROOFS. Every instruction answers a next state, a step runs what it fetches, and which of a beat's stops tstat names. -/

namespace Sys2Proof.Machine

open Sys2Proof

/-! ### Every meaning answers a next state

Most meanings are `.next` of a state by their definition. Those below branch before they answer, and each branch is such an answer. -/

theorem next_ite {c : Prop} [Decidable c] {x y : Out} (hx : ∃ t, x = .next t) (hy : ∃ t, y = .next t) :
    ∃ t, (if c then x else y) = .next t := by
  split
  · exact hx
  · exact hy

theorem execBld_next (h : Hdr) (d : Fin 16) (a : Fin 32) (idx : BitVec 12) (lb : Fin 256) (s : State) :
    ∃ t, execBld h d a idx lb s = .next t := by
  simp only [execBld]
  split <;> exact ⟨_, rfl⟩

theorem execMdrain_next (h : Hdr) (o : Mdrain) (s : State) : ∃ t, execMdrain h o s = .next t := by
  unfold execMdrain
  exact next_ite ⟨_, rfl⟩ (next_ite ⟨_, rfl⟩ ⟨_, rfl⟩)

theorem execGinit_next (h : Hdr) (g : Fin 8) (a : Fin 32) (ty : Fmt) (cap : Fin 256) (kbm1 : Fin 64) (s : State) :
    ∃ t, execGinit h g a ty cap kbm1 s = .next t := by
  simp only [execGinit]
  split <;> exact ⟨_, rfl⟩

theorem execGadv_next (h : Hdr) (g : Fin 8) (n : Fin 256) (s : State) : ∃ t, execGadv h g n s = .next t := by
  simp only [execGadv]
  split <;> exact ⟨_, rfl⟩

theorem execGpop_next (h : Hdr) (g : Fin 8) (n : Fin 256) (s : State) : ∃ t, execGpop h g n s = .next t := by
  simp only [execGpop]
  split <;> exact ⟨_, rfl⟩

theorem execGfill_next (h : Hdr) (g : Fin 8) (p : Fin 8) (ty : Fmt) (cnt : Fin 32) (s : State) :
    ∃ t, execGfill h g p ty cnt s = .next t := by
  simp only [execGfill]
  split <;> exact ⟨_, rfl⟩

theorem execLd_next (h : Hdr) (d : SPort) (n : Ns) (s : State) : ∃ t, execLd h d n s = .next t := by
  simp only [execLd]
  repeat' split
  all_goals exact ⟨_, rfl⟩

theorem execSt_next (h : Hdr) (d : SPort) (n : Ns) (s : State) : ∃ t, execSt h d n s = .next t := by
  simp only [execSt]
  repeat' split
  all_goals exact ⟨_, rfl⟩

theorem execSlotStart_next (h : Nat) (s : State) : ∃ t, execSlotStart h s = .next t := by
  simp only [execSlotStart]
  repeat' split
  all_goals exact ⟨_, rfl⟩

theorem execRewindResume_next (h : Nat) (s : State) : ∃ t, execRewindResume h s = .next t := by
  simp only [execRewindResume]
  split <;> exact ⟨_, rfl⟩

theorem execRestartHoldExpiry_next (h : Nat) (s : State) : ∃ t, execRestartHoldExpiry h s = .next t := by
  simp only [execRestartHoldExpiry]
  split <;> exact ⟨_, rfl⟩

theorem execLoadResponse_next (c : Nat) (s : State) : ∃ t, execLoadResponse c s = .next t := by
  unfold execLoadResponse
  split <;> exact ⟨_, rfl⟩

theorem execRecompactionEnd_next (c : Nat) (s : State) : ∃ t, execRecompactionEnd c s = .next t := by
  unfold execRecompactionEnd
  split <;> exact ⟨_, rfl⟩

theorem execRemoteAccessArrive_next (src dst : Nat) (s : State) : ∃ t, execRemoteAccessArrive src dst s = .next t := by
  simp only [execRemoteAccessArrive]
  repeat' split
  all_goals exact ⟨_, rfl⟩

theorem execRemoteWriteApply_next (d : Nat) (s : State) : ∃ t, execRemoteWriteApply d s = .next t := by
  simp only [execRemoteWriteApply]
  split <;> exact ⟨_, rfl⟩

theorem execLadleExecute_next (die e : Nat) (s : State) : ∃ t, execLadleExecute die e s = .next t := by
  simp only [execLadleExecute]
  split <;> exact ⟨_, rfl⟩

theorem execBellwetherOp_next (die : Nat) (s : State) : ∃ t, execBellwetherOp die s = .next t := by
  simp only [execBellwetherOp]
  split <;> exact ⟨_, rfl⟩

theorem execAwaitRecheck_next (die n : Nat) (s : State) : ∃ t, execAwaitRecheck die n s = .next t := by
  simp only [execAwaitRecheck]
  repeat' split
  all_goals exact ⟨_, rfl⟩

theorem execAwaitTimeout_next (die n : Nat) (s : State) : ∃ t, execAwaitTimeout die n s = .next t := by
  unfold execAwaitTimeout
  repeat' split
  all_goals exact ⟨_, rfl⟩

theorem execBarrierCount_next (die : Nat) (s : State) : ∃ t, execBarrierCount die s = .next t := by
  simp only [execBarrierCount]
  split <;> exact ⟨_, rfl⟩

theorem execDemandUnitCommand_next (h : Nat) (s : State) : ∃ t, execDemandUnitCommand h s = .next t := by
  simp only [execDemandUnitCommand]
  repeat' split
  all_goals exact ⟨_, rfl⟩

theorem execDemandRequest_next (h i : Nat) (s : State) : ∃ t, execDemandRequest h i s = .next t := by
  simp only [execDemandRequest]
  repeat' split
  all_goals exact ⟨_, rfl⟩

theorem execOutputDelivery_next (h i : Nat) (s : State) : ∃ t, execOutputDelivery h i s = .next t := by
  simp only [execOutputDelivery]
  repeat' split
  all_goals exact ⟨_, rfl⟩

theorem execDroveAccept_next (die ch : Nat) (s : State) : ∃ t, execDroveAccept die ch s = .next t := by
  simp only [execDroveAccept]
  repeat' split
  all_goals exact ⟨_, rfl⟩

theorem execDroveStage_next (die ch stage : Nat) (s : State) : ∃ t, execDroveStage die ch stage s = .next t := by
  simp only [execDroveStage]
  repeat' split
  all_goals exact ⟨_, rfl⟩

theorem execDroveTableOp_next (die ch : Nat) (s : State) : ∃ t, execDroveTableOp die ch s = .next t := by
  simp only [execDroveTableOp]
  split <;> exact ⟨_, rfl⟩

theorem execDcommitDrained_next (die ch : Nat) (s : State) : ∃ t, execDcommitDrained die ch s = .next t := by
  simp only [execDcommitDrained]
  repeat' split
  all_goals exact ⟨_, rfl⟩

theorem execConfigLoad_next (d : Nat) (s : State) : ∃ t, execConfigLoad d s = .next t := by
  simp only [execConfigLoad]
  split <;> exact ⟨_, rfl⟩

theorem execCompletionTokenDelivery_next (c port : Nat) (s : State) : ∃ t, execCompletionTokenDelivery c port s = .next t := by
  simp only [execCompletionTokenDelivery]
  repeat' split
  all_goals exact ⟨_, rfl⟩

theorem execFinRecord_next (h : Nat) (s : State) : ∃ t, execFinRecord h s = .next t := by
  simp only [execFinRecord]
  split <;> exact ⟨_, rfl⟩

theorem execPenEnd_next (h : Nat) (s : State) : ∃ t, execPenEnd h s = .next t := by
  simp only [execPenEnd]
  repeat' split
  all_goals exact ⟨_, rfl⟩

theorem execPreemptRestore_next (n : Nat) (s : State) : ∃ t, execPreemptRestore n s = .next t := by
  simp only [execPreemptRestore]
  repeat' split
  all_goals exact ⟨_, rfl⟩

theorem execScrubComplete_next (n : Nat) (s : State) : ∃ t, execScrubComplete n s = .next t := by
  simp only [execScrubComplete]
  repeat' split
  all_goals exact ⟨_, rfl⟩

theorem execShepherdTake_next (s : State) : ∃ t, execShepherdTake s = .next t := by
  simp only [execShepherdTake]
  repeat' split
  all_goals exact ⟨_, rfl⟩

theorem execPodCountMessage_next (s : State) : ∃ t, execPodCountMessage s = .next t := by
  unfold execPodCountMessage
  repeat' split
  all_goals exact ⟨_, rfl⟩

theorem execPodFlush_next (s : State) : ∃ t, execPodFlush s = .next t := by
  simp only [execPodFlush]
  split <;> exact ⟨_, rfl⟩

theorem execQueueDescWrite_next (s : State) : ∃ t, execQueueDescWrite s = .next t := by
  unfold execQueueDescWrite
  split <;> exact ⟨_, rfl⟩

theorem execContextWrite_next (s : State) : ∃ t, execContextWrite s = .next t := by
  simp only [execContextWrite]
  repeat' split
  all_goals exact ⟨_, rfl⟩

theorem execKeyInstall_next (s : State) : ∃ t, execKeyInstall s = .next t := by
  simp only [execKeyInstall]
  split <;> exact ⟨_, rfl⟩

theorem execInvalComplete_next (s : State) : ∃ t, execInvalComplete s = .next t := by
  unfold execInvalComplete
  split <;> exact ⟨_, rfl⟩

theorem execPowerSample_next (s : State) : ∃ t, execPowerSample s = .next t := by
  simp only [execPowerSample]
  split <;> exact ⟨_, rfl⟩

theorem execAlarmClassB_next (s : State) : ∃ t, execAlarmClassB s = .next t := by
  simp only [execAlarmClassB]
  split <;> exact ⟨_, rfl⟩

theorem execBringupStep_next (s : State) : ∃ t, execBringupStep s = .next t := by
  simp only [execBringupStep]
  repeat' split
  all_goals exact ⟨_, rfl⟩

theorem execRecoveryImageWrite_next (s : State) : ∃ t, execRecoveryImageWrite s = .next t := by
  simp only [execRecoveryImageWrite]
  split <;> exact ⟨_, rfl⟩

theorem execFlitReceive_next (s : State) : ∃ t, execFlitReceive s = .next t := by
  simp only [execFlitReceive]
  repeat' split
  all_goals exact ⟨_, rfl⟩

theorem execCxlMemAccess_next (s : State) : ∃ t, execCxlMemAccess s = .next t := by
  simp only [execCxlMemAccess]
  repeat' split
  all_goals exact ⟨_, rfl⟩

theorem execCountMessageSend_next (s : State) : ∃ t, execCountMessageSend s = .next t := by
  unfold execCountMessageSend
  split <;> exact ⟨_, rfl⟩

theorem regionEdge_next (s : State) (h : Hdr) (edge : Option (BitVec 16)) : ∃ t, s.regionEdge h edge = .next t := by
  simp only [State.regionEdge]
  split <;> exact ⟨_, rfl⟩

/-- Of whatever a row of the shepherd does with its entry. -/
theorem entryRow_next (s : State) (f : State → Entry → State) : ∃ t, s.entryRow f = .next t := by
  simp only [State.entryRow]
  repeat' split
  all_goals exact ⟨_, rfl⟩

/-- Settles O10: each meaning is `.next` of a state by definition, or answers one in each of its branches. -/
theorem everyRowCompletes : Obligations.EveryRowCompletes := by
  unfold Obligations.EveryRowCompletes
  intro i s
  cases i
  case rgnin | rgnout => simp only [exec, execRgnin, execRgnout, regionEdge_next]
  case launch | demand | patch | replay | exportRec | importRec | freeze | thaw | teardown | table | wait | signal =>
    simp only [exec, execLaunch, execDemand, execPatch, execReplay, execExportRec, execImportRec, execFreeze, execThaw, execTeardown,
      execTable, execWait, execSignal, entryRow_next]
  case bld | mdrain | ginit | gadv | gpop | gfill | ld | st =>
    simp only [exec, execBld_next, execMdrain_next, execGinit_next, execGadv_next, execGpop_next, execGfill_next, execLd_next,
      execSt_next]
  case slotStart | rewindResume | restartHoldExpiry | loadResponse | recompactionEnd | remoteAccessArrive | remoteWriteApply =>
    simp only [exec, execSlotStart_next, execRewindResume_next, execRestartHoldExpiry_next, execLoadResponse_next,
      execRecompactionEnd_next, execRemoteAccessArrive_next, execRemoteWriteApply_next]
  case ladleExecute | bellwetherOp | awaitRecheck | awaitTimeout | barrierCount | demandUnitCommand | demandRequest | outputDelivery
      | droveAccept | droveStage | droveTableOp | dcommitDrained | configLoad | completionTokenDelivery =>
    simp only [exec, execLadleExecute_next, execBellwetherOp_next, execAwaitRecheck_next, execAwaitTimeout_next, execBarrierCount_next,
      execDemandUnitCommand_next, execDemandRequest_next, execOutputDelivery_next, execDroveAccept_next, execDroveStage_next,
      execDroveTableOp_next, execDcommitDrained_next, execConfigLoad_next, execCompletionTokenDelivery_next]
  case finRecord | penEnd | preemptRestore | scrubComplete | shepherdTake =>
    simp only [exec, execFinRecord_next, execPenEnd_next, execPreemptRestore_next, execScrubComplete_next, execShepherdTake_next]
  case podCountMessage | podFlush | queueDescWrite | contextWrite | keyInstall | invalComplete | powerSample | alarmClassB | bringupStep
      | recoveryImageWrite | flitReceive | cxlMemAccess | countMessageSend =>
    simp only [exec, execPodCountMessage_next, execPodFlush_next, execQueueDescWrite_next, execContextWrite_next, execKeyInstall_next,
      execInvalComplete_next, execPowerSample_next, execAlarmClassB_next, execBringupStep_next, execRecoveryImageWrite_next,
      execFlitReceive_next, execCxlMemAccess_next, execCountMessageSend_next]
  all_goals exact ⟨_, rfl⟩

/-! ### A step runs what it fetches (R38, R80, R83) -/

/-- Settles O6: `fetch` has one case for each head of the agenda, and `step` follows it. -/
theorem stepRunsDecoded : Obligations.StepRunsDecoded := by
  unfold Obligations.StepRunsDecoded
  intro s rest
  refine ⟨fun c col i ht hd => ?word, fun i b ht => ?row, fun c col r ht hd => ?rejected, fun ht => ?idle⟩
  case word => simp only [step, State.fetch, ht, hd]
  case row => simp only [step, State.fetch, ht]
  case rejected => simp only [step, State.fetch, ht, hd]
  case idle => simp only [step, State.fetch, ht]

/-! ### The stop that tstat names (R59, R369) -/

section TakeStop

variable (p : Pen) (now : Nat) (cause : Cause) (rel : Nat) (col : Col) (slot : Nat) (it : BitVec 32) (code value : W64) (late : Bool)

theorem takeStop_tstat : (p.takeStop now cause rel col slot it code value late).tstat = p.tstat := by
  unfold Pen.takeStop
  cases p.stop with
  | none => rfl
  | some o => dsimp only; split <;> rfl

variable {p} {o : Stop}

/-- A pending stop stays unless it is of this beat and of a higher core, or a higher column of the same core. -/
theorem takeStop_pending (ho : p.stop = some o) (hn : ¬ (o.time = now ∧ rel * 4 + colCode col < bitsOf o.tstat 47 38)) :
    p.takeStop now cause rel col slot it code value late = p := by
  simp only [Pen.takeStop, ho, Bool.and_eq_true, decide_eq_true_eq, if_neg hn]

/-- A stop of the same beat by a lower core, or a lower column of the same core, takes the place of the pending one. -/
theorem takeStop_lower (ho : p.stop = some o) (ht : o.time = now) (hl : rel * 4 + colCode col < bitsOf o.tstat 47 38) :
    p.takeStop now cause rel col slot it code value late = { p with stop := some ⟨tstatWord cause rel col slot it, code, value, now, late⟩ } := by
  simp only [Pen.takeStop, ho, Bool.and_eq_true, decide_eq_true_eq, if_pos (And.intro ht hl)]

end TakeStop

/-- Settles O20: bits 47 to 38 of tstat are the core and the column, by which a stop of the beat yields to a lower one. -/
theorem stopNamesLowest : Obligations.StopNamesLowest := by
  unfold Obligations.StopNamesLowest
  intro p now cause rel col slot it code value late
  refine ⟨fun hp => ?first, takeStop_tstat .., fun o ho hne => ?earlier, fun o ho _ hle => ?higher, fun o ho ht hlt => ?lower⟩
  case first => rw [takeStop_none hp]; rfl
  case earlier => exact takeStop_pending _ _ _ _ _ _ _ _ _ ho (fun h => hne h.1)
  case higher => exact takeStop_pending _ _ _ _ _ _ _ _ _ ho (fun h => Nat.not_lt.2 hle h.2)
  case lower => rw [takeStop_lower _ _ _ _ _ _ _ _ _ ho ht hlt]; rfl

end Sys2Proof.Machine
end

section
/-! PROOFS. What `mfc` and `mtc` do with the CSRs, what `send` and `sendq` put in flight, and the command and synchronisation words. -/

namespace Sys2Proof.Machine

open Sys2Proof

/-! ### The CSRs as `mfc` reads them (R57 to R61, R308, R309) -/

theorem tickWord_toNat (t : Int) : ((tickWord t).toNat : Int) = t % 2 ^ 48 := by
  have hpos : 0 ≤ t % 2 ^ 48 := Int.emod_nonneg _ (by decide)
  have hlt : t % 2 ^ 48 < 2 ^ 48 := Int.emod_lt_of_pos _ (by decide)
  simp only [tickWord, BitVec.toNat_ofNat]
  omega

/-- The sum of slen's two-bit fields: field `j` is the code of length `j`, and 0 past the last. -/
def slenSum (ls : List Nat) : Nat := ls.foldr (fun l acc => log2Len l + 4 * acc) 0

theorem log2Len_lt (l : Nat) : log2Len l < 4 := by
  unfold log2Len
  split
  · decide
  · split
    · decide
    · split <;> decide

theorem slenSum_field : ∀ (ls : List Nat) (j : Nat), slenSum ls / 4 ^ j % 4 = log2Len (ls.getD j 1)
  | [], j => by simp [slenSum, log2Len]
  | l :: ls, 0 => by
    have := log2Len_lt l
    simp only [slenSum, List.foldr_cons, Nat.pow_zero, Nat.div_one, List.getD_cons_zero]
    omega
  | l :: ls, j + 1 => by
    have hl := log2Len_lt l
    have ih := slenSum_field ls j
    have hs : slenSum (l :: ls) = log2Len l + 4 * slenSum ls := rfl
    have hd : (log2Len l + 4 * slenSum ls) / 4 = slenSum ls := by omega
    rw [hs, Nat.pow_succ', ← Nat.div_div_eq_div_mul, hd, ih, List.getD_cons_succ]

/-- Fields below 64 bits are not touched by the width of the word. -/
theorem field_mod_word (x j : Nat) (hj : j < 32) : x % 2 ^ 64 / 4 ^ j % 4 = x / 4 ^ j % 4 := by
  have h4 : (4 : Nat) ^ j = 2 ^ (2 * j) := by rw [Nat.pow_mul]
  have hs : (2 : Nat) ^ 64 = 2 ^ (2 * j) * 2 ^ (64 - 2 * j) := by rw [← Nat.pow_add]; congr 1; omega
  rw [h4, hs, Nat.mod_mul_right_div_self]
  exact Nat.mod_mod_of_dvd _ (by rw [show (4 : Nat) = 2 ^ 2 from rfl]; exact Nat.pow_dvd_pow 2 (by omega))

theorem slenWord_field (p : Pen) (j : Nat) (hj : j < 32) :
    (slenWord p).toNat / 4 ^ j % 4 = if j < p.n then log2Len (p.lens.getD j 1) else 0 := by
  have hw : (slenWord p).toNat = slenSum (p.lens.take p.n) % 2 ^ 64 := by simp only [slenWord, slenSum, BitVec.toNat_ofNat]
  rw [hw, field_mod_word _ _ hj, slenSum_field]
  split
  · rename_i h
    simp [List.getD_eq_getElem?_getD, h]
  · rename_i h
    simp [List.getD_eq_getElem?_getD, h, log2Len]

theorem log2Len_pow {l : Nat} (h : l = 1 ∨ l = 2 ∨ l = 4 ∨ l = 8) : 2 ^ log2Len l = l := by
  rcases h with rfl | rfl | rfl | rfl <;> rfl

theorem iiWord_toNat (p : Pen) (h1 : 1 ≤ p.n) (h32 : p.n ≤ 32) (hs : (p.lens.take p.n).sum < 512) :
    (iiWord p).toNat = (p.n - 1) * 2 ^ 16 + (p.lens.take p.n).sum := by
  have hi : p.interval = (p.lens.take p.n).sum := by rw [Pen.interval, List.sum_eq_foldl]
  simp only [iiWord, hi, BitVec.toNat_ofNat]
  omega

/-- The id that stands `j` below the top of the region stack. -/
theorem rgn_reverse_getD (p : Pen) (j : Nat) :
    p.rgn.reverse.getD j 0 = if j < p.rgn.length then p.rgn.getD (p.rgn.length - 1 - j) 0 else 0 := by
  simp only [List.getD_eq_getElem?_getD]
  split
  · rename_i h
    rw [List.getElem?_reverse h]
  · rename_i h
    rw [List.getElem?_eq_none (by simpa using h)]
    rfl

theorem rgnWord_field (p : Pen) (j : Nat) (hj : j < 4) : (rgnWord p).toNat / 2 ^ (16 * j) % 2 ^ 16 = (p.rgn.reverse.getD j 0).toNat := by
  have h0 := (p.rgn.reverse.getD 0 0).isLt
  have h1 := (p.rgn.reverse.getD 1 0).isLt
  have h2 := (p.rgn.reverse.getD 2 0).isLt
  have h3 := (p.rgn.reverse.getD 3 0).isLt
  simp only [rgnWord, BitVec.toNat_ofNat]
  interval_cases j <;> omega

theorem rgndWord_toNat (p : Pen) (ho : p.rgnOv < 2048) (hl : p.rgn.length ≤ 16) : (rgndWord p).toNat = p.rgnOv * 32 + p.rgn.length := by
  simp only [rgndWord, BitVec.toNat_ofNat]
  omega

/-- The CSR `core` of a core in row `y` and column `x` of its pen (R60). -/
theorem coreWord_toNat {p : Pen} {y x : Nat} (hy : y < p.h) (hx : x < p.w) (hr : p.row + p.h ≤ 12) (hc : p.col + p.w ≤ 16)
    (hd : p.die < 4) {c : Nat} (he : c = p.die * 192 + (p.row + y) * 16 + p.col + x) :
    (coreWord (coreDie c) (coreIdx c) (p.rel c) p.w).toNat =
      p.die * 2 ^ 30 + ((p.row + y) * 16 + p.col + x) * 2 ^ 22 + y * 2 ^ 18 + x * 2 ^ 14 := by
  have hi : coreIdx c = (p.row + y) * 16 + (p.col + x) := by simp only [coreIdx, coresPerDie]; omega
  have hdie : coreDie c = p.die := by simp only [coreDie, coresPerDie]; omega
  have hrel : p.rel c = y * p.w + x := by
    simp only [Pen.rel, hi]
    rw [show ((p.row + y) * 16 + (p.col + x)) / 16 - p.row = y by omega, show ((p.row + y) * 16 + (p.col + x)) % 16 - p.col = x by omega]
  have hq : (y * p.w + x) / p.w = y := by
    rw [Nat.mul_comm, Nat.mul_add_div (by omega), Nat.div_eq_of_lt hx, Nat.add_zero]
  have hm : (y * p.w + x) % p.w = x := by rw [Nat.mul_comm, Nat.mul_add_mod, Nat.mod_eq_of_lt hx]
  simp only [coreWord, hdie, hi, hrel, hq, hm, BitVec.toNat_ofNat]
  rw [Nat.mod_eq_of_lt hd, Nat.mod_eq_of_lt (a := (p.row + y) * 16 + (p.col + x)) (by omega), Nat.mod_eq_of_lt (a := y) (by omega),
    Nat.mod_eq_of_lt (a := x) (by omega)]
  omega

theorem penWord_toNat (p : Pen) (hh : 1 ≤ p.h) (hw : 1 ≤ p.w) (hr : p.row + p.h ≤ 12) (hc : p.col + p.w ≤ 16) :
    (penWord p).toNat = p.pid.toNat * 2 ^ 32 + p.row * 2 ^ 28 + p.col * 2 ^ 24 + (p.h - 1) * 2 ^ 20 + (p.w - 1) * 2 ^ 16 := by
  have hp := p.pid.isLt
  simp only [penWord, BitVec.toNat_ofNat]
  rw [Nat.mod_eq_of_lt (a := p.row) (by omega), Nat.mod_eq_of_lt (a := p.col) (by omega), Nat.mod_eq_of_lt (a := p.h - 1) (by omega),
    Nat.mod_eq_of_lt (a := p.w - 1) (by omega)]
  omega

theorem lbsWord_toNat (p : Pen) (hs : p.shift < 8) : (lbsWord p).toNat = Nat.min p.cons 255 * 2 ^ 8 + p.shift := by
  have hm : Nat.min p.cons 255 ≤ 255 := Nat.min_le_right _ _
  simp only [lbsWord, BitVec.toNat_ofNat]
  omega

/-- What `mfc` reads is what R57 to R61, R308 and R309 give the CSR. -/
theorem csrSeen_csr (s : State) (n : Nat) : CsrSeen s.curPen s.curCore s.cur.core n (s.csr s.cur.core n) := by
  refine ⟨fun h => ?tick, fun h => ?it, fun h => ?iter, fun h hl j hj => ?slen, fun h h1 h2 h3 => ?ii, fun h => ?fsr, fun h => ?fen,
    fun h => ?dith, fun h => ?tstat, fun h j hj => ?rgn, fun h h1 h2 => ?rgnd, fun h y x hy hx hr hc hd he => ?core,
    fun h h1 h2 h3 h4 => ?pen, fun h => ?ctx, fun j h => ?pal, fun j h => ?evc, fun j h => ?evs, fun h => ?rpc, fun h h1 => ?lbs⟩
  all_goals subst h
  case tick => exact tickWord_toNat _
  case slen =>
    have hw : s.csr s.cur.core 0x03 = slenWord s.curPen := rfl
    rw [hw, slenWord_field _ _ hj]
    split
    · apply log2Len_pow
      by_cases hlen : j < s.curPen.lens.length
      · rw [List.getD_eq_getElem _ _ hlen]
        exact hl _ (List.getElem_mem hlen)
      · rw [List.getD_eq_default _ _ (Nat.not_lt.1 hlen)]
        exact .inl rfl
    · rfl
  case ii => exact iiWord_toNat _ h1 h2 h3
  case tstat => rfl
  case rgn =>
    have hw : s.csr s.cur.core 0x09 = rgnWord s.curPen := rfl
    rw [hw, rgnWord_field _ _ hj, rgn_reverse_getD]
    split <;> rfl
  case rgnd => exact rgndWord_toNat _ h1 h2
  case core => exact coreWord_toNat hy hx hr hc hd he
  case pen => exact penWord_toNat _ h1 h2 h3 h4
  case lbs => exact lbsWord_toNat _ h1
  case it => exact BitVec.toNat_setWidth_of_le (b := s.curPen.it) (by decide)
  case iter => exact BitVec.toNat_setWidth_of_le (b := s.curPen.iterNext) (by decide)
  case fsr => exact BitVec.toNat_setWidth_of_le (b := s.curCore.fsr) (by decide)
  case fen => exact BitVec.toNat_setWidth_of_le (b := s.curCore.fen) (by decide)
  case dith => exact BitVec.toNat_setWidth_of_le (b := s.curCore.dith) (by decide)
  case rpc => exact BitVec.toNat_setWidth_of_le (b := s.curPen.rpc) (by decide)
  case ctx =>
    have hw : s.csr s.cur.core 0x0D = BitVec.ofNat 64 (s.curPen.ctx % 4096) := rfl
    rw [hw, BitVec.toNat_ofNat]
    omega
  case pal =>
    have hw : s.csr s.cur.core (0x10 + j.val) = (s.curCore.pal.toList.getD j.val 0).zeroExtend 64 := by
      fin_cases j <;> rfl
    rw [hw, BitVec.zeroExtend, BitVec.toNat_setWidth_of_le (by decide)]
    simp
  case evc =>
    have hw : s.csr s.cur.core (0x20 + j.val) = (s.curCore.evc.toList.getD j.val 0) := by
      fin_cases j <;> rfl
    rw [hw]
    simp
  case evs =>
    have hw : s.csr s.cur.core (0x28 + j.val) = (s.curCore.evs.toList.getD j.val 0) := by
      fin_cases j <;> rfl
    rw [hw]
    simp

/-- Settles O18: `mfc` reads `State.csr`, and both words end in `result`. -/
theorem scalarCsr : Obligations.ScalarCsr := by
  unfold Obligations.ScalarCsr
  intro s
  exact ⟨fun h d n => ⟨s.csr s.cur.core n.val, csrSeen_csr s n.val, scalarWord_of_result rfl⟩, fun h n a => scalarWord_of_result rfl⟩

/-! ### Tokens sent (R50, R163) -/

theorem lane_pos (f : Fmt) : 1 ≤ f.lane := by cases f <;> decide

/-- Lanes fill a chunk. -/
theorem lane_mul_lanes (f : Fmt) : f.lane * (256 / f.lane) = 256 := by cases f <;> decide

theorem lanesOf_eq_map (w : Nat) : ∀ n x : Nat, lanesOf w n x = (List.range n).map (fun e => x / 2 ^ (w * e) % 2 ^ w)
  | 0, _ => rfl
  | n + 1, x => by
    rw [lanesOf, lanesOf_eq_map w n, List.range_succ_eq_map, List.map_cons, List.map_map]
    congr 1
    · simp
    · refine List.map_congr_left fun e _ => ?_
      rw [Function.comp_apply, Nat.div_div_eq_div_mul, ← Nat.pow_add, Nat.succ_eq_add_one, Nat.mul_add, Nat.mul_one, Nat.add_comm w]

/-- Lane `e` of chunk `j` is element `256 / w * j + e` of the register (R105). -/
theorem vchunk_lane (v : VWord) {w j e : Nat} (he : w * e + w ≤ 256) :
    vchunk v j / 2 ^ (w * e) % 2 ^ w = v.toNat / 2 ^ (256 * j + w * e) % 2 ^ w := by
  refine Nat.eq_of_testBit_eq fun i => ?_
  simp only [vchunk, Nat.testBit_mod_two_pow, Nat.testBit_div_two_pow]
  by_cases hi : i < w
  · have h256 : i + w * e < 256 := by omega
    simp only [hi, h256, decide_true, Bool.true_and]
    congr 1
    omega
  · simp [hi]

theorem chunk_lanes (v : VWord) (f : Fmt) (j : Nat) :
    lanesOf f.lane (256 / f.lane) (vchunk v j) = (List.range (256 / f.lane)).map (fun e => velem v f.lane (j * (256 / f.lane) + e)) := by
  rw [lanesOf_eq_map]
  refine List.map_congr_left fun e he => ?_
  have hm := lane_mul_lanes f
  have hle : f.lane * (e + 1) ≤ f.lane * (256 / f.lane) := Nat.mul_le_mul_left _ (by simpa using he)
  rw [vchunk_lane v (by rw [Nat.mul_add] at hle; omega), velem]
  congr 3
  rw [Nat.mul_add, ← Nat.mul_assoc, Nat.mul_right_comm, hm]

theorem OnlyCore.refl (c : Nat) (s : State) : OnlyCore c s s := ⟨fun _ _ => rfl, rfl, fun _ => rfl⟩

theorem OnlyCore.trans {c : Nat} {s t u : State} (h : OnlyCore c s t) (h' : OnlyCore c t u) : OnlyCore c s u where
  others d hd := (h'.others d hd).trans (h.others d hd)
  rest := (congrArg (fun x : State => { x with cores := s.cores }) h'.rest).trans h.rest
  mem a := (h'.mem a).trans (h.mem a)

/-- Tokens on their way to a port: one result for each, one beat apart (R163). -/
def State.pushAll (s : State) (p : Fin 8) (ord : Nat) (ts : List (Tok × Nat)) : State :=
  ts.foldl (fun s t => s.modCur (fun k => k.issue (s.flight ord t.2 (2 + t.2) [.push p t.1] 0 none))) s

theorem pushFrom_eq (s : State) (p : Fin 8) (ts : List Tok) :
    s.pushFrom p ts = .next ((s.modCur Core.tickOrd).pushAll p s.curCore.ord ts.zipIdx) := rfl

theorem pushAll_spec (p : Fin 8) (ord : Nat) : ∀ (ts : List (Tok × Nat)) (s : State),
    OnlyCore s.cur.core s (s.pushAll p ord ts) ∧ (s.pushAll p ord ts).curCore =
      { s.curCore with flights := s.curCore.flights ++ ts.map (fun x => s.flight ord x.2 (2 + x.2) [.push p x.1] 0 none) }
  | [], s => ⟨OnlyCore.refl _ s, by simp [State.pushAll]⟩
  | x :: ts, s => by
    let s' := s.modCur (fun k => k.issue (s.flight ord x.2 (2 + x.2) [.push p x.1] 0 none))
    obtain ⟨only, core⟩ := pushAll_spec p ord ts s'
    have hs : s.pushAll p ord (x :: ts) = s'.pushAll p ord ts := rfl
    refine ⟨hs ▸ (onlyCore_modCur s _).trans only, ?_⟩
    rw [hs, core, curCore_modCur]
    simp only [Core.issue, List.map_cons, List.append_assoc, List.singleton_append]
    rfl

/-- A word that pushes tokens sends them, whatever its predicate. -/
theorem sent_of_pushFrom {i : Instr} {s : State} {p : Fin 8} {ts : List Tok} (he : exec i s = s.pushFrom p ts) :
    After (exec i s) (Sent s p ts) := by
  obtain ⟨only, core⟩ := pushAll_spec p s.curCore.ord ts.zipIdx (s.modCur Core.tickOrd)
  refine ⟨_, he.trans (pushFrom_eq s p ts), (onlyCore_modCur s _).trans only, ?_⟩
  rw [core, curCore_modCur]
  rfl

/-- The token of a scalar send: element 0, with its predicate bit (R163). -/
theorem scalarTok_eq (w : Nat) (tag : Fin 16) (x : Nat) : scalarTok w tag x = { data := BitVec.ofNat 256 (x % 2 ^ w), pred := 1, tag := tag } := by
  simp [scalarTok, lanesTok, packLanes]

theorem bitsOf_low {n : Nat} (x : BitVec n) {w : Nat} (hw : 1 ≤ w) : bitsOf x (w - 1) 0 = x.toNat % 2 ^ w := by
  simp [bitsOf, natBits, Nat.sub_add_cancel hw]

theorem sendTok_eq (v : VWord) (mask : Chunk) (ty : Fmt) (tag : Fin 16) (j : Nat) :
    sendTok v mask ty tag j = lanesTok ty.lane tag ((List.range (256 / ty.lane)).map (fun e =>
      (velem v ty.lane (j * (256 / ty.lane) + e), mask.getLsbD (j * (256 / ty.lane) + e)))) := by
  simp only [sendTok, chunk_lanes]
  congr 1
  refine List.ext_getElem (by simp) fun e _ _ => ?_
  simp

/-- Settles O37: each send is `pushFrom` of the tokens the statement names. -/
theorem portSend : Obligations.PortSend := by
  unfold Obligations.PortSend
  intro i s p toks hi
  unfold sendSpec at hi
  split at hi <;> cases hi
  case h_1 h a ty tag =>
    refine sent_of_pushFrom ?_
    show s.pushFrom p _ = _
    simp only [bitsOf_low _ (lane_pos ty), scalarTok_eq, Nat.mod_mod, isActive_iff]
  case h_2 h a ty cnt tag =>
    exact sent_of_pushFrom (congrArg (s.pushFrom p) (List.map_congr_left fun j _ => sendTok_eq ..))
  case h_3 h a tag =>
    refine sent_of_pushFrom ?_
    show s.pushFrom p _ = _
    simp only [isActive_iff]

/-! ### Asynchronous command words (R50, R56, R166, R173) -/

theorem exec_async {i : Instr} {h : Hdr} {o : F6} (hi : asyncSpec i = some (h, o)) (s : State) : exec i s = .next (s.asyncWord i h o) := by
  unfold asyncSpec at hi
  split at hi <;> cases hi <;> rfl

/-- Settles O40: each asynchronous word queues the one entry of `asyncWord`. -/
theorem commandWords : Obligations.CommandWords := by
  unfold Obligations.CommandWords
  intro i s h o hi
  refine ⟨_, exec_async hi s, s.mkCmd i o false (!s.curCore.active h), ?requests, rfl, ?zero, ?only, ?core⟩
  case requests => exact ⟨rfl, rfl, rfl, rfl, rfl, rfl, rfl, rfl, rfl, rfl⟩
  case zero =>
    rw [isActive_iff]
    show (!s.curCore.active h) = true ↔ _
    simp
  case only => exact onlyCore_modCur { s with fresh := s.fresh + 1 } _
  case core => exact curCore_modCur { s with fresh := s.fresh + 1 } _

/-! ### Synchronisation words (R53, R167)

A synchronisation word releases what its core's queue holds, and routes the pushes among it at once (R371): where the output of a tx port
keeps a window (R210), its token is written there. -/

theorem exec_fenceSync (h : Hdr) (o : F6) (s : State) : exec (.fenceSync h o) s = .next (s.syncWord (.fenceSync h o) h o (fun _ => false)) :=
  rfl

/-- A pen of one core whose output at tx port 0 keeps a window of one tick, of one beat a tick. -/
def windowPen : Pen := { live := true, du := { outs := [{ port := 0, dest := .sink, w := 1, ks := [1], bases := [0] }] } }

/-- Its core has a push of one token in its commit queue. -/
def windowed : State := { pens := [windowPen], cores := [(0, { cq := [{ ord := 0, eff := .push 0 { data := 1 } }] })] }

/-- Refutes O41: the statement lets a synchronisation word leave memory as the release of its core's queue leaves it, but the pushes
released are routed on the same beat, and one whose output keeps a window is written into it. Releasing `windowed`'s queue writes no
memory; its `fence` writes the token into the window's entry, 32 bytes above the window's base. -/
theorem not_syncWords : ¬ Obligations.SyncWords := by
  unfold Obligations.SyncWords
  intro hall
  obtain ⟨-, -, sends⟩ := hall (.fenceSync {} {}) windowed {} {} false rfl
  have active : isActive windowed {} := by decide
  have unsent : windowed.cur.core ∉ windowed.curPen.sent := by decide
  have placed : windowed.penOf windowed.cur.core < windowed.pens.length := by decide
  obtain ⟨t, ht, m, -, -, -, -, -, -, -, -, -, -, -, -, mem⟩ := sends active unsent rfl placed
  rw [exec_fenceSync, Host.Outcome.next.injEq] at ht
  have written : t.mem.get (2 ^ 52 + 32) = 1 := by rw [← ht]; decide +kernel
  have released : (windowed.releaseCore windowed.cur.core).mem.get (2 ^ 52 + 32) = 0 := by decide +kernel
  exact absurd ((written.symm.trans (mem _)).trans released) (by decide)

end Sys2Proof.Machine
end

section
/-! PROOFS. Four statements that fail. Three overlook what a counter notes of its beat: they let a step change the counters `evc` of a core
and no other field of theirs, but a core that counts the step's event (R316) also notes the beat (`evcT`) and what it has counted on it
(`evcAdd`), for an `mtc` of the same beat. The fourth overlooks the clock that the answer of a release carries (R168). -/

namespace Sys2Proof.Machine

open Sys2Proof

/-! ### A counter notes the beat of its last count (R316) -/

/-- A core whose counter 0 counts a source. -/
def countingOn (src : Nat) : Core := { evs := (Vector.replicate 8 0).set 0 (BitVec.ofNat 64 (2 ^ 15 + src)) }

/-- The beat of the last count on core 0 after a step. -/
def countBeat : Out → Nat
  | .next t => (t.core 0).evcT
  | _ => 0

/-! ### The start of a slot (R40, R48) -/

/-- A slot that has started as the statements say leaves every core's last beat of a count as it was. -/
theorem slotStarted_evcT {s t : State} {h : Nat} (hs : SlotStarted s h t) (c : Nat) : (t.core c).evcT = (s.core c).evcT :=
  (congrArg Core.evcT (hs.cores c) :)

/-- A pen of one core at the start of its slot, which a rewind has left to start again; its core counts pen beats (source 1). -/
def slotReady (edge : Option (Option (BitVec 16))) : State :=
  { time := 1, pens := [{ live := true, inTick := true, resuming := true, rgnPend := edge }], cores := [(0, countingOn 1)] }

/-- Refutes O45, by the first clause: on beat 1 the slot of `slotReady` starts, and its core, which has last counted on beat 0, counts a
beat run and notes beat 1. -/
theorem not_slotStart : ¬ Obligations.SlotStart := by
  unfold Obligations.SlotStart
  intro hall
  obtain ⟨starts, -⟩ := hall (slotReady none) 0
  have may : MayStart (slotReady none) 0 := by and_intros <;> decide +kernel
  have free : (slotReady none).holds 0 = [] := by decide +kernel
  obtain ⟨t, ht, started⟩ := starts may free (.inl rfl)
  have moved : (t.core 0).evcT = 1 := by
    have hc : countBeat (exec (.slotStart 0) (slotReady none)) = 1 := by decide +kernel
    rwa [ht] at hc
  have kept : (t.core 0).evcT = 0 := slotStarted_evcT started 0
  omega

/-- Refutes O19, by the clause on the slot that starts once an edge has changed the region stack: `slotReady` with an `rgnin` of id 9
starts its slot, and the beat is counted as in `not_slotStart`. -/
theorem not_scalarStops : ¬ Obligations.ScalarStops := by
  unfold Obligations.ScalarStops
  intro hall
  obtain ⟨-, -, -, -, -, -, -, -, -, -, -, -, steps, -⟩ := hall (slotReady (some (some 9))) {}
  have may := steps 0 (some 9) rfl (by and_intros <;> decide +kernel) (by decide +kernel) (.inl rfl)
  obtain ⟨t, ht, started⟩ := may
  have moved : (t.core 0).evcT = 1 := by
    have hc : countBeat (exec (.slotStart 0) (slotReady (some (some 9)))) = 1 := by decide +kernel
    rwa [ht] at hc
  have kept : (t.core 0).evcT = 0 := slotStarted_evcT started 0
  omega

/-! ### Later chunks (R107) -/

/-- A later chunk that has issued as the statement says leaves the last beat of a count as it was. -/
theorem nextChunk_evcT {s t : State} {c : Nat} {st : Stream} {pop : Option (Fin 8)} {lat : Nat} {ws : Option (List Write)} {fl : Flags}
    (hn : NextChunk s c st pop lat ws fl t) : (t.core c).evcT = (s.core c).evcT :=
  (congrArg Core.evcT hn.regs :)

/-- The second chunk of a `vli` of two, on a core that counts chunks of V words (source 3). -/
def vliGoing : Stream := { col := .v, instr := .vli { fold := 1 } (.v 1) .fp32 7, slot := 0, it := 0, ord := 0, next := 1, total := 2 }

def chunkReady : State := { time := 1, pens := [{ live := true }], cores := [(0, { countingOn 3 with streams := [vliGoing] })] }

/-- Refutes O46, by the clause on `vli`: on beat 1 the second chunk of `vliGoing` issues, and its core counts it and notes beat 1. -/
theorem not_chunkIssue : ¬ Obligations.ChunkIssue := by
  unfold Obligations.ChunkIssue
  intro hall
  obtain ⟨vli, -⟩ := hall chunkReady 0 vliGoing
  have going : OneGoing chunkReady 0 .v vliGoing := by and_intros <;> decide +kernel
  obtain ⟨t, ht, issued⟩ := vli { fold := 1 } 1 .fp32 7 going rfl rfl (by decide)
  have moved : (t.core 0).evcT = 1 := by
    have hc : countBeat (exec (.chunkIssue 0 .v) chunkReady) = 1 := by decide +kernel
    rwa [ht] at hc
  have kept : (t.core 0).evcT = 0 := nextChunk_evcT issued
  omega

/-! ### An inactive command (R50, R168) -/

/-- The clocks of the answers that wait after a step. -/
def answerClocks : Out → List (List Nat)
  | .next t => t.dones.map (·.clock)
  | _ => []

/-- An inactive asynchronous command whose ORD is a release at package scope. -/
def zeroRelease : Cmd := { id := 0, zero := true, o := { ord := .rel, sc := .package } }

/-- Core 0 has sent `zeroRelease` towards its engine. -/
def releaseSent : State := { cores := [(0, { out := [zeroRelease] })] }

/-- Refutes O47, by the clause on an inactive command: the answer to `zeroRelease` keeps the clock its release must be applied to (R168),
and the statement wants one without a clock. -/
theorem not_tokensTravel : ¬ Obligations.TokensTravel := by
  unfold Obligations.TokensTravel
  intro hall
  obtain ⟨-, -, accepts, -⟩ := hall releaseSent
  obtain ⟨inactive, -⟩ := accepts 0 zeroRelease [] rfl rfl
  obtain ⟨t, ht, dones, -⟩ := inactive rfl
  have clocked : answerClocks (exec (.engineAccept 0) releaseSent) ≠ [[]] := by decide +kernel
  rw [ht, answerClocks, dones] at clocked
  exact clocked rfl

end Sys2Proof.Machine
end

section
/-! PROOFS. What posting a host event leaves alone, and the timing trap with its rewind (R54, R55, R335). -/

namespace Sys2Proof.Machine

open Sys2Proof

/-! ### What leaves every core and every pen as it was -/

/-- No core and no pen has changed. -/
structure SameUnits (s t : State) : Prop where
  cores : t.cores = s.cores
  pens : t.pens = s.pens

theorem SameUnits.refl (s : State) : SameUnits s s := ⟨rfl, rfl⟩

theorem SameUnits.trans {s t u : State} (a : SameUnits s t) (b : SameUnits t u) : SameUnits s u :=
  ⟨b.cores.trans a.cores, b.pens.trans a.pens⟩

theorem SameUnits.core {s t : State} (h : SameUnits s t) (c : Nat) : t.core c = s.core c := by
  unfold State.core
  rw [h.cores]

theorem SameUnits.pen {s t : State} (h : SameUnits s t) (p : Nat) : t.pen p = s.pen p := by
  unfold State.pen
  rw [h.pens]

/-- Steps that each leave the cores and pens alone leave them alone together. -/
theorem SameUnits.foldl {α : Type} {f : State → α → State} (hf : ∀ s x, SameUnits s (f s x)) (xs : List α) (s : State) :
    SameUnits s (xs.foldl f s) := by
  induction xs generalizing s with
  | nil => exact .refl s
  | cons x xs ih => exact (hf s x).trans (ih (f s x))

theorem sameUnits_modDie (s : State) (d : Nat) (f : Die → Die) : SameUnits s (s.modDie d f) := ⟨modDie_cores s d f, modDie_pens s d f⟩

theorem sameUnits_ueMet (s : State) (d : Nat) : SameUnits s (s.ueMet d) := by
  unfold State.ueMet State.errCount
  exact sameUnits_modDie s d _

theorem sameUnits_setCtx (s : State) (n : Nat) (c : Ctx) : SameUnits s (s.setCtx n c) := ⟨rfl, rfl⟩

theorem sameUnits_alarmB (s : State) (die ctx : Nat) : SameUnits s (s.alarmB die ctx) := ⟨rfl, rfl⟩

theorem sameUnits_physWrite (s : State) (w : Option Agent) (key : Nat) (cells : List (Nat × Byte)) :
    SameUnits s (s.physWrite w key cells) :=
  ⟨(physWrite_frame s w key cells).2.1, (physWrite_frame s w key cells).2.2⟩

theorem sameUnits_peerFlit (s : State) (kind ctx pa : Nat) (rest : List Nat) : SameUnits s (s.peerFlit kind ctx pa rest) :=
  ⟨(congrArg State.cores (peerFlit_rest s kind ctx pa rest) :), (congrArg State.pens (peerFlit_rest s kind ctx pa rest) :)⟩

theorem sameUnits_peerWrite (s : State) (ctx : Nat) (pas : List Nat) : SameUnits s (s.peerWrite ctx pas) :=
  .foldl (fun s _ => sameUnits_peerFlit s _ _ _ _) _ s

theorem sameUnits_chunkWrite (s : State) (w : Option Agent) (key : Nat) (f : Option Fmt) (pn : Nat) (bs : List Byte) :
    SameUnits s (s.chunkWrite w key f pn bs) := sameUnits_physWrite s w key _

/-- A write at places of memory leaves the cores and pens alone. -/
theorem sameUnits_writePlaces {s t : State} {w : Option Agent} {ctx : Nat} {pl : List (Nat × Nat)} {bs : List Byte}
    (h : s.writePlaces w ctx pl bs = .ok t) : SameUnits s t := by
  unfold State.writePlaces at h
  dsimp only at h
  split at h
  · cases h
  · cases h
    refine (sameUnits_physWrite s w _ _).trans (.foldl (fun s m => ?_) _ _)
    split
    · exact sameUnits_chunkWrite s w _ _ _ _
    · exact .refl s

theorem sameUnits_vwriteBy {s t : State} {w : Option Agent} {ctx va : Nat} {acc : Acc} {bs : List Byte}
    (h : s.vwriteBy w ctx va acc bs = .ok t) : SameUnits s t := by
  unfold State.vwriteBy at h
  split at h
  · cases h
  · next pl _ =>
    cases hw : s.writePlaces w ctx pl bs with
    | error e => rw [hw] at h; cases h
    | ok u => rw [hw] at h; cases h; exact (sameUnits_writePlaces hw).trans (sameUnits_peerWrite u ctx _)

theorem sameUnits_ringSlot {s t : State} {w : Option Agent} {ctx va size widx : Nat} {bs : List Byte}
    (h : s.ringSlot w ctx va size bs = .ok (t, widx)) : SameUnits s t := by
  unfold State.ringSlot at h
  split at h
  · cases h
  · dsimp only at h
    split at h
    · cases h
    · split at h
      · cases h
      · next hw => cases h; exact sameUnits_vwriteBy hw

theorem sameUnits_ringBump (s : State) (w : Option Agent) (ctx va widx : Nat) : SameUnits s (s.ringBump w ctx va widx).1 := by
  unfold State.ringBump
  split
  · exact .refl s
  · next hw => exact sameUnits_vwriteBy hw

theorem sameUnits_ringAppend {s t : State} {w : Option Agent} {ctx va size : Nat} {bs : List Byte} {r : Option RingFault}
    (h : s.ringAppend w id ctx va size bs = (t, r)) : SameUnits s t := by
  unfold State.ringAppend at h
  split at h
  · cases h
    exact .refl s
  · next u widx hs =>
    have bumped := (sameUnits_ringSlot hs).trans (sameUnits_ringBump u w ctx va widx)
    dsimp only [id] at h
    split at h <;> next hb =>
      cases h
      rwa [hb] at bumped

theorem sameUnits_storeFault (s : State) (ws : List W64) : SameUnits s (s.storeFault ws) :=
  have written : SameUnits s (s.physWrite none 0 _) := sameUnits_physWrite s none 0 _
  ⟨written.cores, written.pens⟩

theorem sameUnits_recordFault (s : State) (w : Who) (va : Nat) (x : XFault) (park : Bool) : SameUnits s (s.recordFault w va x park).1 := by
  have counted : SameUnits s (s.countDie w.die 13 1) := sameUnits_modDie s _ _
  unfold State.recordFault
  split
  · exact .refl s
  · dsimp only
    split
    · exact ⟨counted.cores, counted.pens⟩
    · have stored (ws : List W64) := counted.trans (sameUnits_storeFault (s.countDie w.die 13 1) ws)
      exact ⟨(stored _).cores, (stored _).pens⟩

/-- A host event, posted or lost, leaves the cores and pens alone (R335, R338). -/
theorem sameUnits_postEvent (s : State) (ctx ty pid rel die : Nat) (payload : List W64) :
    SameUnits s (s.postEvent ctx ty pid rel die payload) := by
  unfold State.postEvent
  dsimp only
  split
  · exact sameUnits_setCtx s _ _
  split
  · exact (sameUnits_alarmB s die ctx).trans (sameUnits_setCtx _ _ _)
  split
  · next ha => exact sameUnits_ringAppend ha
  · next u _ fault ha =>
    refine (sameUnits_ringAppend ha).trans (.trans ?_ (sameUnits_setCtx _ _ _))
    cases fault with
    | none => exact .refl u
    | some f =>
      refine .trans ?_ (sameUnits_recordFault _ _ _ _ _)
      split
      · exact sameUnits_ueMet u die
      · exact .refl u

end Sys2Proof.Machine
end

section
/-! PROOFS. The timing trap and its rewind (R54, R55), and the words that read an empty port (R49). -/

namespace Sys2Proof.Machine

open Sys2Proof

/-! ### What a rewind does to a core (R54) -/

/-- A core without what a rewind does not look at: its counters, its place in program order and its dither phase. -/
def Core.unnoted (k : Core) : Core :=
  { k with ord := 0, dith := 0, evc := Vector.replicate 8 0, evcAdd := Vector.replicate 8 0, evcT := 0 }

theorem count_unnoted (k : Core) (now id0 src n : Nat) : (k.count now id0 src n).unnoted = k.unnoted := by
  unfold Core.count
  dsimp only
  generalize (if k.evsT = now then k.evsPrev else k.evs) = sel
  split <;> rfl

theorem unpop_unpop (r : Rx) : r.unpop.unpop = r.unpop := rfl

/-- A core that has been rewound is as it was if it is rewound again. -/
theorem rewind_rewind (now : Nat) (k : Core) : Core.rewind now (Core.rewind now k) = Core.rewind now k := by
  have cleared (a b : Flags) : a &&& ~~~b &&& ~~~b = a &&& ~~~b := by rw [BitVec.and_assoc, BitVec.and_self]
  unfold Core.rewind
  cases k.busyOld <;> by_cases hr : k.raisedT = now <;>
    simp [hr, cleared, Vector.map_map, Function.comp_def, unpop_unpop, List.filter_filter]

theorem modCores_rest (cs : List Nat) (f : Core → Core) (s : State) : { s.modCores cs f with cores := s.cores } = s := by
  unfold State.modCores
  induction cs generalizing s with
  | nil => rfl
  | cons c cs ih => exact (congrArg (fun t : State => { t with cores := s.cores }) (ih (s.modCore c f)) :)

/-- A change that made twice is as made once reaches each core of a list once, however often the list names it. -/
theorem core_modCores {f : Core → Core} (hf : ∀ k, f (f k) = f k) (cs : List Nat) (s : State) (c : Nat) :
    (s.modCores cs f).core c = if c ∈ cs then f (s.core c) else s.core c := by
  induction cs generalizing s with
  | nil => rfl
  | cons d cs ih =>
    have step : (s.modCores (d :: cs) f).core c = ((s.modCore d f).modCores cs f).core c := rfl
    rw [step, ih]
    by_cases hd : c = d
    · subst hd
      simp [hf]
    · simp [core_modCore_of_ne s f hd, hd]

/-- The count of one restart on every core of a list. -/
def State.countTraps (s : State) (cs : List Nat) : State := cs.foldl (fun s c => s.count c 6 1) s

theorem countTraps_rest (cs : List Nat) (s : State) : { s.countTraps cs with cores := s.cores } = s := by
  unfold State.countTraps
  induction cs generalizing s with
  | nil => rfl
  | cons c cs ih => exact (congrArg (fun t : State => { t with cores := s.cores }) (ih (s.count c 6 1)) :)

theorem countTraps_unnoted (cs : List Nat) (s : State) (c : Nat) : ((s.countTraps cs).core c).unnoted = (s.core c).unnoted := by
  unfold State.countTraps
  induction cs generalizing s with
  | nil => rfl
  | cons d cs ih =>
    refine (ih (s.count d 6 1)).trans ?_
    by_cases hd : c = d
    · subst hd
      exact (congrArg Core.unnoted (core_modCore_self s c _)).trans (count_unnoted _ _ _ _ _)
    · exact congrArg Core.unnoted (core_modCore_of_ne s _ hd)

theorem countTraps_core_of_not_mem {cs : List Nat} {c : Nat} (hc : c ∉ cs) (s : State) : (s.countTraps cs).core c = s.core c := by
  unfold State.countTraps
  induction cs generalizing s with
  | nil => rfl
  | cons d cs ih =>
    rw [List.mem_cons, not_or] at hc
    exact (ih hc.2 (s.count d 6 1)).trans (core_modCore_of_ne s _ hc.1)

/-! ### What a timing trap does (R54, R55) -/

section TimingTrap

variable (s : State) (h c : Nat) (col : Col) (slot : Nat) (it : BitVec 32)

/-- The cores of a trapped pen are counted and rewound; nothing else of a trap reaches a core. -/
theorem timingTrap_core (d : Nat) : (s.timingTrap h c col slot it).core d =
    (((s.countTraps (s.pen h).cores).modCores (s.pen h).cores (Core.rewind s.time)).core d) := by
  have now : (s.countTraps (s.pen h).cores).time = s.time := (congrArg State.time (countTraps_rest _ s) :)
  rw [← now]
  unfold State.timingTrap
  dsimp only
  split
  · exact (sameUnits_postEvent _ _ _ _ _ _ _).core d
  · rfl

/-- A core that a timing trap does not rewind. -/
theorem timingTrap_core_of_not_mem {d : Nat} (hd : d ∉ (s.pen h).cores) : (s.timingTrap h c col slot it).core d = s.core d := by
  rw [timingTrap_core, core_modCores (rewind_rewind s.time), if_neg hd, countTraps_core_of_not_mem hd]

/-- A core that a timing trap rewinds. -/
theorem timingTrap_core_of_mem {d : Nat} (hd : d ∈ (s.pen h).cores) :
    ∃ k : Core, (s.timingTrap h c col slot it).core d = k.rewind s.time ∧ k.unnoted = (s.core d).unnoted := by
  rw [timingTrap_core, core_modCores (rewind_rewind s.time), if_pos hd]
  exact ⟨_, rfl, countTraps_unnoted _ s d⟩

/-- Taking a stop changes what is pending alone, and leaves something pending. -/
theorem takeStop_eq (p : Pen) (now : Nat) (cause : Cause) (rel : Nat) (code value : W64) (late : Bool) :
    ∃ x : Stop, p.takeStop now cause rel col slot it code value late = { p with stop := some x } := by
  unfold Pen.takeStop
  cases hs : p.stop with
  | none => exact ⟨_, rfl⟩
  | some o =>
    dsimp only
    split
    · exact ⟨_, rfl⟩
    · exact ⟨o, by rw [← hs]⟩

/-- A pen whose interval has been discarded goes back to its restart slot. -/
def Pen.restarted (p : Pen) : Pen :=
  { p.rgnBack with
    rpc := if p.rpc = BitVec.allOnes 32 then p.rpc else p.rpc + 1
    hold := none
    finNew := []
    slot := p.rsSlot
    it := p.rsIt
    beat := 0
    started := false
    ran := false
    afterSync := false
    resuming := true
    rewind := rewindBeats
    stop := none
    stopKept := none }

/-- The pen after a timing trap: what no replay would raise again stays pending, and a pen that is stuck stops. -/
def Pen.trapped (p : Pen) (now c : Nat) (col : Col) (slot : Nat) (it : BitVec 32) : Pen :=
  let q := { p.stretch.1.restarted with
    stop := (p.stretch.1.stop.filter (fun st => st.late && decide (st.time < now))).or
      (p.stretch.1.stopKept.filter (fun st => st.time = now)) }
  if p.stretch.2.2 then q.takeStop now .timingStuck (q.rel c) col slot it 0 0 true else q

theorem stretch_pen (p : Pen) : p.stretch.1 =
    { p with cons := p.cons + 1, shift := if (p.cons + 1) % 3 = 0 ∧ p.shift < 4 then p.shift + 1 else p.shift } := by
  unfold Pen.stretch
  by_cases hc : (p.cons + 1) % 3 = 0 <;> by_cases hs : p.shift < 4 <;> simp [hc, hs]

theorem stretch_rose {p : Pen} (hc : (p.cons + 1) % 3 ≠ 0) : p.stretch.2.1 = false := by
  simp [Pen.stretch, hc]

theorem stretch_stuck {p : Pen} (hc : (p.cons + 1) % 3 = 0) (hs : 4 ≤ p.shift) : p.stretch.2.2 = true := by
  simp [Pen.stretch, hc, Nat.not_lt.mpr hs]

/-- The part once the cores of a pen are counted and rewound: nothing but cores has changed. -/
theorem trapped_rest (cs : List Nat) (now : Nat) : { (s.countTraps cs).modCores cs (Core.rewind now) with cores := s.cores } = s := by
  have rewound := congrArg (fun t : State => { t with cores := s.cores }) (modCores_rest cs (Core.rewind now) (s.countTraps cs))
  exact rewound.trans (countTraps_rest cs s)

theorem trapped_eq (p : Pen) (now : Nat) : ∃ x : Option Stop, p.trapped now c col slot it = { p.stretch.1.restarted with stop := x } ∧
    (p.stretch.2.2 = true → x.isSome = true) := by
  unfold Pen.trapped
  cases p.stretch.2.2 with
  | false => exact ⟨_, rfl, fun hf => nomatch hf⟩
  | true =>
    obtain ⟨x, hx⟩ := takeStop_eq _ _ _ _ _ _ _ _ _ _
    exact ⟨some x, hx, fun _ => rfl⟩

/-- A timing trap puts the trapped pen in the pen's place. -/
theorem timingTrap_pen (hh : h < s.pens.length) : (s.timingTrap h c col slot it).pen h = (s.pen h).trapped s.time c col slot it := by
  have time : ∀ now, ((s.countTraps (s.pen h).cores).modCores (s.pen h).cores (Core.rewind now)).time = s.time :=
    fun now => (congrArg State.time (trapped_rest s _ now) :)
  have pens : ∀ now, ((s.countTraps (s.pen h).cores).modCores (s.pen h).cores (Core.rewind now)).pens = s.pens :=
    fun now => (congrArg State.pens (trapped_rest s _ now) :)
  have put : ∀ now p, (((s.countTraps (s.pen h).cores).modCores (s.pen h).cores (Core.rewind now)).setPen h p).pen h = p :=
    fun now p => pen_setPen_self _ p (by rwa [pens])
  unfold State.timingTrap
  dsimp only
  split
  · refine ((sameUnits_postEvent _ _ _ _ _ _ _).pen h).trans ((put _ _).trans ?_)
    rw [← time]
    rfl
  · refine (put _ _).trans ?_
    rw [← time]
    rfl

/-- A trap that does not raise SHIFT posts no event, and leaves memory alone. -/
theorem timingTrap_mem (hc : ((s.pen h).cons + 1) % 3 ≠ 0) : (s.timingTrap h c col slot it).mem = s.mem := by
  unfold State.timingTrap
  simp only [stretch_rose hc]
  exact (congrArg State.mem (trapped_rest s (s.pen h).cores _) :)

end TimingTrap

/-! ### A timing trap rewinds the pen, as `Rewound` says -/

/-- The core part of `Rewound`. -/
theorem rewind_fields {k m : Core} (now : Nat) (hk : k.unnoted = m.unnoted) :
    (k.rewind now).s = m.snap.s ∧ (k.rewind now).q = m.snap.q ∧ (k.rewind now).g = m.snap.g ∧ (k.rewind now).dith = m.snap.dith ∧
    (k.rewind now).v = m.v ∧ (k.rewind now).a = m.a ∧ (k.rewind now).b = m.b ∧ (k.rewind now).oStat = m.oStat ∧
    (k.rewind now).oPiv = m.oPiv ∧ (k.rewind now).fen = m.fen ∧ (k.rewind now).pal = m.pal ∧ (k.rewind now).tags = m.tags ∧
    (k.rewind now).tx = m.tx ∧ (k.rewind now).out = m.out ∧ (k.rewind now).cq = [] ∧
    (∀ p : Fin 8, (k.rewind now).rx[p].q = m.rx[p].q ∧ (k.rewind now).rx[p].taken = 0) ∧
    (∀ f ∈ (k.rewind now).flights, f.old = true) := by
  have snap : k.snap = m.snap := (congrArg Core.snap hk :)
  have rx : k.rx = m.rx := (congrArg Core.rx hk :)
  refine ⟨congrArg Snap.s snap, congrArg Snap.q snap, congrArg Snap.g snap, congrArg Snap.dith snap, (congrArg Core.v hk :),
    (congrArg Core.a hk :), (congrArg Core.b hk :), (congrArg Core.oStat hk :), (congrArg Core.oPiv hk :), (congrArg Core.fen hk :),
    (congrArg Core.pal hk :), (congrArg Core.tags hk :), (congrArg Core.tx hk :), (congrArg Core.out hk :), rfl, fun p => ?_, fun f hf => ?_⟩
  · simp [Core.rewind, Rx.unpop, rx]
  · exact (List.mem_filter.mp hf).2

theorem modCur_unnoted {g : Core → Core} (hg : ∀ k, (g k).unnoted = k.unnoted) (s : State) (d : Nat) :
    ((s.modCur g).core d).unnoted = (s.core d).unnoted := by
  by_cases hd : d = s.cur.core
  · subst hd
    exact (congrArg Core.unnoted (core_modCore_self s _ g)).trans (hg _)
  · exact congrArg Core.unnoted (core_modCore_of_ne s g hd)

/-- The pen part of `Rewound`. -/
theorem restarted_fields {p q : Pen} {x : Option Stop} (hq : q = { p.stretch.1.restarted with stop := x }) :
    (q.slot = p.rsSlot ∧ q.it = p.rsIt ∧ q.started = false ∧ q.rewind = 32 ∧ q.tick = p.tick ∧ q.finNew = []) ∧
    q.rpc = (if p.rpc = BitVec.allOnes 32 then p.rpc else p.rpc + 1) ∧ q.tstat = p.tstat ∧
    (q.rgnOv = p.snapRgnOv ∧ q.rgnPend = none ∧ q.rgn = (p.rgn ++ p.rgnGone).take p.snapRgn) ∧
    q.cons = p.cons + 1 ∧ q.shift = (if (p.cons + 1) % 3 = 0 ∧ p.shift < 4 then p.shift + 1 else p.shift) ∧ q.stop = x := by
  subst hq
  rw [stretch_pen]
  exact ⟨⟨rfl, rfl, rfl, rfl, rfl, rfl⟩, rfl, rfl, ⟨rfl, rfl, rfl⟩, rfl, rfl, rfl⟩

/-- A word of a core that takes its place in program order, and may have stepped its dither phase, and then takes the timing trap. -/
theorem timingTrap_rewound {g : Core → Core} (hg : ∀ k, (g k).unnoted = k.unnoted) {s : State} {h : Nat} (hh : h < s.pens.length)
    (hc : s.cur.core ∈ (s.pen h).cores) (c : Nat) (col : Col) (slot : Nat) (it : BitVec 32) :
    Rewound s h ((s.modCur g).timingTrap h c col slot it) := by
  obtain ⟨x, hx, stuck⟩ := trapped_eq c col slot it (s.pen h) s.time
  have pen : ((s.modCur g).timingTrap h c col slot it).pen h = { (s.pen h).stretch.1.restarted with stop := x } :=
    (timingTrap_pen (s.modCur g) h c col slot it hh).trans hx
  obtain ⟨place, rpc, tstat, region, cons, shift, stop⟩ := restarted_fields pen
  refine { cores := fun d hd => ?cores, others := fun d hd => ?others, place := place, rpc := rpc, cons := cons, lbs := fun hs => ?lbs,
           shift := ?shift, stuck := fun h3 hs => ?stuck, tstat := tstat, region := region, mem := fun h3 a => ?mem }
  case cores =>
    obtain ⟨k, hk, hu⟩ := timingTrap_core_of_mem (s.modCur g) h c col slot it hd
    rw [hk]
    exact rewind_fields _ (hu.trans (modCur_unnoted hg s d))
  case others =>
    have away : d ≠ s.cur.core := fun e => hd (e ▸ hc)
    exact (timingTrap_core_of_not_mem (s.modCur g) h c col slot it hd).trans (core_modCore_of_ne s g away)
  case lbs =>
    have small : (((s.modCur g).timingTrap h c col slot it).pen h).shift < 8 := by
      rw [shift]
      split <;> omega
    rw [lbsWord_toNat _ small, cons]
    omega
  case shift => rw [cons, shift]
  case stuck =>
    rw [cons] at h3
    rw [stop]
    exact stuck (stretch_stuck h3 hs)
  case mem =>
    rw [cons] at h3
    rw [timingTrap_mem (s.modCur g) h c col slot it h3]
    rfl

end Sys2Proof.Machine
end

section
/-! PROOFS. The words that read an empty port (R49, R54). -/

namespace Sys2Proof.Machine

open Sys2Proof

/-! ### A source that is an empty port (R49, R79) -/

theorem portsOf_cons (a : VSrc) (ty : Fmt) (xs : List (VSrc × Fmt)) : portsOf ((a, ty) :: xs) = a.ports ++ portsOf xs := by
  cases a <;> rfl

theorem portsOf_one (a : VSrc) (ty : Fmt) : portsOf [(a, ty)] = a.ports := by
  cases a <;> rfl

theorem portsOf_srcs (b : VOpd) (ty : Fmt) : portsOf (b.srcs ty) = b.ports := by
  cases b with
  | s r => rfl
  | src x => exact portsOf_one x ty

theorem portsOf_append (xs ys : List (VSrc × Fmt)) : portsOf (xs ++ ys) = portsOf xs ++ portsOf ys := List.filterMap_append

theorem mem_portsOf_one {q : Fin 8} {a : VSrc} (ty : Fmt) (h : q ∈ a.ports) : q ∈ portsOf [(a, ty)] := by
  rwa [portsOf_one]

theorem mem_portsOf_two {q : Fin 8} {a : VSrc} {b : VOpd} (ty : Fmt) (h : q ∈ a.ports ++ b.ports) :
    q ∈ portsOf ((a, ty) :: b.srcs ty) := by
  rwa [portsOf_cons, portsOf_srcs]

theorem mem_portsOf_three {q : Fin 8} {a : VSrc} {b : VOpd} {xs : List (VSrc × Fmt)} (ty : Fmt)
    (h : q ∈ a.ports ++ b.ports ++ portsOf xs) : q ∈ portsOf ((a, ty) :: (b.srcs ty ++ xs)) := by
  rwa [portsOf_cons, portsOf_append, portsOf_srcs, ← List.append_assoc]

/-- Sources that name a port without a token, which none of them has popped before, cannot be read. -/
theorem readSrcs_empty (p : VPlan) (st : Stream) (j : Nat) {q : Fin 8} {srcs : List (VSrc × Fmt)} (hq : q ∈ portsOf srcs)
    {popped : List (Fin 8)} (hp : q ∉ popped) {k : Core} (he : k.rx[q].avail = []) : readSrcs p st j srcs popped k = none := by
  induction srcs generalizing popped k with
  | nil => cases hq
  | cons x rest ih =>
    obtain ⟨a, ty⟩ := x
    cases a with
    | v r =>
      have here : readSrcs p st j rest popped k = none := ih hq hp he
      simp [readSrcs, here]
    | rx q' =>
      by_cases hqq : q' = q
      · subst hqq
        simp [readSrcs, hp, show k.rx[q'.val].avail = [] from he]
      · have later : q ∈ portsOf rest := by
          rw [portsOf_cons] at hq
          simpa [VSrc.ports, Ne.symm hqq] using hq
        have apart : q'.val ≠ q.val := fun e => hqq (Fin.ext e)
        unfold readSrcs
        dsimp only
        split
        · rfl
        · rw [ih later (by simp [hp, Ne.symm hqq]) (by split <;> simp [show k.rx[q.val].avail = [] from he, apart]), Option.map_none]

/-! ### What reads an empty port stops there (R49) -/

section Reads

variable {s : State} {q : Fin 8} (he : (s.core s.cur.core).rx[q].avail = [])

include he

theorem popThen_empty (f : State → Tok → State) : s.popThen q f = s.trapHere := by
  simp only [State.popThen, he, List.head?_nil]

theorem peekThen_empty (f : State → Tok → State) : s.peekThen q f = s.trapHere := by
  simp only [State.peekThen, State.curCore, he, List.head?_nil]

theorem gfillStep_empty (st : Stream) (g : Fin 8) (ty : Fmt) : s.gfillStep st g q ty = s.trapHere := by
  simp only [State.gfillStep, he, List.head?_nil]

theorem storeChunk_empty (st : Stream) (n : Ns) (idx : Nat → Int) (span : Nat) : s.storeChunk st (.rx q) n idx span = s.trapHere := by
  unfold State.storeChunk
  dsimp only
  rw [readSrcs_empty _ st st.next (q := q) (by simp [portsOf]) List.not_mem_nil he]

theorem vChunk_empty (p : VPlan) (st : Stream) (hp : q ∈ portsOf p.srcs) : s.vChunk p st = s.trapHere := by
  unfold State.vChunk
  dsimp only
  rw [readSrcs_empty p st st.next hp List.not_mem_nil he]

end Reads

/-- `st` looks at the port as the word found it. -/
theorem exec_st_empty {s : State} {q : Fin 8} (he : s.curCore.rx[q].avail = []) (h : Hdr) (n : Ns) :
    exec (.st h (.port q) n) s = .next (s.modCur Core.tickOrd).trapHere := by
  show execSt h (.port q) n s = _
  simp only [execSt, he, List.head?_nil]

/-- `gfill` looks at the port where the ring is right. -/
theorem exec_gfill {s : State} {g : Fin 8} {ty : Fmt} (hr : s.curCore.g[g].cap ≠ 0 ∧ s.curCore.g[g].fmt = ty) (h : Hdr) (p : Fin 8)
    (cnt : Fin 32) : ∃ st, exec (.gfill h g p ty cnt) s = .next ((s.modCur Core.tickOrd).gfillStep st g p ty) := by
  show ∃ st, execGfill h g p ty cnt s = _
  unfold execGfill
  dsimp only
  have right : (s.curCore.g[g].cap = 0 || s.curCore.g[g].fmt != ty) = false := by
    rw [decide_eq_false hr.1, bne_eq_false_iff_eq.mpr hr.2]
    rfl
  rw [right]
  exact ⟨_, rfl⟩

/-! ### A word that reads an empty port stops as `Rewound` says -/

theorem tickOrd_unnoted (k : Core) : k.tickOrd.unnoted = k.unnoted := rfl

section EmptyPort

variable {s : State} {q : Fin 8} (hh : s.penOf s.cur.core < s.pens.length) (hc : s.cur.core ∈ s.curPen.cores)
  (he : s.curCore.rx[q].avail = [])

include hh hc in
/-- The word has taken its place in program order, and may have stepped its dither phase. -/
theorem trapHere_rewound {g : Core → Core} (hg : ∀ k, (g k).unnoted = k.unnoted) :
    Rewound s (s.penOf s.cur.core) (s.modCur g).trapHere :=
  timingTrap_rewound hg hh hc _ _ _ _

include hh hc in
/-- A word that takes its place in program order and then stops. -/
theorem after_trapHere {i : Instr} {t : State} (hi : exec i s = .next t) (ht : t = (s.modCur Core.tickOrd).trapHere) :
    After (exec i s) (Rewound s (s.penOf s.cur.core)) :=
  ⟨t, hi, ht ▸ trapHere_rewound hh hc tickOrd_unnoted⟩

include he

/-- The port is as empty once the word has taken its place. -/
theorem modCur_avail {g : Core → Core} (hg : ∀ k, (g k).unnoted = k.unnoted) :
    ((s.modCur g).core s.cur.core).rx[q].avail = [] := by
  have rx : ((s.modCur g).core s.cur.core).rx = s.curCore.rx := (congrArg Core.rx (modCur_unnoted hg s s.cur.core) :)
  rw [rx, he]

include hh hc

/-- A V word whose plan reads the port. -/
theorem after_vIssue {i : Instr} {p : VPlan} (hi : exec i s = .next (s.vIssue i p)) (hp : q ∈ portsOf p.srcs) :
    After (exec i s) (Rewound s (s.penOf s.cur.core)) := by
  have keeps : ∀ k : Core, (Core.tickOrd { k with dith := if p.rm = Rm.dither then ditherAdvance k.dith else k.dith }).unnoted =
      k.unnoted := fun _ => rfl
  refine ⟨_, hi, ?_⟩
  have trapped : s.vIssue i p = (s.modCur _).trapHere := vChunk_empty (modCur_avail he keeps) p _ hp
  rw [trapped]
  exact trapHere_rewound hh hc keeps

/-- A port that `vst` or `vsct` stores from. -/
theorem after_storeChunk {i : Instr} {d : VSrc} {st : Stream} {n : Ns} {idx : Nat → Int} {span : Nat} (hq : q ∈ d.ports)
    (hi : exec i s = .next ((s.modCur Core.tickOrd).storeChunk st d n idx span)) :
    After (exec i s) (Rewound s (s.penOf s.cur.core)) := by
  cases d with
  | v r => cases hq
  | rx p =>
    obtain rfl : q = p := List.mem_singleton.mp hq
    exact after_trapHere hh hc hi (storeChunk_empty (modCur_avail he tickOrd_unnoted) st n idx span)

omit hh hc he in
/-- The loader accepts a port as the source of a `vcvt` only where the lanes are of one width (R118). -/
theorem vcvt_srcs {h : Hdr} {d : VDst} {a : VSrc} {td ts : Fmt} {c : Fin 32} {rm : Rm} {sat : Bool}
    (hw : WellFormed (.vcvt h d a td ts c rm sat) = true) (hq : q ∈ a.ports) : (vcvtPlan h d a td ts c rm sat).srcs = [(a, ts)] := by
  have port : a.isPort = true := by
    cases a with
    | rx p => rfl
    | v r => cases hq
  have lanes : td.lane = ts.lane := by
    simp only [WellFormed, Instr.legal, Instr.fieldsOk, port, Bool.and_eq_true, Bool.true_and, Bool.not_eq_true', Bool.or_eq_false_iff,
      bne_eq_false_iff_eq] at hw
    exact hw.2.2.2
  simp [vcvtPlan, lanes]

/-- The V words (R79): every port that `vRx` names is a source of the word's plan, or what it stores. A `vcvt` that changes the lane
width reads its source whole, and the loader accepts no port there (R118). -/
theorem vWord_empty {i : Instr} (hw : WellFormed i = true) (hq : q ∈ i.vRx) : After (exec i s) (Rewound s (s.penOf s.cur.core)) := by
  cases i with
  | vadd h o | vsub h o | vmul h o | vmin h o | vmax h o | vrcps h o | vrsqs h o | vscale h o
  | vsel h o | vand h o | vor h o | vxor h o | vshl h o | vshr h o | vsra h o =>
    exact after_vIssue hh hc he rfl (mem_portsOf_two o.ty hq)
  | vcmp h cc qd a b ty => exact after_vIssue hh hc he rfl (mem_portsOf_two ty hq)
  | vfma h o | vfms h o | vfnma h o =>
    exact after_vIssue hh hc he rfl (mem_portsOf_three o.ty (by rwa [portsOf_srcs]))
  | vclamp h o c => exact after_vIssue hh hc he rfl (mem_portsOf_three o.ty (by rwa [portsOf_srcs]))
  | vdot h o c => exact after_vIssue hh hc he rfl (mem_portsOf_three o.ty (by rwa [portsOf_one]))
  | vabs h o | vneg h o | vrcp h o | vrsq h o | vexp2 h o | vlog2 h o =>
    exact after_vIssue hh hc he rfl (mem_portsOf_one o.ty hq)
  | vfrexpFrac h d a ty | vfrexpExp h d a ty | vround h d a ty | vmov h d a ty | vred h op d a ty | vscan h op d a ty
  | vtopk h d a ty =>
    exact after_vIssue hh hc he rfl (mem_portsOf_one ty hq)
  | vcvt h d a td ts c rm sat =>
    refine after_vIssue hh hc he rfl ?_
    rw [vcvt_srcs hw hq]
    exact mem_portsOf_one ts hq
  | vmred h op d a b qc ty => exact after_vIssue hh hc he rfl (mem_portsOf_two ty (b := .src b) hq)
  | vperm h d a b ty => exact after_vIssue hh hc he rfl (mem_portsOf_one ty hq)
  | vhouse h d a c => exact after_vIssue hh hc he rfl (mem_portsOf_one .fp32 hq)
  | vst h d n | vsct h d n => exact after_storeChunk hh hc he hq rfl
  | _ => exact absurd hq List.not_mem_nil

end EmptyPort

/-- Settles O29: a word of the X column stops as it first looks at its port, and so does `gfill` with a ring that fits; a V word stops
as it reads its sources. -/
theorem emptyPortTraps : Obligations.EmptyPortTraps := by
  unfold Obligations.EmptyPortTraps
  intro i s hw hh hc ⟨q, hq, he⟩ hg
  have empty := modCur_avail he tickOrd_unnoted
  cases i with
  | recvS h d p ty | recvQ h d p | recvV h d p ty cnt | drop h p cnt =>
    obtain rfl : q = p := List.mem_singleton.mp hq
    exact after_trapHere hh hc rfl (popThen_empty empty _)
  | peekS h d p ty | peekQ h d p =>
    obtain rfl : q = p := List.mem_singleton.mp hq
    exact after_trapHere hh hc rfl (peekThen_empty empty _)
  | st h d n =>
    cases d with
    | s r => exact absurd hq List.not_mem_nil
    | port p =>
      obtain rfl : q = p := List.mem_singleton.mp hq
      exact after_trapHere hh hc (exec_st_empty he h n) rfl
  | gfill h g p ty cnt =>
    obtain rfl : q = p := List.mem_singleton.mp hq
    obtain ⟨st, hst⟩ := exec_gfill (hg h g q ty cnt rfl) h q cnt
    exact after_trapHere hh hc hst (gfillStep_empty empty st g ty)
  | _ => exact vWord_empty hh hc he hw hq

end Sys2Proof.Machine
end

section
/-! PROOFS. A word gives back the fields it was packed from, and the checks of R82 on the fields of an encoded word. -/

namespace Sys2Proof

/-! ### Packing and unpacking a layout -/

/-- The bits of a layout. -/
def layoutBits (l : List (Fld × Nat)) : Nat := (l.map Prod.snd).sum

theorem pack_lt (l : List (Fld × Nat)) (g : Fld → Nat) : pack l g < 2 ^ layoutBits l := by
  induction l with
  | nil => exact Nat.one_pos
  | cons x l ih =>
    obtain ⟨f, n⟩ := x
    have hf : g f % 2 ^ n < 2 ^ n := Nat.mod_lt _ (Nat.two_pow_pos n)
    have hs : layoutBits ((f, n) :: l) = n + layoutBits l := rfl
    rw [hs, Nat.pow_add, pack]
    calc g f % 2 ^ n + 2 ^ n * pack l g
      _ < 2 ^ n * (pack l g + 1) := by rw [Nat.mul_add, Nat.mul_one]; omega
      _ ≤ 2 ^ n * 2 ^ layoutBits l := Nat.mul_le_mul_left _ ih

/-- The upper part of a layout, read from above the bits of the lower. -/
theorem pack_append_div (l m : List (Fld × Nat)) (g : Fld → Nat) : pack (l ++ m) g / 2 ^ layoutBits l = pack m g := by
  induction l with
  | nil => exact Nat.div_one _
  | cons x l ih =>
    obtain ⟨f, n⟩ := x
    have hs : layoutBits ((f, n) :: l) = n + layoutBits l := rfl
    rw [hs, Nat.pow_add, ← Nat.div_div_eq_div_mul, List.cons_append, pack, Nat.add_mul_div_left _ _ (Nat.two_pow_pos n),
      Nat.mod_div_self, Nat.zero_add, ih]

@[simp] theorem fldGet_nil (f : Fld) : fldGet [] f = 0 := rfl

@[simp] theorem fldGet_cons (k f : Fld) (v : Nat) (r : List (Fld × Nat)) : fldGet ((k, v) :: r) f = if k = f then v else fldGet r f := rfl

theorem fldGet_append_of_ne_zero {l : List (Fld × Nat)} {f : Fld} (m : List (Fld × Nat)) (h : fldGet l f ≠ 0) :
    fldGet (l ++ m) f = fldGet l f := by
  induction l with
  | nil => exact absurd rfl h
  | cons x l ih =>
    obtain ⟨k, v⟩ := x
    simp only [List.cons_append, fldGet_cons] at h ⊢
    split
    · rfl
    · exact ih (by simpa only [fldGet_cons, if_neg ‹_›] using h)

/-- A field with a value stands in the list with it. -/
theorem fldGet_mem {vs : List (Fld × Nat)} {f : Fld} (h : fldGet vs f ≠ 0) : (f, fldGet vs f) ∈ vs := by
  induction vs with
  | nil => exact absurd rfl h
  | cons x vs ih =>
    obtain ⟨k, v⟩ := x
    simp only [fldGet_cons] at h ⊢
    split
    · subst k; exact List.mem_cons_self
    · exact List.mem_cons_of_mem _ (ih (by simpa only [if_neg ‹_›] using h))

/-- Unpacking what was packed gives each field's value, cut to its width in the layout; a field the layout has not is 0. -/
theorem fldGet_unpack_pack (l : List (Fld × Nat)) (g : Fld → Nat) (f : Fld) :
    fldGet (unpack l (pack l g)) f = g f % 2 ^ fldGet l f := by
  induction l with
  | nil => exact (Nat.mod_one _).symm
  | cons x l ih =>
    obtain ⟨k, n⟩ := x
    have hlow : (g k % 2 ^ n + 2 ^ n * pack l g) % 2 ^ n = g k % 2 ^ n := by rw [Nat.add_mul_mod_self_left, Nat.mod_mod]
    have hhigh : (g k % 2 ^ n + 2 ^ n * pack l g) / 2 ^ n = pack l g := by
      rw [Nat.add_mul_div_left _ _ (Nat.two_pow_pos n), Nat.mod_div_self, Nat.zero_add]
    simp only [pack, unpack, fldGet_cons, hlow, hhigh, ih]
    split
    · subst k; rfl
    · rfl

theorem val_of_mem_unpack_pack {l : List (Fld × Nat)} {g : Fld → Nat} {x : Fld × Nat} (h : x ∈ unpack l (pack l g)) :
    ∃ n, x.2 = g x.1 % 2 ^ n := by
  induction l with
  | nil => exact absurd h List.not_mem_nil
  | cons y l ih =>
    obtain ⟨k, n⟩ := y
    rw [pack, unpack, Nat.add_mul_mod_self_left, Nat.mod_mod, Nat.add_mul_div_left _ _ (Nat.two_pow_pos n), Nat.mod_div_self,
      Nat.zero_add] at h
    rcases List.mem_cons.1 h with rfl | h
    · exact ⟨n, rfl⟩
    · exact ih h

/-! ### The layouts of a slot word (R66, R68 to R75) -/

/-- Every format's word has 80 bits. -/
theorem layoutBits_layout (n : Nat) : layoutBits (layout n) = 80 := by
  unfold layout opLayout
  split <;> rfl

theorem opLayout_not_hdr {n : Nat} {x : Fld × Nat} (hx : x ∈ opLayout n) : hdrFld x.1 = false := by
  revert x
  unfold opLayout
  split <;> decide

theorem fldGet_append_of_not_mem {l : List (Fld × Nat)} {f : Fld} (m : List (Fld × Nat)) (h : ∀ x ∈ l, x.1 ≠ f) :
    fldGet (l ++ m) f = fldGet m f := by
  induction l with
  | nil => rfl
  | cons x l ih =>
    obtain ⟨hx, hl⟩ := List.forall_mem_cons.1 h
    rw [List.cons_append, fldGet_cons, if_neg hx, ih hl]

/-- A header field is as wide in every format as R66 says. -/
theorem fldGet_layout_of_hdr (n : Nat) {f : Fld} (hf : hdrFld f = true) : fldGet (layout n) f = fldGet hdrLayout f :=
  fldGet_append_of_not_mem _ fun x hx e => by rw [← e, opLayout_not_hdr hx] at hf; exact absurd hf Bool.false_ne_true

/-! ### The parts of a word -/

@[simp] theorem b01_eq_one (b : Bool) : (b01 b = 1) = (b = true) := by cases b <;> simp [b01]

theorem b01_lt_two (b : Bool) : b01 b < 2 := by cases b <;> decide

theorem parts_get_of_not_hdr (p : Parts) {f : Fld} (hf : hdrFld f = false) : p.get f = fldGet p.vals f := by
  cases f <;> cases hf <;> rfl

theorem hdr_ofFlds_get (p : Parts) : Hdr.ofFlds p.get = p.h := by
  obtain ⟨c, op, n, ⟨hold, rp, pq, pn, fold⟩, vals⟩ := p
  simp [Hdr.ofFlds, Parts.get, r16]

/-- Each operand field of the parts is one of the format's and stays below the field's width. -/
def Parts.Fits (p : Parts) : Prop := p.op < 256 ∧ p.ofmt < 8 ∧ ∀ x ∈ p.vals, x.2 < 2 ^ fldGet (opLayout p.ofmt) x.1

theorem Parts.Fits.get_lt {p : Parts} (hp : p.Fits) (f : Fld) : p.get f < 2 ^ fldGet (layout p.ofmt) f := by
  obtain ⟨hop, hfmt, hvals⟩ := hp
  cases hf : hdrFld f with
  | true =>
    rw [fldGet_layout_of_hdr _ hf]
    cases f with
    | op => exact hop
    | fmt => exact hfmt
    | hold => exact p.h.hold.isLt
    | rp | pn => exact b01_lt_two _
    | pq => exact p.h.pq.isLt
    | fold => exact p.h.fold.isLt
    | _ => exact absurd hf Bool.false_ne_true
  | false =>
    rw [parts_get_of_not_hdr p hf]
    by_cases h0 : fldGet p.vals f = 0
    · rw [h0]; exact Nat.two_pow_pos _
    · have hlt := hvals _ (fldGet_mem h0)
      have hw : fldGet (opLayout p.ofmt) f ≠ 0 := fun e => h0 (by rw [e] at hlt; exact Nat.lt_one_iff.1 hlt)
      rwa [layout, fldGet_append_of_ne_zero _ hw]

/-- The word of parts that fit, read as a number, is their packing. -/
theorem parts_word_toNat (p : Parts) : p.word.toNat = pack (layout p.ofmt) p.get := by
  have h := pack_lt (layout p.ofmt) p.get
  rw [layoutBits_layout] at h
  rw [Parts.word, BitVec.toNat_ofNat, Nat.mod_eq_of_lt h]

/-- FMT stands at bit 69 of every word (R66). -/
theorem parts_word_fmt {p : Parts} (hp : p.Fits) : p.word.toNat / 2 ^ 69 % 8 = p.ofmt := by
  have hl : layout p.ofmt = (opLayout p.ofmt ++ [(.fold, 2), (.pn, 1), (.pq, 4), (.rp, 1), (.hold, 2)]) ++ [(.fmt, 3), (.op, 8)] := by
    rw [List.append_assoc]; rfl
  have hb : layoutBits (opLayout p.ofmt ++ [(.fold, 2), (.pn, 1), (.pq, 4), (.rp, 1), (.hold, 2)]) = 69 := by
    unfold opLayout; split <;> rfl
  have hd := pack_append_div (opLayout p.ofmt ++ [(.fold, 2), (.pn, 1), (.pq, 4), (.rp, 1), (.hold, 2)]) [(.fmt, 3), (.op, 8)] p.get
  obtain ⟨-, hfmt, -⟩ := hp
  have hg : p.get .fmt = p.ofmt := rfl
  rw [parts_word_toNat, hl, ← hb, hd]
  simp only [pack, hg]
  omega

/-- The decoder reads back every field of parts that fit. -/
theorem fldGet_unpack_word {p : Parts} (hp : p.Fits) : fldGet (unpack (layout p.ofmt) p.word.toNat) = p.get := by
  funext f
  rw [parts_word_toNat, fldGet_unpack_pack, Nat.mod_eq_of_lt (hp.get_lt f)]

/-! ### The checks of R82 on the parts -/

/-- A register field accepts a value that it then reads (R78, R107, R109): one of its class, or a port code the word takes there. -/
def RegFld.Reads (x : RegFld) (n : Nat) : Prop := n < x.size ∨ (x.port = true ∧ 0 < x.win ∧ x.win ≤ n ∧ n < x.win + 8)

/-- The value names a port. -/
def RegFld.Port (x : RegFld) (n : Nat) : Prop := x.port = true ∧ x.size ≤ n

/-- An opcode's row takes the parts of a word and builds an instruction from them: the checks of R82 other than HOLD and RP, in the words
of the parts, and what the row says of ports and of synchronisation, on which HOLD rests (R67). -/
structure Row.Takes (r : Row) (p : Parts) (i : Instr) : Prop where
  inst : r.inst = some i
  fmt : r.ofmt = p.ofmt
  vals : ∀ x ∈ p.vals, x.2 < 2 ^ fldGet (opLayout p.ofmt) x.1 ∧ (x.1 ∈ r.used ∨ x.2 = 0)
  regs : ∀ x ∈ r.regs, x.Reads (p.get x.f)
  csr : r.csr = true → csrKnown (p.get .csr) = true
  sync : (r.sync != if i.isSync then 0 else 1) = true
  ports : i.namesPort = true → r.port = true ∨ ∃ x ∈ r.regs, x.Port (p.get x.f)

/-- Every opcode has 8 bits, every format number 3 (R66). -/
theorem parts_codes_lt {i : Instr} {p : Parts} (hp : i.parts = some p) : p.op < 256 ∧ p.ofmt < 8 := by
  cases i <;> cases hp <;> exact ⟨Nat.le_of_ble_eq_true rfl, Nat.le_of_ble_eq_true rfl⟩

/-- The parts carry the instruction's own header, and are of the S column as `inS` says. -/
theorem parts_hdr {i : Instr} {p : Parts} (hp : i.parts = some p) : i.hdr? = some p.h ∧ i.inS = decide (p.col = .s) := by
  cases i <;> cases hp <;> exact ⟨rfl, rfl⟩

theorem Row.Takes.holdOk {r : Row} {p : Parts} {i : Instr} (ht : r.Takes p i) (hh : i.hdr? = some p.h) (hi : i.holdOk = true) :
    r.holdOk p.get = true := by
  have hg : p.get .hold = p.h.hold.val := rfl
  have hs : r.sync ≠ if i.isSync then 0 else 1 := bne_iff_ne.1 ht.sync
  simp only [Instr.holdOk, hh] at hi
  unfold Row.holdOk
  rw [hg]
  cases hsync : i.isSync with
  | true =>
    simp only [hsync, if_true, decide_eq_true_eq] at hi hs
    rw [hi]
    simpa using hs
  | false =>
    simp only [hsync, Bool.false_eq_true, if_false, Bool.or_eq_true, Bool.and_eq_true, decide_eq_true_eq] at hi hs
    rcases hi with hi | ⟨hi, hport⟩
    · rw [hi]; simpa using hs
    · rw [hi]
      rcases ht.ports hport with h | ⟨x, hx, hxp, hxs⟩
      · simp [h]
      · simp only [Fin.val_one, Bool.or_eq_true, List.any_eq_true]
        exact Or.inr ⟨x, hx, by simp [hxp, hxs]⟩

/-- Check 3 of R82: no unused field of the word has a value. -/
theorem Row.Takes.unused {r : Row} {p : Parts} {i : Instr} (ht : r.Takes p i) :
    (unpack (layout p.ofmt) p.word.toNat).any (fun x => x.2 != 0 && !hdrFld x.1 && !(x.1 ∈ r.used)) = false := by
  rw [List.any_eq_false]
  intro x hx
  rw [parts_word_toNat] at hx
  obtain ⟨n, hn⟩ := val_of_mem_unpack_pack hx
  simp only [Bool.and_eq_true, bne_iff_ne, Bool.not_eq_true', decide_eq_false_iff_not, not_and, not_not]
  rintro ⟨h0, hf⟩
  rw [hn, parts_get_of_not_hdr p hf] at h0
  have hv : fldGet p.vals x.1 ≠ 0 := fun e => h0 (by rw [e, Nat.zero_mod])
  exact (ht.vals _ (fldGet_mem hv)).2.resolve_right hv

/-- Checks 4 and 8 of R82 on the register fields (R78, R107, R109). -/
theorem Row.Takes.accepted {r : Row} {p : Parts} {i : Instr} (ht : r.Takes p i) {x : RegFld} (hx : x ∈ r.regs) :
    x.accepted p.get = true ∧ x.portRefused p.get = false := by
  unfold RegFld.accepted RegFld.portRefused
  rcases ht.regs x hx with h | ⟨hp, h0, hlo, hhi⟩
  · simp [h]
  · simp [hp, h0, hlo, hhi]

theorem left_of_and {a b : Bool} (h : (a && b) = true) : a = true := (Bool.and_eq_true_iff.1 h).1
theorem right_of_and {a b : Bool} (h : (a && b) = true) : b = true := (Bool.and_eq_true_iff.1 h).2

theorem fieldsOk_of_wellFormed {i : Instr} (hw : WellFormed i = true) : i.fieldsOk = true := by
  unfold WellFormed Instr.legal at hw
  exact right_of_and hw

/-- Parts whose row takes them decode to the instruction they come from. -/
theorem decode_parts {i : Instr} {p : Parts} {r : Row} (hw : WellFormed i = true) (hp : i.parts = some p)
    (hr : rowOf p.col p.op p.h p.get = some r) (ht : r.Takes p i) : decode p.col p.word = .ok i := by
  obtain ⟨hop, hfmt⟩ := parts_codes_lt hp
  have hfit : p.Fits := ⟨hop, hfmt, fun x hx => (ht.vals x hx).1⟩
  obtain ⟨hhdr, hinS⟩ := parts_hdr hp
  have hlegal : (i.rpOk = true ∧ i.holdOk = true) ∧ i.fieldsOk = true := by simpa [WellFormed, Instr.legal] using hw
  obtain ⟨⟨hrp, hhold⟩, -⟩ := hlegal
  have hrp' : (p.get .rp = 1 && p.col != .s) = false := by
    simp only [Instr.rpOk, hhdr, hinS] at hrp
    have hg : p.get .rp = b01 p.h.rp := rfl
    rw [hg]
    cases hb : p.h.rp <;> simp_all [b01]
  have hacc : r.regs.any (fun x => !x.accepted p.get) = false := by
    simpa using fun x hx => (ht.accepted hx).1
  have href : r.regs.any (fun x => x.portRefused p.get) = false := by
    simpa using fun x hx => (ht.accepted hx).2
  have hcsr : (r.csr && !csrKnown (p.get .csr)) = false := by
    have := ht.csr
    cases hc : r.csr <;> simp_all
  have hgop : p.get .op = p.op := rfl
  unfold decode
  simp only [parts_word_fmt hfit, fldGet_unpack_word hfit, hdr_ofFlds_get, hgop, hr, ht.fmt, ht.unused, hacc, hcsr, hrp',
    ht.holdOk hhdr hhold, href, ht.inst, hw, bne_self_eq_false, Bool.false_eq_true, Bool.not_true, if_false, if_true]

end Sys2Proof
end

section
/-! PROOFS. The decoder on encoded words of the S column. -/

namespace Sys2Proof

/-! ### Operands and their codes -/

@[simp] theorem r32_val (r : Fin 32) : r32 r.val = r := Fin.ofNat_val_eq_self r
@[simp] theorem r16_val (r : Fin 16) : r16 r.val = r := Fin.ofNat_val_eq_self r
@[simp] theorem r8_val (r : Fin 8) : r8 r.val = r := Fin.ofNat_val_eq_self r

@[simp] theorem fin32_lt_64 (r : Fin 32) : r.val < 64 := by omega
@[simp] theorem fin16_lt_64 (r : Fin 16) : r.val < 64 := by omega
@[simp] theorem fin8_lt_64 (r : Fin 8) : r.val < 64 := by omega
@[simp] theorem fin4_lt_256 (r : Fin 4) : r.val < 256 := by omega
@[simp] theorem imm32_lt (v : BitVec 32) : v.toNat < 4294967296 := v.isLt
@[simp] theorem imm8_lt (v : BitVec 8) : v.toNat < 256 := v.isLt
@[simp] theorem imm53_lt (v : BitVec 53) : v.toNat < 9007199254740992 := v.isLt
@[simp] theorem ofs24_lt (v : BitVec 24) : v.toNat < 16777216 := v.isLt

@[simp] theorem b01_le_one (b : Bool) : b01 b ≤ 1 := by cases b <;> decide

@[simp] theorem Fmt.ofCode_code (t : Fmt) : Fmt.ofCode t.code = t := by cases t <;> rfl
@[simp] theorem Fmt.ofCode_zero : Fmt.ofCode 0 = .fp32 := rfl
@[simp] theorem Fmt.code_lt (t : Fmt) : t.code < 32 := by cases t <;> decide
@[simp] theorem Fmt.code_lt_256 (t : Fmt) : t.code < 256 := t.code_lt.trans (by decide)
@[simp] theorem Cc.ofCode_code (c : Cc) : Cc.ofCode c.code = some c := by cases c <;> rfl
theorem Cc.code_lt_eight (c : Cc) : c.code < 8 := by cases c <;> decide
@[simp] theorem Cc.code_lt (c : Cc) : c.code < 256 := c.code_lt_eight.trans (by decide)

@[simp] theorem sReg_f (f : Fld) : (sReg f).f = f := rfl
@[simp] theorem qReg_f (f : Fld) : (qReg f).f = f := rfl
@[simp] theorem reads_mk_val {n : Nat} (f : Fld) (w : Nat) (port : Bool) (r : Fin n) : RegFld.Reads ⟨f, n, w, port⟩ r.val :=
  Or.inl r.isLt
@[simp] theorem not_port_mk (f : Fld) (n w m : Nat) : ¬ RegFld.Port ⟨f, n, w, false⟩ m := fun h => absurd h.1 Bool.false_ne_true
@[simp] theorem sReg_not_port (f : Fld) (n : Nat) : ¬ (sReg f).Port n := not_port_mk f _ _ n
@[simp] theorem qReg_not_port (f : Fld) (n : Nat) : ¬ (qReg f).Port n := not_port_mk f _ _ n
@[simp] theorem sReg_reads (f : Fld) (r : Fin 32) : (sReg f).Reads r.val := Or.inl r.isLt
@[simp] theorem qReg_reads (f : Fld) (r : Fin 16) : (qReg f).Reads r.val := Or.inl r.isLt

/-! ### Decoding by the row -/

/-- As `decode_parts`, with the checks one by one; `names` says whether the word names a port. Where the row's fields are those of the
parts, one by one, each check holds by the rules of its operand, which the `simp` of its default proof applies. -/
theorem decode_row {i : Instr} {p : Parts} {r : Row} (hw : WellFormed i = true) (hp : i.parts = some p)
    (hr : rowOf p.col p.op p.h p.get = some r) (names : Bool := false) (hnames : i.namesPort = names := by rfl)
    (hfmt : r.ofmt = p.ofmt := by rfl) (hsync : (r.sync != if i.isSync then 0 else 1) = true := by rfl)
    (hcsr : r.csr = true → csrKnown (p.get .csr) = true := by exact fun h => absurd h Bool.false_ne_true)
    (hinst : r.inst = some i := by
      simp [Parts.get, rowS3, rowS2, rowSI, rowQ3, rowV2, rowVB, rowRed, rowOa, V2.ofFlds, VB.ofFlds, Ns.ofFlds])
    (hvals : ∀ x ∈ p.vals, x.2 < 2 ^ fldGet (opLayout p.ofmt) x.1 ∧ (x.1 ∈ r.used ∨ x.2 = 0) := by
      simp [opLayout, Parts.get, rowS3, rowS2, rowSI, rowQ3, rowV2, rowVB, rowRed, rowOa])
    (hregs : ∀ x ∈ r.regs, x.Reads (p.get x.f) := by
      simp [Parts.get, rowS3, rowS2, rowSI, rowQ3, rowV2, rowVB, rowRed, rowOa])
    (hports : names = true → r.port = true ∨ ∃ x ∈ r.regs, x.Port (p.get x.f) := by
      simp [Parts.get, rowV2, rowVB, rowRed, V2.port, VB.port, or_assoc]) :
    decode p.col p.word = .ok i :=
  decode_parts hw hp hr
    { inst := hinst, fmt := hfmt, vals := hvals, regs := hregs, csr := hcsr, sync := hsync, ports := hnames ▸ hports }

/-! ### The S column (R81, R86 to R102) -/

/-- The S column (R86 to R102): IDX and LB share IMM32 of `bld`, and the CSR is a known one. -/
theorem decode_parts_s {i : Instr} {p : Parts} (hw : WellFormed i = true) (hp : i.parts = some p) (hc : p.col = .s) :
    decode .s p.word = .ok i := by
  cases i with
  | add h d a b | sub h d a b | mul h d a b | mulh h d a b | mulhz h d a b | div h d a b | divz h d a b | rem h d a b | remz h d a b
  | and h d a b | or h d a b | xor h d a b | andn h d a b | shl h d a b | shr h d a b | sra h d a b | rotl h d a b | min h d a b
  | max h d a b | minz h d a b | maxz h d a b | bext h d a b | addsh h d a b k =>
    cases hp
    exact decode_row hw rfl rfl
  | clz h d a | ctz h d a | popc h d a | bins h d a b c | sel h d a b c | mad h d a b c | sext h ty d a =>
    cases hp
    exact decode_row hw rfl rfl
  | cmp h cc d a b | addi h d a imm | muli h d a imm | andi h d a imm | ori h d a imm | xori h d a imm | shli h d a imm | shri h d a imm
  | srai h d a imm | mini h d a imm | maxi h d a imm | lih h d a imm
  | cmpi h cc d a imm | li h d imm | lil h d imm =>
    cases hp
    exact decode_row hw rfl rfl
  | qand h d a b | qor h d a b | qxor h d a b | qandn h d a b | qnot h d a | qsetRange h d a b
  | qsetWord h d a b | qget h d a w | qfirst h d a =>
    cases hp
    exact decode_row hw rfl rfl
  | bld h d a idx lb =>
    cases hp
    have hlt : idx.toNat + 1048576 * lb.val < 268435456 := by omega
    have hgap : (idx.toNat + 1048576 * lb.val) / 4096 % 256 = 0 := by omega
    have hidx : BitVec.ofNat 12 (idx.toNat + 1048576 * lb.val) = idx := BitVec.eq_of_toNat_eq (by simp; omega)
    have hlb : Fin.ofNat 256 ((idx.toNat + 1048576 * lb.val) / 1048576) = lb := Fin.ext (by simp; omega)
    exact decode_row hw rfl rfl (hinst := by simp [Parts.get, hlt, hgap, hidx, hlb, -Fin.ofNat_eq_cast])
      (hvals := by simp [opLayout]; omega)
  | mfc h d csr | mtc h csr a =>
    cases hp
    exact decode_row hw rfl rfl (hcsr := fun _ => fieldsOk_of_wellFormed hw)
  | lea h ty d br x ofs | bset h d w a | bget h d a w | rgnin h id | rgnout h | trap h code a | brk h code | fin h code =>
    cases hp
    exact decode_row hw rfl rfl
  | nop c h =>
    cases hp
    cases hc
    exact decode_row hw rfl rfl
  | _ => cases hp <;> cases hc

end Sys2Proof
end

section
/-! PROOFS. The decoder on encoded words of the V column. -/

namespace Sys2Proof

/-! ### Operands of the V column and their codes (R78, R108) -/

theorem VSrc.code_cases (a : VSrc) : a.code < 32 ∨ 32 ≤ a.code ∧ a.code < 40 := by
  cases a with
  | v r => exact Or.inl r.isLt
  | rx q => exact Or.inr (by simp only [VSrc.code]; omega)

theorem VDst.code_cases (d : VDst) : d.code < 32 ∨ 40 ≤ d.code ∧ d.code < 48 := by
  cases d with
  | v r => exact Or.inl r.isLt
  | tx q => exact Or.inr (by simp only [VDst.code]; omega)

@[simp] theorem VSrc.code_lt (a : VSrc) : a.code < 64 := by rcases a.code_cases with h | h <;> omega
@[simp] theorem VDst.code_lt (d : VDst) : d.code < 64 := by rcases d.code_cases with h | h <;> omega
@[simp] theorem VOpd.code_lt (b : VOpd) : b.code < 64 := by
  cases b with
  | src x => exact x.code_lt
  | s r => exact fin32_lt_64 r

@[simp] theorem VSrc.ofCode_code (a : VSrc) : VSrc.ofCode a.code = a := by
  cases a with
  | v r => simp [VSrc.code, VSrc.ofCode]
  | rx q =>
    have h : Fin.ofNat 8 (32 + q.val) = q := Fin.ext (by simp; omega)
    simp only [VSrc.code, VSrc.ofCode, h]
    rw [if_neg (by omega)]

@[simp] theorem VDst.ofCode_code (d : VDst) : VDst.ofCode d.code = d := by
  cases d with
  | v r => simp [VDst.code, VDst.ofCode]
  | tx q =>
    have h : Fin.ofNat 8 (40 + q.val) = q := Fin.ext (by simp; omega)
    simp only [VDst.code, VDst.ofCode, h]
    rw [if_neg (by omega)]

@[simp] theorem VOpd.ofCode_code (b : VOpd) : VOpd.ofCode b.isS b.code = b := by
  cases b <;> simp [VOpd.code, VOpd.ofCode, VOpd.isS]

@[simp] theorem Rm.ofCode_code (m : Rm) : Rm.ofCode m.code = m := by cases m <;> rfl
@[simp] theorem Rm.code_lt (m : Rm) : m.code < 4 := by cases m <;> decide
@[simp] theorem Rm.code_eq_zero (m : Rm) : m.code = 0 ↔ m = .rne := by cases m <;> decide
@[simp] theorem b01_eq_zero (b : Bool) : b01 b = 0 ↔ b = false := by cases b <;> decide
@[simp] theorem RedOp.ofCode_code (o : RedOp) : RedOp.ofCode o.code = some o := by cases o <;> rfl
@[simp] theorem RedOp.code_lt (o : RedOp) : o.code < 256 := by cases o <;> decide

@[simp] theorem vSrcReg_f (f : Fld) : (vSrcReg f).f = f := rfl
@[simp] theorem vDstReg_f (f : Fld) : (vDstReg f).f = f := rfl
@[simp] theorem vWhole_f (f : Fld) : (vWhole f).f = f := rfl
@[simp] theorem vDstNoPort_f (f : Fld) : (vDstNoPort f).f = f := rfl
@[simp] theorem vOpdReg_f (s : Bool) (f : Fld) : (vOpdReg s f).f = f := by cases s <;> rfl

@[simp] theorem vSrcReg_reads (f : Fld) (a : VSrc) : (vSrcReg f).Reads a.code :=
  a.code_cases.imp_right fun h => ⟨rfl, Nat.succ_pos _, h⟩
@[simp] theorem vDstReg_reads (f : Fld) (d : VDst) : (vDstReg f).Reads d.code :=
  d.code_cases.imp_right fun h => ⟨rfl, Nat.succ_pos _, h⟩
@[simp] theorem vWhole_reads (f : Fld) (r : Fin 32) : (vWhole f).Reads r.val := Or.inl r.isLt
@[simp] theorem vDstNoPort_reads (f : Fld) (r : Fin 32) : (vDstNoPort f).Reads r.val := Or.inl r.isLt
@[simp] theorem vOpdReg_reads (f : Fld) (b : VOpd) : (vOpdReg b.isS f).Reads b.code := by
  cases b with
  | src x => exact vSrcReg_reads f x
  | s r => exact sReg_reads f r

/-! A code names a port where its operand is one. -/

@[simp] theorem vSrcReg_port (f : Fld) (a : VSrc) : (vSrcReg f).Port a.code ↔ a.isPort = true := by
  cases a <;> simp [RegFld.Port, vSrcReg, VSrc.code, VSrc.isPort]

@[simp] theorem vDstReg_port (f : Fld) (d : VDst) : (vDstReg f).Port d.code ↔ d.isPort = true := by
  cases d with
  | v r => simp [RegFld.Port, vDstReg, VDst.code, VDst.isPort]
  | tx q => simp only [RegFld.Port, vDstReg, VDst.code, VDst.isPort, true_and, iff_true]; omega

@[simp] theorem vWhole_not_port (f : Fld) (n : Nat) : ¬ (vWhole f).Port n := not_port_mk f _ _ n
@[simp] theorem vDstNoPort_not_port (f : Fld) (n : Nat) : ¬ (vDstNoPort f).Port n := not_port_mk f _ _ n
@[simp] theorem vOpdReg_port (f : Fld) (b : VOpd) : (vOpdReg b.isS f).Port b.code ↔ b.isPort = true := by
  cases b with
  | src x => exact vSrcReg_port f x
  | s r => simp [RegFld.Port, vOpdReg, VOpd.isS, sReg, VOpd.isPort]

/-! SB, SC and what stands beside them in SUB. -/

/-- A bit that stands above a number below it. -/
theorem bitAt_add {n k : Nat} (h : n < 2 ^ k) (x : Bool) : bitAt (n + 2 ^ k * b01 x) k = x := by
  rw [bitAt, Nat.add_mul_div_left _ _ (Nat.two_pow_pos k), Nat.div_eq_of_lt h, Nat.zero_add]
  cases x <;> rfl

@[simp] theorem bitAt_cc (c : Cc) (x : Bool) : bitAt (c.code + 128 * b01 x) 7 = x :=
  bitAt_add (k := 7) (c.code_lt_eight.trans (by decide)) x
@[simp] theorem cc_sb_mod (c : Cc) (x : Bool) : (c.code + 128 * b01 x) % 8 = c.code := by
  have := c.code_lt_eight; omega
@[simp] theorem cc_sb_gap (c : Cc) (x : Bool) : (c.code + 128 * b01 x) / 8 % 16 = 0 := by
  have := c.code_lt_eight; omega
@[simp] theorem cc_sb_lt (c : Cc) (x : Bool) : c.code + 128 * b01 x < 256 := by
  have := c.code_lt_eight; have := b01_le_one x; omega

@[simp] theorem bitAt_topk_seven (k : Fin 64) (x : Bool) : bitAt (k.val + 128 * b01 x) 7 = x :=
  bitAt_add (k := 7) (k.isLt.trans (by decide)) x
@[simp] theorem bitAt_topk_six (k : Fin 64) (x : Bool) : bitAt (k.val + 128 * b01 x) 6 = false :=
  decide_eq_false (by omega)
theorem topk_ofNat (k : Fin 64) (x : Bool) : Fin.ofNat 64 (k.val + 128 * b01 x) = k := Fin.ext (by simp; omega)
@[simp] theorem topk_lt (k : Fin 64) (x : Bool) : k.val + 128 * b01 x < 256 := by have := b01_le_one x; omega

@[simp] theorem bitAt_hi (t : Fmt) (x : Bool) : bitAt (t.code + 32 * b01 x) 5 = x := bitAt_add (k := 5) t.code_lt x
@[simp] theorem hi_ofCode (t : Fmt) (x : Bool) : Fmt.ofCode (t.code + 32 * b01 x) = t := by cases t <;> cases x <;> rfl
@[simp] theorem hi_lt (t : Fmt) (x : Bool) : t.code + 32 * b01 x < 64 := by have := t.code_lt; have := b01_le_one x; omega
@[simp] theorem hi_lt_256 (t : Fmt) (x : Bool) : t.code + 32 * b01 x < 256 := (hi_lt t x).trans (by decide)

@[simp] theorem bitAt_sb (x : Bool) : bitAt (128 * b01 x) 7 = x := by cases x <;> rfl
@[simp] theorem bitAt_sb_of (x y : Bool) : bitAt (128 * b01 x + 64 * b01 y) 7 = x := by cases x <;> cases y <;> rfl
@[simp] theorem bitAt_sc_of (x y : Bool) : bitAt (128 * b01 x + 64 * b01 y) 6 = y := by cases x <;> cases y <;> rfl
@[simp] theorem sb_mod (x : Bool) : 128 * b01 x % 64 = 0 := by cases x <;> rfl
@[simp] theorem sb_lt (x : Bool) : 128 * b01 x < 256 := by cases x <;> decide
@[simp] theorem sb_sc_lt (x y : Bool) : 128 * b01 x + 64 * b01 y < 256 := by cases x <;> cases y <;> decide

/-- RM is a field that the word uses, or 0 (R111). -/
theorem rm_used {ty : Fmt} {rm : Rm} (h : rmFP ty rm = true) : ty.isFP = true ∨ rm = .rne := by
  simpa [rmFP] using h

/-! ### Shapes of V words -/

section Shapes

variable {i : Instr} {p : Parts} {h : Hdr} {op : Nat} (hw : WellFormed i = true) (hp : i.parts = some p) (hsync : i.isSync = false)
include hw hp hsync

theorem decode_rowV1 {o : V1} {ex : List Fld} {k : V1 → Instr} (hpe : encV1 h op o = some p)
    (hr : rowOf .v op h p.get = some (rowV1 p.get ex k)) (hports : i.namesPort = o.port) (hk : k o = i)
    (hrm : .rm ∈ ex ∨ o.rm = .rne) (hsat : .sat ∈ ex ∨ o.sat = false) : decode .v p.word = .ok i := by
  cases hpe
  subst hk
  exact decode_row hw hp hr o.port hports (hsync := by rw [hsync]; rfl) (hinst := by simp [rowV1, Parts.get, V1.ofFlds])
    (hvals := by simp [rowV1, opLayout, hrm, hsat]) (hregs := by simp [rowV1, Parts.get])
    (hports := by simp [rowV1, Parts.get, V1.port])

theorem decode_rowV2 {o : V2} {ex : List Fld} {k : V2 → Instr} (hpe : encV2 h op o = some p)
    (hr : rowOf .v op h p.get = some (rowV2 p.get ex k)) (hports : i.namesPort = o.port) (hk : k o = i)
    (hrm : .rm ∈ ex ∨ o.rm = .rne) (hsat : .sat ∈ ex ∨ o.sat = false) : decode .v p.word = .ok i := by
  cases hpe
  subst hk
  exact decode_row hw hp hr o.port hports (hsync := by rw [hsync]; rfl) (hinst := by simp [rowV2, Parts.get, V2.ofFlds])
    (hvals := by simp [rowV2, opLayout, hrm, hsat]) (hregs := by simp [rowV2, Parts.get])
    (hports := by simp [rowV2, Parts.get, V2.port, or_assoc])

theorem decode_rowV3 {o : V3} {ex : List Fld} {k : V3 → Instr} (hpe : encV3 h op o = some p)
    (hr : rowOf .v op h p.get = some (rowV3 p.get ex k)) (hports : i.namesPort = o.port) (hk : k o = i)
    (hrm : .rm ∈ ex ∨ o.rm = .rne) (hsat : .sat ∈ ex ∨ o.sat = false) : decode .v p.word = .ok i := by
  cases hpe
  subst hk
  exact decode_row hw hp hr o.port hports (hsync := by rw [hsync]; rfl) (hinst := by simp [rowV3, Parts.get, V3.ofFlds])
    (hvals := by simp [rowV3, opLayout, hrm, hsat]) (hregs := by simp [rowV3, Parts.get])
    (hports := by simp [rowV3, Parts.get, V3.port, or_assoc])

theorem decode_rowVB {o : VB} {k : VB → Instr} (hpe : encVB h op o = some p)
    (hr : rowOf .v op h p.get = some (rowVB p.get k)) (hports : i.namesPort = o.port) (hk : k o = i) : decode .v p.word = .ok i := by
  cases hpe
  subst hk
  exact decode_row hw hp hr o.port hports (hsync := by rw [hsync]; rfl) (hinst := by simp [rowVB, Parts.get, VB.ofFlds])
    (hvals := by simp [rowVB, opLayout]) (hregs := by simp [rowVB, Parts.get])
    (hports := by simp [rowVB, Parts.get, VB.port, or_assoc])

end Shapes

/-- The V column (R112 to R131): RM, SAT, C and LB are 0 where the word's type or row does not use them (R77, R111). -/
theorem decode_parts_v {i : Instr} {p : Parts} (hw : WellFormed i = true) (hp : i.parts = some p) (hc : p.col = .v) :
    decode .v p.word = .ok i := by
  have hf := fieldsOk_of_wellFormed hw
  cases i with
  | vadd h o | vsub h o | vmul h o =>
    cases hp
    have hrm := rm_used (right_of_and hf)
    exact decode_rowV2 hw rfl rfl rfl rfl rfl rfl (by simpa [Parts.get] using hrm) (by simp)
  | vmin h o | vmax h o =>
    cases hp
    have hrm : o.rm = .rne := of_decide_eq_true (right_of_and hf)
    exact decode_rowV2 hw rfl rfl rfl rfl rfl rfl (by simp [hrm]) (by simp)
  | vrcps h o | vrsqs h o | vscale h o =>
    cases hp
    exact decode_rowV2 hw rfl rfl rfl rfl rfl rfl (by simp) (by simp)
  | vfma h o | vfms h o | vfnma h o =>
    cases hp
    have hrm := rm_used (right_of_and hf)
    exact decode_rowV3 hw rfl rfl rfl rfl rfl rfl (by simpa [Parts.get] using hrm) (by simp)
  | vabs h o | vneg h o =>
    cases hp
    have hrm : o.rm = .rne := of_decide_eq_true (right_of_and hf)
    exact decode_rowV1 hw rfl rfl rfl rfl rfl rfl (by simp [hrm]) (by simp)
  | vrcp h o | vrsq h o =>
    cases hp
    have hsat : o.sat = false := Bool.not_eq_true' _ ▸ right_of_and hf
    exact decode_rowV1 hw rfl rfl rfl rfl rfl rfl (by simp) (by simp [hsat])
  | vexp2 h o | vlog2 h o =>
    cases hp
    exact decode_rowV1 hw rfl rfl rfl rfl rfl rfl (by simp) (by simp)
  | vand h o | vor h o | vxor h o | vshl h o | vshr h o | vsra h o =>
    cases hp
    exact decode_rowVB hw rfl rfl rfl rfl rfl rfl
  | vfrexpFrac h d a ty | vfrexpExp h d a ty | vround h d a ty rm | vmov h d a ty =>
    cases hp
    exact decode_row hw rfl rfl (d.isPort || a.isPort)
  | vcvt h d a td ts c rm sat =>
    cases hp
    have hc : (td.scaled = true ∨ ts.scaled = true) ∨ c = 0 := by
      simpa [or_assoc] using right_of_and (left_of_and hf)
    exact decode_row hw rfl rfl (d.isPort || a.isPort) (hvals := by simp [opLayout, Parts.get, hc])
  | vcmp h cc qd a b ty =>
    cases hp
    exact decode_row hw rfl rfl (a.isPort || b.isPort)
  | vsel h o qc =>
    cases hp
    exact decode_row hw rfl rfl o.port
  | vclamp h o c =>
    cases hp
    exact decode_row hw rfl rfl (o.port || c.isPort)
  | vhouse h d a c =>
    cases hp
    exact decode_row hw rfl rfl a.isPort
  | vdot h o c =>
    cases hp
    have hrm := rm_used (right_of_and hf)
    exact decode_row hw rfl rfl (o.port || c.isPort) (hvals := by simp [opLayout, Parts.get, rowV2, hrm])
  | vred h op d a ty rm sat | vscan h op d a ty rm sat =>
    cases hp
    have hrm := rm_used (right_of_and (left_of_and hf))
    exact decode_row hw rfl rfl a.isPort (hvals := by simp [opLayout, Parts.get, rowRed, hrm])
  | vmred h op d a b qc ty rm sat =>
    cases hp
    have hrm := rm_used (right_of_and (left_of_and hf))
    exact decode_row hw rfl rfl (a.isPort || b.isPort) (hvals := by simp [opLayout, Parts.get, rowRed, hrm])
  | vtopk h d a ty k val =>
    cases hp
    exact decode_row hw rfl rfl a.isPort (hinst := by simp [Parts.get, topk_ofNat, -Fin.ofNat_eq_cast])
  | vperm h d a b ty =>
    cases hp
    exact decode_row hw rfl rfl (d.isPort || b.isPort)
  | vld h d n | vgth h d n | vbcastElem h d a b ty | vslide h d a b ty n | vpack h d a b td ts rm sat | vunpk h d a td ts hi rm sat
  | vbcastScalar h d b ty | vcompress h d a ty | vexpand h d a ty | vidx h d a ty | vli h d ty imm =>
    cases hp
    exact decode_row hw rfl rfl d.isPort
  | vqcnt h d a ty | vins h d a ty n | vext h d a ty n | vnorm h d a c ty rm sat t =>
    cases hp
    exact decode_row hw rfl rfl
  | vst h d n | vsct h d n =>
    cases hp
    have hlb : n.lb = 0 := of_decide_eq_true (right_of_and hf)
    exact decode_row hw rfl rfl d.isPort (hvals := by simp [opLayout, hlb])
  | nop c h =>
    cases hp
    cases hc
    exact decode_row hw rfl rfl
  | _ => cases hp <;> cases hc

end Sys2Proof
end

section
/-! PROOFS. The decoder on encoded words of the M column. -/

namespace Sys2Proof

/-! ### Operands of the M column and their codes (R71, R133, R143) -/

@[simp] theorem Tacc.ofCode_code (t : Tacc) : Tacc.ofCode t.code = some t := by cases t <;> rfl
@[simp] theorem Tacc.code_lt (t : Tacc) : t.code < 4 := by cases t <;> decide
@[simp] theorem Dfn.ofCode_code (f : Dfn) : Dfn.ofCode f.code = some f := by cases f <;> rfl
@[simp] theorem Dfn.code_lt (f : Dfn) : f.code < 16 := by cases f <;> decide

@[simp] theorem MDst.ofCode_code (d : MDst) : MDst.ofCode d.code = some d := by
  cases d with
  | ring g => simp [MDst.code, MDst.ofCode]
  | tx q =>
    have hring : ¬ 40 + q.val < 8 := by omega
    have htx : (decide (40 ≤ 40 + q.val) && decide (40 + q.val < 48)) = true :=
      Bool.and_eq_true_iff.2 ⟨decide_eq_true (by omega), decide_eq_true (by omega)⟩
    have hq : Fin.ofNat 8 (40 + q.val) = q := Fin.ext (by simp; omega)
    unfold MDst.ofCode
    exact (if_neg hring).trans ((if_pos htx).trans (congrArg (some ∘ MDst.tx) hq))

@[simp] theorem b01_lt_64 (b : Bool) : b01 b < 64 := by have := b01_le_one b; omega

/-! RM and SAT of `mdrain` stand in GB (R143). -/

@[simp] theorem Rm.code_mod (m : Rm) : m.code % 4 = m.code := Nat.mod_eq_of_lt m.code_lt
@[simp] theorem gb_div (m : Rm) (x : Bool) : ((m.code + 4 * b01 x) / 4 = 1) = (x = true) := by
  cases m <;> cases x <;> simp [Rm.code, b01]
@[simp] theorem gb_lt (m : Rm) (x : Bool) : m.code + 4 * b01 x < 8 := by cases m <;> cases x <;> decide

@[simp] theorem MDst.code_lt (d : MDst) : d.code < 64 := by
  cases d <;> simp only [MDst.code] <;> omega

/-- A destination code names a tx port where it lies among theirs. -/
theorem MDst.code_port (d : MDst) (h : d.isPort = true) : 40 ≤ d.code ∧ d.code < 48 := by
  cases d with
  | ring g => exact absurd h Bool.false_ne_true
  | tx q => simp only [MDst.code]; omega

@[simp] theorem mReg_f (f : Fld) (n : Nat) : (mReg f n).f = f := rfl
@[simp] theorem mReg_reads {n : Nat} (f : Fld) (r : Fin n) : (mReg f n).Reads r.val := Or.inl r.isLt
@[simp] theorem mReg_not_port (f : Fld) (n m : Nat) : ¬ (mReg f n).Port m := not_port_mk f _ _ m

@[simp] theorem fin4_lt_eight (r : Fin 4) : r.val < 8 := by omega
@[simp] theorem fin32_lt_256 (r : Fin 32) : r.val < 256 := by omega
@[simp] theorem fin256_lt_imm (r : Fin 256) : r.val < 4294967296 := by omega
@[simp] theorem fin4_lt_64 (r : Fin 4) : r.val < 64 := by omega

/-- The M column (R137 to R158): CAP and KB share IMM32 of `ginit`, and LB of a store is 0. -/
theorem decode_parts_m {i : Instr} {p : Parts} (hw : WellFormed i = true) (hp : i.parts = some p) (hc : p.col = .m) :
    decode .m p.word = .ok i := by
  have hf := fieldsOk_of_wellFormed hw
  cases i with
  | mma h o | mmat h o =>
    cases hp
    exact decode_row hw rfl rfl (hinst := by simp [Parts.get, Mma.ofFlds])
  | mdrain h o =>
    cases hp
    exact decode_row hw rfl rfl o.dst.isPort (hinst := by simp [Parts.get, Mdrain.ofFlds])
      (hports := fun h => Or.inl (by simpa [Parts.get] using o.dst.code_port h))
  | mst h ad n | oasave h ad n =>
    cases hp
    have hlb : n.lb = 0 := of_decide_eq_true (right_of_and hf)
    exact decode_row hw rfl rfl (hvals := by simp [opLayout, hlb])
  | mzero h ad | mld h ad n | mmov h ad ga t xp | madd h ad ga t | mscl h ad ga sr | mrowmax h vr ga t | mrowsum h vr ga t
  | gadv h g n | gpop h g n | gstat h d g =>
    cases hp
    exact decode_row hw rfl rfl
  | ginit h g a ty cap kb =>
    cases hp
    have hlt : cap.val + 256 * kb.val < 16384 := by omega
    have hcap : Fin.ofNat 256 (cap.val + 256 * kb.val) = cap := Fin.ext (by simp)
    have hkb : Fin.ofNat 64 ((cap.val + 256 * kb.val) / 256) = kb := Fin.ext (by simp; omega)
    exact decode_row hw rfl rfl (hinst := by simp [Parts.get, hlt, hcap, hkb, -Fin.ofNat_eq_cast])
      (hvals := by simp [opLayout]; omega)
  | gfill h g p ty cnt =>
    cases hp
    exact decode_row hw rfl rfl true
  | oaclr h o | oarc h o | oaml h o ga xp | oamr h o ga xp | oaform h o ga xp | oamv h o vr xp | oastat h o sr | oacfg h o sr
  | oaload h o n =>
    cases hp
    exact decode_row hw rfl rfl
  | oaapp h o vr sr kt | oahh h o vr sr kt =>
    cases hp
    have hkt : kt.val ≤ 32 := of_decide_eq_true hf
    exact decode_row hw rfl rfl (hinst := by simp [Parts.get, rowOa, hkt])
  | nop c h =>
    cases hp
    cases hc
    exact decode_row hw rfl rfl
  | _ => cases hp <;> cases hc

end Sys2Proof
end

section
/-! PROOFS. The decoder on encoded words of the X column, and the statements about encodings. -/

namespace Sys2Proof

/-! ### Operands of the X column and their codes (R74, R165, R168, R169) -/

@[simp] theorem Ord3.ofCode_code (o : Ord3) : Ord3.ofCode o.code = some o := by cases o <;> rfl
@[simp] theorem Ord3.code_lt (o : Ord3) : o.code < 8 := by cases o <;> decide
@[simp] theorem Scope.ofCode_code (s : Scope) : Scope.ofCode s.code = some s := by cases s <;> rfl
@[simp] theorem Scope.code_lt (s : Scope) : s.code < 8 := by cases s <;> decide
@[simp] theorem Fmt.ofCode_ten : Fmt.ofCode 10 = .int32 := rfl
@[simp] theorem fin8_lt_256 (r : Fin 8) : r.val < 256 := by omega
@[simp] theorem fin64_lt_256 (r : Fin 64) : r.val < 256 := by omega
@[simp] theorem imm16_lt (v : BitVec 16) : v.toNat < 65536 := v.isLt

theorem SPort.code_cases (d : SPort) (base : Nat) : d.code base < 32 ∨ base ≤ d.code base ∧ d.code base < base + 8 := by
  cases d with
  | s r => exact Or.inl r.isLt
  | port q => exact Or.inr (by simp only [SPort.code]; omega)

@[simp] theorem SPort.code_rx_lt (d : SPort) : d.code 32 < 64 := by rcases d.code_cases 32 with h | h <;> omega
@[simp] theorem SPort.code_tx_lt (d : SPort) : d.code 40 < 64 := by rcases d.code_cases 40 with h | h <;> omega

theorem SPort.ofCode_code (d : SPort) {base : Nat} (hlo : 32 ≤ base) (h8 : base % 8 = 0) : SPort.ofCode (d.code base) = d := by
  cases d with
  | s r => simp [SPort.code, SPort.ofCode]
  | port q =>
    have h : Fin.ofNat 8 (base + q.val) = q := Fin.ext (by simp; omega)
    simp only [SPort.code, SPort.ofCode, h]
    rw [if_neg (by omega)]

@[simp] theorem SPort.ofCode_rx (d : SPort) : SPort.ofCode (d.code 32) = d := d.ofCode_code (by decide) rfl
@[simp] theorem SPort.ofCode_tx (d : SPort) : SPort.ofCode (d.code 40) = d := d.ofCode_code (by decide) rfl

@[simp] theorem sport_reads (f : Fld) (d : SPort) {base : Nat} (h : 0 < base) : RegFld.Reads ⟨f, 32, base, true⟩ (d.code base) :=
  (d.code_cases base).imp_right fun hc => ⟨rfl, h, hc⟩

theorem sport_port (f : Fld) (d : SPort) {base : Nat} (hlo : 32 ≤ base) (h : d.isPort = true) :
    RegFld.Port ⟨f, 32, base, true⟩ (d.code base) := by
  cases d with
  | s r => exact absurd h Bool.false_ne_true
  | port q => exact ⟨rfl, Nat.le_trans hlo (Nat.le_add_right _ _)⟩

/-! ### F6 words (R74, R173) -/

@[simp] theorem F6.ofFlds_get {h : Hdr} {op : Nat} {o : F6} {p : Parts} (hpe : encF6 h op o = some p) : F6.ofFlds p.get = some o := by
  cases hpe
  simp [F6.ofFlds, Parts.get]

/-- An F6 word: the fields that its row of R173 does not use are 0, and TAG is 0 where no token echoes it. -/
theorem decode_rowF6 {i : Instr} {p : Parts} {h : Hdr} {op : Nat} {o : F6} {used : List Fld} {k : F6 → Option Instr} {sync : Nat}
    (hw : WellFormed i = true) (hp : i.parts = some p) (hpe : encF6 h op o = some p)
    (hr : rowOf .x op h p.get = some (rowF6 p.get used k sync)) (hk : k o = some i)
    (hok : o.ok (.cmd ∈ used) (.a ∈ used) (.b ∈ used) (.imm ∈ used) (.cp ∈ used) = true)
    (htag : (sync = 0 ∨ sync = 2 ∧ h.hold ≠ 2) ∨ o.tag = 0 := by exact Or.inl (Or.inl rfl))
    (hports : i.namesPort = false := by rfl) (hsync : (sync != if i.isSync then 0 else 1) = true := by rfl) :
    decode .x p.word = .ok i := by
  have hk' : (F6.ofFlds p.get).bind k = some i := by rw [F6.ofFlds_get hpe]; exact hk
  cases hpe
  simp only [F6.ok, Bool.and_eq_true, Bool.or_eq_true, decide_eq_true_eq] at hok
  obtain ⟨⟨⟨⟨hcmd, ha⟩, hb⟩, himm⟩, hcp⟩ := hok
  refine decode_row hw hp hr false hports (hsync := hsync) (hinst := hk') (hvals := ?_) (hregs := ?_)
  · have hecho : (sync = 0 ∨ sync = 2 ∧ h.hold.val ≠ 2) ∨ o.tag = 0 :=
      htag.imp_left (Or.imp_right (And.imp_right fun hn e => hn (Fin.ext e)))
    simpa [rowF6, opLayout, Parts.get] using ⟨hcmd, hcp, ha, hb, himm.imp_right (congrArg BitVec.toNat), hecho.imp_left Or.inr⟩
  · simp [rowF6, Parts.get]

/-- HOLD of a synchronisation word, and of another word that names no port (R67). -/
theorem hold_of_wellFormed {i : Instr} {h : Hdr} (hw : WellFormed i = true) (hh : i.hdr? = some h) :
    (i.isSync = true → h.hold = 2) ∧ (i.isSync = false → i.namesPort = false → h.hold = 0) := by
  have hhold : i.holdOk = true := by
    unfold WellFormed Instr.legal at hw
    exact right_of_and (left_of_and hw)
  simp only [Instr.holdOk, hh] at hhold
  constructor
  · intro hs
    simpa [hs] using hhold
  · intro hs hn
    simpa [hs, hn] using hhold

/-- The X column (R161 to R190). HOLD tells the two forms of `await` and of `fence` apart (R67), SUB those of `lcopy` and `lprf` (R173). -/
theorem decode_parts_x {i : Instr} {p : Parts} (hw : WellFormed i = true) (hp : i.parts = some p) (hc : p.col = .x) :
    decode .x p.word = .ok i := by
  have hf := fieldsOk_of_wellFormed hw
  cases i with
  | recvS h d p ty | recvV h d p ty cnt | recvQ h d p | sendS h p a ty tag | sendV h p a ty cnt tag | sendq h p a tag
  | peekS h d p ty | peekQ h d p | rxstat h d p | drop h p cnt =>
    cases hp
    exact decode_row hw rfl rfl true
  | ld h d n =>
    cases hp
    exact decode_row hw rfl rfl d.isPort (hports := fun h => Or.inr ⟨_, List.mem_cons_self, sport_port .d d (by decide) h⟩)
  | st h d n =>
    cases hp
    have hlb : n.lb = 0 := of_decide_eq_true (right_of_and hf)
    exact decode_row hw rfl rfl d.isPort (hvals := by simp [opLayout, hlb])
      (hports := fun h => Or.inr ⟨_, List.mem_cons_self, sport_port .d d (by decide) h⟩)
  | lgath h o | lscat h o | lwin h o | lfill h o | lexp h o | limp h o | apop h o | apush h o | dmd h o | dret h o | dstat h o
  | ckpt h o | cfgld h o | swap h o | aadd h o | amin h o | amax h o | aand h o | aor h o | axor h o | aswap h o | acas h o =>
    cases hp
    exact decode_rowF6 hw rfl rfl rfl rfl (left_of_and hf)
  | ald h o | ast h o | arrive h o | dsend h o | dtw h o | dtd h o | dcommit h o | dtr h o | dabn h o =>
    cases hp
    exact decode_rowF6 hw rfl rfl rfl rfl (left_of_and (left_of_and hf))
  | lcopy h o | lprf h o =>
    cases hp
    have hsub : o.sub = 0 := of_decide_eq_true (right_of_and hf)
    exact decode_rowF6 hw rfl rfl (if_neg (by simp [Parts.get, hsub, bitAt])) rfl (left_of_and hf)
  | lcopyShort h o | lprfShort h o =>
    cases hp
    have hsub : o.sub = 1 := of_decide_eq_true (right_of_and hf)
    exact decode_rowF6 hw rfl rfl (if_pos (by simp [Parts.get, hsub, bitAt])) rfl (left_of_and hf)
  | bar h o | liter h o =>
    cases hp
    have htag : o.tag = 0 := of_decide_eq_true (right_of_and (left_of_and hf))
    exact decode_rowF6 hw rfl rfl rfl rfl (left_of_and (left_of_and (left_of_and hf))) (Or.inr htag)
  | bwait h o =>
    cases hp
    have htag : o.tag = 0 := of_decide_eq_true (right_of_and (left_of_and (left_of_and hf)))
    exact decode_rowF6 hw rfl rfl rfl rfl (left_of_and (left_of_and (left_of_and (left_of_and hf)))) (Or.inr htag)
  | fenceSync h o =>
    cases hp
    obtain ⟨hold, rp, pq, pn, fold⟩ := h
    obtain rfl : hold = 2 := (hold_of_wellFormed hw rfl).1 rfl
    have htag : o.tag = 0 := of_decide_eq_true (right_of_and (left_of_and hf))
    exact decode_rowF6 hw rfl rfl rfl rfl (left_of_and (left_of_and (left_of_and hf))) (Or.inr htag)
  | awaitSync h o =>
    cases hp
    obtain ⟨hold, rp, pq, pn, fold⟩ := h
    obtain rfl : hold = 2 := (hold_of_wellFormed hw rfl).1 rfl
    have htag : o.tag = 0 := of_decide_eq_true (right_of_and (left_of_and hf))
    exact decode_rowF6 hw rfl rfl rfl rfl (left_of_and (left_of_and (left_of_and (left_of_and (left_of_and hf))))) (Or.inr htag)
  | fenceAsync h o =>
    cases hp
    obtain ⟨hold, rp, pq, pn, fold⟩ := h
    obtain rfl : hold = 0 := (hold_of_wellFormed hw rfl).2 rfl rfl
    exact decode_rowF6 hw rfl rfl rfl rfl (left_of_and (left_of_and hf)) (Or.inl (Or.inr ⟨rfl, by simp⟩))
  | awaitAsync h o =>
    cases hp
    obtain ⟨hold, rp, pq, pn, fold⟩ := h
    obtain rfl : hold = 0 := (hold_of_wellFormed hw rfl).2 rfl rfl
    exact decode_rowF6 hw rfl rfl rfl rfl (left_of_and (left_of_and (left_of_and hf))) (Or.inl (Or.inr ⟨rfl, by simp⟩))
  | tlk h d a | tins h a b c | tinv h a | tclr h | trmark h imm a =>
    cases hp
    exact decode_row hw rfl rfl
  | nop c h =>
    cases hp
    cases hc
    exact decode_row hw rfl rfl
  | _ => cases hp <;> cases hc

/-! ### The statements about encodings (03_encoding.md) -/

/-- A word of a column decodes to the instruction it was encoded from, where the parts of every well-formed one do. -/
theorem decode_encode {c : Col}
    (hcol : ∀ {i : Instr} {p : Parts}, WellFormed i = true → i.parts = some p → p.col = c → decode c p.word = .ok i)
    (i : Instr) (w : SlotWord) (hw : WellFormed i = true) (he : encode i = some (c, w)) : decode c w = .ok i := by
  obtain ⟨p, hp, hpw⟩ := Option.map_eq_some_iff.1 he
  obtain ⟨hc, rfl⟩ := Prod.mk.inj hpw
  exact hcol hw hp hc

/-- Settles O2: the parts of an S word fit its row of the opcode map, and the row builds the instruction from them. -/
theorem roundTripScalar : Obligations.RoundTripScalar := decode_encode decode_parts_s

/-- Settles O3: the same with the V column's rows. -/
theorem roundTripVector : Obligations.RoundTripVector := decode_encode decode_parts_v

/-- Settles O4: the same with the M column's rows. -/
theorem roundTripMatrix : Obligations.RoundTripMatrix := decode_encode decode_parts_m

/-- Settles O5: the same with the X column's rows. -/
theorem roundTripExchange : Obligations.RoundTripExchange := decode_encode decode_parts_x

/-- Settles O1: the decoder computes each of the words. -/
theorem decodeWords : Obligations.DecodeWords :=
  ⟨rfl, rfl, rfl, rfl, rfl, rfl, rfl, rfl, rfl, rfl, rfl, rfl, rfl⟩

end Sys2Proof
end

section
/-! PROOFS. `nop` (R84, R103). -/

namespace Sys2Proof.Machine

open Sys2Proof

/-- Settles O11: `nop` ends in a result that writes nothing, whatever its column. -/
theorem nopWord : Obligations.NopWord := fun _ _ _ => scalarWord_of_result rfl

end Sys2Proof.Machine
end

section
/-! PROOFS. The configuration loader (R189, R332, R334): the command it performs, `swap`, and a command that names no pen. -/

namespace Sys2Proof.Machine

open Sys2Proof

/-! ### A die after a change -/

theorem die_modDie_self (s : State) {d : Nat} (f : Die → Die) (hd : d < 4) : (s.modDie d f).die d = f (s.die d) := by
  simp [State.modDie, State.die, hd]

/-- The package has four dies. -/
theorem die_of_le (s : State) {d : Nat} (hd : 4 ≤ d) : s.die d = {} := by
  simp [State.die, hd]

/-! ### A command that places no acquire and no release -/

section
variable {m : Cmd} (ho : m.o.ord = .none)
include ho

theorem not_releases : m.releases = false := by simp [Cmd.releases, ho]

theorem not_acquires : m.acquires = false := by simp [Cmd.acquires, ho]

theorem askFlush_unordered (s : State) (own : Bool) : s.askFlush m own = s := by
  simp [State.askFlush, State.podRelease, not_releases ho]

theorem mayRelease_unordered (s : State) : s.mayRelease m = true := by simp [State.mayRelease, not_releases ho]

/-- Its answer joins those on their way, with no clock to wait for. -/
theorem answer_unordered (s : State) {d : Done} (hm : d.cmd = m) (hc : d.code ≠ 11) (hk : d.clock = []) :
    s.answer d = { s with dones := s.dones ++ [d] } := by
  obtain ⟨⟩ := d
  subst hm hk
  have hr := not_releases ho
  simp_all [State.answer]

end

/-! ### The pen that a configuration command names -/

theorem pen_of_lt (s : State) {h : Nat} (hh : h < s.pens.length) : s.pen h = s.pens[h] := List.getD_eq_getElem _ _ hh

theorem OwnPen.pidPen {s : State} {own ctx pid h : Nat} (hp : OwnPen s own ctx pid h) : s.pidPen own ctx pid = some h := by
  obtain ⟨hh, is, first⟩ := hp
  have found : s.pens.findIdx (fun p => (p.live || p.frozen = .cast) && !p.ended && p.ctx = ctx && p.pid.toNat = pid &&
      p.qid = (s.pen own).qid && p.seq = (s.pen own).seq) = h := by
    refine (List.findIdx_eq hh).2 ⟨?_, fun j hj => ?_⟩
    · simpa [← pen_of_lt s hh, and_assoc] using is
    · rw [Bool.eq_false_iff, ← pen_of_lt s (hj.trans hh)]
      simpa [and_assoc] using first j hj
  unfold State.pidPen
  dsimp only
  rw [found, if_pos hh]

theorem pidPen_none {s : State} {ctx pid : Nat} (own : Nat)
    (no : ∀ p ∈ s.pens, ¬ ((p.live = true ∨ p.frozen = .cast) ∧ p.ended = false ∧ p.ctx = ctx ∧ p.pid.toNat = pid)) :
    s.pidPen own ctx pid = none := by
  have missed : ∀ f : Pen → Bool, (∀ p, f p = true → (p.live = true ∨ p.frozen = .cast) ∧ p.ended = false ∧ p.ctx = ctx ∧ p.pid.toNat = pid) →
      ¬ s.pens.findIdx f < s.pens.length := fun f hf lt => no _ (List.getElem_mem lt) (hf _ (List.findIdx_getElem (w := lt)))
  unfold State.pidPen
  dsimp only
  rw [if_neg (missed _ (by simp +contextual)), if_neg (missed _ (by simp +contextual))]

theorem cfgPen_eq (s : State) (m : Cmd) : s.cfgPen m = s.pidPen m.pen m.ctx (m.a.toNat % 65536) := by
  simp [State.cfgPen, bitsOf, natBits]

theorem cfgPen_congr {s t : State} (h : t.pens = s.pens) (m : Cmd) : t.cfgPen m = s.cfgPen m := by
  unfold State.cfgPen State.pidPen State.pen
  rw [h]

/-- A command waits for no swap whose pen holds none. -/
theorem cfgWaits_of_swap_none {s : State} {m : Cmd} (h : ∀ g, s.cfgPen m = some g → (s.pen g).swap = none) : s.cfgWaits m = false := by
  unfold State.cfgWaits
  split
  · rfl
  · next g hg => simp [h g hg]

/-! ### The command that the loader of a die performs -/

/-- The state in which the loader performs a command: it has left the queue. -/
def State.unload (s : State) (d : Nat) (m : Cmd) : State :=
  s.modDie d (fun x => { x with loader := x.loader.filter (fun c => c.id != m.id) })

theorem sameUnits_unload (s : State) (d : Nat) (m : Cmd) : SameUnits s (s.unload d m) := sameUnits_modDie s d _

theorem unload_dones (s : State) (d : Nat) (m : Cmd) : (s.unload d m).dones = s.dones := modDie_dones s d _

theorem unload_mem (s : State) (d : Nat) (m : Cmd) : (s.unload d m).mem = s.mem := modDie_mem s d _

section
variable {s : State} {d : Nat} {m : Cmd} (hl : (s.die d).loader = [m])
include hl

/-- Its queue is then empty, of a die of the package, the only ones with a queue that is not. -/
theorem unload_loader : ((s.unload d m).die d).loader = [] := by
  have hd : d < 4 := by
    by_contra hd
    rw [die_of_le s (Nat.le_of_not_lt hd)] at hl
    cases hl
  rw [State.unload, die_modDie_self s _ hd, hl]
  simp

/-- The only command of a queue, without an acquire or a release, is performed once no swap is in its way. -/
theorem exec_configLoad (ho : m.o.ord = .none) (hw : s.cfgWaits m = false) :
    exec (.configLoad d) s = s.keyGuard d m.ctx ((s.unload d m).cfgCmd d m) := by
  show execConfigLoad d s = _
  simp [execConfigLoad, hl, askFlush_unordered ho, mayRelease_unordered ho, hw, not_releases ho, not_acquires ho, State.unload]

/-- Under the key slot of another context it stays where it is, with the alarm (R355). -/
theorem configLoad_unbound (ho : m.o.ord = .none) (hk : s.keyBound m.ctx = false) (hs : ∀ p ∈ s.pens, p.swap = none) :
    After (exec (.configLoad d) s) (fun t => t = { s with todo := s.todo ++ [.ev .alarmClassB { a := m.ctx, b := d }] }) := by
  have hw : s.cfgWaits m = false := cfgWaits_of_swap_none (fun g _ => by
    rw [State.pen, List.getD_eq_getElem?_getD]
    cases hg : s.pens[g]? with
    | none => rfl
    | some p => exact hs p (List.mem_of_getElem? hg))
  exact ⟨_, (exec_configLoad hl ho hw).trans (keyGuard_unbound hk d _), rfl⟩

/-- A command that names no pen is ABORTED. -/
theorem configLoad_noPen (ho : m.o.ord = .none) (hk : s.keyBound m.ctx = true)
    (no : ∀ p ∈ s.pens, ¬ ((p.live = true ∨ p.frozen = .cast) ∧ p.ended = false ∧ p.ctx = m.ctx ∧ p.pid.toNat = m.a.toNat % 65536)) :
    After (exec (.configLoad d) s) (fun t => t.pens = s.pens ∧ t.cores = s.cores ∧
      t.dones = s.dones ++ [{ cmd := m, eng := 5, die := d, code := 9, detail := 1 }]) := by
  have none_ : s.cfgPen m = none := (cfgPen_eq s m).trans (pidPen_none m.pen no)
  have units := sameUnits_unload s d m
  have hw : s.cfgWaits m = false := cfgWaits_of_swap_none (fun g hg => by simp [none_] at hg)
  refine ⟨_, (exec_configLoad hl ho hw).trans (keyGuard_bound hk d _), ?_⟩
  rw [State.cfgCmd, cfgPen_congr units.pens, none_]
  dsimp only
  rw [answer_unordered ho _ rfl (by simp) rfl]
  exact ⟨units.pens, units.cores, by rw [unload_dones]; rfl⟩

variable {h : Nat} (hp : OwnPen s m.pen m.ctx (m.a.toNat % 65536) h)
include hp

/-- It acts on the pen of its own pen's context with its number. -/
theorem exec_configLoad_own (ho : m.o.ord = .none) (hk : s.keyBound m.ctx = true) (hs : (s.pen h).swap = none) :
    exec (.configLoad d) s = .next ((s.unload d m).cfgCmd d m) ∧ (s.unload d m).cfgPen m = some h := by
  have named : s.cfgPen m = some h := (cfgPen_eq s m).trans hp.pidPen
  have hw : s.cfgWaits m = false := cfgWaits_of_swap_none (fun g hg => by
    rw [named] at hg
    cases hg
    exact hs)
  exact ⟨(exec_configLoad hl ho hw).trans (keyGuard_bound hk d _), (cfgPen_congr (sameUnits_unload s d m).pens m).trans named⟩

variable {f : Hdr} {o : F6} (hm : m.word = .swap f o) (ho : m.o.ord = .none) (hk : s.keyBound m.ctx = true) (hs : (s.pen h).swap = none)
include hm ho hk hs

/-- `swap` puts its token into its pen, whose shadow plane is valid. -/
theorem configLoad_swap (hv : (s.pen h).shStat.toNat / 2 ^ 56 = 0) :
    After (exec (.configLoad d) s) (fun t => (t.die d).loader = [] ∧
      t.pens = s.pens.set h { s.pen h with swap := some m, swapNew := (s.pen h).frozen = .cast } ∧
      t.cores = s.cores ∧ t.mem = s.mem ∧ t.dones = s.dones) := by
  obtain ⟨run, named⟩ := exec_configLoad_own hl hp ho hk hs
  have units := sameUnits_unload s d m
  refine ⟨_, run, ?_⟩
  have valid : bitsOf ((s.unload d m).pen h).shStat 63 56 = 0 := by
    rw [units.pen, bitsOf, natBits, hv, Nat.zero_mod]
  rw [State.cfgCmd, named]
  simp only [hm, valid, bne_self_eq_false, Bool.false_eq_true, if_false]
  refine ⟨unload_loader hl, ?_, units.cores, unload_mem s d m, unload_dones s d m⟩
  simp [State.modPen, State.setPen, units.pens, units.pen]

/-- `swap` of a shadow plane that is not valid is ABORTED with its status. -/
theorem configLoad_swap_invalid (hv : (s.pen h).shStat.toNat / 2 ^ 56 ≠ 0) :
    After (exec (.configLoad d) s) (fun t => (t.die d).loader = [] ∧ t.pens = s.pens ∧ t.cores = s.cores ∧
      t.dones = s.dones ++ [{ cmd := m, eng := 5, die := d, code := 9, detail := 5, value := (s.pen h).shStat }]) := by
  obtain ⟨run, named⟩ := exec_configLoad_own hl hp ho hk hs
  have units := sameUnits_unload s d m
  refine ⟨_, run, ?_⟩
  have bad : bitsOf ((s.unload d m).pen h).shStat 63 56 ≠ 0 := by
    rw [units.pen, bitsOf, natBits]
    have := (s.pen h).shStat.isLt
    omega
  rw [State.cfgCmd, named]
  simp only [hm, bne_iff_ne, ne_eq, bad, not_false_eq_true, if_true]
  rw [answer_unordered ho _ rfl (by simp) rfl]
  exact ⟨unload_loader hl, units.pens, units.cores, by rw [unload_dones, units.pen]; rfl⟩

end

end Sys2Proof.Machine
end

section
/-! PROOFS. A pen's planes change places (R333), its recorded `fin` is reported, and it ends (R102, R372). -/

namespace Sys2Proof.Machine

open Sys2Proof

/-! ### One change for each of several cores -/

/-- Changes of cores that a list names each once: a core it does not name stays, one that it names gets its own change. -/
theorem core_foldl_modCore {α : Type} (key : α → Nat) (f : α → Core → Core) (xs : List α) (once : (xs.map key).Nodup) (s : State) :
    (∀ c ∉ xs.map key, (xs.foldl (fun s x => s.modCore (key x) (f x)) s).core c = s.core c) ∧
    (∀ x ∈ xs, (xs.foldl (fun s x => s.modCore (key x) (f x)) s).core (key x) = f x (s.core (key x))) := by
  induction xs generalizing s with
  | nil => exact ⟨fun _ _ => rfl, by simp⟩
  | cons x xs ih =>
    rw [List.map_cons, List.nodup_cons] at once
    obtain ⟨other, named⟩ := ih once.2 (s.modCore (key x) (f x))
    refine ⟨fun c hc => ?_, fun y hy => ?_⟩
    · rw [List.map_cons, List.mem_cons, not_or] at hc
      exact (other c hc.2).trans (core_modCore_of_ne s _ hc.1)
    · rcases List.mem_cons.1 hy with rfl | hy
      · exact (other _ once.1).trans (core_modCore_self s _ _)
      · have ne : key y ≠ key x := fun e => once.1 (e ▸ List.mem_map_of_mem hy)
        exact (named y hy).trans (by rw [core_modCore_of_ne s _ ne])

theorem foldl_modCore_rest {α : Type} (key : α → Nat) (f : α → Core → Core) (xs : List α) (s : State) :
    { xs.foldl (fun s x => s.modCore (key x) (f x)) s with cores := s.cores } = s := by
  induction xs generalizing s with
  | nil => rfl
  | cons x xs ih => exact (congrArg (fun t : State => { t with cores := s.cores }) (ih (s.modCore (key x) (f x))) :)

/-! ### The flip at a drain point -/

theorem drained_iff (s : State) (h : Nat) : s.drained h = true ↔ Drained s h := by
  simp [State.drained, Drained, and_assoc]

theorem planeFlip_waits {s : State} {h : Nat} (hn : s.drained h = false) : exec (.planeFlip h) s = .next s := by
  show execPlaneFlip h s = _
  simp [execPlaneFlip, hn]

theorem planeFlip_inTick {s : State} {h : Nat} (hi : (s.pen h).inTick = true) : After (exec (.planeFlip h) s) (fun t => t = s) :=
  ⟨s, planeFlip_waits (by simp [State.drained, hi]), rfl⟩

/-- A pen's record after its planes have changed places. -/
def Pen.flipped (p : Pen) : Pen :=
  { p with swap := none, n := p.shN, lens := p.shLens, liveStat := p.shStat, shN := p.n, shLens := p.lens, shStat := p.liveStat }

/-- A core after its planes have changed places. -/
def Core.flipped (k : Core) : Core := { k with live := k.shadow, shadow := k.live }

theorem flipPlanes_eq {s : State} {h : Nat} {m : Cmd} (hs : (s.pen h).swap = some m) :
    s.flipPlanes h = (((s.swapErrors (s.pen h).cores).modCores (s.pen h).cores Core.flipped).modPen h Pen.flipped).answer
      { cmd := m, eng := 5, die := (s.pen h).die } := by
  have same : ((s.swapErrors (s.pen h).cores).modCores (s.pen h).cores Core.flipped).pen h = s.pen h :=
    (congrArg (fun t : State => t.pen h) (modCores_rest (s.pen h).cores Core.flipped (s.swapErrors (s.pen h).cores)) :)
  unfold State.flipPlanes
  simp only [hs]
  unfold State.modPen
  simp only [show (fun k : Core => { k with live := k.shadow, shadow := k.live }) = Core.flipped from rfl, same]
  rfl

theorem planeFlip_drained {s : State} {h : Nat} {m : Cmd} (hs : (s.pen h).swap = some m) (ho : m.o.ord = .none)
    (hr : (s.pen h).frozen = .running) (hd : Drained s h) (once : (s.pen h).cores.Nodup) :
    After (exec (.planeFlip h) s) (fun t => t.mem = s.mem ∧ t.dones = s.dones ++ [{ cmd := m, eng := 5, die := (s.pen h).die }] ∧
      (∀ c ∈ (s.pen h).cores, t.core c = (s.core c).flipped) ∧ (∀ c, c ∉ (s.pen h).cores → t.core c = s.core c) ∧
      t.pens = s.pens.set h (s.pen h).flipped) := by
  refine ⟨s.flipPlanes h, ?_, ?_⟩
  · show execPlaneFlip h s = _
    simp [execPlaneFlip, hr, (drained_iff s h).2 hd]
  · have rest := modCores_rest (s.pen h).cores Core.flipped (s.swapErrors (s.pen h).cores)
    obtain ⟨other, named⟩ := core_foldl_modCore id (fun _ => Core.flipped) (s.pen h).cores (by simpa using once)
      (s.swapErrors (s.pen h).cores)
    rw [flipPlanes_eq hs, answer_unordered ho _ rfl (by simp) rfl]
    exact ⟨(congrArg State.mem rest :), (congrArg (fun t : State => t.dones ++ _) rest :), named,
      fun c hc => other c (by simpa using hc), (congrArg (fun t : State => t.pens.set h (t.pen h).flipped) rest :)⟩

/-! ### The recorded `fin` -/

theorem pens_length_modPen (s : State) (h : Nat) (f : Pen → Pen) : (s.modPen h f).pens.length = s.pens.length :=
  pens_length_setPen s h _

/-- A pen that is not there has recorded no `fin`. -/
theorem lt_length_of_finRec {s : State} {h : Nat} (hr : (s.pen h).finRec ≠ none) : h < s.pens.length := by
  by_contra hh
  exact hr (by rw [State.pen, List.getD_eq_default _ _ (Nat.le_of_not_lt hh)])

/-- A pen's record once its `fin` has been reported. -/
def Pen.reported (p : Pen) : Pen := { p with finReported := true }

/-- The reports of the pens of a list. -/
def State.reportAll (s : State) (gs : List Nat) : State := gs.foldl (fun s g => s.modPen g Pen.reported) s

theorem reportAll_cons (s : State) (g : Nat) (gs : List Nat) : s.reportAll (g :: gs) = (s.modPen g Pen.reported).reportAll gs := rfl

theorem reportAll_rest (gs : List Nat) (s : State) : { s.reportAll gs with pens := s.pens } = s := by
  induction gs generalizing s with
  | nil => rfl
  | cons g gs ih => exact (congrArg (fun t : State => { t with pens := s.pens }) (ih (s.modPen g Pen.reported)) :)

theorem reportAll_pen_of_not_mem {gs : List Nat} {x : Nat} (hx : x ∉ gs) (s : State) : (s.reportAll gs).pen x = s.pen x := by
  induction gs generalizing s with
  | nil => rfl
  | cons g gs ih =>
    rw [List.mem_cons, not_or] at hx
    rw [reportAll_cons, ih hx.2, pen_modPen_of_ne s _ hx.1]

theorem reportAll_pen_of_mem {gs : List Nat} {s : State} {x : Nat} (hx : x < s.pens.length) (hg : x ∈ gs ∨ (s.pen x).finReported = true) :
    ((s.reportAll gs).pen x).finReported = true := by
  induction gs generalizing s with
  | nil => exact hg.resolve_left List.not_mem_nil
  | cons g gs ih =>
    refine ih (s := s.modPen g Pen.reported) (by rwa [pens_length_modPen]) ?_
    by_cases e : x = g
    · subst e
      exact .inr (by rw [pen_modPen_self s _ hx]; rfl)
    · rw [pen_modPen_of_ne s _ e]
      exact hg.imp_left (fun hm => (List.mem_cons.1 hm).resolve_left e)

/-- Further reports of a pen that has reported change nothing. -/
theorem reportAll_own {gs : List Nat} {s : State} {h : Nat} (hh : h < s.pens.length) (own : ∀ g ∈ gs, g = h) :
    s.reportAll (h :: gs) = s.modPen h Pen.reported := by
  rw [reportAll_cons]
  induction gs with
  | nil => rfl
  | cons g gs ih =>
    obtain rfl : g = h := own g List.mem_cons_self
    have twice : (s.modPen g Pen.reported).modPen g Pen.reported = s.modPen g Pen.reported := by
      unfold State.modPen
      rw [pen_setPen_self s _ hh]
      simp [State.setPen, Pen.reported]
    rw [reportAll_cons, twice]
    exact ih (fun x hx => own x (List.mem_cons_of_mem g hx))

/-- The pens of a launch whose records of earlier beats wait for the shepherd. -/
def State.finPens (s : State) (h : Nat) : List Nat :=
  (s.instPens (s.pen h).qid (s.pen h).seq).filter (fun g => (s.pen g).finWaits && decide ((s.pen g).finTime < s.time))

theorem mem_finPens {s : State} {h g : Nat} :
    g ∈ s.finPens h ↔ g ∈ s.instPens (s.pen h).qid (s.pen h).seq ∧ (s.pen g).finWaits = true ∧ (s.pen g).finTime < s.time := by
  simp [State.finPens]

/-- Of a first pen and others, the one with the lowest number. -/
theorem foldl_lowest (f : Nat → Nat) {g : Nat} (gs : List Nat) {h : Nat} (hg : g = h ∨ g ∈ gs)
    (low : ∀ x, x ≠ g → x = h ∨ x ∈ gs → f g < f x) : gs.foldl (fun a x => if f x < f a then x else a) h = g := by
  induction gs generalizing h with
  | nil => exact (hg.resolve_right List.not_mem_nil).symm
  | cons x gs ih =>
    rw [List.foldl_cons]
    have hx : x ≠ g → f g < f x := fun ne => low x ne (.inr List.mem_cons_self)
    have hh : h ≠ g → f g < f h := fun ne => low h ne (.inl rfl)
    refine ih ?_ (fun y ne hy => low y ne ?_)
    · rcases hg with rfl | hg
      · left
        split
        · by_contra ne
          have := hx (Ne.symm ne)
          omega
        · rfl
      · rcases List.mem_cons.1 hg with rfl | hg
        · left
          split
          · rfl
          · by_contra ne
            have := hh (Ne.symm ne)
            omega
        · exact .inr hg
    · rcases hy with rfl | hy
      · split
        · exact .inr List.mem_cons_self
        · exact .inl rfl
      · exact .inr (List.mem_cons_of_mem x hy)

/-- The entry of a launch with an exit code, the first it was given. -/
def State.withExit (s : State) (q n : Nat) (c : BitVec 32) : State :=
  s.modEntry q n (fun e => { e with exit := some (e.exit.getD c) })

theorem withExit_entries (s : State) (q n : Nat) (c : BitVec 32) : (s.withExit q n c).entries =
    s.entries.map (fun e => if e.qid = q ∧ e.seq = n then { e with exit := some (e.exit.getD c) } else e) := by
  simp [State.withExit, State.modEntry]

section
variable {s : State} {h : Nat}

theorem mem_instPens {q n g : Nat} : g ∈ s.instPens q n ↔ g < s.pens.length ∧ (s.pen g).qid = q ∧ (s.pen g).seq = n ∧
    ((s.pen g).live = true ∨ (s.pen g).ended = true ∨ (s.pen g).frozen = .cast) := by
  simp [State.instPens, and_assoc, or_assoc]

theorem finWaits_iff {p : Pen} : p.finWaits = true ↔ p.finRec ≠ none ∧ p.finReported = false := by
  simp [Pen.finWaits, Option.isSome_iff_ne_none]

/-- Nothing is reported where no record waits, or between drove cycles. -/
theorem finRecord_nothing (hn : (s.pen h).finRec = none ∨ (s.pen h).finReported = true ∨ s.time % 2 = 1) :
    After (exec (.finRecord h) s) (fun t => t = s) := by
  refine ⟨s, ?_, rfl⟩
  show execFinRecord h s = _
  unfold execFinRecord
  rcases hn with hn | hn | hn <;> simp [Pen.finWaits, hn]

/-- Records reported together give the exit code of the pen with the lowest number. -/
theorem finRecord_lowest {g : Nat} {c : BitVec 32} (hw : (s.pen h).finWaits = true) (ht : s.time % 2 = 0) (hc : (s.pen g).finRec = some c)
    (hg : g = h ∨ g ∈ s.finPens h) (low : ∀ x, x ≠ g → x = h ∨ x ∈ s.finPens h → (s.pen g).pid.toNat < (s.pen x).pid.toNat) :
    exec (.finRecord h) s = .next ((s.reportAll (h :: s.finPens h)).withExit (s.pen h).qid (s.pen h).seq c) := by
  have first : (s.finPens h).foldl (fun a x => if (s.pen x).pid.toNat < (s.pen a).pid.toNat then x else a) h = g :=
    foldl_lowest (fun x => (s.pen x).pid.toNat) (s.finPens h) hg low
  have code : ∀ e : Entry, e.exit.or (some c) = some (e.exit.getD c) := fun e => by cases e.exit <;> rfl
  show execFinRecord h s = _
  unfold execFinRecord
  dsimp only
  rw [if_neg (by simp [ht, hw])]
  unfold State.finPens at first
  rw [first, hc]
  simp only [code]
  rfl

/-- A record that is the only one of its launch that waits. -/
theorem finRecord_only {c : BitVec 32} (hc : (s.pen h).finRec = some c) (hr : (s.pen h).finReported = false) (ht : s.time % 2 = 0)
    (only : ∀ g ∈ s.instPens (s.pen h).qid (s.pen h).seq, (s.pen g).finWaits = true → g = h) :
    After (exec (.finRecord h) s) (fun t => t = { s with
      pens := s.pens.set h (s.pen h).reported
      entries := s.entries.map (fun e => if e.qid = (s.pen h).qid ∧ e.seq = (s.pen h).seq then
        { e with exit := some (e.exit.getD c) } else e) }) := by
  have some_ : (s.pen h).finRec ≠ none := by simp [hc]
  have own : ∀ g ∈ s.finPens h, g = h := fun g hg => only g (mem_finPens.1 hg).1 (mem_finPens.1 hg).2.1
  refine ⟨_, finRecord_lowest (finWaits_iff.2 ⟨some_, hr⟩) ht hc (.inl rfl) (fun x ne hx => absurd (hx.elim id (own x)) ne), ?_⟩
  rw [reportAll_own (lt_length_of_finRec some_) own]
  have entries := withExit_entries (s.modPen h Pen.reported) (s.pen h).qid (s.pen h).seq c
  exact (congrArg (fun es => { s with pens := s.pens.set h (s.pen h).reported, entries := es }) entries :)

/-- Of several records that wait, the code of the lowest number counts, and none of them waits any longer. -/
theorem finRecord_several {g : Nat} {c : BitVec 32} (hw : (s.pen h).finWaits = true) (ht : s.time % 2 = 0)
    (hi : g ∈ s.instPens (s.pen h).qid (s.pen h).seq) (hc : (s.pen g).finRec = some c) (hr : (s.pen g).finReported = false)
    (hg : g = h ∨ (s.pen g).finTime < s.time)
    (low : ∀ x, x ≠ g → x = h ∨ (x ∈ s.instPens (s.pen h).qid (s.pen h).seq ∧ (s.pen x).finWaits = true ∧ (s.pen x).finTime < s.time) →
      (s.pen g).pid.toNat < (s.pen x).pid.toNat) :
    After (exec (.finRecord h) s) (fun t => (t.pen h).finReported = true ∧ (t.pen g).finReported = true ∧
      (∀ x, x ≠ h → s.time ≤ (s.pen x).finTime → t.pen x = s.pen x) ∧
      t.entries = s.entries.map (fun e => if e.qid = (s.pen h).qid ∧ e.seq = (s.pen h).seq then
        { e with exit := some (e.exit.getD c) } else e)) := by
  have some_ : (s.pen g).finRec ≠ none := by simp [hc]
  have waits : g = h ∨ g ∈ s.finPens h := hg.imp_right (fun early => mem_finPens.2 ⟨hi, finWaits_iff.2 ⟨some_, hr⟩, early⟩)
  have rest := reportAll_rest (h :: s.finPens h) s
  refine ⟨_, finRecord_lowest hw ht hc waits (fun x ne hx => low x ne (hx.imp_right mem_finPens.1)),
    reportAll_pen_of_mem (lt_length_of_finRec (finWaits_iff.1 hw).1) (.inl List.mem_cons_self),
    reportAll_pen_of_mem (lt_length_of_finRec some_) (.inl (List.mem_cons.2 waits)), fun x ne late => ?_, ?_⟩
  · refine reportAll_pen_of_not_mem (fun hx => ?_) s
    have early := (mem_finPens.1 ((List.mem_cons.1 hx).resolve_left ne)).2.2
    omega
  · rw [withExit_entries]
    exact (congrArg (fun t : State => t.entries.map _) rest :)

/-! ### The end of a pen -/

theorem setPen_pen (s : State) (h : Nat) : s.setPen h (s.pen h) = s := by
  by_cases hh : h < s.pens.length
  · simp [State.setPen, pen_of_lt s hh]
  · simp [State.setPen, List.set_eq_of_length_le (Nat.le_of_not_lt hh)]

/-- A pen that has ended. -/
def State.endPen (s : State) (h : Nat) : State := s.modPen h (fun p => { p with live := false, ended := true })

theorem endPen_pen_of_ne {g : Nat} (hg : g ≠ h) : (s.endPen h).pen g = s.pen g := pen_modPen_of_ne s _ hg

theorem endPen_pen_self (hh : h < s.pens.length) : (s.endPen h).pen h = { s.pen h with live := false, ended := true } :=
  pen_modPen_self s _ hh

theorem endPen_length : (s.endPen h).pens.length = s.pens.length := pens_length_modPen s h _

theorem abortPosted_nothing (hp : (s.pen h).du.posted = []) (hi : (s.pen h).du.inbox = []) (hb : (s.pen h).du.atBoundary = []) (detail : Nat) :
    s.abortPosted h detail = s := by
  have same : { s.pen h with du := { (s.pen h).du with posted := [], inbox := [], atBoundary := [] } } = s.pen h := by
    conv_rhs => rw [show s.pen h = { s.pen h with du := { (s.pen h).du with
      posted := (s.pen h).du.posted, inbox := (s.pen h).du.inbox, atBoundary := (s.pen h).du.atBoundary } } from rfl, hp, hi, hb]
  have kept : s.modDu h (fun d => { d with posted := [], inbox := [], atBoundary := [] }) = s :=
    (congrArg (s.setPen h) same).trans (setPen_pen s h)
  simp [State.abortPosted, hp, hi, hb, kept]

theorem penEnd_inTick (ht : (s.pen h).inTick = true) : After (exec (.penEnd h) s) (fun t => t = s) := by
  refine ⟨s, ?_, rfl⟩
  show execPenEnd h s = _
  simp [execPenEnd, ht]

/-- The end of a pen that may end: its launch completes where no other pen of it goes on. -/
theorem exec_penEnd (hm : MayEnd s h) : exec (.penEnd h) s =
    if ((s.endPen h).instPens (s.pen h).qid (s.pen h).seq).any (fun g => !((s.endPen h).pen g).ended) then .next (s.endPen h)
    else
      let t := (s.endPen h).unbind (s.pen h).qid (s.pen h).seq
      let t := if t.launching (s.pen h).ctx (s.pen h).qid (s.pen h).seq then t else t.stallEnd (s.pen h).ctx
      match t.entry? (s.pen h).qid (s.pen h).seq with
      | none => .next t
      | some e => .next (t.complete e 0 0 0 (((e.exit.getD 0).zeroExtend 64))) := by
  obtain ⟨hh, live, ended, rec_, reported, tick, cmds, syncs, running, posted, inbox, boundary, cores⟩ := hm
  have idle : (s.pen h).cores.any (fun c => (s.core c).out != [] || (s.core c).cq != []) = false := by
    simpa using cores
  show execPenEnd h s = _
  unfold execPenEnd
  dsimp only
  rw [if_neg (by simp [live, ended, rec_, reported, tick, cmds, syncs, running, idle]), abortPosted_nothing posted inbox boundary]
  rfl

/-- Where another pen of its launch goes on, nothing completes. -/
theorem penEnd_notLast {g : Nat} (hm : MayEnd s h) (hg : g ≠ h) (hl : g < s.pens.length) (hq : (s.pen g).qid = (s.pen h).qid)
    (hs : (s.pen g).seq = (s.pen h).seq) (hc : (s.pen g).live = true ∨ (s.pen g).frozen = .cast) (he : (s.pen g).ended = false) :
    After (exec (.penEnd h) s) (fun t => t = { s with pens := s.pens.set h { s.pen h with live := false, ended := true } }) := by
  refine ⟨s.endPen h, ?_, rfl⟩
  rw [exec_penEnd hm, if_pos]
  have goes : g ∈ (s.endPen h).instPens (s.pen h).qid (s.pen h).seq := by
    rw [mem_instPens, endPen_length, endPen_pen_of_ne hg]
    exact ⟨hl, hq, hs, hc.imp_right .inr⟩
  exact List.any_eq_true.2 ⟨g, goes, by simp [endPen_pen_of_ne hg, he]⟩

/-- With its last pen a launch completes with its exit code. -/
theorem penEnd_last {e : Entry} {x : BitVec 32} (hm : MayEnd s h)
    (last : ∀ g, g ≠ h → g < s.pens.length → (s.pen g).qid = (s.pen h).qid → (s.pen g).seq = (s.pen h).seq →
      (s.pen g).ended = true ∨ (s.pen g).live = false ∧ (s.pen g).frozen ≠ .cast)
    (hgr : s.graphs = [])
    (other : ∃ g, g ≠ h ∧ g < s.pens.length ∧ (s.pen g).live = true ∧ (s.pen g).ended = false ∧ (s.pen g).ctx = (s.pen h).ctx)
    (he : s.entry? (s.pen h).qid (s.pen h).seq = some e) (hx : e.exit = some x) :
    exec (.penEnd h) s = .next ((s.endPen h).complete e 0 0 0 (x.zeroExtend 64)) := by
  have all : ∀ g ∈ (s.endPen h).instPens (s.pen h).qid (s.pen h).seq, ((s.endPen h).pen g).ended = true := by
    intro g hg
    by_cases e : g = h
    · subst e
      rw [endPen_pen_self hm.1]
    · rw [mem_instPens, endPen_length, endPen_pen_of_ne e] at hg
      obtain ⟨hl, hq, hs, lives⟩ := hg
      rw [endPen_pen_of_ne e]
      rcases last g e hl hq hs with h1 | ⟨h1, h2⟩
      · exact h1
      · simpa [h1, h2] using lives
  have unbound : (s.endPen h).unbind (s.pen h).qid (s.pen h).seq = s.endPen h := by
    have none_ : (s.endPen h).graphs = [] := hgr
    unfold State.unbind
    rw [none_, List.map_nil, ← none_]
  have launching : (s.endPen h).launching (s.pen h).ctx (s.pen h).qid (s.pen h).seq = true := by
    obtain ⟨g, ne, hl, live, ended, ctx⟩ := other
    have hl' : g < (s.endPen h).pens.length := by rwa [endPen_length]
    have found : (s.endPen h).pens[g] = s.pen g := by rw [← pen_of_lt _ hl', endPen_pen_of_ne ne]
    unfold State.launching
    rw [Bool.or_eq_true, List.any_eq_true]
    exact .inl ⟨s.pen g, found ▸ List.getElem_mem hl', by simp [ctx, ended, live]⟩
  have entry : (s.endPen h).entry? (s.pen h).qid (s.pen h).seq = some e := he
  rw [exec_penEnd hm, if_neg (by simpa using all)]
  simp only [unbound, launching, if_true, entry, hx, Option.getD_some]

end

end Sys2Proof.Machine
end

section
/-! PROOFS. `cfgld`: an image is read and put into the shadow plane of a pen (R83, R189, R332). -/

namespace Sys2Proof.Machine

open Sys2Proof

/-! ### What reading an image counts -/

/-- At most the counters of the dies, the translations they hold, and the flits that have left differ. -/
def NotedOnly (s t : State) : Prop := t = { s with dies := t.dies, tlb := t.tlb, svc := t.svc }

theorem NotedOnly.refl (s : State) : NotedOnly s s := rfl

theorem NotedOnly.trans {s t u : State} (a : NotedOnly s t) (b : NotedOnly t u) : NotedOnly s u :=
  Eq.trans (b : u = _) (congrArg (fun x : State => { x with dies := u.dies, tlb := u.tlb, svc := u.svc }) (a : t = _) :)

theorem NotedOnly.foldl {α : Type} {f : State → α → State} (hf : ∀ s x, NotedOnly s (f s x)) (xs : List α) (s : State) :
    NotedOnly s (xs.foldl f s) := by
  induction xs generalizing s with
  | nil => exact .refl s
  | cons x xs ih => exact (hf s x).trans (ih (f s x))

section
variable {s t : State} (h : NotedOnly s t)
include h

theorem NotedOnly.units : SameUnits s t := ⟨(congrArg State.cores h :), (congrArg State.pens h :)⟩

theorem NotedOnly.mem : t.mem = s.mem := (congrArg State.mem h :)

theorem NotedOnly.poison : t.poison = s.poison := (congrArg State.poison h :)

theorem NotedOnly.dones : t.dones = s.dones := (congrArg State.dones h :)

end

theorem notedOnly_modDie (s : State) (d : Nat) (f : Die → Die) : NotedOnly s (s.modDie d f) := by
  unfold State.modDie
  split <;> rfl

theorem notedOnly_countDie (s : State) (d src n : Nat) : NotedOnly s (s.countDie d src n) := notedOnly_modDie s d _

theorem notedOnly_dieFlits (s : State) (a b : Nat) (back : Bool) : NotedOnly s (s.dieFlits a b back) := by
  unfold State.dieFlits
  dsimp only
  split
  · exact .refl s
  · split
    · exact (notedOnly_countDie s a 8 1).trans (notedOnly_countDie _ b 8 1)
    · exact notedOnly_countDie s a 8 1

theorem notedOnly_peerFlit (s : State) (kind ctx pa : Nat) (rest : List Nat) : NotedOnly s (s.peerFlit kind ctx pa rest) := by
  unfold State.peerFlit
  split <;> rfl

theorem notedOnly_readNote (s : State) (die ctx pa : Nat) : NotedOnly s (s.readNote die ctx pa) := by
  unfold State.readNote
  split
  · exact .refl s
  · split
    · exact .foldl (fun s l => notedOnly_peerFlit s _ _ _ _) _ s
    · exact (notedOnly_countDie s _ 9 1).trans (notedOnly_dieFlits _ _ _ _)

theorem notedOnly_tlbNote (s : State) (ctx va : Nat) : NotedOnly s (s.tlbNote ctx va) := by
  unfold State.tlbNote
  split
  · split <;> rfl
  · rfl

theorem notedOnly_tlbUse (s : State) (die ctx va : Nat) : NotedOnly s (s.tlbUse die ctx va) := by
  unfold State.tlbUse
  split
  · exact .refl s
  · exact ((notedOnly_countDie s die 11 1).trans (notedOnly_countDie _ die 12 1)).trans (notedOnly_tlbNote _ ctx va)

theorem notedOnly_imageNote (s : State) (w : Who) (va len : Nat) : NotedOnly s (s.imageNote w va len) := by
  refine .foldl (fun s i => ?_) _ s
  dsimp only
  split
  · exact (notedOnly_tlbUse s _ _ _).trans (notedOnly_readNote _ _ _ _)
  · exact .refl s

/-! ### The records of an image -/

/-- The record of an image for a core, a column and a slot below `n`. -/
def recordAt (n q j k : Nat) : Nat := q * (4 * n) + j * n + k

section
variable {n q j k : Nat} (hj : j < 4) (hk : k < n)
include hk

theorem recordAt_slot : recordAt n q j k % n = k := by
  have split_ : recordAt n q j k = k + (4 * q + j) * n := by unfold recordAt; ring
  rw [split_, Nat.add_mul_mod_self_right, Nat.mod_eq_of_lt hk]

theorem recordAt_place : recordAt n q j k / n = 4 * q + j := by
  have split_ : recordAt n q j k = k + (4 * q + j) * n := by unfold recordAt; ring
  rw [split_, Nat.add_mul_div_right _ _ (by omega), Nat.div_eq_of_lt hk, Nat.zero_add]

include hj

theorem recordAt_col : recordAt n q j k / n % 4 = j := by
  rw [recordAt_place hk]
  omega

theorem recordAt_core : recordAt n q j k / (4 * n) = q := by
  rw [Nat.mul_comm 4 n, ← Nat.div_div_eq_div_mul, recordAt_place hk]
  omega

theorem recordAt_lt {cores : Nat} (hq : q < cores) : recordAt n q j k < cores * 4 * n := by
  have place : 4 * q + j + 1 ≤ cores * 4 := by omega
  have split_ : recordAt n q j k = k + (4 * q + j) * n := by unfold recordAt; ring
  calc recordAt n q j k < (4 * q + j + 1) * n := by rw [split_, Nat.add_mul _ 1 n]; omega
    _ ≤ cores * 4 * n := Nat.mul_le_mul_right n place

end

/-- A record's own core, column and slot. -/
theorem recordAt_self (n i : Nat) : recordAt n (i / (4 * n)) (i / n % 4) (i % n) = i := by
  have place : 4 * (i / n / 4) + i / n % 4 = i / n := Nat.div_add_mod _ 4
  calc recordAt n (i / (4 * n)) (i / n % 4) (i % n) = (4 * (i / n / 4) + i / n % 4) * n + i % n := by
        rw [recordAt, Nat.mul_comm 4 n, ← Nat.div_div_eq_div_mul]
        ring
    _ = i := by rw [place, Nat.mul_comm, Nat.div_add_mod]

theorem colCode_colOf {j : Nat} (hj : j < 4) : colCode (colOf j) = j := by
  interval_cases j <;> rfl

/-- The word of a record of an image. -/
def State.imageWord (s : State) (ctx va i : Nat) : SlotWord :=
  match s.vread ctx (va + 64 + 16 * i) 16 with
  | .ok bs => BitVec.ofNat 80 (leNat (bs.take 10))
  | .error _ => 0

theorem imageWord_of_read {s : State} {ctx va i : Nat} {bs : List Byte} (hr : s.vread ctx (va + 64 + 16 * i) 16 = .ok bs) :
    s.imageWord ctx va i = BitVec.ofNat 80 (leNat (bs.take 10)) := by
  simp [State.imageWord, hr]

theorem word_nil (c : Col) (slot : Nat) : Plane.word [] c slot = 0 := rfl

theorem word_put (p : Plane) {j k col slot : Nat} (w : SlotWord) (hj : j < 4) (hk : k < 32) (hs : slot < 32) :
    Plane.word (Tab.put p (32 * col + slot) w) (colOf j) k = if j = col ∧ k = slot then w else p.word (colOf j) k := by
  have same : 32 * j + k = 32 * col + slot ↔ j = col ∧ k = slot := by omega
  rw [Plane.word, Plane.word, colCode_colOf hj, tab_find_put]
  simp only [same]
  split <;> rfl

/-- The planes of an image once the records before the `i`-th are read: those words stand at their places, and no other does. -/
def Filled (word : Nat → SlotWord) (cores n i : Nat) (ps : List Plane) : Prop :=
  ps.length = cores ∧ ∀ q j k, q < cores → j < 4 → k < n →
    Plane.word (ps.getD q []) (colOf j) k = if recordAt n q j k < i then word (recordAt n q j k) else 0

theorem filled_none (word : Nat → SlotWord) (cores n : Nat) : Filled word cores n 0 (List.replicate cores []) := by
  refine ⟨List.length_replicate, fun q j k hq _ _ => ?_⟩
  simp [List.getD_eq_getElem?_getD, hq, word_nil]

/-- The planes with one more word; a word of zeros is not written out (R84). -/
def withRecord (ps : List Plane) (n i : Nat) (w : SlotWord) : List Plane :=
  if w = 0 then ps else ps.set (i / (4 * n)) (Tab.put (ps.getD (i / (4 * n)) []) (32 * (i / n % 4) + i % n) w)

theorem Filled.next {word : Nat → SlotWord} {cores n i : Nat} {ps : List Plane} (hf : Filled word cores n i ps) (hn : n ≤ 32) :
    Filled word cores n (i + 1) (withRecord ps n i (word i)) := by
  obtain ⟨len, at_⟩ := hf
  unfold withRecord
  split
  · next zero =>
    refine ⟨len, fun q j k hq hj hk => (at_ q j k hq hj hk).trans ?_⟩
    by_cases e : recordAt n q j k = i
    · simp [e, zero]
    · have : recordAt n q j k < i + 1 ↔ recordAt n q j k < i := by omega
      simp only [this]
  · refine ⟨by simpa using len, fun q j k hq hj hk => ?_⟩
    have hq' : q < ps.length := len ▸ hq
    have slot : i % n < 32 := (Nat.mod_lt i (by omega)).trans_le hn
    by_cases e : recordAt n q j k = i
    · subst e
      rw [recordAt_core hj hk, recordAt_col hj hk, recordAt_slot hk]
      rw [if_pos (Nat.lt_succ_self _), List.getD_eq_getElem?_getD, List.getElem?_set_self hq', Option.getD_some,
        word_put _ _ hj (by omega) (by omega), if_pos ⟨rfl, rfl⟩]
    · have before : recordAt n q j k < i + 1 ↔ recordAt n q j k < i := by omega
      simp only [before]
      refine Eq.trans ?_ (at_ q j k hq hj hk)
      by_cases c : i / (4 * n) = q
      · subst c
        rw [List.getD_eq_getElem?_getD, List.getElem?_set_self hq', Option.getD_some, word_put _ _ hj (by omega) slot, if_neg]
        rintro ⟨rfl, rfl⟩
        exact e (recordAt_self n i)
      · rw [List.getD_eq_getElem?_getD, List.getElem?_set_ne c, ← List.getD_eq_getElem?_getD]

/-- Records that can all be read fill the planes. -/
theorem readWords_filled {s : State} {ctx va cores n : Nat} (hn : n ≤ 32) (k : Nat) {i : Nat} {ps : List Plane}
    (hr : ∀ x < i + k, ∃ bs, s.vread ctx (va + 64 + 16 * x) 16 = .ok bs) (hf : Filled (s.imageWord ctx va) cores n i ps) :
    ∃ qs, s.readWords ctx va cores n k i ps = .ok qs ∧ Filled (s.imageWord ctx va) cores n (i + k) qs := by
  induction k generalizing i ps with
  | zero => exact ⟨ps, rfl, hf⟩
  | succ k ih =>
    obtain ⟨bs, hb⟩ := hr i (by omega)
    have next_ := hf.next hn
    rw [imageWord_of_read hb] at next_
    obtain ⟨qs, run, done_⟩ := ih (fun x hx => hr x (by omega)) next_
    refine ⟨qs, ?_, by rwa [Nat.add_right_comm] at done_⟩
    rw [State.readWords, hb]
    exact run

/-- An image whose header and records can be read. -/
theorem fetchPlane_ok {s : State} {w : Who} {va cores n : Nat} {hd : List Byte} (hv : s.vread w.ctx va 64 = .ok hd)
    (hh : ImageHeader hd cores n) (hr : ∀ i < cores * 4 * n, ∃ bs, s.vread w.ctx (va + 64 + 16 * i) 16 = .ok bs) :
    ∃ ps, Filled (s.imageWord w.ctx va) cores n (cores * 4 * n) ps ∧ s.fetchPlane w va cores =
      (s.imageNote w va (64 + 64 * cores * n), some { planes := ps, n := n, lens := planeLens ps n, stat := validate ps n }) := by
  obtain ⟨count, slots, most, zeros⟩ := hh
  obtain ⟨ps, run, filled⟩ := readWords_filled (s := s) (ctx := w.ctx) (va := va) most (cores * 4 * n) (by simpa using hr)
    (filled_none (s.imageWord w.ctx va) cores n)
  rw [Nat.zero_add] at filled
  refine ⟨ps, filled, ?_⟩
  have number : leAt hd 2 1 + 1 = n := slots
  have same : leAt hd 0 2 = cores := count
  unfold State.fetchPlane
  simp only [hv, number, same, run]
  rw [if_neg]
  simpa [most] using zeros

/-! ### The status of a plane -/

theorem wordRgn_none {w : SlotWord} {i : Instr} (hi : decode .s w = .ok i) (pushes : ∀ x y, i ≠ .rgnin x y) (pops : ∀ x, i ≠ .rgnout x) :
    wordRgn w = none := by
  unfold wordRgn
  rw [hi]
  split
  · next x y e => exact absurd (Option.some.inj e) (pushes x y)
  · next x e => exact absurd (Option.some.inj e) (pops x)
  · rfl

/-- A plane is accepted whose words all decode and act on no region. -/
theorem validate_accepts {ps : List Plane} {n : Nat}
    (good : ∀ c < ps.length, ∀ j < 4, ∀ k < n, ∃ i, decode (colOf j) (Plane.word (ps.getD c []) (colOf j) k) = .ok i ∧
      (∀ x y, i ≠ .rgnin x y) ∧ ∀ x, i ≠ .rgnout x) : validate ps n = 0 := by
  have none_ : ∀ c < ps.length, ∀ j < 4, ∀ k < n, wordReject ps c (colOf j) k = none := by
    intro c hc j hj k hk
    obtain ⟨i, hi, pushes, pops⟩ := good c hc j hj k hk
    unfold wordReject
    simp only [hi]
    split
    · next isS isRgn =>
      rw [isS] at hi
      rw [wordRgn_none hi pushes pops] at isRgn
      cases isRgn
    · rfl
  unfold validate
  dsimp only
  rw [Option.getD_eq_iff]
  right
  simp only [List.findSome?_eq_none_iff, List.mem_range, Option.map_eq_none_iff, and_true]
  exact fun c hc k hk j hj => none_ c hc j hj k hk

/-! ### The shadow plane of a pen -/

/-- A pen's shadow plane holds what the loader read: in its cores, or in its record where a casting has freed them. -/
structure ShadowSet (s : State) (h : Nat) (l : Loaded) (t : State) : Prop where
  mem : t.mem = s.mem
  shN : (t.pen h).shN = l.n
  shStat : (t.pen h).shStat = l.stat
  n : (t.pen h).n = (s.pen h).n
  rest : ∀ c, { t.core c with shadow := (s.core c).shadow } = s.core c
  away : (s.pen h).castAway = true → t.cores = s.cores ∧ (t.pen h).shNew = true ∧
    ∀ q y, (t.pen h).held[q]? = some y → y.shadow = l.planes.getD q []
  home : (s.pen h).castAway = false → ∀ q < (s.pen h).h * (s.pen h).w, (t.core ((s.pen h).coreAt q)).shadow = l.planes.getD q []

theorem castAway_iff (p : Pen) : p.castAway = true ↔ p.frozen = .cast ∧ p.withPad = true := by simp [Pen.castAway]

/-- A core with the shadow plane of its place in a pen. -/
def Loaded.intoCore (l : Loaded) (q : Nat) (k : Core) : Core := { k with shadow := l.planes.getD q [] }

/-- A pen's record with what it says of its shadow plane. -/
def Loaded.intoPen (l : Loaded) (away : Bool) (p : Pen) : Pen :=
  { p with shN := l.n, shLens := l.lens, shStat := l.stat, shNew := away }

/-- The cores of a list with the shadow planes of their places in it. -/
def State.fillCores (s : State) (cs : List Nat) (l : Loaded) : State := cs.zipIdx.foldl (fun s x => s.modCore x.1 (l.intoCore x.2)) s

theorem fillCores_rest (s : State) (cs : List Nat) (l : Loaded) : { s.fillCores cs l with cores := s.cores } = s :=
  foldl_modCore_rest Prod.fst (fun x => l.intoCore x.2) cs.zipIdx s

theorem fillCores_core {cs : List Nat} (once : cs.Nodup) (s : State) (l : Loaded) :
    (∀ c ∉ cs, (s.fillCores cs l).core c = s.core c) ∧ ∀ q c, cs[q]? = some c → (s.fillCores cs l).core c = l.intoCore q (s.core c) := by
  have names : cs.zipIdx.map Prod.fst = cs := List.zipIdx_map_fst 0 cs
  obtain ⟨other, named⟩ := core_foldl_modCore Prod.fst (fun x => l.intoCore x.2) cs.zipIdx (by rwa [names]) s
  rw [names] at other
  exact ⟨other, fun q c hq => named (c, q) (List.mk_mem_zipIdx_iff_getElem?.2 hq)⟩

theorem setShadow_eq_away {s : State} {h : Nat} (ha : (s.pen h).castAway = true) (l : Loaded) : s.setShadow h l =
    (s.modPen h (fun p => { p with held := p.held.zipIdx.map (fun x => l.intoCore x.2 x.1) })).modPen h
      (fun p => l.intoPen (p.frozen = .cast) p) := by
  unfold State.setShadow
  dsimp only
  rw [if_pos ha]
  rfl

theorem setShadow_eq_home {s : State} {h : Nat} (ha : (s.pen h).castAway = false) (l : Loaded) : s.setShadow h l =
    ((s.cleanPlane (2 ^ 57) (s.pen h).cores).fillCores (s.pen h).cores l).modPen h (fun p => l.intoPen (p.frozen = .cast) p) := by
  unfold State.setShadow
  dsimp only
  rw [if_neg (by simp [ha])]
  rfl

theorem setShadow_dones (s : State) (h : Nat) (l : Loaded) : (s.setShadow h l).dones = s.dones := by
  cases ha : (s.pen h).castAway with
  | true => rw [setShadow_eq_away ha]; rfl
  | false =>
    rw [setShadow_eq_home ha]
    exact (congrArg State.dones (fillCores_rest (s.cleanPlane (2 ^ 57) (s.pen h).cores) (s.pen h).cores l) :)

theorem setShadow_away {s : State} {h : Nat} (hh : h < s.pens.length) (ha : (s.pen h).castAway = true) (l : Loaded) :
    ShadowSet s h l (s.setShadow h l) := by
  have cast : decide ((s.pen h).frozen = .cast) = true := decide_eq_true ((castAway_iff _).1 ha).1
  have pen : (s.setShadow h l).pen h =
      l.intoPen (decide ((s.pen h).frozen = .cast)) { s.pen h with held := (s.pen h).held.zipIdx.map (fun x => l.intoCore x.2 x.1) } := by
    rw [setShadow_eq_away ha, pen_modPen_self _ _ (by rwa [pens_length_modPen]), pen_modPen_self s _ hh]
  have units : (s.setShadow h l).cores = s.cores := by rw [setShadow_eq_away ha]; rfl
  refine ⟨by rw [setShadow_eq_away ha]; rfl, by rw [pen]; rfl, by rw [pen]; rfl, by rw [pen]; rfl, fun c => by unfold State.core; rw [units],
    fun _ => ⟨units, by rw [pen]; exact cast, fun q y hy => ?_⟩, fun no => absurd ha (by simp [no])⟩
  rw [pen] at hy
  have held : (s.pen h).held.zipIdx[q]?.map (fun x => l.intoCore x.2 x.1) = some y := (List.getElem?_map ..).symm.trans hy
  rw [List.getElem?_zipIdx, Option.map_map, Option.map_eq_some_iff] at held
  obtain ⟨k, -, rfl⟩ := held
  simp [Loaded.intoCore]

theorem setShadow_home {s : State} {h : Nat} (hh : h < s.pens.length) (ha : (s.pen h).castAway = false) (once : (s.pen h).cores.Nodup)
    (l : Loaded) : ShadowSet s h l (s.setShadow h l) := by
  have rest := fillCores_rest (s.cleanPlane (2 ^ 57) (s.pen h).cores) (s.pen h).cores l
  obtain ⟨other, named⟩ := fillCores_core once (s.cleanPlane (2 ^ 57) (s.pen h).cores) l
  rw [setShadow_eq_home ha]
  generalize (s.cleanPlane (2 ^ 57) (s.pen h).cores).fillCores (s.pen h).cores l = filled at rest other named
  have pens : filled.pens = s.pens := (congrArg State.pens rest :)
  have same : filled.pen h = s.pen h := (congrArg (fun t : State => t.pen h) rest :)
  have pen : (filled.modPen h (fun p => l.intoPen (p.frozen = .cast) p)).pen h = l.intoPen (decide ((s.pen h).frozen = .cast)) (s.pen h) := by
    rw [pen_modPen_self _ _ (by rwa [pens]), same]
  refine ⟨(congrArg State.mem rest :), by rw [pen]; rfl, by rw [pen]; rfl, by rw [pen]; rfl, fun c => ?_,
    fun yes => absurd yes (by simp [ha]), fun _ q hq => ?_⟩
  · rw [core_modPen]
    by_cases hc : c ∈ (s.pen h).cores
    · obtain ⟨q, hq⟩ := List.mem_iff_getElem?.1 hc
      rw [named q c hq]
      rfl
    · rw [other c hc]
      rfl
  · have place : (s.pen h).cores[q]? = some ((s.pen h).coreAt q) := by simp [Pen.cores, hq]
    exact congrArg Core.shadow (named q _ place)

theorem setShadow_set {s : State} {h : Nat} (hh : h < s.pens.length) (once : (s.pen h).cores.Nodup) (l : Loaded) :
    ShadowSet s h l (s.setShadow h l) := by
  cases ha : (s.pen h).castAway with
  | true => exact setShadow_away hh ha l
  | false => exact setShadow_home hh ha once l

theorem ShadowSet.of_same {s u v t : State} {h : Nat} {l : Loaded} (hv : ShadowSet u h l v) (before : SameUnits s u) (mem : u.mem = s.mem)
    (after : SameUnits v t) (mem' : t.mem = v.mem) : ShadowSet s h l t := by
  obtain ⟨m, shN, shStat, n, rest, away, home⟩ := hv
  constructor <;> simp only [before.core, before.pen, before.cores, mem, ← after.core, ← after.pen, ← after.cores, ← mem'] at * <;> assumption

/-! ### Reads do not depend on the dies -/

section
variable (s : State) (ds : Vector Die 4)

theorem placesAux_withDies (ctx : Nat) (acc : Acc) (n va : Nat) (cur : Option (Nat × Nat)) :
    ({ s with dies := ds } : State).placesAux ctx acc n va cur = s.placesAux ctx acc n va cur := by
  induction n generalizing va cur with
  | zero => rfl
  | succ n ih =>
    have xlate : ({ s with dies := ds } : State).xlate ctx va acc = s.xlate ctx va acc := rfl
    simp only [State.placesAux, ih, xlate]

theorem readPlaces_withDies (r : Reader) (pl : List (Nat × Nat)) (last : Option (Nat × List Byte)) :
    ({ s with dies := ds } : State).readPlaces r pl last = s.readPlaces r pl last := by
  induction pl generalizing last with
  | nil => rfl
  | cons x pl ih =>
    have chunk : ∀ pn, ({ s with dies := ds } : State).chunkRead r pn = s.chunkRead r pn := fun _ => rfl
    have byte : ∀ pa, ({ s with dies := ds } : State).physByte r pa = s.physByte r pa := fun _ => rfl
    simp only [State.readPlaces, ih, chunk, byte]

theorem vread_withDies (ctx va n : Nat) : ({ s with dies := ds } : State).vread ctx va n = s.vread ctx va n := by
  have home : ({ s with dies := ds } : State).home ctx = s.home ctx := rfl
  simp only [State.vread, State.places, placesAux_withDies, readPlaces_withDies, home]

end

theorem vread_unload (s : State) (d : Nat) (m : Cmd) (ctx va n : Nat) : (s.unload d m).vread ctx va n = s.vread ctx va n := by
  unfold State.unload State.modDie
  split
  · exact vread_withDies s _ ctx va n
  · rfl

theorem imageWord_unload (s : State) (d : Nat) (m : Cmd) : (s.unload d m).imageWord = s.imageWord := by
  unfold State.imageWord
  simp only [vread_unload]

/-! ### `cfgld` -/

theorem who_ctx (s : State) (m : Cmd) (acc agent die inst : Nat) : (s.who m acc agent die inst).ctx = m.ctx := by
  unfold State.who
  split <;> rfl

/-- No error stands in the words of a shadow plane where none is recorded for one. -/
theorem shadowBad_none {s : State} (hp : ∀ k ∈ s.poison, k < 2 ^ 57) (h n : Nat) : s.shadowBad h n = none := by
  unfold State.shadowBad
  rw [if_pos (by simpa using .inl hp)]

/-- The image a state's memory holds at an address, for a number of cores and of slots. -/
structure ImageAt (s : State) (ctx va cores n : Nat) (hd : List Byte) : Prop where
  read : s.vread ctx va 64 = .ok hd
  header : ImageHeader hd cores n
  records : ∀ i < cores * 4 * n, ∃ bs, s.vread ctx (va + 64 + 16 * i) 16 = .ok bs

theorem cfgCmd_cfgld {s u : State} {d h : Nat} {m : Cmd} {f : Hdr} {o : F6} {l : Loaded} (named : s.cfgPen m = some h)
    (hm : m.word = .cfgld f o)
    (fetched : s.fetchPlane (s.who m 3 agLoader d 0) m.cmd.toNat ((s.pen h).h * (s.pen h).w) = (u, some l)) (sound : u.shadowBad h l.n = none) :
    s.cfgCmd d m = (u.setShadow h l).answer { cmd := m, eng := agLoader, die := d, value := l.stat } := by
  rw [State.cfgCmd, named]
  simp only [hm, fetched, sound]

/-- `cfgld` of a whole image puts its planes into the pen's shadow, and answers with the status it gives them. -/
theorem configLoad_cfgld {s : State} {d h : Nat} {m : Cmd} {f : Hdr} {o : F6} {hd : List Byte} {n : Nat} (hl : (s.die d).loader = [m])
    (hm : m.word = .cfgld f o) (hp : OwnPen s m.pen m.ctx (m.a.toNat % 65536) h) (hs : (s.pen h).swap = none) (ho : m.o.ord = .none)
    (hk : s.keyBound m.ctx = true) (hc : ∀ k ∈ s.poison, k < 2 ^ 57) (once : (s.pen h).cores.Nodup)
    (im : ImageAt s m.ctx m.cmd.toNat ((s.pen h).h * (s.pen h).w) n hd) :
    After (exec (.configLoad d) s) (fun t => ∃ ps, ShadowSet s h { planes := ps, n := n, lens := planeLens ps n, stat := validate ps n } t ∧
      t.dones = s.dones ++ [{ cmd := m, eng := 5, die := d, value := validate ps n }] ∧
      Filled (s.imageWord m.ctx m.cmd.toNat) ((s.pen h).h * (s.pen h).w) n ((s.pen h).h * (s.pen h).w * 4 * n) ps) := by
  obtain ⟨run, named⟩ := exec_configLoad_own hl hp ho hk hs
  have units := sameUnits_unload s d m
  have ctx : ((s.unload d m).who m 3 agLoader d 0).ctx = m.ctx := who_ctx _ m 3 agLoader d 0
  obtain ⟨ps, filled, fetched⟩ := fetchPlane_ok (s := s.unload d m) (w := (s.unload d m).who m 3 agLoader d 0) (va := m.cmd.toNat)
    (by rw [ctx, vread_unload]; exact im.read) im.header (fun i hi => by rw [ctx, vread_unload]; exact im.records i hi)
  rw [ctx, imageWord_unload] at filled
  have noted := notedOnly_imageNote (s.unload d m) ((s.unload d m).who m 3 agLoader d 0) m.cmd.toNat (64 + 64 * ((s.pen h).h * (s.pen h).w) * n)
  generalize (s.unload d m).imageNote _ _ _ = u at fetched noted
  have same : SameUnits s u := units.trans noted.units
  have sound : u.shadowBad h n = none := by
    refine shadowBad_none ?_ h n
    rw [noted.poison, State.unload, modDie_poison]
    exact hc
  have shadow := setShadow_set (l := { planes := ps, n := n, lens := planeLens ps n, stat := validate ps n })
    (by rw [same.pens]; exact hp.1) (by rw [same.pen]; exact once)
  refine ⟨_, run, ps, ?_⟩
  rw [cfgCmd_cfgld named hm (by rw [units.pen]; exact fetched) sound, answer_unordered ho _ rfl (by simp) rfl]
  refine ⟨shadow.of_same same (noted.mem.trans (unload_mem s d m)) ⟨rfl, rfl⟩ rfl, ?_, filled⟩
  rw [setShadow_dones, noted.dones, unload_dones]
  rfl

end Sys2Proof.Machine
end

section
/-! PROOFS. The configuration planes and the end of a pen, settled (R83, R102, R189, R332 to R334, R372). -/

namespace Sys2Proof.Machine

open Sys2Proof

/-- Where its planes end up, a word of an image stands in the plane of its core, at its column and slot. -/
theorem Filled.word {s : State} {ctx va cores n q j k : Nat} {ps : List Plane} {bs : List Byte}
    (hf : Filled (s.imageWord ctx va) cores n (cores * 4 * n) ps) (hq : q < cores) (hj : j < 4) (hk : k < n)
    (hr : s.vread ctx (va + 64 + 16 * recordAt n q j k) 16 = .ok bs) :
    Plane.word (ps.getD q []) (colOf j) k = BitVec.ofNat 80 (leNat (bs.take 10)) := by
  rw [hf.2 q j k hq hj hk, if_pos (recordAt_lt hj hk hq), imageWord_of_read hr]

/-- Planes in the shadow of a pen's cores whose words all decode, without one for the region stack, are accepted. -/
theorem ShadowSet.accepted {s t : State} {h n : Nat} {ps : List Plane} {l : Loaded} (hs : ShadowSet s h l t) (hl : l.planes = ps)
    (len : ps.length = (s.pen h).h * (s.pen h).w) (ha : (s.pen h).castAway = false)
    (good : ∀ c ∈ (s.pen h).cores, ∀ j < 4, ∀ k < n, ∃ i, decode (colOf j) (Plane.word (t.core c).shadow (colOf j) k) = .ok i ∧
      (∀ x y, i ≠ .rgnin x y) ∧ ∀ x, i ≠ .rgnout x) : validate ps n = 0 := by
  refine validate_accepts (fun q hq j hj k hk => ?_)
  have hq' : q < (s.pen h).h * (s.pen h).w := len ▸ hq
  have member : (s.pen h).coreAt q ∈ (s.pen h).cores := List.mem_map.2 ⟨q, List.mem_range.2 hq', rfl⟩
  have here := good _ member j hj k hk
  rwa [hs.home ha q hq', hl] at here

/-- Settles O53: the loader's steps from the command it performs, `cfgld` from the records of an image filling the planes one by one, the flip
from one change of each core of a list, the exit code from the lowest number of the records reported together, and a pen's end from whether
another pen of its launch goes on. -/
theorem planeSteps : Obligations.PlaneSteps := by
  intro s
  refine ⟨fun d h m f o hl hm hp hs ho hk => ⟨configLoad_swap hl hp hm ho hk hs, configLoad_swap_invalid hl hp hm ho hk hs⟩,
    fun d m hl no ho hk => configLoad_noPen hl ho hk no, ?_,
    fun d m hl ho hk hs => configLoad_unbound hl ho hk hs, fun h => planeFlip_inTick,
    fun h m _ hs ho hr hd once => planeFlip_drained hs ho hr hd once, fun h c hc hr ht only => finRecord_only hc hr ht only,
    fun h g c hw ht hi hc hr hg low => finRecord_several hw ht hi hc hr hg low, fun h => finRecord_nothing, fun h => penEnd_inTick,
    fun h g hm hg hl hq hs hc he => penEnd_notLast hm hg hl hq hs hc he,
    fun h e x hm last hgr other he hx => ⟨_, penEnd_last hm last hgr other he hx, rfl⟩⟩
  intro d h m f o hd n hl hm hp hs ho hk hc once hv hh hr
  obtain ⟨t, run, ps, set_, dones, filled⟩ := configLoad_cfgld hl hm hp hs ho hk hc once ⟨hv, hh, hr⟩
  refine ⟨t, run, set_.shN, set_.mem, set_.n, by rw [dones, set_.shStat], set_.rest, ⟨fun away => ?_, fun q j k bs hq hj hk' hb => ?_⟩,
    fun home good => ?_⟩
  · obtain ⟨cores, new, -⟩ := set_.away ((castAway_iff _).2 away)
    exact ⟨cores, new⟩
  · have word := filled.word hq hj hk' hb
    refine ⟨fun home => ?_, fun y away hy => ?_⟩
    · rwa [set_.home (Bool.eq_false_iff.2 (fun yes => home ((castAway_iff _).1 yes))) q hq]
    · obtain ⟨-, -, held⟩ := set_.away ((castAway_iff _).2 away)
      rwa [held q y hy]
  · have ha : (s.pen h).castAway = false := Bool.eq_false_iff.2 (fun yes => home ((castAway_iff _).1 yes))
    rw [set_.shStat]
    exact set_.accepted rfl filled.1 ha good

end Sys2Proof.Machine
end

section
/-! PROOFS. The S words that write one scalar register: arithmetic, logic, shifts, choices and constants (R86, R87, R90 to R92). -/

namespace Sys2Proof.Machine

open Sys2Proof

/-! ### A word with one result, by its value -/

/-- An S word that writes a register is known by the value and the flags it writes. -/
theorem scalarWord_of_sRes {i : Instr} {s : State} {h : Hdr} {lat : Nat} {d : Fin 32} {r w : W64 × Flags}
    (he : exec i s = s.sRes h lat d r.1 r.2) (hr : r = w) : ScalarWord i s h lat [.s d w.1] w.2 :=
  scalarWord_of_result (hr ▸ he)

/-- One that raises no flags, by its value. -/
theorem scalarWord_of_value {i : Instr} {s : State} {h : Hdr} {lat : Nat} {d : Fin 32} {v w : W64}
    (he : exec i s = s.sRes h lat d v 0) (hv : v = w) : ScalarWord i s h lat [.s d w] 0 :=
  scalarWord_of_result (hv ▸ he)

/-! ### Sums and products (R86, R87) -/

theorem fix64_eq (sat : Bool) (x : Int) : fix64 sat x = fixSpec sat x := by simp [fix64, fixSpec]

theorem shiftLeft_eq_ofNat (b : W64) (n : Nat) : b <<< n = BitVec.ofNat 64 (b.toNat * 2 ^ n) := by
  rw [← BitVec.toNat_inj, BitVec.toNat_shiftLeft, Nat.shiftLeft_eq, BitVec.toNat_ofNat]

theorem ushiftRight_eq_ofNat (b : W64) (n : Nat) : b >>> n = BitVec.ofNat 64 (b.toNat / 2 ^ n) := by
  rw [← BitVec.toNat_inj, BitVec.toNat_ushiftRight, Nat.shiftRight_eq_div_pow, BitVec.toNat_ofNat,
    Nat.mod_eq_of_lt ((Nat.div_le_self _ _).trans_lt b.isLt)]

theorem add_shiftLeft_eq (a b : W64) (n : Nat) : a + b <<< n = BitVec.ofNat 64 (a.toNat + b.toNat * 2 ^ n) := by
  rw [BitVec.ofNat_add, ← shiftLeft_eq_ofNat, BitVec.ofNat_toNat, BitVec.setWidth_eq]

/-- An immediate enters as the number it stands for (R76). -/
theorem add_signExtend_eq {w : Nat} (a : W64) (imm : BitVec w) :
    a + imm.signExtend 64 = BitVec.ofInt 64 (a.toInt + imm.toInt) := by
  rw [BitVec.ofInt_add, BitVec.ofInt_toInt]
  rfl

theorem mul_signExtend_eq {w : Nat} (a : W64) (imm : BitVec w) :
    a * imm.signExtend 64 = BitVec.ofInt 64 (a.toInt * imm.toInt) := by
  rw [BitVec.ofInt_mul, BitVec.ofInt_toInt]
  rfl

theorem scalarWord_arith {i : Instr} {s : State} {h : Hdr} {lat : Nat} {d : Fin 32} {r : W64 × Flags}
    (hi : arithSpec s.curCore i = some (h, lat, d, r)) : ScalarWord i s h lat [.s d r.1] r.2 := by
  unfold arithSpec at hi
  split at hi <;> cases hi
  case h_1 | h_2 | h_3 | h_4 => exact scalarWord_of_sRes rfl (fix64_eq _ _)
  case h_5 | h_6 => exact scalarWord_of_result rfl
  case h_7 => exact scalarWord_of_value rfl (add_shiftLeft_eq ..)
  case h_8 => exact scalarWord_of_value rfl (add_signExtend_eq ..)
  case h_9 => exact scalarWord_of_value rfl (mul_signExtend_eq ..)

/-! ### Quotients and remainders (R87) -/

theorem sdiv64_eq (a b : W64) : sdiv64 a b = if b.toInt = 0 then (0, Flags.dz)
    else if a.toInt = -2 ^ 63 ∧ b.toInt = -1 then (BitVec.ofInt 64 (-2 ^ 63), Flags.of)
    else (BitVec.ofInt 64 (a.toInt.tdiv b.toInt), 0) := by
  have hb : b.toInt = 0 ↔ b = 0 := BitVec.toInt_inj (y := 0)
  have ha : a.toInt = -2 ^ 63 → a = BitVec.ofInt 64 (-2 ^ 63) := fun h => h ▸ BitVec.ofInt_toInt.symm
  simp only [sdiv64, hb, Bool.and_eq_true, decide_eq_true_eq]
  split
  · rfl
  · split
    case isTrue h => rw [← ha h.1]
    case isFalse => rfl

theorem srem64_eq (a b : W64) : srem64 a b = if b.toInt = 0 then (0, Flags.dz)
    else (BitVec.ofInt 64 (a.toInt - a.toInt.tdiv b.toInt * b.toInt), 0) := by
  have hb : b.toInt = 0 ↔ b = 0 := BitVec.toInt_inj (y := 0)
  simp only [srem64, hb, Int.tmod_def, Int.mul_comm]

/-- An unsigned result that is 0 with DZ for a zero divisor. -/
theorem unless_zero_eq (y v : W64) : ((if y = 0 then 0 else v, Flags.when (y = 0) Flags.dz) : W64 × Flags) =
    if y.toNat = 0 then (0, Flags.dz) else (v, 0) := by
  have hy : y.toNat = 0 ↔ y = 0 := BitVec.toNat_inj (y := 0)
  simp only [hy, Flags.when, decide_eq_true_eq]
  split <;> rfl

theorem scalarWord_div {i : Instr} {s : State} {h : Hdr} {d : Fin 32} {r : W64 × Flags}
    (hi : divSpec s.curCore i = some (h, d, r)) : ScalarWord i s h 18 [.s d r.1] r.2 := by
  unfold divSpec at hi
  split at hi <;> cases hi
  case h_1 => exact scalarWord_of_sRes rfl (sdiv64_eq ..)
  case h_2 => exact scalarWord_of_sRes rfl (srem64_eq ..)
  case h_3 => exact scalarWord_of_sRes (r := (_, _)) rfl (unless_zero_eq ..)
  case h_4 =>
    rw [← Nat.mod_eq_sub_div_mul]
    exact scalarWord_of_sRes (r := (_, _)) rfl (unless_zero_eq ..)

/-- Settles O12: each value is the exact result that the spec names, and each word ends in one result. -/
theorem scalarArithmetic : Obligations.ScalarArithmetic :=
  fun _ _ => ⟨fun _ _ _ _ => scalarWord_arith, fun _ _ _ => scalarWord_div⟩

/-! ### Logic and shifts (R86, R91) -/

theorem sshiftRight_eq_ofInt (a : W64) (n : Nat) : a.sshiftRight n = BitVec.ofInt 64 (a.toInt / 2 ^ n) := by
  rw [BitVec.sshiftRight, Int.shiftRight_eq_div_pow]
  rfl

/-- The two parts of a rotation share no bit. -/
theorem rotateLeft_eq_ofNat (a : W64) {n : Nat} (hn : n < 64) :
    a.rotateLeft n = BitVec.ofNat 64 (a.toNat * 2 ^ n + a.toNat / 2 ^ (64 - n)) := by
  have apart : a <<< n &&& a >>> (64 - n) = 0#64 := by
    ext i hi
    have high : ¬ i < n → a.getLsbD (64 - n + i) = false := fun h => BitVec.getLsbD_of_ge _ _ (by omega)
    simp only [BitVec.getElem_and, BitVec.getElem_shiftLeft, BitVec.getElem_ushiftRight]
    by_cases h : i < n <;> simp [h, high]
  rw [BitVec.rotateLeft_eq_rotateLeftAux_of_lt hn, BitVec.rotateLeftAux, BitVec.ofNat_add, ← shiftLeft_eq_ofNat, ← ushiftRight_eq_ofNat,
    BitVec.add_eq_or_of_and_eq_zero _ _ apart]

theorem scalarWord_logic {i : Instr} {s : State} {h : Hdr} {d : Fin 32} {v : W64} (hi : logicSpec s.curCore i = some (h, d, v)) :
    ScalarWord i s h 1 [.s d v] 0 := by
  unfold logicSpec at hi
  split at hi <;> cases hi
  case h_1 | h_2 | h_3 | h_4 | h_5 | h_6 | h_7 => exact scalarWord_of_result rfl
  case h_8 | h_12 => exact scalarWord_of_value rfl (shiftLeft_eq_ofNat ..)
  case h_9 | h_13 => exact scalarWord_of_value rfl (ushiftRight_eq_ofNat ..)
  case h_10 | h_14 => exact scalarWord_of_value rfl (sshiftRight_eq_ofInt ..)
  case h_11 => exact scalarWord_of_value rfl (rotateLeft_eq_ofNat _ (Nat.mod_lt _ (by decide)))

/-- Settles O13: each value is the bit operation, or the shift on the number. -/
theorem scalarLogic : Obligations.ScalarLogic := fun _ _ _ _ _ => scalarWord_logic

/-! ### Choices, extensions and constants (R86, R90 to R92) -/

theorem ite_slt_eq {α : Type} (x y : W64) (u v : α) : (if y.slt x then u else v) = if x.toInt ≤ y.toInt then v else u := by
  simp only [BitVec.slt_iff_toInt_lt, ← not_le, ite_not]

theorem ite_lt_eq {α : Type} (x y : W64) (u v : α) : (if y < x then u else v) = if x.toNat ≤ y.toNat then v else u := by
  simp only [BitVec.lt_def, ← not_le, ite_not]

/-- Of two equal words the greater is either. -/
theorem ite_lt_eq_ite_le {α : Type} [LinearOrder α] {f : W64 → α} (hf : Function.Injective f) (x y : W64) :
    (if f x < f y then y else x) = if f x ≤ f y then y else x := by
  rcases lt_trichotomy (f x) (f y) with h | h | h
  · rw [if_pos h, if_pos h.le]
  · rw [hf h, ite_self, ite_self]
  · rw [if_neg h.not_gt, if_neg h.not_ge]

theorem max_slt_eq (x y : W64) : (if x.slt y then y else x) = if x.toInt ≤ y.toInt then y else x := by
  simp only [BitVec.slt_iff_toInt_lt]
  exact ite_lt_eq_ite_le (fun _ _ => BitVec.toInt_inj.1) x y

theorem max_lt_eq (x y : W64) : (if x < y then y else x) = if x.toNat ≤ y.toNat then y else x := by
  simp only [BitVec.lt_def]
  exact ite_lt_eq_ite_le (fun _ _ => BitVec.toNat_inj.1) x y

theorem toInt_signExtend_imm (imm : BitVec 32) : (imm.signExtend 64).toInt = imm.toInt := BitVec.toInt_signExtend_of_le (by decide)

/-- A number read as two's complement is the value of the word of its low bits (R17). -/
theorem signed_eq_toInt {n : Nat} (hn : 0 < n) (x : Nat) : signed n x = (BitVec.ofNat n x).toInt := by
  have hp : 2 ^ n = 2 * 2 ^ (n - 1) := by rw [← Nat.pow_succ', Nat.succ_eq_add_one, Nat.sub_add_cancel hn]
  simp only [signed, BitVec.toInt, BitVec.toNat_ofNat, hp, Nat.mul_lt_mul_left Nat.two_pos]
  split
  · rfl
  · rw [← hp]
    simp

theorem intVal_eq_sext {ty : Fmt} {x v : W64} (hv : sextSpec ty x = some v) : BitVec.ofInt 64 (ty.intVal x.toNat) = v := by
  cases ty <;> cases hv
  case int32 | int16 | int8 | int4 => exact congrArg (BitVec.ofInt 64) (signed_eq_toInt (by decide) _)
  case uint8 => exact (BitVec.ofInt_natCast ..).trans (BitVec.ofNat_toNat 64 (x.truncate 8))
  case uint4 => exact (BitVec.ofInt_natCast ..).trans (BitVec.ofNat_toNat 64 (x.truncate 4))

theorem append_truncate_eq (imm : BitVec 32) (a : W64) :
    imm ++ a.truncate 32 = BitVec.ofNat 64 (imm.toNat * 2 ^ 32 + a.toNat % 2 ^ 32) := by
  have low : a.toNat % 2 ^ 32 < 2 ^ 32 := Nat.mod_lt _ (by decide)
  have high := imm.isLt
  refine BitVec.eq_of_toNat_eq ?_
  rw [BitVec.toNat_append, BitVec.truncate, BitVec.toNat_setWidth, ← Nat.shiftLeft_add_eq_or_of_lt low, Nat.shiftLeft_eq,
    BitVec.toNat_ofNat, Nat.mod_eq_of_lt (b := 2 ^ 64) (by omega)]

theorem scalarWord_select {i : Instr} {s : State} {h : Hdr} {d : Fin 32} {v : W64} (hi : selectSpec s.curCore i = some (h, d, v)) :
    ScalarWord i s h 1 [.s d v] 0 := by
  unfold selectSpec at hi
  split at hi
  case h_8 =>
    obtain ⟨w, hw, he⟩ := Option.map_eq_some_iff.1 hi
    cases he
    exact scalarWord_of_value rfl (intVal_eq_sext hw)
  all_goals cases hi
  case h_1 => exact scalarWord_of_value rfl (ite_slt_eq ..)
  case h_2 => exact scalarWord_of_value rfl (max_slt_eq ..)
  case h_3 => exact scalarWord_of_value rfl (ite_lt_eq ..)
  case h_4 => exact scalarWord_of_value rfl (max_lt_eq ..)
  case h_5 => exact scalarWord_of_value rfl ((ite_slt_eq ..).trans (by rw [toInt_signExtend_imm]; rfl))
  case h_6 => exact scalarWord_of_value rfl ((max_slt_eq ..).trans (by rw [toInt_signExtend_imm]; rfl))
  case h_7 | h_9 | h_11 => exact scalarWord_of_result rfl
  case h_10 => exact scalarWord_of_value rfl (append_truncate_eq ..)

/-- Settles O14: the order of two words is that of the numbers, and the low bits of a word are those of its format. -/
theorem scalarSelect : Obligations.ScalarSelect := fun _ _ _ _ _ => scalarWord_select

end Sys2Proof.Machine
end

section
/-! PROOFS. The S words whose results are known bit by bit: comparisons, predicate words, counts of bits, fields and words of registers
(R86, R88, R89, R93, R96). -/

namespace Sys2Proof.Machine

open Sys2Proof

/-! ### Comparisons and predicate words (R89, R93) -/

theorem predicateWord_of_qRes {i : Instr} {s : State} {h : Hdr} {d : Fin 16} {P : Nat → Prop} {v : Chunk}
    (he : exec i s = s.qRes h d v) (hv : ∀ n < 256, v.getLsbD n = true ↔ P n) : PredicateWord i s h d P :=
  ⟨v, hv, scalarWord_of_result he⟩

theorem cmp64_iff (cc : Cc) (a b : W64) : cmp64 cc a b = true ↔ ccSpec cc a b := by
  cases cc <;> simp [cmp64, ccSpec, BitVec.slt_iff_toInt_lt, BitVec.sle_iff_toInt_le, BitVec.lt_def, BitVec.le_def, BitVec.toNat_inj]

theorem fill256_getLsbD (b : Bool) {n : Nat} (hn : n < 256) : (fill256 b).getLsbD n = b := by
  cases b
  · simp [fill256]
  · rw [fill256, if_pos rfl, BitVec.getLsbD_allOnes, decide_eq_true hn]

/-- What lies under the mask is new, the rest is as it was. -/
theorem merge_getLsbD {w : Nat} (old x mask : BitVec w) {n : Nat} (hn : n < w) :
    (merge old x mask).getLsbD n = if mask.getLsbD n then x.getLsbD n else old.getLsbD n := by
  simp only [merge, BitVec.getLsbD_or, BitVec.getLsbD_and, BitVec.getLsbD_not, hn, decide_true, Bool.true_and]
  cases mask.getLsbD n <;> simp

theorem rangeMask_testBit (a b : Nat) {n : Nat} (hn : n < 256) : (rangeMask a b).testBit n = true ↔ a ≤ n ∧ n < b := by
  unfold rangeMask
  split
  case isTrue h =>
    have hm : 2 ^ min b 256 - 2 ^ min a 256 = 2 ^ min a 256 * (2 ^ (min b 256 - min a 256) - 1) := by
      rw [Nat.mul_sub, ← Nat.pow_add, Nat.mul_one, Nat.add_sub_cancel' (min_le_min_right _ h.le)]
    rw [hm, Nat.testBit_two_pow_mul, Nat.testBit_two_pow_sub_one, Bool.and_eq_true, decide_eq_true_eq, decide_eq_true_eq]
    omega
  case isFalse h =>
    simp only [Nat.zero_testBit, Bool.false_eq_true, false_iff]
    omega

/-- A word moved to word `w` of a predicate register, seen there. -/
theorem movedWord_getLsbD (x : W64) {w n : Nat} (hn : n < 256) (hw : n / 64 = w) :
    ((x.zeroExtend 256) <<< (64 * w)).getLsbD n = x.getLsbD (n % 64) := by
  subst hw
  have inside : ¬ n < 64 * (n / 64) := by omega
  have place : n - 64 * (n / 64) = n % 64 := by omega
  simp [hn, inside, place]

/-- The mask of word `w` of a predicate register (R93). -/
theorem wordMask_getLsbD (w : Nat) {n : Nat} (hn : n < 256) :
    (((BitVec.allOnes 64).zeroExtend 256) <<< (64 * w)).getLsbD n = decide (n / 64 = w) := by
  rw [BitVec.getLsbD_shiftLeft, BitVec.zeroExtend, BitVec.getLsbD_setWidth, BitVec.getLsbD_allOnes, Bool.eq_iff_iff]
  simp only [hn, decide_true, Bool.true_and, Bool.and_eq_true, Bool.not_eq_true', decide_eq_true_eq, decide_eq_false_iff_not]
  omega

/-- Word `w` of a predicate register replaced by `x`. -/
theorem mergeWord_getLsbD (old : Chunk) (x : W64) (w : Nat) {n : Nat} (hn : n < 256) :
    (merge old ((x.zeroExtend 256) <<< (64 * w)) (((BitVec.allOnes 64).zeroExtend 256) <<< (64 * w))).getLsbD n =
      if n / 64 = w then x.getLsbD (n % 64) else old.getLsbD n := by
  rw [merge_getLsbD _ _ _ hn, wordMask_getLsbD _ hn]
  by_cases hw : n / 64 = w
  · simp only [hw, decide_true, if_true, movedWord_getLsbD x hn hw]
  · simp only [hw, decide_false, Bool.false_eq_true, if_false]

theorem predicateWord_of_predSpec {i : Instr} {s : State} {h : Hdr} {d : Fin 16} {P : Nat → Prop}
    (hi : predSpec s.curCore i = some (h, d, P)) : PredicateWord i s h d P := by
  unfold predSpec at hi
  split at hi <;> cases hi
  case h_1 | h_2 => exact predicateWord_of_qRes rfl (fun n hn => by rw [fill256_getLsbD _ hn]; exact cmp64_iff ..)
  case h_3 | h_4 | h_5 => exact predicateWord_of_qRes rfl (fun n _ => by simp)
  case h_6 | h_7 => exact predicateWord_of_qRes rfl (fun n hn => by simp [hn])
  case h_8 => exact predicateWord_of_qRes rfl (fun n hn => by
    rw [BitVec.getLsbD_ofNat, decide_eq_true hn, Bool.true_and, rangeMask_testBit _ _ hn])
  case h_9 => exact predicateWord_of_qRes rfl (fun n hn => by rw [mergeWord_getLsbD _ _ _ hn]; split <;> rfl)

/-- Settles O15: each bit written is the condition, or what the word does to the bits of its place. -/
theorem scalarPredicate : Obligations.ScalarPredicate := fun _ _ _ _ _ => predicateWord_of_predSpec

/-! ### Counts of bits, and fields (R86, R88, R93, R96) -/

theorem scalarWordSuch_of_sRes {i : Instr} {s : State} {h : Hdr} {d : Fin 32} {P : W64 → Prop} {v : W64}
    (he : exec i s = s.sRes h 1 d v 0) (hv : P v) : ScalarWordSuch i s h 1 d P :=
  ⟨v, hv, scalarWord_of_result he⟩

theorem bitAt_eq_testBit (x n : Nat) : bitAt x n = x.testBit n := Nat.testBit_eq_decide_div_mod_eq.symm

/-- Where the search for the lowest set bit ends: below it every bit it looked at is 0, and it is 1 unless the search found none. -/
theorem lowBit_spec (x : Nat) : ∀ n i : Nat, i ≤ lowBit x n i ∧ lowBit x n i ≤ i + n ∧
    (∀ j, i ≤ j → j < lowBit x n i → x.testBit j = false) ∧ (lowBit x n i < i + n → x.testBit (lowBit x n i) = true)
  | 0, i => ⟨le_rfl, le_rfl, fun j hj hj' => absurd (hj.trans_lt hj') (lt_irrefl i), fun h => absurd h (lt_irrefl i)⟩
  | n + 1, i => by
    unfold lowBit
    rw [bitAt_eq_testBit]
    split
    case isTrue h => exact ⟨le_rfl, by omega, fun j hj hj' => absurd (hj.trans_lt hj') (lt_irrefl i), fun _ => h⟩
    case isFalse h =>
      obtain ⟨above, below, zeros, one⟩ := lowBit_spec x n (i + 1)
      refine ⟨by omega, by omega, fun j hj hj' => ?_, fun hl => one (by omega)⟩
      rcases hj.eq_or_lt with rfl | hj
      · exact Bool.eq_false_iff.2 h
      · exact zeros j hj hj'

/-- The lowest set bit of a register of `n` bits, `n` where none is set, as a word. -/
theorem lowBit_word {n : Nat} (x : BitVec n) (hn : n < 2 ^ 64) :
    let v : W64 := BitVec.ofNat 64 (lowBit x.toNat n 0)
    v.toNat ≤ n ∧ (∀ j < v.toNat, x.getLsbD j = false) ∧ (v.toNat < n → x.getLsbD v.toNat = true) := by
  intro v
  obtain ⟨-, below, zeros, one⟩ := lowBit_spec x.toNat n 0
  rw [Nat.zero_add] at below one
  have hv : v.toNat = lowBit x.toNat n 0 := by rw [BitVec.toNat_ofNat, Nat.mod_eq_of_lt (below.trans_lt hn)]
  rw [hv]
  exact ⟨below, fun j hj => zeros j (Nat.zero_le j) hj, one⟩

theorem popCount_eq (x : Nat) : ∀ n : Nat, popCount x n = ((List.range n).filter x.testBit).length
  | 0 => rfl
  | n + 1 => by
    rw [popCount, popCount_eq x n, bitAt_eq_testBit, List.range_succ, List.filter_append, List.length_append]
    cases h : x.testBit n <;> simp [h]

theorem popc_word (x : W64) :
    (BitVec.ofNat 64 (popCount x.toNat 64) : W64).toNat = ((List.range 64).filter (fun n => x.getLsbD n)).length := by
  have few : popCount x.toNat 64 ≤ 64 := by
    rw [popCount_eq]
    exact (List.length_filter_le ..).trans_eq List.length_range
  rw [BitVec.toNat_ofNat, Nat.mod_eq_of_lt (by omega), popCount_eq]
  rfl

/-- The leading zeros of a word lie above its highest set bit. -/
theorem clz_word (x : W64) :
    let v : W64 := BitVec.ofNat 64 (if x.toNat = 0 then 64 else 63 - Nat.log2 x.toNat)
    v.toNat ≤ 64 ∧ (∀ n, 64 - v.toNat ≤ n → x.getLsbD n = false) ∧ (v.toNat < 64 → x.getLsbD (63 - v.toNat) = true) := by
  intro v
  by_cases hx : x.toNat = 0
  · have hv : v.toNat = 64 := by simp [v, hx]
    rw [hv]
    exact ⟨le_rfl, fun n _ => by simp [BitVec.getLsbD, hx], fun h => absurd h (lt_irrefl 64)⟩
  · have hl : Nat.log2 x.toNat < 64 := (Nat.log2_lt hx).2 x.isLt
    have hv : v.toNat = 63 - Nat.log2 x.toNat := by
      rw [BitVec.toNat_ofNat, if_neg hx, Nat.mod_eq_of_lt (by omega)]
    rw [hv]
    refine ⟨by omega, fun n hn => ?_, fun _ => ?_⟩
    · exact Nat.testBit_lt_two_pow (Nat.lt_log2_self.trans_le (Nat.pow_le_pow_right Nat.two_pos (by omega)))
    · rw [show 63 - (63 - Nat.log2 x.toNat) = Nat.log2 x.toNat by omega]
      exact Nat.testBit_log2 hx

/-- A field of a word, moved to bit 0. -/
theorem field_getLsbD (x : W64) (p w : Nat) {n : Nat} (hn : n < 64) :
    (BitVec.ofNat 64 (x.toNat / 2 ^ p % 2 ^ w)).getLsbD n = (decide (n < w) && x.getLsbD (p + n)) := by
  rw [BitVec.getLsbD_ofNat, Nat.testBit_mod_two_pow, Nat.testBit_div_two_pow, decide_eq_true hn, Bool.true_and, Nat.add_comm n]
  rfl

/-- The field of width `w` at bit `p` of a word replaced by the low bits of `x`. -/
theorem mergeField_getLsbD (old x : W64) (p w : Nat) {n : Nat} (hn : n < 64) :
    (merge old (x <<< p) (BitVec.ofNat 64 ((2 ^ w - 1) * 2 ^ p))).getLsbD n =
      if p ≤ n ∧ n < p + w then x.getLsbD (n - p) else old.getLsbD n := by
  have mask : (BitVec.ofNat 64 ((2 ^ w - 1) * 2 ^ p)).getLsbD n = decide (p ≤ n ∧ n < p + w) := by
    rw [BitVec.getLsbD_ofNat, Nat.testBit_mul_two_pow, Nat.testBit_two_pow_sub_one, Bool.eq_iff_iff]
    simp only [hn, decide_true, Bool.true_and, Bool.and_eq_true, decide_eq_true_eq]
    omega
  rw [merge_getLsbD _ _ _ hn, mask]
  by_cases h : p ≤ n ∧ n < p + w
  · simp only [h, hn, h.1.not_gt, BitVec.getLsbD_shiftLeft, and_self, decide_true, decide_false, Bool.not_false, Bool.true_and, if_true]
  · simp only [h, decide_false, Bool.false_eq_true, if_false]

/-- Word `w` of a register of 256 bits. -/
theorem extractWord_getLsbD (x : Chunk) (w : Nat) {n : Nat} (hn : n < 64) :
    (x.extractLsb' (64 * w) 64).getLsbD n = x.getLsbD (64 * w + n) := by
  rw [BitVec.getLsbD_extractLsb', decide_eq_true hn, Bool.true_and]

theorem scalarWordSuch_bits {i : Instr} {s : State} {h : Hdr} {d : Fin 32} {P : W64 → Prop}
    (hi : bitSpec s.curCore i = some (h, d, P)) : ScalarWordSuch i s h 1 d P := by
  unfold bitSpec at hi
  split at hi <;> cases hi
  case h_1 => exact scalarWordSuch_of_sRes rfl (clz_word _)
  case h_2 => exact scalarWordSuch_of_sRes rfl (lowBit_word _ (by decide))
  case h_3 => exact scalarWordSuch_of_sRes rfl (popc_word _)
  case h_4 => exact scalarWordSuch_of_sRes rfl (fun n hn => field_getLsbD _ _ _ hn)
  case h_5 => exact scalarWordSuch_of_sRes rfl (fun n hn => mergeField_getLsbD _ _ _ _ hn)
  case h_6 => exact scalarWordSuch_of_sRes rfl (fun n hn => extractWord_getLsbD _ _ hn)
  case h_7 => exact scalarWordSuch_of_sRes rfl (lowBit_word _ (by decide))
  case h_8 => exact scalarWordSuch_of_sRes rfl (fun n hn => extractWord_getLsbD _ _ hn)

/-- Settles O16: counts by where the set bits lie, fields and words by where each bit comes from. -/
theorem scalarBits : Obligations.ScalarBits := fun _ _ _ _ _ => scalarWordSuch_bits

end Sys2Proof.Machine
end

section
/-! PROOFS. Addresses and records of the S column (R94 to R96). -/

namespace Sys2Proof.Machine

open Sys2Proof

theorem leaSize_eq {ty : Fmt} {n : Nat} (h : leaSize ty = some n) : ty.bits / 8 = n := by
  cases ty <;> cases h <;> rfl

theorem lea_eq (b : Chunk) (x : W64) (ofs : BitVec 24) (n : Nat) :
    b.extractLsb' 0 64 + (x + ofs.signExtend 64) * BitVec.ofNat 64 n =
      BitVec.ofInt 64 ((b.toNat % 2 ^ 64 : Nat) + (x.toInt + ofs.toInt) * n) := by
  have base : b.extractLsb' 0 64 = BitVec.ofNat 64 (b.toNat % 2 ^ 64) := by
    refine BitVec.eq_of_toNat_eq ?_
    simp
  rw [BitVec.ofInt_add, BitVec.ofInt_mul, ← add_signExtend_eq, BitVec.ofInt_natCast, BitVec.ofInt_natCast, base]

/-- A budget of 0 stands for 256 (R95). -/
def bldBudget (lb : Fin 256) : Nat := if lb.val = 0 then 256 else lb.val

theorem bldBudget_eq (lb : Fin 256) : (if lb = 0 then 256 else lb.val) = bldBudget lb := by
  simp only [bldBudget, Fin.val_eq_zero_iff]

/-- The read of an entry of the table that an active `bld` sends (R95). -/
def bldMsg (s : State) (a : Fin 32) (idx : BitVec 12) : Msg :=
  { src := s.cur.core, dst := memPort s.curPen.die, addr := s.curPen.tdt.toNat + 32 * (((s.curCore.rdS a).toNat + idx.toNat) % 4096),
    len := 32, ord := s.curCore.ord }

/-- What it puts in flight for the answer, ready after its budget. -/
def bldFlight (s : State) (d : Fin 16) (lb : Fin 256) : Flight :=
  { resultOf s (bldBudget lb) [] 0 with load := some { kind := .desc d, budget := bldBudget lb, elems := [{ i := 0 }] } }

theorem exec_bld_active {s : State} {h : Hdr} (ha : isActive s h) (d : Fin 16) (a : Fin 32) (idx : BitVec 12) (lb : Fin 256) :
    exec (.bld h d a idx lb) s = .next (({ s with mesh := s.mesh ++ [bldMsg s a idx] } : State).modCur (fun k =>
      (k.issue (bldFlight s d lb)).tickOrd)) := by
  rw [isActive_iff] at ha
  simp only [bldFlight, ← bldBudget_eq]
  exact if_pos ha

theorem bld_active {s : State} {h : Hdr} (ha : isActive s h) (d : Fin 16) (a : Fin 32) (idx : BitVec 12) (lb : Fin 256) :
    After (exec (.bld h d a idx lb) s) (fun t => OnlyCore s.cur.core { s with mesh := s.mesh ++ [bldMsg s a idx] } t ∧
      t.curCore = { s.curCore with ord := s.curCore.ord + 1, flights := s.curCore.flights ++ [bldFlight s d lb] }) :=
  ⟨_, exec_bld_active ha d a idx lb, onlyCore_modCur { s with mesh := s.mesh ++ [bldMsg s a idx] } _, curCore_modCur _ _⟩

theorem bld_inactive {s : State} {h : Hdr} (ha : ¬ isActive s h) (d : Fin 16) (a : Fin 32) (idx : BitVec 12) (lb : Fin 256) :
    After (exec (.bld h d a idx lb) s) (Passed s) := by
  rw [isActive_iff] at ha
  exact ⟨_, if_neg ha, passed_tickOrd s⟩

/-- Settles O17: `lea` by arithmetic modulo 2^64, `bset` as one result, and `bld` by its one change to the mesh and to its core. -/
theorem scalarRecords : Obligations.ScalarRecords := by
  intro s
  refine ⟨fun h ty d br x ofs n hn => ?lea, fun h d w a => scalarWord_of_result rfl, fun h d a idx lb ha => bld_inactive ha d a idx lb,
    fun h d a idx lb ha => bld_active ha d a idx lb⟩
  case lea =>
    rw [← lea_eq, ← leaSize_eq hn]
    exact scalarWord_of_result rfl

end Sys2Proof.Machine
end

section
/-! PROOFS. Why the statement about accesses between cores fails: a write that reaches a die's view (R291) need not be
released by its writer's die. -/

namespace Sys2Proof.Machine

open Sys2Proof

/-- A write by core 0 of die 0, which core 192 of die 1 has acquired, is on its way to the view of die 2, and core 192 releases at package
scope. -/
def writeUnderway : State :=
  ({ dies := (Vector.replicate 4 {}).set 2 { remote := [{ agent := { core := 0 }, olds := [(0, 7)], seen := [192] }] } } : State).releaseAt
    { id := 0, core := 192 } 4

/-- The release carries the write, so release 1 of die 1 covers it. -/
def acquiredWrite : ViewWrite :=
  { agent := { core := 0 }, seq := 1, by_ := 1, olds := [(0, 7)], rel := [(4, { core := 192 })], seen := [192] }

theorem writeUnderway_remote : (writeUnderway.die 2).remote = [acquiredWrite] := by decide +kernel

/-- A die that has one write still to apply, and no near-space write, applies it. -/
theorem exec_remoteWriteApply_one {s : State} {d : Nat} {e : ViewWrite} (hr : (s.die d).remote = [e]) (hl : s.late = []) :
    exec (.remoteWriteApply d) s = .next { s.modDie d (fun x => x.apply (fun w => w = e)) with fresh := s.fresh + 1 } := by
  show execRemoteWriteApply d s = _
  simp [execRemoteWriteApply, hr, hl, Nat.mod_one]

/-- Refutes O44, by the clause on a write that reaches a die's view: the statement lets the number of the release count on the clock of the
writer's die, but a release carries writes of other dies that its core has acquired (R290), and what covers them is a release of the
releaser's die (R291). When die 2 applies `acquiredWrite`, component 0 of its clock stays 0, where the statement has 1. -/
theorem not_loadsAnswer : ¬ Obligations.LoadsAnswer := by
  unfold Obligations.LoadsAnswer
  intro hall
  obtain ⟨-, -, -, applies, -⟩ := hall writeUnderway
  obtain ⟨t, ht, -, -, -, clock⟩ :=
    applies 2 [] acquiredWrite [] (by decide) writeUnderway_remote (by simp) (by simp) rfl (by simp) (by simp)
  rw [exec_remoteWriteApply_one writeUnderway_remote rfl, Host.Outcome.next.injEq] at ht
  have stays : (t.die 2).vc[0] = 0 := by
    rw [← ht]
    decide +kernel
  have claimed : (t.die 2).vc[0] = 1 := (clock 0).trans (by decide +kernel)
  omega

end Sys2Proof.Machine
end

section
/-! PROOFS. The statements about the V column fail: they let a V word change the counters `evc` of its core (`SameRegisters`) and no
other field of theirs, but every chunk is counted on source 3 of R316, and a core that counts it notes the beat besides (`evcT`, as in
`not_slotStart`). Each refutation runs one plain word, which the loader accepts, on a core that counts chunks. -/

namespace Sys2Proof.Machine

open Sys2Proof

/-! ### What the statements keep of the counters -/

theorem SameRegisters.evcT {k k' : Core} (h : SameRegisters k k') : k'.evcT = k.evcT := (congrArg Core.evcT h :)

/-- Where the word's place is kept, what its core keeps is kept at that place. -/
theorem core_evcT_of_curCore {s t : State} (cur : t.cur = s.cur) (h : t.curCore.evcT = s.curCore.evcT) :
    (t.core s.cur.core).evcT = (s.core s.cur.core).evcT := by
  unfold State.curCore at h
  rwa [cur] at h

theorem ChunkIssued.evcT {s t : State} {i : Instr} {c : ChunkWord} (h : ChunkIssued s i c t) :
    (t.core s.cur.core).evcT = (s.core s.cur.core).evcT :=
  core_evcT_of_curCore (congrArg State.cur h.only.rest :) h.regs.evcT

theorem GatherIssued.evcT {s t : State} {i : Instr} {g : GatherWord} (h : GatherIssued s i g t) :
    (t.core s.cur.core).evcT = (s.core s.cur.core).evcT :=
  core_evcT_of_curCore (congrArg State.cur h.only.rest :) h.regs.evcT

theorem LoadIssued.evcT {s t : State} {kind : LoadKind} {size budget lat : Nat} {pls : List (Nat × Place)}
    (h : LoadIssued s kind size budget lat pls t) : (t.core s.cur.core).evcT = (s.core s.cur.core).evcT :=
  core_evcT_of_curCore (congrArg State.cur h.rest :) h.regs.evcT

/-- A step that moves core 0's last beat of a count does not leave a state that keeps it. -/
theorem not_after_of_counted {o : Out} {P : State → Prop} {n : Nat} (keeps : ∀ t, P t → (t.core 0).evcT = n) (moved : countBeat o ≠ n) :
    ¬ After o P := by
  rintro ⟨t, rfl, hp⟩
  exact moved (keeps t hp)

/-! ### A core that counts chunks -/

/-- On beat 1 a word of the V column runs on core 0, which counts chunks of V words (source 3) and has last counted on beat 0. -/
def vectorReady : State := { time := 1, cur := { col := .v }, pens := [{ live := true }], cores := [(0, countingOn 3)] }

theorem hasTokens_of_portsOf_nil {k : Core} {srcs : List (VSrc × Fmt)} (h : portsOf srcs = []) : hasTokens k srcs := by
  simp [hasTokens, h]

/-- A word that reads no port and is counted on `vectorReady` does not issue there as the statements say. -/
theorem not_vectorWord_of_counted {i : Instr} {c : ChunkWord} (hp : portsOf c.srcs = []) (counted : countBeat (exec i vectorReady) = 1) :
    ¬ VectorWord i vectorReady c := fun hw =>
  not_after_of_counted (n := 0) (fun _ ht => ht.evcT) (by rw [counted]; decide) (hw rfl (hasTokens_of_portsOf_nil hp))

theorem not_gatherWordIssues_of_counted {i : Instr} {g : GatherWord} (hp : portsOf g.srcs = [])
    (counted : countBeat (exec i vectorReady) = 1) : ¬ GatherWordIssues i vectorReady g := fun hw =>
  not_after_of_counted (n := 0) (fun _ ht => ht.evcT) (by rw [counted]; decide) (hw rfl (hasTokens_of_portsOf_nil hp))

/-! ### The refutations -/

/-- Refutes O21: a `vadd` of v2 and v3 in FP32 moves `evcT` from 0 to 1. -/
theorem not_vectorArithmetic : ¬ Obligations.VectorArithmetic := by
  unfold Obligations.VectorArithmetic
  intro hall
  let i : Instr := .vadd {} { d := .v 1, a := .v 2, b := .src (.v 3), ty := .fp32 }
  have counted : countBeat (exec i vectorReady) = 1 := by decide +kernel
  exact not_vectorWord_of_counted rfl counted (hall i vectorReady _ rfl)

/-- Refutes O22: so does a `vrcp` of v2 in FP32. -/
theorem not_vectorFloat : ¬ Obligations.VectorFloat := by
  unfold Obligations.VectorFloat
  intro hall
  let i : Instr := .vrcp {} { d := .v 1, a := .v 2, ty := .fp32 }
  have counted : countBeat (exec i vectorReady) = 1 := by decide +kernel
  exact not_vectorWord_of_counted rfl counted (hall i vectorReady _ rfl)

/-- Refutes O23: so does a `vand` of v2 and v3 in INT32. -/
theorem not_vectorLogic : ¬ Obligations.VectorLogic := by
  unfold Obligations.VectorLogic
  intro hall
  let i : Instr := .vand {} { d := .v 1, a := .v 2, b := .src (.v 3), ty := .int32 }
  have counted : countBeat (exec i vectorReady) = 1 := by decide +kernel
  exact not_vectorWord_of_counted rfl counted (hall i vectorReady _ rfl)

/-- Refutes O24: so does a `vpack` of v2 and v3 from FP32 to FP16. -/
theorem not_vectorConvert : ¬ Obligations.VectorConvert := by
  unfold Obligations.VectorConvert
  intro hall
  let i : Instr := .vpack {} (.v 1) 2 3 .fp16 .fp32 .rne false
  have counted : countBeat (exec i vectorReady) = 1 := by decide +kernel
  exact not_vectorWord_of_counted rfl counted (hall i vectorReady _ rfl)

/-- Refutes O25: so does a `vli` of 7. -/
theorem not_vectorMove : ¬ Obligations.VectorMove := by
  unfold Obligations.VectorMove
  intro hall
  let i : Instr := .vli {} (.v 1) .fp32 7
  have counted : countBeat (exec i vectorReady) = 1 := by decide +kernel
  exact not_vectorWord_of_counted rfl counted (hall i vectorReady _ (.inr rfl))

/-- Refutes O26: so does a `vqcnt` of q1 into s1. -/
theorem not_vectorOnce : ¬ Obligations.VectorOnce := by
  unfold Obligations.VectorOnce
  intro hall
  let i : Instr := .vqcnt {} 1 1 .fp32
  have counted : countBeat (exec i vectorReady) = 1 := by decide +kernel
  exact not_vectorWord_of_counted rfl counted (hall i vectorReady _ rfl)

/-- Refutes O27: so does a `vred` that sums v2 in FP32. -/
theorem not_vectorGather : ¬ Obligations.VectorGather := by
  unfold Obligations.VectorGather
  intro hall
  let i : Instr := .vred {} .sum 1 (.v 2) .fp32 .rne false
  have counted : countBeat (exec i vectorReady) = 1 := by decide +kernel
  exact not_gatherWordIssues_of_counted rfl counted (hall i vectorReady _ rfl)

/-- A record of eight elements at address 0 of core 0's scratchpad, whose SPC is 01 (R236). -/
def padRecord : Chunk := BitVec.ofNat 256 (2 ^ 244 + 8 * 2 ^ 104)

/-- `vectorReady`, with the record in b1. -/
def loadReady : State := { vectorReady with cores := [(0, { countingOn 3 with b := (Vector.replicate 16 0).set 1 padRecord })] }

/-- Refutes O28, by the clause on `vld`: a load of the eight FP32 elements of `padRecord` is not refused, and moves `evcT` from 0 to 1. -/
theorem not_vectorNear : ¬ Obligations.VectorNear := by
  unfold Obligations.VectorNear
  intro hall
  let n : Ns := { br := 1, x := 0, ty := .fp32 }
  obtain ⟨vld, -⟩ := hall loadReady {} n
  obtain ⟨-, issues⟩ := vld (.v 1)
  have accepted : ¬ recordRefuses loadReady {} n (linearIdx loadReady.curCore n) ({} : Hdr).beats := by
    unfold recordRefuses
    decide +kernel
  have counted : countBeat (exec (.vld {} (.v 1) n) loadReady) = 1 := by decide +kernel
  exact not_after_of_counted (n := 0) (fun _ ht => ht.evcT) (by rw [counted]; decide) (issues accepted)

end Sys2Proof.Machine
end

section
/-! PROOFS. The words of the matrix node and the elements of an accumulator: moves and arithmetic of the M column (R133, R134, R148). -/

namespace Sys2Proof.Machine

open Sys2Proof

/-! ### A word of the node (R134, R153) -/

section NodeWord

variable {s : State} {h : Hdr} {names : List (Fin 8)}

theorem stoppedHere_stop (s : State) (cause : Cause) : StoppedHere s cause 0 0 ((s.modCur Core.tickOrd).stopHere cause 0 0) :=
  stopHere_modCur_tickOrd s cause 0 0 ▸ stoppedHere_tickOrd s cause 0 0

theorem nodeWord_aliased (ha : aliased s.curCore names) (busy : Nat) (oa : Bool) (f : State → Nat → State) :
    s.nodeWord h names busy oa f = (s.modCur Core.tickOrd).stopHere .alias_ 0 0 :=
  if_pos ((aliased_iff _ _).1 ha)

/-- A word that names no accumulator of a reflector occupies the node, and acts when active. -/
theorem nodeWord_free (hf : ¬ aliased s.curCore names) (busy : Nat) (oa : Bool) (f : State → Nat → State) :
    s.nodeWord h names busy oa f =
      if s.curCore.active h then f (s.modCur (fun k => (k.occupy busy oa).tickOrd)) s.curCore.ord
      else s.modCur (fun k => (k.occupy busy oa).tickOrd) :=
  if_neg (fun e => hf ((aliased_iff _ _).2 e))

end NodeWord

/-- A result put in flight by a word that has changed its own core. -/
theorem fly_only (s : State) (g : Core → Core) (ord sub lat : Nat) (ws : List Write) (fl : Flags) :
    OnlyCore s.cur.core (s.modCur g) ((s.modCur g).fly ord sub lat ws fl) :=
  onlyCore_modCur (s.modCur g) _

/-- A word that ends in `nodeWord` with one result is a word of the node with that result. -/
theorem matrixWord_of_nodeWord {i : Instr} {s : State} {h : Hdr} {names : List (Fin 8)} {busy lat : Nat} {oa : Bool} {ws : List Write}
    {fl : Flags} {n : NodeWord} (he : exec i s = .next (s.nodeWord h names busy oa (fun t ord => t.fly ord 0 lat ws fl)))
    (hn : n = ⟨h, names, busy, oa, lat, ws, fl⟩) : MatrixWord i s n := by
  subst hn
  refine ⟨fun ha => ?stopped, fun hf ha => ?issued, fun hf ha => ?idle⟩
  case stopped =>
    rw [nodeWord_aliased ha] at he
    exact ⟨_, he, stoppedHere_stop s .alias_⟩
  case issued =>
    rw [nodeWord_free hf, if_pos ((isActive_iff s h).1 ha)] at he
    refine ⟨_, he, (onlyCore_modCur s _).trans (fly_only ..), ?_⟩
    rw [State.fly, curCore_modCur, curCore_modCur]
    rfl
  case idle =>
    rw [nodeWord_free hf, if_neg (fun e => ha ((isActive_iff s h).2 e))] at he
    exact ⟨_, he, onlyCore_modCur s _, curCore_modCur s _⟩

/-! ### Tables: lists of rows, by what stands at a row and a column -/

/-- `r` rows of `c` entries. -/
def tableOf {α : Type} (r c : Nat) (g : Nat → Nat → α) : List (List α) := (List.range r).map (fun i => (List.range c).map (g i))

section Tables

variable {α β : Type} {r c : Nat} {f g : Nat → Nat → α}

theorem length_tableOf : (tableOf r c g).length = r := by simp [tableOf]

theorem tableOf_congr (h : ∀ i < r, ∀ j < c, f i j = g i j) : tableOf r c f = tableOf r c g :=
  List.map_congr_left fun i hi => List.map_congr_left fun j hj => h i (List.mem_range.1 hi) j (List.mem_range.1 hj)

theorem map_tableOf (x : α → β) : (tableOf r c g).map (fun row => row.map x) = tableOf r c (fun i j => x (g i j)) := by
  simp [tableOf, Function.comp_def]

theorem getD_map_range (x : Nat → β) (d : β) {i n : Nat} (hi : i < n) : ((List.range n).map x).getD i d = x i := by
  simp [List.getD_eq_getElem?_getD, hi]

/-- Column `j` of a table. -/
theorem map_getD_tableOf (d : α) {j : Nat} (hj : j < c) :
    (tableOf r c g).map (fun row => row.getD j d) = (List.range r).map (fun i => g i j) := by
  rw [tableOf, List.map_map]
  exact List.map_congr_left fun i _ => getD_map_range _ _ hj

/-- The rows one after another. -/
theorem flatten_tableOf (r c : Nat) (g : Nat → Nat → α) : (tableOf r c g).flatten = (List.range (r * c)).map (fun e => g (e / c) (e % c)) := by
  induction r with
  | zero => simp [tableOf]
  | succ r ih =>
    have rows : tableOf (r + 1) c g = tableOf r c g ++ [(List.range c).map (g r)] := by simp [tableOf, List.range_succ]
    rw [rows, List.flatten_append, ih, Nat.succ_mul, List.range_add, List.map_append, List.map_map, List.flatten_singleton]
    congr 1
    refine List.map_congr_left fun j hj => ?_
    have hj := List.mem_range.1 hj
    have hc : 0 < c := by omega
    simp [Nat.mul_comm r c, Nat.mul_add_div hc, Nat.div_eq_of_lt hj, Nat.mod_eq_of_lt hj]

theorem transpose32_tableOf [Inhabited α] : transpose32 (tableOf 32 32 g) = tableOf 32 32 (fun i j => g j i) :=
  List.map_congr_left fun _ hj => map_getD_tableOf default (List.mem_range.1 hj)

end Tables

/-! ### The elements of an accumulator (R133) -/

theorem accElems_eq (a : AccWord) (t : Tacc) : accElems a t = (List.range 1024).map (accEl a t) := lanesOf_eq_map _ _ _

theorem accRows_eq (a : AccWord) (t : Tacc) : accRows a t = tableOf 32 32 (fun r c => accEl a t (32 * r + c)) := by
  unfold accRows
  dsimp only
  rw [accElems_eq]
  refine List.map_congr_left fun r hr => List.ext_getElem ?_ fun c _ _ => ?_
  · have := List.mem_range.1 hr
    simp
    omega
  · simp

/-- A row by its first element and the others. -/
theorem accRow_eq_cons (a : AccWord) (t : Tacc) (r : Nat) : accRow a t r = accEl a t (32 * r) :: (accRow a t r).drop 1 := by
  simp [accRow, List.range_succ_eq_map]

theorem map_accRows {α : Type} (a : AccWord) (t : Tacc) (f : List Nat → α) :
    (accRows a t).map f = (List.range 32).map (fun r => f (accRow a t r)) := by
  rw [accRows_eq, tableOf, List.map_map]
  rfl

theorem rowMax_cons (f : Fmt) (x : Nat) (xs : List Nat) : rowMax f (x :: xs) = foldFlags (minMax f true) x xs := rfl

theorem rowSum_cons (t : Tacc) (x : Nat) (xs : List Nat) : rowSum t (x :: xs) = foldFlags (accAdd t) x xs := by
  simp only [rowSum, foldFlags, accAdd]

theorem rowMax_accRow (f : Fmt) (a : AccWord) (t : Tacc) (r : Nat) :
    rowMax f (accRow a t r) = foldFlags (minMax f true) (accEl a t (32 * r)) ((accRow a t r).drop 1) := by
  rw [← rowMax_cons, ← accRow_eq_cons]

theorem rowSum_accRow (a : AccWord) (t : Tacc) (r : Nat) :
    rowSum t (accRow a t r) = foldFlags (accAdd t) (accEl a t (32 * r)) ((accRow a t r).drop 1) := by
  rw [← rowSum_cons, ← accRow_eq_cons]

/-! ### Moves and arithmetic (R148) -/

/-- A result with no flag of its own raises none. -/
theorem foldl_or_zero {α : Type} (xs : List α) : xs.foldl (fun (f : Flags) _ => f ||| 0) 0 = 0 := by
  induction xs with
  | nil => rfl
  | cons x xs ih => exact ih

/-- A word whose result is an accumulator, from the list of its elements with their flags. -/
theorem accWord_eq {w : Fin 8} {t : Tacc} {f : Nat → Nat × Flags} {rs : List (Nat × Flags)} (hr : rs = (List.range 1024).map f)
    (h : Hdr) (names : List (Fin 8)) :
    accWord w t f h names = ⟨h, names, 32, false, 34, [accWrite w t (rs.map (·.1))], rs.foldl (fun fl x => fl ||| x.2) 0⟩ := by
  rw [hr, accWord, List.map_map, List.foldl_map]
  rfl

/-- A word whose result is a row of a vector register. -/
theorem rowWord_eq {vr : Fin 32} {f : Nat → Nat × Flags} {rs : List (Nat × Flags)} (hr : rs = (List.range 32).map f)
    (h : Hdr) (names : List (Fin 8)) :
    rowWord vr f h names = ⟨h, names, 32, false, 34, [vrow vr (rs.map (·.1))], rs.foldl (fun fl x => fl ||| x.2) 0⟩ := by
  rw [hr, rowWord, vrow, List.map_map, List.map_map, List.foldl_map]
  rfl

/-- The elements of an accumulator as they stand, or transposed. -/
theorem movedElems (a : AccWord) (t : Tacc) (xp : Bool) : (if xp then transpose32 (accRows a t) else accRows a t).flatten =
    (List.range 1024).map (fun e => accEl a t (if xp then e % 32 * 32 + e / 32 else e)) := by
  rw [accRows_eq]
  cases xp with
  | true =>
    rw [if_pos rfl, transpose32_tableOf, flatten_tableOf]
    refine List.map_congr_left fun e _ => ?_
    rw [if_pos rfl, Nat.mul_comm 32]
  | false =>
    rw [if_neg Bool.false_ne_true, flatten_tableOf]
    refine List.map_congr_left fun e _ => ?_
    rw [if_neg Bool.false_ne_true, Nat.div_add_mod]

theorem zip_accElems {α : Type} (a b : AccWord) (t : Tacc) (f : Nat × Nat → α) :
    ((accElems a t).zip (accElems b t)).map f = (List.range 1024).map (fun e => f (accEl a t e, accEl b t e)) := by
  rw [accElems_eq, accElems_eq, List.zip_map', List.map_map]
  rfl

/-- Settles O30: each word is one result of the node, from its elements or its rows one by one. -/
theorem matrixMove : Obligations.MatrixMove := by
  unfold Obligations.MatrixMove
  intro i s n hi
  unfold moveSpec at hi
  split at hi <;> cases hi
  case h_1 h ad => exact matrixWord_of_nodeWord rfl rfl
  case h_2 h ad ga t xp =>
    refine matrixWord_of_nodeWord rfl ?_
    rw [movedElems]
    simp only [accWord, foldl_or_zero]
  case h_3 h ad ga t => exact matrixWord_of_nodeWord rfl (accWord_eq (by rw [zip_accElems]; simp only [accAdd]) h _)
  case h_4 h ad ga sr => exact matrixWord_of_nodeWord rfl (accWord_eq (by rw [accElems_eq, List.map_map]; rfl) h _)
  case h_5 h vr ga t =>
    refine matrixWord_of_nodeWord rfl (rowWord_eq ?_ h _)
    simp only [map_accRows, rowMax_accRow]
  case h_6 h vr ga t =>
    refine matrixWord_of_nodeWord rfl (rowWord_eq ?_ h _)
    simp only [map_accRows, rowSum_accRow]

end Sys2Proof.Machine
end

section
/-! PROOFS. `mdrain`: its rows and what becomes ready with the last of them (R143 to R147). -/

namespace Sys2Proof.Machine

open Sys2Proof

/-! ### Lists of a word's parts, by their number -/

theorem map_zipIdx_map_range {α β : Type} (f : Nat → α) (g : α × Nat → β) (n : Nat) :
    (((List.range n).map f).zipIdx).map g = (List.range n).map (fun i => g (f i, i)) :=
  List.ext_getElem (by simp) fun i _ _ => by simp

/-- A list by its places. -/
theorem eq_map_getD {α : Type} (xs : List α) (d : α) {n : Nat} (hn : xs.length = n) : xs = (List.range n).map (fun i => xs.getD i d) := by
  subst hn
  exact List.ext_getElem (by simp) fun i h _ => by simp [h]

/-- A mask of `n` whole lanes. -/
theorem packLanes_ones (w n : Nat) : packLanes w (List.replicate n (2 ^ w - 1)) = 2 ^ (w * n) - 1 := by
  induction n with
  | zero => rfl
  | succ n ih =>
    have hw := Nat.two_pow_pos w
    have hn := Nat.two_pow_pos (w * n)
    rw [List.replicate_succ, packLanes, ih, Nat.mod_eq_of_lt (by omega), Nat.mul_succ, Nat.add_comm (w * n), Nat.pow_add, Nat.mul_sub,
      Nat.mul_one]
    have := Nat.le_mul_of_pos_right (2 ^ w) hn
    omega

/-- Lanes that are all active write their lanes and no others. -/
theorem vwrite_all (r : Fin 32) (w : Nat) (xs : List Nat) : vwrite r w 0 (xs.map (fun x => (x, true))) =
    .v r (BitVec.ofNat 2048 (packLanes w xs)) (BitVec.ofNat 2048 (2 ^ (w * xs.length) - 1)) := by
  rw [← packLanes_ones]
  simp [vwrite, Function.comp_def]

/-! ### The rows of a drain (R143 to R146) -/

section Drain

variable (s : State) (h : Hdr) (o : Mdrain)

theorem active_eq : s.curCore.active h = ((s.curCore.rdQ h.pq).getLsbD 0 ^^ h.pn) := Bool.eq_iff_iff.2 (isActive_iff s h).symm

theorem length_drainRows (k : Core) : (drainRows o k).length = 32 := by
  unfold drainRows
  cases o.xp <;> simp [accRows_eq, length_tableOf, transpose32_tableOf]

/-- Every row that a drain puts in flight is the row of the statement. -/
theorem drainRow_all : (if s.curCore.active h then drainRows o s.curCore else
      List.replicate 32 (List.replicate 32 0, List.replicate (if o.ta.tileScaled then 1 else o.ta.rowScales) 0, 0)) =
    (List.range 32).map (drainRow s h o) := by
  unfold drainRow
  rw [active_eq]
  cases (s.curCore.rdQ h.pq).getLsbD 0 ^^ h.pn with
  | true => exact eq_map_getD _ _ (length_drainRows o s.curCore)
  | false => rfl

/-- Whether a row writes scales or none, the statement and the meaning list the same writes. -/
theorem ite_nil_cons {α : Type} {c : Prop} [Decidable c] (x y : α) : (if c then [x] else [x, y]) = x :: (if c then [] else [y]) := by
  split <;> rfl

/-! ### The row maxima (R144) -/

/-- Row `r` of what a drain reads, as FP32. -/
def drainEl (r c : Nat) : Nat := accEl s.curCore.a[o.ad] .fp32 (if o.xp then 32 * c + r else 32 * r + c)

theorem drainRowMax : (if o.xp then (transpose32 (accRows s.curCore.a[o.ad] .fp32)).map (rowMax .fp32)
      else (accRows s.curCore.a[o.ad] .fp32).map (rowMax .fp32)) =
    (List.range 32).map (fun r => foldFlags (minMax .fp32 true) (drainEl s o r 0) ((List.range 31).map (fun c => drainEl s o r (c + 1)))) := by
  have rows : (if o.xp then (transpose32 (accRows s.curCore.a[o.ad] .fp32)).map (rowMax .fp32)
      else (accRows s.curCore.a[o.ad] .fp32).map (rowMax .fp32)) = (tableOf 32 32 (drainEl s o)).map (rowMax .fp32) := by
    unfold drainEl
    rw [accRows_eq]
    cases o.xp with
    | true => rw [if_pos rfl, transpose32_tableOf]; rfl
    | false => rfl
  rw [rows, tableOf, List.map_map]
  refine List.map_congr_left fun r _ => ?_
  rw [Function.comp_apply, List.range_succ_eq_map, List.map_cons, List.map_map, rowMax_cons]
  rfl

/-- The row maxima as lanes of a vector register. -/
theorem rowMaxima_write (vr : Fin 32) (mx : List (Nat × Flags)) (hm : mx.length = 32) : vwrite vr 32 0 (mx.map (fun x => (x.1, true))) =
    .v vr (BitVec.ofNat 2048 (packLanes 32 (mx.map (·.1)))) (BitVec.ofNat 2048 (2 ^ 1024 - 1)) := by
  have lanes : mx.map (fun x => (x.1, true)) = (mx.map (·.1)).map (fun x => (x, true)) := by simp
  rw [lanes, vwrite_all, List.length_map, hm]

/-- A result of a word that has changed its own core, in the words of the statement. -/
theorem flight_eq (s : State) (g : Core → Core) (sub lat : Nat) {ws ws' : List Write} {fl fl' : Flags} (hw : ws = ws') (hf : fl = fl') :
    (s.modCur g).flight s.curCore.ord sub lat ws fl none = { resultOf s lat ws' fl' with sub := sub } := by
  rw [hw, hf]
  rfl

/-! ### The drain as a whole (R143, R147) -/

/-- The ring of a drain is not initialised, or is of another format. -/
def DrainUnfit : Prop :=
  match o.dst with
  | .ring g => s.curCore.g[g].cap = 0 ∨ s.curCore.g[g].fmt ≠ o.ta
  | .tx _ => False

theorem drainUnfit_iff : DrainUnfit s o ↔ (match o.dst with
    | .ring g => s.curCore.g[g].cap = 0 || s.curCore.g[g].fmt != o.ta
    | .tx _ => false) = true := by
  unfold DrainUnfit
  cases o.dst <;> simp

variable {s o}

theorem exec_mdrain_aliased (ha : aliased s.curCore [o.ad]) :
    exec (.mdrain h o) s = .next ((s.modCur Core.tickOrd).stopHere .alias_ 0 0) :=
  if_pos (by simpa [aliased_iff] using ha)

theorem exec_mdrain_unfit (hf : ¬ aliased s.curCore [o.ad]) (hu : DrainUnfit s o) : exec (.mdrain h o) s = .next s.mCheck :=
  (if_neg (by simpa [aliased_iff] using hf)).trans (if_pos ((drainUnfit_iff s o).1 hu))

theorem exec_mdrain_fit (hf : ¬ aliased s.curCore [o.ad]) (hu : ¬ DrainUnfit s o) : exec (.mdrain h o) s =
    .next ((s.modCur (fun k => Core.tickOrd { k.occupy 48 false with
        dith := if s.curCore.active h && o.rm = Rm.dither then ditherAdvance k.dith else k.dith })).modCur (fun k =>
      { k with flights := k.flights ++ (List.range 32).map (drainFlight s h o) ++ [drainLast s h o] })) := by
  refine (if_neg (by simpa [aliased_iff] using hf)).trans ((if_neg (fun e => hu ((drainUnfit_iff s o).2 e))).trans ?_)
  dsimp only
  rw [drainRow_all, map_zipIdx_map_range, drainRowMax]
  refine congrArg Host.Outcome.next (congrArg (State.modCur _) (funext fun k => congrArg (fun fs => { k with flights := fs }) ?_))
  refine congrArg₂ (· ++ ·) (congrArg (k.flights ++ ·) (List.map_congr_left fun r _ => ?row)) (congrArg (fun x => [x]) ?last)
  case row =>
    refine flight_eq s _ _ _ ?_ (by rw [active_eq])
    rw [active_eq]
    simp only [ite_nil_cons]
    cases o.dst <;> rfl
  case last =>
    refine flight_eq s _ _ _ ?writes ?flags
    case writes =>
      rw [rowMaxima_write _ _ (by simp)]
      simp only [active_eq, Bool.and_eq_true, decide_eq_true_eq]
      exact congrArg₂ (· ++ ·) rfl (by split <;> rfl)
    case flags =>
      simp only [active_eq, Bool.and_eq_true, decide_eq_true_eq]
      split
      · exact BitVec.zero_or
      · rfl

end Drain

/-- Settles O33: the rows, and what becomes ready with the last, are those of the meaning one by one. -/
theorem matrixDrain : Obligations.MatrixDrain := by
  unfold Obligations.MatrixDrain
  intro s h o
  refine ⟨fun ha => ?stopped, fun hf hu => ?unfit, fun hf hu => ?issued⟩
  case stopped => exact ⟨_, exec_mdrain_aliased h ha, stoppedHere_stop s .alias_⟩
  case unfit => exact ⟨_, exec_mdrain_unfit h hf hu, stoppedHere_stop s .machineCheck⟩
  case issued =>
    refine ⟨_, exec_mdrain_fit h hf hu, (onlyCore_modCur s _).trans (onlyCore_modCur (s.modCur _) _), ?_⟩
    rw [curCore_modCur, curCore_modCur]
    simp only [isActive_iff, Bool.and_eq_true, decide_eq_true_eq]
    rfl

end Sys2Proof.Machine
end

section
/-! PROOFS. The statements about ring control and about block loads fail as those about the V column do: they let a word change the
counters `evc` of its core (`SameRegisters`) and no other field of theirs, but a `gfill` is counted on source 9 of R316 with each token it
pops, and a load on source 7 with each element that it asks of another core, and a core that counts them notes the beat besides (`evcT`). -/

namespace Sys2Proof.Machine

open Sys2Proof

theorem FirstPop.evcT {s t : State} {i : Instr} {h : Hdr} {p : Fin 8} {pops lat : Nat} {ws : Option (List Write)} {fl : Flags}
    (h' : FirstPop s i h p pops lat ws fl t) : (t.core s.cur.core).evcT = (s.core s.cur.core).evcT :=
  core_evcT_of_curCore (congrArg State.cur h'.only.rest :) h'.regs.evcT

/-- On beat 1 a word of the M column runs on core 0, as `k`. -/
def matrixReady (k : Core) : State := { time := 1, cur := { col := .m }, pens := [{ live := true }], cores := [(0, k)] }

/-! ### `gfill` (R139, R316) -/

/-- A core that counts popped tokens (source 9) and has last counted on beat 0: ring 0 has one slot of FP32 tiles, and a token waits at
port 0. -/
def fillingCore : Core :=
  { countingOn 9 with g := (Vector.replicate 8 {}).set 0 { cap := 1 }, rx := (Vector.replicate 8 {}).set 0 { q := [{}] } }

/-- Refutes O34, by the clause on the first token of a `gfill`: into ring 0 of `fillingCore`, in FP32, it moves `evcT` from 0 to 1. -/
theorem not_matrixRings : ¬ Obligations.MatrixRings := by
  unfold Obligations.MatrixRings
  intro hall
  obtain ⟨-, -, -, -, -, -, -, -, fills⟩ := hall (matrixReady fillingCore) {} 0
  have filled := fills 0 .fp32 0 {} rfl (by decide +kernel) rfl rfl (by decide +kernel) (by decide)
  have counted : countBeat (exec (.gfill {} 0 0 .fp32 0) (matrixReady fillingCore)) = 1 := by decide +kernel
  exact not_after_of_counted (n := 0) (fun _ ht => ht.evcT) (by rw [counted]; decide) filled

/-! ### Block loads (R149, R236, R316) -/

/-- A record of one element at address 0 of core 1's scratchpad, whose SPC is 01; elements past it read 0 (BCM 2). -/
def farRecord : Chunk := BitVec.ofNat 256 (2 ^ 250 + 2 ^ 244 + 2 ^ 104 + 2 ^ 22)

/-- A core that counts the accesses it makes to other cores (source 7) and has last counted on beat 0, with the record in b1. -/
def loadingCore : Core := { countingOn 7 with b := (Vector.replicate 16 0).set 1 farRecord }

/-- Refutes O35, by the clause on `mld`: a load of a0 in FP32 by `farRecord` is not refused, and moves `evcT` from 0 to 1. -/
theorem not_matrixNear : ¬ Obligations.MatrixNear := by
  unfold Obligations.MatrixNear
  intro hall
  let n : Ns := { br := 1, x := 0, ty := .fp32 }
  obtain ⟨mld, -⟩ := hall (matrixReady loadingCore) {} n
  obtain ⟨-, -, -, issues⟩ := mld 0
  have free : ¬ aliased (matrixReady loadingCore).curCore [0] := by
    rw [aliased_iff]
    decide +kernel
  have active : isActive (matrixReady loadingCore) {} := (isActive_iff _ _).2 (active_q0 _)
  have accepted : ∀ x ∈ rowPlaces (matrixReady loadingCore) n 1024, x.2 ≠ .check := by decide +kernel
  have counted : countBeat (exec (.mld {} 0 n) (matrixReady loadingCore)) = 1 := by decide +kernel
  exact not_after_of_counted (n := 0) (fun _ ht => ht.2.2.evcT) (by rw [counted]; decide) (issues free active accepted)

end Sys2Proof.Machine
end

section
/-! PROOFS. Small products of tables, and Q applied to one (R151, R155, R156). -/

namespace Sys2Proof.Machine

open Sys2Proof

/-! ### Tables of values -/

section Products

variable {r n c : Nat} {a b : Nat → Nat → FVal}

/-- A table of values has `r` rows of `c` columns. -/
def Shaped (r c : Nat) (m : Mat) : Prop := m = tableOf r c (gridAt m)

theorem gridAt_tableOf (a : Nat → Nat → FVal) {i j : Nat} (hi : i < r) (hj : j < c) : gridAt (tableOf r c a) i j = a i j := by
  rw [gridAt, tableOf, getD_map_range _ _ hi, getD_map_range _ _ hj]

theorem shaped_tableOf (r c : Nat) (a : Nat → Nat → FVal) : Shaped r c (tableOf r c a) :=
  tableOf_congr fun _ hi _ hj => (gridAt_tableOf a hi hj).symm

theorem gridOf_fst (r c : Nat) (g : Nat → Nat → FVal × Flags) : (gridOf r c g).1 = tableOf r c (fun i j => (g i j).1) := map_tableOf _

theorem shaped_gridOf (r c : Nat) (g : Nat → Nat → FVal × Flags) : Shaped r c (gridOf r c g).1 := by
  rw [gridOf_fst]
  exact shaped_tableOf _ _ _

/-- An element-wise computation is the statement's table with its flags. -/
theorem matMap_tableOf (r c : Nat) (g : Nat → Nat → FVal × Flags) : matMap (tableOf r c g) = gridOf r c g := rfl

/-- A chain of fused multiply-adds over two lists is the one over the places of the shorter. -/
theorem chain_map_range (f : Fmt) (x y : Nat → FVal) {n m : Nat} (hm : n ≤ m) :
    chain f ((List.range n).map x) ((List.range m).map y) = dotOf f n x y := by
  have zipped : ((List.range n).map x).zip ((List.range m).map y) = (List.range n).map (fun j => (x j, y j)) :=
    List.ext_getElem (by simpa using hm) fun j _ _ => by simp
  rw [chain, dotOf, zipped, List.foldl_map]
  rfl

theorem colsOf_tableOf {m : Nat} (hm : m ≤ c) : colsOf m (tableOf r c a) = tableOf m r (fun i j => a j i) :=
  List.map_congr_left fun _ hj => map_getD_tableOf zeroF (lt_of_lt_of_le (List.mem_range.1 hj) hm)

/-- The product of R156. -/
theorem matMul_tableOf : matMul (tableOf r n a) (tableOf n c b) c = timesOf r n c a b := by
  unfold matMul
  rw [colsOf_tableOf (Nat.le_refl c)]
  refine Eq.trans (congrArg matMap ?_) (matMap_tableOf r c _)
  rw [tableOf, tableOf, tableOf, List.map_map]
  refine List.map_congr_left fun i _ => ?_
  rw [Function.comp_apply, List.map_map]
  exact List.map_congr_left fun j _ => chain_map_range .fp32 (a i) (fun l => b l j) (Nat.le_refl n)

theorem zip_tableOf {α β γ : Type} (x : Nat → Nat → α) (y : Nat → Nat → β) (f : α × β → γ) :
    ((tableOf r c x).zip (tableOf r c y)).map (fun p => (p.1.zip p.2).map f) = tableOf r c (fun i j => f (x i j, y i j)) := by
  rw [tableOf, tableOf, List.zip_map', List.map_map]
  refine List.map_congr_left fun i _ => ?_
  rw [Function.comp_apply, List.zip_map', List.map_map]
  rfl

/-- The difference of R156. -/
theorem matSub_tableOf : matSub (tableOf r c a) (tableOf r c b) = minusOf r c a b := by
  unfold matSub
  rw [zip_tableOf]
  exact matMap_tableOf r c _

/-! The same, of tables known by their shape. -/

variable {x y : Mat}

theorem matMul_left (hx : Shaped r n x) : matMul x (tableOf n c b) c = timesOf r n c (gridAt x) b := by
  conv_lhs => rw [hx]
  exact matMul_tableOf

theorem matMul_right (hy : Shaped n c y) : matMul (tableOf r n a) y c = timesOf r n c a (gridAt y) := by
  conv_lhs => rw [hy]
  exact matMul_tableOf

theorem matSub_right (hy : Shaped r c y) : matSub (tableOf r c a) y = minusOf r c a (gridAt y) := by
  conv_lhs => rw [hy]
  exact matSub_tableOf

theorem matSub_both (hx : Shaped r c x) (hy : Shaped r c y) : matSub x y = minusOf r c (gridAt x) (gridAt y) := by
  conv_lhs => rw [hx]
  exact matSub_right hy

theorem shaped_timesOf (r n c : Nat) (a b : Nat → Nat → FVal) : Shaped r c (timesOf r n c a b).1 := shaped_gridOf ..

theorem shaped_minusOf (r c : Nat) (a b : Nat → Nat → FVal) : Shaped r c (minusOf r c a b).1 := shaped_gridOf ..

end Products

/-! ### The parts of an orthogonal accumulator (R151, R152) -/

section Parts

variable (k : Core) (o : Fin 4)

theorem oaCnt_eq : oaCnt k.oStat[o] = heldCnt k o := by simp [oaCnt, heldCnt, bitsOf, natBits]

theorem heldCnt_le : heldCnt k o ≤ 32 := Nat.min_le_right _ _

theorem pivOf_eq (j : Nat) : pivOf k.oPiv[o] j = heldPiv k o j := by
  have width : 5 * j + 4 + 1 - 5 * j = 5 := by omega
  rw [pivOf, heldPiv, bitsOf, natBits, width]
  rfl

theorem diagD_eq : diagD k.oStat[o] = tableOf 32 32 (signD k o) := by
  simp only [diagD, bitAt_eq_testBit]
  rfl

/-- Of the codes `v`, the effective reflector with pivot `p`. -/
theorem effective_eq (p : Nat) (v : List Nat) : effective p v = (List.range v.length).map (reflectorAt p (fun i => v.getD i 0)) := by
  refine List.ext_getElem (by simp [effective]) fun i h _ => ?_
  have hv : i < v.length := by simpa [effective] using h
  simp only [effective, List.getElem_map, List.getElem_zipIdx, List.getElem_range, reflectorAt, List.getD_eq_getElem _ _ hv, Nat.zero_add]
  rfl

theorem reflectors_eq : reflectors k o = tableOf (heldCnt k o) 32 (fun j i => effV k o i j) := by
  unfold reflectors
  dsimp only
  rw [oaCnt_eq, accRows_eq]
  refine List.map_congr_left fun j hj => ?_
  have hj : j < 32 := lt_of_lt_of_le (List.mem_range.1 hj) (heldCnt_le k o)
  rw [storedCol, map_getD_tableOf 0 hj, effective_eq, List.length_map, List.length_range, pivOf_eq]
  refine List.map_congr_left fun i hi => ?_
  simp only [effV, reflectorAt, storedV, getD_map_range _ _ (List.mem_range.1 hi)]

theorem factorT_eq : factorT k o = tableOf (heldCnt k o) (heldCnt k o) (valT k o) := by
  unfold factorT
  dsimp only
  have n32 := heldCnt_le k o
  rw [oaCnt_eq, accRows_eq, tableOf, ← List.map_take, List.map_map, List.take_range, Nat.min_eq_left n32]
  refine List.map_congr_left fun i _ => ?_
  rw [Function.comp_apply, ← List.map_take, List.map_map, List.take_range, Nat.min_eq_left n32]
  rfl

theorem or_or_self (a b : Flags) : a ||| b ||| b = a ||| b := by rw [BitVec.or_assoc, BitVec.or_self]

theorem zero_or_flags (a : Flags) : 0 ||| a = a := BitVec.zero_or

/-- The four forms of R156. The meaning takes the flags of a step it leaves out as none, or as those of the step before. -/
theorem applyQ_eq (right xp : Bool) (x : Nat → Nat → FVal) {c : Nat} (hc : right = true → c = 32) :
    applyQ k o right xp (tableOf 32 c x) c = applied156 k o right xp x c := by
  unfold applyQ applied156
  simp only [reflectors_eq, factorT_eq, diagD_eq, length_tableOf, colsOf_tableOf (Nat.le_refl _)]
  match right, xp with
  | false, false =>
    simp only [Bool.false_eq_true, if_false, matMul_tableOf, matMul_right (shaped_timesOf ..),
      matSub_both (shaped_timesOf ..) (shaped_timesOf ..), or_or_self]
  | false, true =>
    simp only [Bool.false_eq_true, if_false, if_true, matMul_tableOf, matMul_right (shaped_timesOf ..), matMul_right (shaped_minusOf ..),
      matSub_right (shaped_timesOf ..), zero_or_flags]
  | true, false =>
    obtain rfl := hc rfl
    simp only [Bool.false_eq_true, if_false, if_true, matMul_tableOf, matMul_left (shaped_timesOf ..), matMul_left (shaped_minusOf ..),
      matSub_right (shaped_timesOf ..), zero_or_flags]
  | true, true =>
    obtain rfl := hc rfl
    simp only [if_true, matMul_tableOf, matMul_left (shaped_timesOf ..), matSub_both (shaped_timesOf ..) (shaped_timesOf ..), or_or_self]

end Parts

end Sys2Proof.Machine
end

section
/-! PROOFS. The status word and the pivots of an orthogonal accumulator (R151, R152). -/

namespace Sys2Proof.Machine

open Sys2Proof

/-! ### Fields of a word -/

theorem setBits_getLsbD (w : W64) (hi lo v : Nat) {n : Nat} (hn : n < 64) :
    (setBits w hi lo v).getLsbD n = if lo ≤ n ∧ n ≤ hi then v.testBit (n - lo) else w.getLsbD n := by
  have mask : (BitVec.ofNat 64 ((2 ^ (hi + 1 - lo) - 1) * 2 ^ lo)).getLsbD n = decide (lo ≤ n ∧ n ≤ hi) := by
    rw [BitVec.getLsbD_ofNat, Nat.testBit_mul_two_pow, Nat.testBit_two_pow_sub_one, Bool.eq_iff_iff]
    simp only [hn, decide_true, Bool.true_and, Bool.and_eq_true, decide_eq_true_eq]
    omega
  unfold setBits
  dsimp only
  rw [merge_getLsbD _ _ _ hn, mask]
  by_cases h : lo ≤ n ∧ n ≤ hi
  · rw [if_pos (decide_eq_true h), if_pos h, BitVec.getLsbD_ofNat, Nat.testBit_mul_two_pow, decide_eq_true hn, decide_eq_true h.1]
    simp
  · rw [if_neg (by simpa using h), if_neg h]

/-- Two fields of which the lower ends where the higher begins. -/
theorem twoFields_getLsbD (x : Nat) {y lo mid n : Nat} (hm : lo ≤ mid) (hy : y < 2 ^ (mid - lo)) (hn : n < 64) :
    (BitVec.ofNat 64 (x * 2 ^ mid + y * 2 ^ lo)).getLsbD n =
      if n < lo then false else if n < mid then y.testBit (n - lo) else x.testBit (n - mid) := by
  have moved : x * 2 ^ mid + y * 2 ^ lo = (2 ^ (mid - lo) * x + y) * 2 ^ lo := by
    rw [Nat.add_mul, Nat.mul_right_comm, ← Nat.pow_add, Nat.sub_add_cancel hm, Nat.mul_comm x]
  rw [BitVec.getLsbD_ofNat, decide_eq_true hn, Bool.true_and, moved, Nat.testBit_mul_two_pow, Nat.testBit_two_pow_mul_add x hy]
  by_cases h : n < lo
  · simp [h, Nat.not_le.2 h]
  · have split_ : n - lo < mid - lo ↔ n < mid := by omega
    have rest : n - lo - (mid - lo) = n - mid := by omega
    simp [h, Nat.not_lt.1 h, split_, rest]

/-- Two such fields written one after the other are one write of what a mask leaves. -/
theorem setBits_setBits (w : W64) {hi mid lo x y : Nat} {m : W64} (hl : lo < mid) (hh : mid ≤ hi) (hx : x < 2 ^ (hi + 1 - mid))
    (hy : y < 2 ^ (mid - lo)) (hm : ∀ n < 64, m.getLsbD n = decide (n < lo ∨ hi < n)) :
    setBits (setBits w hi mid x) (mid - 1) lo y = (w &&& m) ||| BitVec.ofNat 64 (x * 2 ^ mid + y * 2 ^ lo) := by
  refine BitVec.eq_of_getLsbD_eq fun n hn => ?_
  rw [setBits_getLsbD _ _ _ _ hn, setBits_getLsbD _ _ _ _ hn, BitVec.getLsbD_or, BitVec.getLsbD_and, hm n hn,
    twoFields_getLsbD x hl.le hy hn]
  rcases lt_or_ge n lo with below | h1
  · simp [below, show ¬ lo ≤ n by omega, show ¬ mid ≤ n by omega]
  rcases lt_or_ge n mid with low | h2
  · simp [h1, low, show ¬ n < lo by omega, show n ≤ mid - 1 by omega, show ¬ hi < n by omega]
  rcases lt_or_ge hi n with above | h3
  · have none_ : x.testBit (n - mid) = false :=
      Nat.testBit_lt_two_pow (hx.trans_le (Nat.pow_le_pow_right Nat.two_pos (by omega)))
    simp [above, none_, show ¬ n < lo by omega, show ¬ n < mid by omega, show ¬ n ≤ mid - 1 by omega, show ¬ n ≤ hi by omega]
  · simp [h2, h3, show ¬ n < lo by omega, show ¬ n < mid by omega, show ¬ n ≤ mid - 1 by omega, show ¬ hi < n by omega]

/-- THR and POL of an `oacfg` (R152). -/
theorem setBits_config (w : W64) {thr pol : Nat} (ht : thr < 64) (hp : pol < 4) : setBits (setBits w 19 14 thr) 13 12 pol =
    (w &&& 0xFFFFFFFFFFF00FFF) ||| BitVec.ofNat 64 (thr * 2 ^ 14 + pol * 2 ^ 12) :=
  setBits_setBits w (by decide) (by decide) ht hp (by decide)

/-- CNT and APPS of an append (R152, R155). -/
theorem setBits_counts (w : W64) {cnt apps : Nat} (hc : cnt < 64) (ha : apps < 64) :
    setBits (setBits w 31 26 cnt) 25 20 apps = countsOf w cnt apps :=
  setBits_setBits w (by decide) (by decide) hc ha (by decide)

/-! ### Pivots (R151) -/

/-- A bit of packed lanes. -/
theorem packLanes_testBit {w : Nat} (hw : 0 < w) (xs : List Nat) (n : Nat) :
    (packLanes w xs).testBit n = (xs.getD (n / w) 0).testBit (n % w) := by
  induction xs generalizing n with
  | nil => simp [packLanes]
  | cons x xs ih =>
    rw [packLanes, Nat.add_comm, Nat.testBit_two_pow_mul_add _ (Nat.mod_lt _ (Nat.two_pow_pos w))]
    by_cases h : n < w
    · simp [h, Nat.div_eq_of_lt h, Nat.mod_eq_of_lt h, Nat.testBit_mod_two_pow]
    · have place : n / w = (n - w) / w + 1 := Nat.div_eq_sub_div hw (Nat.not_lt.1 h)
      rw [if_neg h, ih, place, List.getD_cons_succ, Nat.mod_eq_sub_mod (Nat.not_lt.1 h)]

theorem heldPiv_testBit (k : Core) (o : Fin 4) (j : Nat) {i : Nat} (hi : i < 5) :
    (heldPiv k o j).testBit i = k.oPiv[o].getLsbD (5 * j + i) := by
  rw [heldPiv, show 32 = 2 ^ 5 from rfl, Nat.testBit_mod_two_pow, Nat.testBit_div_two_pow, decide_eq_true hi, Bool.true_and, Nat.add_comm i]
  rfl

/-- PIV with the pivot of reflector `c` set. -/
theorem setPiv_eq (k : Core) (o : Fin 4) {c : Nat} (p : Nat) : setPiv k.oPiv[o] c p =
    BitVec.ofNat 160 (packLanes 5 ((List.range 32).map (fun j => if j = c then p else heldPiv k o j))) := by
  refine BitVec.eq_of_getLsbD_eq fun n hn => ?_
  have lane : n / 5 < 32 := by omega
  have bit : n % 5 < 5 := Nat.mod_lt _ (by decide)
  have mask : (BitVec.ofNat 160 (31 * 2 ^ (5 * c))).getLsbD n = decide (n / 5 = c) := by
    rw [BitVec.getLsbD_ofNat, show 31 = 2 ^ 5 - 1 from rfl, Nat.testBit_mul_two_pow, Nat.testBit_two_pow_sub_one, Bool.eq_iff_iff]
    simp only [hn, decide_true, Bool.true_and, Bool.and_eq_true, decide_eq_true_eq]
    omega
  unfold setPiv
  dsimp only
  rw [merge_getLsbD _ _ _ hn, mask, BitVec.getLsbD_ofNat, BitVec.getLsbD_ofNat, packLanes_testBit (by decide), getD_map_range _ _ lane,
    Nat.testBit_mul_two_pow, decide_eq_true hn]
  by_cases h : n / 5 = c
  · have place : n - 5 * c = n % 5 := by omega
    simp [h, place, show 5 * c ≤ n by omega]
  · rw [if_neg (by simpa using h), if_neg h, heldPiv_testBit k o _ bit, Nat.div_add_mod, Bool.true_and]

end Sys2Proof.Machine
end

section
/-! PROOFS. Appends, and the words of the orthogonal accumulators (R152 to R156). -/

namespace Sys2Proof.Machine

open Sys2Proof

/-! ### Flags of a list -/

theorem foldl_flags {α : Type} (xs : List (α × Flags)) (a : Flags) :
    xs.foldl (fun f x => f ||| x.2) a = a ||| xs.foldl (fun f x => f ||| x.2) 0 := by
  induction xs generalizing a with
  | nil => exact BitVec.or_zero.symm
  | cons x xs ih => rw [List.foldl_cons, List.foldl_cons, ih, ih (0 ||| x.2), zero_or_flags, BitVec.or_assoc]

/-- The flags of three lists, taken in the one order or the other. -/
theorem orAll_reversed {α β γ : Type} (a : Flags) (us : List (α × Flags)) (ys : List (β × Flags)) (ts : List (γ × Flags)) :
    us.foldl (fun f x => f ||| x.2) (ys.foldl (fun f x => f ||| x.2) (ts.foldl (fun f x => f ||| x.2) a)) =
      a ||| us.foldl (fun f x => f ||| x.2) 0 ||| ys.foldl (fun f x => f ||| x.2) 0 ||| ts.foldl (fun f x => f ||| x.2) 0 := by
  rw [foldl_flags us, foldl_flags ys, foldl_flags ts]
  ac_rfl

/-! ### What an append computes with (R155) -/

section Append

variable {k : Core} {o : Fin 4} {v : List Nat} {tau p : Nat}

/-- The codes of a reflector fill its 32 rows, and any past them stand above its pivot or at it. -/
structure Reflector (v : List Nat) (p : Nat) : Prop where
  rows : 32 ≤ v.length
  past : ∀ i, 32 ≤ i → i < v.length → i ≤ p

/-- An append that meets a NaN or an infinity. -/
def appendBad (v : List Nat) (tau p : Nat) : Bool :=
  notFinite (.dec .fp32 tau) || (List.range 32).any (fun i => notFinite (reflectorAt p (fun i => v.getD i 0) i))

theorem reflectorAt_finite {x : Nat → Nat} {i : Nat} (h : i ≤ p) : notFinite (reflectorAt p x i) = false := by
  unfold reflectorAt
  split
  · rfl
  · rw [if_pos (by omega)]
    rfl

theorem any_range_of_past {f : Nat → Bool} {n m : Nat} (hn : n ≤ m) (hp : ∀ i, n ≤ i → i < m → f i = false) :
    (List.range m).any f = (List.range n).any f := by
  rw [Bool.eq_iff_iff, List.any_eq_true, List.any_eq_true]
  constructor
  · rintro ⟨i, hi, hf⟩
    refine ⟨i, List.mem_range.2 (lt_of_not_ge fun h => ?_), hf⟩
    simp [hp i h (List.mem_range.1 hi)] at hf
  · rintro ⟨i, hi, hf⟩
    exact ⟨i, List.mem_range.2 ((List.mem_range.1 hi).trans_le hn), hf⟩

theorem any_effective (hr : Reflector v p) :
    (FVal.dec .fp32 tau :: effective p v).any (fun x => x.isNan || x.isInf) = appendBad v tau p := by
  rw [effective_eq, List.any_cons, List.any_map]
  exact congrArg (notFinite (.dec .fp32 tau) || ·)
    (any_range_of_past (f := fun i => notFinite (reflectorAt p (fun i => v.getD i 0) i)) hr.rows
      fun i h hi => reflectorAt_finite (hr.past i h hi))

/-- NV does not reach CNT. -/
theorem oaCnt_or_four (w : W64) : oaCnt (w ||| 4) = oaCnt w := by
  have field : bitsOf (w ||| 4) 31 26 = bitsOf w 31 26 := by
    refine Nat.eq_of_testBit_eq fun i => ?_
    have bit : (4 : Nat).testBit (i + 26) = false :=
      Nat.testBit_lt_two_pow ((by decide : 4 < 2 ^ 26).trans_le (Nat.pow_le_pow_right Nat.two_pos (Nat.le_add_left 26 i)))
    have four : (4 : W64).toNat = 4 := rfl
    rw [bitsOf, bitsOf, natBits, natBits, BitVec.toNat_or, four, Nat.testBit_mod_two_pow, Nat.testBit_mod_two_pow, Nat.testBit_div_two_pow,
      Nat.testBit_div_two_pow, Nat.testBit_or, bit, Bool.or_false]
  rw [oaCnt, oaCnt, field]

theorem oaCnt_noted (bad : Bool) : oaCnt (if bad then k.oStat[o] ||| oaNV else k.oStat[o]) = heldCnt k o := by
  cases bad with
  | false => exact oaCnt_eq k o
  | true => exact (oaCnt_or_four _).trans (oaCnt_eq k o)

/-- The products of the held reflectors with the new one. -/
def appendU (k : Core) (o : Fin 4) (v : List Nat) (p : Nat) : List (FVal × Flags) :=
  (List.range (heldCnt k o)).map (fun j => dotOf .fp32 32 (fun i => effV k o i j) (reflectorAt p (fun i => v.getD i 0)))

theorem chain_reflectors (hr : Reflector v p) : (reflectors k o).map (fun r => chain .fp32 r (effective p v)) = appendU k o v p := by
  rw [reflectors_eq, effective_eq, tableOf, List.map_map]
  exact List.map_congr_left fun j _ => chain_map_range .fp32 _ _ hr.rows

/-- T times those products. -/
def appendY (k : Core) (o : Fin 4) (v : List Nat) (p : Nat) : List (FVal × Flags) :=
  (List.range (heldCnt k o)).map (fun i => dotOf .fp32 (heldCnt k o) (valT k o i) (fun j => ((appendU k o v p).getD j (plusZero, 0)).1))

theorem chain_factorT : (factorT k o).map (fun r => chain .fp32 r ((appendU k o v p).map (·.1))) = appendY k o v p := by
  have places := eq_map_getD ((appendU k o v p).map (·.1)) plusZero (n := heldCnt k o) (by simp [appendU])
  rw [places, factorT_eq, tableOf, List.map_map]
  refine List.map_congr_left fun i _ => ?_
  rw [Function.comp_apply, chain_map_range .fp32 _ _ (Nat.le_refl _)]
  exact congrArg (dotOf .fp32 _ _) (funext fun j => List.getD_map _ (plusZero, 0) Prod.fst)

/-- An accumulator with one column changed. -/
theorem accRows_set (a : AccWord) (c : Nat) (col : Nat → Nat) :
    ((accRows a .fp32).zipIdx.map (fun r => r.1.set c (col r.2))).flatten =
      (List.range 1024).map (fun e => if e % 32 = c then col (e / 32) else accEl a .fp32 e) := by
  have rows : (accRows a .fp32).zipIdx.map (fun r => r.1.set c (col r.2)) =
      tableOf 32 32 (fun i j => if j = c then col i else accEl a .fp32 (32 * i + j)) := by
    rw [accRows_eq, tableOf, map_zipIdx_map_range]
    refine List.map_congr_left fun i _ => List.ext_getElem (by simp) fun j _ _ => ?_
    simp [List.getElem_set, eq_comm]
  rw [rows, flatten_tableOf]
  refine List.map_congr_left fun e _ => ?_
  rw [Nat.div_add_mod]

/-- T's new column above the diagonal. -/
def appendT (k : Core) (o : Fin 4) (v : List Nat) (tau p : Nat) : List (Nat × Flags) :=
  (appendY k o v p).map (fun y => fpMul .fp32 {} (FVal.dec .fp32 tau).neg y.1)

/-- The status word once NV is noted, and the flag that goes with it. -/
def appendStatus (k : Core) (o : Fin 4) (v : List Nat) (tau p : Nat) : W64 := if appendBad v tau p then k.oStat[o] ||| oaNV else k.oStat[o]

def appendFlags (v : List Nat) (tau p : Nat) : Flags := Flags.when (appendBad v tau p) Flags.iv

/-- The accumulator takes no further reflector: it is full, or its threshold is reached. -/
def AppendFull (k : Core) (o : Fin 4) (v : List Nat) (tau p : Nat) : Prop :=
  heldCnt k o = 32 ∨ (oaPol (appendStatus k o v tau p) = 0 ∧ oaThr (appendStatus k o v tau p) ≠ 0 ∧
    oaApps (appendStatus k o v tau p) + 1 = oaThr (appendStatus k o v tau p))

theorem appended155_full (h : AppendFull k o v tau p) : appended155 k o v tau p =
    if oaPol (appendStatus k o v tau p) = 0 then
      ([.oStat o (appendStatus k o v tau p), .recomp o (some (BitVec.ofNat 2048 (packLanes 32 v), BitVec.ofNat 32 tau, p))],
        appendFlags v tau p)
    else if oaPol (appendStatus k o v tau p) = 1 then
      ([.oStat o (appendStatus k o v tau p ||| oaRF), .stop .flagTrap 0], appendFlags v tau p ||| Flags.of)
    else ([.oStat o (appendStatus k o v tau p ||| oaRF)], appendFlags v tau p) :=
  if_pos h

theorem appendOa_full (hr : Reflector v p) (h : AppendFull k o v tau p) :
    ((appendOa k o v tau p).writes, (appendOa k o v tau p).flags) = appended155 k o v tau p := by
  rw [appended155_full h]
  unfold appendOa
  simp only [any_effective hr, oaCnt_noted]
  rw [if_pos (by simpa [AppendFull, appendStatus, and_assoc] using h)]
  unfold appendStatus
  match oaPol (if appendBad v tau p = true then k.oStat[o] ||| oaNV else k.oStat[o]) with
  | 0 => rfl
  | 1 => rfl
  | _ + 2 => rfl

theorem appendOa_grown (hr : Reflector v p) (h : ¬ AppendFull k o v tau p) :
    ((appendOa k o v tau p).writes, (appendOa k o v tau p).flags) = appended155 k o v tau p := by
  refine Eq.trans ?_ (if_neg h).symm
  unfold appendOa
  simp only [any_effective hr, oaCnt_noted, chain_reflectors hr, chain_factorT]
  rw [if_neg (by simpa [AppendFull, appendStatus, and_assoc] using h)]
  have counts := heldCnt_le k o
  refine congrArg₂ Prod.mk ?writes ?flags
  case writes =>
    have newV := accRows_set k.a[oaV o] (heldCnt k o) (fun i => if i < p then 0 else if i = p then tau else v.getD i 0)
    have newT := accRows_set k.a[oaT o] (heldCnt k o)
      (fun i => if i < heldCnt k o then ((appendT k o v tau p).getD i (0, 0)).1 else if i = heldCnt k o then tau else 0)
    rw [setBits_counts _ (by omega) (by omega), setPiv_eq]
    exact congrArg₂ (fun x y => [accWrite (oaV o) .fp32 x, accWrite (oaT o) .fp32 y, _, _]) newV newT
  case flags =>
    exact orAll_reversed (appendFlags v tau p) (appendU k o v p) (appendY k o v p) (appendT k o v tau p)

/-- What an append comes to. -/
theorem appendOa_eq (hr : Reflector v p) :
    ((appendOa k o v tau p).writes, (appendOa k o v tau p).flags) = appended155 k o v tau p := by
  by_cases h : AppendFull k o v tau p
  · exact appendOa_full hr h
  · exact appendOa_grown hr h

theorem appendOa_writes (hr : Reflector v p) : (appendOa k o v tau p).writes = (appended155 k o v tau p).1 :=
  congrArg Prod.fst (appendOa_eq hr)

theorem appendOa_flags (hr : Reflector v p) : (appendOa k o v tau p).flags = (appended155 k o v tau p).2 :=
  congrArg Prod.snd (appendOa_eq hr)

/-- The flags of an append include those of what makes it bad. -/
theorem appended155_flags : ∃ x, (appended155 k o v tau p).2 = x ||| appendFlags v tau p := by
  by_cases h : AppendFull k o v tau p
  · rw [appended155_full h]
    split
    · exact ⟨0, BitVec.zero_or.symm⟩
    · split
      · exact ⟨Flags.of, BitVec.or_comm ..⟩
      · exact ⟨0, BitVec.zero_or.symm⟩
  · have grown : (appended155 k o v tau p).2 = appendFlags v tau p ||| _ ||| _ ||| _ := congrArg Prod.snd (if_neg h)
    rw [grown, BitVec.or_assoc, BitVec.or_assoc]
    exact ⟨_, BitVec.or_comm ..⟩

/-- A signalling NaN of the reflector makes the append bad, so its flag is raised already. -/
theorem appended155_signals (hr : Reflector v p) :
    (appended155 k o v tau p).2 ||| signals (effective p v) = (appended155 k o v tau p).2 := by
  unfold signals
  cases hs : (effective p v).any (fun x => x = .nan true) with
  | false => exact BitVec.or_zero
  | true =>
    have bad : appendBad v tau p = true := by
      obtain ⟨x, hx, nan⟩ := List.any_eq_true.1 hs
      rw [← any_effective hr, List.any_eq_true]
      exact ⟨x, List.mem_cons_of_mem _ hx, by rw [of_decide_eq_true nan]; rfl⟩
    have fl : appendFlags v tau p = Flags.iv := by rw [appendFlags, bad]; rfl
    obtain ⟨x, hx⟩ := appended155_flags (k := k) (o := o) (v := v) (tau := tau) (p := p)
    rw [hx, fl]
    exact or_or_self x Flags.iv

end Append

/-! ### The words (R152, R154 to R156) -/

theorem pivotOf_eq (k : Core) (o : Fin 4) (kt : Fin 64) : pivotOf k o kt = if kt.val = 32 then Nat.min (heldCnt k o) 31 else kt.val := by
  rw [pivotOf, oaCnt_eq]

theorem row32_eq (k : Core) (vr : Fin 32) : row32 k vr = (List.range 32).map (fun i => velem k.v[vr] 32 i) := lanesOf_eq_map ..

theorem reflector_row32 (k : Core) (vr : Fin 32) (p : Nat) : Reflector (row32 k vr) p := by
  have len : (row32 k vr).length = 32 := by simp [row32_eq]
  exact ⟨len.ge, fun i h hi => by omega⟩

/-- Zeros above the pivot, and what R130 gives from the pivot on: one code at least. -/
theorem reflector_new (p : Nat) {xs : List Nat} (least : 32 - p ≤ xs.length) (most : xs.length ≤ 32 - p - 1 + 1) :
    Reflector (List.replicate p 0 ++ xs) p := by
  have len : (List.replicate p 0 ++ xs).length = p + xs.length := by simp
  exact ⟨by omega, fun i h hi => by omega⟩

/-- R130 gives one value below the pivot for each element but the first. -/
theorem house64_length {xs : List FVal} {r : FVal × FVal × List FVal} (h : house64 xs = some r) : r.2.2.length = xs.length - 1 := by
  unfold house64 at h
  dsimp only at h
  split at h
  · cases h
  · split at h
    · split at h <;> cases h <;> simp
    · cases h
      simp

theorem accMat_eq (k : Core) (ga : Fin 8) : accMat k ga = tableOf 32 32 (fun i j => .dec .fp32 (accEl k.a[ga] .fp32 (32 * i + j))) := by
  rw [accMat, accRows_eq, map_tableOf]

theorem identity_eq : (List.range 32).map (fun i => (List.range 32).map (fun c => if i = c then FVal.fin false 1 0 else zeroF)) =
    tableOf 32 32 (fun i j => .fin false (if i = j then 1 else 0) 0) :=
  tableOf_congr fun i _ j _ => by split <;> rfl

section Words

variable {s : State} {h : Hdr} {o : Fin 4} {i : Instr}

/-- An application of Q to a table of values, into an accumulator (R156). -/
theorem matrixWord_of_applyAcc {ga : Fin 8} {right xp : Bool} {m : Mat} {x : Nat → Nat → FVal} (hm : m = tableOf 32 32 x)
    (he : exec i s = s.applyAcc h o ga right xp m) :
    MatrixWord i s { h := h, names := [ga], busy := 72, oa := true, lat := 72
                     writes := [accWrite ga .fp32 (codes32 (applied156 s.curCore o right xp x 32).1)]
                     flags := (applied156 s.curCore o right xp x 32).2 } := by
  refine matrixWord_of_nodeWord he ?_
  rw [hm, applyQ_eq _ _ _ _ _ (fun _ => rfl)]
  rfl

theorem oacfg_word (sr : Fin 32) {n : NodeWord} (hn : orthSpec s.curCore (.oacfg h o sr) = some n) : MatrixWord (.oacfg h o sr) s n := by
  cases hn
  refine matrixWord_of_nodeWord rfl ?_
  rw [setBits_config]
  · rfl
  · exact Nat.mod_lt _ (by decide)
  · have := Nat.mod_lt ((s.curCore.rdS sr).toNat / 2 ^ 12) (y := 4) (by decide)
    split
    · decide
    · exact this

theorem oaapp_word (vr sr : Fin 32) (kt : Fin 64) {n : NodeWord} (hn : orthSpec s.curCore (.oaapp h o vr sr kt) = some n) :
    MatrixWord (.oaapp h o vr sr kt) s n := by
  cases hn
  refine matrixWord_of_nodeWord rfl ?_
  have tau : bitsOf (s.curCore.rdS sr) 31 0 = (s.curCore.rdS sr).toNat % 2 ^ 32 := bitsOf_low _ (w := 32) (by decide)
  have row := reflector_row32 s.curCore vr (pivotOf s.curCore o kt)
  rw [tau, appendOa_writes row, appendOa_flags row, appended155_signals row, pivotOf_eq]
  rfl

theorem oahh_word (vr sr : Fin 32) (kt : Fin 64) {n : NodeWord} (hn : orthSpec s.curCore (.oahh h o vr sr kt) = some n) :
    MatrixWord (.oahh h o vr sr kt) s n := by
  cases hn
  refine matrixWord_of_nodeWord rfl ?_
  have row : lanesOf 32 32 s.curCore.v[vr].toNat = row32 s.curCore vr := rfl
  have len : (((row32 s.curCore vr).drop (pivotOf s.curCore o kt)).map (FVal.dec .fp32)).length = 32 - pivotOf s.curCore o kt := by
    simp [row32_eq]
  rw [← pivotOf_eq, row]
  cases made : house64 (((row32 s.curCore vr).drop (pivotOf s.curCore o kt)).map (FVal.dec .fp32)) with
  | none =>
    have hr := reflector_new (pivotOf s.curCore o kt) (xs := List.replicate (32 - pivotOf s.curCore o kt) (Fmt.dnan .fp32))
      (by simp) (by simp; omega)
    dsimp only
    rw [appendOa_writes hr, appendOa_flags hr]
  | some r =>
    obtain ⟨tau, beta, below⟩ := r
    have below_len := (house64_length made).trans (congrArg (· - 1) len)
    have hr := reflector_new (pivotOf s.curCore o kt) (xs := 0 :: below.map (fun x => (x.finish .fp32 {}).1))
      (by simp [below_len]; omega) (by simp [below_len])
    simp only [List.map_map, List.foldl_map, Function.comp_def, appendOa_writes hr, appendOa_flags hr]

theorem oamv_word (vr : Fin 32) (xp : Bool) {n : NodeWord} (hn : orthSpec s.curCore (.oamv h o vr xp) = some n) :
    MatrixWord (.oamv h o vr xp) s n := by
  cases hn
  refine matrixWord_of_nodeWord rfl ?_
  have column : (row32 s.curCore vr).map (fun x => [FVal.dec .fp32 x]) =
      tableOf 32 1 (fun i _ => .dec .fp32 (velem s.curCore.v[vr] 32 i)) := by
    rw [row32_eq, List.map_map]
    rfl
  rw [column, applyQ_eq _ _ _ _ _ (by decide)]
  rfl

end Words

/-- Settles O31: each word is one result of the node; an append and an application of Q compute table by table what R155 and R156 say. -/
theorem matrixOrth : Obligations.MatrixOrth := by
  unfold Obligations.MatrixOrth
  intro i s n hi
  cases i with
  | oaclr h o | oastat h o sr | oarc h o =>
    cases hi
    exact matrixWord_of_nodeWord rfl rfl
  | oacfg h o sr => exact oacfg_word sr hi
  | oaapp h o vr sr kt => exact oaapp_word vr sr kt hi
  | oahh h o vr sr kt => exact oahh_word vr sr kt hi
  | oamv h o vr xp => exact oamv_word vr xp hi
  | oaml h o ga xp | oamr h o ga xp =>
    cases hi
    exact matrixWord_of_applyAcc (accMat_eq ..) rfl
  | oaform h o ga xp =>
    cases hi
    exact matrixWord_of_applyAcc identity_eq rfl
  | _ => cases hi

end Sys2Proof.Machine
end

section
/-! PROOFS. The statements about received tokens, `ld` and `st` fail as those about the V column do: a popped token (source 9 of R316) and an
access to another core (source 7) are counted, and a core that counts them notes the beat (`evcT`), which the statements keep. -/

namespace Sys2Proof.Machine

open Sys2Proof

/-- On beat 1 a word of the X column runs on core 0, as `k`. -/
def exchangeReady (k : Core) : State := { time := 1, cur := { col := .x }, pens := [{ live := true }], cores := [(0, k)] }

/-- Refutes O36, by the clause on `drop`: the token at port 0 of `fillingCore`, which counts popped tokens, is popped, and that moves
`evcT` from 0 to 1. -/
theorem not_portReceive : ¬ Obligations.PortReceive := by
  unfold Obligations.PortReceive
  intro hall
  obtain ⟨-, -, -, -, -, drops⟩ := hall (exchangeReady fillingCore) {} 0
  have dropped := drops 0 {} rfl
  have counted : countBeat (exec (.drop {} 0 0) (exchangeReady fillingCore)) = 1 := by decide +kernel
  exact not_after_of_counted (n := 0) (fun _ ht => ht.evcT) (by rw [counted]; decide) dropped

/-- Refutes O39, by the clause on an `ld` into a register: the load of one FP32 element by `farRecord`, which names another core, is not
refused, and on `loadingCore`, which counts such accesses, it moves `evcT` from 0 to 1. -/
theorem not_nearScalar : ¬ Obligations.NearScalar := by
  unfold Obligations.NearScalar
  intro hall
  let n : Ns := { br := 1, x := 0, ty := .fp32 }
  obtain ⟨-, -, -, loads, -⟩ := hall (exchangeReady loadingCore) {} n
  have active : isActive (exchangeReady loadingCore) {} := (isActive_iff _ _).2 (active_q0 _)
  have loaded := loads 1 active (by decide +kernel)
  have counted : countBeat (exec (.ld {} (.s 1) n) (exchangeReady loadingCore)) = 1 := by decide +kernel
  exact not_after_of_counted (n := 0) (fun _ ht => ht.evcT) (by rw [counted]; decide) loaded

end Sys2Proof.Machine
end

section
/-! PROOFS. Why the statement about `rxstat`, the tag table and `trmark` fails: it overlooks the key slot of the pen's context (R355). -/

namespace Sys2Proof.Machine

open Sys2Proof

/-- Context 1 maps its lowest addresses to device memory, and its descriptor names key slot 0. -/
def slotZeroCtx : Ctx :=
  { w := (Vector.replicate 8 0).set 2 (BitVec.ofNat 64 (2 ^ 62)), ranges := [(0, 0x10000, 0, 0x800000000000000C)] }

/-- Key slot 0 holds key 1 and is bound to context 5. A pen of context 1 has a sample buffer of 64 words at 0x1000, whose control block is
stored under key 1. -/
def foreignKey : State :=
  { pens := [{ live := true, ctx := 1, sbuf := 0x1000, ssize := 64 }], ctxs := [(1, slotZeroCtx)], keys := [(0, (1, 5))],
    crypt := [(0x1000, 1)] }

/-- How many rows a step leaves to do. -/
def rowsLeft : Out → Nat
  | .next t => t.todo.length
  | _ => 0

/-- The state that a write answers. -/
def written : Except XFault State → State
  | .ok t => t
  | .error _ => {}

theorem eq_ok_written {x : Except XFault State} (h : x.toOption.isSome = true) : x = .ok (written x) := by
  cases x with
  | ok t => rfl
  | error e => cases h

/-- Refutes O38, by the clause on a marker that has room: on `foreignKey` the control block can be read and the record written, but the
access is a context's whose key slot is bound to another, so `trmark` writes nothing and raises the alarm of R355, which has a row of its
own. The statement has no premise on the key slot. -/
theorem not_portStateWords : ¬ Obligations.PortStateWords := by
  unfold Obligations.PortStateWords
  intro hall
  obtain ⟨-, -, -, -, -, -, marks⟩ := hall foreignKey {}
  have active : isActive foreignKey {} := (isActive_iff _ _).2 (active_q0 _)
  have marked := marks 0 0 (List.replicate 24 0) _ _ active (by decide +kernel) (by decide +kernel) (by decide +kernel) (by decide +kernel)
    (by decide +kernel) (eq_ok_written (by decide +kernel)) (eq_ok_written (by decide +kernel))
  obtain ⟨t, ht, rfl⟩ := marked
  have alarmed : rowsLeft (exec (.trmark {} 0 0) foreignKey) = 1 := by decide +kernel
  rw [ht] at alarmed
  exact absurd alarmed (by decide +kernel)

end Sys2Proof.Machine
end

section
/-! PROOFS. Two statements that fail: one about a copy of a row overlooks source chunks that an earlier run of the job has found failed
(R256), one about a demand that has been delivered overlooks the clock that the answer of a release carries (R168, R291). -/

namespace Sys2Proof.Machine

open Sys2Proof

/-! ### A copy of a row (R256) -/

/-- A record that copies one element by descriptors 0 and 0, as it stands (R174). -/
def oneElementRecord : List Byte := bytesOf [BitVec.ofNat 64 (2 ^ 56 + 31 * 2 ^ 20), 0, 0, BitVec.ofNat 64 (2 ^ 32 + 2 ^ 16 + 1), 0, 0, 0, 0]

/-- An `lcopy` of the first element of `padRecord` onto itself, whose job has noted that source chunk 3 is poisoned. -/
def failedCopy : Job :=
  { cmd := { id := 0, word := .lcopy {} {}, ldl := oneElementRecord, img := leBytes 32 padRecord.toNat ++ leBytes 32 padRecord.toNat }
    fails := [(3, true)] }

/-- Engine 0 of die 0 has `failedCopy` to perform. -/
def copyReady : State :=
  { pens := [{ live := true }], dies := (Vector.replicate 4 {}).set 0 { ladle := (Vector.replicate 16 []).set 0 [failedCopy] } }

/-- The codes of the answers that wait after a step. -/
def answerCodes : Out → List Nat
  | .next t => t.dones.map (·.code)
  | _ => []

/-- Refutes O48, by its first clause: a job of `PlainJob` may have noted failed source chunks, and `failedCopy` is answered with POISON (11)
for the one it has noted, not with OK. -/
theorem not_engineSteps : ¬ Obligations.EngineSteps := by
  unfold Obligations.EngineSteps
  intro hall
  obtain ⟨copies, -⟩ := hall copyReady
  have plain : PlainJob failedCopy := by and_intros <;> rfl
  have record : failedCopy.cmd.ladleRec = some (LRec.ofWords (wordAt oneElementRecord)) := by decide +kernel
  have row : RowCopy (LRec.ofWords (wordAt oneElementRecord)) 1 := by and_intros <;> decide +kernel
  have source : NearRow (copyReady.pen 0) (BitVec.ofNat 256 (leNat (failedCopy.cmd.img.take 32))) 0 8 .fp32 := by
    and_intros <;> decide +kernel
  have target : NearRow (copyReady.pen 0) (BitVec.ofNat 256 (leNat (failedCopy.cmd.img.drop 32))) 0 8 .fp32 := by
    and_intros <;> decide +kernel
  obtain ⟨t, ht, -, dones, -⟩ := copies 0 0 failedCopy [] _ 1 0 0 8 8 .fp32 rfl plain rfl rfl rfl rfl record row (by decide +kernel) source
    target (.inl rfl) (by decide) (by decide) rfl rfl rfl rfl (by simp [NoAnswerDue, copyReady]) (by decide +kernel)
  have poisoned : answerCodes (exec (.ladleExecute 0 0) copyReady) = [11] := by decide +kernel
  rw [ht, answerCodes, dones] at poisoned
  exact absurd poisoned (by decide)

/-! ### A demand delivered (R168) -/

/-- A `dmd` whose ORD is a release at package scope. -/
def releasingDemand : Cmd := { id := 0, word := .dmd {} {}, o := { ord := .rel, sc := .package } }

/-- `releasingDemand` has posted tick 0 at a sink that has no ticks (LEN 0): it is past the end. -/
def demandPosted : State :=
  { pens := [{ live := true, du := {
      outs := [{ port := 0, dest := .sink, len := 0, queue := [{ ticks := [(0, 1)], asker := .dmd 0 }] }], posted := [(releasingDemand, 0)] } }] }

/-- Refutes O52, by the clause on the last tick of a demand: the answer to `releasingDemand` keeps the clock its release must be applied to
(R168, R291), and the statement wants one without a clock. -/
theorem not_demandSteps : ¬ Obligations.DemandSteps := by
  unfold Obligations.DemandSteps
  intro hall
  obtain ⟨-, -, -, -, -, -, -, delivers, -⟩ := hall demandPosted 0
  obtain ⟨t, ht, -, -, -, -, dones⟩ :=
    delivers 0 _ _ 0 (by decide) rfl rfl rfl rfl (Nat.le_refl 0) 0 releasingDemand rfl rfl rfl rfl rfl rfl
  have clocked : answerClocks (exec (.outputDelivery 0 0) demandPosted) ≠ [[]] := by decide +kernel
  rw [ht, answerClocks, dones] at clocked
  exact clocked rfl

end Sys2Proof.Machine
end

section
/-! PROOFS. What a bellwether notes when it reads, and one waiter of a die: it is tested on its word, and then goes, stays, or raises an alarm
(R167, R179, R355). -/

namespace Sys2Proof.Machine

open Sys2Proof

/-! ### What a change of a die keeps -/

theorem die_modDie_of_ne (s : State) {e d : Nat} (f : Die → Die) (hd : d ≠ e) : (s.modDie e f).die d = s.die d := by
  unfold State.modDie
  split
  · simp [State.die, hd.symm]
  · rfl

/-- A change of a die is known by what it makes of that die. -/
theorem modDie_congr {s : State} {d : Nat} {f g : Die → Die} (h : f (s.die d) = g (s.die d)) : s.modDie d f = s.modDie d g := by
  unfold State.modDie
  split
  · next hd =>
    have at_ : s.die d = s.dies[d] := by simp [State.die, hd]
    rw [← at_, h]
  · rfl

/-- What a change keeps of every die it keeps of each die of the package. -/
theorem die_modDie_keeps {α : Type} (g : Die → α) {f : Die → Die} (hf : ∀ x, g (f x) = g x) (s : State) (e d : Nat) :
    g ((s.modDie e f).die d) = g (s.die d) := by
  by_cases hd : d = e
  · subst hd
    by_cases h4 : d < 4
    · rw [die_modDie_self s f h4, hf]
    · simp [State.modDie, h4]
  · rw [die_modDie_of_ne s f hd]

/-! ### What a read of a bellwether notes (R295, R316, R341) -/

/-- A read that sends no request to a member may have counted, kept a translation or taken a line; the waiters are as they were. -/
structure ReadNoted (s t : State) : Prop where
  rest : t = { s with dies := t.dies, tlb := t.tlb, hostLines := t.hostLines }
  waits : ∀ d, (t.die d).waits = (s.die d).waits

theorem ReadNoted.refl (s : State) : ReadNoted s s := ⟨rfl, fun _ => rfl⟩

theorem ReadNoted.trans {s t u : State} (a : ReadNoted s t) (b : ReadNoted t u) : ReadNoted s u where
  rest := b.rest.trans (congrArg (fun x : State => { x with dies := u.dies, tlb := u.tlb, hostLines := u.hostLines }) a.rest :)
  waits d := (b.waits d).trans (a.waits d)

section
variable {s t : State} (h : ReadNoted s t)
include h

theorem ReadNoted.mem : t.mem = s.mem := (congrArg State.mem h.rest :)

theorem ReadNoted.cores : t.cores = s.cores := (congrArg State.cores h.rest :)

theorem ReadNoted.pens : t.pens = s.pens := (congrArg State.pens h.rest :)

theorem ReadNoted.svc : t.svc = s.svc := (congrArg State.svc h.rest :)

theorem ReadNoted.time : t.time = s.time := (congrArg State.time h.rest :)

end

theorem readNoted_modDie (s : State) (e : Nat) {f : Die → Die} (hf : ∀ x, (f x).waits = x.waits) : ReadNoted s (s.modDie e f) where
  rest := by
    unfold State.modDie
    split <;> rfl
  waits := die_modDie_keeps Die.waits hf s e

theorem readNoted_countDie (s : State) (e src n : Nat) : ReadNoted s (s.countDie e src n) := readNoted_modDie s e (fun _ => rfl)

theorem readNoted_tlbNote (s : State) (ctx va : Nat) : ReadNoted s (s.tlbNote ctx va) := by
  unfold State.tlbNote
  split
  · split
    · exact .refl s
    · exact ⟨rfl, fun _ => rfl⟩
  · exact .refl s

theorem readNoted_tlbUse (s : State) (die ctx va : Nat) : ReadNoted s (s.tlbUse die ctx va) := by
  unfold State.tlbUse
  split
  · exact .refl s
  · exact ((readNoted_countDie s die 11 1).trans (readNoted_countDie _ die 12 1)).trans (readNoted_tlbNote _ ctx va)

theorem readNoted_dieFlits (s : State) (a b : Nat) (back : Bool) : ReadNoted s (s.dieFlits a b back) := by
  unfold State.dieFlits
  dsimp only
  split
  · exact .refl s
  · split
    · exact (readNoted_countDie s a 8 1).trans (readNoted_countDie _ b 8 1)
    · exact readNoted_countDie s a 8 1

theorem readNoted_readNote (s : State) (die ctx : Nat) {pa : Nat} (hp : paPeer pa = false) : ReadNoted s (s.readNote die ctx pa) := by
  unfold State.readNote
  split
  · exact .refl s
  · rw [if_neg (by simp [hp])]
    exact (readNoted_countDie s _ 9 1).trans (readNoted_dieFlits _ _ _ _)

theorem readNoted_holdLine (s : State) (pl : List (Nat × Nat)) : ReadNoted s (s.holdLine pl) := by
  unfold State.holdLine
  split
  · split
    · exact ⟨rfl, fun _ => rfl⟩
    · exact .refl s
  · exact .refl s

/-- The first read of a word none of whose bytes is a member's. -/
theorem readNoted_firstRead (s : State) (die : Nat) (j : Job) {pl : List (Nat × Nat)} (hp : ∀ p ∈ pl, paPeer p.1 = false) :
    ReadNoted s (s.firstRead die j pl) := by
  unfold State.firstRead
  split
  · unfold State.bellRead
    split
    · next pa attr rest _ =>
      have own : paPeer pa = false := hp (pa, attr) List.mem_cons_self
      rw [if_neg (by simp [own])]
      exact (readNoted_tlbUse s die _ _).trans (readNoted_readNote _ die _ own)
    · exact .refl s
  · exact .refl s

/-- A run that leaves the flits as they are has sent no request to a member. -/
theorem peerNew_of_svc_eq {s t : State} (h : t.svc = s.svc) : s.peerNew t = [] := by
  simp [State.peerNew, h]

theorem not_peersOpen {s : State} {j : Job} (hd : NoAnswerDue s j) : s.peersOpen j.cmd.id = false := by
  simp only [State.peersOpen, List.any_eq_false, Bool.and_eq_true, decide_eq_true_eq, Option.isNone_iff_eq_none, not_and]
  exact hd

/-! ### What an `await` waits for (R89, R179) -/

theorem atomBytes_of_atomType {sub b : Nat} {z : Bool} (ht : atomType (sub % 8) = some (b, z)) : atomBytes sub = b := by
  unfold atomType at ht
  unfold atomBytes
  split at ht
  · next h => cases ht; simp [h]
  split at ht
  · next h => cases ht; simp [h]
  split at ht
  · next h => cases ht; simp [h]
  split at ht
  · next h => cases ht; simp [h]
  · cases ht

/-- Signed words compare as the integers of `atomInt`, which is `signed` at the word's width. -/
theorem awaitHolds_iff (n cc x y : Nat) : awaitHolds cc (8 * n) x y = true ↔ awaitSpec n cc x y := by
  unfold awaitHolds awaitSpec
  split
  · simp
  · simp
  · exact decide_eq_true_iff (p := signed (8 * n) x < signed (8 * n) y)
  · exact decide_eq_true_iff (p := signed (8 * n) x ≤ signed (8 * n) y)
  · simp
  · next h0 h1 h2 h3 h4 => rw [if_neg h0, if_neg h1, if_neg h2, if_neg h3, if_neg h4, decide_eq_true_eq]

section
variable {m : Cmd} (hl : ∀ f o, m.word ≠ .liter f o)
include hl

theorem holds_iff {b : Nat} {z : Bool} (ht : atomType (m.o.sub.val % 8) = some (b, z)) (v : Nat) :
    m.holds v = true ↔ awaitSpec b (m.o.sub.val / 8 % 8) v (m.a.toNat % 2 ^ (8 * b)) := by
  rw [← awaitHolds_iff, ← atomBytes_of_atomType ht]
  unfold Cmd.holds
  split
  · next f o hw => exact absurd hw (hl f o)
  · rfl

end

end Sys2Proof.Machine
end

section
/-! PROOFS. One waiter of a die (R167, R179, R181, R355): it is tested on its word, and then goes, stays, or raises an alarm; and its deadline. -/

namespace Sys2Proof.Machine

open Sys2Proof

/-! ### A waiter is taken off its die -/

/-- The state in which waiter `n` of a die is tested: it is off the list. -/
def State.dropWaiter (s : State) (die n : Nat) : State := s.modDie die (fun x => { x with waits := (s.die die).waits.eraseIdx n })

theorem modDie_eraseWaiter (s : State) (die n : Nat) :
    s.modDie die (fun x => { x with waits := x.waits.eraseIdx n }) = s.dropWaiter die n := modDie_congr rfl

theorem lt_four_of_waits {s : State} {die n : Nat} {j : Job} (hw : (s.die die).waits[n]? = some j) : die < 4 := by
  by_contra hd
  rw [die_of_le s (Nat.le_of_not_lt hd)] at hw
  cases hw

theorem dropWaiter_waits (s : State) {die : Nat} (hd : die < 4) (n : Nat) :
    ((s.dropWaiter die n).die die).waits = (s.die die).waits.eraseIdx n := by
  rw [State.dropWaiter, die_modDie_self s _ hd]

theorem dropWaiter_svc (s : State) (die n : Nat) : (s.dropWaiter die n).svc = s.svc := modDie_svc s die _

theorem dropWaiter_dones (s : State) (die n : Nat) : (s.dropWaiter die n).dones = s.dones := modDie_dones s die _

theorem dropWaiter_mem (s : State) (die n : Nat) : (s.dropWaiter die n).mem = s.mem := modDie_mem s die _

theorem dropWaiter_cores (s : State) (die n : Nat) : (s.dropWaiter die n).cores = s.cores := modDie_cores s die _

theorem dropWaiter_pens (s : State) (die n : Nat) : (s.dropWaiter die n).pens = s.pens := modDie_pens s die _

/-- Memory reads the same with the waiter as without it. -/
theorem places_dropWaiter (s : State) (die n ctx va len : Nat) (acc : Acc) :
    (s.dropWaiter die n).places ctx va len acc = s.places ctx va len acc := by
  unfold State.dropWaiter State.modDie
  split
  · exact placesAux_withDies s _ ctx acc len va none
  · rfl

theorem readPlaces_dropWaiter (s : State) (die n : Nat) (r : Reader) (pl : List (Nat × Nat)) :
    (s.dropWaiter die n).readPlaces r pl none = s.readPlaces r pl none := by
  unfold State.dropWaiter State.modDie
  split
  · exact readPlaces_withDies s _ r pl none
  · rfl

theorem home_dropWaiter (s : State) (die n ctx : Nat) : (s.dropWaiter die n).home ctx = s.home ctx := by
  unfold State.dropWaiter State.modDie
  split <;> rfl

/-! ### The end of a synchronisation word (R167) -/

theorem acq_unordered {m : Cmd} (ho : m.o.ord = .none) (s : State) : s.acq m = s := by
  simp [State.acq, not_acquires ho]

theorem rel_unordered {m : Cmd} (ho : m.o.ord = .none) (s : State) : s.rel m = s := by
  simp [State.rel, not_releases ho]

/-- A pen waits for fewer words than before, and for none with the number of the one that ended. -/
theorem syncEnd_syncs (s : State) (m : Cmd) (h : Nat) : ∀ x ∈ ((s.syncEnd m).pen h).syncs, x ∈ (s.pen h).syncs ∧ (h = m.pen → x.id ≠ m.id) := by
  intro x hx
  by_cases hh : h = m.pen
  · subst hh
    by_cases lt : m.pen < s.pens.length
    · rw [State.syncEnd, pen_modPen_self s _ lt] at hx
      obtain ⟨mem, hid⟩ := List.mem_filter.1 hx
      exact ⟨mem, fun _ => by simpa using hid⟩
    · have none_ : ((s.syncEnd m).pen m.pen).syncs = [] := by
        simp [State.syncEnd, State.modPen, State.setPen, State.pen, lt]
      rw [none_] at hx
      cases hx
  · rw [State.syncEnd, pen_modPen_of_ne s _ hh] at hx
    exact ⟨hx, fun e => absurd e hh⟩

/-- A run for a context whose key slot is its own, which has sent no request to a member, stands. -/
theorem keyGuard_peerGate_own {s t : State} {ctx : Nat} (hk : s.keyBound ctx = true) (ht : t.svc = s.svc) (die id : Nat)
    (fail : Nat → Nat → Nat → State) : s.keyGuard die ctx (s.peerGate id t fail) = .next t := by
  rw [keyGuard_bound hk, peerGate_none (peerNew_of_svc_eq ht)]

/-! ### A waiter is tested (R179, R355) -/

section
variable {s : State} {die n : Nat} {j : Job} (hw : (s.die die).waits[n]? = some j) (hq : QuietJob j)
include hw hq

/-- A `bwait` whose barrier has gone on is done. -/
theorem awaitRecheck_bwait {f : Hdr} {o : F6} (hb : j.cmd.word = .bwait f o) (hdone : s.bwaitDone die j.cmd = true) :
    exec (.awaitRecheck die n) s = .next ((s.dropWaiter die n).syncEnd j.cmd) := by
  obtain ⟨hp, -, ho⟩ := hq
  show execAwaitRecheck die n s = _
  simp [execAwaitRecheck, hw, hp, hb, hdone, acq_unordered ho, State.dropWaiter]

variable (hd : NoAnswerDue s j) (hb : ∀ f o, j.cmd.word ≠ .bwait f o)
include hd hb

/-- Under the key slot of another context the alarm is all that comes of it. -/
theorem awaitRecheck_unbound (hk : s.keyBound j.cmd.ctx = false) :
    exec (.awaitRecheck die n) s = .next (s.alarmB die j.cmd.ctx) := by
  obtain ⟨hp, -, -⟩ := hq
  show execAwaitRecheck die n s = _
  unfold execAwaitRecheck
  simp only [hw, hp, Option.isSome_none, Bool.false_eq_true, if_false, not_peersOpen hd]
  exact keyGuard_unbound hk die _

variable (hk : s.keyBound j.cmd.ctx = true) {u : State} (hu : u.svc = s.svc)
include hk hu

/-- A test that releases its pen. -/
theorem awaitRecheck_released (run : (s.dropWaiter die n).bellJob die j = (u, .released)) :
    exec (.awaitRecheck die n) s = .next (u.syncEnd j.cmd) := by
  obtain ⟨hp, -, -⟩ := hq
  show execAwaitRecheck die n s = _
  unfold State.dropWaiter at run
  unfold execAwaitRecheck
  simp only [hw, hp, Option.isSome_none, Bool.false_eq_true, if_false, not_peersOpen hd, run]
  exact keyGuard_peerGate_own hk (t := u.syncEnd j.cmd) hu _ _ _

/-- A test after which it goes on waiting, in its place. -/
theorem awaitRecheck_waits {j' : Job} (run : (s.dropWaiter die n).bellJob die j = (u, .wait j')) :
    exec (.awaitRecheck die n) s =
      .next (u.modDie die (fun x => { x with waits := x.waits.take n ++ [j'] ++ x.waits.drop n })) := by
  obtain ⟨hp, -, -⟩ := hq
  show execAwaitRecheck die n s = _
  unfold State.dropWaiter at run
  unfold execAwaitRecheck
  simp only [hw, hp, Option.isSome_none, Bool.false_eq_true, if_false, not_peersOpen hd, run]
  exact keyGuard_peerGate_own hk ((modDie_svc u die _).trans hu) _ _ _

end

/-! ### The word of an `await` is tested (R179) -/

/-- A list from which one element was taken and put back changed. -/
theorem eraseIdx_put_back {α : Type} (l : List α) {n : Nat} (hn : n < l.length) (x : α) :
    (l.eraseIdx n).take n ++ [x] ++ (l.eraseIdx n).drop n = l.set n x := by
  rw [List.set_eq_take_append_cons_drop, if_pos hn, List.eraseIdx_eq_take_drop_succ]
  have len : (l.take n).length = n := by simp; omega
  rw [List.take_append_of_le_length (by omega), List.drop_append_of_le_length (by omega)]
  simp [List.take_take, List.drop_of_length_le (Nat.le_of_eq len)]

/-- What the test of an aligned word comes to, with the bytes it reads. -/
theorem awaitJob_read {s : State} {j : Job} {b : Nat} {z : Bool} {pl : List (Nat × Nat)} {bs : List Byte} (die : Nat)
    (ho : j.cmd.o.ord = .none) (hs : j.cmd.sync = true)
    (ht : atomType (j.cmd.o.sub.val % 8) = some (b, z)) (ha : j.cmd.cmd.toNat % b = 0) (hp : s.places j.cmd.ctx j.cmd.cmd.toNat b .rd = .ok pl)
    (hr : s.readPlaces (s.home j.cmd.ctx) pl none = .ok bs) :
    s.awaitJob die j = ((s.holdLine pl).firstRead die j pl, if (j.hit (leNat bs)).isSome then .released
      else .wait { j with got := [(leNat bs, 0, 0)], watch := pl, seen := [] }) := by
  have late : ∀ t : State, (if j.list = [] then t.deadline j.cmd else j.list) = j.list := by
    intro t
    split
    · next hl => simp [State.deadline, hs, hl]
    · rfl
  unfold State.awaitJob
  simp only [atomBytes_of_atomType ht, ha, bne_self_eq_false, Bool.false_eq_true, if_false, hp, hr, hs, if_true, acq_unordered ho, late]
  cases j.hit (leNat bs) <;> rfl

theorem hit_isSome_iff (j : Job) (now : Nat) : (j.hit now).isSome = true ↔ ∃ v ∈ j.seen ++ [now], j.cmd.holds v = true := by
  rw [Job.hit, List.find?_isSome]

end Sys2Proof.Machine
end

section
/-! PROOFS. A synchronous `await` and its word, and the deadline of an asynchronous one (R167, R179). -/

namespace Sys2Proof.Machine

open Sys2Proof

/-! ### A synchronous `await` is tested on its word (R179) -/

section
variable {s : State} {die n : Nat} {j : Job} {f : Hdr} {o : F6} {b : Nat} {z : Bool} {pl : List (Nat × Nat)} {bs : List Byte}
  (hw : (s.die die).waits[n]? = some j) (hq : QuietJob j) (hm : j.cmd.word = .awaitSync f o) (hs : j.cmd.sync = true)
  (ht : atomType (j.cmd.o.sub.val % 8) = some (b, z)) (ha : j.cmd.cmd.toNat % b = 0)
  (hp : s.places j.cmd.ctx j.cmd.cmd.toNat b .rd = .ok pl) (hr : s.readPlaces (s.home j.cmd.ctx) pl none = .ok bs)
include hq hm hs ht ha hp hr

/-- What its test comes to, in the state that has read the word. -/
theorem bellJob_awaitSync :
    (s.dropWaiter die n).bellJob die j = (((s.dropWaiter die n).holdLine pl).firstRead die j pl,
      if (j.hit (leNat bs)).isSome then .released else .wait { j with got := [(leNat bs, 0, 0)], watch := pl, seen := [] }) := by
  obtain ⟨-, hup, ho⟩ := hq
  rw [← awaitJob_read die ho hs ht ha ((places_dropWaiter ..).trans hp) (by rw [home_dropWaiter, readPlaces_dropWaiter, hr])]
  simp [State.bellJob, hup, hm]

variable (own : ∀ p ∈ pl, paPeer p.1 = false)
include own

omit hq hm hs ht ha hp hr in
theorem readNoted_await : ReadNoted (s.dropWaiter die n) (((s.dropWaiter die n).holdLine pl).firstRead die j pl) :=
  (readNoted_holdLine _ pl).trans (readNoted_firstRead _ die j own)

variable (hd : NoAnswerDue s j) (hk : s.keyBound j.cmd.ctx = true)
include hw hd hk

/-- The word as it stands, or a value written there since the last test, releases it. -/
theorem awaitSync_released
    (hit : ∃ v ∈ j.seen ++ [leNat bs], awaitSpec b (j.cmd.o.sub.val / 8 % 8) v (j.cmd.a.toNat % 2 ^ (8 * b))) :
    After (exec (.awaitRecheck die n) s) (fun t => (∀ m ∈ (t.pen j.cmd.pen).syncs, m.id ≠ j.cmd.id) ∧ t.mem = s.mem ∧
      t.cores = s.cores ∧ (t.die die).waits = (s.die die).waits.eraseIdx n) := by
  have noted := readNoted_await (s := s) (die := die) (n := n) (j := j) own
  have found : (j.hit (leNat bs)).isSome = true := by
    rw [hit_isSome_iff]
    simpa only [holds_iff (by simp [hm]) ht] using hit
  have run := bellJob_awaitSync (die := die) (n := n) hq hm hs ht ha hp hr
  rw [if_pos found] at run
  refine ⟨_, awaitRecheck_released hw hq hd (by simp [hm]) hk (noted.svc.trans (dropWaiter_svc s die n)) run, ?_⟩
  refine ⟨fun m hm => (syncEnd_syncs _ _ _ m hm).2 rfl, noted.mem.trans (dropWaiter_mem s die n), noted.cores.trans (dropWaiter_cores s die n), ?_⟩
  exact (noted.waits die).trans (dropWaiter_waits s (lt_four_of_waits hw) n)

/-- Another waits on, and notes what it saw. -/
theorem awaitSync_waits
    (miss : ∀ v ∈ j.seen ++ [leNat bs], ¬ awaitSpec b (j.cmd.o.sub.val / 8 % 8) v (j.cmd.a.toNat % 2 ^ (8 * b))) :
    After (exec (.awaitRecheck die n) s) (fun t => t.pens = s.pens ∧ t.mem = s.mem ∧ t.cores = s.cores ∧
      (t.die die).waits = (s.die die).waits.set n { j with got := [(leNat bs, 0, 0)], watch := pl, seen := [] }) := by
  have noted := readNoted_await (s := s) (die := die) (n := n) (j := j) own
  have none_ : ¬ (j.hit (leNat bs)).isSome = true := by
    rw [hit_isSome_iff]
    simpa only [holds_iff (by simp [hm]) ht, not_exists, not_and] using miss
  have run := bellJob_awaitSync (die := die) (n := n) hq hm hs ht ha hp hr
  rw [if_neg none_] at run
  refine ⟨_, awaitRecheck_waits hw hq hd (by simp [hm]) hk (noted.svc.trans (dropWaiter_svc s die n)) run, ?_⟩
  dsimp only
  rw [modDie_pens, modDie_mem, modDie_cores, die_modDie_self _ _ (lt_four_of_waits hw), noted.waits, dropWaiter_waits s (lt_four_of_waits hw)]
  refine ⟨noted.pens.trans (dropWaiter_pens s die n), noted.mem.trans (dropWaiter_mem s die n), noted.cores.trans (dropWaiter_cores s die n), ?_⟩
  exact eraseIdx_put_back _ (List.getElem?_eq_some_iff.1 hw).1 _

end

/-! ### The deadline of an asynchronous `await` (R179) -/

section
variable {s : State} {die n : Nat} {j : Job} {due : Nat} {more : List Nat} (hw : (s.die die).waits[n]? = some j) (hl : j.list = due :: more)
include hw hl

/-- Before its deadline, or with a value that satisfies it to be found, nothing comes of it. -/
theorem awaitTimeout_waits (h : s.time < due ∨ ∃ v ∈ j.seen, j.cmd.holds v = true) : exec (.awaitTimeout die n) s = .next s := by
  show execAwaitTimeout die n s = _
  have waits : (decide (s.time < due) || j.seen.any j.cmd.holds) = true := by simpa using h
  simp [execAwaitTimeout, hw, hl, waits]

/-- Past it, and with no such value, it answers TIMEOUT (8) with the last value. -/
theorem awaitTimeout_answers (ho : j.cmd.o.ord = .none) (past : due ≤ s.time) (miss : ∀ v ∈ j.seen, ¬ j.cmd.holds v = true) :
    After (exec (.awaitTimeout die n) s) (fun t => t.dones = s.dones ++ [{
        cmd := j.cmd, eng := 2, die := die, code := 8, value := BitVec.ofNat 64 (j.seen.getLastD ((j.got.map (·.1)).headD 0)) }] ∧
      (t.die die).waits = (s.die die).waits.eraseIdx n ∧ t.mem = s.mem) := by
  have last : (j.got.headD (0, 0, 0)).1 = (j.got.map (·.1)).headD 0 := by cases j.got <;> rfl
  have passed : (decide (s.time < due) || j.seen.any j.cmd.holds) = false := by
    simpa using ⟨past, fun v hv => Bool.eq_false_iff.2 (miss v hv)⟩
  have run : exec (.awaitTimeout die n) s = .next ((s.dropWaiter die n).answer (bwDone die j.cmd 8 0
      (BitVec.ofNat 64 (j.seen.getLastD ((j.got.map (·.1)).headD 0))))) := by
    show execAwaitTimeout die n s = _
    simp only [execAwaitTimeout, hw, hl, passed, Bool.false_eq_true, if_false, last, modDie_eraseWaiter]
  refine ⟨_, run, ?_⟩
  rw [answer_unordered ho _ rfl (by simp [bwDone]) rfl]
  exact ⟨by rw [dropWaiter_dones]; rfl, dropWaiter_waits s (lt_four_of_waits hw) n, dropWaiter_mem s die n⟩

end

end Sys2Proof.Machine
end

section
/-! PROOFS. Barriers (R181): an arrival is counted, and the one that completes the count releases every waiting pen. -/

namespace Sys2Proof.Machine

open Sys2Proof

/-- The highest number that an arrival may name is 4 for a quad, 192 for a die, and 2^32 otherwise. -/
theorem barLimit_eq (sc : Scope) : barLimit sc = (match sc with | .quad => 4 | .die => 192 | _ => 2 ^ 32) := by
  cases sc <;> rfl

/-- A barrier below the pod is named by its word alone: no context lends it a tag. -/
theorem barKey_congr {m : Cmd} (hsc : m.o.sc ≠ .pod) (s t : State) : s.barKey m = t.barKey m := by
  simp only [State.barKey, hsc, if_false]

theorem not_podBar {m : Cmd} (hsc : m.o.sc ≠ .pod) (s : State) : s.podBar m = false := by
  simp [State.podBar, hsc]

/-! ### An arrival leaves the queue of its die -/

/-- The state in which an arrival is counted: those after it are still to come. -/
def State.takeArrival (s : State) (die : Nat) (rest : List Cmd) : State := s.modDie die (fun x => { x with arrivals := rest })

theorem lt_four_of_arrivals {s : State} {die : Nat} {m : Cmd} {rest : List Cmd} (ha : (s.die die).arrivals = m :: rest) : die < 4 := by
  by_contra hd
  rw [die_of_le s (Nat.le_of_not_lt hd)] at ha
  cases ha

theorem die_takeArrival (s : State) {die : Nat} (hd : die < 4) (rest : List Cmd) :
    (s.takeArrival die rest).die die = { s.die die with arrivals := rest } := die_modDie_self s _ hd

/-- Arrivals that place no release ask for none. -/
theorem arrivalsRelease_unordered {s : State} {die : Nat} (ho : ∀ x ∈ (s.die die).arrivals, x.o.ord = .none) : s.arrivalsRelease die = s := by
  refine List.foldlRecOn (motive := (· = s)) _ _ rfl fun t ht x hx => ?_
  have quiet : t.arrivalWide x.1 = false := by
    simp [State.arrivalWide, not_releases (ho _ (List.fst_mem_of_mem_zipIdx hx))]
  rw [quiet]
  exact ht

theorem askFlush_each_unordered {s : State} {ms : List Cmd} (ho : ∀ x ∈ ms, x.o.ord = .none) :
    ms.foldl (fun s m => s.askFlush m false) s = s :=
  List.foldlRecOn (motive := (· = s)) _ _ rfl fun t ht x hx => by
    rw [askFlush_unordered (ho x hx), ht]

theorem arrivalReady_unordered {m : Cmd} (ho : m.o.ord = .none) (s : State) : s.arrivalReady m = true := by
  simp [State.arrivalReady, State.arrivalWide, not_releases ho, mayRelease_unordered ho]

/-- The first arrival is counted. -/
theorem barrierCount_first {s : State} {die : Nat} {m : Cmd} {rest : List Cmd} (ha : (s.die die).arrivals = m :: rest)
    (ho : m.o.ord = .none) (hr : ∀ x ∈ rest, x.o.ord = .none) :
    exec (.barrierCount die) s = .next ((s.takeArrival die rest).barCount die m) := by
  have all : ∀ x ∈ (s.die die).arrivals, x.o.ord = .none := by
    rw [ha]
    exact List.forall_mem_cons.2 ⟨ho, hr⟩
  show execBarrierCount die s = _
  unfold execBarrierCount
  simp only [arrivalsRelease_unordered all, askFlush_each_unordered all]
  simp [ha, List.findIdx?_cons, arrivalReady_unordered ho, State.takeArrival]

/-! ### An arrival is counted -/

/-- A barrier after an arrival that names `n`; a `bar` waits there. -/
def Barrier.join (b : Barrier) (n : Nat) (ms : List Cmd) : Barrier :=
  { b with expected := n, count := b.count + 1, waiting := b.waiting ++ ms }

def State.putBar (s : State) (die key : Nat) (b : Barrier) : State := s.modDie die (fun x => { x with bars := Tab.put x.bars key b })

theorem die_putBar (s : State) {die : Nat} (hd : die < 4) (key : Nat) (b : Barrier) :
    (s.putBar die key b).die die = { s.die die with bars := Tab.put (s.die die).bars key b } := die_modDie_self s _ hd

section
variable {m : Cmd} (hsc : m.o.sc ≠ .pod) (ho : m.o.ord = .none) (h1 : 1 ≤ m.a.toNat)
  (hn : m.a.toNat ≤ (match m.o.sc with | .quad => 4 | .die => 192 | _ => 2 ^ 32))
include hsc ho h1 hn

omit hsc ho h1 in
theorem not_tooMany : m.tooMany = false := by
  rw [← barLimit_eq] at hn
  simp [Cmd.tooMany, Nat.not_lt.2 hn]

omit hsc ho in
theorem not_badNumber : m.badNumber = false := by
  have top : m.a.toNat ≤ 2 ^ 32 := by
    refine hn.trans ?_
    cases m.o.sc <;> decide
  simp only [Cmd.badNumber, Nat.not_lt.2 top, Nat.ne_of_gt h1, decide_false, Bool.or_false]

variable {s : State} {die : Nat} {b : Barrier} (hb : b = (Tab.find (s.die die).bars (s.barKey m)).getD {})
  (he : b.count = 0 ∨ b.expected = m.a.toNat)
include hb he

/-- A `bar` joins those that wait; with the number that all name, the barrier releases. -/
theorem barCount_bar {f : Hdr} {o : F6} (hw : m.word = .bar f o) :
    s.barCount die m =
      if m.a.toNat ≤ b.count + 1 then (s.putBar die (s.barKey m) (b.join m.a.toNat [m])).barRelease die (s.barKey m)
      else s.putBar die (s.barKey m) (b.join m.a.toNat [m]) := by
  have named : (if b.count = 0 then m.a.toNat else b.expected) = m.a.toNat := by
    split <;> simp_all
  unfold State.barCount
  simp only [not_tooMany hn, not_badNumber h1 hn, Bool.false_eq_true, if_false, rel_unordered ho, ite_self, ← hb, named,
    bne_self_eq_false, Bool.false_and, hw, not_podBar hsc]
  rfl

/-- An `arrive` is answered with the generation it joins, which its core notes (R181). -/
theorem barCount_arrive {f : Hdr} {o : F6} (hw : m.word = .arrive f o) (few : b.count + 1 < m.a.toNat) :
    s.barCount die m = ((((s.putBar die (s.barKey m) (b.join m.a.toNat [])).modCore m.core
      (fun k => { k with arrGen := Tab.put k.arrGen (s.barKey m) b.gen })).answer
        (bwDone die m 0 0 (BitVec.ofNat 64 (b.gen % 2 ^ 32))))) := by
  have named : (if b.count = 0 then m.a.toNat else b.expected) = m.a.toNat := by
    split <;> simp_all
  unfold State.barCount
  simp only [not_tooMany hn, not_badNumber h1 hn, Bool.false_eq_true, if_false, rel_unordered ho, ite_self, ← hb, named,
    bne_self_eq_false, Bool.false_and, hw, not_podBar hsc, if_true, if_neg (Nat.not_le.2 few)]
  simp [Barrier.join, State.putBar]

end

/-! ### A barrier releases -/

/-- One `bar` after another is done, with its acquire. -/
theorem syncEnds_dies {ws : List Cmd} (ho : ∀ w ∈ ws, w.o.ord = .none) (s : State) :
    (ws.foldl (fun s m => (s.acq m).syncEnd m) s).dies = s.dies :=
  List.foldlRecOn (motive := fun t : State => t.dies = s.dies) _ _ rfl fun t ht w hw => by
    rw [acq_unordered (ho w hw)]
    exact ht

/-- None of them waits after that. -/
theorem syncEnds_syncs {ws : List Cmd} (ho : ∀ w ∈ ws, w.o.ord = .none) (s : State) :
    ∀ w ∈ ws, ∀ x ∈ ((ws.foldl (fun s m => (s.acq m).syncEnd m) s).pen w.pen).syncs, x.id ≠ w.id := by
  induction ws generalizing s with
  | nil => simp
  | cons v ws ih =>
    obtain ⟨hv, hws⟩ := List.forall_mem_cons.1 ho
    intro w hw x hx
    rw [List.foldl_cons, acq_unordered hv] at hx
    rcases List.mem_cons.1 hw with rfl | hw
    · have stays : ∀ t : State, (∀ y ∈ (t.pen w.pen).syncs, y.id ≠ w.id) →
          ∀ y ∈ ((ws.foldl (fun s m => (s.acq m).syncEnd m) t).pen w.pen).syncs, y.id ≠ w.id := fun t ht =>
        List.foldlRecOn (motive := fun t : State => ∀ y ∈ (t.pen w.pen).syncs, y.id ≠ w.id) _ _ ht fun t ht v hv y hy => by
          rw [acq_unordered (hws v hv)] at hy
          exact ht y (syncEnd_syncs t v w.pen y hy).1
      exact stays _ (fun y hy => (syncEnd_syncs s w w.pen y hy).2 rfl) x hx
    · exact ih hws _ w hw x hx

section
variable {s : State} {die key : Nat} {b : Barrier} (hb : Tab.find (s.die die).bars key = some b) (ho : ∀ w ∈ b.waiting, w.o.ord = .none)
include hb ho

/-- The next generation of a barrier starts with nothing counted. -/
theorem die_barRelease (hd : die < 4) :
    (s.barRelease die key).die die = { s.die die with bars := Tab.put (s.die die).bars key { gen := b.gen + 1 } } := by
  unfold State.barRelease
  simp only [hb, Option.getD_some]
  rw [State.die, syncEnds_dies ho]
  exact die_putBar s hd key { gen := b.gen + 1 }

theorem barRelease_syncs : ∀ w ∈ b.waiting, ∀ x ∈ ((s.barRelease die key).pen w.pen).syncs, x.id ≠ w.id := by
  unfold State.barRelease
  simp only [hb, Option.getD_some]
  exact syncEnds_syncs ho _

end

end Sys2Proof.Machine
end

section
/-! PROOFS. Waits, deadlines and barriers: O49. -/

namespace Sys2Proof.Machine

open Sys2Proof

/-- A `bwait` before any `arrive` of its core may go on. -/
theorem bwaitDone_of_none {s : State} {die : Nat} {m : Cmd} (ha : (s.die die).arrivals = [])
    (hg : Tab.find (s.core m.core).arrGen (s.barKey m) = none) : s.bwaitDone die m = true := by
  simp [State.bwaitDone, ha, hg]

section
variable {s : State} {die : Nat} {m : Cmd} {rest : List Cmd} (ha : (s.die die).arrivals = m :: rest)
include ha

/-- The die once the arrival is counted. -/
theorem die_putBar_takeArrival (key : Nat) (b : Barrier) :
    ((s.takeArrival die rest).putBar die key b).die die =
      { s.die die with arrivals := rest, bars := Tab.put (s.die die).bars key b } := by
  have hd := lt_four_of_arrivals ha
  rw [die_putBar _ hd, die_takeArrival s hd]

theorem takeArrival_bars : ((s.takeArrival die rest).die die).bars = (s.die die).bars := by
  rw [die_takeArrival s (lt_four_of_arrivals ha)]

variable (ho : m.o.ord = .none) (hr : ∀ x ∈ rest, x.o.ord = .none) (hsc : m.o.sc ≠ .pod) (h1 : 1 ≤ m.a.toNat)
  (hn : m.a.toNat ≤ (match m.o.sc with | .quad => 4 | .die => 192 | _ => 2 ^ 32)) {b : Barrier}
  (hb : b = (Tab.find (s.die die).bars (s.barKey m)).getD {}) (he : b.count = 0 ∨ b.expected = m.a.toNat) {f : Hdr} {o : F6}
include ho hr hsc h1 hn hb he

/-- A `bar` that does not complete the count waits. -/
theorem barrierCount_bar_waits (hw : m.word = .bar f o) (few : b.count + 1 < m.a.toNat) :
    After (exec (.barrierCount die) s) (fun t => (t.die die).arrivals = rest ∧ t.pens = s.pens ∧
      Tab.find (t.die die).bars (s.barKey m) = some { b with expected := m.a.toNat, count := b.count + 1, waiting := b.waiting ++ [m] }) := by
  rw [← takeArrival_bars ha, barKey_congr hsc s (s.takeArrival die rest)] at hb
  have run := barCount_bar hsc ho h1 hn hb he hw
  rw [if_neg (Nat.not_le.2 few), barKey_congr hsc _ s] at run
  refine ⟨_, (barrierCount_first ha ho hr).trans (congrArg _ run), ?_⟩
  dsimp only
  rw [die_putBar_takeArrival ha]
  exact ⟨rfl, (modDie_pens _ die _).trans (modDie_pens s die _), tab_find_put_self _ _ _⟩

/-- The `bar` that completes it releases all that wait, itself too, and the next generation starts. -/
theorem barrierCount_bar_releases (hw : m.word = .bar f o) (all : m.a.toNat ≤ b.count + 1) (hq : ∀ w ∈ b.waiting, w.o.ord = .none) :
    After (exec (.barrierCount die) s) (fun t => (t.die die).arrivals = rest ∧
      Tab.find (t.die die).bars (s.barKey m) = some { gen := b.gen + 1 } ∧
      ∀ w ∈ b.waiting ++ [m], ∀ x ∈ (t.pen w.pen).syncs, x.id ≠ w.id) := by
  have hd := lt_four_of_arrivals ha
  rw [← takeArrival_bars ha, barKey_congr hsc s (s.takeArrival die rest)] at hb
  have run := barCount_bar hsc ho h1 hn hb he hw
  rw [if_pos all, barKey_congr hsc _ s] at run
  refine ⟨_, (barrierCount_first ha ho hr).trans (congrArg _ run), ?_⟩
  have quiet : ∀ w ∈ b.waiting ++ [m], w.o.ord = .none := by
    simpa [or_imp, forall_and] using ⟨hq, ho⟩
  have joined : Tab.find (((s.takeArrival die rest).putBar die (s.barKey m) (b.join m.a.toNat [m])).die die).bars (s.barKey m) =
      some (b.join m.a.toNat [m]) := by
    rw [die_putBar_takeArrival ha]
    exact tab_find_put_self _ _ _
  dsimp only
  rw [die_barRelease joined quiet hd, die_putBar_takeArrival ha]
  exact ⟨rfl, tab_find_put_self _ _ _, barRelease_syncs joined quiet⟩

/-- An `arrive` that does not complete it is answered with its generation, which its core notes. -/
theorem barrierCount_arrive (hw : m.word = .arrive f o) (few : b.count + 1 < m.a.toNat) :
    After (exec (.barrierCount die) s) (fun t => (t.die die).arrivals = rest ∧ t.pens = s.pens ∧
      Tab.find (t.die die).bars (s.barKey m) = some { b with expected := m.a.toNat, count := b.count + 1 } ∧
      Tab.find (t.core m.core).arrGen (s.barKey m) = some b.gen ∧
      t.dones = s.dones ++ [{ cmd := m, eng := 2, die := die, value := BitVec.ofNat 64 (b.gen % 2 ^ 32) }]) := by
  rw [← takeArrival_bars ha, barKey_congr hsc s (s.takeArrival die rest)] at hb
  have run := barCount_arrive hsc ho h1 hn hb he hw few
  rw [answer_unordered ho _ rfl (by simp [bwDone]) rfl, barKey_congr hsc _ s] at run
  refine ⟨_, (barrierCount_first ha ho hr).trans (congrArg _ run), ?_⟩
  have counted := die_putBar_takeArrival ha (s.barKey m) (b.join m.a.toNat [])
  have noted : Tab.find ((((s.takeArrival die rest).putBar die (s.barKey m) (b.join m.a.toNat [])).modCore m.core
      (fun k => { k with arrGen := Tab.put k.arrGen (s.barKey m) b.gen })).core m.core).arrGen (s.barKey m) = some b.gen := by
    rw [core_modCore_self]
    exact tab_find_put_self _ _ _
  have pens_ : ((s.takeArrival die rest).putBar die (s.barKey m) (b.join m.a.toNat [])).pens = s.pens :=
    (modDie_pens _ die _).trans (modDie_pens s die _)
  have dones_ : ((s.takeArrival die rest).putBar die (s.barKey m) (b.join m.a.toNat [])).dones = s.dones :=
    (modDie_dones _ die _).trans (modDie_dones s die _)
  refine ⟨(congrArg Die.arrivals counted :), pens_, ?_, noted, congrArg (· ++ [_]) dones_⟩
  refine (congrArg (fun x : Die => Tab.find x.bars (s.barKey m)) counted).trans ((tab_find_put_self _ _ _).trans ?_)
  simp [Barrier.join]

end

/-- Settles O49: an `await` is tested on its word, a `bwait` on its barrier, a deadline on the time, and an arrival is counted; each clause
is the rule of its case, by the word of the first waiter or arrival. -/
theorem waitSteps : Obligations.WaitSteps := by
  unfold Obligations.WaitSteps
  intro s
  refine ⟨?await, ?bwait, ?deadline, ?none, ?bar, ?arrive, ?unbound⟩
  case await =>
    intro die n j h o b z pl bs _ hw hq hm hs ht ha hp hr hd own hk
    exact ⟨awaitSync_released hw hq hm hs ht ha hp hr own hd hk, awaitSync_waits hw hq hm hs ht ha hp hr own hd hk⟩
  case bwait =>
    intro die n j h o hd hw hq hm ha hg
    refine ⟨_, awaitRecheck_bwait hw hq hm (bwaitDone_of_none ha hg), ?_, ?_, ?_, ?_⟩
    · exact fun m hm => (syncEnd_syncs _ _ _ m hm).2 rfl
    · exact dropWaiter_mem s die n
    · exact dropWaiter_cores s die n
    · exact dropWaiter_waits s hd n
  case deadline =>
    intro die n j due more h o b z _ hw hl ho hm ht
    have spec := holds_iff (m := j.cmd) (by simp [hm]) ht
    refine ⟨fun past miss => ?_, fun hit => ?_, fun early => ?_⟩
    · exact awaitTimeout_answers hw hl ho past (by simpa only [spec] using miss)
    · exact ⟨s, awaitTimeout_waits hw hl (.inr (by simpa only [spec] using hit)), rfl⟩
    · exact ⟨s, awaitTimeout_waits hw hl (.inl early), rfl⟩
  case none =>
    intro die n hw
    refine ⟨⟨s, ?_, rfl⟩, ⟨s, ?_, rfl⟩⟩
    · show execAwaitTimeout die n s = _
      simp [execAwaitTimeout, hw]
    · show execAwaitRecheck die n s = _
      simp [execAwaitRecheck, hw]
  case bar =>
    rintro die m rest b _ ha ⟨f, o, hw⟩ ho hr hsc h1 hn hb he
    exact ⟨barrierCount_bar_waits ha ho hr hsc h1 hn hb he hw, barrierCount_bar_releases ha ho hr hsc h1 hn hb he hw⟩
  case arrive =>
    rintro die m rest b _ ha ⟨f, o, hw⟩ ho hr hsc h1 hn hb he few
    exact barrierCount_arrive ha ho hr hsc h1 hn hb he hw few
  case unbound =>
    intro die n j h o hw hq hm hd hk
    have word : ∀ f o, j.cmd.word ≠ .bwait f o := by
      rcases hm with hm | hm | hm <;> simp [hm]
    exact ⟨_, awaitRecheck_unbound hw hq hd word hk, rfl⟩

end Sys2Proof.Machine
end

section
/-! PROOFS. A chain of the drove after a change, and what the flush that a command asks for leaves of the state (R262, R364). -/

namespace Sys2Proof.Machine

open Sys2Proof

/-! ### A chain after a change -/

section
variable (s : State) {die ch : Nat}

theorem chain_modChain_self (hd : die < 4) (hc : ch < 4) (f : Chain → Chain) : (s.modChain die ch f).chain die ch = f (s.chain die ch) := by
  unfold State.chain State.modChain
  rw [die_modDie_self s _ hd]
  simp [hc]

/-- A change of a chain is known by what it makes of that chain. -/
theorem modChain_congr {f g : Chain → Chain} (h : f (s.chain die ch) = g (s.chain die ch)) : s.modChain die ch f = s.modChain die ch g := by
  refine modDie_congr ?_
  split
  · next hc =>
    have at_ : s.chain die ch = (s.die die).chains[ch] := by simp [State.chain, hc]
    rw [← at_, h]
  · rfl

/-- Two changes of a chain are one. -/
theorem modChain_modChain (f g : Chain → Chain) : (s.modChain die ch f).modChain die ch g = s.modChain die ch (fun c => g (f c)) := by
  unfold State.modChain
  by_cases hd : die < 4
  · by_cases hc : ch < 4
    · simp [State.modDie, hd, hc]
    · simp [State.modDie, hd, hc]
  · simp [State.modDie, hd]

theorem modChain_cores (f : Chain → Chain) : (s.modChain die ch f).cores = s.cores := modDie_cores s die _

theorem modChain_mem (f : Chain → Chain) : (s.modChain die ch f).mem = s.mem := modDie_mem s die _

theorem modChain_dones (f : Chain → Chain) : (s.modChain die ch f).dones = s.dones := modDie_dones s die _

theorem modChain_poison (f : Chain → Chain) : (s.modChain die ch f).poison = s.poison := modDie_poison s die _

end

/-! ### A stage after a change -/

theorem stage_modStage_self (c : Chain) {n : Nat} (hn : n < 12) (f : DStage → DStage) : (c.modStage n f).stage n = f (c.stage n) := by
  simp [Chain.stage, Chain.modStage, hn]

theorem modStage_ops (c : Chain) (n : Nat) (f : DStage → DStage) : (c.modStage n f).ops = c.ops := by
  unfold Chain.modStage
  split <;> rfl

theorem modStage_ver (c : Chain) (n : Nat) (f : DStage → DStage) : (c.modStage n f).ver = c.ver := by
  unfold Chain.modStage
  split <;> rfl

theorem shadow_eq (c : Chain) : c.shadow = 1 - c.ver := by
  unfold Chain.shadow
  generalize c.ver = v
  decide +revert

theorem verBit_shadow (c : Chain) : verBit c.shadow = BitVec.ofNat 2 (2 - c.ver.val) := by
  rw [shadow_eq]
  generalize c.ver = v
  decide +revert

/-- An entry is valid in a version when the version's bit of VM is set. -/
theorem verBit_and (vm : BitVec 2) (v : Fin 2) : (vm &&& verBit v != 0) = vm.getLsbD v.val := by
  decide +revert

/-! ### What a flush that is asked for leaves of the state (R364) -/

/-- A release that a command asks for on its way changes views, clocks and flits: these stand. -/
structure FlushAsked (s t : State) : Prop where
  cores : t.cores = s.cores
  mem : t.mem = s.mem
  pens : t.pens = s.pens
  poison : t.poison = s.poison
  dones : t.dones = s.dones
  chain : ∀ d c, t.chain d c = s.chain d c

theorem FlushAsked.refl (s : State) : FlushAsked s s := ⟨rfl, rfl, rfl, rfl, rfl, fun _ _ => rfl⟩

theorem FlushAsked.trans {s t u : State} (a : FlushAsked s t) (b : FlushAsked t u) : FlushAsked s u where
  cores := b.cores.trans a.cores
  mem := b.mem.trans a.mem
  pens := b.pens.trans a.pens
  poison := b.poison.trans a.poison
  dones := b.dones.trans a.dones
  chain d c := (b.chain d c).trans (a.chain d c)

theorem flushAsked_modDie (s : State) (e : Nat) {f : Die → Die} (hf : ∀ x, (f x).chains = x.chains) : FlushAsked s (s.modDie e f) where
  cores := modDie_cores s e f
  mem := modDie_mem s e f
  pens := modDie_pens s e f
  poison := modDie_poison s e f
  dones := modDie_dones s e f
  chain d c := congrArg (fun v : Vector Chain 4 => v.toList.getD c {}) (die_modDie_keeps Die.chains hf s e d)

/-- Marking writes as released leaves the chains. -/
theorem flushAsked_marked (s : State) (f : Die → Die) (hf : ∀ x, (f x).chains = x.chains) (late : List ViewWrite) :
    FlushAsked s { s with dies := s.dies.map f, late := late } where
  cores := rfl
  mem := rfl
  pens := rfl
  poison := rfl
  dones := rfl
  chain d c := by
    refine congrArg (fun v : Vector Chain 4 => v.toList.getD c {}) ?_
    by_cases hd : d < 4
    · simp [State.die, hd, hf]
    · simp [State.die, hd]

theorem flushAsked_releaseAt (s : State) (m : Cmd) (sc : Nat) : FlushAsked s (s.releaseAt m sc) := by
  unfold State.releaseAt
  dsimp only
  refine .trans ?_ (flushAsked_marked _ _ ?_ _)
  · split
    · exact flushAsked_modDie s _ (fun _ => rfl)
    · exact .refl s
  · exact fun _ => rfl

theorem flushAsked_svc (s : State) (v : Service) : FlushAsked s { s with svc := v } := ⟨rfl, rfl, rfl, rfl, rfl, fun _ _ => rfl⟩

theorem flushAsked_askFlush (s : State) (m : Cmd) (own : Bool) : FlushAsked s (s.askFlush m own) := by
  unfold State.askFlush
  dsimp only
  split
  · exact .refl s
  · split
    · split
      · refine .trans ?_ (flushAsked_svc _ _)
        split
        · exact .refl s
        · exact flushAsked_releaseAt s m 5
      · exact .refl s
    · split
      · exact .refl s
      · exact flushAsked_svc s _

theorem flushAsked_each {α : Type} (cmd : α → Cmd) (own : Bool) (l : List α) (s : State) :
    FlushAsked s (l.foldl (fun s x => s.askFlush (cmd x) own) s) :=
  List.foldlRecOn (motive := fun t : State => FlushAsked s t) _ _ (.refl s) fun t ht x _ => ht.trans (flushAsked_askFlush t (cmd x) own)

end Sys2Proof.Machine
end

section
/-! PROOFS. Table commands and commits of a chain: O51 (R184, R278 to R280). -/

namespace Sys2Proof.Machine

open Sys2Proof

/-! ### Which table command runs -/

/-- The state in which a chain's first table command runs. -/
def State.takeOp (s : State) (die ch : Nat) (rest : List Cmd) : State :=
  ((s.chain die ch).ops.foldl (fun s m => s.askFlush m false) s).modChain die ch (fun c => { c with ops := rest })

section
variable {s : State} {die ch : Nat} {m : Cmd} {rest : List Cmd} (hops : (s.chain die ch).ops = m :: rest) (ho : m.o.ord = .none)
include hops ho

/-- The first command runs when no commit is in progress, a `dtr` in any case. -/
theorem droveTableOp_first (ready : (s.chain die ch).commit = none ∨ ∃ f o, m.word = .dtr f o) :
    exec (.droveTableOp die ch) s = .next ((s.takeOp die ch rest).tabCmd die ch m) := by
  have asked := flushAsked_each (α := Cmd) (fun m => m) false (s.chain die ch).ops s
  show execDroveTableOp die ch s = _
  unfold execDroveTableOp State.takeOp
  dsimp only
  generalize (s.chain die ch).ops.foldl (fun s m => s.askFlush m false) s = t at asked
  have erased : t.modChain die ch (fun c => { c with ops := c.ops.tail }) = t.modChain die ch (fun c => { c with ops := rest }) :=
    modChain_congr t (by simp [asked.chain, hops])
  rcases ready with none_ | ⟨f, o, hw⟩
  · simp [hops, List.findIdx?_cons, mayRelease_unordered ho, none_, erased, acq_unordered ho, rel_unordered ho]
  · simp [hops, List.findIdx?_cons, mayRelease_unordered ho, hw, erased, acq_unordered ho, rel_unordered ho]

end

section
variable {s : State} {die ch : Nat} (hd : die < 4) (hc : ch < 4) (rest : List Cmd)

include hd hc in
theorem takeOp_chain : (s.takeOp die ch rest).chain die ch = { s.chain die ch with ops := rest } := by
  have asked := flushAsked_each (α := Cmd) (fun m => m) false (s.chain die ch).ops s
  rw [State.takeOp, chain_modChain_self _ hd hc, asked.chain]

theorem takeOp_asked : (s.takeOp die ch rest).cores = s.cores ∧ (s.takeOp die ch rest).mem = s.mem ∧
    (s.takeOp die ch rest).dones = s.dones ∧ (s.takeOp die ch rest).poison = s.poison := by
  have asked := flushAsked_each (α := Cmd) (fun m => m) false (s.chain die ch).ops s
  exact ⟨(modChain_cores _ _).trans asked.cores, (modChain_mem _ _).trans asked.mem, (modChain_dones _ _).trans asked.dones,
    (modChain_poison _ _).trans asked.poison⟩

end

/-! ### A table command that is performed -/

/-- The chain as a table command leaves it, and its answer on the way. -/
def State.tabEnd (s : State) (die ch : Nat) (m : Cmd) (x : Chain × TabEnd) : State :=
  (s.modChain die ch (fun _ => x.1)).answer (dvDone m (die, ch) x.2.1 x.2.2.1 x.2.2.2.1 x.2.2.2.2)

/-- A `dtr` reads a counter (R280). -/
theorem tabCmd_dtr (s : State) (die ch : Nat) {m : Cmd} {f : Hdr} {o : F6} (hw : m.word = .dtr f o) :
    s.tabCmd die ch m = s.tabEnd die ch m ((s.chain die ch).readCnt (bitsOf m.o.imm 3 0) m.a.toNat (bitAt m.o.sub.val 0)) := by
  simp only [State.tabCmd, hw, State.tabEnd]

/-- A `dtw` of an image that it could read writes it (R184). -/
theorem tabCmd_dtw (s : State) (die ch : Nat) {m : Cmd} {f : Hdr} {o : F6} (hw : m.word = .dtw f o) (aligned : m.cmd.toNat % 64 = 0)
    (whole : m.img.length = 64) (clean : s.poison = []) :
    s.tabCmd die ch m = s.tabEnd die ch m
      ((s.chain die ch).apply false (bitsOf m.o.imm 3 0) (bitAt m.o.imm.toNat 15) m.a.toNat (BitVec.ofNat 512 (leNat m.img))) := by
  have readable : s.poisoned (nearKeys m.cmd.toNat 64) = false := by simp [State.poisoned, clean]
  simp [State.tabCmd, hw, State.tabEnd, tabImage, aligned, whole, readable]

theorem tabCmd_dcommit (s : State) (die ch : Nat) {m : Cmd} {f : Hdr} {o : F6} (hw : m.word = .dcommit f o) :
    s.tabCmd die ch m = s.modChain die ch (fun c => c.flip m) := by
  simp only [State.tabCmd, hw]

section
variable {s : State} {die ch : Nat} (hd : die < 4) (hc : ch < 4) {m : Cmd} {rest : List Cmd}
  (hops : (s.chain die ch).ops = m :: rest) (ho : m.o.ord = .none)
include hd hc hops ho

/-- One that succeeds is answered, and leaves the chain that its change made of the one without it. -/
theorem droveTableOp_succeeds {c : Chain} {value : W64} (ready : (s.chain die ch).commit = none ∨ ∃ f o, m.word = .dtr f o)
    (run : (s.takeOp die ch rest).tabCmd die ch m = (s.takeOp die ch rest).tabEnd die ch m (c, 0, 0, value, 0)) :
    After (exec (.droveTableOp die ch) s) (fun t => t.chain die ch = c ∧ t.cores = s.cores ∧ t.mem = s.mem ∧
      t.dones = s.dones ++ [{ cmd := m, eng := 3, die := die, inst := ch, value := value }]) := by
  obtain ⟨cores, mem, dones, -⟩ := takeOp_asked (s := s) (die := die) (ch := ch) rest
  refine ⟨_, (droveTableOp_first hops ho ready).trans (congrArg _ run), ?_⟩
  unfold State.tabEnd
  rw [answer_unordered ho _ rfl (by simp [dvDone]) rfl, modChain_dones, dones]
  exact ⟨chain_modChain_self _ hd hc _, (modChain_cores _ _).trans cores, (modChain_mem _ _).trans mem, rfl⟩

end

/-! ### What it makes of the chain -/

/-- A chain with an image for the shadow alone at a place of a stage's table. -/
def Chain.putEnt (c : Chain) (n idx : Nat) (img : BitVec 512) : Chain :=
  c.modStage n (fun st => { st with ents := Tab.put (c.stage n).ents idx { img := img, vm := verBit c.shadow } })

/-- The place of an entry that the current version does not use takes the image (R278). -/
theorem writeEnt_of_free {c : Chain} {n idx : Nat} {img cfg : BitVec 512} (hcfg : (c.stage n).cfg[c.shadow] = cfg) (direct : skind cfg ≠ 1)
    (inside : idx < tableSize (skind cfg)) (fine : entBad img (skind cfg) (skw cfg) = false)
    (free : ∀ e, Tab.find (c.stage n).ents idx = some e → e.vm.getLsbD c.ver.val = false) :
    c.writeEnt n idx img = (c.putEnt n idx img, 0, 0, 0, 0) := by
  have unused : (((Tab.find (c.stage n).ents idx).map (·.vm)).getD 0 &&& verBit c.ver != 0) = false := by
    cases found : Tab.find (c.stage n).ents idx with
    | none => simp
    | some e => exact (verBit_and e.vm c.ver).trans (free e found)
  unfold Chain.writeEnt
  simp only [hcfg, bne_iff_ne.2 direct, Nat.not_le.2 inside, decide_false, Bool.and_false, fine, unused, Bool.false_eq_true, if_false, if_true]
  rfl

section
variable (c : Chain) {n : Nat} (hn : n < 12) (idx : Nat) (img : BitVec 512)
include hn

theorem putEnt_find_self : Tab.find ((c.putEnt n idx img).stage n).ents idx = some { img := img, vm := BitVec.ofNat 2 (2 - c.ver.val) } := by
  rw [Chain.putEnt, stage_modStage_self c hn, ← verBit_shadow]
  exact tab_find_put_self _ _ _

theorem putEnt_find_of_ne {k : Nat} (hk : k ≠ idx) : Tab.find ((c.putEnt n idx img).stage n).ents k = Tab.find (c.stage n).ents k := by
  rw [Chain.putEnt, stage_modStage_self c hn]
  exact tab_find_put_of_ne _ _ hk

theorem putEnt_cfg : ((c.putEnt n idx img).stage n).cfg = (c.stage n).cfg := by
  rw [Chain.putEnt, stage_modStage_self c hn]

end

/-- The miss counter of a stage, with VM 0 and the current version (R280). -/
theorem readCnt_miss (c : Chain) (n : Nat) :
    c.readCnt n 0xFFFF false = (c, 0, 0, BitVec.ofNat 64 ((c.stage n).miss.toNat + c.ver.val * 2 ^ 34), 0) := by
  have at34 : ((0 : BitVec 2).toNat + 4 * c.ver.val) * 2 ^ 32 = c.ver.val * 2 ^ 34 := by
    rw [show (0 : BitVec 2).toNat = 0 from rfl]
    omega
  simp only [Chain.readCnt, if_true, Bool.false_eq_true, if_false, at34]

end Sys2Proof.Machine
end

section
/-! PROOFS. Table commands and commits of a chain, whole: O51 (R184, R278 to R280). -/

namespace Sys2Proof.Machine

open Sys2Proof

/-! ### Table commands (R184) -/

section
variable {s : State} {die ch : Nat} {m : Cmd} {rest : List Cmd} (hops : (s.chain die ch).ops = m :: rest) (ho : m.o.ord = .none)
  {f : Hdr} {o : F6}
include hops ho

/-- A commit makes the other version current (R279). -/
theorem droveTableOp_dcommit (hi : (s.chain die ch).commit = none) (hw : m.word = .dcommit f o)
    (hr : ∀ x ∈ (s.chain die ch).ops, x.o.ord = .none) :
    exec (.droveTableOp die ch) s = .next (s.modChain die ch
      (fun c => { c with ops := rest, ver := 1 - c.ver, commit := some m, settled := false })) := by
  have still := askFlush_each_unordered (s := s) hr
  rw [droveTableOp_first hops ho (.inl hi), tabCmd_dcommit _ die ch hw, State.takeOp, still, modChain_modChain]
  refine congrArg Host.Outcome.next (modChain_congr s ?_)
  simp only [Chain.flip, shadow_eq]

/-- While a commit is in progress, a command that writes waits (R279). -/
theorem droveTableOp_waits (alone : rest = []) (hi : (s.chain die ch).commit ≠ none)
    (hw : m.word = .dcommit f o ∨ m.word = .dtw f o ∨ m.word = .dtd f o) : exec (.droveTableOp die ch) s = .next s := by
  subst alone
  have going : (s.chain die ch).commit.isNone = false := by simpa [← Option.isSome_iff_ne_none] using hi
  show execDroveTableOp die ch s = _
  unfold execDroveTableOp
  rcases hw with hw | hw | hw <;> simp [hops, askFlush_unordered ho, List.findIdx?_cons, going, hw]

end

/-! ### The end of a commit (R279) -/

theorem settle_stage (c : Chain) {n : Nat} (hn : n < 12) : c.settle.stage n = { c.stage n with
    cfg := Vector.replicate 2 (c.stage n).cfg[c.ver]
    ents := (c.stage n).ents.map (fun e => (e.1, { e.2 with vm := if e.2.vm &&& verBit c.ver != 0 then 3 else 0 })) } := by
  simp [Chain.stage, Chain.settle, hn]

/-- Both versions of a stage's configuration are the current one, and an entry is valid in both or in none. -/
theorem settle_cfg (c : Chain) {n : Nat} (hn : n < 12) (v : Fin 2) : (c.settle.stage n).cfg[v] = (c.stage n).cfg[c.ver] := by
  rw [settle_stage c hn]
  simp

theorem settle_ents (c : Chain) {n : Nat} (hn : n < 12) : ∀ e ∈ (c.settle.stage n).ents, e.2.vm = 3 ∨ e.2.vm = 0 := by
  rw [settle_stage c hn]
  intro e he
  obtain ⟨x, -, rfl⟩ := List.mem_map.1 he
  dsimp only
  split
  · exact .inl rfl
  · exact .inr rfl

section
variable {s : State} {die ch : Nat}

theorem dcommitDrained_none (hi : (s.chain die ch).commit = none) : exec (.dcommitDrained die ch) s = .next s := by
  show execDcommitDrained die ch s = _
  simp [execDcommitDrained, hi]

theorem dcommitDrained_settled (hs : (s.chain die ch).settled = true) : exec (.dcommitDrained die ch) s = .next s := by
  show execDcommitDrained die ch s = _
  cases hi : (s.chain die ch).commit <;> simp [execDcommitDrained, hi, hs]

theorem holds_shadow (c : Chain) : c.holds c.shadow = true ↔ ∃ r ∈ c.recirc ++ c.recs ++ c.exits, r.ver = 1 - c.ver.val := by
  have val : c.shadow.val = 1 - c.ver.val := by
    rw [shadow_eq]
    generalize c.ver = v
    decide +revert
  simp only [Chain.holds, val, List.any_eq_true, decide_eq_true_eq]

/-- A record of the old version is still in the chain. -/
theorem dcommitDrained_waits {r : DRec} (hr : r ∈ (s.chain die ch).recirc ++ (s.chain die ch).recs ++ (s.chain die ch).exits)
    (old : r.ver = 1 - (s.chain die ch).ver.val) : exec (.dcommitDrained die ch) s = .next s := by
  have held := (holds_shadow (s.chain die ch)).2 ⟨r, hr, old⟩
  show execDcommitDrained die ch s = _
  cases hi : (s.chain die ch).commit <;> simp [execDcommitDrained, hi, held]

/-- With the last record of the old version gone, both versions hold the new one, and the commit is answered. -/
theorem dcommitDrained_settles (hd : die < 4) (hc : ch < 4) {m : Cmd} (hi : (s.chain die ch).commit = some m)
    (hs : (s.chain die ch).settled = false) (ho : m.o.ord = .none)
    (new : ∀ r ∈ (s.chain die ch).recirc ++ (s.chain die ch).recs ++ (s.chain die ch).exits, r.ver = (s.chain die ch).ver.val) :
    After (exec (.dcommitDrained die ch) s) (fun t => t.chain die ch = (s.chain die ch).settle ∧ t.cores = s.cores ∧ t.mem = s.mem ∧
      t.dones = s.dones ++ [{ cmd := m, eng := 3, die := die, inst := ch }]) := by
  have gone : (s.chain die ch).holds (s.chain die ch).shadow = false := by
    rw [Bool.eq_false_iff, ne_eq, holds_shadow]
    rintro ⟨r, hr, old⟩
    have := new r hr
    omega
  have run : exec (.dcommitDrained die ch) s = .next ((s.modChain die ch Chain.settle).answer (dvDone m (die, ch) 0 0 0 0)) := by
    show execDcommitDrained die ch s = _
    simp only [execDcommitDrained, hi, hs, gone, Bool.or_false, Bool.false_eq_true, if_false]
  rw [answer_unordered ho _ rfl (by simp [dvDone]) rfl, modChain_dones] at run
  exact ⟨_, run, chain_modChain_self s hd hc _, modChain_cores s _, modChain_mem s _, rfl⟩

end

/-! ### Its token (R172, R279) -/

/-- No write lies under a clock that is empty. -/
theorem applied_nil (s : State) : s.applied [] = true := by
  have none_ : ∀ w : ViewWrite, w.under [] = false := by
    intro w
    simp [ViewWrite.under]
  simp [State.applied, none_]

/-- An answer of an unordered command waits for no release. -/
theorem performed_unordered {d : Done} (ho : d.cmd.o.ord = .none) (hk : d.clock = []) (s : State) : s.performed d = true := by
  simp [State.performed, State.flushed, State.podRelease, hk, not_releases ho, applied_nil]

/-- The token of a settled commit ends it. -/
theorem commitDone_settled {d : Done} {f : Hdr} {o : F6} (hw : d.cmd.word = .dcommit f o) (s : State)
    (hs : (s.chain d.die d.inst).settled = true) :
    s.commitDone d = s.modChain d.die d.inst (fun c => { c with commit := none, settled := false }) := by
  simp only [State.commitDone, hw]
  exact modChain_congr s (by simp only [hs, if_true])

/-- The first answer for a CP port with room goes there, when its pen runs and its command is unordered. -/
theorem completionTokenDelivery_first {s : State} {d : Done} {rest : List Done} (hd : s.dones = d :: rest) (hh : d.cmd.host = none)
    (ho : d.cmd.o.ord = .none) (hk : d.clock = []) (live : (s.pen d.cmd.pen).live = true) (going : (s.pen d.cmd.pen).ended = false)
    (runs : (s.pen d.cmd.pen).frozen = .running) (room : ((s.core d.cmd.core).rx[d.cmd.o.cp]).q.length < 64) :
    ∃ t, FlushAsked s t ∧ exec (.completionTokenDelivery d.cmd.core d.cmd.o.cp.val) s =
      .next (((((({ t with dones := rest } : State).commitDone d).flushEnd d.cmd).modPen d.cmd.pen
        (fun p => { p with cmds := p.cmds.filter (fun i => i != d.cmd.id) })).modCore d.cmd.core (fun k => k.arrive d.cmd.o.cp d.tok))) := by
  have asked := flushAsked_each (α := Done) (fun d => d.cmd) true
    (s.dones.filter (fun x => (x.cmd.host.isNone && x.cmd.core = d.cmd.core && x.cmd.o.cp.val = d.cmd.o.cp.val) && x.cmd.writes)) s
  refine ⟨_, asked, ?_⟩
  show execCompletionTokenDelivery _ _ s = _
  unfold execCompletionTokenDelivery
  dsimp only
  generalize List.foldl _ s _ = t at asked
  have first : takeDone (fun x => x.cmd.host.isNone && x.cmd.core = d.cmd.core && x.cmd.o.cp.val = d.cmd.o.cp.val && t.performed x) t.dones =
      some (d, rest) := by
    rw [asked.dones, hd]
    simp [takeDone, hh, performed_unordered ho hk]
  have free : (t.core d.cmd.core).rxRoom d.cmd.o.cp ≠ 0 := by
    rw [State.core, asked.cores]
    exact Nat.sub_ne_zero_of_lt room
  have same : t.pen d.cmd.pen = s.pen d.cmd.pen := by
    rw [State.pen, asked.pens]
    rfl
  rw [first]
  simp [same, live, going, runs, free]

/-- Its delivery ends the commit (log 119). -/
theorem commit_token_ends {s : State} {die ch : Nat} (h4 : die < 4) (hc : ch < 4) {m : Cmd} {d : Done} {rest : List Done} {f : Hdr} {o : F6}
    (hs : (s.chain die ch).settled = true) (hw : m.word = .dcommit f o) (hm : d.cmd = m) (hh : m.host = none) (hdie : d.die = die)
    (hinst : d.inst = ch) (hk : d.clock = []) (hd : s.dones = d :: rest) (ho : m.o.ord = .none) (live : (s.pen m.pen).live = true)
    (going : (s.pen m.pen).ended = false) (runs : (s.pen m.pen).frozen = .running) (room : ((s.core m.core).rx[m.o.cp]).q.length < 64) :
    After (exec (.completionTokenDelivery m.core m.o.cp.val) s)
      (fun t => t.chain die ch = { s.chain die ch with commit := none, settled := false }) := by
  subst hm hdie hinst
  obtain ⟨t, asked, run⟩ := completionTokenDelivery_first hd hh ho hk live going runs room
  have stands : ({ t with dones := rest } : State).chain d.die d.inst = s.chain d.die d.inst := asked.chain d.die d.inst
  rw [commitDone_settled hw _ (by rw [stands, hs])] at run
  refine ⟨_, run, ?_⟩
  exact (chain_modChain_self _ h4 hc _).trans (by rw [stands])

/-- Settles O51: a chain's table command by its word, and a commit by how far it has come. -/
theorem droveTables : Obligations.DroveTables := by
  unfold Obligations.DroveTables
  intro s die ch hd hc
  dsimp only
  refine ⟨?empty, ?dcommit, ?waits, ?dtw, ?dtr, ?idle, ?held, ?settled, ?settles, ?token⟩
  case empty =>
    intro none_
    refine ⟨s, ?_, rfl⟩
    show execDroveTableOp die ch s = _
    simp [execDroveTableOp, none_]
  case dcommit =>
    intro m rest h o hi hops hr hw
    have ho : m.o.ord = .none := hr m (by simp [hops])
    exact ⟨_, droveTableOp_dcommit hops ho hi hw hr, rfl⟩
  case waits =>
    intro m h o hi hops ho hw
    exact ⟨_, droveTableOp_waits hops ho rfl hi hw, rfl⟩
  case dtw =>
    intro m rest h o n idx kind hi hops ho hw entry hn hn12 aligned whole clean ha hk direct inside fine free
    have stage : bitsOf m.o.imm 3 0 = n := (bitsOf_low m.o.imm (w := 4) (by decide)).trans hn
    have plain : bitAt m.o.imm.toNat 15 = false := (bitAt_eq_testBit _ _).trans entry
    obtain ⟨-, -, -, poison⟩ := takeOp_asked (s := s) (die := die) (ch := ch) rest
    have written := writeEnt_of_free (c := { s.chain die ch with ops := rest }) (n := n) (by simp only [shadow_eq]; rfl) (hk ▸ direct)
      (hk ▸ inside) (hk ▸ fine) free
    have run := tabCmd_dtw (s.takeOp die ch rest) die ch hw aligned whole (poison.trans clean)
    rw [takeOp_chain hd hc, stage, plain, ha, Chain.apply, written] at run
    obtain ⟨t, out, chain, cores, mem, dones⟩ := droveTableOp_succeeds hd hc hops ho (.inl hi) run
    refine ⟨t, out, cores, mem, ?_⟩
    rw [chain]
    exact ⟨modStage_ops _ n _, modStage_ver _ n _, putEnt_find_self _ hn12 idx _, fun k hk => putEnt_find_of_ne _ hn12 idx _ hk,
      putEnt_cfg _ hn12 idx _, dones⟩
  case dtr =>
    intro m rest h o n hops ho hw hn ha keep
    have all : m.a.toNat = 0xFFFF := by simp [ha]
    have stage : bitsOf m.o.imm 3 0 = n := (bitsOf_low m.o.imm (w := 4) (by decide)).trans hn
    have plain : bitAt m.o.sub.val 0 = false := by simp [bitAt, keep]
    have run := tabCmd_dtr (s.takeOp die ch rest) die ch hw
    rw [takeOp_chain hd hc, stage, all, plain, readCnt_miss] at run
    exact droveTableOp_succeeds hd hc hops ho (.inr ⟨h, o, hw⟩) run
  case idle =>
    intro hi
    exact ⟨s, dcommitDrained_none hi, rfl⟩
  case held =>
    intro m r _ hr old
    exact ⟨s, dcommitDrained_waits hr old, rfl⟩
  case settled =>
    intro hs
    exact ⟨s, dcommitDrained_settled hs, rfl⟩
  case settles =>
    intro m hi hs ho new
    obtain ⟨t, run, chain, cores, mem, dones⟩ := dcommitDrained_settles hd hc hi hs ho new
    refine ⟨t, run, cores, mem, ?_⟩
    rw [chain]
    refine ⟨hi, rfl, rfl, rfl, fun v => ⟨?_, ?_, fun n hn => settle_cfg _ hn v⟩, fun n hn => settle_ents _ hn, dones⟩
    · simp [Chain.settle]
    · simp [Chain.settle]
  case token =>
    intro m d rest h o _ hs hw hm hh hdie hinst hk hdones ho live going runs room
    exact commit_token_ends hd hc hs hw hm hh hdie hinst hk hdones ho live going runs room

end Sys2Proof.Machine
end

section
/-! PROOFS. Memory stays in its canonical form (logs 2, 3): stores, fault records, host events and stops. -/

namespace Sys2Proof.Machine

open Sys2Proof

/-! ### What is asked of an answer, and folds -/

/-- The state that a row answers, if it answers one, has canonical memory. -/
structure AnswersCanonical (o : Out) : Prop where
  next : ∀ t, o = .next t → Mem.wf t.mem = true

@[simp] theorem answersCanonical_next {t : State} : AnswersCanonical (.next t) ↔ Mem.wf t.mem = true :=
  ⟨fun h => h.next t rfl, fun h => ⟨fun _ e => by cases e; exact h⟩⟩

theorem foldl_mem {α : Type} {f : State → α → State} (hf : ∀ s a, (f s a).mem = s.mem) (l : List α) (s : State) :
    (l.foldl f s).mem = s.mem := by
  induction l generalizing s with
  | nil => rfl
  | cons a l ih => exact (ih (f s a)).trans (hf s a)

theorem foldl_wf {α : Type} {f : State → α → State} (hf : ∀ s a, Mem.wf s.mem = true → Mem.wf (f s a).mem = true) (l : List α)
    {s : State} (hs : Mem.wf s.mem = true) : Mem.wf (l.foldl f s).mem = true := by
  induction l generalizing s with
  | nil => exact hs
  | cons a l ih => exact ih (hf s a hs)

theorem foldl_fst_wf {α β : Type} {f : State × β → α → State × β}
    (hf : ∀ x a, Mem.wf x.1.mem = true → Mem.wf (f x a).1.mem = true) (l : List α) {x : State × β} (hx : Mem.wf x.1.mem = true) :
    Mem.wf (l.foldl f x).1.mem = true := by
  induction l generalizing x with
  | nil => exact hx
  | cons a l ih => exact ih (hf x a hx)

theorem ite_wf {c : Prop} [Decidable c] {t u : State} (ht : Mem.wf t.mem = true) (hu : Mem.wf u.mem = true) :
    Mem.wf (if c then t else u).mem = true := by
  split
  · exact ht
  · exact hu

theorem wf_of_fst {β : Type} {x : State × β} {t : State} {b : β} (hx : Mem.wf x.1.mem = true) (e : x = (t, b)) :
    Mem.wf t.mem = true := by
  subst e
  exact hx

theorem map_wf {ε : Type} {r : Except ε State} {f : State → State} {t : State} (hr : ∀ u, r = .ok u → Mem.wf u.mem = true)
    (hf : ∀ u, Mem.wf u.mem = true → Mem.wf (f u).mem = true) (e : r.map f = .ok t) : Mem.wf t.mem = true := by
  cases r with
  | error x => cases e
  | ok u =>
    cases e
    exact hf u (hr u rfl)

/-! ### The operations

An operation `f` that leaves memory alone has a lemma `f_mem`, one that may write it a lemma `f_wf`. -/

@[simp] theorem physWrite_wf {s : State} (hs : Mem.wf s.mem = true) (w : Option Agent) (key : Nat) (cells : List (Nat × Byte)) :
    Mem.wf (s.physWrite w key cells).mem = true := physWrite_canonical hs w key cells

@[simp] theorem nearWrite_wf {s : State} (hs : Mem.wf s.mem = true) (addr : Nat) (bs : List Byte) :
    Mem.wf (s.nearWrite addr bs).mem = true := nearWrite_canonical hs addr bs

@[simp] theorem tlbNote_mem (s : State) (ctx va : Nat) : (s.tlbNote ctx va).mem = s.mem := by
  unfold State.tlbNote
  repeat' split
  all_goals simp

@[simp] theorem countDie_mem (s : State) (d src n : Nat) : (s.countDie d src n).mem = s.mem := by simp [State.countDie]

@[simp] theorem errCount_mem (s : State) (d lo w : Nat) : (s.errCount d lo w).mem = s.mem := by simp [State.errCount]

@[simp] theorem dieFlits_mem (s : State) (a b : Nat) (back : Bool) : (s.dieFlits a b back).mem = s.mem := by
  unfold State.dieFlits
  repeat' split
  all_goals simp

@[simp] theorem ueMet_mem (s : State) (d : Nat) : (s.ueMet d).mem = s.mem := by simp [State.ueMet]

@[simp] theorem tlbUse_mem (s : State) (die ctx va : Nat) : (s.tlbUse die ctx va).mem = s.mem := by
  unfold State.tlbUse
  split <;> simp

@[simp] theorem sendFlit_mem (s : State) (f : List Nat) : (s.sendFlit f).mem = s.mem := rfl

@[simp] theorem flitsAgain_mem (s : State) (l n : Nat) : (s.flitsAgain l n).mem = s.mem := rfl

@[simp] theorem peerFlit_mem (s : State) (kind ctx pa : Nat) (rest : List Nat) : (s.peerFlit kind ctx pa rest).mem = s.mem := by
  unfold State.peerFlit
  split <;> simp

@[simp] theorem peerRead_mem (s : State) (ctx : Nat) (pas : List Nat) : (s.peerRead ctx pas).mem = s.mem :=
  by simp [State.peerRead, foldl_mem]

@[simp] theorem readNote_mem (s : State) (die ctx pa : Nat) : (s.readNote die ctx pa).mem = s.mem := by
  unfold State.readNote
  repeat' split
  all_goals simp

@[simp] theorem peerWrite_mem (s : State) (ctx : Nat) (pas : List Nat) : (s.peerWrite ctx pas).mem = s.mem :=
  by simp [State.peerWrite, foldl_mem]

@[simp] theorem chunkWrite_wf {s : State} (hs : Mem.wf s.mem = true) (w : Option Agent) (key : Nat) (f : Option Fmt) (pn : Nat) (bs :
    List Byte) : Mem.wf (s.chunkWrite w key f pn bs).mem = true := by simp [State.chunkWrite, hs]

@[simp] theorem rawPatches_wf {s : State} (hs : Mem.wf s.mem = true) (w : Option Agent) (key : Nat) (ps : List Patch) : Mem.wf
    (s.rawPatches w key ps).mem = true := by simp [State.rawPatches, hs]

theorem writePlaces_wf {s t : State} (hs : Mem.wf s.mem = true) {w : Option Agent} {ctx : Nat} {pl : List (Nat × Nat)} {bs : List Byte}
    (e : s.writePlaces w ctx pl bs = .ok t) : Mem.wf t.mem = true := by
  grind [State.writePlaces, rawPatches_wf, chunkWrite_wf, foldl_wf]

theorem vwriteBy_wf {s t : State} (hs : Mem.wf s.mem = true) {w : Option Agent} {ctx va : Nat} {acc : Acc} {bs : List Byte} (e :
    s.vwriteBy w ctx va acc bs = .ok t) : Mem.wf t.mem = true := by
  unfold State.vwriteBy at e
  split at e
  · cases e
  · exact map_wf (fun u hu => writePlaces_wf hs hu) (fun u hu => by simpa using hu) e

theorem vwrite_wf {s t : State} (hs : Mem.wf s.mem = true) {ctx va : Nat} {bs : List Byte} (e : s.vwrite ctx va bs = .ok t) :
    Mem.wf t.mem = true := vwriteBy_wf hs e

@[simp] theorem alarmB_mem (s : State) (die ctx : Nat) : (s.alarmB die ctx).mem = s.mem := rfl

theorem keyGuard_wf {s t : State} (hs : Mem.wf s.mem = true) (ht : Mem.wf t.mem = true) (die ctx : Nat) : AnswersCanonical
    (s.keyGuard die ctx t) := answersCanonical_next.2 (ite_wf ht (by exact hs))

@[simp] theorem modCores_mem (s : State) (cs : List Nat) (f : Core → Core) : (s.modCores cs f).mem = s.mem := by
  unfold State.modCores
  rw [foldl_mem (by simp)]

@[simp] theorem storeFault_wf {s : State} (hs : Mem.wf s.mem = true) (ws : List W64) : Mem.wf (s.storeFault ws).mem = true :=
  by simp [State.storeFault, hs]

@[simp] theorem recordFault_wf {s : State} (hs : Mem.wf s.mem = true) (w : Who) (va : Nat) (x : XFault) (park : Bool) : Mem.wf
    (s.recordFault w va x park).1.mem = true := by
  unfold State.recordFault
  dsimp only
  repeat' split
  all_goals simp [hs]

theorem ringSlot_wf {s t : State} {n : Nat} (hs : Mem.wf s.mem = true) {w : Option Agent} {ctx va size : Nat} {bs : List Byte} (e :
    s.ringSlot w ctx va size bs = .ok (t, n)) : Mem.wf t.mem = true := by
  grind [State.ringSlot, vwriteBy_wf]

@[simp] theorem ringBump_wf {s : State} (hs : Mem.wf s.mem = true) (w : Option Agent) (ctx va widx : Nat) : Mem.wf
    (s.ringBump w ctx va widx).1.mem = true := by
  grind [State.ringBump, vwriteBy_wf]

@[simp] theorem ringAppend_wf {s : State} (hs : Mem.wf s.mem = true) (w : Option Agent) {order : State → State} (hf :
    ∀ u, Mem.wf u.mem = true → Mem.wf (order u).mem = true) (ctx va size : Nat) (bs : List Byte) : Mem.wf
    (s.ringAppend w order ctx va size bs).1.mem = true := by
  grind [State.ringAppend, ringSlot_wf, ringBump_wf]

@[simp] theorem postEvent_wf {s : State} (hs : Mem.wf s.mem = true) (ctx ty pid rel die : Nat) (payload : List W64) : Mem.wf
    (s.postEvent ctx ty pid rel die payload).mem = true := by
  grind [State.postEvent, setCtx_mem, alarmB_mem, ringAppend_wf, ueMet_mem, recordFault_wf]

@[simp] theorem count_mem (s : State) (c src n : Nat) : (s.count c src n).mem = s.mem := rfl

@[simp] theorem stopAt_mem (s : State) (c : Nat) (cause : Cause) (col : Col) (slot : Nat) (it : BitVec 32) (code value : W64) (late :
    Bool) : (s.stopAt c cause col slot it code value late).mem = s.mem := rfl

@[simp] theorem lateStop_mem (s : State) (c : Nat) (cause : Cause) (col : Col) (slot : Nat) (it : BitVec 32) (old : Bool) :
    (s.lateStop c cause col slot it old).mem = s.mem := by
  unfold State.lateStop
  split <;> simp

@[simp] theorem freezeForReport_wf {s : State} (hs : Mem.wf s.mem = true) (h : Nat) : Mem.wf (s.freezeForReport h).mem = true := by
  unfold State.freezeForReport
  dsimp only
  repeat' split
  all_goals simp [hs]

@[simp] theorem timingTrap_wf {s : State} (hs : Mem.wf s.mem = true) (h c : Nat) (col : Col) (slot : Nat) (it : BitVec 32) : Mem.wf
    (s.timingTrap h c col slot it).mem = true := by
  grind [State.timingTrap, foldl_mem, count_mem, modCores_mem, setPen_mem, postEvent_wf]

@[simp] theorem raise_mem (s : State) (c : Nat) (f : Flags) (col : Col) (slot : Nat) (it : BitVec 32) (old : Bool) :
    (s.raise c f col slot it old).mem = s.mem := by
  unfold State.raise
  dsimp only
  repeat' split
  all_goals simp

end Sys2Proof.Machine
end

section
/-! PROOFS. Memory stays in its canonical form: words at their issue, releases, acquires, samples, faults, images and windows. -/

namespace Sys2Proof.Machine

open Sys2Proof

@[simp] theorem result_mem (s : State) (h : Hdr) (lat : Nat) (ws : List Write) (f : Flags) : (s.result h lat ws f).mem = s.mem := by
  unfold State.result
  dsimp only
  split <;> simp

@[simp] theorem trapHere_wf {s : State} (hs : Mem.wf s.mem = true) : Mem.wf (s.trapHere).mem = true := by simp [State.trapHere, hs]

@[simp] theorem markPoison_mem (s : State) (ctx va : Nat) (ofs : List Nat) : (s.markPoison ctx va ofs).mem = s.mem := rfl

@[simp] theorem loadElem_mem (s : State) (c size ord sub : Nat) (i : Nat) (pl : Place) :
    (s.loadElem c size ord sub i pl).1.mem = s.mem := by
  unfold State.loadElem
  repeat' split
  all_goals simp

@[simp] theorem loadElems_mem (s : State) (c size ord sub : Nat) (x : List (Nat × Place)) :
    (s.loadElems c size ord sub x).1.mem = s.mem := by
  induction x generalizing s with
  | nil => rfl
  | cons a l ih =>
    unfold State.loadElems
    exact (ih _).trans (loadElem_mem ..)

@[simp] theorem issueLoad_mem (s : State) (kind : LoadKind) (ord sub size budget lat : Nat) (pls : List (Nat × Place)) :
    (s.issueLoad kind ord sub size budget lat pls).mem = s.mem := by simp [State.issueLoad]

@[simp] theorem issueStore_wf {s : State} (hs : Mem.wf s.mem = true) (ord sub : Nat) (d : Chunk) (els : List (Place × List Byte)) :
    Mem.wf (s.issueStore ord sub d els).mem = true := by
  grind [State.issueStore, nearWrite_wf, modCur_mem, foldl_wf]

@[simp] theorem vChunk_wf {s : State} (hs : Mem.wf s.mem = true) (p : VPlan) (st : Stream) : Mem.wf (s.vChunk p st).mem = true := by
  unfold State.vChunk
  dsimp only
  split <;> simp [hs]

@[simp] theorem vIssue_wf {s : State} (hs : Mem.wf s.mem = true) (i : Instr) (p : VPlan) : Mem.wf (s.vIssue i p).mem = true :=
  by simp [State.vIssue, hs]

@[simp] theorem releaseAt_mem (s : State) (m : Cmd) (sc : Nat) : (s.releaseAt m sc).mem = s.mem := by
  unfold State.releaseAt
  dsimp only
  split <;> simp

@[simp] theorem askFlush_mem (s : State) (m : Cmd) (own : Bool) : (s.askFlush m own).mem = s.mem := by
  unfold State.askFlush
  dsimp only
  repeat' split
  all_goals simp

@[simp] theorem flushEnd_mem (s : State) (m : Cmd) : (s.flushEnd m).mem = s.mem := rfl

@[simp] theorem acquireAt_mem (s : State) (m : Cmd) (sc : Nat) : (s.acquireAt m sc).mem = s.mem := by simp [State.acquireAt]

theorem execRemoteWriteApply_wf {s : State} (hs : Mem.wf s.mem = true) (d : Nat) : AnswersCanonical (execRemoteWriteApply d s) := by
  unfold execRemoteWriteApply
  dsimp only
  repeat' split
  all_goals simp [hs]

theorem sRes_wf {s : State} (hs : Mem.wf s.mem = true) (h : Hdr) (lat : Nat) (d : Fin 32) (v : W64) (f : Flags) : AnswersCanonical
    (s.sRes h lat d v f) := by simp [State.sRes, hs]

theorem qRes_wf {s : State} (hs : Mem.wf s.mem = true) (h : Hdr) (d : Fin 16) (v : Chunk) : AnswersCanonical (s.qRes h d v) :=
  by simp [State.qRes, hs]

theorem execBld_wf {s : State} (hs : Mem.wf s.mem = true) (h : Hdr) (d : Fin 16) (a : Fin 32) (idx : BitVec 12) (lb : Fin 256) :
    AnswersCanonical (execBld h d a idx lb s) := by
  unfold execBld
  dsimp only
  split <;> simp [hs]

theorem penEffect_wf {s : State} (hs : Mem.wf s.mem = true) (h : Hdr) (f : Pen → Pen) : AnswersCanonical (s.penEffect h f) := by
  unfold State.penEffect
  dsimp only
  split <;> simp [hs]

theorem regionEdge_wf {s : State} (hs : Mem.wf s.mem = true) (h : Hdr) (edge : Option (BitVec 16)) : AnswersCanonical
    (s.regionEdge h edge) := by
  unfold State.regionEdge
  dsimp only
  repeat' split
  all_goals simp [hs, stopHere_mem]

theorem execTrap_wf {s : State} (hs : Mem.wf s.mem = true) (h : Hdr) (code : BitVec 32) (a : Fin 32) : AnswersCanonical
    (execTrap h code a s) := by
  unfold execTrap
  dsimp only
  split <;> simp [hs, stopHere_mem]

theorem execBrk_wf {s : State} (hs : Mem.wf s.mem = true) (h : Hdr) (code : BitVec 32) : AnswersCanonical (execBrk h code s) := by
  unfold execBrk
  dsimp only
  split <;> simp [hs, stopHere_mem]

@[simp] theorem sampleFault_wf {s : State} (hs : Mem.wf s.mem = true) (p : Pen) (rel : Nat) (acc : Acc) (va : Nat) (x : XFault) : Mem.wf
    (s.sampleFault p rel acc va x).mem = true := by
  unfold State.sampleFault
  split <;> simp [hs]

@[simp] theorem sampleDrop_wf {s : State} (hs : Mem.wf s.mem = true) (p : Pen) (rel cb d : Nat) : Mem.wf
    (s.sampleDrop p rel cb d).mem = true := by
  grind [State.sampleDrop, vwrite_wf, sampleFault_wf]

theorem samplePut_wf {s t : State} (hs : Mem.wf s.mem = true) {p : Pen} {x : List (Nat × List Byte)} (e : s.samplePut p x = .ok t) :
    Mem.wf t.mem = true := by
  induction x generalizing s with
  | nil =>
    cases e
    exact hs
  | cons a l ih =>
    unfold State.samplePut at e
    split at e
    · exact ih (vwrite_wf hs ‹_›) e
    · cases e

@[simp] theorem sample_wf {s : State} (hs : Mem.wf s.mem = true) (h : Nat) (ty : Nat) (ws : List W64) (rel : Nat) : Mem.wf
    (s.sample h ty ws rel).mem = true := by
  unfold State.sample
  extract_lets p cb
  split
  · exact hs
  · split
    · exact hs
    · split
      · exact sampleFault_wf hs ..
      · extract_lets
        split
        · exact sampleDrop_wf hs ..
        · split
          · exact samplePut_wf hs ‹_›
          · exact sampleDrop_wf (sampleFault_wf hs ..) ..

@[simp] theorem stallSpill_wf {s : State} (hs : Mem.wf s.mem = true) (e : W64 × Nat × W64) (why : Nat) : Mem.wf
    (s.stallSpill e why).mem = true := by simp [State.stallSpill, hs]

@[simp] theorem stallCount_wf {s : State} (hs : Mem.wf s.mem = true) (h : Nat) (why : Hold) (col : Nat) : Mem.wf
    (s.stallCount h why col).mem = true := by
  unfold State.stallCount
  dsimp only
  repeat' split
  all_goals simp [hs]

@[simp] theorem stallEnd_wf {s : State} (hs : Mem.wf s.mem = true) (ctx : Nat) : Mem.wf (s.stallEnd ctx).mem = true := by
  grind [State.stallEnd, stallSpill_wf, modDie_mem, foldl_wf]

theorem execTrmark_wf {s : State} (hs : Mem.wf s.mem = true) (h : Hdr) (imm : BitVec 32) (a : Fin 32) : AnswersCanonical
    (execTrmark h imm a s) := by
  unfold execTrmark
  dsimp only
  split <;> simp [hs]

@[simp] theorem met_mem (s : State) (die : Nat) (x : XFault) : (s.met die x).mem = s.mem := by
  unfold State.met
  split <;> simp

@[simp] theorem syncFail_mem (s : State) (m : Cmd) : (s.syncFail m).mem = s.mem := rfl

@[simp] theorem cmdFault_wf {s : State} (hs : Mem.wf s.mem = true) (m : Cmd) (agent die inst va : Nat) (acc : Acc) (x : XFault) : Mem.wf
    (s.cmdFault m agent die inst va acc x).1.mem = true := by
  unfold State.cmdFault
  dsimp only
  repeat' split
  all_goals simp [hs]

@[simp] theorem answer_mem (s : State) (d : Done) : (s.answer d).mem = s.mem := by
  unfold State.answer
  split <;> simp

@[simp] theorem askPeer_mem (s : State) (id : Nat) (f : List Nat) : (s.askPeer id f).mem = s.mem := rfl

@[simp] theorem peersEnd_mem (s : State) (id : Nat) : (s.peersEnd id).mem = s.mem := rfl

@[simp] theorem peerGate_wf {s t : State} (hs : Mem.wf s.mem = true) (ht : Mem.wf t.mem = true) (id : Nat) {fail :
    Nat → Nat → Nat → State} (hf : ∀ x y z, Mem.wf (fail x y z).mem = true) : Mem.wf (s.peerGate id t fail).mem = true := by
  grind [State.peerGate, peersEnd_mem, askPeer_mem, foldl_mem]

@[simp] theorem peerAnswer_wf {s : State} (hs : Mem.wf s.mem = true) (id code detail : Nat) (data : List Nat) : Mem.wf
    (s.peerAnswer id code detail data).mem = true := by
  unfold State.peerAnswer
  dsimp only
  repeat' split
  all_goals simp [hs]

@[simp] theorem loadImage_wf {s : State} (hs : Mem.wf s.mem = true) (p : Pen) (c : Nat) (im : List Byte) : Mem.wf
    (s.loadImage p c im).mem = true := by simp [State.loadImage, hs]

@[simp] theorem checkpointMark_mem (s : State) (h : Nat) (bad : List Nat) : (s.checkpointMark h bad).mem = s.mem := rfl

@[simp] theorem restoreImage_wf {s : State} (hs : Mem.wf s.mem = true) (h : Nat) (bs : List Byte) : Mem.wf
    (s.restoreImage h bs).mem = true := foldl_wf (fun u _ hu => by simp [hu]) _ hs

@[simp] theorem writeCheckpoint_mem (s : State) (h : Nat) : (s.writeCheckpoint h).mem = s.mem := rfl

end Sys2Proof.Machine
end

section
/-! PROOFS. Memory stays in its canonical form: demand units (R185, R208 to R225). -/

namespace Sys2Proof.Machine

open Sys2Proof

@[simp] theorem entryClear_wf {s : State} (hs : Mem.wf s.mem = true) (p : Pen) (o : Output) (q t : Nat) : Mem.wf
    (s.entryClear p o q t).mem = true := by simp [State.entryClear, hs]

@[simp] theorem entryBeat_wf {s : State} (hs : Mem.wf s.mem = true) (p : Pen) (o : Output) (q t i : Nat) (tok : Tok) : Mem.wf
    (s.entryBeat p o q t i tok).mem = true := by
  grind [State.entryBeat, entryClear_wf, nearWrite_wf]

@[simp] theorem entryClose_wf {s : State} (hs : Mem.wf s.mem = true) (p : Pen) (o : Output) (q t : Nat) (inv : Bool) : Mem.wf
    (s.entryClose p o q t inv).mem = true := by
  unfold State.entryClose
  split <;> simp [hs]

@[simp] theorem entryDrop_wf {s : State} (hs : Mem.wf s.mem = true) (p : Pen) (o : Output) (t : Nat) : Mem.wf
    (s.entryDrop p o t).mem = true := by
  grind [State.entryDrop, entryClear_wf, foldl_wf]

@[simp] theorem modEdge_mem (s : State) (e : Nat) (f : Edge → Edge) : (s.modEdge e f).mem = s.mem := rfl

@[simp] theorem edgeRefresh_mem (s : State) (i : Nat) : (s.edgeRefresh i).mem = s.mem := rfl

@[simp] theorem edgePush_mem (s : State) (i q : Nat) (t : Tok) : (s.edgePush i q t).mem = s.mem := rfl

theorem execTokenArrival_wf {s : State} (hs : Mem.wf s.mem = true) (i : Nat) : AnswersCanonical (execTokenArrival i s) := by
  grind [answersCanonical_next, execTokenArrival, modCore_mem, modEdge_mem, foldl_mem]

@[simp] theorem routePort_wf {s : State} (hs : Mem.wf s.mem = true) (h c : Nat) (port : Fin 8) (x : Nat) : Mem.wf
    (s.routePort h c port x).mem = true := by
  induction x generalizing s with
  | zero => exact hs
  | succ n ih =>
    unfold State.routePort
    dsimp only
    split
    · exact hs
    split
    · exact ih (by simp [hs])
    split
    · exact ih (by simp [hs])
    split
    · split
      · exact hs
      · exact ih (by simp [hs])
    · exact ih (by simp [hs])

@[simp] theorem routePen_wf {s : State} (hs : Mem.wf s.mem = true) (h : Nat) : Mem.wf (s.routePen h).mem = true := by
  grind [State.routePen, modPen_mem, routePort_wf, foldl_wf]

@[simp] theorem modDu_mem (s : State) (h : Nat) (f : Demand → Demand) : (s.modDu h f).mem = s.mem := rfl

@[simp] theorem modOut_mem (s : State) (h i : Nat) (f : Output → Output) : (s.modOut h i f).mem = s.mem := rfl

@[simp] theorem sortTicks_mem (s : State) (h i a b : Nat) : (s.sortTicks h i a b).mem = s.mem := rfl

@[simp] theorem ask_mem (s : State) (i : Input) (a b : Nat) : (s.ask i a b).mem = s.mem := by
  unfold State.ask
  split <;> simp

@[simp] theorem askMore_mem (s : State) (h : Nat) (r : Run) (n1 : Nat) : (s.askMore h r n1).mem = s.mem := by
  grind [State.askMore, ask_mem, modDu_mem, foldl_mem]

@[simp] theorem extendRun_mem (s : State) (h : Nat) : (s.extendRun h).mem = s.mem := by
  unfold State.extendRun
  dsimp only
  repeat' split
  all_goals simp

theorem execDemandRequest_wf {s : State} (hs : Mem.wf s.mem = true) (h i : Nat) : AnswersCanonical (execDemandRequest h i s) := by
  grind [answersCanonical_next, execDemandRequest, modOut_mem, sortTicks_mem, extendRun_mem, foldl_mem]

@[simp] theorem reap_mem (s : State) (h i : Nat) : (s.reap h i).mem = s.mem := by
  grind [State.reap, modOut_mem, modDu_mem, answer_mem, foldl_mem]

@[simp] theorem delivered_mem (s : State) (h i t : Nat) (lost : Bool) : (s.delivered h i t lost).mem = s.mem := by simp [State.delivered]

theorem execOutputDelivery_wf {s : State} (hs : Mem.wf s.mem = true) (h i : Nat) : AnswersCanonical (execOutputDelivery h i s) := by
  grind [answersCanonical_next, execOutputDelivery, extendRun_mem, sortTicks_mem, ueMet_mem, delivered_mem, edgePush_mem, modOut_mem,
    foldl_mem]

@[simp] theorem deliverLost_wf {s : State} (hs : Mem.wf s.mem = true) (h a b : Nat) : Mem.wf (s.deliverLost h a b).mem = true := by
  grind [State.deliverLost, entryBeat_wf, entryClose_wf, modOut_mem, foldl_wf]

@[simp] theorem dropInput_mem (s : State) (h : Nat) (i : Input) : (s.dropInput h i).mem = s.mem := foldl_mem (by simp) _ _

@[simp] theorem plan_wf {s : State} (hs : Mem.wf s.mem = true) (h n0 n1 : Nat) : Mem.wf (s.plan h n0 n1).mem = true := by
  grind [State.plan, deliverLost_wf, checkpointMark_mem, restoreImage_wf, modPen_mem, modDu_mem, dropInput_mem, ask_mem, foldl_mem]

@[simp] theorem chooseRun_wf {s : State} (hs : Mem.wf s.mem = true) (h : Nat) : Mem.wf (s.chooseRun h).mem = true := by
  unfold State.chooseRun
  dsimp only
  repeat' split
  all_goals simp [hs]

@[simp] theorem below0_mem (s : State) (h : Nat) (u : Int) : (s.below0 h u).mem = s.mem := by
  grind [State.below0, modCore_mem, foldl_mem]

@[simp] theorem startTick_mem (s : State) (h : Nat) (u : Int) : (s.startTick h u).mem = s.mem := by simp [State.startTick]

@[simp] theorem endOutput_wf {s : State} (hs : Mem.wf s.mem = true) (h i : Nat) : Mem.wf (s.endOutput h i).mem = true := by
  grind [State.endOutput, entryClose_wf, modOut_mem, delivered_mem, foldl_wf]

@[simp] theorem endTick_wf {s : State} (hs : Mem.wf s.mem = true) (h : Nat) : Mem.wf (s.endTick h).mem = true := by
  grind [State.endTick, modPen_mem, modDu_mem, endOutput_wf, writeCheckpoint_mem, foldl_wf]

@[simp] theorem abandon_wf {s : State} (hs : Mem.wf s.mem = true) (x : Nat) (y : Nat) (z : Int) : Mem.wf (s.abandon x y z).mem = true := by
  induction x generalizing s y z with
  | zero => exact hs
  | succ n ih =>
    unfold State.abandon
    dsimp only
    split
    · exact hs
    · refine foldl_wf (fun u i hu => ?_) _ (by simpa using hs)
      split
      · refine foldl_wf (fun u x hu => ih hu _ _) _ ?_
        rw [edgeRefresh_mem, foldl_mem (by simp), modEdge_mem]
        split
        · exact entryDrop_wf hu _ _ _
        · exact hu
      · split
        · exact entryDrop_wf hu _ _ _
        · exact hu

@[simp] theorem notePops_mem (s : State) (h : Nat) : (s.notePops h).mem = s.mem := rfl

@[simp] theorem cutRun_mem (s : State) (h : Nat) (cut : Ivs) : (s.cutRun h cut).1.mem = s.mem := by
  unfold State.cutRun
  dsimp only
  repeat' split
  all_goals simp

@[simp] theorem withdraw_mem (s : State) (x : Nat) (y : Nat) (z : Run) (w : Nat) : (s.withdraw x y z w).mem = s.mem := by
  induction x generalizing s y z w with
  | zero => rfl
  | succ n ih => 
    unfold State.withdraw
    refine foldl_mem (fun u j => ?_) _ s
    dsimp only
    split
    · next h1 h2 => 
      have := congrArg (fun x => x.1.mem) h2
      simp only [cutRun_mem, modOut_mem, reap_mem, edgeRefresh_mem, modEdge_mem] at this
      rw [ih, ← this, foldl_mem (by simp), modDu_mem]
    · next h2 _ => 
      have := congrArg (fun x => x.1.mem) h2
      simp only [cutRun_mem, modOut_mem, reap_mem, edgeRefresh_mem, modEdge_mem] at this
      rw [← this, foldl_mem (by simp), modDu_mem]

@[simp] theorem retract_mem (s : State) (h i a b : Nat) : (s.retract h i a b).1.mem = s.mem := by
  grind [State.retract, modOut_mem, reap_mem, cutRun_mem, withdraw_mem]

@[simp] theorem duAnswer_mem (s : State) (d : Done) : (s.duAnswer d).mem = s.mem := by
  unfold State.duAnswer
  split <;> simp

@[simp] theorem postDemand_mem (s : State) (m : Cmd) (h i t0 t1 : Nat) : (s.postDemand m h i t0 t1).mem = s.mem := by
  unfold State.postDemand
  split <;> simp

@[simp] theorem demandFault_wf {s : State} (hs : Mem.wf s.mem = true) (m : Cmd) (h va : Nat) (acc : Acc) (x : XFault) : Mem.wf
    (s.demandFault m h va acc x).mem = true := by
  unfold State.demandFault
  dsimp only
  split <;> simp [hs]

@[simp] theorem doLexp_wf {s : State} (hs : Mem.wf s.mem = true) (m : Cmd) (h : Nat) : Mem.wf (s.doLexp m h).mem = true := by
  grind [State.doLexp, vwriteBy_wf, demandFault_wf, duAnswer_mem, markPoison_mem]

@[simp] theorem doLimp_wf {s : State} (hs : Mem.wf s.mem = true) (m : Cmd) (h : Nat) : Mem.wf (s.doLimp m h).mem = true := by
  unfold State.doLimp
  dsimp only
  split
  · simpa using hs
  · split
    · exact demandFault_wf hs _ _ _ _ _
    · split
      · simpa using hs
      · split
        · exact demandFault_wf hs _ _ _ _ _
        · simp only [duAnswer_mem, modDu_mem]
          exact foldl_wf (fun u o hu => foldl_wf (fun u q hu => foldl_wf (fun u t hu => nearWrite_wf hu _ _) _ hu) _ hu) _
            (restoreImage_wf hs _ _)

@[simp] theorem boundaryCmd_wf {s : State} (hs : Mem.wf s.mem = true) (h : Nat) (m : Cmd) : Mem.wf (s.boundaryCmd h m).mem = true := by
  unfold State.boundaryCmd
  repeat' split
  all_goals simp [hs]

@[simp] theorem boundaryCmds_wf {s : State} (hs : Mem.wf s.mem = true) (h : Nat) : Mem.wf (s.boundaryCmds h).mem = true := by
  grind [State.boundaryCmds, boundaryCmd_wf, modDu_mem, foldl_wf]

@[simp] theorem retryBoundary_wf {s : State} (hs : Mem.wf s.mem = true) (h : Nat) : Mem.wf (s.retryBoundary h).mem = true := by
  unfold State.retryBoundary
  dsimp only
  split <;> simp [hs]

@[simp] theorem atBoundary_wf {s : State} (hs : Mem.wf s.mem = true) (h : Nat) (m : Cmd) : Mem.wf (s.atBoundary h m).mem = true := by
  unfold State.atBoundary
  dsimp only
  split <;> simp [hs]

@[simp] theorem demandCmd_wf {s : State} (hs : Mem.wf s.mem = true) (h : Nat) (m : Cmd) : Mem.wf (s.demandCmd h m).mem = true := by
  unfold State.demandCmd
  dsimp only
  repeat' split
  all_goals simp [hs]

theorem execDemandUnitCommand_wf {s : State} (hs : Mem.wf s.mem = true) (h : Nat) : AnswersCanonical (execDemandUnitCommand h s) := by
  unfold execDemandUnitCommand
  extract_lets
  split
  · simpa using hs
  · next m _ _ => 
    extract_lets a b c
    have hc : Mem.wf c.mem = true := by grind [askFlush_mem, releaseAt_mem, acquireAt_mem]
    split
    · simpa [a] using hs
    · exact keyGuard_wf hc (demandCmd_wf (by simpa using hc) ..) _ _

end Sys2Proof.Machine
end

section
/-! PROOFS. Memory stays in its canonical form: near space and the matrix node. -/

namespace Sys2Proof.Machine

open Sys2Proof

@[simp] theorem nearCheck_mem (s : State) (ord : Nat) : (s.nearCheck ord).mem = s.mem := rfl

@[simp] theorem keepStream_mem (s : State) (st : Stream) : (s.keepStream st).mem = s.mem := by
  unfold State.keepStream
  split <;> simp

@[simp] theorem loadChunk_mem (s : State) (st : Stream) (d : VDst) (n : Ns) (idx : Nat → Int) (span : Nat) :
    (s.loadChunk st d n idx span).mem = s.mem := by
  unfold State.loadChunk
  dsimp only
  split <;> simp

@[simp] theorem storeChunk_wf {s : State} (hs : Mem.wf s.mem = true) (st : Stream) (src : VSrc) (n : Ns) (idx : Nat → Int) (span : Nat) :
    Mem.wf (s.storeChunk st src n idx span).mem = true := by
  unfold State.storeChunk
  dsimp only
  repeat' split
  all_goals simp [hs]

@[simp] theorem vldChunk_mem (s : State) (st : Stream) (d : VDst) (n : Ns) : (s.vldChunk st d n).mem = s.mem := by simp [State.vldChunk]

@[simp] theorem vgthChunk_mem (s : State) (st : Stream) (d : VDst) (n : Ns) : (s.vgthChunk st d n).mem = s.mem := by simp [State.vgthChunk]

@[simp] theorem vstChunk_wf {s : State} (hs : Mem.wf s.mem = true) (st : Stream) (d : VSrc) (n : Ns) : Mem.wf
    (s.vstChunk st d n).mem = true := by simp [State.vstChunk, hs]

@[simp] theorem vsctChunk_wf {s : State} (hs : Mem.wf s.mem = true) (st : Stream) (d : VSrc) (n : Ns) : Mem.wf
    (s.vsctChunk st d n).mem = true := by simp [State.vsctChunk, hs]

theorem execLd_wf {s : State} (hs : Mem.wf s.mem = true) (h : Hdr) (d : SPort) (n : Ns) : AnswersCanonical (execLd h d n s) := by
  unfold execLd
  dsimp only
  repeat' split
  all_goals simp [hs]

theorem execSt_wf {s : State} (hs : Mem.wf s.mem = true) (h : Hdr) (d : SPort) (n : Ns) : AnswersCanonical (execSt h d n s) := by
  unfold execSt
  dsimp only
  repeat' split
  all_goals simp [hs]

@[simp] theorem vStep_wf {s : State} (hs : Mem.wf s.mem = true) (st : Stream) : Mem.wf (s.vStep st).mem = true := by
  unfold State.vStep
  split <;> simp [hs]

@[simp] theorem nodeWord_wf {s : State} (hs : Mem.wf s.mem = true) (h : Hdr) (names : List (Fin 8)) (busy : Nat) (oa : Bool) {f :
    State → Nat → State} (hf : ∀ u x, Mem.wf u.mem = true → Mem.wf (f u x).mem = true) : Mem.wf
    (s.nodeWord h names busy oa f).mem = true := by
  unfold State.nodeWord
  dsimp only
  repeat' split
  all_goals simp [*, stopHere_mem]

@[simp] theorem fly_mem (s : State) (ord sub lat : Nat) (ws : List Write) (f : Flags) : (s.fly ord sub lat ws f).mem = s.mem := rfl

@[simp] theorem mCheck_mem (s : State) : (s.mCheck).mem = s.mem := rfl

theorem execGinit_wf {s : State} (hs : Mem.wf s.mem = true) (h : Hdr) (g : Fin 8) (a : Fin 32) (ty : Fmt) (cap : Fin 256) (kbm1 : Fin 64) :
    AnswersCanonical (execGinit h g a ty cap kbm1 s) := by
  unfold execGinit
  dsimp only
  split <;> simp [hs]

theorem execGadv_wf {s : State} (hs : Mem.wf s.mem = true) (h : Hdr) (g : Fin 8) (n : Fin 256) : AnswersCanonical (execGadv h g n s) := by
  unfold execGadv
  dsimp only
  split <;> simp [hs]

theorem execGpop_wf {s : State} (hs : Mem.wf s.mem = true) (h : Hdr) (g : Fin 8) (n : Fin 256) : AnswersCanonical (execGpop h g n s) := by
  unfold execGpop
  dsimp only
  split <;> simp [hs]

@[simp] theorem gfillStep_wf {s : State} (hs : Mem.wf s.mem = true) (st : Stream) (g : Fin 8) (p : Fin 8) (ty : Fmt) : Mem.wf
    (s.gfillStep st g p ty).mem = true := by
  unfold State.gfillStep
  dsimp only
  split <;> simp [hs]

theorem execGfill_wf {s : State} (hs : Mem.wf s.mem = true) (h : Hdr) (g : Fin 8) (p : Fin 8) (ty : Fmt) (cnt : Fin 32) :
    AnswersCanonical (execGfill h g p ty cnt s) := by
  unfold execGfill
  dsimp only
  split <;> simp [hs]

@[simp] theorem multiply_mem (s : State) (h : Hdr) (o : Mma) (tr : Bool) : (s.multiply h o tr).mem = s.mem := by
  grind [State.multiply, stopHere_mem, modCur_mem, mCheck_mem, ueMet_mem, count_mem, fly_mem]

theorem execMdrain_wf {s : State} (hs : Mem.wf s.mem = true) (h : Hdr) (o : Mdrain) : AnswersCanonical (execMdrain h o s) := by
  grind [answersCanonical_next, execMdrain, stopHere_mem, modCur_mem, mCheck_mem]

theorem execMld_wf {s : State} (hs : Mem.wf s.mem = true) (h : Hdr) (ad : Fin 8) (n : Ns) : AnswersCanonical (execMld h ad n s) :=
  answersCanonical_next.2 (nodeWord_wf hs _ _ _ _ (fun u x hu => by
    split
    · simpa using hu
    · simpa using hu))

theorem execMst_wf {s : State} (hs : Mem.wf s.mem = true) (h : Hdr) (ad : Fin 8) (n : Ns) : AnswersCanonical (execMst h ad n s) :=
  answersCanonical_next.2 (nodeWord_wf hs _ _ _ _ (fun u x hu => by
    split
    · simpa using hu
    · exact issueStore_wf hu ..))

end Sys2Proof.Machine
end

section
/-! PROOFS. Memory stays in its canonical form: what leaves a core, the ladle, and where a command is taken (R56, R166, R174). -/

namespace Sys2Proof.Machine

open Sys2Proof

@[simp] theorem releaseEntry_wf {s : State} (hs : Mem.wf s.mem = true) (c : Nat) (e : CqEntry) :
    Mem.wf (s.releaseEntry c e).mem = true := by
  grind [State.releaseEntry, count_mem, modCore_mem, nearWrite_wf, acquireAt_mem, modPen_mem, foldl_wf]

@[simp] theorem releaseCore_wf {s : State} (hs : Mem.wf s.mem = true) (c : Nat) : Mem.wf (s.releaseCore c).mem = true :=
  foldl_wf (fun u _ hu => by simp [hu]) _ hs

@[simp] theorem asyncWord_mem (s : State) (i : Instr) (h : Hdr) (o : F6) : (s.asyncWord i h o).mem = s.mem := rfl

@[simp] theorem syncWord_wf {s : State} (hs : Mem.wf s.mem = true) (i : Instr) (h : Hdr) (o : F6) (bad : Cmd → Bool) : Mem.wf
    (s.syncWord i h o bad).mem = true := by
  unfold State.syncWord
  dsimp only
  repeat' split
  all_goals simp [hs, stopHere_mem]

@[simp] theorem keepPoison_mem (s : State) (ks : List Nat) (t : State) : (s.keepPoison ks t).mem = t.mem := rfl

@[simp] theorem nearLate_wf {s : State} (hs : Mem.wf s.mem = true) (m : Cmd) (a : Nat) (ps : List (Byte × Byte)) : Mem.wf
    (s.nearLate m a ps).mem = true := by simp [State.nearLate, hs]

@[simp] theorem ladWrites_wf {s : State} (hs : Mem.wf s.mem = true) (m : Cmd) (near : Bool) (x : LProg) (y : List LWrite) : Mem.wf
    (s.ladWrites m near x y).1.mem = true := by
  induction y generalizing s x with
  | nil => exact hs
  | cons w ws ih =>
    unfold State.ladWrites
    split
    · exact ih (nearLate_wf hs ..) _
    · split
      · exact hs
      · exact ih (by simp [hs]) _

@[simp] theorem chunkNote_mem (s : State) (ctx pn : Nat) (x : Option XFault) : (s.chunkNote ctx pn x).mem = s.mem :=
  by simp [State.chunkNote]

@[simp] theorem ladFlush_wf {s : State} (hs : Mem.wf s.mem = true) (die : Nat) (m : Cmd) (df : Fmt) (p : LProg) : Mem.wf
    (s.ladFlush die m df p).1.mem = true := by
  unfold State.ladFlush
  refine foldl_fst_wf (fun x pn hx => ?_) _ hs
  dsimp only
  repeat' split
  all_goals simp [hx]

@[simp] theorem trailNote_wf {s : State} (hs : Mem.wf s.mem = true) (die e : Nat) (m : Cmd) (utag : Nat) (vas : List Nat) : Mem.wf
    (s.trailNote die e m utag vas).mem = true := by
  grind [State.trailNote, countDie_mem, modDie_mem, sample_wf, foldl_wf]

@[simp] theorem requestsNote_wf {s : State} (hs : Mem.wf s.mem = true) (die e utag : Nat) (j : Job) (reads : Bool) (reqs : List Nat) :
    Mem.wf (s.requestsNote die e utag j reads reqs).1.mem = true := by
  grind [State.requestsNote, tlbUse_mem, readNote_mem, trailNote_wf, foldl_mem]

@[simp] theorem pagesNote_mem (s : State) (m : Cmd) (chunks : List (Nat × Option XFault)) : (s.pagesNote m chunks).mem = s.mem := by
  grind [State.pagesNote, chunkNote_mem, foldl_mem]

@[simp] theorem ladFault_wf {s : State} (hs : Mem.wf s.mem = true) (die e utag : Nat) (j : Job) (e6 : BitVec 32) (acc : Acc) (va : Nat)
    (x : XFault) : Mem.wf (s.ladFault die e utag j e6 acc va x).1.mem = true := by
  unfold State.ladFault
  dsimp only
  repeat' split
  all_goals simp [hs]

@[simp] theorem engineRead_mem (s : State) (m : Cmd) (vas : List Nat) : (s.engineRead m vas).mem = s.mem := by simp [State.engineRead]

@[simp] theorem ladPerform_wf {s : State} (hs : Mem.wf s.mem = true) (die e : Nat) (j : Job) (before : List Nat) (r : LRec) (sd dd :
    LDesc) (ops : List LOp) : Mem.wf (s.ladPerform die e j before r sd dd ops).1.mem = true := by
  grind [State.ladPerform, pagesNote_mem, requestsNote_wf, engineRead_mem, ladFault_wf, releaseAt_mem, ladWrites_wf, ladFlush_wf]

@[simp] theorem ladPrefetch_wf {s : State} (hs : Mem.wf s.mem = true) (die e : Nat) (j : Job) (before : List Nat) (r : LRec) (sd : LDesc)
    (ops : List LOp) : Mem.wf (s.ladPrefetch die e j before r sd ops).1.mem = true := by
  unfold State.ladPrefetch
  dsimp only
  have hn : ∀ (heads : List Nat) (l : List LOp) (f : LOp → List Nat), Mem.wf ((heads.foldl (fun s h => s.readNote die j.cmd.ctx h)
      (l.foldl (fun s o => (f o).foldl (fun s va => s.tlbUse die j.cmd.ctx va) s) s))).mem = true := by
    intro heads l f
    rw [foldl_mem (by simp), foldl_mem (fun u o => foldl_mem (by simp) _ _)]
    exact hs
  split
  · exact ladFault_wf (requestsNote_wf (hn _ _ _) _ _ _ _ _ _) _ _ _ _ _ _ _ _
  · exact requestsNote_wf (hn _ _ _) _ _ _ _ _ _

@[simp] theorem ladWith_wf {s : State} (hs : Mem.wf s.mem = true) (die e : Nat) (j : Job) (r : LRec) (ds dd : Chunk) : Mem.wf
    (s.ladWith die e j r ds dd).1.mem = true := by
  unfold State.ladWith
  extract_lets m tdt tds
  split
  next u j hu =>
  have hu := wf_of_fst (requestsNote_wf hs ..) hu
  extract_lets
  split
  · exact hu
  · split
    · exact ladFault_wf hu ..
    · extract_lets
      split
      next v j hv =>
      have hv := wf_of_fst (requestsNote_wf hu ..) hv
      extract_lets stop
      repeat' split
      all_goals simp [hv, stop]

@[simp] theorem ladJob_wf {s : State} (hs : Mem.wf s.mem = true) (die e : Nat) (j : Job) : Mem.wf (s.ladJob die e j).1.mem = true := by
  unfold State.ladJob
  dsimp only
  repeat' split
  all_goals simp [hs]

@[simp] theorem askFlushes_mem (s : State) (js : List Job) : (s.askFlushes js).mem = s.mem := by
  grind [State.askFlushes, askFlush_mem, foldl_mem]

theorem execLadleExecute_wf {s : State} (hs : Mem.wf s.mem = true) (die e : Nat) : AnswersCanonical (execLadleExecute die e s) := by
  unfold execLadleExecute
  extract_lets js u
  have hu : Mem.wf u.mem = true := by simpa [u] using hs
  split
  · exact answersCanonical_next.2 hu
  · extract_lets j ends
    split
    next t out h =>
    have ht := wf_of_fst (ladJob_wf hu ..) h
    refine keyGuard_wf hu (peerGate_wf hu ?_ _ (fun _ _ _ => by simpa [ends] using hu)) _ _
    split
    · simpa using ht
    · simpa [ends] using ht

@[simp] theorem takeSend_mem (s : State) (m : Cmd) : (s.takeSend m).mem = s.mem := by
  unfold State.takeSend
  dsimp only
  repeat' split
  all_goals simp [modChain_mem]

theorem accept_wf {s t : State} (hs : Mem.wf s.mem = true) {m : Cmd} (e : s.accept m = some t) : Mem.wf t.mem = true := by
  grind [State.accept, answer_mem, modDie_mem, takeSend_mem, modChain_mem, modDu_mem, abandon_wf]

theorem offer_wf {s t : State} (hs : Mem.wf s.mem = true) {c : Nat} (e : s.offer c = some t) : Mem.wf t.mem = true := by
  unfold State.offer at e
  split at e
  · cases e
  · obtain ⟨u, hu, rfl⟩ := Option.map_eq_some_iff.1 e
    simpa using accept_wf hs hu

@[simp] theorem offerAll_wf {s : State} (hs : Mem.wf s.mem = true) (c : Nat) (x : Nat) : Mem.wf (s.offerAll c x).mem = true := by
  induction x generalizing s with
  | zero => exact hs
  | succ n ih =>
    unfold State.offerAll
    split
    · exact hs
    · exact ih (offer_wf hs ‹_›)

theorem execEngineAccept_wf {s : State} (hs : Mem.wf s.mem = true) (c : Nat) : AnswersCanonical (execEngineAccept c s) := by
  refine answersCanonical_next.2 ?_
  cases h : s.offer c with
  | none => exact hs
  | some t => exact offer_wf hs h

end Sys2Proof.Machine
end

section
/-! PROOFS. Memory stays in its canonical form: bellwethers, ports and the drove. -/

namespace Sys2Proof.Machine

open Sys2Proof

@[simp] theorem syncEnd_mem (s : State) (m : Cmd) : (s.syncEnd m).mem = s.mem := rfl

@[simp] theorem bellFault_wf {s : State} (hs : Mem.wf s.mem = true) (die : Nat) (j : Job) (va : Nat) (acc : Acc) (x : XFault) : Mem.wf
    (s.bellFault die j va acc x).1.mem = true := by
  unfold State.bellFault
  dsimp only
  repeat' split
  all_goals simp [hs]

@[simp] theorem holdLine_mem (s : State) (pl : List (Nat × Nat)) : (s.holdLine pl).mem = s.mem := by
  unfold State.holdLine
  repeat' split
  all_goals simp

@[simp] theorem acq_mem (s : State) (m : Cmd) : (s.acq m).mem = s.mem := by
  unfold State.acq
  split <;> simp

@[simp] theorem rel_mem (s : State) (m : Cmd) : (s.rel m).mem = s.mem := by
  unfold State.rel
  split <;> simp

theorem relWrite_wf {s t : State} (hs : Mem.wf s.mem = true) {m : Cmd} {pl : List (Nat × Nat)} {bs : List Byte} (e :
    s.relWrite m pl bs = .ok t) : Mem.wf t.mem = true :=
  map_wf (fun u hu => writePlaces_wf (by simpa using hs) hu) (fun u hu => by simpa using hu) e

@[simp] theorem atomNote_mem (s : State) (die : Nat) (m : Cmd) (pa : Nat) : (s.atomNote die m pa).mem = s.mem := by
  unfold State.atomNote
  split <;> simp

@[simp] theorem atomJob_wf {s : State} (hs : Mem.wf s.mem = true) (die : Nat) (j : Job) : Mem.wf (s.atomJob die j).1.mem = true := by
  unfold State.atomJob
  extract_lets
  split
  · exact hs
  · split
    · exact bellFault_wf hs ..
    · split
      · exact bellFault_wf hs ..
      · extract_lets old u
        have hu : Mem.wf u.mem = true := by simpa [u] using hs
        split
        · exact hu
        · split
          next new fl hn =>
          extract_lets
          split
          · simpa using hu
          · split
            · exact bellFault_wf hu ..
            · next hw => 
              rw [countDie_mem]
              exact relWrite_wf hu hw

@[simp] theorem bellRead_mem (s : State) (die : Nat) (m : Cmd) (va : Nat) (pl : List (Nat × Nat)) :
    (s.bellRead die m va pl).mem = s.mem := by
  unfold State.bellRead
  repeat' split
  all_goals simp

@[simp] theorem firstRead_mem (s : State) (die : Nat) (j : Job) (pl : List (Nat × Nat)) : (s.firstRead die j pl).mem = s.mem := by
  unfold State.firstRead
  split <;> simp

@[simp] theorem awaitJob_wf {s : State} (hs : Mem.wf s.mem = true) (die : Nat) (j : Job) : Mem.wf (s.awaitJob die j).1.mem = true := by
  unfold State.awaitJob
  dsimp only
  repeat' split
  all_goals simp [hs]

@[simp] theorem literJob_wf {s : State} (hs : Mem.wf s.mem = true) (die : Nat) (j : Job) : Mem.wf (s.literJob die j).1.mem = true := by
  unfold State.literJob
  dsimp only
  repeat' split
  all_goals simp [hs]

@[simp] theorem listJob_wf {s : State} (hs : Mem.wf s.mem = true) (die : Nat) (j : Job) (push : Bool) : Mem.wf
    (s.listJob die j push).1.mem = true := by
  unfold State.listJob
  extract_lets _ _ _ _ _ _ _ _ sent
  have hsent : ∀ u pl, (sent u pl).mem = u.mem := fun u pl => peerWrite_mem u _ _
  clear_value sent
  split
  · exact hs
  split
  · exact hs
  split
  · exact hs
  split
  · exact hs
  split
  · exact bellFault_wf hs ..
  split
  · exact bellFault_wf hs ..
  extract_lets
  split
  · exact hs
  split
  · exact hs
  split
  · exact bellFault_wf hs ..
  extract_lets u
  have hu : Mem.wf u.mem = true := by simpa [u] using hs
  split
  · exact bellFault_wf hu ..
  next v hv =>
  have hv : Mem.wf v.mem = true := writePlaces_wf (by simpa using hu) hv
  extract_lets w
  have hw : Mem.wf w.mem = true := by simpa [w, hsent] using hv
  split
  · split
    · exact bellFault_wf hu ..
    · next hx => simpa [hsent] using writePlaces_wf hw hx
  · split
    · exact bellFault_wf hu ..
    · simp only [rel_mem]
      exact nearLate_wf hw ..

@[simp] theorem fenceJob_mem (s : State) (j : Job) : (s.fenceJob j).1.mem = s.mem := by
  unfold State.fenceJob
  dsimp only
  repeat' split
  all_goals simp

@[simp] theorem bellJob_wf {s : State} (hs : Mem.wf s.mem = true) (die : Nat) (j : Job) : Mem.wf (s.bellJob die j).1.mem = true := by
  unfold State.bellJob
  dsimp only
  repeat' split
  all_goals simp [hs]

@[simp] theorem bellEnd_mem (s : State) (die : Nat) (m : Cmd) {put : Job → State → State} (hf : ∀ j u, (put j u).mem = u.mem) (e : BEnd) :
    (s.bellEnd die m put e).mem = s.mem := by
  cases e <;> simp [State.bellEnd, hf]

theorem execBellwetherOp_wf {s : State} (hs : Mem.wf s.mem = true) (die : Nat) : AnswersCanonical (execBellwetherOp die s) := by
  unfold execBellwetherOp
  extract_lets js u
  have hu : Mem.wf u.mem = true := by simpa [u] using hs
  split
  · exact answersCanonical_next.2 hu
  · next i _ =>
    extract_lets j r back
    have hr : Mem.wf r.mem = true := by simpa [r] using hu
    have hb : ∀ j u, (back j u).mem = u.mem := fun j u => modDie_mem u _ _
    split
    next t e ht =>
    have ht := wf_of_fst (bellJob_wf hr ..) ht
    refine keyGuard_wf hu (peerGate_wf hu ?_ _ (fun _ _ _ => ?_)) _ _
    · rw [bellEnd_mem _ _ _ hb]
      exact ht
    · rw [bellEnd_mem _ _ _ hb]
      exact hr

@[simp] theorem barRelease_mem (s : State) (die key : Nat) : (s.barRelease die key).mem = s.mem := by simp [State.barRelease, foldl_mem]

@[simp] theorem barCount_wf {s : State} (hs : Mem.wf s.mem = true) (die : Nat) (m : Cmd) : Mem.wf (s.barCount die m).mem = true := by
  grind [State.barCount, modPen_mem, syncFail_mem, answer_mem, rel_mem, postEvent_wf, modDie_mem, modCore_mem, barRelease_mem]

@[simp] theorem arrivalsRelease_mem (s : State) (die : Nat) : (s.arrivalsRelease die).mem = s.mem := by
  grind [State.arrivalsRelease, rel_mem, modDie_mem, foldl_mem]

theorem execBarrierCount_wf {s : State} (hs : Mem.wf s.mem = true) (die : Nat) : AnswersCanonical (execBarrierCount die s) := by
  unfold execBarrierCount
  dsimp only
  repeat' split
  all_goals simp [hs, foldl_mem]

theorem execAwaitRecheck_wf {s : State} (hs : Mem.wf s.mem = true) (die n : Nat) : AnswersCanonical (execAwaitRecheck die n s) := by
  unfold execAwaitRecheck
  extract_lets ws drop back
  split
  · exact answersCanonical_next.2 hs
  · next j _ =>
    have hd : Mem.wf (drop s).mem = true := by simpa [drop] using hs
    have hb : ∀ j u, (back j u).mem = u.mem := fun j u => modDie_mem u _ _
    split
    · exact answersCanonical_next.2 hs
    · split
      · split
        · simpa using hd
        · exact answersCanonical_next.2 hs
      · split
        · exact answersCanonical_next.2 hs
        · split
          next t e h =>
          have ht := wf_of_fst (bellJob_wf hd ..) h
          refine keyGuard_wf hs (peerGate_wf hs ?_ _ (fun _ _ _ => ?_)) _ _
          · split
            · rw [hb]
              exact ht
            · rw [bellEnd_mem _ _ _ hb]
              exact ht
          · rw [bellEnd_mem _ _ _ hb]
            exact hd

theorem execAwaitTimeout_wf {s : State} (hs : Mem.wf s.mem = true) (die n : Nat) : AnswersCanonical (execAwaitTimeout die n s) := by
  unfold execAwaitTimeout
  repeat' split
  all_goals simp [hs]

@[simp] theorem popThen_wf {s : State} (hs : Mem.wf s.mem = true) (p : Fin 8) {f : State → Tok → State} (hf :
    ∀ u x, Mem.wf u.mem = true → Mem.wf (f u x).mem = true) : Mem.wf (s.popThen p f).mem = true := by
  unfold State.popThen
  extract_lets
  repeat' split
  all_goals simp [*]

@[simp] theorem peekThen_wf {s : State} (hs : Mem.wf s.mem = true) (p : Fin 8) {f : State → Tok → State} (hf :
    ∀ u x, Mem.wf u.mem = true → Mem.wf (f u x).mem = true) : Mem.wf (s.peekThen p f).mem = true := by
  grind [State.peekThen, trapHere_wf]

@[simp] theorem takeScalar_mem (s : State) (h : Hdr) (ord : Nat) (d : Fin 32) (ty : Fmt) (t : Tok) :
    (s.takeScalar h ord d ty t).mem = s.mem := by
  unfold State.takeScalar
  dsimp only
  repeat' split
  all_goals simp

@[simp] theorem takePred_mem (s : State) (h : Hdr) (ord : Nat) (d : Fin 16) (t : Tok) : (s.takePred h ord d t).mem = s.mem := by
  unfold State.takePred
  split <;> simp

theorem ordered_wf {s : State} (hs : Mem.wf s.mem = true) {f : State → Nat → State} (hf : ∀ u x, Mem.wf u.mem = true → Mem.wf
    (f u x).mem = true) : AnswersCanonical (s.ordered f) := answersCanonical_next.2 (hf _ _ hs)

@[simp] theorem recvStep_wf {s : State} (hs : Mem.wf s.mem = true) (st : Stream) (d : Fin 32) (p : Fin 8) (ty : Fmt) : Mem.wf
    (s.recvStep st d p ty).mem = true := by simp [State.recvStep, hs]

@[simp] theorem dropStep_wf {s : State} (hs : Mem.wf s.mem = true) (st : Stream) (p : Fin 8) : Mem.wf (s.dropStep st p).mem = true := by
  grind [State.dropStep, popThen_wf, modCur_mem]

@[simp] theorem xStep_wf {s : State} (hs : Mem.wf s.mem = true) (st : Stream) : Mem.wf (s.xStep st).mem = true := by
  unfold State.xStep
  split <;> simp [hs]

theorem pushFrom_wf {s : State} (hs : Mem.wf s.mem = true) (p : Fin 8) (ts : List Tok) : AnswersCanonical (s.pushFrom p ts) :=
  ordered_wf hs (fun u x hu => foldl_wf (fun v a hv => by simpa using hv) _ hu)

@[simp] theorem setLevel_mem (s : State) (d i l : Nat) : (s.setLevel d i l).mem = s.mem := by simp [State.setLevel]

@[simp] theorem levelStep_mem (s : State) (h : Nat) : (s.levelStep h).mem = s.mem := by
  unfold State.levelStep
  dsimp only
  repeat' split
  all_goals simp [foldl_mem]

@[simp] theorem levelFree_mem (s : State) (d : Nat) : (s.levelFree d).mem = s.mem := by simp [State.levelFree, foldl_mem]

@[simp] theorem wakeDie_mem (s : State) (d : Nat) : (s.wakeDie d).mem = s.mem := by
  unfold State.wakeDie
  split <;> simp

theorem execDroveAccept_wf {s : State} (hs : Mem.wf s.mem = true) (die ch : Nat) : AnswersCanonical (execDroveAccept die ch s) := by
  unfold execDroveAccept
  dsimp only
  repeat' split
  all_goals simp [hs, modChain_mem]

theorem execDroveStage_wf {s : State} (hs : Mem.wf s.mem = true) (die ch stage : Nat) :
    AnswersCanonical (execDroveStage die ch stage s) := by
  unfold execDroveStage
  dsimp only
  repeat' split
  all_goals simp [hs, modChain_mem]

@[simp] theorem tabCmd_mem (s : State) (die ch : Nat) (m : Cmd) : (s.tabCmd die ch m).mem = s.mem := by
  unfold State.tabCmd
  dsimp only
  repeat' split
  all_goals simp [modChain_mem]

theorem execDroveTableOp_wf {s : State} (hs : Mem.wf s.mem = true) (die ch : Nat) : AnswersCanonical (execDroveTableOp die ch s) := by
  unfold execDroveTableOp
  dsimp only
  repeat' split
  all_goals simp [hs, foldl_mem, modChain_mem]

theorem execDcommitDrained_wf {s : State} (hs : Mem.wf s.mem = true) (die ch : Nat) : AnswersCanonical (execDcommitDrained die ch s) := by
  unfold execDcommitDrained
  dsimp only
  repeat' split
  all_goals simp [hs, modChain_mem]

@[simp] theorem commitDone_mem (s : State) (d : Done) : (s.commitDone d).mem = s.mem := by
  unfold State.commitDone
  split <;> simp [modChain_mem]

@[simp] theorem dvAppended_wf {x : State × Option RingFault} (hs : Mem.wf x.1.mem = true) (die ch ctx : Nat) : Mem.wf
    (State.dvAppended x die ch ctx).1.mem = true := by
  unfold State.dvAppended
  repeat' split
  all_goals simp [hs]

@[simp] theorem dvAppend_wf {s : State} (hs : Mem.wf s.mem = true) (die ch : Nat) (m : Cmd) {order : State → State} (hf :
    ∀ u, Mem.wf u.mem = true → Mem.wf (order u).mem = true) (va : Nat) (r : DRec) : Mem.wf
    (s.dvAppend die ch m order va r).1.mem = true := dvAppended_wf (ringAppend_wf hs _ hf ..) ..

@[simp] theorem dvException_wf {s : State} (hs : Mem.wf s.mem = true) (die ch ctx : Nat) (ctl : BitVec 512) (r : DRec) : Mem.wf
    (s.dvException die ch ctx ctl r).mem = true := by
  unfold State.dvException
  dsimp only
  repeat' split
  all_goals simp [hs]

theorem dvRing_wf {s t : State} {n : Nat} (hs : Mem.wf s.mem = true) {die ch ctx : Nat} {cmd : Cmd} {va : Nat} {r : DRec} (e :
    s.dvRing die ch ctx cmd va r = some (t, n)) : Mem.wf t.mem = true := by
  grind [State.dvRing, ringBump_wf, flushEnd_mem, dvAppended_wf, releaseAt_mem, dvAppend_wf]

@[simp] theorem dvPod_wf {s : State} (hs : Mem.wf s.mem = true) (die ch : Nat) : Mem.wf (s.dvPod die ch).mem = true := by
  grind [State.dvPod, askFlush_mem, ringSlot_wf, modChain_mem, foldl_mem]

theorem dvDeliver_wf {s t : State} (hs : Mem.wf s.mem = true) {die ch : Nat} {r0 : DRec} (e : s.dvDeliver die ch r0 = some t) :
    Mem.wf t.mem = true := by
  unfold State.dvDeliver at e
  extract_lets at e
  split at e
  extract_lets _ u at e
  have hu : Mem.wf u.mem = true := by
    dsimp only [u]
    split
    · simpa using hs
    · exact hs
  clear_value u
  split at e
  · cases e
  split at e
  · cases e
    exact hu
  split at e
  · split at e <;> cases e
    exact hu
  split at e
  · split at e <;> cases e
    exact hu
  split at e
  · exact accept_wf (by exact hu) e
  split at e
  · split at e
    · cases e
      simpa using hu
    · split at e
      · cases e
        simpa using hu
      · exact accept_wf (by exact hu) e
  split at e
  · split at e
    · cases e
      exact hu
    · split at e
      · cases e
      · next hv =>
        have hv := dvRing_wf hu hv
        split at e <;> cases e
        · exact hv
        · exact dvException_wf hv ..
  split at e
  · cases e
    exact dvException_wf hu ..
  split at e <;> cases e
  · exact postEvent_wf hu ..
  · exact hu

theorem dvDrain_go_wf {s : State} (hs : Mem.wf s.mem = true) (die ch : Nat) (es : List DRec) (i : Nat) (seen : List (Nat × Nat × Nat)) :
    Mem.wf (State.dvDrain.go s die ch es i seen).mem = true := by
  induction es generalizing i seen with
  | nil => exact hs
  | cons r rs ih => 
    unfold State.dvDrain.go
    extract_lets
    split
    · exact ih ..
    · split
      · next hd => simpa [modChain_mem] using dvDeliver_wf hs hd
      · exact ih ..

@[simp] theorem dvDrain_wf {s : State} (hs : Mem.wf s.mem = true) (die ch : Nat) (x : Nat) (y : List (Nat × Nat × Nat)) : Mem.wf
    (s.dvDrain die ch x y).mem = true := dvDrain_go_wf hs ..

theorem execDroveExit_wf {s : State} (hs : Mem.wf s.mem = true) (die ch : Nat) : AnswersCanonical (execDroveExit die ch s) := by
  unfold execDroveExit
  dsimp only
  repeat' split
  all_goals simp [hs, modChain_mem]

end Sys2Proof.Machine
end

section
/-! PROOFS. Memory stays in its canonical form: results, the loader, and the slots of a pen. -/

namespace Sys2Proof.Machine

open Sys2Proof

theorem applyAcc_wf {s : State} (hs : Mem.wf s.mem = true) (h : Hdr) (o : Fin 4) (ga : Fin 8) (right xp : Bool) (x : Mat) :
    AnswersCanonical (s.applyAcc h o ga right xp x) := answersCanonical_next.2 (nodeWord_wf hs _ _ _ _ (fun u x hu => by simpa using hu))

theorem execOasave_wf {s : State} (hs : Mem.wf s.mem = true) (h : Hdr) (o : Fin 4) (n : Ns) : AnswersCanonical (execOasave h o n s) :=
  answersCanonical_next.2 (nodeWord_wf hs _ _ _ _ (fun u x hu => by
    split
    · simpa using hu
    · exact issueStore_wf hu ..))

theorem execOaload_wf {s : State} (hs : Mem.wf s.mem = true) (h : Hdr) (o : Fin 4) (n : Ns) : AnswersCanonical (execOaload h o n s) :=
  answersCanonical_next.2 (nodeWord_wf hs _ _ _ _ (fun u x hu => by
    split
    · simpa using hu
    · simpa using hu))

@[simp] theorem landWrite_wf {s : State} (hs : Mem.wf s.mem = true) (c : Nat) (f : Flight) (w : Write) : Mem.wf
    (s.landWrite c f w).mem = true := by
  unfold State.landWrite
  repeat' split
  all_goals simp [hs]

@[simp] theorem landWrites_wf {s : State} (hs : Mem.wf s.mem = true) (c : Nat) (f : Flight) (ws : List Write) : Mem.wf
    (s.landWrites c f ws).mem = true := by
  grind [State.landWrites, raise_mem, landWrite_wf, foldl_wf]

@[simp] theorem landFlight_wf {s : State} (hs : Mem.wf s.mem = true) (c : Nat) (now : List Flight) (f : Flight) : Mem.wf
    (s.landFlight c now f).mem = true := by
  unfold State.landFlight
  repeat' split
  all_goals simp [hs]

@[simp] theorem landDue_wf {s : State} (hs : Mem.wf s.mem = true) (c : Nat) : Mem.wf (s.landDue c).mem = true := by
  grind [State.landDue, landFlight_wf, setCore_mem, modCore_mem, count_mem, foldl_wf]

theorem execResultReady_wf {s : State} (hs : Mem.wf s.mem = true) (c : Nat) : AnswersCanonical (execResultReady c s) := by
  unfold execResultReady
  split <;> simp [hs]

theorem execRecompactionEnd_wf {s : State} (hs : Mem.wf s.mem = true) (c : Nat) : AnswersCanonical (execRecompactionEnd c s) := by
  unfold execRecompactionEnd
  split <;> simp [hs]

@[simp] theorem tablePort_wf {s : State} (hs : Mem.wf s.mem = true) (m : Msg) : Mem.wf (s.tablePort m).1.mem = true := by
  unfold State.tablePort
  dsimp only
  repeat' split
  all_goals simp [hs]

theorem execRemoteAccessArrive_wf {s : State} (hs : Mem.wf s.mem = true) (src dst : Nat) : AnswersCanonical
    (execRemoteAccessArrive src dst s) := by
  unfold execRemoteAccessArrive
  split
  · exact answersCanonical_next.2 hs
  · extract_lets u v
    have hv : Mem.wf v.mem = true := by simpa [v] using hs
    split
    · split
      next t m ht =>
      have ht := wf_of_fst (tablePort_wf (by exact hs) ..) ht
      exact keyGuard_wf (by exact hs) (by exact ht) _ _
    · split
      · split
        · simpa using hv
        · split
          · simpa using nearWrite_wf hv ..
          · exact answersCanonical_next.2 hv
      · split
        · simpa using nearWrite_wf hv ..
        · exact answersCanonical_next.2 hv

theorem execLoadResponse_wf {s : State} (hs : Mem.wf s.mem = true) (c : Nat) : AnswersCanonical (execLoadResponse c s) := by
  unfold execLoadResponse
  split <;> simp [hs]

theorem execCompletionTokenDelivery_wf {s : State} (hs : Mem.wf s.mem = true) (c port : Nat) : AnswersCanonical
    (execCompletionTokenDelivery c port s) := by
  unfold execCompletionTokenDelivery
  dsimp only
  repeat' split
  all_goals simp [hs, foldl_mem]

@[simp] theorem imageNote_mem (s : State) (w : Who) (va len : Nat) : (s.imageNote w va len).mem = s.mem := by
  grind [State.imageNote, readNote_mem, tlbUse_mem, foldl_mem]

@[simp] theorem fetchPlane_wf {s : State} (hs : Mem.wf s.mem = true) (w : Who) (va cores : Nat) : Mem.wf
    (s.fetchPlane w va cores).1.mem = true := by
  unfold State.fetchPlane
  dsimp only
  repeat' split
  all_goals simp [hs]

@[simp] theorem cleanPlane_mem (s : State) (base : Nat) (cs : List Nat) : (s.cleanPlane base cs).mem = s.mem := rfl

@[simp] theorem swapErrors_mem (s : State) (cs : List Nat) : (s.swapErrors cs).mem = s.mem := rfl

@[simp] theorem setShadow_mem (s : State) (h : Nat) (l : Loaded) : (s.setShadow h l).mem = s.mem := by
  grind [State.setShadow, modPen_mem, modCore_mem, cleanPlane_mem, foldl_mem]

@[simp] theorem setLive_mem (s : State) (h : Nat) (l : Loaded) : (s.setLive h l).mem = s.mem := foldl_mem (by simp) _ _

@[simp] theorem cfgCmd_wf {s : State} (hs : Mem.wf s.mem = true) (d : Nat) (m : Cmd) : Mem.wf (s.cfgCmd d m).mem = true := by
  grind [State.cfgCmd, answer_mem, fetchPlane_wf, setShadow_mem, modPen_mem]

theorem execConfigLoad_wf {s : State} (hs : Mem.wf s.mem = true) (d : Nat) : AnswersCanonical (execConfigLoad d s) := by
  unfold execConfigLoad
  extract_lets u
  have hu : u.mem = s.mem := foldl_mem (by simp) _ s
  split
  · exact answersCanonical_next.2 (hu ▸ hs)
  · extract_lets v w
    have hw : Mem.wf w.mem = true := by grind [releaseAt_mem, acquireAt_mem]
    exact keyGuard_wf hw (cfgCmd_wf (by simpa using hw) ..) _ _

@[simp] theorem flipPlanes_mem (s : State) (h : Nat) : (s.flipPlanes h).mem = s.mem := by
  unfold State.flipPlanes
  dsimp only
  split <;> simp

theorem execPlaneFlip_wf {s : State} (hs : Mem.wf s.mem = true) (h : Nat) : AnswersCanonical (execPlaneFlip h s) := by
  unfold execPlaneFlip
  split <;> simp [hs]

@[simp] theorem withdrawWaits_mem (s : State) (h : Nat) : (s.withdrawWaits h).mem = s.mem := by
  grind [State.withdrawWaits, modCore_mem, foldl_mem]

@[simp] theorem repostWaits_mem (s : State) (h : Nat) : (s.repostWaits h).mem = s.mem := foldl_mem (by simp) _ _

@[simp] theorem reportStop_wf {s : State} (hs : Mem.wf s.mem = true) (h : Nat) : Mem.wf (s.reportStop h).mem = true :=
  by simp [State.reportStop, hs]

@[simp] theorem releaseAll_wf {s : State} (hs : Mem.wf s.mem = true) (h : Nat) : Mem.wf (s.releaseAll h).mem = true := by
  grind [State.releaseAll, releaseCore_wf, routePen_wf, offerAll_wf, foldl_wf]

@[simp] theorem passRestart_mem (s : State) (h : Nat) : (s.passRestart h).mem = s.mem := by
  grind [State.passRestart, notePops_mem, modCores_mem, edgeRefresh_mem, modPen_mem, foldl_mem]

@[simp] theorem lateTrap_wf {s : State} (hs : Mem.wf s.mem = true) (h : Nat) (w : Await) : Mem.wf (s.lateTrap h w).mem = true := by
  unfold State.lateTrap
  split <;> simp [hs]

@[simp] theorem endOfTick_wf {s : State} (hs : Mem.wf s.mem = true) (h : Nat) : Mem.wf (s.endOfTick h).1.mem = true := by
  grind [State.endOfTick, releaseAll_wf, boundaryCmds_wf, endTick_wf, passRestart_mem]

@[simp] theorem nextTickAt_wf {s : State} (hs : Mem.wf s.mem = true) (h : Nat) : Mem.wf (s.nextTickAt h).1.mem = true := by
  unfold State.nextTickAt
  dsimp only
  repeat' split
  all_goals simp [hs]

@[simp] theorem holdPen_wf {s : State} (hs : Mem.wf s.mem = true) (h : Nat) (w : Hold × Nat) : Mem.wf (s.holdPen h w).mem = true := by
  grind [State.holdPen, modPen_mem, count_mem, stallCount_wf, foldl_mem]

@[simp] theorem startSlot_mem (s : State) (h : Nat) : (s.startSlot h).mem = s.mem := by
  grind [State.startSlot, modPen_mem, passRestart_mem, count_mem, foldl_mem]

@[simp] theorem trySlot_wf {s : State} (hs : Mem.wf s.mem = true) (h : Nat) : Mem.wf (s.trySlot h).mem = true := by
  unfold State.trySlot
  dsimp only
  repeat' split
  all_goals simp [hs]

@[simp] theorem midSlot_wf {s : State} (hs : Mem.wf s.mem = true) (h : Nat) : Mem.wf (s.midSlot h).mem = true := by
  grind [State.midSlot, count_mem, lateTrap_wf, holdPen_wf, foldl_mem]

@[simp] theorem tickEnds_wf {s : State} (hs : Mem.wf s.mem = true) (h : Nat) : Mem.wf (s.tickEnds h).1.mem = true := by
  unfold State.tickEnds
  dsimp only
  split <;> simp [hs]

@[simp] theorem boundary_wf {s : State} (hs : Mem.wf s.mem = true) (h : Nat) : Mem.wf (s.boundary h).mem = true := by
  grind [State.boundary, reportStop_wf, withdrawWaits_mem, holdPen_wf, tickEnds_wf, trySlot_wf, modPen_mem, nextTickAt_wf]

theorem execSlotStart_wf {s : State} (hs : Mem.wf s.mem = true) (h : Nat) : AnswersCanonical (execSlotStart h s) := by
  unfold execSlotStart
  dsimp only
  repeat' split
  all_goals simp [hs]

theorem execChunkIssue_wf {s : State} (hs : Mem.wf s.mem = true) (c : Nat) (col : Col) : AnswersCanonical (execChunkIssue c col s) := by
  grind [answersCanonical_next, execChunkIssue, modCore_mem, gfillStep_wf, vStep_wf, xStep_wf, foldl_wf]

theorem execRewindResume_wf {s : State} (hs : Mem.wf s.mem = true) (h : Nat) : AnswersCanonical (execRewindResume h s) := by
  unfold execRewindResume
  dsimp only
  split <;> simp [hs]

theorem execRestartHoldExpiry_wf {s : State} (hs : Mem.wf s.mem = true) (h : Nat) : AnswersCanonical (execRestartHoldExpiry h s) := by
  unfold execRestartHoldExpiry
  dsimp only
  repeat' split
  all_goals simp [hs]

end Sys2Proof.Machine
end

section
/-! PROOFS. Memory stays in its canonical form: the shepherd, castings, launches, contexts, service and the pod. -/

namespace Sys2Proof.Machine

open Sys2Proof

theorem driver_wf {s t : State} (hs : Mem.wf s.mem = true) (ht : Mem.wf t.mem = true) : AnswersCanonical (s.driver t) :=
  answersCanonical_next.2 (ite_wf hs ht)

@[simp] theorem setQueue_mem (s : State) (q : Nat) (x : Queue) : (s.setQueue q x).mem = s.mem := rfl

@[simp] theorem modQueue_mem (s : State) (q : Nat) (f : Queue → Queue) : (s.modQueue q f).mem = s.mem := rfl

@[simp] theorem modEntry_mem (s : State) (q n : Nat) (f : Entry → Entry) : (s.modEntry q n f).mem = s.mem := rfl

@[simp] theorem queueError_wf {s : State} (hs : Mem.wf s.mem = true) (q : Nat) (tail : W64) : Mem.wf (s.queueError q tail).mem = true :=
  by simp [State.queueError, hs]

theorem execQtailWrite_wf {s : State} (hs : Mem.wf s.mem = true) : AnswersCanonical (execQtailWrite s) := by
  refine driver_wf hs ?_
  split
  · exact queueError_wf hs ..
  · simpa using hs

theorem execQueueDescWrite_wf {s : State} (hs : Mem.wf s.mem = true) : AnswersCanonical (execQueueDescWrite s) := by
  unfold execQueueDescWrite
  extract_lets
  split
  · refine driver_wf hs ?_
    repeat' split
    all_goals exact hs
  · exact driver_wf hs hs

@[simp] theorem lookQueues_mem (s : State) : (s.lookQueues).mem = s.mem := by
  grind [State.lookQueues, modQueue_mem, foldl_mem]

@[simp] theorem finishEntry_wf {s : State} (hs : Mem.wf s.mem = true) (e : Entry) (r : Nat × Nat × Nat × W64) : Mem.wf
    (s.finishEntry e r).mem = true := by
  unfold State.finishEntry
  extract_lets x put
  split
  next code detail aux value =>
  extract_lets
  have hput : ∀ (u : State) (va : Nat) (bs : List Byte), Mem.wf u.mem = true → Mem.wf (put u va bs).1.mem = true := by
    intro u va bs hu
    dsimp only [put]
    split
    · exact hu
    · split
      · exact vwrite_wf hu ‹_›
      · split <;> exact recordFault_wf (by simpa using hu) ..
  clear_value put
  split
  next u p hp =>
  have hu := wf_of_fst (hput _ _ _ hs) hp
  split
  · simpa using hu
  split
  next v q hq =>
  have hv : Mem.wf v.mem = true := by
    split at hq
    · cases hq
      exact hu
    · exact wf_of_fst (hput _ _ _ hu) hq
  split
  · simpa using hv
  dsimp only
  split
  · exact postEvent_wf (by simpa using hv) ..
  · simpa using hv

@[simp] theorem complete_wf {s : State} (hs : Mem.wf s.mem = true) (e : Entry) (code detail aux : Nat) (value : W64) : Mem.wf
    (s.complete e code detail aux value).mem = true := by simp [State.complete, hs]

@[simp] theorem entryFault_wf {s : State} (hs : Mem.wf s.mem = true) (e : Entry) (va : Nat) (acc : Acc) (f : XFault) : Mem.wf
    (s.entryFault e va acc f).mem = true := by
  unfold State.entryFault
  dsimp only
  split <;> simp [hs]

theorem entryRow_wf {s : State} (hs : Mem.wf s.mem = true) {f : State → Entry → State} (hf : ∀ e, Mem.wf (f s e).mem = true) :
    AnswersCanonical (s.entryRow f) := by
  unfold State.entryRow
  repeat' split
  · exact answersCanonical_next.2 hs
  · exact answersCanonical_next.2 hs
  · exact answersCanonical_next.2 (finishEntry_wf hs ..)
  · exact keyGuard_wf hs (hf _) _ _

@[simp] theorem takeEntry_wf {s : State} (hs : Mem.wf s.mem = true) (q level : Nat) : Mem.wf (s.takeEntry q level).mem = true := by
  unfold State.takeEntry
  dsimp only
  repeat' split
  all_goals simp [hs]

theorem execShepherdTake_wf {s : State} (hs : Mem.wf s.mem = true) : AnswersCanonical (execShepherdTake s) := by
  unfold execShepherdTake
  dsimp only
  repeat' split
  all_goals simp [hs]

@[simp] theorem applyReleased_mem (s : State) (sc : Nat → Bool) : (s.applyReleased sc).mem = s.mem := rfl

theorem execWait_wf {s : State} (hs : Mem.wf s.mem = true) : AnswersCanonical (execWait s) := by
  grind [execWait, entryRow_wf, complete_wf, applyReleased_mem]

theorem execSignal_wf {s : State} (hs : Mem.wf s.mem = true) : AnswersCanonical (execSignal s) := by
  refine entryRow_wf hs (fun e => ?_)
  dsimp only
  split
  · exact complete_wf hs ..
  split
  · exact entryFault_wf hs ..
  split
  · exact entryFault_wf hs ..
  split
  · exact entryFault_wf hs ..
  · next hv => exact complete_wf (vwriteBy_wf (by simpa using hs) hv) ..

theorem execFinRecord_wf {s : State} (hs : Mem.wf s.mem = true) (h : Nat) : AnswersCanonical (execFinRecord h s) := by
  grind [answersCanonical_next, execFinRecord, modPen_mem, modEntry_mem, foldl_mem]

@[simp] theorem abortPosted_mem (s : State) (h detail : Nat) : (s.abortPosted h detail).mem = s.mem :=
  by simp [State.abortPosted, foldl_mem]

@[simp] theorem unbind_mem (s : State) (q n : Nat) : (s.unbind q n).mem = s.mem := rfl

theorem execPenEnd_wf {s : State} (hs : Mem.wf s.mem = true) (h : Nat) : AnswersCanonical (execPenEnd h s) := by
  unfold execPenEnd
  dsimp only
  repeat' split
  all_goals simp [hs]

@[simp] theorem thawCore_wf {s : State} (hs : Mem.wf s.mem = true) (h c : Nat) (kept : Core) (bs : List Byte) : Mem.wf
    (s.thawCore h c kept bs).mem = true := by
  grind [State.thawCore, setCore_mem, loadImage_wf, modPen_mem, modCore_mem, foldl_mem]

@[simp] theorem sendWave_mem (s : State) (h : Nat) : (s.sendWave h).mem = s.mem := by
  unfold State.sendWave
  split <;> simp

@[simp] theorem castPen_mem (s : State) (h : Nat) (pad : Bool) : (s.castPen h pad).mem = s.mem := by simp [State.castPen]

theorem castInstance_wf {s t : State} (hs : Mem.wf s.mem = true) {e : Entry} {va : Nat} {pad : Bool} (e :
    s.castInstance e va pad = .ok t) : Mem.wf t.mem = true := by
  grind [State.castInstance, vwrite_wf, ueMet_mem, markPoison_mem, castPen_mem, foldl_mem]

@[simp] theorem movePen_mem (s : State) (h : Nat) (f : Nat → Nat) : (s.movePen h f).mem = s.mem := rfl

@[simp] theorem assignEngines_mem (s : State) (cs : List Nat) : (s.assignEngines cs).mem = s.mem := by
  grind [State.assignEngines, modCore_mem, foldl_mem]

@[simp] theorem thawPen_wf {s : State} (hs : Mem.wf s.mem = true) (h d r c : Nat) (pad : Bool) (bs : List Byte) : Mem.wf
    (s.thawPen h d r c pad bs).mem = true := by
  grind [State.thawPen, movePen_mem, modPen_mem, modCore_mem, thawCore_wf, nearWrite_wf, repostWaits_mem, foldl_wf]

@[simp] theorem thawAll_wf {s : State} (hs : Mem.wf s.mem = true) (plan : List (Nat × Nat × Nat × Nat)) (pad : Bool) (bs : List Byte)
    (bad : List Nat) : Mem.wf (s.thawAll plan pad bs bad).mem = true := by
  unfold State.thawAll
  split
  next u _ hu =>
  have hu := wf_of_fst (foldl_fst_wf (fun x a hx => thawPen_wf hx ..) plan hs) hu
  simpa using hu

theorem execFreeze_wf {s : State} (hs : Mem.wf s.mem = true) : AnswersCanonical (execFreeze s) := by
  grind [execFreeze, entryRow_wf, complete_wf, sendWave_mem, castInstance_wf, entryFault_wf, foldl_mem]

theorem execThaw_wf {s : State} (hs : Mem.wf s.mem = true) : AnswersCanonical (execThaw s) := by
  refine entryRow_wf hs (fun e => ?_)
  extract_lets
  split
  · exact complete_wf hs ..
  extract_lets pens
  split
  · exact complete_wf hs ..
  split
  · split
    · exact complete_wf hs ..
    · refine complete_wf ?_ ..
      rw [foldl_mem (fun u h => ?_)]
      · exact hs
      · split <;> simp
  split
  · exact entryFault_wf hs ..
  extract_lets
  split
  · exact complete_wf hs ..
  split
  · exact complete_wf hs ..
  split
  · exact entryFault_wf hs ..
  · exact complete_wf (thawAll_wf hs ..) ..

theorem execPreemptRestore_wf {s : State} (hs : Mem.wf s.mem = true) (n : Nat) : AnswersCanonical (execPreemptRestore n s) := by
  unfold execPreemptRestore
  split
  · exact answersCanonical_next.2 hs
  extract_lets
  split
  · exact answersCanonical_next.2 hs
  split
  · exact answersCanonical_next.2 hs
  split
  · exact answersCanonical_next.2 hs
  · refine keyGuard_wf hs ?_ _ _
    split
    · exact entryFault_wf hs ..
    · simpa using thawAll_wf hs ..

@[simp] theorem putPen_wf {s : State} (hs : Mem.wf s.mem = true) (e : Entry) (blk : List W64) (tdt : W64) (im : Image) (base : Nat) (pid :
    Nat) (sp : Spot) (l : Loaded) (pals : List Byte) (datas : List (Nat × List Byte)) : Mem.wf
    (s.putPen e blk tdt im base pid sp l pals datas).mem = true := by
  grind [State.putPen, setCore_mem, nearWrite_wf, setLive_mem, modDu_mem, foldl_wf]

@[simp] theorem readOp_wf {s : State} (hs : Mem.wf s.mem = true) (e : Entry) (im : Image) (imgVa i : Nat) : Mem.wf
    (s.readOp e im imgVa i).1.mem = true := by
  grind [State.readOp, fetchPlane_wf]

@[simp] theorem readOps_wf {s : State} (hs : Mem.wf s.mem = true) (e : Entry) (im : Image) (imgVa : Nat) (x : Nat) (y : Nat) : Mem.wf
    (s.readOps e im imgVa x y).1.mem = true := by
  induction x generalizing s y with
  | zero => exact hs
  | succ n ih => 
    have hr := readOp_wf hs e im imgVa y
    unfold State.readOps
    split
    · next h =>
      rw [h] at hr
      have hu := ih hr (y + 1)
      split
      all_goals exact wf_of_fst hu ‹_›
    · next h => 
      rw [h] at hr
      exact hr

@[simp] theorem build_wf {s : State} (hs : Mem.wf s.mem = true) (e : Entry) (blk : List W64) (tdt : W64) (im : Image) (spots : List Spot)
    (ls : List OpLoad) : Mem.wf (s.build e blk tdt im spots ls).mem = true := by
  grind [State.build, putPen_wf, assignEngines_mem, foldl_wf]

theorem castVictim_wf {s t : State} (hs : Mem.wf s.mem = true) {v : Entry} (e : s.castVictim v = .ok t) : Mem.wf t.mem = true := by
  grind [State.castVictim, modPen_mem, castInstance_wf, modEntry_mem, foldl_mem]

theorem castVictims_wf {s t : State} (hs : Mem.wf s.mem = true) {x : List Entry} (e : s.castVictims x = .ok t) : Mem.wf t.mem = true := by
  induction x generalizing s with
  | nil =>
    cases e
    exact hs
  | cons v l ih =>
    unfold State.castVictims at e
    split at e
    · cases e
    · exact ih (castVictim_wf hs ‹_›) e

@[simp] theorem entryFaultAt_wf {s : State} (hs : Mem.wf s.mem = true) (e : Entry) (x : Nat × XFault) : Mem.wf
    (s.entryFaultAt e x).mem = true := by simp [State.entryFaultAt, hs]

@[simp] theorem placed_wf {s : State} (hs : Mem.wf s.mem = true) (e : Entry) (spots : List Spot) :
    Mem.wf (s.placed e spots).mem = true := by
  unfold State.placed
  split <;> simp [hs]

@[simp] theorem launchWith_wf {s : State} (hs : Mem.wf s.mem = true) (e : Entry) (blk : List W64) (tdt : W64) {f : State → State} (hf :
    ∀ u, Mem.wf u.mem = true → Mem.wf (f u).mem = true) : Mem.wf (s.launchWith e blk tdt f).mem = true := by
  unfold State.launchWith
  extract_lets
  split
  · exact entryFaultAt_wf hs ..
  next im him =>
  split
  · exact complete_wf hs ..
  split
  · exact hs
  split
  · have hr := readOps_wf hs e im (blkW blk 0).toNat im.ops.length 0
    split
    · next h => exact complete_wf (wf_of_fst hr h) ..
    · next h => exact entryFaultAt_wf (wf_of_fst hr h) ..
    · next h => exact wf_of_fst hr h
    · next h => exact placed_wf (hf _ (build_wf (wf_of_fst hr h) ..)) ..
  · extract_lets vs
    clear_value vs
    split
    · split
      · exact hs
      · exact complete_wf hs ..
    · extract_lets u
      have hu : u.mem = s.mem := foldl_mem (fun v x => foldl_mem sendWave_mem _ v) _ s
      simpa [hu] using hs

@[simp] theorem launchWait_wf {s : State} (hs : Mem.wf s.mem = true) (e : Entry) : Mem.wf (s.launchWait e).mem = true := by
  grind [State.launchWait, castVictims_wf, entryFault_wf, modEntry_mem]

theorem execLaunch_wf {s : State} (hs : Mem.wf s.mem = true) : AnswersCanonical (execLaunch s) := by
  grind [execLaunch, entryRow_wf, launchWait_wf, complete_wf, entryFault_wf, launchWith_wf]

@[simp] theorem hostCmd_mem (s : State) (e : Entry) (w : Instr) (h : Nat) (cmd a b : W64) : (s.hostCmd e w h cmd a b).mem = s.mem := rfl

@[simp] theorem replayDemand_mem (s : State) (e : Entry) : (s.replayDemand e).mem = s.mem := by
  unfold State.replayDemand
  split <;> simp

theorem execReplay_wf {s : State} (hs : Mem.wf s.mem = true) : AnswersCanonical (execReplay s) := by
  grind [execReplay, entryRow_wf, launchWait_wf, complete_wf, unbind_mem, entryFaultAt_wf, launchWith_wf, replayDemand_mem]

theorem execPatch_wf {s : State} (hs : Mem.wf s.mem = true) : AnswersCanonical (execPatch s) := by
  refine entryRow_wf hs (fun e => ?_)
  dsimp only
  split
  · exact complete_wf hs ..
  split
  · exact complete_wf hs ..
  split
  · exact hs
  split
  · exact entryFault_wf hs ..
  split
  · exact entryFault_wf hs ..
  split
  · exact complete_wf hs ..
  split
  · exact entryFault_wf hs ..
  · next hv =>
    have hv := vwrite_wf hs hv
    exact complete_wf (by exact hv) ..

@[simp] theorem unitEntry_wf {s : State} (hs : Mem.wf s.mem = true) (e : Entry) (w : Instr) (sink cmd a b : W64) : Mem.wf
    (s.unitEntry e w sink cmd a b).mem = true := by
  unfold State.unitEntry
  repeat' split
  all_goals simp [hs]

@[simp] theorem tableItem_mem (s : State) (ctx d ch i : Nat) (w0 w1 : W64) : (s.tableItem ctx d ch i w0 w1).1.mem = s.mem := by
  unfold State.tableItem
  dsimp only
  repeat' split
  all_goals simp [modChain_mem]

@[simp] theorem tableItems_mem (s : State) (ctx va d ch : Nat) (x : Nat) (y : Nat) : (s.tableItems ctx va d ch x y).1.mem = s.mem := by
  induction x generalizing s y with
  | zero => rfl
  | succ n ih =>
    unfold State.tableItems
    split
    · rfl
    · next bs _ =>
      have := tableItem_mem s ctx d ch y (wordAt bs 0) (wordAt bs 1)
      split
      · next h =>
        rw [h] at this
        rw [ih, this]
      · next h =>
        rw [h] at this
        exact this

@[simp] theorem tableRun_wf {s : State} (hs : Mem.wf s.mem = true) (e : Entry) (d ch : Nat) : Mem.wf (s.tableRun e d ch).mem = true := by
  grind [State.tableRun, tableItems_mem, complete_wf, entryFault_wf, modEntry_mem, recordFault_wf, modChain_mem]

theorem execTable_wf {s : State} (hs : Mem.wf s.mem = true) : AnswersCanonical (execTable s) := by
  grind [execTable, entryRow_wf, complete_wf, modChain_mem, wakeDie_mem, tableRun_wf]

@[simp] theorem setRanges_mem (s : State) (n : Nat) (c : Ctx) : (s.setRanges n c).mem = s.mem := by simp [State.setRanges, foldl_mem]

theorem execContextWrite_wf {s : State} (hs : Mem.wf s.mem = true) : AnswersCanonical (execContextWrite s) := by
  unfold execContextWrite
  extract_lets n i c v pol c' t
  have ht : Mem.wf t.mem = true := ite_wf hs hs
  split
  · refine driver_wf hs ?_
    repeat' split
    all_goals exact hs
  · split
    · exact driver_wf hs hs
    · split
      · refine driver_wf hs ?_
        rw [setRanges_mem]
        exact ht
      · exact driver_wf hs hs

theorem execKeyInstall_wf {s : State} (hs : Mem.wf s.mem = true) : AnswersCanonical (execKeyInstall s) := by
  unfold execKeyInstall
  dsimp only
  split <;> simp [hs]

theorem execInvalComplete_wf {s : State} (hs : Mem.wf s.mem = true) : AnswersCanonical (execInvalComplete s) := by
  unfold execInvalComplete
  repeat' split
  all_goals simp [hs]

@[simp] theorem unpark_mem (s : State) (hit : Nat → Bool) : (s.unpark hit).mem = s.mem := rfl

@[simp] theorem storeLost_wf {s : State} (hs : Mem.wf s.mem = true) (x : List FaultRec) : Mem.wf (s.storeLost x).mem = true := by
  induction x generalizing s with
  | nil => exact hs
  | cons f fs ih =>
    unfold State.storeLost
    split
    · exact ih hs
    · split
      · exact ih (by exact hs)
      · exact ih (storeFault_wf hs _)

theorem execFrptrWrite_wf {s : State} (hs : Mem.wf s.mem = true) : AnswersCanonical (execFrptrWrite s) :=
  driver_wf hs (foldl_wf (fun _ _ hu => retryBoundary_wf hu ..) _ (by rw [unpark_mem]; exact storeLost_wf (by exact hs) ..))

@[simp] theorem abortEntry_wf {s : State} (hs : Mem.wf s.mem = true) (e : Entry) : Mem.wf (s.abortEntry e).mem = true :=
  by simp [State.abortEntry, hs]

@[simp] theorem abortUntaken_wf {s : State} (hs : Mem.wf s.mem = true) (q : Nat) (x : Nat) : Mem.wf (s.abortUntaken q x).mem = true := by
  induction x generalizing s with
  | zero => exact hs
  | succ n ih =>
    unfold State.abortUntaken
    dsimp only
    split
    · exact hs
    · exact ih (abortEntry_wf (by exact hs) _)

@[simp] theorem teardown_wf {s : State} (hs : Mem.wf s.mem = true) (n : Nat) (by_ : Option (Nat × Nat)) : Mem.wf
    (s.teardown n by_).mem = true := by
  grind [State.teardown, stallEnd_wf, abortPosted_mem, answer_mem, modPen_mem, abortEntry_wf, abortUntaken_wf, setCtx_mem, foldl_wf]

theorem execTeardown_wf {s : State} (hs : Mem.wf s.mem = true) : AnswersCanonical (execTeardown s) := by
  grind [execTeardown, entryRow_wf, complete_wf, modEntry_mem, teardown_wf]

@[simp] theorem scrubEnd_wf {s : State} (hs : Mem.wf s.mem = true) (n : Nat) : Mem.wf (s.scrubEnd n).mem = true := by
  unfold State.scrubEnd
  dsimp only
  split <;> simp [hs]

theorem execScrubComplete_wf {s : State} (hs : Mem.wf s.mem = true) (n : Nat) : AnswersCanonical (execScrubComplete n s) := by
  unfold execScrubComplete
  extract_lets c near up
  have hup : ∀ u, Mem.wf u.mem = true → AnswersCanonical (.next (up u)) := fun u hu => answersCanonical_next.2 hu
  split
  · exact answersCanonical_next.2 hs
  · split
    · exact hup _ (nearWrite_wf hs _ _)
    · split
      · exact hup _ (physWrite_wf hs _ _ _)
      · exact answersCanonical_next.2 (scrubEnd_wf hs ..)

@[simp] theorem upset_mem (s : State) : (s.upset).mem = s.mem := by
  unfold State.upset
  dsimp only
  repeat' split
  all_goals simp [modChain_mem]

theorem execPatrolScrub_wf {s : State} (hs : Mem.wf s.mem = true) : AnswersCanonical (execPatrolScrub s) := by
  unfold execPatrolScrub
  split <;> simp [hs]

@[simp] theorem plimWrite_mem (s : State) (v : W64) : (s.plimWrite v).mem = s.mem := rfl

theorem execRegisterWrite_wf {s : State} (hs : Mem.wf s.mem = true) : AnswersCanonical (execRegisterWrite s) := by
  refine driver_wf hs ?_
  split
  all_goals simp [hs]

theorem execFunctionLevelReset_wf {s : State} (hs : Mem.wf s.mem = true) : AnswersCanonical (execFunctionLevelReset s) := by
  grind [answersCanonical_next, execFunctionLevelReset, teardown_wf, foldl_wf]

theorem execBringupStep_wf {s : State} (hs : Mem.wf s.mem = true) : AnswersCanonical (execBringupStep s) := by
  unfold execBringupStep
  dsimp only
  repeat' split
  all_goals simp [hs]

theorem execRecoveryImageWrite_wf {s : State} (hs : Mem.wf s.mem = true) : AnswersCanonical (execRecoveryImageWrite s) := by
  unfold execRecoveryImageWrite
  dsimp only
  split <;> simp [hs]

@[simp] theorem logAlarm_mem (s : State) (d src : Nat) (b : Bool) (ctx : Nat) : (s.logAlarm d src b ctx).mem = s.mem :=
  by simp [State.logAlarm]

@[simp] theorem quarRest_mem (s : State) : (s.quarRest).mem = s.mem := rfl

theorem execAlarmClassA_wf {s : State} (hs : Mem.wf s.mem = true) : AnswersCanonical (execAlarmClassA s) := by
  refine answersCanonical_next.2 (afterReset_canonical (s := State.quarRest _) ?_ false)
  show Mem.wf (State.quarRest _).mem = true
  rw [quarRest_mem]
  exact foldl_wf (fun _ _ hu => teardown_wf hu ..) _ (by simpa using hs)

theorem execAlarmClassB_wf {s : State} (hs : Mem.wf s.mem = true) : AnswersCanonical (execAlarmClassB s) := by
  unfold execAlarmClassB
  dsimp only
  repeat' split
  all_goals simp [hs]

theorem execPowerSample_wf {s : State} (hs : Mem.wf s.mem = true) : AnswersCanonical (execPowerSample s) := by
  unfold execPowerSample
  dsimp only
  repeat' split
  all_goals simp [hs, foldl_mem]

theorem execCxlMemAccess_wf {s : State} (hs : Mem.wf s.mem = true) : AnswersCanonical (execCxlMemAccess s) := by
  unfold execCxlMemAccess
  dsimp only
  repeat' split
  all_goals simp [hs]

@[simp] theorem peerAccess_wf {s : State} (hs : Mem.wf s.mem = true) (kind member id tag ofs : Nat) (rest : List Nat) : Mem.wf
    (s.peerAccess kind member id tag ofs rest).mem = true := by
  unfold State.peerAccess
  dsimp only
  repeat' split
  all_goals simp [hs]

@[simp] theorem flushArrives_mem (s : State) (link m id tag : Nat) : (s.flushArrives link m id tag).mem = s.mem := rfl

@[simp] theorem deliverFlit_wf {s : State} (hs : Mem.wf s.mem = true) (link : Nat) (f : List Nat) : Mem.wf
    (s.deliverFlit link f).mem = true := by
  unfold State.deliverFlit
  dsimp only
  repeat' split
  all_goals simp [hs]

theorem execFlitReceive_wf {s : State} (hs : Mem.wf s.mem = true) : AnswersCanonical (execFlitReceive s) := by
  unfold execFlitReceive
  dsimp only
  repeat' split
  all_goals simp [hs]

theorem execPodFlush_wf {s : State} (hs : Mem.wf s.mem = true) : AnswersCanonical (execPodFlush s) := by
  unfold execPodFlush
  dsimp only
  split <;> simp [hs]

@[simp] theorem sendCount_mem (s : State) (c : CountMsg) : (s.sendCount c).mem = s.mem := by
  unfold State.sendCount
  split <;> simp

theorem execCountMessageSend_wf {s : State} (hs : Mem.wf s.mem = true) : AnswersCanonical (execCountMessageSend s) := by
  unfold execCountMessageSend
  repeat' split
  all_goals simp [hs, foldl_mem]

@[simp] theorem podOdd_wf {s : State} (hs : Mem.wf s.mem = true) (key exp : Nat) (a : PodArr) : Mem.wf (s.podOdd key exp a).mem = true := by
  unfold State.podOdd
  split <;> simp [hs]

theorem podCount_wf {s t : State} (hs : Mem.wf s.mem = true) {c : CountMsg} (e : s.podCount c = some t) : Mem.wf t.mem = true := by
  grind [State.podCount, podOdd_wf, foldl_wf]

theorem execPodCountMessage_wf {s : State} (hs : Mem.wf s.mem = true) : AnswersCanonical (execPodCountMessage s) := by
  unfold execPodCountMessage
  split
  · exact answersCanonical_next.2 hs
  · split
    · exact answersCanonical_next.2 hs
    · refine answersCanonical_next.2 ?_
      split
      · next h =>
        have ht := podCount_wf hs h
        exact ht
      · exact hs

theorem execPodRelease_wf {s : State} (hs : Mem.wf s.mem = true) : AnswersCanonical (execPodRelease s) := by
  unfold execPodRelease
  dsimp only
  repeat' split
  all_goals simp [hs, foldl_mem]

theorem execPodcfgWrite_wf {s : State} (hs : Mem.wf s.mem = true) : AnswersCanonical (execPodcfgWrite s) := by
  unfold execPodcfgWrite
  split <;> simp [hs]

@[simp] theorem beatPen_mem (s : State) (h : Nat) : (s.beatPen h).mem = s.mem := by
  unfold State.beatPen
  dsimp only
  split <;> simp

@[simp] theorem beat_mem (s : State) : (s.beat).mem = s.mem := by simp [State.beat, foldl_mem]

end Sys2Proof.Machine
end

section
/-! PROOFS. Every row and every passage to the next beat keeps memory in its canonical form (logs 2, 3): O9. -/

namespace Sys2Proof.Machine

open Sys2Proof

theorem exec_wf {s : State} (hs : Mem.wf s.mem = true) (i : Instr) : AnswersCanonical (exec i s) := by
  cases i
  case add | sub | mul | mulh | mulhz | div | divz | rem | remz | and | or | xor | andn | shl | shr | sra | rotl | min | max | minz
      | maxz | clz | ctz | popc | bext | bins | sel | sext | mad | addsh | addi | muli | andi | ori | xori | shli | shri | srai | mini
      | maxi | li | lih | lil | qget | qfirst | lea | bget | mfc | gstat | rxstat | tlk =>
    exact sRes_wf hs ..
  case cmp | cmpi | qand | qor | qxor | qandn | qnot | qsetRange | qsetWord =>
    exact qRes_wf hs ..
  case vadd | vsub | vmul | vfma | vfms | vfnma | vmin | vmax | vabs | vneg | vrcp | vrsq | vrcps | vrsqs | vexp2 | vlog2 | vscale
      | vfrexpFrac | vfrexpExp | vround | vcvt | vcmp | vsel | vand | vor | vxor | vshl | vshr | vsra | vclamp | vdot | vred | vscan
      | vmred | vtopk | vqcnt | vperm | vbcastElem | vbcastScalar | vslide | vcompress | vexpand | vidx | vmov | vins | vext | vli
      | vhouse | vnorm | vpack | vunpk =>
    exact answersCanonical_next.2 (vIssue_wf hs ..)
  case lcopy | lcopyShort | lgath | lscat | lwin | lfill | lprf | lprfShort | lexp | limp | aadd | amin | amax | aand | aor | axor
      | aswap | acas | ald | ast | awaitAsync | apop | apush | arrive | fenceAsync | dsend | dtw | dtd | dcommit | dtr | dmd | dabn
      | dret | dstat | ckpt | cfgld | swap =>
    exact answersCanonical_next.2 (by rwa [asyncWord_mem])
  case awaitSync | bar | bwait | fenceSync | liter =>
    exact answersCanonical_next.2 (syncWord_wf hs ..)
  case mma | mmat =>
    exact answersCanonical_next.2 (by rwa [multiply_mem])
  case mzero | mmov | madd | mscl | mrowmax | mrowsum | oaclr | oaapp | oahh | oamv | oarc | oastat | oacfg =>
    exact answersCanonical_next.2 (nodeWord_wf hs _ _ _ _ (fun u x hu => by rwa [fly_mem]))
  case oaml | oamr | oaform =>
    exact applyAcc_wf hs ..
  case nop | bset | mtc | tins | tinv | tclr =>
    exact answersCanonical_next.2 (by rwa [result_mem])
  case rgnin | rgnout =>
    simp only [exec, execRgnin, execRgnout, regionEdge_wf hs]
  case fin =>
    exact penEffect_wf hs ..
  case recvS =>
    exact ordered_wf hs (fun u _ hu => popThen_wf hu _ (fun v _ hv => by rwa [takeScalar_mem]))
  case recvQ =>
    exact ordered_wf hs (fun u _ hu => popThen_wf hu _ (fun v _ hv => by rwa [takePred_mem]))
  case peekS =>
    exact ordered_wf hs (fun u _ hu => peekThen_wf hu _ (fun v _ hv => by rwa [takeScalar_mem]))
  case peekQ =>
    exact ordered_wf hs (fun u _ hu => peekThen_wf hu _ (fun v _ hv => by rwa [takePred_mem]))
  case sendS | sendV | sendq =>
    exact pushFrom_wf hs ..
  case demand | exportRec | importRec =>
    simp only [exec, execDemand, execExportRec, execImportRec]
    exact entryRow_wf hs (fun e => unitEntry_wf hs ..)
  case inval | bpctlWrite =>
    exact driver_wf hs hs
  case hbaseWrite =>
    exact driver_wf hs (ite_wf hs hs)
  case coldReset | warmReset =>
    exact answersCanonical_next.2 (afterReset_canonical hs _)
  case vld | vst | vgth | vsct | recvV | drop | levelChangeDone | spdmMeasurements | cxlCacheLineLoss =>
    simp [exec, execVld, execVst, execVgth, execVsct, execRecvV, execDrop, execLevelChangeDone, execSpdmMeasurements, execCxlCacheLineLoss,
      hs]
  case remoteWriteApply | bld | trap | brk | trmark | tokenArrival | demandRequest | outputDelivery =>
    simp only [exec, execRemoteWriteApply_wf hs, execBld_wf hs, execTrap_wf hs, execBrk_wf hs, execTrmark_wf hs, execTokenArrival_wf hs,
      execDemandRequest_wf hs, execOutputDelivery_wf hs]
  case demandUnitCommand | ld | st | ginit | gadv | gpop | gfill | mdrain =>
    simp only [exec, execDemandUnitCommand_wf hs, execLd_wf hs, execSt_wf hs, execGinit_wf hs, execGadv_wf hs, execGpop_wf hs, execGfill_wf
      hs, execMdrain_wf hs]
  case mld | mst | ladleExecute | engineAccept | bellwetherOp | barrierCount | awaitRecheck | awaitTimeout =>
    simp only [exec, execMld_wf hs, execMst_wf hs, execLadleExecute_wf hs, execEngineAccept_wf hs, execBellwetherOp_wf hs,
      execBarrierCount_wf hs, execAwaitRecheck_wf hs, execAwaitTimeout_wf hs]
  case droveAccept | droveStage | droveTableOp | dcommitDrained | droveExit | oasave | oaload | resultReady =>
    simp only [exec, execDroveAccept_wf hs, execDroveStage_wf hs, execDroveTableOp_wf hs, execDcommitDrained_wf hs, execDroveExit_wf hs,
      execOasave_wf hs, execOaload_wf hs, execResultReady_wf hs]
  case recompactionEnd | remoteAccessArrive | loadResponse | completionTokenDelivery | configLoad | planeFlip | slotStart
      | chunkIssue =>
    simp only [exec, execRecompactionEnd_wf hs, execRemoteAccessArrive_wf hs, execLoadResponse_wf hs, execCompletionTokenDelivery_wf hs,
      execConfigLoad_wf hs, execPlaneFlip_wf hs, execSlotStart_wf hs, execChunkIssue_wf hs]
  case rewindResume | restartHoldExpiry | qtailWrite | queueDescWrite | shepherdTake | wait | signal | finRecord =>
    simp only [exec, execRewindResume_wf hs, execRestartHoldExpiry_wf hs, execQtailWrite_wf hs, execQueueDescWrite_wf hs,
      execShepherdTake_wf hs, execWait_wf hs, execSignal_wf hs, execFinRecord_wf hs]
  case penEnd | freeze | thaw | preemptRestore | launch | replay | patch | table =>
    simp only [exec, execPenEnd_wf hs, execFreeze_wf hs, execThaw_wf hs, execPreemptRestore_wf hs, execLaunch_wf hs, execReplay_wf hs,
      execPatch_wf hs, execTable_wf hs]
  case contextWrite | keyInstall | invalComplete | frptrWrite | teardown | scrubComplete | patrolScrub | registerWrite =>
    simp only [exec, execContextWrite_wf hs, execKeyInstall_wf hs, execInvalComplete_wf hs, execFrptrWrite_wf hs, execTeardown_wf hs,
      execScrubComplete_wf hs, execPatrolScrub_wf hs, execRegisterWrite_wf hs]
  case functionLevelReset | bringupStep | recoveryImageWrite | alarmClassA | alarmClassB | powerSample | cxlMemAccess | flitReceive =>
    simp only [exec, execFunctionLevelReset_wf hs, execBringupStep_wf hs, execRecoveryImageWrite_wf hs, execAlarmClassA_wf hs,
      execAlarmClassB_wf hs, execPowerSample_wf hs, execCxlMemAccess_wf hs, execFlitReceive_wf hs]
  case podFlush | countMessageSend | podCountMessage | podRelease | podcfgWrite =>
    simp only [exec, execPodFlush_wf hs, execCountMessageSend_wf hs, execPodCountMessage_wf hs, execPodRelease_wf hs, execPodcfgWrite_wf hs]

theorem fetch_mem {s t : State} {i : Instr} (h : s.fetch = .row i t) : t.mem = s.mem := by
  unfold State.fetch at h
  split at h
  · cases h
  · split at h <;> cases h
    rfl
  · cases h
    rfl

/-- Settles O9: what is fetched has the memory of the state, every row keeps the form, and so does time. -/
theorem stepKeepsCanonical : Obligations.StepKeepsCanonical := by
  unfold Obligations.StepKeepsCanonical
  intro s t hs e
  unfold step at e
  split at e
  case h_1 i u hf => exact (exec_wf (by rw [fetch_mem hf]; exact hs) i).next t e
  case h_2 =>
    cases e
    exact (congrArg Mem.wf (beat_mem s)).trans hs
  case h_3 => cases e

end Sys2Proof.Machine
end

section
/-! PROOFS. Writes of the driver: which are heard, and what a host event leaves of the queues (R320, R358, R368). -/

namespace Sys2Proof.Machine

open Sys2Proof

/-! ### Bits of a register -/

theorem bitAt_toNat {n : Nat} (w : BitVec n) (k : Nat) : bitAt w.toNat k = w.getLsbD k :=
  (bitAt_eq_testBit w.toNat k).trans (BitVec.testBit_toNat w)

theorem ctx_en (c : Ctx) : c.en = c.w[2].getLsbD 63 := bitAt_toNat _ 63

theorem ctx_prot (c : Ctx) : c.prot = c.w[2].getLsbD 62 := bitAt_toNat _ 62

theorem queue_en (x : Queue) : x.en = x.w2.getLsbD 43 := bitAt_toNat _ 43

/-- Words that agree from a bit on agree in the field above it. -/
theorem toNat_div_eq_of_getLsbD {v w : W64} {n : Nat} (h : ∀ k, n ≤ k → v.getLsbD k = w.getLsbD k) :
    v.toNat / 2 ^ n = w.toNat / 2 ^ n := by
  refine Nat.eq_of_testBit_eq fun i => ?_
  simp only [Nat.testBit_div_two_pow, BitVec.testBit_toNat]
  exact h _ (by omega)

theorem field_eq_of_getLsbD {v w : W64} {lo n : Nat} (h : ∀ k, lo ≤ k → k < lo + n → v.getLsbD k = w.getLsbD k) :
    v.toNat / 2 ^ lo % 2 ^ n = w.toNat / 2 ^ lo % 2 ^ n := by
  refine Nat.eq_of_testBit_eq fun i => ?_
  simp only [Nat.testBit_mod_two_pow, Nat.testBit_div_two_pow, BitVec.testBit_toNat]
  by_cases hi : i < n
  · simp [hi, h (i + lo) (by omega) (by omega)]
  · simp [hi]

/-! ### The driver (R358, R368) -/

theorem offline_iff (s : State) : s.offline = true ↔ s.svc.boot < 5 ∨ s.svc.recovery = true ∨ s.svc.status ≠ 0 := by
  simp [State.offline, or_assoc]

theorem driver_offline {s : State} (h : s.offline = true) (t : State) : s.driver t = .next s := by
  simp [State.driver, h]

theorem driver_online {s : State} (h : s.offline = false) (t : State) : s.driver t = .next t := by
  simp [State.driver, h]

theorem after_driver {s t : State} (h : s.offline = false) {P : State → Prop} (ht : P t) : After (s.driver t) P :=
  ⟨t, driver_online h t, ht⟩

/-! ### Queues -/

@[simp] theorem queue_setQueue_self (s : State) (q : Nat) (x : Queue) : (s.setQueue q x).queue q = x := by
  simp [State.queue, State.setQueue, tab_find_put_self]

theorem ctx_setCtx_self (s : State) (n : Nat) (c : Ctx) : (s.setCtx n c).ctx n = c := by
  simp [State.ctx, State.setCtx, tab_find_put_self]

/-! ### What a host event leaves of the queues -/

theorem foldl_queues {α : Type} {f : State → α → State} (hf : ∀ s a, (f s a).queues = s.queues) (l : List α) (s : State) :
    (l.foldl f s).queues = s.queues := by
  induction l generalizing s with
  | nil => rfl
  | cons a l ih => exact (ih (f s a)).trans (hf s a)

theorem countDie_queues (s : State) (d src n : Nat) : (s.countDie d src n).queues = s.queues := modDie_queues s d _

theorem dieFlits_queues (s : State) (a b : Nat) (back : Bool) : (s.dieFlits a b back).queues = s.queues := by
  unfold State.dieFlits
  dsimp only
  repeat' split
  all_goals simp [countDie_queues]

theorem physWrite_queues (s : State) (w : Option Agent) (key : Nat) (cells : List (Nat × Byte)) :
    (s.physWrite w key cells).queues = s.queues := by
  unfold State.physWrite
  dsimp only
  repeat' split
  all_goals simp [countDie_queues, dieFlits_queues]

theorem peerFlit_queues (s : State) (kind ctx pa : Nat) (rest : List Nat) : (s.peerFlit kind ctx pa rest).queues = s.queues :=
  (congrArg State.queues (peerFlit_rest s kind ctx pa rest) :)

theorem peerWrite_queues (s : State) (ctx : Nat) (pas : List Nat) : (s.peerWrite ctx pas).queues = s.queues :=
  foldl_queues (fun s _ => peerFlit_queues s _ _ _ _) _ s

theorem chunkWrite_queues (s : State) (w : Option Agent) (key : Nat) (f : Option Fmt) (pn : Nat) (bs : List Byte) :
    (s.chunkWrite w key f pn bs).queues = s.queues := physWrite_queues s w key _

theorem writePlaces_queues {s t : State} {w : Option Agent} {ctx : Nat} {pl : List (Nat × Nat)} {bs : List Byte}
    (h : s.writePlaces w ctx pl bs = .ok t) : t.queues = s.queues := by
  unfold State.writePlaces at h
  dsimp only at h
  split at h <;> cases h
  refine (foldl_queues (fun s m => ?_) _ _).trans (physWrite_queues s w _ _)
  split
  · exact chunkWrite_queues s w _ _ _ _
  · rfl

theorem vwriteBy_queues {s t : State} {w : Option Agent} {ctx va : Nat} {acc : Acc} {bs : List Byte}
    (h : s.vwriteBy w ctx va acc bs = .ok t) : t.queues = s.queues := by
  unfold State.vwriteBy at h
  split at h
  · cases h
  · next pl _ =>
    cases hw : s.writePlaces w ctx pl bs with
    | error e => rw [hw] at h; cases h
    | ok u => rw [hw] at h; cases h; exact (peerWrite_queues u ctx _).trans (writePlaces_queues hw)

theorem ringSlot_queues {s t : State} {w : Option Agent} {ctx va size widx : Nat} {bs : List Byte}
    (h : s.ringSlot w ctx va size bs = .ok (t, widx)) : t.queues = s.queues := by
  unfold State.ringSlot at h
  split at h
  · cases h
  · dsimp only at h
    split at h
    · cases h
    · split at h
      · cases h
      · next hw => cases h; exact vwriteBy_queues hw

theorem ringBump_queues (s : State) (w : Option Agent) (ctx va widx : Nat) : (s.ringBump w ctx va widx).1.queues = s.queues := by
  unfold State.ringBump
  split
  · rfl
  · next hw => exact vwriteBy_queues hw

theorem ringAppend_queues {s t : State} {w : Option Agent} {ctx va size : Nat} {bs : List Byte} {r : Option RingFault}
    (h : s.ringAppend w id ctx va size bs = (t, r)) : t.queues = s.queues := by
  unfold State.ringAppend at h
  split at h
  · cases h; rfl
  · next u widx hs =>
    have bumped := (ringBump_queues u w ctx va widx).trans (ringSlot_queues hs)
    dsimp only [id] at h
    split at h <;> next hb =>
      cases h
      rwa [hb] at bumped

theorem recordFault_queues (s : State) (w : Who) (va : Nat) (x : XFault) (park : Bool) :
    (s.recordFault w va x park).1.queues = s.queues := by
  have counted : (s.countDie w.die 13 1).queues = s.queues := countDie_queues s _ _ _
  unfold State.recordFault
  split
  · rfl
  · dsimp only
    split
    · exact counted
    · exact (physWrite_queues _ none 0 _).trans counted

/-- A host event, posted or lost, leaves the queues alone (R335, R338). -/
theorem postEvent_queues (s : State) (ctx ty pid rel die : Nat) (payload : List W64) :
    (s.postEvent ctx ty pid rel die payload).queues = s.queues := by
  unfold State.postEvent
  dsimp only
  split
  · rfl
  split
  · rfl
  split
  · next ha => exact ringAppend_queues ha
  · next u _ fault ha =>
    refine Eq.trans ?_ (ringAppend_queues ha)
    cases fault with
    | none => rfl
    | some f =>
      refine (recordFault_queues _ _ _ _ _).trans ?_
      split
      · exact modDie_queues u die _
      · rfl

end Sys2Proof.Machine
end

section
/-! PROOFS. Writes of queue descriptors and of QTAIL (R319, R320). -/

namespace Sys2Proof.Machine

open Sys2Proof

/-- A word with a single bit. -/
theorem getLsbD_ofNat_two_pow (i k : Nat) (hi : i < 64) : (BitVec.ofNat 64 (2 ^ i)).getLsbD k = decide (i = k) := by
  rw [BitVec.getLsbD_ofNat, Nat.testBit_two_pow]
  by_cases h : i = k
  · rw [← h, decide_eq_true hi, decide_eq_true rfl]; rfl
  · rw [decide_eq_false h, Bool.and_false]

/-- The bits of a queue's word 2 an enabled queue keeps: its context, ring size (R319). -/
theorem getLsbD_descKeep (k : Nat) : (BitVec.ofNat 64 (2 ^ 64 - 2 ^ 47)).getLsbD k = decide (47 ≤ k ∧ k < 64) := by
  have shifted : BitVec.ofNat 64 (2 ^ 64 - 2 ^ 47) = BitVec.allOnes 64 <<< 47 := by decide
  rw [shifted, BitVec.getLsbD_shiftLeft, BitVec.getLsbD_allOnes]
  grind

/-- The bits of a queue's word 2 that may change while it is enabled: PRIO, EN and AGE (R319). -/
theorem getLsbD_descMine (k : Nat) :
    (BitVec.ofNat 64 (15 * 2 ^ 43 + 65535)).getLsbD k = decide (k < 16 ∨ 43 ≤ k ∧ k < 47) := by
  have parts : BitVec.ofNat 64 (15 * 2 ^ 43 + 65535) =
    (BitVec.allOnes 4).setWidth 64 <<< 43 ||| (BitVec.allOnes 16).setWidth 64 := by decide
  rw [parts, BitVec.getLsbD_or, BitVec.getLsbD_shiftLeft, BitVec.getLsbD_setWidth, BitVec.getLsbD_setWidth, BitVec.getLsbD_allOnes,
    BitVec.getLsbD_allOnes]
  grind

theorem getLsbD_and_not_bit (w : W64) (i k : Nat) (hi : i < 64) :
    (w &&& ~~~(BitVec.ofNat 64 (2 ^ i))).getLsbD k = (w.getLsbD k && decide (k ≠ i)) := by
  rw [BitVec.getLsbD_and, BitVec.getLsbD_not, getLsbD_ofNat_two_pow i k hi]
  by_cases hk : k < 64
  · grind
  · simp [BitVec.getLsbD_of_ge w k (by omega)]

theorem queue_postEvent (s : State) (ctx ty pid rel die : Nat) (payload : List W64) (q : Nat) :
    (s.postEvent ctx ty pid rel die payload).queue q = s.queue q := by
  unfold State.queue
  rw [postEvent_queues]

/-! ### QTAIL -/

theorem exec_qtailWrite_good {s : State} (on : s.offline = false)
    (lo : (s.queue (s.bus.a % 65536)).tail.toNat ≤ s.bus.v.toNat)
    (hi : s.bus.v.toNat ≤ (s.queue (s.bus.a % 65536)).compseq.toNat + 2 ^ (s.queue (s.bus.a % 65536)).log2) :
    After (exec .qtailWrite s) (fun t => t = s.setQueue (s.bus.a % 65536) { s.queue (s.bus.a % 65536) with tail := s.bus.v }) := by
  refine after_driver on ?_
  rw [if_neg]
  simp only [Bool.or_eq_true, decide_eq_true_eq]
  omega

/-- A bad QTAIL disables its queue and changes nothing else of it; the host event leaves cores and pens alone (R320). -/
theorem exec_qtailWrite_bad {s : State} (on : s.offline = false)
    (bad : s.bus.v.toNat < (s.queue (s.bus.a % 65536)).tail.toNat ∨
      (s.queue (s.bus.a % 65536)).compseq.toNat + 2 ^ (s.queue (s.bus.a % 65536)).log2 < s.bus.v.toNat) :
    After (exec .qtailWrite s) (fun t => (t.queue (s.bus.a % 65536)).w2.getLsbD 43 = false ∧
      (t.queue (s.bus.a % 65536)).tail = (s.queue (s.bus.a % 65536)).tail ∧
      (t.queue (s.bus.a % 65536)).compseq = (s.queue (s.bus.a % 65536)).compseq ∧ t.pens = s.pens ∧ t.cores = s.cores) := by
  generalize hq : s.bus.a % 65536 = q at bad ⊢
  generalize hx : s.queue q = x at bad ⊢
  let u : State := s.setQueue q { x with w2 := x.w2 &&& ~~~(BitVec.ofNat 64 (2 ^ 43)) }
  let t : State := u.postEvent x.ctx 0x07 0 0 0 [BitVec.ofNat 64 q, s.bus.v, x.compseq]
  have written : t.queue q = { x with w2 := x.w2 &&& ~~~(BitVec.ofNat 64 (2 ^ 43)) } :=
    (queue_postEvent u _ _ _ _ _ _ q).trans (queue_setQueue_self s q _)
  have units : SameUnits u t := sameUnits_postEvent u _ _ _ _ _ _
  have step : exec .qtailWrite s = s.driver t := by
    simp only [exec, execQtailWrite, hq, hx]
    rw [if_pos (by simpa using bad)]
    simp only [State.queueError, hx]
    rfl
  rw [step]
  refine after_driver on ⟨?_, ?_, ?_, units.pens, units.cores⟩ <;> rw [written]
  rw [getLsbD_and_not_bit _ _ _ (by decide)]
  simp

/-! ### The descriptor -/

/-- Word 2 as a write leaves it: PRIO, EN and AGE, and the rest only while the queue is not enabled (R319). -/
def descWord (x : Queue) (v : W64) : W64 :=
  let keep : W64 := BitVec.ofNat 64 (2 ^ 64 - 2 ^ 47)
  let mine : W64 := BitVec.ofNat 64 (15 * 2 ^ 43 + 65535)
  if x.en then (x.w2 &&& keep) ||| (v &&& mine) else v &&& (keep ||| mine)

/-- A queue may be enabled: its ring has a size, its context is enabled and in no quarantine (R319, R337, R349). -/
def State.mayQueue (s : State) (y : Queue) : Bool :=
  1 ≤ y.log2 && y.log2 ≤ 16 && bitAt (s.ctx y.ctx).w[2].toNat 63 && !(s.ctx y.ctx).quar

/-- A queue as a write of its word 2 leaves it, before its ageing clock restarts. -/
def State.described (s : State) (x : Queue) (v : W64) : Queue :=
  let y := { x with w2 := descWord x v }
  let y := if y.en && !x.en && !s.mayQueue y then { y with w2 := descWord x v &&& ~~~(BitVec.ofNat 64 (2 ^ 43)) } else y
  if y.en && !x.en then { y with tail := 0, taken := 0, compseq := 0, comp := [], elig := false, parked := none } else y

theorem exec_queueDescWrite_two {s : State} (hb : s.bus.b = 2) :
    exec .queueDescWrite s = s.driver (s.setQueue (s.bus.a % 65536)
      { s.described (s.queue (s.bus.a % 65536)) s.bus.v with clock := s.time }) := by
  simp only [exec, execQueueDescWrite, hb]
  rfl

theorem exec_queueDescWrite_other {s : State} (hb : s.bus.b ≠ 2) :
    exec .queueDescWrite s = s.driver (
      if (s.queue (s.bus.a % 65536)).en then s
      else if s.bus.b = 0 then s.setQueue (s.bus.a % 65536) { s.queue (s.bus.a % 65536) with w0 := s.bus.v }
      else if s.bus.b = 1 then s.setQueue (s.bus.a % 65536) { s.queue (s.bus.a % 65536) with w1 := s.bus.v } else s) := by
  simp [exec, execQueueDescWrite, hb]

theorem getLsbD_descWord_on {x : Queue} (hx : x.en = true) (v : W64) (k : Nat) :
    (descWord x v).getLsbD k = if 47 ≤ k then x.w2.getLsbD k else v.getLsbD k && decide (k < 16 ∨ 43 ≤ k) := by
  simp only [descWord, hx, if_true, BitVec.getLsbD_or, BitVec.getLsbD_and, getLsbD_descKeep, getLsbD_descMine]
  by_cases hk : k < 64
  · grind
  · simp [BitVec.getLsbD_of_ge x.w2 k (by omega), BitVec.getLsbD_of_ge v k (by omega)]

theorem getLsbD_descWord_off {x : Queue} (hx : x.en = false) (v : W64) (k : Nat) :
    (descWord x v).getLsbD k = (v.getLsbD k && decide (k < 16 ∨ 43 ≤ k)) := by
  simp only [descWord, hx, Bool.false_eq_true, if_false, BitVec.getLsbD_or, BitVec.getLsbD_and, getLsbD_descKeep, getLsbD_descMine]
  by_cases hk : k < 64
  · grind
  · simp [BitVec.getLsbD_of_ge v k (by omega)]

/-- An enabled queue takes its word 2 and nothing else. -/
theorem described_on {x : Queue} (hx : x.en = true) (s : State) (v : W64) : s.described x v = { x with w2 := descWord x v } := by
  simp [State.described, hx]

theorem en_descWord {x : Queue} {v : W64} (hx : x.en = false) (hv : v.getLsbD 43 = true) :
    Queue.en { x with w2 := descWord x v } = true := by
  rw [queue_en, getLsbD_descWord_off hx, hv]; rfl

/-- A queue that may not be enabled, is not. -/
theorem described_refused {s : State} {x : Queue} {v : W64} (hx : x.en = false) (hv : v.getLsbD 43 = true)
    (no : s.mayQueue { x with w2 := descWord x v } = false) :
    s.described x v = { x with w2 := descWord x v &&& ~~~(BitVec.ofNat 64 (2 ^ 43)) } := by
  have off : Queue.en { x with w2 := descWord x v &&& ~~~(BitVec.ofNat 64 (2 ^ 43)) } = false := by
    rw [queue_en, getLsbD_and_not_bit _ _ _ (by decide)]; simp
  simp only [State.described, hx, no, en_descWord hx hv, off, Bool.not_false, Bool.and_true, Bool.false_eq_true, if_true, if_false]

/-- A queue that is enabled counts its entries from 1. -/
theorem described_enabled {s : State} {x : Queue} {v : W64} (hx : x.en = false) (hv : v.getLsbD 43 = true)
    (ok : s.mayQueue { x with w2 := descWord x v } = true) : s.described x v =
      { x with w2 := descWord x v, tail := 0, taken := 0, compseq := 0, comp := [], elig := false, parked := none } := by
  simp [State.described, hx, ok, en_descWord hx hv]

/-- The context a write of word 2 gives a queue that is not enabled. -/
theorem ctx_descWord {x : Queue} (hx : x.en = false) (v : W64) : Queue.ctx { x with w2 := descWord x v } = v.toNat / 2 ^ 52 := by
  have top := toNat_div_eq_of_getLsbD (v := descWord x v) (w := v) (n := 52) fun k hk => by
    rw [getLsbD_descWord_off hx, decide_eq_true (by omega), Bool.and_true]
  have bound := v.isLt
  calc (descWord x v).toNat / 2 ^ 52 % 2 ^ 12 = v.toNat / 2 ^ 52 % 2 ^ 12 := by rw [top]
    _ = v.toNat / 2 ^ 52 := by omega

theorem log2_descWord {x : Queue} (hx : x.en = false) (v : W64) :
    Queue.log2 { x with w2 := descWord x v } = v.toNat / 2 ^ 47 % 32 :=
  field_eq_of_getLsbD (v := descWord x v) (w := v) (lo := 47) (n := 5) fun k hk _ => by
    rw [getLsbD_descWord_off hx, decide_eq_true (by omega), Bool.and_true]

theorem mayQueue_descWord {s : State} {x : Queue} (hx : x.en = false) (v : W64) :
    s.mayQueue { x with w2 := descWord x v } = (decide (1 ≤ v.toNat / 2 ^ 47 % 32) && decide (v.toNat / 2 ^ 47 % 32 ≤ 16)
      && (s.ctx (v.toNat / 2 ^ 52)).w[2].getLsbD 63 && !(s.ctx (v.toNat / 2 ^ 52)).quar) := by
  simp only [State.mayQueue, ctx_descWord hx, log2_descWord hx, bitAt_toNat]

/-- What a write of word 2 leaves, in terms of the queue it leaves. -/
theorem exec_queueDescWrite_after {s : State} (on : s.offline = false) (hb : s.bus.b = 2) {P : Queue → Prop}
    (hP : P { s.described (s.queue (s.bus.a % 65536)) s.bus.v with clock := s.time }) :
    After (exec .queueDescWrite s) (fun t => P (t.queue (s.bus.a % 65536))) := by
  rw [exec_queueDescWrite_two hb]
  exact after_driver on (by rwa [queue_setQueue_self])

theorem exec_queueDescWrite_on {s : State} (on : s.offline = false) (hb : s.bus.b = 2)
    (hx : (s.queue (s.bus.a % 65536)).w2.getLsbD 43 = true) :
    After (exec .queueDescWrite s) (fun t =>
      (t.queue (s.bus.a % 65536)).w2.toNat / 2 ^ 47 = (s.queue (s.bus.a % 65536)).w2.toNat / 2 ^ 47 ∧
      (t.queue (s.bus.a % 65536)).w2.toNat / 2 ^ 43 % 16 = s.bus.v.toNat / 2 ^ 43 % 16 ∧
      (t.queue (s.bus.a % 65536)).w2.toNat % 65536 = s.bus.v.toNat % 65536 ∧
      (t.queue (s.bus.a % 65536)).tail = (s.queue (s.bus.a % 65536)).tail ∧
      (t.queue (s.bus.a % 65536)).taken = (s.queue (s.bus.a % 65536)).taken ∧
      (t.queue (s.bus.a % 65536)).compseq = (s.queue (s.bus.a % 65536)).compseq) := by
  rw [← queue_en] at hx
  refine exec_queueDescWrite_after on hb (P := fun y => y.w2.toNat / 2 ^ 47 = _ ∧ y.w2.toNat / 2 ^ 43 % 16 = _ ∧
    y.w2.toNat % 65536 = _ ∧ y.tail = _ ∧ y.taken = _ ∧ y.compseq = _) ?_
  rw [described_on hx]
  have bit := getLsbD_descWord_on hx s.bus.v
  refine ⟨toNat_div_eq_of_getLsbD fun k hk => ?_, field_eq_of_getLsbD (n := 4) fun k hk hk' => ?_, ?_, rfl, rfl, rfl⟩
  · rw [bit, if_pos hk]
  · rw [bit, if_neg (by omega), decide_eq_true (by omega), Bool.and_true]
  · have age := field_eq_of_getLsbD (v := descWord (s.queue (s.bus.a % 65536)) s.bus.v) (w := s.bus.v) (lo := 0) (n := 16)
      fun k _ hk => by rw [bit, if_neg (by omega), decide_eq_true (by omega), Bool.and_true]
    simpa using age

theorem exec_queueDescWrite_noCtx {s : State} (on : s.offline = false) (hb : s.bus.b = 2)
    (hx : (s.queue (s.bus.a % 65536)).w2.getLsbD 43 = false) (hv : s.bus.v.getLsbD 43 = true)
    (hc : (s.ctx (s.bus.v.toNat / 2 ^ 52)).w[2].getLsbD 63 = false) :
    After (exec .queueDescWrite s) (fun t => (t.queue (s.bus.a % 65536)).w2.getLsbD 43 = false) := by
  rw [← queue_en] at hx
  refine exec_queueDescWrite_after on hb (P := fun y => y.w2.getLsbD 43 = false) ?_
  rw [described_refused hx hv (by rw [mayQueue_descWord hx, hc, Bool.and_false, Bool.false_and])]
  simp

theorem exec_queueDescWrite_enables {s : State} (on : s.offline = false) (hb : s.bus.b = 2)
    (hx : (s.queue (s.bus.a % 65536)).w2.getLsbD 43 = false) (hv : s.bus.v.getLsbD 43 = true)
    (hc : (s.ctx (s.bus.v.toNat / 2 ^ 52)).w[2].getLsbD 63 = true) (hq : (s.ctx (s.bus.v.toNat / 2 ^ 52)).quar = false)
    (lo : 1 ≤ s.bus.v.toNat / 2 ^ 47 % 32) (hi : s.bus.v.toNat / 2 ^ 47 % 32 ≤ 16) :
    After (exec .queueDescWrite s) (fun t => (t.queue (s.bus.a % 65536)).w2.getLsbD 43 = true ∧
      (t.queue (s.bus.a % 65536)).tail = 0 ∧ (t.queue (s.bus.a % 65536)).taken = 0 ∧ (t.queue (s.bus.a % 65536)).compseq = 0) := by
  rw [← queue_en] at hx
  refine exec_queueDescWrite_after on hb
    (P := fun y => y.w2.getLsbD 43 = true ∧ y.tail = 0 ∧ y.taken = 0 ∧ y.compseq = 0) ?_
  rw [described_enabled hx hv (by rw [mayQueue_descWord hx, hc, hq, decide_eq_true lo, decide_eq_true hi]; rfl)]
  exact ⟨(queue_en _).symm.trans (en_descWord hx hv), rfl, rfl, rfl⟩

end Sys2Proof.Machine
end

section
/-! PROOFS. Writes of context descriptors, keys and the header base (R310, R337, R340, R348, R349, R363). -/

namespace Sys2Proof.Machine

open Sys2Proof

/-! ### The bits of a descriptor (R337) -/

theorem descriptorBits_eq (i : Nat) (v : W64) : descriptorBits i v = v &&& ctxMask i := by
  unfold descriptorBits ctxMask
  split
  · rfl
  split
  · rfl
  · simp only [Bool.or_eq_true, decide_eq_true_eq]
    split
    · rfl
    · rw [BitVec.and_allOnes]

theorem ctxMask_two : ctxMask 2 = BitVec.allOnes 64 <<< 55 := by decide

/-- Word 2 of a descriptor keeps its bits from KEYSLOT up. -/
theorem getLsbD_and_ctxMask_two (v : W64) {k : Nat} (hk : 55 ≤ k) : (v &&& ctxMask 2).getLsbD k = v.getLsbD k := by
  rw [BitVec.getLsbD_and, ctxMask_two, BitVec.getLsbD_shiftLeft, BitVec.getLsbD_allOnes]
  by_cases h : k < 64
  · grind
  · simp [BitVec.getLsbD_of_ge v k (by omega)]

/-! ### The descriptor of an enabled context -/

/-- An enabled context takes POL, EVQ and CAREA, and nothing else of a write. -/
theorem exec_contextWrite_on {s : State} (en : (s.ctx (s.bus.a % 4096)).en = true) : exec .contextWrite s = s.driver (
    if s.bus.b % 8 = 2 then s.setCtx (s.bus.a % 4096) { s.ctx (s.bus.a % 4096) with
      w := (s.ctx (s.bus.a % 4096)).w.set 2 (((s.ctx (s.bus.a % 4096)).w[2] &&& ~~~(BitVec.ofNat 64 (2 ^ 61)))
        ||| (s.bus.v &&& ctxMask 2 &&& BitVec.ofNat 64 (2 ^ 61))) }
    else if s.bus.b % 8 = 3 ∨ s.bus.b % 8 = 4 then s.setCtx (s.bus.a % 4096) { s.ctx (s.bus.a % 4096) with
      w := (s.ctx (s.bus.a % 4096)).w.setIfInBounds (s.bus.b % 8) (s.bus.v &&& ctxMask (s.bus.b % 8)) }
    else s) := by
  simp only [exec, execContextWrite, en, if_true, Bool.or_eq_true, decide_eq_true_eq]
  split
  · next h => rw [h]
  · rfl

/-- A write of word 2 of an enabled context changes POL alone. -/
theorem getLsbD_polWritten (w v : W64) (k : Nat) :
    ((w &&& ~~~(BitVec.ofNat 64 (2 ^ 61))) ||| (v &&& ctxMask 2 &&& BitVec.ofNat 64 (2 ^ 61))).getLsbD k
      = if k = 61 then v.getLsbD 61 else w.getLsbD k := by
  rw [BitVec.getLsbD_or, getLsbD_and_not_bit w 61 k (by decide), BitVec.getLsbD_and, getLsbD_ofNat_two_pow 61 k (by decide)]
  by_cases hk : k = 61
  · subst hk
    rw [getLsbD_and_ctxMask_two v (by decide)]
    simp
  · simp [hk, Ne.symm hk]

theorem exec_contextWrite_pol {s : State} {n : Nat} {c : Ctx} (on : s.offline = false) (hn : s.bus.a % 4096 = n) (hc : s.ctx n = c)
    (en : c.w[2].getLsbD 63 = true) (hi : s.bus.b % 8 = 2) :
    After (exec .contextWrite s) (fun t => (t.ctx n).w[2].getLsbD 61 = s.bus.v.getLsbD 61 ∧
      (∀ b, b ≠ 61 → (t.ctx n).w[2].getLsbD b = c.w[2].getLsbD b) ∧ (∀ j : Fin 8, j ≠ 2 → (t.ctx n).w[j] = c.w[j])) := by
  subst hn hc
  rw [exec_contextWrite_on (by rwa [ctx_en]), if_pos hi]
  refine after_driver on ?_
  rw [ctx_setCtx_self]
  dsimp only
  rw [Vector.getElem_set_self]
  refine ⟨?_, fun b hb => ?_, fun j hj => ?_⟩
  · rw [getLsbD_polWritten, if_pos rfl]
  · rw [getLsbD_polWritten, if_neg hb]
  · exact Vector.getElem_set_ne _ _ (by grind)

/-! ### The descriptor of a context that is not enabled -/

/-- A context with the word 2 a write gives it. -/
def Ctx.withWord2 (c : Ctx) (v : W64) : Ctx := { c with w := c.w.setIfInBounds 2 (v &&& ctxMask 2) }

@[simp] theorem withWord2_self (c : Ctx) (v : W64) : (c.withWord2 v).w[2] = v &&& ctxMask 2 := by
  simp [Ctx.withWord2]

@[simp] theorem withWord2_one (c : Ctx) (v : W64) : (c.withWord2 v).w[1] = c.w[1] := by
  simp [Ctx.withWord2]

@[simp] theorem withWord2_quar (c : Ctx) (v : W64) : (c.withWord2 v).quar = c.quar := rfl

@[simp] theorem withWord2_en (c : Ctx) (v : W64) : (c.withWord2 v).en = v.getLsbD 63 := by
  rw [ctx_en, withWord2_self, getLsbD_and_ctxMask_two v (by decide)]

@[simp] theorem withWord2_prot (c : Ctx) (v : W64) : (c.withWord2 v).prot = v.getLsbD 62 := by
  rw [ctx_prot, withWord2_self, getLsbD_and_ctxMask_two v (by decide)]

@[simp] theorem withWord2_kslot (c : Ctx) (v : W64) : (c.withWord2 v).kslot = v.toNat / 2 ^ 55 % 64 := by
  show (c.withWord2 v).w[2].toNat / 2 ^ 55 % 2 ^ 6 = v.toNat / 2 ^ 55 % 2 ^ 6
  rw [withWord2_self]
  exact field_eq_of_getLsbD fun k hk _ => getLsbD_and_ctxMask_two v hk

/-- A write that would not enable the context takes every bit that is not reserved. -/
theorem exec_contextWrite_off {s : State} {n : Nat} {c : Ctx} (on : s.offline = false) (hn : s.bus.a % 4096 = n) (hc : s.ctx n = c)
    (en : c.w[2].getLsbD 63 = false) (h : s.bus.b % 8 ≠ 2 ∨ s.bus.v.getLsbD 63 = false) :
    After (exec .contextWrite s) (fun t =>
      t = s.setCtx n { c with w := c.w.setIfInBounds (s.bus.b % 8) (descriptorBits (s.bus.b % 8) s.bus.v) }) := by
  rw [descriptorBits_eq]
  rw [← ctx_en] at en
  simp only [exec, execContextWrite, hn, hc, en, Bool.false_eq_true, if_false]
  rw [if_pos]
  · exact after_driver on rfl
  · by_cases hi : s.bus.b % 8 = 2
    · have off := withWord2_en c s.bus.v
      rw [h.resolve_left (not_not_intro hi)] at off
      rw [hi]
      simpa [Ctx.withWord2] using off
    · simp [hi]

/-- A write that would enable a context where R348 and R349 let it rise. -/
theorem exec_contextWrite_rise {s : State} {n : Nat} {c : Ctx} (hn : s.bus.a % 4096 = n) (hc : s.ctx n = c)
    (en : c.w[2].getLsbD 63 = false) (hi : s.bus.b % 8 = 2) (hv : s.bus.v.getLsbD 63 = true) : exec .contextWrite s =
      if s.mayEnable n (c.withWord2 s.bus.v) then
        s.driver ((if (c.withWord2 s.bus.v).prot then
            { s with keys := s.keys.map (fun k => if k.1 = (c.withWord2 s.bus.v).kslot then (k.1, (k.2.1, n)) else k) }
          else s).setRanges n { c.withWord2 s.bus.v with tearing := none })
      else s.driver (s.setCtx n { c.withWord2 s.bus.v with
        w := (c.withWord2 s.bus.v).w.set 2 (s.bus.v &&& ctxMask 2 &&& ~~~(BitVec.ofNat 64 (2 ^ 63))) }) := by
  rw [← ctx_en] at en
  have rises := withWord2_en c s.bus.v
  rw [hv] at rises
  simp only [exec, execContextWrite, hn, hc, hi, en, Bool.false_eq_true, if_false]
  rw [if_neg]
  · rfl
  · simpa [Ctx.withWord2] using rises

/-- Where EN may not rise, it does not. -/
theorem exec_contextWrite_refused {s : State} {n : Nat} {c : Ctx} (on : s.offline = false) (hn : s.bus.a % 4096 = n) (hc : s.ctx n = c)
    (en : c.w[2].getLsbD 63 = false) (hi : s.bus.b % 8 = 2) (hv : s.bus.v.getLsbD 63 = true)
    (no : s.mayEnable n (c.withWord2 s.bus.v) = false) :
    After (exec .contextWrite s) (fun t => (t.ctx n).w[2].getLsbD 63 = false) := by
  rw [exec_contextWrite_rise hn hc en hi hv, no, if_neg Bool.false_ne_true]
  refine after_driver on ?_
  rw [ctx_setCtx_self]
  dsimp only
  rw [Vector.getElem_set_self, getLsbD_and_not_bit _ _ _ (by decide)]
  simp

/-- A context without a range table is given no ranges. -/
theorem setRanges_of_noTable (s : State) (n : Nat) {c : Ctx} (h : c.w[1] = 0) :
    s.setRanges n c = s.setCtx n { c with ranges := [], badRanges := [] } := by
  simp [State.setRanges, State.readRanges, State.badRanges, h]

theorem exec_contextWrite_enabled {s : State} {n : Nat} {c : Ctx} (on : s.offline = false) (hn : s.bus.a % 4096 = n) (hc : s.ctx n = c)
    (en : c.w[2].getLsbD 63 = false) (hi : s.bus.b % 8 = 2) (hv : s.bus.v.getLsbD 63 = true)
    (may : s.mayEnable n (c.withWord2 s.bus.v) = true) (hp : s.bus.v.getLsbD 62 = false) (h1 : c.w[1] = 0) :
    After (exec .contextWrite s) (fun t =>
      (t.ctx n).w[2] = s.bus.v &&& 0xFF80000000000000 ∧ (t.ctx n).ranges = [] ∧ t.keys = s.keys) := by
  rw [exec_contextWrite_rise hn hc en hi hv, may, if_pos rfl, withWord2_prot, hp, if_neg Bool.false_ne_true,
    setRanges_of_noTable s n (by simpa using h1)]
  refine after_driver on ⟨?_, ?_, rfl⟩
  · rw [ctx_setCtx_self]
    exact withWord2_self c s.bus.v
  · rw [ctx_setCtx_self]

/-! ### When EN may rise (R348, R349, R358) -/

theorem slotQuar_iff (s : State) (k : Nat) : s.slotQuar k = true ↔ ∃ x ∈ s.quarSlots, x.2 = k := by
  simp [State.slotQuar]

theorem not_mayEnable_of_boot {s : State} (n : Nat) (c : Ctx) (h : s.svc.boot < 8) : s.mayEnable n c = false := by
  simp [State.mayEnable, h]

theorem not_mayEnable_of_quar (s : State) (n : Nat) {c : Ctx} (h : c.quar = true) : s.mayEnable n c = false := by
  simp [State.mayEnable, h]

theorem not_mayEnable_of_slot {s : State} (n : Nat) {c : Ctx} (hp : c.prot = true)
    (h : Tab.find s.keys c.kslot = none ∨ s.slotQuar c.kslot = true) : s.mayEnable n c = false := by
  obtain h | h := h <;> simp [State.mayEnable, hp, h]

theorem not_mayEnable_of_scrub {s : State} (n : Nat) (c : Ctx) (hs : s.svc.scrubFirst = true) (hq : ∃ x ∈ s.ctxs, x.2.quar = true) :
    s.mayEnable n c = false := by
  have any : s.ctxs.any (fun x => x.2.quar) = true := by simpa using hq
  simp [State.mayEnable, hs, any]

theorem mayEnable_of_open {s : State} (n : Nat) {c : Ctx} (boot : s.svc.boot = 8) (on : s.offline = false) (hq : c.quar = false)
    (scrubbed : s.svc.scrubFirst = true → ∀ x ∈ s.ctxs, x.2.quar = false) (hp : c.prot = false) : s.mayEnable n c = true := by
  have normal : s.svc.recovery = false := by
    simp only [State.offline, Bool.or_eq_false_iff] at on
    exact on.1.2
  have free : (s.svc.scrubFirst && s.ctxs.any (fun x => x.2.quar)) = false := by
    cases hs : s.svc.scrubFirst with
    | false => rfl
    | true => simpa using scrubbed hs
  simp [State.mayEnable, boot, normal, hq, free, hp]

/-! ### Keys, the header base and the pod's configuration -/

theorem someEnabled_iff (s : State) : someEnabled s ↔ s.ctxs.any (fun x => x.2.en) = true := by
  simp [someEnabled, Ctx.en, bitAt]

theorem exec_hbaseWrite (s : State) :
    exec .hbaseWrite s = s.driver (if s.ctxs.any (fun x => x.2.en) then s else { s with hbase := s.bus.v &&& 0x000FFFFFFFFFFFF1 }) := rfl

theorem exec_podcfgWrite {s : State} (on : s.offline = false) : exec .podcfgWrite s =
    .next (if s.ctxs.any (fun x => x.2.en) then s else { s with svc := { s.svc with podcfg := s.bus.v &&& 0x800003FF03FFFFFF } }) := by
  simp only [exec, execPodcfgWrite, on, Bool.false_or]

/-- A slot that KEY_INSTALL leaves alone: under quarantine, or of an enabled context (R348, R349). -/
def KeySlotUsed (s : State) (k : Nat) : Prop :=
  (∃ x ∈ s.quarSlots, x.2 = k) ∨
    ∃ x ∈ s.ctxs, x.2.w[2].getLsbD 63 = true ∧ x.2.w[2].getLsbD 62 = true ∧ x.2.w[2].toNat / 2 ^ 55 % 64 = k

theorem keySlotUsed_iff (s : State) (k : Nat) :
    KeySlotUsed s k ↔ (s.slotQuar k || s.ctxs.any (fun x => x.2.en && x.2.prot && x.2.kslot = k)) = true := by
  have fld (c : Ctx) : c.kslot = c.w[2].toNat / 2 ^ 55 % 64 := rfl
  simp only [KeySlotUsed, Bool.or_eq_true, slotQuar_iff, List.any_eq_true, Bool.and_eq_true, decide_eq_true_eq, ctx_en, ctx_prot,
    fld, and_assoc]

theorem exec_keyInstall_used {s : State} (used : KeySlotUsed s (s.bus.b % 64)) : exec .keyInstall s = .next s := by
  rw [keySlotUsed_iff, Bool.or_eq_true] at used
  simp only [exec, execKeyInstall]
  rw [if_pos]
  simp only [Bool.or_eq_true]
  tauto

theorem exec_keyInstall_free {s : State} (on : s.offline = false) (free : ¬ KeySlotUsed s (s.bus.b % 64)) :
    exec .keyInstall s = .next { s with keys := Tab.put s.keys (s.bus.b % 64) (s.bus.c + 1, 4096) } := by
  rw [keySlotUsed_iff] at free
  simp only [exec, execKeyInstall]
  rw [if_neg]
  rwa [on, Bool.false_or]

end Sys2Proof.Machine
end

section
/-! PROOFS. Invalidation, FRPTR and the device registers (R255, R316, R341, R345, R354, R361), and what `RegisterWrites` comes to. -/

namespace Sys2Proof.Machine

open Sys2Proof

/-! ### Invalidation (R341) -/

/-- The state an invalidation leaves but for the waiters: the entries it names are gone. -/
def State.invalidated (s : State) (v : W64) (rest : List W64) : State :=
  { s with invs := rest, invseq := s.invseq + 1, tlb := s.tlb.filter (fun e => !invalHits v e) }

theorem exec_invalComplete_all {s : State} {v : W64} {rest : List W64} (h : s.invs = v :: rest) (all : v.getLsbD 51 = true) :
    exec .invalComplete s =
      let t := (s.invalidated v rest).setRanges (bitsOf v 63 52) (s.ctx (bitsOf v 63 52))
      .next { t with dies := t.dies.map (fun x => { x with waits := x.waits.map (t.rewatch v) }) } := by
  simp only [exec, execInvalComplete, h, bitAt_toNat, all, if_true]
  rfl

theorem exec_invalComplete_page {s : State} {v : W64} {rest : List W64} (h : s.invs = v :: rest) (all : v.getLsbD 51 = false) :
    exec .invalComplete s =
      let t := s.invalidated v rest
      .next { t with dies := s.dies.map (fun x => { x with waits := x.waits.map (t.rewatch v) }) } := by
  simp only [exec, execInvalComplete, h, bitAt_toNat, all, Bool.false_eq_true, if_false]
  rfl

theorem invalCtx_eq (v : W64) : bitsOf v 63 52 = v.toNat / 2 ^ 52 := by
  have := v.isLt
  show v.toNat / 2 ^ 52 % 2 ^ 12 = v.toNat / 2 ^ 52
  omega

theorem invalHits_all {v : W64} (all : v.getLsbD 51 = true) (e : Nat × Nat × Nat) : invalHits v e = decide (e.1 = v.toNat / 2 ^ 52) := by
  simp only [invalHits, invalCtx_eq, bitAt_toNat, all, Bool.true_or, Bool.and_true]

/-- Bits 51:48 that are 0: an invalidation of one page of 4 KiB. -/
theorem invalHits_page {v : W64} (code : v.toNat / 2 ^ 48 % 16 = 0) (e : Nat × Nat × Nat) :
    invalHits v e = (decide (e.1 = v.toNat / 2 ^ 52) && decide (e.2.1 = v.toNat / 2 ^ 12 % 2 ^ 36)) := by
  have all : bitAt v.toNat 51 = false := by
    simp only [bitAt, decide_eq_false_iff_not]
    omega
  have size : bitsOf v 50 48 = 0 := by
    show v.toNat / 2 ^ 48 % 2 ^ 3 = 0
    omega
  have page (n : Nat) : n * 4096 / 2 ^ invalBits 0 = n := Nat.mul_div_cancel n (by decide)
  simp only [invalHits, invalCtx_eq, all, size, page, Bool.false_or]
  rfl

theorem all_of_page {v : W64} (code : v.toNat / 2 ^ 48 % 16 = 0) : v.getLsbD 51 = false := by
  rw [← bitAt_toNat]
  simp only [bitAt, decide_eq_false_iff_not]
  omega

theorem exec_invalComplete_allNoTable {s : State} {v : W64} {rest : List W64} (h : s.invs = v :: rest) (all : v.getLsbD 51 = true)
    (h1 : (s.ctx (v.toNat / 2 ^ 52)).w[1] = 0) : After (exec .invalComplete s) (fun t =>
      t.invs = rest ∧ t.invseq = s.invseq + 1 ∧ (∀ e ∈ t.tlb, e ∈ s.tlb ∧ e.1 ≠ v.toNat / 2 ^ 52) ∧
      (∀ e ∈ s.tlb, e.1 ≠ v.toNat / 2 ^ 52 → e ∈ t.tlb)) := by
  rw [exec_invalComplete_all h all, invalCtx_eq, setRanges_of_noTable _ _ h1]
  refine ⟨_, rfl, rfl, rfl, fun e he => ?_, fun e he hn => ?_⟩
  · simpa [State.invalidated, invalHits_all all] using he
  · simpa [State.invalidated, invalHits_all all] using ⟨he, hn⟩

/-! ### Translation without the cache (R339, R341) -/

/-- A translation that looks at the range entries and the tables alone. -/
def State.xlateTables (s : State) (ctx va : Nat) (acc : Acc) : Except XFault (Nat × Nat) :=
  if va / 2 ^ 47 != 0 && va / 2 ^ 47 != 2 ^ 17 - 1 then .error .nonCanon
  else match rangeHit s.member (va % 2 ^ 48) (s.ctx ctx).badRanges (s.ctx ctx).ranges with
    | some (.ok leaf) => leafPa s (va % 2 ^ 48) acc leaf
    | some (.error e) => .error e
    | none =>
      match s.walkFrom s.member (s.ctx ctx) (va % 2 ^ 48) with
      | .ok leaf => leafPa s (va % 2 ^ 48) acc leaf
      | .error x => .error x

/-- Where no stale leaf is chosen, a translation is the tables'. -/
theorem xlate_eq_tables {s : State} (fresh : Config.choice s.fresh = false) (ctx va : Nat) (acc : Acc) :
    s.xlate ctx va acc = s.xlateTables ctx va acc := by
  unfold State.xlate State.xlateTables
  dsimp only
  split
  · rfl
  cases rangeHit s.member (va % 2 ^ 48) (s.ctx ctx).badRanges (s.ctx ctx).ranges with
  | some r => cases r <;> rfl
  | none =>
    dsimp only
    cases s.tlb.find? _ <;> cases s.walkFrom s.member (s.ctx ctx) (va % 2 ^ 48) <;> simp [fresh]

/-- Where no stale leaf is chosen, an invalidation leaves every place as it was. -/
theorem places_invalidated {s : State} (fresh : Config.choice s.fresh = false) (v : W64) (rest : List W64) (ctx va n : Nat) (acc : Acc) :
    (s.invalidated v rest).places ctx va n acc = s.places ctx va n acc := by
  have xlate (va : Nat) : (s.invalidated v rest).xlate ctx va acc = s.xlate ctx va acc := by
    rw [xlate_eq_tables fresh, xlate_eq_tables (s := s.invalidated v rest) fresh]
    rfl
  unfold State.places
  generalize none = cur
  induction n generalizing va cur with
  | zero => rfl
  | succ n ih => simp only [State.placesAux, ih, xlate]

/-- A waiter after the invalidation of a page. -/
theorem rewatch_page {v : W64} (code : v.toNat / 2 ^ 48 % 16 = 0) (t : State) (j : Job) : t.rewatch v j =
    if j.watch = [] ∨ j.cmd.ctx ≠ v.toNat / 2 ^ 52 ∨ j.cmd.cmd.toNat / 2 ^ 12 % 2 ^ 36 ≠ v.toNat / 2 ^ 12 % 2 ^ 36 then j
    else { j with watch := (match t.places j.cmd.ctx j.cmd.cmd.toNat j.watch.length .rd with
      | .ok pl => pl
      | .error _ => []) } := by
  have page : j.cmd.cmd.toNat % 2 ^ 48 / 4096 = j.cmd.cmd.toNat / 2 ^ 12 % 2 ^ 36 := by omega
  have cond : (j.watch = [] || !invalHits v (j.cmd.ctx, j.cmd.cmd.toNat % 2 ^ 48 / 4096, 0)) = true ↔
      j.watch = [] ∨ j.cmd.ctx ≠ v.toNat / 2 ^ 52 ∨ j.cmd.cmd.toNat / 2 ^ 12 % 2 ^ 36 ≠ v.toNat / 2 ^ 12 % 2 ^ 36 := by
    rw [invalHits_page code, page]
    simp only [Bool.or_eq_true, Bool.not_and, Bool.not_eq_true', decide_eq_true_eq, decide_eq_false_iff_not]
  unfold State.rewatch
  simp only [cond]
  split
  · rfl
  · cases t.places j.cmd.ctx j.cmd.cmd.toNat j.watch.length .rd <;> rfl

/-- The end of an invalidation of one page: its entries are gone, and each waiter watches what places its word has then. -/
theorem invalComplete_page_after {s : State} {v : W64} {rest : List W64} (h : s.invs = v :: rest) (code : v.toNat / 2 ^ 48 % 16 = 0) :
    After (exec .invalComplete s) (fun t =>
      { t with dies := s.dies } = { s with
        invs := rest
        invseq := s.invseq + 1
        tlb := s.tlb.filter (fun e => !(e.1 = v.toNat / 2 ^ 52 && e.2.1 = v.toNat / 2 ^ 12 % 2 ^ 36)) } ∧
      ∀ d : Fin 4, t.dies[d] = { s.dies[d] with waits := s.dies[d].waits.map ((s.invalidated v rest).rewatch v) }) := by
  rw [exec_invalComplete_page h (all_of_page code)]
  refine ⟨_, rfl, ?_, fun d => ?_⟩
  · dsimp only [State.invalidated]
    simp only [invalHits_page code]
  · exact Vector.getElem_map _ d.isLt

/-! ### FRPTR (R345) -/

/-- The value FRPTR takes: it does not pass FWPTR (R345, log 87). -/
def State.frptrTaken (s : State) : W64 := if s.fwptr.toNat < s.bus.v.toNat then s.fwptr else s.bus.v

/-- A fault that a write of FRPTR resolves, or that never had a record. -/
def faultResolved (v : W64) (i : Nat) : Bool := decide (i < v.toNat) || decide (2 ^ 64 ≤ i)

theorem not_faultResolved {v : W64} {i : Nat} : faultResolved v i = false ↔ v.toNat ≤ i ∧ i < 2 ^ 64 := by
  simp [faultResolved]

/-- A write of FRPTR where every fault has its record and no demand unit waits for one that is resolved. -/
theorem exec_frptrWrite {s : State} (recorded : ∀ f ∈ s.faults, f.inBuf = true)
    (waiting : ∀ h < s.pens.length, ∀ i, (s.pen h).du.parked = some i → faultResolved s.frptrTaken i = false) :
    exec .frptrWrite s = s.driver (({ s with
      frptr := s.frptrTaken,
      faults := s.faults.filter (fun f => f.inBuf && !faultResolved s.frptrTaken f.idx) } : State).unpark
        (faultResolved s.frptrTaken)) := by
  have lost : s.faults.filter (fun f => !f.inBuf) = [] := by simpa using recorded
  have freed : (List.range s.pens.length).filter (fun h => (s.pen h).du.parked.any (faultResolved s.frptrTaken)) = [] := by
    simpa [Option.any_eq_true] using waiting
  have unfolded : exec .frptrWrite s = s.driver (((List.range s.pens.length).filter
      (fun h => (s.pen h).du.parked.any (faultResolved s.frptrTaken))).foldl (fun s h => s.retryBoundary h)
      ((({ s with frptr := s.frptrTaken,
                  faults := s.faults.filter (fun f => f.inBuf && !faultResolved s.frptrTaken f.idx) } : State).storeLost
        (s.faults.filter (fun f => !f.inBuf))).unpark (faultResolved s.frptrTaken))) := rfl
  rw [unfolded, lost, freed]
  rfl

theorem frptrWrite_after {s : State} (on : s.offline = false) (recorded : ∀ f ∈ s.faults, f.inBuf = true)
    (waiting : ∀ h < s.pens.length, ∀ i, (s.pen h).du.parked = some i → s.bus.v.toNat ≤ i ∧ i < 2 ^ 64) :
    After (exec .frptrWrite s) (fun t =>
      t.frptr = (if s.fwptr.toNat < s.bus.v.toNat then s.fwptr else s.bus.v) ∧ t.fwptr = s.fwptr ∧ t.mem = s.mem ∧
      (∀ f, f ∈ t.faults ↔ f ∈ s.faults ∧ t.frptr.toNat ≤ f.idx ∧ f.idx < 2 ^ 64) ∧
      (∀ e ∈ t.entries, ∀ i, e.parked = some i → t.frptr.toNat ≤ i ∧ i < 2 ^ 64)) := by
  have below : s.frptrTaken.toNat ≤ s.bus.v.toNat := by
    unfold State.frptrTaken
    split <;> omega
  rw [exec_frptrWrite recorded fun h hh i hi => ?_]
  · refine after_driver on ⟨rfl, rfl, rfl, fun f => ?_, fun e he i hi => ?_⟩
    · show f ∈ s.faults.filter (fun f => f.inBuf && !faultResolved s.frptrTaken f.idx) ↔
        f ∈ s.faults ∧ s.frptrTaken.toNat ≤ f.idx ∧ f.idx < 2 ^ 64
      rw [List.mem_filter, Bool.and_eq_true, Bool.not_eq_true', not_faultResolved]
      exact ⟨fun ⟨hf, _, hi⟩ => ⟨hf, hi⟩, fun ⟨hf, hi⟩ => ⟨hf, recorded f hf, hi⟩⟩
    · obtain ⟨old, _, rfl⟩ := List.mem_map.mp he
      obtain ⟨_, hr⟩ := Option.filter_eq_some_iff.mp hi
      exact (not_faultResolved (v := s.frptrTaken)).mp (by simpa using hr)
  · obtain ⟨hv, hi⟩ := waiting h hh i hi
    exact not_faultResolved.mpr ⟨by omega, hi⟩

/-! ### Device registers (R255, R316, R342, R354, R361, R365) -/

theorem bitsOf_zero (v : W64) (hi : Nat) : bitsOf v hi 0 = v.toNat % 2 ^ (hi + 1) := by
  show v.toNat / 2 ^ 0 % 2 ^ (hi + 1) = v.toNat % 2 ^ (hi + 1)
  rw [Nat.pow_zero, Nat.div_one]

theorem clipped_eq (lo hi x : Nat) (h : lo ≤ hi) : Nat.max lo (Nat.min hi x) = clipped lo hi x := by
  unfold clipped
  split
  · grind
  · grind

/-- The state in which a write of a device register leaves the device (log 30). -/
def State.registerWritten (s : State) : State :=
  match s.bus.a with
  | 0 => { s with fbase := s.bus.v }
  | 1 => s.modDie (s.bus.b % 4) (fun x => { x with
      sprctl := x.sprctl.setIfInBounds s.bus.c (BitVec.ofNat 64 (clipped 4 64 (s.bus.v.toNat % 128))) })
  | 2 => s.modDie (s.bus.b % 4) (fun x => { x with devc := x.devc.setIfInBounds s.bus.c s.bus.v })
  | 3 => s.modDie (s.bus.b % 4) (fun x => { x with devs := x.devs.setIfInBounds s.bus.c (s.bus.v &&& 0x80FF) })
  | 4 => { s with svc := { s.svc with
      plim := clipped 600 3000 (s.bus.v.toNat / 2 ^ 48), tthr := clipped 70 105 (s.bus.v.toNat / 2 ^ 40 % 256),
      floor := clipped 0 5 (s.bus.v.toNat % 8) } }
  | 5 => s.modDie (s.bus.b % 4) (fun x => { x with errs := x.errs &&& ~~~s.bus.v })
  | 6 => { s with svc := { s.svc with
      expwin := s.svc.expwin.setIfInBounds (3 * (s.bus.b % 16) + s.bus.c % 3)
        (s.bus.v &&& (if s.bus.c % 3 = 2 then 0xC00000000000FFFF else 0x000000FFFFFFF000)) } }
  | _ => s

theorem registerWritten_other {s : State} (h : 7 ≤ s.bus.a) : s.registerWritten = s := by
  unfold State.registerWritten
  split
  case h_8 => rfl
  all_goals omega

theorem plimWrite_eq (s : State) (v : W64) : s.plimWrite v = { s with svc := { s.svc with
    plim := clipped 600 3000 (v.toNat / 2 ^ 48), tthr := clipped 70 105 (v.toNat / 2 ^ 40 % 256),
    floor := clipped 0 5 (v.toNat % 8) } } := by
  have top : bitsOf v 63 48 = v.toNat / 2 ^ 48 := by
    have := v.isLt
    show v.toNat / 2 ^ 48 % 2 ^ 16 = v.toNat / 2 ^ 48
    omega
  have low : Nat.min 5 (bitsOf v 2 0) = clipped 0 5 (v.toNat % 8) := by
    rw [bitsOf_zero, ← clipped_eq 0 5 _ (by decide)]
    exact (Nat.zero_max _).symm
  unfold State.plimWrite
  dsimp only
  rw [clipped_eq 600 3000 _ (by decide), clipped_eq 70 105 _ (by decide), top, low]
  rfl

theorem exec_registerWrite (s : State) : exec .registerWrite s = s.driver s.registerWritten := by
  have sprctl : Nat.max 4 (Nat.min 64 (bitsOf s.bus.v 6 0)) = clipped 4 64 (s.bus.v.toNat % 128) := by
    rw [clipped_eq 4 64 _ (by decide), bitsOf_zero]
    rfl
  simp only [exec, execRegisterWrite, State.registerWritten, sprctl, plimWrite_eq, rw1c] <;> rfl

end Sys2Proof.Machine
end

section
/-! PROOFS. What `RegisterWrites` comes to: all its clauses but one, and what that one says of a stale leaf (R341, log 4). -/

namespace Sys2Proof.Machine

open Sys2Proof

/-! ### A waiter on a page whose leaf is stale -/

/-- A waiter of context 0 on the word at 0, watching a place of before. -/
def staleWaiter : Job := { cmd := { id := 0 }, watch := [(1, 1)] }

/-- A state whose translation cache holds a readable leaf for page 0 of context 0 that its tables do not, with the waiter on die 0. -/
def staleState (n : Nat) : State :=
  { invs := [0], fresh := n, tlb := [(0, 0, 4)], dies := (Vector.replicate 4 {}).set 0 { waits := [staleWaiter] } }

/-- A root table that was never written maps nothing. -/
theorem walk_unwritten (pick : Nat) : walk [] [] 0 0 pick 4 0 = .error (.notValid 4) := by
  unfold walk
  dsimp only
  rw [if_neg (by decide), if_pos (by decide)]


theorem walkFrom_unwritten {s : State} {c : Ctx} (hm : s.mem = []) (hp : s.poison = []) (ho : s.member = 0) (hc : c.w[0] = 0) :
    s.walkFrom s.member c 0 = .error (.notValid 4) := by
  unfold State.walkFrom
  rw [hm, hp, ho, hc]
  dsimp only
  rw [if_neg (by decide)]
  exact walk_unwritten _

/-- A cached leaf of page 0 may be used where the tables fault (R341, log 4). -/
theorem xlate_cached {s : State} {ctx : Nat} {acc : Acc} {e : Nat × Nat × Nat} {x : XFault} (noRange : (s.ctx ctx).ranges = [])
    (hit : s.tlb.find? (fun e => e.1 = ctx && e.2.1 = 0) = some e)
    (fault : s.walkFrom s.member (s.ctx ctx) 0 = .error x) (chosen : Config.choice s.fresh = true) :
    s.xlate ctx 0 acc = leafPa s 0 acc e.2.2 := by
  unfold State.xlate
  simp only [Nat.zero_mod, Nat.zero_div, noRange, rangeHit, hit, fault, chosen, if_true]
  rfl

theorem xlate_uncached {s : State} {ctx : Nat} {acc : Acc} {x : XFault} (noRange : (s.ctx ctx).ranges = [])
    (miss : s.tlb.find? (fun e => e.1 = ctx && e.2.1 = 0) = none)
    (fault : s.walkFrom s.member (s.ctx ctx) 0 = .error x) : s.xlate ctx 0 acc = .error x := by
  unfold State.xlate
  simp only [Nat.zero_mod, Nat.zero_div, noRange, rangeHit, miss, fault]
  rfl

theorem leafPa_readable (s : State) : leafPa s 0 .rd 4 = .ok (0, 4) := by
  simp [leafPa, bitAt]

/-- The state's tables map nothing, whatever its cache holds. -/
theorem walkFrom_stale (n : Nat) : (staleState n).walkFrom (staleState n).member ((staleState n).ctx 0) 0 = .error (.notValid 4) :=
  walkFrom_unwritten rfl rfl (by show (staleState 0).member = 0; decide) rfl

theorem tlb_stale_invalidated (n : Nat) : ((staleState n).invalidated 0 []).tlb = [] := by
  show [((0 : Nat), (0 : Nat), (4 : Nat))].filter (fun e => !invalHits 0 e) = []
  rw [List.filter_cons, invalHits_page (by decide)]
  rfl

/-- With the stale leaf the page has a place. -/
theorem places_stale {n : Nat} (chosen : Config.choice n = true) : (staleState n).places 0 0 1 .rd = .ok [(0, 4)] := by
  have xlate : (staleState n).xlate 0 0 .rd = .ok (0, 4) :=
    (xlate_cached (e := (0, 0, 4)) rfl rfl (walkFrom_stale n) chosen).trans (leafPa_readable _)
  simp only [State.places, State.placesAux, xlate]

/-- Once the leaf is gone, it has none. -/
theorem places_stale_invalidated (n : Nat) : ((staleState n).invalidated 0 []).places 0 0 1 .rd = .error (.notValid 4) := by
  have xlate : ((staleState n).invalidated 0 []).xlate 0 0 .rd = .error (.notValid 4) :=
    xlate_uncached rfl (by rw [tlb_stale_invalidated]; rfl) (walkFrom_stale n)
  simp only [State.places, State.placesAux, xlate]

/-- What the invalidation leaves of the waiter: it watches no place any more (R341). -/
theorem rewatch_stale (n : Nat) : ((staleState n).invalidated 0 []).rewatch 0 staleWaiter = { staleWaiter with watch := [] } := by
  rw [rewatch_page (by decide), if_neg (by decide)]
  show { staleWaiter with watch := (match ((staleState n).invalidated 0 []).places 0 0 1 .rd with | .ok pl => pl | .error _ => []) } = _
  rw [places_stale_invalidated]

theorem choice_of_registerWrites (h : Obligations.RegisterWrites) (n : Nat) : Config.choice n = false := by
  by_contra chosen
  rw [Bool.not_eq_false] at chosen
  obtain ⟨-, -, -, -, -, -, -, -, page, -⟩ := h (staleState n)
  obtain ⟨t, step, -, stated⟩ := page 0 [] rfl rfl
  obtain ⟨t', step', -, model⟩ := invalComplete_page_after (s := staleState n) (v := 0) (rest := []) rfl rfl
  obtain rfl : t' = t := Host.Outcome.next.inj (step'.symm.trans step)
  have waiter : (staleState n).dies[(0 : Fin 4)].waits = [staleWaiter] := rfl
  have waits := congrArg Die.waits ((model 0).symm.trans (stated 0))
  dsimp only at waits
  rw [waiter, List.map_singleton, List.map_singleton, rewatch_stale, if_neg (by decide)] at waits
  have watched : [] = (match (staleState n).places 0 0 1 .rd with | .ok pl => pl | .error _ => []) :=
    congrArg Job.watch (List.singleton_inj.mp waits)
  rw [places_stale chosen] at watched
  exact absurd watched (by decide)

/-! ### The clauses of `RegisterWrites` -/

/-- Where the driver is not heard, none of its writes has an effect (R358, R368). -/
theorem exec_offline {s : State} (off : s.offline = true) : ∀ i ∈ [Instr.qtailWrite, .queueDescWrite, .contextWrite, .bpctlWrite,
    .keyInstall, .hbaseWrite, .podcfgWrite, .inval, .frptrWrite, .registerWrite], After (exec i s) (fun t => t = s) := by
  simp only [List.forall_mem_cons, List.not_mem_nil, false_imp_iff, implies_true, and_true]
  have unheard (t : State) : After (s.driver t) (fun t => t = s) := ⟨s, driver_offline off t, rfl⟩
  refine ⟨unheard _, ?_, ?_, unheard _, ?_, unheard _, ?_, unheard _, unheard _, unheard _⟩
  · simp only [exec, execQueueDescWrite]
    split <;> exact unheard _
  · simp only [exec, execContextWrite]
    repeat' split
    all_goals exact unheard _
  · simp only [exec, execKeyInstall, off, Bool.true_or, if_true]
    exact ⟨s, rfl, rfl⟩
  · simp only [exec, execPodcfgWrite, off, Bool.true_or, if_true]
    exact ⟨s, rfl, rfl⟩

theorem waits_page {s : State} {v : W64} {rest : List W64} (fresh : Config.choice s.fresh = false)
    (code : v.toNat / 2 ^ 48 % 16 = 0) (js : List Job) : js.map ((s.invalidated v rest).rewatch v) = js.map (fun j =>
      if j.watch = [] ∨ j.cmd.ctx ≠ v.toNat / 2 ^ 52 ∨ j.cmd.cmd.toNat / 2 ^ 12 % 2 ^ 36 ≠ v.toNat / 2 ^ 12 % 2 ^ 36 then j
      else { j with watch := (match s.places j.cmd.ctx j.cmd.cmd.toNat j.watch.length .rd with
        | .ok pl => pl
        | .error _ => []) }) := by
  refine List.map_congr_left fun j _ => ?_
  rw [rewatch_page code, places_invalidated fresh] <;> rfl

/-- EVQ and CAREA take every bit. -/
theorem ctxMask_whole {i : Nat} (hi : i = 3 ∨ i = 4) : ctxMask i = BitVec.allOnes 64 := by
  obtain rfl | rfl := hi <;> rfl

theorem not_mayEnable_of_r348 {s : State} {n : Nat} {c : Ctx} {v : W64} (no : s.svc.boot < 8 ∨ c.quar = true ∨
    v.getLsbD 62 = true ∧ (Tab.find s.keys (v.toNat / 2 ^ 55 % 64) = none ∨ ∃ x ∈ s.quarSlots, x.2 = v.toNat / 2 ^ 55 % 64)) :
    s.mayEnable n (c.withWord2 v) = false := by
  obtain boot | quar | ⟨prot, slot⟩ := no
  · exact not_mayEnable_of_boot n _ boot
  · exact not_mayEnable_of_quar s n quar
  · rw [← slotQuar_iff, ← withWord2_kslot c v] at slot
    exact not_mayEnable_of_slot n (by rwa [withWord2_prot]) slot

theorem registerWrites_of_choice (fresh : ∀ n, Config.choice n = false) : Obligations.RegisterWrites := by
  unfold Obligations.RegisterWrites
  intro s
  dsimp only
  simp only [← offline_iff, Bool.not_eq_true]
  refine ⟨exec_offline, fun on => ⟨exec_qtailWrite_good on, exec_qtailWrite_bad on, fun hb en => ?_, fun hb en => ?_, fun hb en => ?_,
      fun hb => ?_, exec_queueDescWrite_on on, exec_queueDescWrite_noCtx on, exec_queueDescWrite_enables on⟩,
    fun on => ⟨fun en h2 h3 h4 => ?_, fun en hi => ?_, exec_contextWrite_pol on rfl rfl, exec_contextWrite_off on rfl rfl,
      fun en hi hv no => ?_, fun en hi hv boot quar scrubbed hp h1 => ?_, fun en hi hv hs hq => ?_, after_driver on rfl⟩,
    fun on => ⟨fun used => ⟨s, exec_keyInstall_used used, rfl⟩, fun free => ⟨_, exec_keyInstall_free on free, rfl⟩⟩,
    fun on => ⟨fun some => ⟨?_, ?_⟩, fun none => ⟨?_, ?_⟩⟩, fun on => after_driver on rfl, fun none => ?_,
    fun v rest h all => exec_invalComplete_allNoTable h all, fun v rest h code => ?_, frptrWrite_after, fun on => ?_⟩
  · rw [exec_queueDescWrite_other hb, queue_en, if_pos en]
    exact after_driver on rfl
  · rw [exec_queueDescWrite_other (by omega), queue_en, en, if_neg Bool.false_ne_true, if_pos hb]
    exact after_driver on rfl
  · rw [exec_queueDescWrite_other (by omega), queue_en, en, if_neg Bool.false_ne_true, if_neg (by omega), if_pos hb]
    exact after_driver on rfl
  · exact exec_queueDescWrite_after on hb (P := fun y => y.clock = s.time) rfl
  · rw [exec_contextWrite_on (by rwa [ctx_en]), if_neg h2, if_neg (by omega)]
    exact after_driver on rfl
  · rw [exec_contextWrite_on (by rwa [ctx_en]), if_neg (by omega), if_pos hi]
    refine after_driver on ?_
    rw [ctxMask_whole hi, BitVec.and_allOnes]
  · exact exec_contextWrite_refused on rfl rfl en hi hv (not_mayEnable_of_r348 no)
  · exact exec_contextWrite_enabled on rfl rfl en hi hv (mayEnable_of_open _ boot on quar scrubbed (by rwa [withWord2_prot])) hp h1
  · exact exec_contextWrite_refused on rfl rfl en hi hv (not_mayEnable_of_scrub _ _ hs hq)
  · rw [exec_hbaseWrite, if_pos ((someEnabled_iff s).mp some)]
    exact after_driver on rfl
  · rw [exec_podcfgWrite on, if_pos ((someEnabled_iff s).mp some)]
    exact ⟨s, rfl, rfl⟩
  · rw [exec_hbaseWrite, if_neg (mt (someEnabled_iff s).mpr none)]
    exact after_driver on rfl
  · rw [exec_podcfgWrite on, if_neg (mt (someEnabled_iff s).mpr none)]
    exact ⟨_, rfl, rfl⟩
  · simp only [exec, execInvalComplete, none]
    exact ⟨s, rfl, rfl⟩
  · obtain ⟨t, step, rest, waits⟩ := invalComplete_page_after h code
    exact ⟨t, step, rest, fun d => by rw [waits d, waits_page (fresh _) code] <;> rfl⟩
  · simp only [exec_registerWrite]
    have taken {t : State} (h : s.registerWritten = t) : After (s.driver s.registerWritten) (fun u => u = t) := after_driver on h
    refine ⟨fun h => taken ?_, fun h => taken ?_, fun h => taken ?_, fun h => taken ?_, fun h => taken ?_, fun h => taken ?_,
      fun h => taken ?_, fun h => taken (registerWritten_other h)⟩
    all_goals rw [State.registerWritten, h] <;> rfl

/-- Why neither `RegisterWrites` nor its negation is proved here. Its clause on an invalidation of one page names the places a waiter's
word had before the entries were dropped; where a stale leaf is cached, `Config.choice`, which has no body, says whether that leaf counts
(R341, log 4). Every other clause holds, and this one holds just where the choice never falls on a stale leaf. -/
theorem registerWrites_iff_choice : Obligations.RegisterWrites ↔ ∀ n, Config.choice n = false :=
  ⟨choice_of_registerWrites, registerWrites_of_choice⟩

end Sys2Proof.Machine
end

section
/-! PROOFS. A record enters stage 0 of a chain (R262, R264, R277, R281). -/

namespace Sys2Proof.Machine

open Sys2Proof

/-! ### A chain that may take a record -/

/-- Nothing has entered stage 0 yet, or the last entry is a drove cycle old (R262). -/
theorem acc_of_not_busy {s : State} {c : Chain} (free : ¬ chainBusy s c) : c.acc = none ∨ ∃ x, c.acc = some x ∧ ¬ s.time < x + 2 := by
  cases ha : c.acc with
  | none => exact .inl rfl
  | some x => exact .inr ⟨x, rfl, fun early => free ⟨x, ha, early⟩⟩

/-- A count on a die leaves the chains. -/
theorem flushAsked_countDie (s : State) (d src n : Nat) : FlushAsked s (s.countDie d src n) := flushAsked_modDie s d (fun _ => rfl)

/-- A chain whose first waiting record has entered stage 0, stamped with the current version (R264). -/
def Chain.enter (c : Chain) (now : Nat) (r : DRec) (rest : List DRec) : Chain :=
  { c with waiting := rest, recs := c.recs ++ [{ r with rc := 0, ver := c.ver.val, stage := 0, t0 := now }], acc := some now }

/-- A `dsend` is one record nearer its end, and answered with the last (R264). -/
def State.sendOne (s : State) (die ch : Nat) (m : Cmd) (n : Nat) : State :=
  if n ≤ 1 then
    (s.modChain die ch (fun c => { c with sends := c.sends.filter (fun x => x.1.id != m.id) })).answer (dvDone m (die, ch) 0 0 0 0)
  else s.modChain die ch (fun c => { c with sends := c.sends.map (fun x => if x.1.id = m.id then (x.1, x.2 - 1) else x) })

/-- The one `dsend` of a chain leaves the chain with its last record, and is answered then. -/
theorem sendOne_effect (s : State) {die ch : Nat} (hd : die < 4) (hc : ch < 4) {m : Cmd} {n : Nat} (hs : (s.chain die ch).sends = [(m, n)])
    (ho : m.o.ord = .none) : (s.sendOne die ch m n).time = s.time ∧ (s.sendOne die ch m n).cores = s.cores ∧
      (s.sendOne die ch m n).mem = s.mem ∧
      (s.sendOne die ch m n).chain die ch = { s.chain die ch with sends := if n ≤ 1 then [] else [(m, n - 1)] } ∧
      (s.sendOne die ch m n).dones = s.dones ++ (if n ≤ 1 then [{ cmd := m, eng := 3, die := die, inst := ch }] else []) := by
  unfold State.sendOne
  split
  · next last =>
    rw [answer_unordered ho _ rfl (by simp [dvDone]) rfl]
    refine ⟨modDie_time .., modChain_cores .., modChain_mem .., (chain_modChain_self s hd hc _).trans ?_, ?_⟩
    · simp [hs]
    · rw [modChain_dones]
      rfl
  · next more =>
    refine ⟨modDie_time .., modChain_cores .., modChain_mem .., (chain_modChain_self s hd hc _).trans ?_, ?_⟩
    · simp [hs]
    · rw [modChain_dones, List.append_nil]

section
variable {s : State} {die ch : Nat}

theorem droveAccept_busy (busy : chainBusy s (s.chain die ch)) : exec (.droveAccept die ch) s = .next s := by
  obtain ⟨x, ha, early⟩ := busy
  show execDroveAccept die ch s = _
  simp [execDroveAccept, ha, early, cycleBeats]

/-- While the exit buffer is full, no new record enters (R281). -/
theorem droveAccept_full {r : DRec} {rest : List DRec} (hr : (s.chain die ch).recirc = []) (hw : (s.chain die ch).waiting = r :: rest)
    (ho : ∀ x ∈ (s.chain die ch).sends, x.1.o.ord = .none) (full : 64 ≤ (s.chain die ch).exits.length) :
    exec (.droveAccept die ch) s = .next s := by
  show execDroveAccept die ch s = _
  cases found : (s.chain die ch).sends.find? (fun x => x.1.id = r.id) with
  | none => simp [execDroveAccept, hr, hw, found, full]
  | some x =>
    have plain : x.1.o.ord = .none := ho x (List.mem_of_find?_eq_some found)
    simp [execDroveAccept, hr, hw, found, full, askFlush_unordered plain]

variable (free : ¬ chainBusy s (s.chain die ch))
include free

/-- A recirculating record that is due enters before any new one (R264, R277). -/
theorem droveAccept_recirc {r : DRec} {rest : List DRec} (hr : (s.chain die ch).recirc = r :: rest) (due : r.t0 ≤ s.time) :
    exec (.droveAccept die ch) s = .next (s.modChain die ch (fun c =>
      { c with recirc := rest, recs := c.recs ++ [{ r with stage := 0, t0 := s.time }], acc := some s.time })) := by
  show execDroveAccept die ch s = _
  rcases acc_of_not_busy free with ha | ⟨x, ha, past⟩
  · simp [execDroveAccept, ha, hr, due]
  · simp [execDroveAccept, ha, hr, due, past, cycleBeats]

section
variable {r : DRec} {rest : List DRec} (hr : (s.chain die ch).recirc = []) (hw : (s.chain die ch).waiting = r :: rest)
include hr hw

/-- A record of the one `dsend` on its way enters (R264). -/
theorem droveAccept_new {m : Cmd} {n : Nat} (room : (s.chain die ch).exits.length < 64) (hs : (s.chain die ch).sends = [(m, n)])
    (hm : m.id = r.id) (ho : m.o.ord = .none) : exec (.droveAccept die ch) s =
      .next (((s.sendOne die ch m n).modChain die ch (fun c => c.enter (s.sendOne die ch m n).time r rest)).countDie die 5 1) := by
  show execDroveAccept die ch s = _
  have notFull : ¬ 64 ≤ (s.chain die ch).exits.length := Nat.not_le.2 room
  rcases acc_of_not_busy free with ha | ⟨_, ha, past⟩
  · simp [execDroveAccept, ha, hr, hw, hs, hm, notFull, askFlush_unordered ho, mayRelease_unordered ho, acq_unordered ho, rel_unordered ho,
      State.sendOne, Chain.enter]
  · simp [execDroveAccept, ha, hr, hw, hs, hm, notFull, askFlush_unordered ho, mayRelease_unordered ho, acq_unordered ho, rel_unordered ho,
      State.sendOne, Chain.enter, past, cycleBeats]

/-- It is the youngest of the chain's records, and its `dsend` has one record fewer to come (R264). -/
theorem droveAccept_new_after (hd : die < 4) (hc : ch < 4) {m : Cmd} {n : Nat} (room : (s.chain die ch).exits.length < 64)
    (hs : (s.chain die ch).sends = [(m, n)]) (hm : m.id = r.id) (ho : m.o.ord = .none) :
    After (exec (.droveAccept die ch) s) (fun t => t.cores = s.cores ∧ t.mem = s.mem ∧
      t.chain die ch = { (s.chain die ch).enter s.time r rest with sends := if n ≤ 1 then [] else [(m, n - 1)] } ∧
      t.dones = s.dones ++ (if n ≤ 1 then [{ cmd := m, eng := 3, die := die, inst := ch }] else [])) := by
  obtain ⟨time, cores, mem, chain, dones⟩ := sendOne_effect s hd hc hs ho
  have counted := flushAsked_countDie ((s.sendOne die ch m n).modChain die ch (fun c => c.enter (s.sendOne die ch m n).time r rest)) die 5 1
  refine ⟨_, droveAccept_new free hr hw room hs hm ho, counted.cores.trans ((modChain_cores _ _).trans cores),
    counted.mem.trans ((modChain_mem _ _).trans mem), ?_, counted.dones.trans ((modChain_dones _ _).trans dones)⟩
  rw [counted.chain, chain_modChain_self _ hd hc, chain, time]
  rfl

end

end

end Sys2Proof.Machine
end

section
/-! PROOFS. A record passes a stage that looks nothing up (R262, R265 to R269). -/

namespace Sys2Proof.Machine

open Sys2Proof

/-! ### Which record a stage takes -/

/-- Has a record reached a stage, as the stage asks? -/
theorem reached_iff (s : State) (n : Nat) (r : DRec) :
    (r.stage = n && r.t0 + 2 * cycleBeats * n ≤ s.time : Bool) = true ↔ reached s n r := by
  rw [Bool.and_eq_true, decide_eq_true_iff, decide_eq_true_iff]
  rfl

/-- The index of a list's first element with a property. -/
theorem findIdx?_append_cons {α : Type} {p : α → Bool} {pre post : List α} {x : α} (before : ∀ y ∈ pre, ¬ p y = true) (hx : p x = true) :
    (pre ++ x :: post).findIdx? p = some pre.length := by
  have none_ : pre.findIdx? p = none := List.findIdx?_eq_none_iff.2 fun y hy => by simpa using before y hy
  simp [List.findIdx?_append, none_, List.findIdx?_cons, hx]

/-! ### The action of a stage of kind 0 (R265 to R269) -/

theorem satAdd_zero (c : BitVec 32) : satAdd c 0 = c := by
  have small : Nat.min (c.toNat + 0) (2 ^ 32 - 1) = c.toNat := Nat.min_eq_left (by omega)
  rw [satAdd, small, BitVec.ofNat_toNat, BitVec.setWidth_eq]

/-- A stage of kind 0 runs its miss action on every record, and counts no miss. -/
theorem run_pass {st : DStage} {r t : DRec} (pass : skind (cfgOf st r) = 0)
    (acts : ({ r with stage := r.stage + 1 } : DRec).act (imgBits (cfgOf st r) 191 128) r.stage (actOf (cfgOf st r)) = (t, 0)) :
    st.run r = (t, st, false) := by
  have version : cfgOf st r = st.cfg[if r.ver = 0 then (0 : Fin 2) else 1] := by
    unfold cfgOf
    split <;> rfl
  rw [version, Fin.getElem_fin] at pass acts
  have misses (key : Nat) : st.look (if r.ver = 0 then 0 else 1) key = none := by
    simp [DStage.look, pass]
  simp [DStage.run, misses, acts, pass, satAdd_zero]

/-- A configuration that holds a first primitive alone is of kind 0, and its other primitives are NOP. -/
theorem first_prim {p : Nat} (hp : p < 2 ^ 24) :
    skind (BitVec.ofNat 512 (p * 2 ^ 104)) = 0 ∧ actOf (BitVec.ofNat 512 (p * 2 ^ 104)) = [p, 0, 0, 0] := by
  have whole : (BitVec.ofNat 512 (p * 2 ^ 104)).toNat = p * 2 ^ 104 := by
    rw [BitVec.toNat_ofNat, Nat.mod_eq_of_lt (by omega)]
  simp only [skind, actOf, imgBits, natBits, whole]
  refine ⟨by omega, ?_⟩
  simp only [List.cons.injEq, and_true]
  omega

/-- The primitive of all zeros is NOP. -/
theorem prim_nop (r : DRec) (data stage : Nat) : r.prim 0 data stage = (r, 0) := rfl

/-- The primitive that adds field `x` to field `d`. -/
def addPrim (d x : Fin 16) : Nat := 3 * 2 ^ 19 + d.val * 2 ^ 15 + x.val * 2 ^ 11

theorem prim_add (r : DRec) (d x : Fin 16) (data stage : Nat) :
    r.prim (addPrim d x) data stage = ({ r with f := r.f.set d.val (r.f.getD d.val 0 + r.f.getD x.val 0) }, 0) := by
  have opc : natBits (addPrim d x) 23 19 = 3 := by simp only [natBits, addPrim]; omega
  have df : natBits (addPrim d x) 18 15 = d.val := by simp only [natBits, addPrim]; omega
  have sf : natBits (addPrim d x) 14 11 = x.val := by simp only [natBits, addPrim]; omega
  simp [DRec.prim, opc, df, sf, DRec.set, DRec.fld, Nat.mod_eq_of_lt d.isLt, Nat.mod_eq_of_lt x.isLt]

theorem act_nop (r : DRec) (data stage : Nat) : r.act data stage [0, 0, 0, 0] = (r, 0) := by
  simp [DRec.act, prim_nop]

theorem act_add (r : DRec) (d x : Fin 16) (data stage : Nat) : r.act data stage [addPrim d x, 0, 0, 0] =
    ({ r with f := r.f.set d.val (r.f.getD d.val 0 + r.f.getD x.val 0) }, 0) := by
  simp [DRec.act, prim_add, prim_nop]

/-! ### The step -/

section
variable {s : State} {die ch n : Nat}

/-- No record has reached the stage. -/
theorem droveStage_idle (none_ : ∀ x ∈ (s.chain die ch).recs, ¬ reached s n x) : exec (.droveStage die ch n) s = .next s := by
  show execDroveStage die ch n s = _
  have out := List.findIdx?_eq_none_iff.2 fun x hx => by
    simpa only [Bool.not_eq_true] using mt (reached_iff s n x).1 (none_ x hx)
  simp only [execDroveStage, out]

section
variable (hd : die < 4) (hc : ch < 4) (hn : n < 12) {pre post : List DRec} {r : DRec} (hr : (s.chain die ch).recs = pre ++ r :: post)
  (before : ∀ x ∈ pre, ¬ reached s n x) (here : reached s n r)
include hd hc hn hr before here

/-- The oldest record that has reached a stage passes it: here with its STAT as it was, and nothing counted. -/
theorem droveStage_passes {t : DRec} (run : ((s.chain die ch).stage n).run r = (t, (s.chain die ch).stage n, false))
    (stat : t.stat = r.stat) : After (exec (.droveStage die ch n) s) (fun u => u.cores = s.cores ∧ u.mem = s.mem ∧
      u.chain die ch = { s.chain die ch with recs := pre ++ t :: post }) := by
  have first := findIdx?_append_cons (post := post) (fun x hx => mt (reached_iff s n x).1 (before x hx)) ((reached_iff s n r).2 here)
  have step : exec (.droveStage die ch n) s = .next (s.modChain die ch (fun c =>
      { c.modStage n (fun _ => (s.chain die ch).stage n) with recs := c.recs.set pre.length t })) := by
    show execDroveStage die ch n s = _
    simp [execDroveStage, hr, first, Nat.not_le.2 hn, run, stat]
  have same : (s.chain die ch).modStage n (fun _ => (s.chain die ch).stage n) = s.chain die ch := by
    simp [Chain.modStage, Chain.stage, hn]
  refine ⟨_, step, modChain_cores _ _, modChain_mem _ _, ?_⟩
  rw [chain_modChain_self s hd hc, same, hr, List.set_append_right _ _ (Nat.le_refl _), Nat.sub_self, List.set_cons_zero]

/-- Under a miss action that holds one primitive alone, it leaves as that primitive makes it. -/
theorem droveStage_one_prim {p : Nat} (hp : p < 2 ^ 24) (hcfg : cfgOf ((s.chain die ch).stage n) r = BitVec.ofNat 512 (p * 2 ^ 104))
    {t : DRec} (acts : ∀ data, ({ r with stage := n + 1 } : DRec).act data n [p, 0, 0, 0] = (t, 0)) (stat : t.stat = r.stat) :
    After (exec (.droveStage die ch n) s) (fun u => u.cores = s.cores ∧ u.mem = s.mem ∧
      u.chain die ch = { s.chain die ch with recs := pre ++ t :: post }) := by
  obtain ⟨pass, prims⟩ := first_prim hp
  have at_ : r.stage = n := here.1
  refine droveStage_passes hd hc hn hr before here (run_pass (hcfg ▸ pass) ?_) stat
  rw [at_, hcfg, prims, acts]

end

end

end Sys2Proof.Machine
end

section
/-! PROOFS. The tokens of a record for a pen, and how they come into its port (R263, R273). -/

namespace Sys2Proof.Machine

open Sys2Proof

/-! ### Elements of a raw token -/

/-- A field of packed lanes, of a word that holds them all. -/
theorem packLanes_lane (xs : List (BitVec 32)) {i : Nat} (hi : i < 8) :
    packLanes 32 (xs.map BitVec.toNat) % 2 ^ 256 / 2 ^ (32 * i) % 2 ^ 32 = (xs.map BitVec.toNat).getD i 0 := by
  have small : (xs.map BitVec.toNat).getD i 0 < 2 ^ 32 := by
    rw [List.getD_eq_getElem?_getD, List.getElem?_map]
    cases xs[i]? with
    | none => exact Nat.two_pow_pos 32
    | some x => exact x.isLt
  refine Nat.eq_of_testBit_eq fun j => ?_
  rw [Nat.testBit_mod_two_pow, Nat.testBit_div_two_pow, Nat.testBit_mod_two_pow]
  by_cases hj : j < 32
  · have lane : (j + 32 * i) / 32 = i := by omega
    have bit : (j + 32 * i) % 32 = j := by omega
    have inside : j + 32 * i < 256 := by omega
    rw [packLanes_testBit (by decide), lane, bit, decide_eq_true hj, decide_eq_true inside, Bool.true_and, Bool.true_and]
  · rw [decide_eq_false hj, Bool.false_and, Nat.testBit_lt_two_pow (small.trans_le (Nat.pow_le_pow_right (by decide) (Nat.not_lt.1 hj)))]

/-- A raw token has the elements it is made of. -/
theorem rawToken_rawTok {els : List (BitVec 32)} {ws : List Nat} (h : els.map BitVec.toNat = ws) (pred : BitVec 32) :
    RawToken ws pred (rawTok els pred) := by
  subst h
  refine ⟨rfl, rfl, fun i hi => ?_⟩
  rw [rawTok, BitVec.toNat_ofNat]
  exact packLanes_lane els hi

/-! ### The tokens of a record (R273) -/

/-- The header as a number (R263). -/
theorem hdr_toNat (r : DRec) : r.hdr.toNat =
    r.tag.toNat * 2 ^ 48 + r.dest.toNat * 2 ^ 36 + r.stat.toNat * 2 ^ 28 + r.rc % 4 * 2 ^ 26 + r.ver % 2 * 2 ^ 25 := by
  rw [DRec.hdr, BitVec.toNat_ofNat, Nat.mod_eq_of_lt (by omega)]

/-- The words of a record are its header's halves and its fields. -/
theorem recordWords_eq (r : DRec) : recordWords r = [r.hdr.truncate 32, (r.hdr >>> 32).truncate 32].map BitVec.toNat ++ r.f.map BitVec.toNat := by
  have high : r.hdr.toNat / 2 ^ 32 < 2 ^ 32 := by omega
  simp only [recordWords, ← hdr_toNat, List.map_cons, List.map_nil, BitVec.truncate_eq_setWidth, BitVec.toNat_setWidth,
    BitVec.toNat_ushiftRight, Nat.shiftRight_eq_div_pow, Nat.mod_eq_of_lt high]

/-- The tokens of a record hold its words in order, eight and eight and two. -/
theorem tokens_raw (r : DRec) : ∃ t1 t2 t3, r.tokens = [t1, t2, t3] ∧ RawToken ((recordWords r).take 8) 0xFF t1 ∧
    RawToken (((recordWords r).drop 8).take 8) 0xFF t2 ∧ RawToken ((recordWords r).drop 16) 3 t3 := by
  refine ⟨_, _, _, rfl, rawToken_rawTok ?_ _, rawToken_rawTok ?_ _, rawToken_rawTok ?_ _⟩
  · simp [recordWords_eq]
  · simp [recordWords_eq]
  · simp [recordWords_eq]

/-! ### A port that takes tokens -/

/-- Tokens enter a port in order. -/
theorem arrive_each (p : Fin 8) (ts : List Tok) (k : Core) : ts.foldl (fun k t => k.arrive p t) k =
    { k with rx := k.rx.set p { k.rx[p] with q := k.rx[p].q ++ ts } } := by
  induction ts generalizing k with
  | nil =>
    have same : k.rx.set p { k.rx[p] with q := k.rx[p].q ++ [] } = k.rx := by
      rw [List.append_nil]
      exact Vector.set_getElem_self _
    rw [List.foldl_nil, same]
  | cons t ts ih =>
    rw [List.foldl_cons, ih]
    simp [Core.arrive]

end Sys2Proof.Machine
end

section
/-! PROOFS. A record leaves stage 11, and goes to a pen's port or waits in the exit buffer (R271 to R273, R281, R282). -/

namespace Sys2Proof.Machine

open Sys2Proof

/-! ### Where a record is bound (R271, R272) -/

section
variable {c : Chain} {r : DRec} {v : Fin 2} {rt : BitVec 512} (hv : v = if r.ver = 0 then (0 : Fin 2) else 1)
  (hrt : Tab.find c.routes[v] (r.dest.toNat % 256) = some rt)
include hv hrt

theorem route_found : c.route r = rt := by
  subst hv
  rw [Chain.route, hrt]
  rfl

/-- A record of kind 0 whose route is valid and sound goes to a pen as it is. -/
theorem bound_pen (kind : r.dest.toNat / 512 = 0) (sound : r.dest.toNat % 256 ∉ c.badRt[v]) (valid : rt.getLsbD 63 = true) :
    c.bound r = (0, r) := by
  have found := route_found hv hrt
  subst hv
  have usable : bitAt rt.toNat 63 = true := (bitAt_toNat rt 63).trans valid
  have fine : c.badRt[if r.ver = 0 then (0 : Fin 2) else 1].contains (r.dest.toNat % 256) = false := by
    simpa using sound
  simp only [Chain.bound, kind, found, usable, fine]
  rfl

end

/-! ### What the exit buffer holds -/

section
variable {s : State} {die ch : Nat}

/-- With no append to a ring in the exit buffer, none is begun: only flushes are asked for. -/
theorem flushAsked_dvPod (plain : ∀ r ∈ (s.chain die ch).exits, ((s.chain die ch).bound r).1 ≠ 3) : FlushAsked s (s.dvPod die ch) := by
  unfold State.dvPod
  dsimp only
  rw [List.findIdx?_eq_none_iff.2 fun r hr => by simp [plain r hr]]
  refine List.foldlRecOn (motive := fun t : State => FlushAsked s t) _ _ (.refl s) fun t ht r _ => ht.trans ?_
  split
  · exact flushAsked_askFlush t _ false
  · exact .refl t

/-- The one record of the exit buffer is delivered. -/
theorem dvDrain_delivers {t : State} {r : DRec} (he : (s.chain die ch).exits = [r]) (goes : s.dvDeliver die ch r = some t) :
    s.dvDrain die ch 0 [] = t.modChain die ch (fun c => { c with exits := c.exits.eraseIdx 0 }) := by
  simp [State.dvDrain, State.dvDrain.go, he, goes]

/-- It waits. -/
theorem dvDrain_waits {r : DRec} (he : (s.chain die ch).exits = [r]) (stays : s.dvDeliver die ch r = none) :
    s.dvDrain die ch 0 [] = s := by
  simp [State.dvDrain, State.dvDrain.go, he, stays]

theorem dvDrain_empty (he : (s.chain die ch).exits = []) : s.dvDrain die ch 0 [] = s := by
  simp [State.dvDrain, State.dvDrain.go, he]

/-! ### A record for a pen (R272, R273, R282) -/

/-- A casting has taken the pen of a core off it, and no other pen holds the core. -/
theorem state_castAway_iff (c : Nat) : s.castAway c = true ↔ (∃ p ∈ s.pens, p.ended = false ∧ p.frozen = .cast ∧ c ∈ p.cores) ∧
    ∀ p ∈ s.pens, p.live = false ∨ p.ended = true ∨ p.frozen = .cast ∨ c ∉ p.cores := by
  simp [State.castAway, and_assoc, imp_iff_not_or]

section
variable {r : DRec} {core : Nat} {port : Fin 8} (kind : (s.chain die ch).bound r = (0, r)) (hcore : rtCore ((s.chain die ch).route r) = core)
  (hport : rtPort ((s.chain die ch).route r) = port)
include kind hcore

theorem dvDeliver_castAway (away : s.castAway core = true) : s.dvDeliver die ch r = none := by
  simp [State.dvDeliver, kind, hcore, away]

variable (own : s.coreCtx core = none ∨ s.coreCtx core = some ((s.chain die ch).owner.getD 0))
include hport own

/-- A port with room for fewer than three tokens keeps the record waiting. -/
theorem dvDeliver_full (full : 61 < ((s.core core).rx[port]).q.length) : s.dvDeliver die ch r = none := by
  have few : (s.core core).rxRoom port < 3 := by
    rw [Core.rxRoom]
    omega
  rcases own with own | own <;> simp [State.dvDeliver, kind, hcore, hport, own, few]

/-- Its three tokens enter the port together. -/
theorem dvDeliver_pen (here : s.castAway core = false) (room : ((s.core core).rx[port]).q.length ≤ 61) :
    s.dvDeliver die ch r = some (s.modCore core (fun k => r.tokens.foldl (fun k t => k.arrive port t) k)) := by
  have enough : ¬ (s.core core).rxRoom port < 3 := by
    rw [Core.rxRoom]
    omega
  rcases own with own | own <;> simp [State.dvDeliver, kind, hcore, hport, own, enough, here]

end

end

end Sys2Proof.Machine
end

section
/-! PROOFS. Records through a drove chain: O50 (R262 to R273, R277, R281). -/

namespace Sys2Proof.Machine

open Sys2Proof

/-! ### DROVE_EXIT (R262, R281) -/

/-- The core and the port of a route (R272). -/
theorem rtCore_eq (rt : BitVec 512) : rtCore rt = nearCore (rt.toNat % 2 ^ 32) := by
  simp [rtCore, imgBits, natBits]

theorem rtPort_eq (rt : BitVec 512) : rtPort rt = Fin.ofNat 8 (rt.toNat / 2 ^ 35) := by
  refine Fin.ext ?_
  simp [rtPort, imgBits, natBits]

/-- A record for a pen leaves to the exit buffer. -/
theorem leave_pen {c : Chain} {r : DRec} (kind : c.bound r = (0, r)) (now : Nat) : c.leave now r = { c with exits := c.exits ++ [r] } := by
  simp only [Chain.leave, kind]
  rfl

/-- The first record of a chain has come to an exit buffer that held none. -/
structure LeftStages (s : State) (die ch : Nat) (r : DRec) (rest : List DRec) (t : State) : Prop where
  cores : t.cores = s.cores
  mem : t.mem = s.mem
  pens : t.pens = s.pens
  dones : t.dones = s.dones
  chain : t.chain die ch = { s.chain die ch with recs := rest, exits := [r] }

section
variable {s t : State} {die ch : Nat} {r : DRec} {rest : List DRec} (left : LeftStages s die ch r rest t)
include left

theorem LeftStages.core (c : Nat) : t.core c = s.core c := by
  simp only [State.core, left.cores]

theorem LeftStages.castAway (c : Nat) : t.castAway c = s.castAway c := by
  simp only [State.castAway, left.pens]

theorem LeftStages.coreCtx (c : Nat) : t.coreCtx c = s.coreCtx c := by
  simp only [State.coreCtx, State.penOf, left.pens]

/-- Where a record is bound does not change. -/
theorem LeftStages.bound (x : DRec) : (t.chain die ch).bound x = (s.chain die ch).bound x := by
  rw [left.chain]
  rfl

theorem LeftStages.route (x : DRec) : (t.chain die ch).route x = (s.chain die ch).route x := by
  rw [left.chain]
  rfl

theorem LeftStages.owner : (t.chain die ch).owner = (s.chain die ch).owner := by
  rw [left.chain]

end

section
variable {s : State} {die ch : Nat} {r : DRec} {rest : List DRec} (hr : (s.chain die ch).recs = r :: rest) (he : (s.chain die ch).exits = [])
include hr he

/-- No record has passed stage 11, and none waits. -/
theorem droveExit_early (early : r.stage ≠ 12 ∨ s.time < r.t0 + 48) : exec (.droveExit die ch) s = .next s := by
  have stays : ¬ (r.stage = 12 ∧ r.t0 + 24 * cycleBeats ≤ s.time) := by
    rw [cycleBeats]
    omega
  have quiet : s.dvPod die ch = s := by simp [State.dvPod, he]
  show execDroveExit die ch s = _
  simp only [execDroveExit, hr, Bool.and_eq_true, decide_eq_true_eq, if_neg stays, quiet, dvDrain_empty he]

section
variable (hd : die < 4) (hc : ch < 4) (last : r.stage = 12) (due : r.t0 + 48 ≤ s.time) (kind : (s.chain die ch).bound r = (0, r))
include hd hc last due kind

/-- A record for a pen that has passed stage 11 comes to the exit buffer, which is then drained. -/
theorem droveExit_leaves : ∃ t, LeftStages s die ch r rest t ∧ exec (.droveExit die ch) s = .next (t.dvDrain die ch 0 []) := by
  have left : ({ s.chain die ch with recs := rest } : Chain).leave s.time r = { s.chain die ch with recs := rest, exits := [r] } := by
    rw [leave_pen (by exact kind), he, List.nil_append]
  have chain := chain_modChain_self s hd hc (fun c => { c with recs := rest }.leave s.time r)
  have asked := flushAsked_dvPod (s := s.modChain die ch (fun c => { c with recs := rest }.leave s.time r)) (die := die) (ch := ch) <| by
    rw [chain, left]
    intro x hx
    obtain rfl := List.mem_singleton.1 hx
    have bound : ({ s.chain die ch with recs := rest, exits := [x] } : Chain).bound x = (0, x) := kind
    simp only [bound, ne_eq, OfNat.zero_ne_ofNat, not_false_iff]
  refine ⟨_, ⟨asked.cores.trans (modChain_cores _ _), asked.mem.trans (modChain_mem _ _), asked.pens.trans (modDie_pens _ _ _),
    asked.dones.trans (modChain_dones _ _), (asked.chain die ch).trans (chain.trans left)⟩, ?_⟩
  show execDroveExit die ch s = _
  simp [execDroveExit, hr, last, cycleBeats, due]

variable {core : Nat} {port : Fin 8} (hcore : rtCore ((s.chain die ch).route r) = core) (hport : rtPort ((s.chain die ch).route r) = port)
  (own : s.coreCtx core = none ∨ s.coreCtx core = some ((s.chain die ch).owner.getD 0))
include hcore hport own

/-- A record that finds its port without room, or its pen cast away, stays in the exit buffer (R273, R281, R282). -/
theorem droveExit_waits (stays : 61 < ((s.core core).rx[port]).q.length ∨ s.castAway core = true) :
    After (exec (.droveExit die ch) s) (fun t => t.chain die ch = { s.chain die ch with recs := rest, exits := [r] } ∧ t.mem = s.mem ∧
      t.cores = s.cores ∧ t.dones = s.dones) := by
  obtain ⟨t, left, run⟩ := droveExit_leaves hr he hd hc last due kind
  rw [← left.bound] at kind
  rw [← left.route] at hcore hport
  rw [← left.coreCtx, ← left.owner] at own
  rw [← left.core, ← left.castAway] at stays
  have none_ : t.dvDeliver die ch r = none := by
    rcases stays with full | away
    · exact dvDeliver_full kind hcore hport own full
    · exact dvDeliver_castAway kind hcore away
  rw [dvDrain_waits (congrArg Chain.exits left.chain) none_] at run
  exact ⟨t, run, left.chain, left.mem, left.cores, left.dones⟩

/-- A record whose port has room goes there as its three tokens (R273). -/
theorem droveExit_pen (here : s.castAway core = false) (room : ((s.core core).rx[port]).q.length ≤ 61) :
    After (exec (.droveExit die ch) s) (fun t => t.chain die ch = { s.chain die ch with recs := rest } ∧ t.mem = s.mem ∧
      (∀ d, d ≠ core → t.core d = s.core d) ∧
      t.core core = { s.core core with rx := (s.core core).rx.set port { (s.core core).rx[port] with
        q := ((s.core core).rx[port]).q ++ r.tokens } }) := by
  obtain ⟨t, left, run⟩ := droveExit_leaves hr he hd hc last due kind
  rw [← left.bound] at kind
  rw [← left.route] at hcore hport
  rw [← left.coreCtx, ← left.owner] at own
  rw [← left.castAway] at here
  rw [← left.core] at room
  rw [dvDrain_delivers (congrArg Chain.exits left.chain) (dvDeliver_pen kind hcore hport own here room)] at run
  refine ⟨_, run, ?_, (modChain_mem _ _).trans left.mem, fun d other => ?_, ?_⟩
  · have same : (t.modCore core (fun k => r.tokens.foldl (fun k t => k.arrive port t) k)).chain die ch = t.chain die ch := rfl
    rw [chain_modChain_self _ hd hc, same, left.chain]
    simp [he]
  · exact (core_modDie _ _ _ _).trans ((core_modCore_of_ne t _ other).trans (left.core d))
  · refine (core_modDie _ _ _ _).trans ((core_modCore_self t core _).trans ?_)
    rw [arrive_each, left.core]

end

end

/-- Settles O50: what enters stage 0, what a stage makes of a record, and where the record goes that has passed stage 11. -/
theorem droveSteps : Obligations.DroveSteps := by
  unfold Obligations.DroveSteps
  intro s die ch hd hc
  dsimp only
  refine ⟨?busy, ?recirc, ?full, ?enters, ?stage, ?idle, ?exit, ?early⟩
  case busy => exact fun busy => ⟨s, droveAccept_busy busy, rfl⟩
  case recirc => exact fun r rest free hr due => ⟨_, droveAccept_recirc free hr due, rfl⟩
  case full => exact fun r rest _ hr hw ho full => ⟨s, droveAccept_full hr hw ho full, rfl⟩
  case enters =>
    intro r rest m n free hr hw room hs hm ho
    exact droveAccept_new_after free hr hw hd hc room hs hm ho
  case stage =>
    intro n pre r post hn hr before here
    refine ⟨fun hcfg => ?_, fun d x hcfg _ => ?_⟩
    · exact droveStage_one_prim (p := 0) hd hc hn hr before here (by decide) hcfg (fun data => act_nop _ data n) rfl
    · exact droveStage_one_prim (p := addPrim d x) hd hc hn hr before here (by unfold addPrim; omega) hcfg
        (fun data => act_add _ d x data n) rfl
  case idle => exact fun n none_ => ⟨s, droveStage_idle none_, rfl⟩
  case exit =>
    intro r rest v rt hr last due he _ kind hv sound hrt valid own
    have bound := bound_pen hv hrt kind sound valid
    have hcore := (congrArg rtCore (route_found hv hrt)).trans (rtCore_eq rt)
    have hport := (congrArg rtPort (route_found hv hrt)).trans (rtPort_eq rt)
    refine ⟨fun unfrozen room => ?_, fun stays => ?_⟩
    · have here : s.castAway (nearCore (rt.toNat % 2 ^ 32)) = false := by
        rw [Bool.eq_false_iff, ne_eq, state_castAway_iff]
        rintro ⟨⟨p, hp, going, cast, holds⟩, -⟩
        rcases unfrozen p hp with ended | home | apart
        · exact absurd ended (by simp [going])
        · exact home cast
        · exact apart holds
      obtain ⟨t, run, chain, mem, others, core⟩ := droveExit_pen hr he hd hc last due bound hcore hport own here room
      obtain ⟨t1, t2, t3, tokens, raw⟩ := tokens_raw r
      exact ⟨t, run, chain, mem, others, t1, t2, t3, tokens ▸ core, raw⟩
    · exact droveExit_waits hr he hd hc last due bound hcore hport own (stays.imp_right (state_castAway_iff _).2)
  case early => exact fun r rest hr early he => ⟨s, droveExit_early hr he early, rfl⟩

end Sys2Proof.Machine
end

section
/-! PROOFS. A write of physical bytes that no key holds (R348, R352), and what a host event leaves of the service state (R335). -/

namespace Sys2Proof.Machine

open Sys2Proof

/-! ### Bytes written side by side -/

theorem leBytes_length (n v : Nat) : (leBytes n v).length = n := by
  induction n generalizing v with
  | zero => rfl
  | succ n ih => rw [leBytes, List.length_cons, ih]

theorem mem_get_write {m : Mem} (h : m.wf = true) (a k : Nat) (bs : List Byte) :
    (m.write a bs).get k = if a ≤ k ∧ k < a + bs.length then bs.getD (k - a) 0 else m.get k := by
  induction bs generalizing m a with
  | nil => rw [if_neg (by rw [List.length_nil]; omega)]; rfl
  | cons b bs ih =>
    rw [Mem.write, ih (mem_wf_set h a b), mem_get_set h, List.length_cons]
    rcases Nat.lt_trichotomy k a with lt | rfl | gt
    · rw [if_neg (by omega), if_neg (by omega), if_neg (by omega)]
    · rw [if_neg (by omega), if_pos rfl, if_pos (by omega), Nat.sub_self, List.getD_cons_zero]
    · by_cases hk : k < a + 1 + bs.length
      · rw [if_pos (by omega), if_pos (by omega), show k - a = k - (a + 1) + 1 by omega, List.getD_cons_succ]
      · rw [if_neg (by omega), if_neg (by omega), if_neg (by omega)]

/-- Bytes and the addresses from `a` on at which they come to stand, as a physical write takes them. -/
def cellsFrom (a : Nat) (bs : List Byte) : List (Nat × Byte) := bs.zipIdx.map (fun x => (a + x.2, x.1))

theorem foldl_set_cellsFrom (m : Mem) (a : Nat) (bs : List Byte) :
    (cellsFrom a bs).foldl (fun m c => Mem.set m c.1 c.2) m = m.write a bs := by
  have from_ : ∀ n, ((bs.zipIdx n).map (fun x => (a + x.2, x.1))).foldl (fun m c => Mem.set m c.1 c.2) m = m.write (a + n) bs := by
    induction bs generalizing m with
    | nil => exact fun _ => rfl
    | cons b bs ih =>
      intro n
      rw [List.zipIdx_cons, List.map_cons, List.foldl_cons, ih]
      rfl
  exact from_ 0

/-- The addresses written are the `bs.length` ones from `a` on. -/
theorem any_cellsFrom (a k : Nat) (bs : List Byte) : (cellsFrom a bs).any (fun c => c.1 = k) = true ↔ a ≤ k ∧ k < a + bs.length := by
  simp only [cellsFrom, List.any_map, List.any_eq_true, Function.comp_apply, decide_eq_true_eq]
  constructor
  · rintro ⟨⟨b, i⟩, hi, rfl⟩
    obtain ⟨lt, -⟩ := List.getElem?_eq_some_iff.1 (List.mk_mem_zipIdx_iff_getElem?.1 hi)
    exact ⟨Nat.le_add_right a i, Nat.add_lt_add_left lt a⟩
  · rintro ⟨lo, hi⟩
    have lt : k - a < bs.length := by omega
    exact ⟨(bs[k - a], k - a), List.mk_mem_zipIdx_iff_getElem?.2 (List.getElem?_eq_getElem lt), Nat.add_sub_of_le lo⟩

/-! ### Memory in which no key holds a byte (R348) -/

section
variable {s : State} (plain : s.crypt = [])
include plain

theorem tagOf_plain (pa : Nat) : s.tagOf pa = 0 := by simp [State.tagOf, plain, Tab.find]

/-- Outside every key a byte reads as it stands. -/
theorem physByte_plain (pa : Nat) : s.physByte {} pa = s.mem.get pa := by
  simp [State.physByte, tagOf_plain plain, viewByte]

/-- A write under no key touches no byte around its own. -/
theorem rekey_plain (cells : List (Nat × Byte)) : s.rekey 0 cells = [] := by
  simp [State.rekey, tagOf_plain plain]

theorem physWrite_plain_get (wf : Mem.wf s.mem = true) (w : Option Agent) (a k : Nat) (bs : List Byte) :
    (s.physWrite w 0 (cellsFrom a bs)).mem.get k = if a ≤ k ∧ k < a + bs.length then bs.getD (k - a) 0 else s.mem.get k := by
  rw [(physWrite_frame s w 0 _).1, rekey_plain plain, List.nil_append, foldl_set_cellsFrom, mem_get_write wf]

end

/-! ### What a physical write leaves of the rest -/

theorem dieFlits_poison (s : State) (a b : Nat) (back : Bool) : (s.dieFlits a b back).poison = s.poison := by
  unfold State.dieFlits State.countDie
  dsimp only
  repeat' split
  all_goals simp

theorem dieFlits_svc (s : State) (a b : Nat) (back : Bool) : (s.dieFlits a b back).svc = s.svc := by
  unfold State.dieFlits State.countDie
  dsimp only
  repeat' split
  all_goals simp

theorem physWrite_poison (s : State) (w : Option Agent) (key : Nat) (cells : List (Nat × Byte)) :
    (s.physWrite w key cells).poison = s.poison.filter (fun k => !(cells.any (fun c => c.1 = k))) := by
  unfold State.physWrite
  dsimp only
  repeat' split
  all_goals simp [dieFlits_poison, State.countDie]

theorem physWrite_svc (s : State) (w : Option Agent) (key : Nat) (cells : List (Nat × Byte)) : (s.physWrite w key cells).svc = s.svc := by
  unfold State.physWrite
  dsimp only
  repeat' split
  all_goals simp [dieFlits_svc, State.countDie]

/-- What is written is poison no more (R352). -/
theorem physWrite_clears {s : State} {w : Option Agent} {key a k : Nat} {bs : List Byte}
    (hk : k ∈ (s.physWrite w key (cellsFrom a bs)).poison) : ¬ (a ≤ k ∧ k < a + bs.length) := by
  rw [physWrite_poison] at hk
  obtain ⟨-, clear⟩ := List.mem_filter.1 hk
  rwa [Bool.not_eq_true', ← Bool.not_eq_true, any_cellsFrom] at clear

theorem ueMet_svc (s : State) (d : Nat) : (s.ueMet d).svc = s.svc := modDie_svc s d _

theorem poisonAt_iff (bad : List Nat) (pa n : Nat) : poisonAt bad pa n = true ↔ ∃ k ∈ bad, pa ≤ k ∧ k < pa + n := by
  simp [poisonAt]

/-! ### What a host event leaves of the service state -/

/-- The service and pod state, the flits sent apart. -/
def State.svcKept (s : State) : Service := { s.svc with flitOut := [] }

theorem svcKept_of_svc_eq {s t : State} (h : t.svc = s.svc) : t.svcKept = s.svcKept := by rw [State.svcKept, State.svcKept, h]

theorem svcKept_foldl {α : Type} {f : State → α → State} (hf : ∀ s a, (f s a).svcKept = s.svcKept) (l : List α) (s : State) :
    (l.foldl f s).svcKept = s.svcKept :=
  List.foldlRecOn (motive := fun t : State => t.svcKept = s.svcKept) _ _ rfl fun t ht a _ => (hf t a).trans ht

theorem physWrite_svcKept (s : State) (w : Option Agent) (key : Nat) (cells : List (Nat × Byte)) :
    (s.physWrite w key cells).svcKept = s.svcKept := svcKept_of_svc_eq (physWrite_svc s w key cells)

theorem peerFlit_svcKept (s : State) (kind ctx pa : Nat) (rest : List Nat) : (s.peerFlit kind ctx pa rest).svcKept = s.svcKept := by
  unfold State.peerFlit
  split <;> rfl

theorem writePlaces_svcKept {s t : State} {w : Option Agent} {ctx : Nat} {pl : List (Nat × Nat)} {bs : List Byte}
    (h : s.writePlaces w ctx pl bs = .ok t) : t.svcKept = s.svcKept := by
  unfold State.writePlaces at h
  dsimp only at h
  split at h <;> cases h
  refine (svcKept_foldl (fun s m => ?_) _ _).trans (physWrite_svcKept s w _ _)
  split
  · exact physWrite_svcKept s w _ _
  · rfl

theorem vwriteBy_svcKept {s t : State} {w : Option Agent} {ctx va : Nat} {acc : Acc} {bs : List Byte}
    (h : s.vwriteBy w ctx va acc bs = .ok t) : t.svcKept = s.svcKept := by
  unfold State.vwriteBy at h
  split at h
  · cases h
  · next pl _ =>
    obtain ⟨u, hw, rfl⟩ : ∃ u, s.writePlaces w ctx pl bs = .ok u ∧ u.peerWrite ctx ((pl.map (·.1)).filter paPeer) = t := by
      cases hw : s.writePlaces w ctx pl bs with
      | error e => rw [hw] at h; cases h
      | ok u => rw [hw] at h; cases h; exact ⟨u, rfl, rfl⟩
    exact (svcKept_foldl (fun s _ => peerFlit_svcKept s _ _ _ _) _ u).trans (writePlaces_svcKept hw)

theorem ringAppend_svcKept {s t : State} {w : Option Agent} {ctx va size : Nat} {bs : List Byte} {r : Option RingFault}
    (h : s.ringAppend w id ctx va size bs = (t, r)) : t.svcKept = s.svcKept := by
  have slot : ∀ {u n}, s.ringSlot w ctx va size bs = .ok (u, n) → u.svcKept = s.svcKept := by
    intro u n hs
    grind [State.ringSlot, vwriteBy_svcKept]
  have bump : ∀ u n, (State.ringBump u w ctx va n).1.svcKept = u.svcKept := by
    intro u n
    grind [State.ringBump, vwriteBy_svcKept]
  grind [State.ringAppend]

theorem recordFault_svc (s : State) (w : Who) (va : Nat) (x : XFault) (park : Bool) : (s.recordFault w va x park).1.svc = s.svc := by
  have counted : (s.countDie w.die 13 1).svc = s.svc := modDie_svc s _ _
  unfold State.recordFault
  split
  · rfl
  · dsimp only
    split
    · exact counted
    · exact (physWrite_svc _ none 0 _).trans counted

/-- A host event, posted or lost, leaves the service state alone: its ring may lie in a member's memory, and then flits go out (R335). -/
theorem postEvent_svcKept (s : State) (ctx ty pid rel die : Nat) (payload : List W64) :
    (s.postEvent ctx ty pid rel die payload).svcKept = s.svcKept := by
  unfold State.postEvent
  dsimp only
  split
  · rfl
  split
  · rfl
  split
  · next ha => exact ringAppend_svcKept ha
  · next u _ fault ha =>
    refine Eq.trans ?_ (ringAppend_svcKept ha)
    cases fault with
    | none => rfl
    | some f =>
      refine (svcKept_of_svc_eq (recordFault_svc _ _ _ _ _)).trans ?_
      split
      · exact svcKept_of_svc_eq (ueMet_svc u die)
      · rfl

end Sys2Proof.Machine
end

section
/-! PROOFS. Flits that arrive, what is delivered of them (R352, R362 to R366), and the host's accesses (R295, R296, R348, R352). -/

namespace Sys2Proof.Machine

open Sys2Proof

/-! ### A flit arrives (R362) -/

theorem flitGood_iff (bs : List Byte) : flitGood bs = true ↔ bs.length = 64 ∧ leNat (bs.drop 60) = crc32c (bs.take 60) := by
  simp [flitGood]

/-- The number of the flit that the link of the bus delivers next. -/
def State.flitWanted (s : State) : Nat := (Tab.find s.svc.flitNext s.bus.a).getD 0

theorem flitReceive_untrained {s : State} (h : 16 ≤ s.bus.a ∨ s.svc.boot < 7) : exec .flitReceive s = .next s := by
  show execFlitReceive s = _
  unfold execFlitReceive
  exact if_pos (by simpa using h)

section
variable {s : State} (link : s.bus.a < 16) (trained : 7 ≤ s.svc.boot)
include link trained

theorem flitReceive_trained : exec .flitReceive s =
    if !flitGood s.bus.data || s.flitWanted < s.bus.b then
      .next ({ s with svc := { s.svc with resend := s.svc.resend ++ [s.bus.a] } }.sendFlit [s.bus.a, flAgain, s.flitWanted])
    else if s.bus.b < s.flitWanted then .next s
    else .next (State.deliverFlit { s with svc := { s.svc with flitNext := Tab.put s.svc.flitNext s.bus.a (s.flitWanted + 1) } }
      s.bus.a (Config.flitNums (s.bus.data.take 60))) := by
  show execFlitReceive s = _
  unfold execFlitReceive
  exact if_neg (by simp; omega)

theorem flitReceive_bad (bad : ¬ flitGood s.bus.data = true ∨ s.flitWanted < s.bus.b) : exec .flitReceive s =
    .next { s with svc := { s.svc with
      resend := s.svc.resend ++ [s.bus.a], flitOut := s.svc.flitOut ++ [[s.bus.a, 9, s.flitWanted]] } } :=
  (flitReceive_trained link trained).trans (if_pos (by simpa using bad))

variable (good : flitGood s.bus.data = true)
include good

theorem flitReceive_repeated (old : s.bus.b < s.flitWanted) : exec .flitReceive s = .next s := by
  rw [flitReceive_trained link trained, if_neg (by simp [good]; omega), if_pos old]

theorem flitReceive_next (due : s.bus.b = s.flitWanted) : exec .flitReceive s =
    .next (State.deliverFlit { s with svc := { s.svc with flitNext := Tab.put s.svc.flitNext s.bus.a (s.flitWanted + 1) } }
      s.bus.a (Config.flitNums (s.bus.data.take 60))) := by
  rw [flitReceive_trained link trained, if_neg (by simp [good]; omega), if_neg (by omega)]

end

/-! ### What a flit comes to by its kind (log 31) -/

section
variable (s : State) (link : Nat)

theorem deliverFlit_flush (m id tag : Nat) : s.deliverFlit link [1, m, id, tag] = s.flushArrives link m id tag := rfl

theorem deliverFlit_answer {m id : Nat} {x : Flush} (hx : Tab.find s.svc.flush id = some x) : s.deliverFlit link [2, m, id] =
    { s with svc := { s.svc with flush := Tab.put s.svc.flush id { x with left := x.left.filter (· != m) } } } := by
  simp [State.deliverFlit, flFlush, flAnswer, hx]

theorem deliverFlit_count (rest : List Nat) : s.deliverFlit link (3 :: rest) =
    { s with todo := s.todo ++ [.ev .podCountMessage { nums := 3 :: rest }] } := rfl

theorem deliverFlit_release (x y : Nat) : s.deliverFlit link [4, x, y] = { s with todo := s.todo ++ [.ev .podRelease { a := x, b := y }] } := rfl

theorem deliverFlit_read {ofs : Nat} (h : ofs < 2 ^ 40) (m id tag n : Nat) :
    s.deliverFlit link [6, m, id, tag, ofs, n] = s.peerAccess flRead m id tag ofs [n] := by
  rw [← Nat.mod_eq_of_lt h]
  show s.peerAccess flRead m id tag (ofs % 2 ^ 40 % 2 ^ 40) [n] = _
  rw [Nat.mod_mod]

theorem deliverFlit_reply (m id code detail : Nat) (data : List Nat) :
    s.deliverFlit link ([7, m, id, code, detail] ++ data) = s.peerAnswer id code detail data := rfl

theorem deliverFlit_again (n : Nat) : s.deliverFlit link [9, n] = s.flitsAgain link n := rfl

end

/-! ### A member answers a request (R365) -/

/-- The request's record holds its answer. -/
def State.noteAnswer (s : State) (id code detail : Nat) (x : PeerReq) : State :=
  { s with svc := { s.svc with peers := Tab.put s.svc.peers id { x with ans := some (code, detail) } } }

section
variable {s : State} {id : Nat} {x : PeerReq} (hx : Tab.find s.svc.peers id = some x)
include hx

/-- A refused request brings no bytes, and neither does a write. -/
theorem peerAnswer_bare {code : Nat} (h : code ≠ 0 ∨ x.flit.getD 1 0 = 5) (detail : Nat) (data : List Nat) :
    s.peerAnswer id code detail data = s.noteAnswer id code detail x := by
  unfold State.peerAnswer
  simp only [hx]
  refine if_neg ?_
  rcases h with refused | write
  · simp [refused]
  · simp only [write]
    simp [flRead, flAtomic]

/-- The answer to a read brings the bytes from the request's offset on. -/
theorem peerAnswer_read (h : x.flit.getD 1 0 = 6) (data : List Nat) :
    s.peerAnswer id 0 0 data = if data = [] then s.noteAnswer id 0 0 x
      else (s.noteAnswer id 0 0 x).physWrite none 0 (cellsFrom (2 ^ 50 + x.flit.getD 5 0) (data.map (BitVec.ofNat 8))) := by
  unfold State.peerAnswer
  simp only [hx, h, flRead, if_true]
  cases data with
  | nil => rfl
  | cons n data => exact if_pos (by simp)

theorem peerAnswer_read_svc (h : x.flit.getD 1 0 = 6) (data : List Nat) :
    (s.peerAnswer id 0 0 data).svc = (s.noteAnswer id 0 0 x).svc := by
  rw [peerAnswer_read hx h]
  split
  · rfl
  · exact physWrite_svc _ _ _ _

theorem peerAnswer_read_get (h : x.flit.getD 1 0 = 6) (plain : s.crypt = []) (wf : Mem.wf s.mem = true) (data : List Nat) (k : Nat) :
    (s.peerAnswer id 0 0 data).mem.get k =
      if 2 ^ 50 + x.flit.getD 5 0 ≤ k ∧ k < 2 ^ 50 + x.flit.getD 5 0 + data.length
      then BitVec.ofNat 8 (data.getD (k - (2 ^ 50 + x.flit.getD 5 0)) 0) else s.mem.get k := by
  rw [peerAnswer_read hx h]
  split
  · next none_ => rw [none_, List.length_nil, if_neg (by omega)]; rfl
  · have bytes := physWrite_plain_get (s := s.noteAnswer id 0 0 x) plain wf none (2 ^ 50 + x.flit.getD 5 0) k (data.map (BitVec.ofNat 8))
    rw [bytes, List.length_map]
    exact if_congr Iff.rfl (List.getD_map data 0 (BitVec.ofNat 8)) rfl

end

/-! ### A member reads (R352, R365) -/

section
variable (s : State) (m id tag ofs n : Nat)

theorem peerRead_hidden (h : s.exported tag ofs n false = false) :
    s.peerAccess flRead m id tag ofs [n] = s.sendFlit [s.linkTo m, 7, m, id, 2, 0] := by
  simp [State.peerAccess, h, flReply]

theorem peerRead_poison (h : s.exported tag ofs n false = true) (bad : poisonAt s.poison ofs n = true) :
    s.peerAccess flRead m id tag ofs [n] = (s.ueMet (paDie ofs)).sendFlit [(s.ueMet (paDie ofs)).linkTo m, 7, m, id, 11, 0] := by
  simp [State.peerAccess, h, bad, flReply]

theorem peerRead_plain (h : s.exported tag ofs n false = true) (sound : poisonAt s.poison ofs n = false) (plain : s.crypt = []) :
    s.peerAccess flRead m id tag ofs [n] =
      s.sendFlit ([s.linkTo m, 7, m, id, 0, 0] ++ (List.range n).map (fun i => (s.mem.get (ofs + i)).toNat)) := by
  simp [State.peerAccess, h, sound, flReply, State.peerBytes, physByte_plain plain, Function.comp_def]

end

/-- The link to a member does not depend on the dies. -/
theorem linkTo_ueMet (s : State) (d m : Nat) : (s.ueMet d).linkTo m = s.linkTo m := by
  unfold State.linkTo State.links
  rw [ueMet_svc]

/-! ### A flush of another member arrives (R364) -/

section
variable (s : State) (link m id tag : Nat)

/-- The links on which a flush has come in, with the one of its newest copy. -/
def State.flushLinks : List Nat :=
  link :: ((s.svc.flushIn.find? (fun f => decide (f.1 = m) && decide (f.2.1 = id))).map (·.2.2.2)).getD []

theorem flushLinks_eq : s.flushLinks link m id =
    link :: (s.svc.flushIn.find? (fun f => decide (f.1 = m) && decide (f.2.1 = id))).elim [] (fun f => f.2.2.2) := by
  unfold State.flushLinks
  cases s.svc.flushIn.find? (fun f => decide (f.1 = m) && decide (f.2.1 = id)) <;> rfl

/-- A write once a copy of the flush has come on a link: where it came on that link before it, it is the flush's to wait for. -/
def State.flushMark (e : ViewWrite) : ViewWrite :=
  if 1024 < e.agent.core && s.linkTo (e.agent.core - 1025) = link && !e.flush.contains (m, id) then { e with flush := (m, id) :: e.flush } else e

/-- A write once the flush has come: where all copies have, the member's own under the tag is released to the pod. -/
def State.flushFree (e : ViewWrite) : ViewWrite :=
  if s.links.all (fun l => (s.flushLinks link m id).contains l) && e.agent = memberAgent m tag && !e.rel.contains (5, memberAgent m tag)
  then { e with rel := (5, memberAgent m tag) :: e.rel } else e

theorem flushArrives_dies : (s.flushArrives link m id tag).dies =
    s.dies.map (fun d => { d with remote := d.remote.map (fun e => s.flushFree link m id tag (s.flushMark link m id e)) }) := rfl

theorem flushArrives_flushIn : (s.flushArrives link m id tag).svc.flushIn =
    s.svc.flushIn.filter (fun f => !(decide (f.1 = m) && decide (f.2.1 = id))) ++ [(m, id, tag, s.flushLinks link m id)] := rfl

theorem flushMark_agent (e : ViewWrite) : (s.flushMark link m id e).agent = e.agent := by
  unfold State.flushMark
  split <;> rfl

theorem flushFree_agent (e : ViewWrite) : (s.flushFree link m id tag e).agent = e.agent := by
  unfold State.flushFree
  split <;> rfl

theorem flushFree_flush (e : ViewWrite) : (s.flushFree link m id tag e).flush = e.flush := by
  unfold State.flushFree
  split <;> rfl

theorem mem_flushMark {e : ViewWrite} (outside : 1024 < e.agent.core) (here : s.linkTo (e.agent.core - 1025) = link) :
    (m, id) ∈ (s.flushMark link m id e).flush := by
  unfold State.flushMark
  split
  · exact List.mem_cons_self
  · next marked => simpa [outside, here] using marked

theorem mem_flushFree {e : ViewWrite} (all : ∀ l ∈ s.links, l ∈ s.flushLinks link m id) (mine : e.agent = memberAgent m tag) :
    (5, memberAgent m tag) ∈ (s.flushFree link m id tag e).rel := by
  have come : s.links.all (fun l => (s.flushLinks link m id).contains l) = true := by simpa using all
  unfold State.flushFree
  split
  · exact List.mem_cons_self
  · next freed => simpa only [come, mine, decide_true, Bool.and_self, Bool.true_and, Bool.not_eq_true', Bool.not_eq_false,
      List.contains_iff_mem] using freed

/-- A write of a die after the flush: it is one of those whose writes came on that link, and released where all copies have come. -/
theorem flushArrives_remote {d : Fin 4} {e : ViewWrite} (he : e ∈ (s.flushArrives link m id tag).dies[d].remote) :
    (1024 < e.agent.core → s.linkTo (e.agent.core - 1025) = link → (m, id) ∈ e.flush) ∧
    ((∀ l ∈ s.links, l ∈ s.flushLinks link m id) → e.agent = memberAgent m tag → (5, memberAgent m tag) ∈ e.rel) := by
  rw [flushArrives_dies, Fin.getElem_fin, Vector.getElem_map] at he
  obtain ⟨w, -, rfl⟩ := List.mem_map.1 he
  rw [flushFree_agent, flushFree_flush, flushMark_agent]
  exact ⟨mem_flushMark s link m id, fun all mine => mem_flushFree s link m id tag all ((flushMark_agent s link m id w).trans mine)⟩

/-- Flushes of other members, and of other numbers, stand as they did. -/
theorem flushArrives_others {f : Nat × Nat × Nat × List Nat} (hf : f ∈ s.svc.flushIn) (other : f.1 ≠ m ∨ f.2.1 ≠ id) :
    f ∈ (s.flushArrives link m id tag).svc.flushIn := by
  rw [flushArrives_flushIn]
  refine List.mem_append_left _ (List.mem_filter.2 ⟨hf, ?_⟩)
  rcases other with h | h <;> simp [h]

end

/-! ### The host's accesses (R295, R296, R348, R352) -/

/-- The key under which the host's access goes: none outside a protected context's interface (R348). -/
def State.hostKey (s : State) : Nat := if s.bus.v = 0 then 0 else s.keyOf (s.bus.v.toNat - 1)

/-- The bytes of the host's access as they stand. -/
def State.hostOld (s : State) : List Byte := (List.range s.bus.b).map (fun i => s.physByte { key := s.hostKey } (s.bus.c + i))

/-- Memory and the bellwether's lines once the host has stored bytes from `bus.c` on. -/
def State.hostStore (s : State) (bs : List Byte) : State :=
  let u := s.physWrite (some { core := 1024 }) s.hostKey (cellsFrom s.bus.c bs)
  { u with hostLines := u.hostLines.filter (fun l => !(linesOf s.bus.c bs.length).contains l) }

section
variable {s : State}

theorem cxlMemAccess_offline (off : s.offline = true) (device : paHost s.bus.c = false) : exec .cxlMemAccess s = .next s := by
  show execCxlMemAccess s = _
  unfold execCxlMemAccess
  rw [if_pos (by simp [off, device])]

theorem hostStore_get (plain : s.crypt = []) (wf : Mem.wf s.mem = true) (outside : s.bus.v = 0) (bs : List Byte) (k : Nat) :
    (s.hostStore bs).mem.get k = if s.bus.c ≤ k ∧ k < s.bus.c + bs.length then bs.getD (k - s.bus.c) 0 else s.mem.get k := by
  have key : s.hostKey = 0 := if_pos outside
  unfold State.hostStore
  rw [key]
  exact physWrite_plain_get plain wf _ _ k bs

theorem sameUnits_hostStore (s : State) (bs : List Byte) : SameUnits s (s.hostStore bs) :=
  have written := sameUnits_physWrite s (some { core := 1024 }) s.hostKey (cellsFrom s.bus.c bs)
  ⟨written.cores, written.pens⟩

theorem hostOld_plain (plain : s.crypt = []) (outside : s.bus.v = 0) :
    s.hostOld = (List.range s.bus.b).map (fun i => s.mem.get (s.bus.c + i)) := by
  have key : s.hostKey = 0 := if_pos outside
  unfold State.hostOld
  rw [key]
  exact List.map_congr_left fun i _ => physByte_plain plain _

variable (heard : ¬ (s.offline = true ∧ paHost s.bus.c = false))
include heard

theorem cxlMemAccess_heard : exec .cxlMemAccess s =
    if poisonAt s.poison s.bus.c s.bus.b && (s.bus.a = 0 || s.bus.a = 2) then
      .next { s.ueMet (paDie s.bus.c) with bus := { s.bus with data := [], nums := [11] } }
    else if s.bus.a = 0 then .next { s with bus := { s.bus with data := s.hostOld } }
    else if s.bus.a = 2 then .next { s.hostStore (hostAdd s.hostOld s.bus.w.toNat) with bus := { s.bus with data := s.hostOld } }
    else .next (s.hostStore s.bus.data) := by
  show execCxlMemAccess s = _
  unfold execCxlMemAccess
  rw [if_neg (by simpa using heard)]
  rfl

theorem cxlMemAccess_poison (bad : poisonAt s.poison s.bus.c s.bus.b = true) (reads : s.bus.a = 0 ∨ s.bus.a = 2) :
    exec .cxlMemAccess s = .next { s.ueMet (paDie s.bus.c) with bus := { s.bus with data := [], nums := [11] } } := by
  rw [cxlMemAccess_heard heard, if_pos (by simpa [bad] using reads)]

variable (sound : poisonAt s.poison s.bus.c s.bus.b = true → s.bus.a = 1)
include sound

theorem cxlMemAccess_sound : exec .cxlMemAccess s =
    if s.bus.a = 0 then .next { s with bus := { s.bus with data := s.hostOld } }
    else if s.bus.a = 2 then .next { s.hostStore (hostAdd s.hostOld s.bus.w.toNat) with bus := { s.bus with data := s.hostOld } }
    else .next (s.hostStore s.bus.data) := by
  rw [cxlMemAccess_heard heard, if_neg]
  intro h
  obtain ⟨bad, reads⟩ := Bool.and_eq_true_iff.1 h
  simp [sound bad] at reads

end

/-! ### The host takes a line back (R296) -/

theorem cacheLineLoss_wakes (s : State) {d n : Nat} (hd : d < 4) (hn : n < (s.die d).waits.length) :
    Turn.ev (.awaitRecheck d n) {} ∈ (List.range 4).flatMap
      (fun d => ((List.range (s.die d).waits.length).reverse).map (fun i => Turn.ev (.awaitRecheck d i) {})) := by
  simp only [List.mem_flatMap, List.mem_range, List.mem_map, List.mem_reverse]
  exact ⟨d, hd, n, hn, rfl⟩

end Sys2Proof.Machine
end

section
/-! PROOFS. Pod barriers: arrivals gathered, sent and counted, and their release (R366); flushes of other members answered (R364). -/

namespace Sys2Proof.Machine

open Sys2Proof

/-! ### What a window has gathered is sent (R366) -/

theorem sendCount_none {c : CountMsg} (h : c.arrs = []) (s : State) : s.sendCount c = s := if_pos h

theorem sendCount_some {c : CountMsg} (h : c.arrs ≠ []) (s : State) : s.sendCount c =
    { s with svc := { s.svc with
      flitOut := s.svc.flitOut ++ [s.links.headD 0 :: c.nums s.member], countOut := s.svc.countOut ++ [c] } } := if_neg h

theorem countMessageSend_within {s : State} (h : s.time % 128 ≠ 0) : exec .countMessageSend s = .next s := by
  show execCountMessageSend s = _
  exact if_pos (by simpa [gatherBeats] using h)

/-- At the end of a window that has gathered for one barrier alone, its arrivals go and then its withdrawals. -/
theorem countMessageSend_one {s : State} (h : s.time % 128 = 0) {key : Nat} {arrs backs : List PodArr}
    (gathered : s.svc.gather = [(key, arrs, backs)]) :
    let t := (s.sendCount { key := key, arrs := arrs }).sendCount { key := key, back := true, arrs := backs }
    exec .countMessageSend s = .next { t with svc := { t.svc with gather := [] } } := by
  show execCountMessageSend s = _
  unfold execCountMessageSend
  rw [if_neg (by simpa [gatherBeats] using h), gathered]
  rfl

/-! ### A count message comes to the switch (R366) -/

theorem podCountMessage_received {s : State} (h : s.bus.nums ≠ []) : exec .podCountMessage s =
    .next { s with svc := { s.svc with countOut := s.svc.countOut ++ [CountMsg.ofNums s.bus.nums] } } := by
  show execPodCountMessage s = _
  exact if_pos (by simpa using h)

/-- The arrivals of a message, from its numbers: each names the message's member and number. -/
theorem ofNums_arrs (key sign exp m : Nat) (ids : List Nat) : (CountMsg.ofNums ([3, key, sign, ids.length, exp, m] ++ ids)).arrs =
    ids.map (fun id => { member := m, id := id, num := exp }) :=
  List.ext_getElem (by simp [CountMsg.ofNums]) fun i hi _ => by
    have lt : i < ids.length := by simpa [CountMsg.ofNums] using hi
    simp [CountMsg.ofNums, show 6 + i = i + 6 by omega, lt]

/-! ### The switch counts a message (R366) -/

/-- The counter of a barrier that holds its generation's arrivals: at the expected number the release goes out and frees it. -/
def State.podCounter (s : State) (key : Nat) (b : List PodArr × Nat) : State :=
  if b.2 ≤ b.1.length then
    let s := { s with svc := { s.svc with podBars := Tab.del s.svc.podBars key } }
    let own := (b.1.filter (fun a => a.member = s.member)).map (·.id)
    if own != [] then { s with todo := s.todo ++ [.ev .podRelease { a := key / 256, b := key % 256, nums := own }] } else s
  else { s with svc := { s.svc with podBars := Tab.put s.svc.podBars key b } }

theorem podCounter_below {s : State} {key : Nat} {b : List PodArr × Nat} (h : b.1.length < b.2) :
    s.podCounter key b = { s with svc := { s.svc with podBars := Tab.put s.svc.podBars key b } } := if_neg (Nat.not_le.2 h)

/-- The release goes to this package where arrivals of it are among those counted. -/
theorem podCounter_full {s : State} {key : Nat} {b : List PodArr × Nat} (h : b.2 ≤ b.1.length) :
    s.podCounter key b = { s with
      svc := { s.svc with podBars := Tab.del s.svc.podBars key }
      todo := s.todo ++ (if b.1.filter (fun a => a.member = s.member) = [] then []
        else [.ev .podRelease { a := key / 256, b := key % 256, nums := (b.1.filter (fun a => a.member = s.member)).map (·.id) }]) } := by
  refine (if_pos h).trans ?_
  by_cases none_ : b.1.filter (fun a => a.member = s.member) = []
  · have named : ¬ ((b.1.filter (fun a => a.member = s.member)).map (·.id) != []) = true := by simp [none_]
    rw [if_pos none_, List.append_nil]
    exact if_neg named
  · have named : ((b.1.filter (fun a => a.member = s.member)).map (·.id) != []) = true := by
      simpa only [bne_iff_ne, ne_eq, List.map_eq_nil_iff] using none_
    rw [if_neg none_]
    exact if_pos named

section
variable {s : State} {c : CountMsg}

theorem podCount_withdraws {as_ : List PodArr} {e : Nat} (back : c.back = true) (hb : Tab.find s.svc.podBars c.key = some (as_, e)) :
    s.podCount c = some { s with svc := { s.svc with
      podBars := Tab.put s.svc.podBars c.key (as_.filter (fun a => !c.arrs.any (fun x => x.member = a.member && x.id = a.id)), e) } } := by
  unfold State.podCount
  simp only [hb, back]

theorem podCount_released (back : c.back = true) (hb : Tab.find s.svc.podBars c.key = none) : s.podCount c = some s := by
  unfold State.podCount
  simp only [hb, back]

theorem podCount_waits (back : c.back = false) (hb : Tab.find s.svc.podBars c.key = none) (full : 4096 ≤ s.svc.podBars.length) :
    s.podCount c = none := by
  unfold State.podCount
  simp only [hb, back]
  exact if_pos full

theorem podCount_first {a : PodArr} (back : c.back = false) (hb : Tab.find s.svc.podBars c.key = none) (room : s.svc.podBars.length < 4096)
    (head : c.arrs.head? = some a) :
    s.podCount c = some ((c.arrs.foldl (fun s x => s.podOdd c.key a.num x) s).podCounter c.key (c.arrs, a.num)) := by
  unfold State.podCount
  simp only [hb, back, head]
  exact if_neg (Nat.not_le.2 room)

theorem podCount_more {as_ : List PodArr} {e : Nat} (back : c.back = false) (hb : Tab.find s.svc.podBars c.key = some (as_, e)) :
    s.podCount c = some ((c.arrs.foldl (fun s x => s.podOdd c.key e x) s).podCounter c.key (as_ ++ c.arrs, e)) := by
  unfold State.podCount
  simp only [hb, back]
  rfl

end

/-- An arrival with its generation's number, or of another package, makes no event here. -/
theorem podOdd_even {s : State} {key exp : Nat} {a : PodArr} (h : a.num = exp ∨ a.member ≠ s.member) : s.podOdd key exp a = s :=
  if_pos (by simpa using h)

theorem podOdd_odd {s : State} {key exp : Nat} {a : PodArr} (num : a.num ≠ exp) (own : a.member = s.member) : s.podOdd key exp a =
    s.postEvent a.ctx 0x04 a.pid a.rel a.die [BitVec.ofNat 64 (key % 256), 5, BitVec.ofNat 64 exp, BitVec.ofNat 64 a.num] :=
  if_neg (by simp [num, own])

theorem podOdd_each_even {s : State} {key exp : Nat} {l : List PodArr} (h : ∀ x ∈ l, x.num = exp ∨ x.member ≠ s.member) :
    l.foldl (fun s x => s.podOdd key exp x) s = s :=
  List.foldlRecOn (motive := (· = s)) _ _ rfl fun t ht x hx => by
    rw [ht, podOdd_even (h x hx)]

/-! ### Which message is applied -/

section
variable {s : State} (idle : s.bus.nums = [])
include idle

theorem podCountMessage_none (h : s.svc.countOut = []) : exec .podCountMessage s = .next s := by
  show execPodCountMessage s = _
  simp [execPodCountMessage, idle, h]

variable {c : CountMsg} {rest : List CountMsg} (hc : s.svc.countOut = c :: rest)
include hc

/-- The oldest goes first if it can be applied. -/
theorem podCountMessage_oldest {t : State} (ht : s.podCount c = some t) (left : t.svc.countOut = s.svc.countOut) :
    exec .podCountMessage s = .next { t with svc := { t.svc with countOut := rest } } := by
  show execPodCountMessage s = _
  simp [execPodCountMessage, idle, hc, left, ht, List.findIdx?_cons]

theorem podCountMessage_alone (alone : rest = []) (waits : s.podCount c = none) : exec .podCountMessage s = .next s := by
  subst alone
  show execPodCountMessage s = _
  simp [execPodCountMessage, idle, hc, waits, List.findIdx?_cons]

/-- The next one, for another barrier, goes before one that waits. -/
theorem podCountMessage_next {g : CountMsg} {more : List CountMsg} {t : State} (hr : rest = g :: more) (waits : s.podCount c = none)
    (other : g.key ≠ c.key) (ht : s.podCount g = some t) (left : t.svc.countOut = s.svc.countOut) :
    exec .podCountMessage s = .next { t with svc := { t.svc with countOut := c :: more } } := by
  subst hr
  show execPodCountMessage s = _
  simp [execPodCountMessage, idle, hc, left, waits, ht, List.findIdx?_cons, other.symm]

end

/-! ### A release reaches the package (R366) -/

section
variable {s : State}

/-- The barrier that the bus names. -/
def State.busBar (s : State) : Barrier := (Tab.find (s.die 0).bars (s.bus.a * 256 + s.bus.b)).getD {}

/-- The synchronisation word of an arrival that was counted before a freeze withdrew it ends. -/
def State.endLate (s : State) (m : Cmd) : State :=
  let t : State := { s with dies := s.dies.map (fun (x : Die) => x.withdrawWait m.id) }
  ((t.modCore m.core (fun k => { k with out := k.out.filter (fun x => x.id != m.id) })).acq m).syncEnd m

theorem podRelease_eq : exec .podRelease s = .next
    (((s.pens.flatMap (·.syncs)).filter (fun m => s.bus.nums.contains m.id && !s.busBar.waiting.any (fun x => x.id = m.id))).foldl
      State.endLate (if s.busBar.count = 0 then s else s.barRelease 0 (s.bus.a * 256 + s.bus.b))) := rfl

/-- Where no counted arrival is named, the release is that of those who wait. -/
theorem podRelease_waiting (h : s.bus.nums = []) : exec .podRelease s =
    .next (if s.busBar.count = 0 then s else s.barRelease 0 (s.bus.a * 256 + s.bus.b)) := by
  rw [podRelease_eq, h]
  simp

/-- A package that waits for one word alone, which is among those counted. -/
theorem podRelease_late {m : Cmd} (h : s.bus.nums = [m.id]) (none_ : Tab.find (s.die 0).bars (s.bus.a * 256 + s.bus.b) = none)
    (only : s.pens.flatMap (·.syncs) = [m]) : exec .podRelease s = .next (s.endLate m) := by
  have bar : s.busBar = {} := by rw [State.busBar, none_]; rfl
  rw [podRelease_eq, h, only, bar]
  simp

theorem endLate_pens {m : Cmd} (ho : m.o.ord = .none) :
    (s.endLate m).pens = s.pens.set m.pen { s.pen m.pen with syncs := (s.pen m.pen).syncs.filter (fun c => c.id != m.id) } := by
  unfold State.endLate
  dsimp only
  rw [acq_unordered ho]
  rfl

/-- Where one word is all that any pen waits for, no pen but its own waits. -/
theorem pens_of_only {m : Cmd} (only : s.pens.flatMap (·.syncs) = [m]) (hm : m ∈ (s.pen m.pen).syncs) :
    ∃ pre post, s.pens = pre ++ s.pen m.pen :: post ∧ pre.length = m.pen ∧ ∀ p ∈ pre ++ post, p.syncs = [] := by
  have lt : m.pen < s.pens.length := by
    by_contra ge
    simp [State.pen, Nat.le_of_not_lt ge] at hm
  have at_ : s.pen m.pen = s.pens[m.pen] := by simp [State.pen, lt]
  have split_ : s.pens = s.pens.take m.pen ++ s.pen m.pen :: s.pens.drop (m.pen + 1) := by
    rw [at_, List.getElem_cons_drop, List.take_append_drop]
  refine ⟨_, _, split_, by simp; omega, ?_⟩
  generalize s.pens.take m.pen = pre at split_
  generalize s.pens.drop (m.pen + 1) = post at split_
  have counts := congrArg List.length only
  rw [split_, List.flatMap_append, List.flatMap_cons, List.length_append, List.length_append, List.length_singleton] at counts
  have own := List.length_pos_of_mem hm
  have none_ : ∀ l : List Pen, (l.flatMap (·.syncs)).length = 0 → ∀ p ∈ l, p.syncs = [] := fun l hl p hp =>
    List.flatMap_eq_nil_iff.1 (List.length_eq_zero_iff.1 hl) p hp
  intro p hp
  rcases List.mem_append.1 hp with h | h
  · exact none_ pre (by omega) p h
  · exact none_ post (by omega) p h

theorem endLate_syncs {m : Cmd} (ho : m.o.ord = .none) (only : s.pens.flatMap (·.syncs) = [m]) (hm : m ∈ (s.pen m.pen).syncs) :
    ∀ p ∈ (s.endLate m).pens, ∀ x ∈ p.syncs, x.id ≠ m.id := by
  obtain ⟨pre, post, split_, len, others⟩ := pens_of_only only hm
  intro p hp x hx
  rw [endLate_pens ho, split_, ← len, List.set_append_right _ _ (Nat.le_refl _), Nat.sub_self, List.set_cons_zero] at hp
  rcases List.mem_append.1 hp with h | h
  · rw [others p (List.mem_append_left _ h)] at hx
    cases hx
  · rcases List.mem_cons.1 h with rfl | h
    · simpa using (List.mem_filter.1 hx).2
    · rw [others p (List.mem_append_right _ h)] at hx
      cases hx

end

/-! ### A flush is answered (R364) -/

theorem hasTag_iff (s : State) (tag : Nat) :
    s.hasTag tag = true ↔ ∃ x ∈ s.ctxs, x.2.w[2].getLsbD 63 = true ∧ x.2.w[7].toNat % 2 ^ 16 = tag := by
  simp only [State.hasTag, List.any_eq_true, Bool.and_eq_true, decide_eq_true_eq, ctx_en, bitsOf_zero]

theorem outsideApplied_iff (s : State) (m id : Nat) :
    s.outsideApplied m id = false ↔ ∃ d : Fin 4, ∃ e ∈ s.dies[d].remote, (m, id) ∈ e.flush := by
  simp only [State.outsideApplied, List.all_eq_false, Vector.mem_toList_iff, Bool.not_eq_true, Bool.not_eq_false',
    List.contains_iff_mem]
  constructor
  · rintro ⟨x, hx, e, he, hf⟩
    obtain ⟨i, hi, rfl⟩ := Vector.mem_iff_getElem.1 hx
    exact ⟨⟨i, hi⟩, e, he, hf⟩
  · rintro ⟨d, e, he, hf⟩
    exact ⟨s.dies[d], Vector.getElem_mem d.isLt, e, he, hf⟩

/-- May the flush be answered now? -/
def State.flushDue (s : State) (f : Nat × Nat × Nat × List Nat) : Bool :=
  s.links.all (fun l => f.2.2.2.contains l) && (!s.hasTag f.2.2.1 || s.outsideApplied f.1 f.2.1)

theorem flushDue_iff (s : State) (f : Nat × Nat × Nat × List Nat) : s.flushDue f = false ↔
    (∃ l ∈ s.links, l ∉ f.2.2.2) ∨
      ((∃ x ∈ s.ctxs, x.2.w[2].getLsbD 63 = true ∧ x.2.w[7].toNat % 2 ^ 16 = f.2.2.1) ∧
        ∃ d : Fin 4, ∃ e ∈ s.dies[d].remote, (f.1, f.2.1) ∈ e.flush) := by
  rw [← hasTag_iff, ← outsideApplied_iff, State.flushDue, Bool.and_eq_false_iff, Bool.or_eq_false_iff, Bool.not_eq_false']
  simp

theorem podFlush_none {s : State} (h : ∀ f ∈ s.svc.flushIn, s.flushDue f = false) : exec .podFlush s = .next s := by
  have none_ : s.svc.flushIn.find? s.flushDue = none := List.find?_eq_none.2 fun f hf => by simp [h f hf]
  show execPodFlush s = _
  unfold execPodFlush
  unfold State.flushDue at none_
  simp only [none_]

/-- The oldest that is due is answered, and stands no more among those to answer. -/
theorem podFlush_first {s : State} {f : Nat × Nat × Nat × List Nat} {pre post : List (Nat × Nat × Nat × List Nat)}
    (hf : s.svc.flushIn = pre ++ f :: post) (before : ∀ g ∈ pre, s.flushDue g = false) (due : s.flushDue f = true) :
    exec .podFlush s = .next { s with svc := { s.svc with
      flushIn := pre ++ post, flitOut := s.svc.flitOut ++ [[s.linkTo f.1, 2, s.member, f.2.1]] } } := by
  have found : s.svc.flushIn.find? s.flushDue = some f :=
    List.find?_eq_some_iff_append.2 ⟨due, pre, post, hf, fun g hg => by simp [before g hg]⟩
  have new : f ∉ pre := fun h => by simp [before f h] at due
  have erased : s.svc.flushIn.erase f = pre ++ post := by rw [hf, List.erase_append_right _ new, List.erase_cons_head]
  show execPodFlush s = _
  unfold execPodFlush
  unfold State.flushDue at found
  simp only [found, erased]
  rfl

end Sys2Proof.Machine
end

section
/-! PROOFS. Events from outside, settled (R295, R296, R348, R352, R362 to R366). -/

namespace Sys2Proof.Machine

open Sys2Proof

/-! ### Count messages from the oldest on (R366) -/

section
variable {s : State} (idle : s.bus.nums = []) {c : CountMsg} {rest : List CountMsg} (hc : s.svc.countOut = c :: rest)
include idle hc

/-- A message that makes no event here: its arrivals join those counted. -/
theorem podCountMessage_counts {b : List PodArr × Nat} (ht : s.podCount c = some (s.podCounter c.key b)) :
    exec .podCountMessage s = .next (let t := s.podCounter c.key b
      { t with svc := { t.svc with countOut := rest } }) := by
  refine podCountMessage_oldest idle hc ht ?_
  unfold State.podCounter
  dsimp only
  repeat' split
  all_goals rfl

theorem podCountMessage_below {b : List PodArr × Nat} (ht : s.podCount c = some (s.podCounter c.key b)) (few : b.1.length < b.2) :
    exec .podCountMessage s = .next { s with svc := { s.svc with podBars := Tab.put s.svc.podBars c.key b, countOut := rest } } := by
  rw [podCountMessage_counts idle hc ht, podCounter_below few]

theorem podCountMessage_full {b : List PodArr × Nat} (ht : s.podCount c = some (s.podCounter c.key b)) (all : b.2 ≤ b.1.length) :
    exec .podCountMessage s = .next { s with
      svc := { s.svc with podBars := Tab.del s.svc.podBars c.key, countOut := rest }
      todo := s.todo ++ (if b.1.filter (fun a => a.member = s.member) = [] then []
        else [.ev .podRelease { a := c.key / 256, b := c.key % 256, nums := (b.1.filter (fun a => a.member = s.member)).map (·.id) }]) } := by
  rw [podCountMessage_counts idle hc ht, podCounter_full all]

theorem podCountMessage_withdraws {as_ : List PodArr} {e : Nat} (back : c.back = true)
    (hb : Tab.find s.svc.podBars c.key = some (as_, e)) : exec .podCountMessage s = .next { s with svc := { s.svc with
      podBars := Tab.put s.svc.podBars c.key (as_.filter (fun a => ¬ ∃ x ∈ c.arrs, x.member = a.member ∧ x.id = a.id), e)
      countOut := rest } } := by
  rw [podCountMessage_oldest idle hc (podCount_withdraws back hb) rfl]
  have same : ∀ a : PodArr, (!c.arrs.any (fun x => x.member = a.member && x.id = a.id)) =
      decide (¬ ∃ x ∈ c.arrs, x.member = a.member ∧ x.id = a.id) := fun a => by
    rw [Bool.eq_iff_iff]
    simp
  simp only [same]

/-- An arrival of this package that names another number: it counts all the same, and an event is posted. -/
theorem podCountMessage_odd {a : PodArr} {as_ : List PodArr} {e : Nat} (back : c.back = false)
    (hb : Tab.find s.svc.podBars c.key = some (as_, e)) (one : c.arrs = [a]) (num : a.num ≠ e) (own : a.member = s.member)
    (few : as_.length + 1 < e) :
    let t := s.postEvent a.ctx 0x04 a.pid a.rel a.die [BitVec.ofNat 64 (c.key % 256), 5, BitVec.ofNat 64 e, BitVec.ofNat 64 a.num]
    exec .podCountMessage s = .next { t with svc := { t.svc with
      podBars := Tab.put s.svc.podBars c.key (as_ ++ [a], e), countOut := rest } } := by
  intro t
  have kept : t.svcKept = s.svcKept := postEvent_svcKept ..
  have bars : t.svc.podBars = s.svc.podBars := (congrArg Service.podBars kept :)
  have out : t.svc.countOut = s.svc.countOut := (congrArg Service.countOut kept :)
  have counted : s.podCount c = some (t.podCounter c.key (as_ ++ [a], e)) := by
    rw [podCount_more back hb, one, List.foldl_cons, List.foldl_nil, podOdd_odd num own]
  rw [podCounter_below (by simpa using few), bars] at counted
  exact podCountMessage_oldest idle hc counted out

end

/-- Settles O60: a flit by its number and its kind, an access of the host by its direction, a count message by what its barrier's counter
holds, and a flush by the writes before it. -/
theorem outsideEvents : Obligations.OutsideEvents := by
  unfold Obligations.OutsideEvents
  intro s
  dsimp only
  refine ⟨⟨?untrained, ?bad, ?repeated, ?due⟩, deliverFlit_release s, fun link n => deliverFlit_again s link n, fun _ => rfl,
    ?answered, ?read, fun link key sign n exp m rest => deliverFlit_count s link _, fun link m id x hx => deliverFlit_answer s link hx,
    ?flush, ?hidden, ?poisoned, ?exported, ⟨?offline, ?hostPoison, ?host⟩, ?lineLost, ?within, ?arrivals, ?withdrawals, ?received,
    ?switch, ?release, ?noBarrier, ?late, ?noMessage, ?missing, ?waits, ?answers⟩
  case untrained => exact fun h => ⟨s, flitReceive_untrained h, rfl⟩
  case bad => exact fun link trained h => ⟨_, flitReceive_bad link trained (h.imp_left (mt (flitGood_iff _).1)), rfl⟩
  case repeated => exact fun link trained good old => ⟨s, flitReceive_repeated link trained ((flitGood_iff _).2 good) old, rfl⟩
  case due => exact fun link trained good here => ⟨_, flitReceive_next link trained ((flitGood_iff _).2 good) here, rfl⟩
  case answered =>
    intro link m id code detail x data hx h
    exact (deliverFlit_reply s link m id code detail data).trans (peerAnswer_bare hx h detail data)
  case read =>
    intro link m id x data hx h plain wf
    rw [deliverFlit_reply]
    refine ⟨?_, peerAnswer_read_get hx h plain wf data⟩
    rw [peerAnswer_read_svc hx h]
    exact tab_find_put_self _ _ _
  case flush =>
    intro link m id tag
    rw [deliverFlit_flush, ← flushLinks_eq]
    refine ⟨rfl, ?_, fun f => flushArrives_others s link m id tag, fun d e he => (flushArrives_remote s link m id tag he).1,
      fun all d e he => (flushArrives_remote s link m id tag he).2 all⟩
    rw [flushArrives_flushIn]
    exact List.mem_append_right _ List.mem_cons_self
  case hidden =>
    intro link m id tag ofs n h no
    rw [deliverFlit_read s link h, peerRead_hidden s m id tag ofs n no]
  case poisoned =>
    intro link m id tag ofs n h yes bad
    rw [deliverFlit_read s link h, peerRead_poison s m id tag ofs n yes ((poisonAt_iff ..).2 bad), linkTo_ueMet]
    refine ⟨_, rfl, ?_⟩
    rw [State.sendFlit, ueMet_svc]
  case exported =>
    intro link m id tag ofs n h yes plain sound
    have clear : poisonAt s.poison ofs n = false := by
      rw [← Bool.not_eq_true, poisonAt_iff]
      exact fun ⟨k, hk, here⟩ => sound k hk here
    rw [deliverFlit_read s link h, peerRead_plain s m id tag ofs n yes clear plain]
  case offline =>
    rintro ⟨off, device⟩
    exact ⟨s, cxlMemAccess_offline ((offline_iff s).2 off) ((bitAt_eq_testBit _ _).trans device), rfl⟩
  case hostPoison =>
    intro on bad reads
    rw [← offline_iff, ← bitAt_eq_testBit] at on
    exact ⟨_, cxlMemAccess_poison on ((poisonAt_iff ..).2 bad) reads, rfl, ueMet_mem s _⟩
  case host =>
    intro on sound outside plain
    rw [← offline_iff, ← bitAt_eq_testBit] at on
    have run := cxlMemAccess_sound on (fun bad => sound ((poisonAt_iff ..).1 bad))
    rw [hostOld_plain plain outside] at run
    refine ⟨fun a => ⟨_, by rw [run, if_pos a], rfl⟩, fun a wf => ?write, fun a wf => ?add⟩
    case write =>
      rw [if_neg (by omega), if_neg (by omega)] at run
      have same := sameUnits_hostStore s s.bus.data
      exact ⟨_, run, same.cores, same.pens, hostStore_get plain wf outside _, fun k hk => physWrite_clears hk⟩
    case add =>
      rw [if_neg (by omega), if_pos a] at run
      rw [hostAdd, List.length_map, List.length_range] at run
      have same := sameUnits_hostStore s
        (leBytes s.bus.b (leNat ((List.range s.bus.b).map (fun i => s.mem.get (s.bus.c + i))) + s.bus.w.toNat))
      refine ⟨_, run, rfl, same.cores, same.pens, fun k => (hostStore_get plain wf outside _ k).trans ?_⟩
      rw [leBytes_length]
  case lineLost =>
    refine ⟨_, rfl, ?_, fun l hl other => ?_, fun d hd n hn => ?_, rfl⟩
    · simp
    · exact List.mem_filter.2 ⟨hl, by simpa using other⟩
    · exact List.mem_append_right _ (cacheLineLoss_wakes s hd hn)
  case within => exact fun h => ⟨s, countMessageSend_within h, rfl⟩
  case arrivals =>
    intro key as_ h gathered some_
    refine ⟨_, countMessageSend_one h gathered, ?_⟩
    rw [sendCount_none (c := { key := key, back := true, arrs := [] }) rfl, sendCount_some some_]
    rfl
  case withdrawals =>
    intro key as_ h gathered some_
    refine ⟨_, countMessageSend_one h gathered, ?_⟩
    rw [sendCount_none (c := { key := key, arrs := [] }) rfl, sendCount_some some_]
    rfl
  case received =>
    intro key sign n exp m ids h hn
    subst hn
    refine ⟨_, podCountMessage_received (by rw [h]; simp), ids.map (fun id => { member := m, id := id, num := exp }), ?_, by simp, by simp,
      (List.map_map ..).trans (List.map_id ids)⟩
    rw [h, ← ofNums_arrs key sign exp m ids]
    rfl
  case switch =>
    intro idle c rest hc
    refine ⟨fun a back hb room head same => ?first, fun as_ e back hb even => ?later, fun a as_ e back hb one num own few => ?odd,
      fun as_ e back hb => ?withdraw, fun back hb => ?gone, fun back hb full => ?full⟩
    case first =>
      have ht := podCount_first back hb room head
      rw [podOdd_each_even (fun x hx => .inl (same x hx))] at ht
      exact ⟨fun few => ⟨_, podCountMessage_below idle hc ht few, ⟨rfl, rfl, rfl⟩, rfl⟩,
        fun all => ⟨_, podCountMessage_full idle hc ht all, ⟨rfl, rfl, rfl⟩, rfl⟩⟩
    case later =>
      have ht := podCount_more back hb
      rw [podOdd_each_even even] at ht
      refine ⟨fun few => ⟨_, podCountMessage_below idle hc ht (by simpa using few), ⟨rfl, rfl, rfl⟩, rfl⟩,
        fun all => ⟨_, podCountMessage_full idle hc ht (by simpa using all), rfl, rfl, rfl⟩⟩
    case odd => exact ⟨_, podCountMessage_odd idle hc back hb one num own few, rfl, rfl, rfl, rfl⟩
    case withdraw => exact ⟨_, podCountMessage_withdraws idle hc back hb, ⟨rfl, rfl, rfl⟩, rfl⟩
    case gone => exact ⟨_, podCountMessage_oldest idle hc (podCount_released back hb) rfl, ⟨rfl, rfl, rfl⟩, rfl⟩
    case full =>
      have waits := podCount_waits back hb full
      exact ⟨fun alone => ⟨s, podCountMessage_alone idle hc alone waits, rfl⟩, fun g more as_ e hr gback other hg =>
        ⟨_, podCountMessage_next idle hc hr waits other (podCount_withdraws gback hg) rfl, rfl⟩⟩
  case release =>
    intro b idle hb some_ ho
    have bar : s.busBar = b := by rw [State.busBar, hb]; rfl
    rw [podRelease_waiting idle, bar, if_neg some_]
    refine ⟨_, rfl, ?_, barRelease_syncs hb ho⟩
    rw [die_barRelease hb ho (by decide)]
    exact tab_find_put_self _ _ _
  case noBarrier =>
    intro idle hb
    have bar : s.busBar = {} := by rw [State.busBar, hb]; rfl
    exact ⟨s, by rw [podRelease_waiting idle, bar]; rfl, rfl⟩
  case late => exact fun m h hb only hm ho => ⟨_, podRelease_late h hb only, endLate_syncs ho only hm⟩
  case noMessage => exact fun idle h => ⟨s, podCountMessage_none idle h, rfl⟩
  case missing => exact fun h => ⟨s, podFlush_none (fun f hf => (flushDue_iff s f).2 (.inl (h f hf))), rfl⟩
  case waits => exact fun h => ⟨s, podFlush_none (fun f hf => (flushDue_iff s f).2 (h f hf)), rfl⟩
  case answers =>
    intro f pre post hf before due
    rw [← flushDue_iff, Bool.not_eq_false] at due
    exact ⟨_, podFlush_first hf (fun g hg => (flushDue_iff s g).2 (before g hg)) due, rfl⟩

end Sys2Proof.Machine
end

section
/-! PROOFS. What a store to memory, a fault record and the reading of an image leave of the rest of the part (R343, R348). -/

namespace Sys2Proof.Machine

open Sys2Proof

/-- At most memory with its marks, the dies' views and counters, the translations held, the fault buffer, the flits that have left and the
count of free values differ. -/
def StoredOnly (s t : State) : Prop :=
  t = { s with mem := t.mem, poison := t.poison, crypt := t.crypt, dies := t.dies, tlb := t.tlb, svc := t.svc,
               faults := t.faults, fwptr := t.fwptr, fresh := t.fresh }

theorem StoredOnly.refl (s : State) : StoredOnly s s := rfl

theorem StoredOnly.trans {s t u : State} (a : StoredOnly s t) (b : StoredOnly t u) : StoredOnly s u :=
  Eq.trans (b : u = _) (congrArg (fun x : State => { x with
    mem := u.mem, poison := u.poison, crypt := u.crypt, dies := u.dies, tlb := u.tlb, svc := u.svc,
    faults := u.faults, fwptr := u.fwptr, fresh := u.fresh }) (a : t = _) :)

theorem StoredOnly.foldl {α : Type} {f : State → α → State} (hf : ∀ s x, StoredOnly s (f s x)) (xs : List α) (s : State) :
    StoredOnly s (xs.foldl f s) := by
  induction xs generalizing s with
  | nil => exact .refl s
  | cons x xs ih => exact (hf s x).trans (ih (f s x))

theorem NotedOnly.stored {s t : State} (h : NotedOnly s t) : StoredOnly s t := by
  unfold NotedOnly at h
  rw [h]
  rfl

section
variable {s t : State} (h : StoredOnly s t)
include h

theorem StoredOnly.units : SameUnits s t := ⟨(congrArg State.cores h :), (congrArg State.pens h :)⟩

theorem StoredOnly.entries : t.entries = s.entries := (congrArg State.entries h :)

theorem StoredOnly.keyBound (ctx : Nat) : t.keyBound ctx = s.keyBound ctx :=
  (congrArg (fun x : State => x.keyBound ctx) h :)

end

theorem storedOnly_physWrite (s : State) (w : Option Agent) (key : Nat) (cells : List (Nat × Byte)) :
    StoredOnly s (s.physWrite w key cells) := by
  have stored (m : Mem) (cr : Tab Nat) (po : List Nat) (ds : Vector Die 4) :
      StoredOnly s { s with mem := m, crypt := cr, poison := po, dies := ds } := rfl
  unfold State.physWrite
  extract_lets
  split
  · split
    · exact (stored ..).trans (((notedOnly_countDie _ _ _ _).trans (notedOnly_dieFlits _ _ _ _)).stored)
    · exact (stored ..).trans (notedOnly_countDie _ _ _ _).stored
  · exact stored ..

theorem storedOnly_peerWrite (s : State) (ctx : Nat) (pas : List Nat) : StoredOnly s (s.peerWrite ctx pas) :=
  .foldl (fun s _ => (notedOnly_peerFlit s _ _ _ _).stored) _ s

theorem storedOnly_writePlaces {s t : State} {w : Option Agent} {ctx : Nat} {pl : List (Nat × Nat)} {bs : List Byte}
    (h : s.writePlaces w ctx pl bs = .ok t) : StoredOnly s t := by
  unfold State.writePlaces at h
  extract_lets at h
  split at h <;> cases h
  refine (storedOnly_physWrite s w _ _).trans (.foldl (fun s m => ?_) _ _)
  split
  · exact storedOnly_physWrite s w _ _
  · exact .refl s

theorem storedOnly_vwriteBy {s t : State} {w : Option Agent} {ctx va : Nat} {acc : Acc} {bs : List Byte}
    (h : s.vwriteBy w ctx va acc bs = .ok t) : StoredOnly s t := by
  unfold State.vwriteBy at h
  split at h
  · cases h
  · next pl _ =>
    cases hw : s.writePlaces w ctx pl bs with
    | error e => rw [hw] at h; cases h
    | ok u => rw [hw] at h; cases h; exact (storedOnly_writePlaces hw).trans (storedOnly_peerWrite u ctx _)

theorem storedOnly_recordFault (s : State) (w : Who) (va : Nat) (x : XFault) (park : Bool) :
    StoredOnly s (s.recordFault w va x park).1 := by
  have counted : StoredOnly s (s.countDie w.die 13 1) := (notedOnly_countDie s _ _ _).stored
  unfold State.recordFault
  split
  · exact .refl s
  · extract_lets
    split
    · exact counted.trans rfl
    · exact counted.trans ((storedOnly_physWrite _ none 0 _).trans rfl)

theorem storedOnly_ueMet (s : State) (d : Nat) : StoredOnly s (s.ueMet d) := by
  unfold State.ueMet State.errCount
  exact (notedOnly_modDie s d _).stored

/-- The loader reads an image, or records why it cannot (R344). -/
theorem storedOnly_fetchPlane (s : State) (w : Who) (va cores : Nat) : StoredOnly s (s.fetchPlane w va cores).1 := by
  unfold State.fetchPlane
  extract_lets failed
  have fails (x : XFault) (a core col slot : Nat) : StoredOnly s (failed s x a core col slot).1 := by
    dsimp only [failed]
    split
    · exact storedOnly_ueMet s _
    · exact storedOnly_recordFault s w a x false
  clear_value failed
  split
  · exact fails ..
  extract_lets
  split
  · exact .refl s
  split
  · exact fails ..
  · exact (notedOnly_imageNote s w va _).stored

end Sys2Proof.Machine
end

section
/-! PROOFS. The shepherd's rows about an entry, and how an entry that completes is written: O54 (R320, R321, R323, R335, R355). -/

namespace Sys2Proof.Machine

open Sys2Proof

/-! ### The entry of a row -/

theorem entry_own {s : State} {q n : Nat} {e : Entry} (h : s.entry? q n = some e) : e.qid = q ∧ e.seq = n := by
  simpa using List.find?_some h

theorem entry_congr {s t : State} (h : t.entries = s.entries) (q n : Nat) : t.entry? q n = s.entry? q n := by
  rw [State.entry?, h, State.entry?]

/-- A change of an entry that keeps its name is found under that name. -/
theorem entry_modEntry (s : State) (q n : Nat) {f : Entry → Entry} (hf : ∀ e, (f e).qid = e.qid ∧ (f e).seq = e.seq) :
    (s.modEntry q n f).entry? q n = (s.entry? q n).map f := by
  have named : (fun e : Entry => decide (e.qid = q) && decide (e.seq = n)) ∘
      (fun e : Entry => if decide (e.qid = q) && decide (e.seq = n) then f e else e) =
      fun e => decide (e.qid = q) && decide (e.seq = n) := by
    funext e
    rw [Function.comp_apply]
    split
    · rw [(hf e).1, (hf e).2]
    · rfl
  unfold State.entry? State.modEntry
  rw [List.find?_map, named]
  cases found : s.entries.find? _ with
  | none => rfl
  | some e => exact congrArg some (if_pos (List.find?_some found))

section
variable {s : State}

theorem entryRow_none (h : s.entry? s.bus.a s.bus.b = none) (f : State → Entry → State) : s.entryRow f = .next s := by
  simp only [State.entryRow, h]

section
variable {e : Entry} (h : s.entry? s.bus.a s.bus.b = some e)
include h

theorem entryRow_parked (parked : e.parked ≠ none) (f : State → Entry → State) : s.entryRow f = .next s := by
  simp only [State.entryRow, h, if_pos (Option.isSome_iff_ne_none.2 parked)]

theorem entryRow_keyGuard (parked : e.parked = none) (res : e.res = none) (f : State → Entry → State) :
    s.entryRow f = s.keyGuard 0 e.ctx (f s e) := by
  simp [State.entryRow, h, parked, res]

end

/-- A row about an entry at work does what its command says. -/
theorem entryRow_atWork {e : Entry} (h : AtWork s e) (f : State → Entry → State) : s.entryRow f = .next (f s e) := by
  obtain ⟨named, parked, res, bound⟩ := h
  rw [entryRow_keyGuard named parked res, keyGuard_bound bound]

theorem AtWork.named {e : Entry} (h : AtWork s e) : s.entry? e.qid e.seq = some e := by
  obtain ⟨q, n⟩ := entry_own h.1
  rw [q, n]
  exact h.1

end

/-- Each row about an entry is one of its command's steps, guarded alike. -/
theorem exec_entryRows {i : Instr} (hi : i ∈ entryRows) : ∃ f, ∀ s, exec i s = s.entryRow f := by
  simp only [entryRows, List.mem_cons, List.not_mem_nil, or_false] at hi
  rcases hi with rfl | rfl | rfl | rfl | rfl | rfl | rfl | rfl | rfl | rfl | rfl | rfl
  all_goals exact ⟨_, fun _ => rfl⟩

/-! ### An entry leaves the shepherd (R320) -/

/-- The shepherd without an entry, its queue's COMPSEQ at `c` and the entries of `comp` above it complete. -/
def State.withoutEntry (s : State) (e : Entry) (c : Nat) (comp : List Nat) : State :=
  let t := s.modQueue e.qid (fun q => { q with compseq := BitVec.ofNat 64 c, comp := comp.filter (fun n => decide (c < n)) })
  { t with
    entries := t.entries.filter (fun y => !(decide (y.qid = e.qid) && decide (y.seq = e.seq)))
    dones := t.dones.filter (fun d => d.cmd.host != some (e.qid, e.seq)) }

section
variable (s : State) (e : Entry) (c : Nat) (comp : List Nat)

theorem withoutEntry_mem : (s.withoutEntry e c comp).mem = s.mem := rfl

theorem withoutEntry_units : SameUnits s (s.withoutEntry e c comp) := ⟨rfl, rfl⟩

theorem withoutEntry_todo : (s.withoutEntry e c comp).todo = s.todo := rfl

theorem withoutEntry_entry : (s.withoutEntry e c comp).entry? e.qid e.seq = none := by
  unfold State.entry? State.withoutEntry
  rw [List.find?_eq_none]
  intro y hy
  simpa [imp_iff_not_or] using (List.mem_filter.1 hy).2

theorem withoutEntry_queue : (s.withoutEntry e c comp).queue e.qid =
    { s.queue e.qid with compseq := BitVec.ofNat 64 c, comp := comp.filter (fun n => decide (c < n)) } :=
  queue_setQueue_self s e.qid _

end

/-! ### An entry is written out (R320, R321, R355) -/

theorem compUp_next (c : Nat) : compUp c [c + 1] 1 = c + 1 := by
  simp [compUp]

theorem compUp_stays {c n : Nat} (h : c + 1 ≠ n) : compUp c [n] 1 = c := by
  simp [compUp, h]

section
variable {s : State} {e : Entry} {code detail aux : Nat} {value : W64} (quiet : (e.word 0).getLsbD 49 = false)
include quiet

theorem event_unasked : bitAt (e.word 0).toNat 49 = false := (bitAt_toNat _ 49).trans quiet

/-- Under a key slot of another context the alarm is all that is left of the writes. -/
theorem finishEntry_unbound (unbound : s.keyBound e.ctx = false) : ∃ c comp more, Turn.ev .alarmClassB { a := e.ctx, b := 0 } ∈ more ∧
    s.finishEntry e (code, detail, aux, value) = { s with todo := s.todo ++ more }.withoutEntry e c comp := by
  have twice : (s.alarmB 0 e.ctx).keyBound e.ctx = false := unbound
  have silent := event_unasked quiet
  let comp := (s.queue e.qid).comp ++ [e.seq]
  let alarm := Turn.ev .alarmClassB { a := e.ctx, b := 0 }
  by_cases same : compUp (s.queue e.qid).compseq.toNat comp comp.length = (s.queue e.qid).compseq.toNat
  · refine ⟨compUp (s.queue e.qid).compseq.toNat comp comp.length, comp, [alarm], List.mem_singleton_self _, ?_⟩
    simp only [comp] at same ⊢
    simp only [State.finishEntry, unbound, silent, same, Bool.not_false, if_true, Bool.false_eq_true, if_false]
    rfl
  · refine ⟨compUp (s.queue e.qid).compseq.toNat comp comp.length, comp, [alarm, alarm], List.mem_cons_self, ?_⟩
    simp only [comp] at same ⊢
    have both : (s.alarmB 0 e.ctx).alarmB 0 e.ctx = { s with todo := s.todo ++ [alarm, alarm] } := by
      simp [State.alarmB, alarm]
    simp only [State.finishEntry, unbound, silent, same, twice, Bool.not_false, if_true, Bool.false_eq_true, if_false, both]
    rfl

variable (small : code < 256 ∧ detail < 256 ∧ aux < 2 ^ 48) (bound : s.keyBound e.ctx = true) (alone : (s.queue e.qid).comp = []) {s1 : State}
  (status : s.vwrite e.ctx ((s.queue e.qid).slotVa e.seq + 48)
    (leBytes 8 value.toNat ++ leBytes 8 (statusWord code detail aux).toNat) = .ok s1)
include small bound alone status

/-- Every entry below it has completed: COMPSEQ follows the status words. -/
theorem finishEntry_next {s2 : State} (next_ : e.seq = (s.queue e.qid).compseq.toNat + 1)
    (compseq : s1.vwrite e.ctx (s.queue e.qid).w1.toNat (leBytes 8 e.seq) = .ok s2) :
    s.finishEntry e (code, detail, aux, value) = s2.withoutEntry e e.seq [e.seq] := by
  obtain ⟨hc, hd, ha⟩ := small
  unfold statusWord at status
  have still : s1.keyBound e.ctx = true := ((storedOnly_vwriteBy status).keyBound e.ctx).trans bound
  have up : compUp (s.queue e.qid).compseq.toNat [e.seq] 1 = e.seq := by rw [next_, compUp_next]
  have rises : e.seq ≠ (s.queue e.qid).compseq.toNat := by omega
  have silent := event_unasked quiet
  simp only [State.finishEntry, alone, List.nil_append, List.length_singleton, Nat.mod_eq_of_lt hc, Nat.mod_eq_of_lt hd,
    Nat.mod_eq_of_lt ha, bound, still, up, rises, status, compseq, silent, Bool.not_true, Bool.false_eq_true, if_false]
  rfl

/-- An entry below it has not completed: it is noted. -/
theorem finishEntry_above (above : (s.queue e.qid).compseq.toNat + 1 < e.seq) :
    s.finishEntry e (code, detail, aux, value) = s1.withoutEntry e (s.queue e.qid).compseq.toNat [e.seq] := by
  obtain ⟨hc, hd, ha⟩ := small
  unfold statusWord at status
  have up : compUp (s.queue e.qid).compseq.toNat [e.seq] 1 = (s.queue e.qid).compseq.toNat := compUp_stays (by omega)
  have silent := event_unasked quiet
  simp only [State.finishEntry, alone, List.nil_append, List.length_singleton, Nat.mod_eq_of_lt hc, Nat.mod_eq_of_lt hd,
    Nat.mod_eq_of_lt ha, bound, up, status, silent, Bool.not_true, Bool.false_eq_true, if_false, if_true]
  rfl

end

/-- The state with an entry's result noted, as it is written out. -/
def State.withResult (s : State) (e : Entry) (r : Nat × Nat × Nat × W64) : State :=
  s.modEntry e.qid e.seq (fun x => { x with res := some r })

/-- Settles O54: the entry leaves with its queue's COMPSEQ raised, with its number noted above COMPSEQ, or with the alarm alone. -/
theorem entryCompletion : Obligations.EntryCompletion := by
  unfold Obligations.EntryCompletion
  intro s e code detail aux value hc hd ha quiet
  let u := s.withResult e (code, detail, aux, value)
  refine ⟨fun s1 bound status => ⟨fun s2 next_ alone compseq => ?next, fun above alone => ?above⟩, fun unbound => ?unbound⟩
  case next =>
    have run : s.complete e code detail aux value = s2.withoutEntry e e.seq [e.seq] :=
      finishEntry_next (s := u) quiet ⟨hc, hd, ha⟩ bound alone status next_ compseq
    dsimp only
    rw [run, withoutEntry_queue]
    exact ⟨rfl, rfl, by simp, withoutEntry_entry .., rfl, rfl⟩
  case above =>
    have run : s.complete e code detail aux value = s1.withoutEntry e (s.queue e.qid).compseq.toNat [e.seq] :=
      finishEntry_above (s := u) quiet ⟨hc, hd, ha⟩ bound alone status above
    dsimp only
    rw [run, withoutEntry_queue]
    exact ⟨rfl, BitVec.ofNat_toNat _ _, by simp; omega, withoutEntry_entry ..⟩
  case unbound =>
    obtain ⟨c, comp, more, alarm, run⟩ := finishEntry_unbound (s := u) (code := code) (detail := detail) (aux := aux) (value := value) quiet unbound
    replace run : s.complete e code detail aux value = _ := run
    dsimp only
    rw [run]
    exact ⟨rfl, withoutEntry_entry .., List.mem_append_right _ alarm⟩

end Sys2Proof.Machine
end

section
/-! PROOFS. The shepherd looks at its queues, chooses one, and takes its next entry (R321, R323, R324, R355). -/

namespace Sys2Proof.Machine

open Sys2Proof

/-! ### Reads do not depend on the queues -/

/-- A read sees of a state its translations, its bytes and chunks under the reader's key, and its poison. -/
theorem vread_congr {s t : State} {ctx : Nat} (xlate : ∀ va acc, t.xlate ctx va acc = s.xlate ctx va acc) (home : t.home ctx = s.home ctx)
    (chunk : ∀ r pn, t.chunkRead r pn = s.chunkRead r pn) (byte : ∀ r pa, t.physByte r pa = s.physByte r pa) (poison : t.poison = s.poison)
    (va n : Nat) : t.vread ctx va n = s.vread ctx va n := by
  have places : ∀ acc n va cur, t.placesAux ctx acc n va cur = s.placesAux ctx acc n va cur := by
    intro acc n
    induction n with
    | zero => exact fun _ _ => rfl
    | succ n ih => intro va cur; simp only [State.placesAux, ih, xlate]
  have read : ∀ r pl last, t.readPlaces r pl last = s.readPlaces r pl last := by
    intro r pl
    induction pl with
    | nil => exact fun _ => rfl
    | cons x pl ih => intro last; simp only [State.readPlaces, ih, chunk, byte, poison]
  simp only [State.vread, State.places, places, read, home]

section
variable (s : State) (qs : Tab Queue)

theorem vread_withQueues (ctx va n : Nat) : ({ s with queues := qs } : State).vread ctx va n = s.vread ctx va n :=
  vread_congr (s := s) (t := { s with queues := qs }) (fun _ _ => rfl) rfl (fun _ _ => rfl) (fun _ _ => rfl) rfl va n

/-- Whether a queue is eligible is a matter of its own record, not of the others' (R323). -/
theorem eligible_withQueues (q : Nat) (x : Queue) : ({ s with queues := qs } : State).eligible q x = s.eligible q x := by
  have next_ : ({ s with queues := qs } : State).nextWord x = s.nextWord x := by
    unfold State.nextWord
    rw [vread_withQueues]
  have held : ({ s with queues := qs } : State).patchHeld x = s.patchHeld x := by
    unfold State.patchHeld
    rw [vread_withQueues]
    rfl
  unfold State.eligible
  rw [next_, held]

end

/-! ### The keys of a sorted table -/

theorem tab_above_le {α : Type} {t : Tab α} {lo : Nat} (h : Tab.above lo t) : ∀ c ∈ t, lo ≤ c.1 := by
  induction t generalizing lo with
  | nil => simp
  | cons c t ih =>
    intro d hd
    rcases List.mem_cons.1 hd with rfl | hd
    · exact h.1
    · have := ih h.2 d hd
      have := h.1
      omega

/-- A sorted table has one record under a key: those before it and after it have other keys, and it is the one found. -/
theorem tab_split_of_mem {α : Type} {t : Tab α} (h : t.sorted = true) {k : Nat} {x : α} (hx : (k, x) ∈ t) :
    Tab.find t k = some x ∧ ∃ pre post, t = pre ++ (k, x) :: post ∧ ∀ c ∈ pre ++ post, c.1 ≠ k := by
  have above := (tab_sorted_iff t).1 h
  clear h
  generalize 0 = lo at above
  induction t generalizing lo with
  | nil => cases hx
  | cons c t ih =>
    obtain ⟨n, y⟩ := c
    rcases List.mem_cons.1 hx with here | later
    · obtain ⟨rfl, rfl⟩ := Prod.mk.inj here
      refine ⟨by simp [Tab.find], [], t, rfl, fun c hc => ?_⟩
      have := tab_above_le above.2 c hc
      omega
    · obtain ⟨found, pre, post, split_, others⟩ := ih later (n + 1) above.2
      have ne : n ≠ k := by
        have := tab_above_le above.2 _ later
        dsimp only at this
        omega
      refine ⟨by simp [Tab.find, ne, found], (n, y) :: pre, post, by rw [split_, List.cons_append], fun c hc => ?_⟩
      rcases List.mem_cons.1 hc with rfl | hc
      · exact ne
      · exact others c hc

/-! ### Looking at the queues (R324) -/

/-- Note whether one queue has become eligible, or no longer is. -/
def State.lookQueue (s : State) (x : Nat × Queue) : State :=
  if x.2.en || x.2.elig then
    let e := s.eligible x.1 x.2
    if e = x.2.elig then s
    else s.modQueue x.1 (fun q => { q with elig := e, clock := if e then s.time else q.clock })
  else s

theorem lookQueues_eq (s : State) : s.lookQueues = s.queues.foldl State.lookQueue s := rfl

/-- At most the record of the queue it is about is changed. -/
theorem lookQueue_cases (s : State) (x : Nat × Queue) : s.lookQueue x = s ∨ ∃ f, s.lookQueue x = s.modQueue x.1 f := by
  unfold State.lookQueue
  extract_lets
  split
  · split
    · exact .inl rfl
    · exact .inr ⟨_, rfl⟩
  · exact .inl rfl

theorem lookQueue_rest (s : State) (x : Nat × Queue) : { s.lookQueue x with queues := s.queues } = s := by
  rcases lookQueue_cases s x with same | ⟨f, changed⟩
  · rw [same]
  · rw [changed]
    rfl

theorem foldl_lookQueue_rest (xs : List (Nat × Queue)) (s : State) : { xs.foldl State.lookQueue s with queues := s.queues } = s := by
  induction xs generalizing s with
  | nil => rfl
  | cons x xs ih =>
    have here := lookQueue_rest s x
    have there := congrArg (fun t : State => { t with queues := s.queues }) (ih (s.lookQueue x))
    exact there.trans here

/-- Looking at the queues changes their records alone. -/
theorem lookQueues_rest (s : State) : { s.lookQueues with queues := s.queues } = s := foldl_lookQueue_rest _ s

section
variable (s : State)

theorem lookQueues_withQueues : s.lookQueues = { s with queues := s.lookQueues.queues } :=
  (congrArg (fun t : State => { t with queues := s.lookQueues.queues }) (lookQueues_rest s) :)

theorem lookQueues_time : s.lookQueues.time = s.time := (congrArg State.time (lookQueues_rest s) :)

theorem lookQueues_entries : s.lookQueues.entries = s.entries := (congrArg State.entries (lookQueues_rest s) :)

theorem lookQueues_lastQid : s.lookQueues.lastQid = s.lastQid := (congrArg State.lastQid (lookQueues_rest s) :)

theorem lookQueues_todo : s.lookQueues.todo = s.todo := (congrArg State.todo (lookQueues_rest s) :)

theorem lookQueues_ctx (n : Nat) : s.lookQueues.ctx n = s.ctx n := (congrArg (fun t : State => t.ctx n) (lookQueues_rest s) :)

theorem lookQueues_keyBound (n : Nat) : s.lookQueues.keyBound n = s.keyBound n :=
  (congrArg (fun t : State => t.keyBound n) (lookQueues_rest s) :)

theorem lookQueues_vread (ctx va n : Nat) : s.lookQueues.vread ctx va n = s.vread ctx va n := by
  rw [lookQueues_withQueues, vread_withQueues]

end

theorem queue_setQueue_of_ne (s : State) {q p : Nat} (x : Queue) (h : p ≠ q) : (s.setQueue q x).queue p = s.queue p := by
  simp [State.queue, State.setQueue, tab_find_put_of_ne _ _ h]

theorem lookQueue_of_ne (s : State) {x : Nat × Queue} {q : Nat} (h : x.1 ≠ q) : (s.lookQueue x).queue q = s.queue q := by
  rcases lookQueue_cases s x with same | ⟨f, changed⟩
  · rw [same]
  · rw [changed]
    exact queue_setQueue_of_ne s _ h.symm

theorem foldl_lookQueue_of_ne {xs : List (Nat × Queue)} {q : Nat} (h : ∀ x ∈ xs, x.1 ≠ q) (s : State) :
    (xs.foldl State.lookQueue s).queue q = s.queue q := by
  induction xs generalizing s with
  | nil => rfl
  | cons x xs ih => exact (ih (fun y hy => h y (List.mem_cons_of_mem x hy)) _).trans (lookQueue_of_ne s (h x List.mem_cons_self))

theorem en_of_eligible {s : State} {q : Nat} {x : Queue} (h : s.eligible q x = true) : x.en = true := by
  simp only [State.eligible, Bool.and_eq_true] at h
  tauto

/-- A queue that becomes eligible starts its ageing clock from zero. -/
theorem lookQueue_starts {s : State} {q : Nat} {x : Queue} (now : s.eligible q x = true) (before : x.elig = false) :
    (s.lookQueue (q, x)).queue q = { s.queue q with elig := true, clock := s.time } := by
  simp only [State.lookQueue, en_of_eligible now, now, before, Bool.true_or, if_true, Bool.true_eq_false, if_false]
  exact queue_setQueue_self ..

theorem lookQueues_starts {s : State} {q : Nat} {x : Queue} (sorted : Tab.sorted s.queues = true) (hx : (q, x) ∈ s.queues)
    (before : x.elig = false) (now : s.eligible q x = true) : s.lookQueues.queue q = { x with elig := true, clock := s.time } := by
  obtain ⟨found, pre, post, split_, others⟩ := tab_split_of_mem sorted hx
  let u := pre.foldl State.lookQueue s
  have rest : { u with queues := s.queues } = s := foldl_lookQueue_rest pre s
  have same : u.queue q = x := by
    refine (foldl_lookQueue_of_ne (fun c hc => others c (List.mem_append_left _ hc)) s).trans ?_
    unfold State.queue
    rw [found]
    rfl
  have still : u.eligible q x = true := by
    rw [← eligible_withQueues u s.queues, rest]
    exact now
  have time : u.time = s.time := (congrArg State.time rest :)
  calc s.lookQueues.queue q = (post.foldl State.lookQueue (u.lookQueue (q, x))).queue q := by
        rw [lookQueues_eq, split_, List.foldl_append, List.foldl_cons]
    _ = (u.lookQueue (q, x)).queue q := foldl_lookQueue_of_ne (fun c hc => others c (List.mem_append_right _ hc)) _
    _ = { x with elig := true, clock := s.time } := by rw [lookQueue_starts still before, same, time]

/-! ### The queue it takes from (R324) -/

/-- The eligible queues with their levels. -/
def State.candidates (s : State) : List (Nat × Nat) :=
  (s.queues.filter (fun x => s.eligible x.1 x.2)).map (fun x => (x.1, x.2.level s.time))

theorem mem_candidates {s : State} {c : Nat × Nat} :
    c ∈ s.candidates ↔ ∃ x ∈ s.queues, s.eligible x.1 x.2 = true ∧ (x.1, x.2.level s.time) = c := by
  simp only [State.candidates, List.mem_map, List.mem_filter, and_assoc]

theorem chooseQueue_eq (s : State) : s.chooseQueue = (s.candidates.map (·.2)).max?.bind (fun l =>
    let at_ := (s.candidates.filter (fun x => x.2 = l)).map (·.1)
    match (at_.filter (fun q => decide (s.lastQid.toList.getD l 65535 < q))).min? with
    | some q => some (q, l)
    | none => at_.min?.map (fun q => (q, l))) := by
  unfold State.chooseQueue State.candidates
  extract_lets
  split
  · next none_ => rw [none_]; rfl
  · next l some_ => rw [some_]; rfl

/-- The choice is a candidate, and none has a higher level. -/
theorem chooseQueue_highest {s : State} {q l : Nat} (h : s.chooseQueue = some (q, l)) :
    (q, l) ∈ s.candidates ∧ ∀ c ∈ s.candidates, c.2 ≤ l := by
  rw [chooseQueue_eq, Option.bind_eq_some_iff] at h
  obtain ⟨m, most, h⟩ := h
  have top := (List.max?_eq_some_iff.1 most).2
  have chosen : q ∈ (s.candidates.filter (fun x => x.2 = m)).map (·.1) ∧ m = l := by
    dsimp only at h
    split at h
    · next p least =>
      obtain ⟨rfl, rfl⟩ := Prod.mk.inj (Option.some.inj h)
      exact ⟨(List.mem_filter.1 (List.min?_mem least)).1, rfl⟩
    · obtain ⟨p, least, same⟩ := Option.map_eq_some_iff.1 h
      obtain ⟨rfl, rfl⟩ := Prod.mk.inj same
      exact ⟨List.min?_mem least, rfl⟩
  obtain ⟨mem, rfl⟩ := chosen
  obtain ⟨c, hc, rfl⟩ := List.mem_map.1 mem
  obtain ⟨hc, level⟩ := List.mem_filter.1 hc
  refine ⟨?_, fun c hc => top _ (List.mem_map_of_mem hc)⟩
  rw [← of_decide_eq_true level]
  exact hc

/-! ### Taking its next entry (R321, R323, R355) -/

/-- The entry that the bytes of a queue's next slot make. -/
def State.nextEntry (s : State) (q l : Nat) (bs : List Byte) : Entry :=
  { qid := q, seq := (s.queue q).taken.toNat + 1, ctx := (s.queue q).ctx, level := l, w := (List.range 8).map (wordAt bs) }

/-- The entry is taken: it is counted, the queue's clock starts again, and its level remembers the queue. -/
def State.withTaken (s : State) (q l : Nat) (bs : List Byte) : State :=
  { s.setQueue q { s.queue q with taken := BitVec.ofNat 64 ((s.queue q).taken.toNat + 1), clock := s.time } with
    entries := s.entries ++ [s.nextEntry q l bs]
    lastQid := s.lastQid.setIfInBounds l q }

/-- Does a context take no new entry: it is not enabled, or is going? -/
def Ctx.closed (c : Ctx) : Bool := c.quar || c.tearing.isSome || !bitAt c.w[2].toNat 63

theorem closed_iff (c : Ctx) : c.closed = true ↔ c.quar = true ∨ c.tearing ≠ none ∨ c.w[2].getLsbD 63 = false := by
  simp [Ctx.closed, bitAt_toNat, or_assoc, Option.isSome_iff_ne_none]

theorem not_closed {c : Ctx} (quar : c.quar = false) (tearing : c.tearing = none) (en : c.w[2].getLsbD 63 = true) : c.closed = false := by
  simp [Ctx.closed, bitAt_toNat, quar, tearing, en]

theorem opc_eq (v : W64) : bitsOf v 63 56 = v.toNat / 2 ^ 56 := by
  have := v.isLt
  show v.toNat / 2 ^ 56 % 2 ^ 8 = v.toNat / 2 ^ 56
  omega

section
variable {s : State} {q l : Nat}

theorem takeEntry_unbound (unbound : s.keyBound (s.queue q).ctx = false) : s.takeEntry q l = s.alarmB 0 (s.queue q).ctx := by
  simp only [State.takeEntry, unbound, Bool.not_false, if_true]

section
variable {bs : List Byte} (bound : s.keyBound (s.queue q).ctx = true)
  (read : s.vread (s.queue q).ctx ((s.queue q).slotVa ((s.queue q).taken.toNat + 1)) 64 = .ok bs)
include bound read

theorem takeEntry_read : s.takeEntry q l =
    if (s.ctx (s.queue q).ctx).closed then (s.withTaken q l bs).complete (s.nextEntry q l bs) 9 2 0 0
    else if entryBad (s.nextEntry q l bs).w then (s.withTaken q l bs).complete (s.nextEntry q l bs) 9 1 0 0
    else match opcRow (bitsOf ((s.nextEntry q l bs).w.getD 0 0) 63 56) with
      | none => s.withTaken q l bs
      | some i => { s.withTaken q l bs with todo := .ev i { a := q, b := (s.queue q).taken.toNat + 1 } :: s.todo } := by
  simp only [State.takeEntry, bound, read, Bool.not_true, Bool.false_eq_true, if_false]
  rfl

theorem takeEntry_closed (closed : (s.ctx (s.queue q).ctx).closed = true) :
    s.takeEntry q l = (s.withTaken q l bs).complete (s.nextEntry q l bs) 9 2 0 0 := by
  rw [takeEntry_read bound read, if_pos closed]

variable (open_ : (s.ctx (s.queue q).ctx).closed = false)
include open_

theorem takeEntry_bad (bad : entryBad (s.nextEntry q l bs).w = true) :
    s.takeEntry q l = (s.withTaken q l bs).complete (s.nextEntry q l bs) 9 1 0 0 := by
  rw [takeEntry_read bound read, open_, if_neg Bool.false_ne_true, if_pos bad]

theorem takeEntry_good {i : Instr} (good : entryBad (s.nextEntry q l bs).w = false)
    (row : opcRow (((s.nextEntry q l bs).w.getD 0 0).toNat / 2 ^ 56) = some i) :
    s.takeEntry q l = { s.withTaken q l bs with todo := .ev i { a := q, b := (s.queue q).taken.toNat + 1 } :: s.todo } := by
  rw [← opc_eq] at row
  rw [takeEntry_read bound read, open_, good, if_neg Bool.false_ne_true, if_neg Bool.false_ne_true, row]

end

/-! ### SHEPHERD_TAKE -/

theorem shepherdTake_between (h : s.time % 64 ≠ 0) : exec .shepherdTake s = .next s := by
  show execShepherdTake s = _
  unfold execShepherdTake
  rw [if_pos (by simpa using h)]

variable (due : s.time % 64 = 0)
include due

theorem shepherdTake_none (h : s.lookQueues.chooseQueue = none) : exec .shepherdTake s = .next s.lookQueues := by
  show execShepherdTake s = _
  simp only [execShepherdTake, due, h]
  rfl

theorem shepherdTake_takes (h : s.lookQueues.chooseQueue = some (q, l)) : exec .shepherdTake s = .next (s.lookQueues.takeEntry q l) := by
  show execShepherdTake s = _
  simp only [execShepherdTake, due, h]
  rfl

end

end Sys2Proof.Machine
end

section
/-! PROOFS. WAIT and SIGNAL (R326), and TABLE (R262, R330). -/

namespace Sys2Proof.Machine

open Sys2Proof

/-! ### WAIT and SIGNAL (R326) -/

section
variable {s : State} {e : Entry} (work : AtWork s e)
include work

theorem exec_wait : exec .wait s = .next (if 65536 ≤ (e.word 1).toNat then s.complete e 9 1 0 0
    else if (e.word 2).toNat ≤ (s.queue (e.word 1).toNat).compseq.toNat then (s.applyReleased (· = 6)).complete e 0 0 0 0 else s) := by
  show execWait s = _
  rw [execWait, entryRow_atWork work]

theorem wait_noQueue (h : 65536 ≤ (e.word 1).toNat) : exec .wait s = .next (s.complete e 9 1 0 0) := by
  rw [exec_wait work, if_pos h]

theorem wait_reached (h : (e.word 1).toNat < 65536) (reached : (e.word 2).toNat ≤ (s.queue (e.word 1).toNat).compseq.toNat) :
    exec .wait s = .next ((s.applyReleased (· = 6)).complete e 0 0 0 0) := by
  rw [exec_wait work, if_neg (Nat.not_le.2 h), if_pos reached]

theorem wait_waits (h : (e.word 1).toNat < 65536) (below : (s.queue (e.word 1).toNat).compseq.toNat < (e.word 2).toNat) :
    exec .wait s = .next s := by
  rw [exec_wait work, if_neg (Nat.not_le.2 h), if_neg (Nat.not_le.2 below)]

theorem signal_misaligned (h : (e.word 1).toNat % 8 ≠ 0) : exec .signal s = .next (s.complete e 3 2 0 (e.word 1)) := by
  show execSignal s = _
  rw [execSignal, entryRow_atWork work]
  exact congrArg Host.Outcome.next (if_pos (by simpa using h))

theorem signal_written {pl : List (Nat × Nat)} {old : List Byte} {t : State} (aligned : (e.word 1).toNat % 8 = 0)
    (places : s.places e.ctx (e.word 1).toNat 8 .atomic = .ok pl) (read : s.readPlaces (s.home e.ctx) pl none = .ok old)
    (write : (s.applyReleased (4 ≤ ·)).vwriteBy none e.ctx (e.word 1).toNat .atomic (leBytes 8 (e.word 2).toNat) = .ok t) :
    exec .signal s = .next (t.complete e 0 0 0 0) := by
  show execSignal s = _
  rw [execSignal, entryRow_atWork work]
  simp only [aligned, places, read, write]
  rfl

end

/-! ### The items of a TABLE -/

/-- An item changes the chain it is for, or nothing (R330). -/
theorem tableItem_cases (s : State) (ctx d ch i : Nat) (w0 w1 : W64) :
    (s.tableItem ctx d ch i w0 w1).1 = s ∨ ∃ f, (s.tableItem ctx d ch i w0 w1).1 = s.modChain d ch f := by
  unfold State.tableItem
  extract_lets kind stage idx c put
  have puts (x : Chain × TabEnd) : (put x).1 = s ∨ ∃ f, (put x).1 = s.modChain d ch f := by
    dsimp only [put]
    split
    · exact .inr ⟨fun _ => x.1, rfl⟩
    · exact .inl rfl
  clear_value put
  split
  · exact .inl rfl
  split
  · exact puts _
  split
  · exact .inl rfl
  split
  · exact .inl rfl
  · exact puts _

theorem tableItem_entries (s : State) (ctx d ch i : Nat) (w0 w1 : W64) : (s.tableItem ctx d ch i w0 w1).1.entries = s.entries := by
  rcases tableItem_cases s ctx d ch i w0 w1 with same | ⟨f, changed⟩
  · rw [same]
  · rw [changed]
    exact modDie_entries s d _

theorem tableItems_entries (s : State) (ctx va d ch n i : Nat) : (s.tableItems ctx va d ch n i).1.entries = s.entries := by
  induction n generalizing s i with
  | zero => rfl
  | succ n ih =>
    unfold State.tableItems
    split
    · rfl
    · next bs _ =>
      have item := tableItem_entries s ctx d ch i (wordAt bs 0) (wordAt bs 1)
      split
      · next u here => rw [ih]; rwa [here] at item
      · next u x here => rwa [here] at item

/-! ### TABLE -/

theorem bitsOf_die (v : W64) : bitsOf v 3 2 = v.toNat / 4 % 4 := rfl

theorem bitsOf_chain (v : W64) : bitsOf v 1 0 = v.toNat % 4 := bitsOf_zero v 1

theorem bitsOf_pastChain (v : W64) : bitsOf v 63 4 = v.toNat / 16 := by
  have := v.isLt
  show v.toNat / 2 ^ 4 % 2 ^ 60 = v.toNat / 16
  omega

section
variable {s : State} {e : Entry} (work : AtWork s e)
include work

/-- Its commit has completed: the chain's commit is over, and so is the entry. -/
theorem table_committed {d : Done} (phase : e.phase = 1) (done_ : s.dones.find? (fun x => x.cmd.host = some (e.qid, e.seq)) = some d) :
    exec .table s = .next ((s.modChain ((e.word 3).toNat / 4 % 4) ((e.word 3).toNat % 4) (fun c =>
      { c with commit := none, settled := false })).complete e 0 0 0 0) := by
  show execTable s = _
  rw [execTable, entryRow_atWork work]
  simp only [phase, if_true, done_, bitsOf_die, bitsOf_chain]

variable (phase : e.phase = 0)
include phase

theorem table_bad (bad : (e.word 2).toNat = 0 ∨ 65535 < (e.word 2).toNat ∨ 16 ≤ (e.word 3).toNat) :
    exec .table s = .next (s.complete e 9 1 0 0) := by
  show execTable s = _
  rw [execTable, entryRow_atWork work]
  dsimp only
  rw [if_neg (by omega), if_pos]
  simp only [bitsOf_pastChain, Bool.or_eq_true, decide_eq_true_eq, bne_iff_ne]
  omega

section
variable (count : 0 < (e.word 2).toNat) (most : (e.word 2).toNat ≤ 65535) (chain_ : (e.word 3).toNat < 16)
include count most chain_

/-- A whole TABLE, by what holds of its chain. -/
theorem exec_table :
    let d := (e.word 3).toNat / 4
    let ch := (e.word 3).toNat % 4
    let c := s.chain d ch
    exec .table s = .next (
      if c.quar || (c.owner.isSome && c.owner != some e.ctx) then s.complete e 9 6 0 0
      else
        let t := if c.owner.isNone then (s.modChain d ch (fun c => c.fresh (some e.ctx))).wakeDie d else s
        if c.commit.isSome then t else t.tableRun e d ch) := by
  have die : bitsOf (e.word 3) 3 2 = (e.word 3).toNat / 4 := by rw [bitsOf_die]; omega
  show execTable s = _
  rw [execTable, entryRow_atWork work]
  dsimp only
  rw [if_neg (by omega), if_neg, die, bitsOf_chain]
  simp only [bitsOf_pastChain, Bool.or_eq_true, decide_eq_true_eq, bne_iff_ne]
  omega

theorem table_notOwn
    (other : (s.chain ((e.word 3).toNat / 4) ((e.word 3).toNat % 4)).quar = true ∨
      ∃ o, (s.chain ((e.word 3).toNat / 4) ((e.word 3).toNat % 4)).owner = some o ∧ o ≠ e.ctx) :
    exec .table s = .next (s.complete e 9 6 0 0) := by
  rw [exec_table work phase count most chain_, if_pos]
  rcases other with quar | ⟨o, owner, ne⟩
  · simp [quar]
  · simp [owner, ne]

variable (quar : (s.chain ((e.word 3).toNat / 4) ((e.word 3).toNat % 4)).quar = false)
  (own : (s.chain ((e.word 3).toNat / 4) ((e.word 3).toNat % 4)).owner = some e.ctx)
  (idle : (s.chain ((e.word 3).toNat / 4) ((e.word 3).toNat % 4)).commit = none)
include quar own idle

theorem table_runs : exec .table s = .next (s.tableRun e ((e.word 3).toNat / 4) ((e.word 3).toNat % 4)) := by
  rw [exec_table work phase count most chain_, if_neg (by simp [quar, own])]
  simp only [own, idle, Option.isNone_some, Option.isSome_none, Bool.false_eq_true, if_false]

/-- Items that all succeed are committed: the versions change places, and the entry waits for the commit. -/
theorem table_commits {t : State} (first : e.aux = 0)
    (items : s.tableItems e.ctx (e.word 1).toNat ((e.word 3).toNat / 4) ((e.word 3).toNat % 4) (e.word 2).toNat 0 = (t, none)) :
    After (exec .table s) (fun u =>
      (u.chain ((e.word 3).toNat / 4) ((e.word 3).toNat % 4)).ver = 1 - (t.chain ((e.word 3).toNat / 4) ((e.word 3).toNat % 4)).ver ∧
      (u.chain ((e.word 3).toNat / 4) ((e.word 3).toNat % 4)).commit ≠ none ∧ u.mem = t.mem ∧
      (u.entry? e.qid e.seq).map (·.phase) = some 1) := by
  let m : Cmd := { id := t.fresh, ctx := e.ctx, word := .table, host := some (e.qid, e.seq), noTick := true }
  let v := { t with fresh := t.fresh + 1 }.modChain ((e.word 3).toNat / 4) ((e.word 3).toNat % 4) (fun c => c.flip m)
  have run : s.tableRun e ((e.word 3).toNat / 4) ((e.word 3).toNat % 4) = v.modEntry e.qid e.seq (fun x => { x with phase := 1 }) := by
    simp only [State.tableRun, first, Nat.sub_zero, items]
    rfl
  have entries : v.entries = s.entries := by
    rw [← tableItems_entries s e.ctx (e.word 1).toNat ((e.word 3).toNat / 4) ((e.word 3).toNat % 4) (e.word 2).toNat 0, items]
    exact modDie_entries ..
  have flipped : v.chain ((e.word 3).toNat / 4) ((e.word 3).toNat % 4) = (t.chain ((e.word 3).toNat / 4) ((e.word 3).toNat % 4)).flip m :=
    chain_modChain_self _ (by omega) (by omega) _
  refine ⟨_, (table_runs work phase count most chain_ quar own idle).trans (congrArg _ run), ?_, ?_, ?_, ?_⟩
  · exact (congrArg Chain.ver flipped).trans (shadow_eq _)
  · have committed : (v.chain ((e.word 3).toNat / 4) ((e.word 3).toNat % 4)).commit = some m := (congrArg Chain.commit flipped :)
    exact fun none_ => nomatch committed.symm.trans none_
  · exact modDie_mem ..
  · rw [entry_modEntry, entry_congr entries, work.named]
    · rfl
    · exact fun _ => ⟨rfl, rfl⟩

end

end

end Sys2Proof.Machine
end

section
/-! PROOFS. TEARDOWN up to its scrub (R321, R349): what it leaves of pens, dies and quarantine. -/

namespace Sys2Proof.Machine

open Sys2Proof

/-! ### What completes, samples and answers leaves the pens alone -/

theorem sameUnits_met (s : State) (die : Nat) (x : XFault) : SameUnits s (s.met die x) := by
  unfold State.met
  split
  · exact sameUnits_ueMet s die
  · exact .refl s

theorem sameUnits_answer (s : State) (d : Done) : SameUnits s (s.answer d) := by
  unfold State.answer
  extract_lets u
  have met : SameUnits s u := by
    dsimp only [u]
    split
    · exact sameUnits_ueMet s _
    · exact .refl s
  exact ⟨met.cores, met.pens⟩

theorem sameUnits_sampleFault (s : State) (p : Pen) (rel : Nat) (acc : Acc) (va : Nat) (x : XFault) :
    SameUnits s (s.sampleFault p rel acc va x) := by
  unfold State.sampleFault
  refine .trans ?_ (sameUnits_recordFault _ _ _ _ _)
  split
  · exact sameUnits_ueMet _ _
  · exact .refl _

theorem sameUnits_sampleDrop (s : State) (p : Pen) (rel cb d : Nat) : SameUnits s (s.sampleDrop p rel cb d) := by
  unfold State.sampleDrop
  split
  · next hw => exact sameUnits_vwriteBy hw
  · exact sameUnits_sampleFault ..

theorem sameUnits_samplePut {s t : State} {p : Pen} {xs : List (Nat × List Byte)} (h : s.samplePut p xs = .ok t) : SameUnits s t := by
  induction xs generalizing s with
  | nil => cases h; exact .refl _
  | cons x xs ih =>
    unfold State.samplePut at h
    split at h
    · next hw => exact (sameUnits_vwriteBy hw).trans (ih h)
    · cases h

theorem sameUnits_sample (s : State) (h ty : Nat) (ws : List W64) (rel : Nat) : SameUnits s (s.sample h ty ws rel) := by
  unfold State.sample
  extract_lets p cb
  split
  · exact .refl s
  split
  · exact sameUnits_alarmB ..
  split
  · exact sameUnits_sampleFault ..
  extract_lets
  split
  · exact sameUnits_sampleDrop ..
  split
  · next put => exact sameUnits_samplePut put
  · exact (sameUnits_sampleFault ..).trans (sameUnits_sampleDrop ..)

/-- The stall entries of a context are spilled and cleared (R315). -/
theorem sameUnits_stallEnd (s : State) (ctx : Nat) : SameUnits s (s.stallEnd ctx) := by
  refine .foldl (fun s d => ?_) _ s
  exact (SameUnits.foldl (fun s e => sameUnits_sample s _ _ _ _) _ s).trans (sameUnits_modDie _ d _)

/-- An entry that is written out, parked or lost changes no core and no pen (R320). -/
theorem sameUnits_finishEntry (s : State) (e : Entry) (r : Nat × Nat × Nat × W64) : SameUnits s (s.finishEntry e r) := by
  unfold State.finishEntry
  extract_lets x put comp c
  have puts (u : State) (va : Nat) (bs : List Byte) : SameUnits u (put u va bs).1 := by
    dsimp only [put]
    split
    · exact sameUnits_alarmB ..
    split
    · next hw => exact sameUnits_vwriteBy hw
    · split <;> exact (sameUnits_met u _ _).trans (sameUnits_recordFault _ _ _ _ _)
  clear_value put
  split
  next code detail aux value =>
  extract_lets w7
  split
  next u p status =>
  have first : SameUnits s u := by
    have := puts s (x.slotVa e.seq + 48) (leBytes 8 value.toNat ++ leBytes 8 w7.toNat)
    rwa [status] at this
  split
  · exact ⟨first.cores, first.pens⟩
  split
  next v p second =>
  have both : SameUnits s v := by
    split at second
    · cases second
      exact first
    · have := puts u x.w1.toNat (leBytes 8 c)
      rw [second] at this
      exact first.trans this
  split
  · exact ⟨both.cores, both.pens⟩
  have out : SameUnits s (v.withoutEntry e c comp) := both.trans (withoutEntry_units v e c comp)
  extract_lets
  split
  · exact out.trans (sameUnits_postEvent ..)
  · exact out

theorem complete_eq (s : State) (e : Entry) (code detail aux : Nat) (value : W64) : s.complete e code detail aux value =
    (s.withResult e (code, detail, aux, value)).finishEntry e (code, detail, aux, value) := rfl

theorem sameUnits_complete (s : State) (e : Entry) (code detail aux : Nat) (value : W64) : SameUnits s (s.complete e code detail aux value) := by
  have noted : SameUnits s (s.withResult e (code, detail, aux, value)) := ⟨rfl, rfl⟩
  rw [complete_eq]
  exact noted.trans (sameUnits_finishEntry _ e _)

theorem sameUnits_abortEntry (s : State) (e : Entry) : SameUnits s (s.abortEntry e) := by
  let u := s.modEntry e.qid e.seq (fun e => { e with parked := none })
  have complete := sameUnits_complete u { e with parked := none } 9 2 0 0
  exact ⟨complete.cores, complete.pens⟩

theorem sameUnits_abortUntaken (s : State) (q n : Nat) : SameUnits s (s.abortUntaken q n) := by
  induction n generalizing s with
  | zero => exact .refl s
  | succ n ih =>
    unfold State.abortUntaken
    extract_lets x m w e u
    split
    · exact .refl s
    · have aborted := sameUnits_abortEntry { u with entries := u.entries ++ [e] } e
      exact .trans ⟨aborted.cores, aborted.pens⟩ (ih _)

/-! ### Changes of several pens -/

section
variable {f : State → Nat → State}

/-- Steps that each change one pen leave a pen that they do not name. -/
theorem pen_foldl_of_not_mem (others : ∀ s h j, j ≠ h → (f s h).pen j = s.pen j) {hs : List Nat} {j : Nat} (hj : j ∉ hs) (s : State) :
    (hs.foldl f s).pen j = s.pen j := by
  induction hs generalizing s with
  | nil => rfl
  | cons h hs ih =>
    rw [List.mem_cons, not_or] at hj
    exact (ih hj.2 (f s h)).trans (others s h j hj.1)

variable (length : ∀ s h, (f s h).pens.length = s.pens.length)
include length

theorem pens_length_foldl (hs : List Nat) (s : State) : (hs.foldl f s).pens.length = s.pens.length := by
  induction hs generalizing s with
  | nil => rfl
  | cons h hs ih => exact (ih (f s h)).trans (length s h)

/-- What a step makes true of its pen, and no other step undoes, is true of each pen named. -/
theorem pen_foldl_of_mem {P : Pen → Prop} (makes : ∀ s h, h < s.pens.length → P ((f s h).pen h))
    (others : ∀ s h j, j ≠ h → (f s h).pen j = s.pen j) {hs : List Nat} {j : Nat} (hj : j ∈ hs) {s : State} (lt : j < s.pens.length) :
    P ((hs.foldl f s).pen j) := by
  induction hs generalizing s with
  | nil => cases hj
  | cons h hs ih =>
    have lt' : j < (f s h).pens.length := by rwa [length]
    by_cases later : j ∈ hs
    · exact ih later lt'
    · obtain rfl : j = h := (List.mem_cons.1 hj).resolve_right later
      rw [List.foldl_cons, pen_foldl_of_not_mem others later]
      exact makes s j lt

end

/-! ### TEARDOWN, stage by stage (R349) -/

/-- The pens of a context that a teardown ends. -/
def State.goingPens (s : State) (n : Nat) : List Nat :=
  (List.range s.pens.length).filter (fun h => (s.pen h).ctx = n && (s.pen h).live || ((s.pen h).ctx = n && (s.pen h).frozen = .cast))

/-- A pen that a teardown has ended. -/
def Pen.tornDown (p : Pen) : Pen := { p with live := false, ended := true, held := [], syncs := [], frozen := .running }

/-- The first stage: its commands have ended and been answered. -/
def State.answersTorn (s : State) (n : Nat) : State :=
  let u := ((s.goingPens n).foldl (fun s h => s.abortPosted h 2) s).stallEnd n
  ((List.range 4).flatMap (fun d => u.dropped d n) ++ u.unsent n).foldl State.answer u

/-- The second stage: what its cores had released and not sent is gone. -/
def State.commandsTorn (s : State) (n : Nat) : State :=
  { s.answersTorn n with
    cores := (s.answersTorn n).cores.map (fun (x : Nat × Core) => (x.1, { x.2 with out := x.2.out.filter (fun m => m.ctx != n) })) }

/-- The third stage: its pens have ended. -/
def State.pensTorn (s : State) (n : Nat) : State := (s.goingPens n).foldl (fun s h => s.modPen h Pen.tornDown) (s.commandsTorn n)

/-- The fourth stage: its entries are out, but for the one that asks, and its queues empty. -/
def State.entriesTorn (s : State) (n : Nat) (by_ : Option (Nat × Nat)) : State :=
  let u := s.pensTorn n
  let u := (u.entries.filter (fun e => e.ctx = n && some (e.qid, e.seq) != by_)).foldl State.abortEntry u
  (u.queues.filter (fun x => x.2.ctx = n)).foldl (fun s x => s.abortUntaken x.1 (x.2.tail.toNat - x.2.taken.toNat)) u

theorem teardown_stages (s : State) (n : Nat) (by_ : Option (Nat × Nat)) : ∃ u : State,
    s.teardown n by_ = u.setCtx n { s.ctx n with quar := true, scrub := u.scrubList (s.ctx n), scrubPos := 0, tearing := by_ } ∧
    u.pens = (s.entriesTorn n by_).pens ∧ u.dies = (s.entriesTorn n by_).dies.map (fun x => x.drop n) ∧
    u.quarCores = (s.entriesTorn n by_).quarCores ++ (s.ctxCores n).map (fun k => (n, k)) :=
  ⟨_, rfl, rfl, rfl, rfl⟩

section
variable (s : State) (n : Nat)

theorem mem_goingPens {h : Nat} : h ∈ s.goingPens n ↔ h < s.pens.length ∧ (s.pen h).ctx = n ∧ ((s.pen h).live = true ∨ (s.pen h).frozen = .cast) := by
  simp [State.goingPens]
  tauto

theorem abortPosted_units (h detail : Nat) :
    SameUnits (s.modDu h (fun d => { d with posted := [], inbox := [], atBoundary := [] })) (s.abortPosted h detail) :=
  .foldl (fun s _ => sameUnits_answer s _) _ _

theorem abortPosted_length (h detail : Nat) : (s.abortPosted h detail).pens.length = s.pens.length := by
  rw [(abortPosted_units s h detail).pens]
  exact pens_length_modPen s h _

theorem abortPosted_of_ne (h detail j : Nat) (hj : j ≠ h) : (s.abortPosted h detail).pen j = s.pen j :=
  ((abortPosted_units s h detail).pen j).trans (pen_modPen_of_ne s _ hj)

theorem answersTorn_units : SameUnits ((s.goingPens n).foldl (fun s h => s.abortPosted h 2) s) (s.answersTorn n) :=
  (sameUnits_stallEnd _ n).trans (.foldl sameUnits_answer _ _)

theorem commandsTorn_pens : (s.commandsTorn n).pens = ((s.goingPens n).foldl (fun s h => s.abortPosted h 2) s).pens :=
  calc (s.commandsTorn n).pens = (s.answersTorn n).pens := by rw [State.commandsTorn]
    _ = _ := (answersTorn_units s n).pens

theorem entriesTorn_units (by_ : Option (Nat × Nat)) : SameUnits (s.pensTorn n) (s.entriesTorn n by_) :=
  (SameUnits.foldl sameUnits_abortEntry _ _).trans (.foldl (fun s _ => sameUnits_abortUntaken s _ _) _ _)

theorem entriesTorn_pen_of_other (by_ : Option (Nat × Nat)) {h : Nat} (other : (s.pen h).ctx ≠ n) :
    (s.entriesTorn n by_).pen h = s.pen h := by
  have stays : h ∉ s.goingPens n := fun going => other ((mem_goingPens s n).1 going).2.1
  calc (s.entriesTorn n by_).pen h = (s.pensTorn n).pen h := (entriesTorn_units s n by_).pen h
    _ = (s.commandsTorn n).pen h := pen_foldl_of_not_mem (fun s _ _ hj => pen_modPen_of_ne s _ hj) stays _
    _ = ((s.goingPens n).foldl (fun s h => s.abortPosted h 2) s).pen h := by rw [State.pen, commandsTorn_pens]; rfl
    _ = s.pen h := pen_foldl_of_not_mem (fun s h j hj => abortPosted_of_ne s h 2 j hj) stays s

theorem entriesTorn_pen_of_own (by_ : Option (Nat × Nat)) {h : Nat} (lt : h < s.pens.length) (own : (s.pen h).ctx = n)
    (live : (s.pen h).live = true) : ((s.entriesTorn n by_).pen h).live = false ∧ ((s.entriesTorn n by_).pen h).ended = true := by
  have going : h ∈ s.goingPens n := (mem_goingPens s n).2 ⟨lt, own, .inl live⟩
  have lt' : h < (s.commandsTorn n).pens.length := by
    rwa [commandsTorn_pens, pens_length_foldl (fun s h => abortPosted_length s h 2)]
  rw [(entriesTorn_units s n by_).pen h]
  exact pen_foldl_of_mem (P := fun p => p.live = false ∧ p.ended = true) (fun s h => pens_length_modPen s h _)
    (fun s h lt => by rw [pen_modPen_self s _ lt]; exact ⟨rfl, rfl⟩) (fun s _ _ hj => pen_modPen_of_ne s _ hj) going lt'

/-- The cores of a context's live pens are among those it holds (R370). -/
theorem mem_ctxCores {h c : Nat} (lt : h < s.pens.length) (own : (s.pen h).ctx = n) (live : (s.pen h).live = true)
    (hc : c ∈ (s.pen h).cores) : c ∈ s.ctxCores n := by
  rw [State.ctxCores, List.mem_eraseDups, List.mem_flatMap]
  exact ⟨s.pen h, pen_of_lt s lt ▸ List.getElem_mem lt, by simpa [own, live] using hc⟩

end

/-! ### A die that a context has left -/

theorem drop_bell {x : Die} {n : Nat} : ∀ j ∈ (x.drop n).bell, j.cmd.ctx ≠ n := fun j hj => by
  simpa using (List.mem_filter.1 hj).2

theorem drop_waits {x : Die} {n : Nat} : ∀ j ∈ (x.drop n).waits, j.cmd.ctx ≠ n := fun j hj => by
  simpa using (List.mem_filter.1 hj).2

/-- A chain that is still its is quarantined (R282, R349). -/
theorem drop_chains {x : Die} {n : Nat} (ch : Fin 4) (own : (x.drop n).chains[ch].owner = some n) : (x.drop n).chains[ch].quar = true := by
  have chain_ : (x.drop n).chains[ch] = if x.chains[ch].owner = some n then { x.chains[ch].fresh (some n) with quar := true } else x.chains[ch] := by
    simp [Die.drop]
  rw [chain_] at own ⊢
  split at own
  · next was => rw [if_pos was]
  · next not_ => exact absurd own not_

/-! ### TEARDOWN of an entry -/

section
variable {s : State} {e : Entry} (work : AtWork s e) (phase : e.phase = 0)
include work phase

theorem exec_teardown : exec .teardown s = .next (
    if e.word 1 != BitVec.ofNat 64 e.ctx then s.complete e 9 1 0 0
    else if (s.ctx e.ctx).quar then s.complete e 9 2 0 0
    else (s.teardown e.ctx (some (e.qid, e.seq))).modEntry e.qid e.seq (fun x => { x with phase := 3 })) := by
  show execTeardown s = _
  rw [execTeardown, entryRow_atWork work]
  exact congrArg Host.Outcome.next (if_neg (by simp [phase]))

theorem teardown_other (other : e.word 1 ≠ BitVec.ofNat 64 e.ctx) : exec .teardown s = .next (s.complete e 9 1 0 0) := by
  rw [exec_teardown work phase, if_pos (by simpa using other)]

variable (own : e.word 1 = BitVec.ofNat 64 e.ctx)
include own

theorem teardown_quarantined (quar : (s.ctx e.ctx).quar = true) : exec .teardown s = .next (s.complete e 9 2 0 0) := by
  rw [exec_teardown work phase, if_neg (by simp [own]), if_pos quar]

theorem teardown_starts (quar : (s.ctx e.ctx).quar = false) : exec .teardown s =
    .next ((s.teardown e.ctx (some (e.qid, e.seq))).modEntry e.qid e.seq (fun x => { x with phase := 3 })) := by
  rw [exec_teardown work phase, if_neg (by simp [own]), if_neg (by simp [quar])]

/-- Its context is quarantined with the cores it held, its pens have ended, and no die works for it (R349). -/
theorem teardown_quarantines (quar : (s.ctx e.ctx).quar = false) : After (exec .teardown s) (fun t =>
    (t.ctx e.ctx).quar = true ∧ (t.ctx e.ctx).tearing = some (e.qid, e.seq) ∧
    (∀ h < s.pens.length, (s.pen h).ctx = e.ctx → (s.pen h).live = true → (t.pen h).live = false ∧ (t.pen h).ended = true) ∧
    (∀ h < s.pens.length, (s.pen h).ctx ≠ e.ctx → t.pen h = s.pen h) ∧
    (∀ h < s.pens.length, (s.pen h).ctx = e.ctx → (s.pen h).live = true → ∀ c ∈ (s.pen h).cores, (e.ctx, c) ∈ t.quarCores) ∧
    (∀ d : Fin 4, (∀ j ∈ t.dies[d].bell, j.cmd.ctx ≠ e.ctx) ∧ (∀ j ∈ t.dies[d].waits, j.cmd.ctx ≠ e.ctx) ∧
      ∀ ch : Fin 4, t.dies[d].chains[ch].owner = some e.ctx → t.dies[d].chains[ch].quar = true)) := by
  obtain ⟨u, torn, pens, dies, quarCores⟩ := teardown_stages s e.ctx (some (e.qid, e.seq))
  refine ⟨_, teardown_starts work phase own quar, ?_⟩
  rw [torn]
  have ctx := ctx_setCtx_self u e.ctx
    { s.ctx e.ctx with quar := true, scrub := u.scrubList (s.ctx e.ctx), scrubPos := 0, tearing := some (e.qid, e.seq) }
  have pen (h : Nat) : u.pen h = (s.entriesTorn e.ctx (some (e.qid, e.seq))).pen h := by rw [State.pen, pens]; rfl
  have die (d : Fin 4) : u.dies[d] = ((s.entriesTorn e.ctx (some (e.qid, e.seq))).dies[d]).drop e.ctx := by simp [dies]
  refine ⟨(congrArg Ctx.quar ctx :), (congrArg Ctx.tearing ctx :), fun h lt mine live => ?_, fun h _ other => ?_,
    fun h lt mine live c hc => ?_, fun d => ?_⟩
  · have ended := entriesTorn_pen_of_own s e.ctx (some (e.qid, e.seq)) lt mine live
    rw [← pen] at ended
    exact ended
  · exact (pen h).trans (entriesTorn_pen_of_other s e.ctx _ other)
  · have held : (e.ctx, c) ∈ u.quarCores := by
      rw [quarCores]
      exact List.mem_append_right _ (List.mem_map_of_mem (mem_ctxCores s e.ctx lt mine live hc))
    exact held
  · have left_ : (∀ j ∈ u.dies[d].bell, j.cmd.ctx ≠ e.ctx) ∧ (∀ j ∈ u.dies[d].waits, j.cmd.ctx ≠ e.ctx) ∧
        ∀ ch : Fin 4, u.dies[d].chains[ch].owner = some e.ctx → u.dies[d].chains[ch].quar = true := by
      rw [die]
      exact ⟨drop_bell, drop_waits, drop_chains⟩
    exact left_

end

end Sys2Proof.Machine
end

section
/-! PROOFS. The shepherd's entries: O55 (R321 to R326, R330, R349, R355). -/

namespace Sys2Proof.Machine

open Sys2Proof

/-! ### The entry that is taken, told from the state before the look at the queues -/

section
variable {s : State} {q l : Nat} {bs : List Byte}

/-- The state once the entry is taken: its queue's record is the one looked at, the rest the state's own. -/
theorem withTaken_lookQueues : s.lookQueues.withTaken q l bs =
    { s.lookQueues.setQueue q { s.lookQueues.queue q with
        taken := BitVec.ofNat 64 ((s.lookQueues.queue q).taken.toNat + 1), clock := s.time } with
      entries := s.entries ++ [s.lookQueues.nextEntry q l bs], lastQid := s.lastQid.setIfInBounds l q } := by
  rw [State.withTaken, lookQueues_time, lookQueues_entries, lookQueues_lastQid]

variable (due : s.time % 64 = 0) (choice : s.lookQueues.chooseQueue = some (q, l))
include due choice

/-- Of a context whose key slot is bound to another nothing is done but the alarm. -/
theorem shepherdTake_unbound (unbound : s.keyBound (s.lookQueues.queue q).ctx = false) : exec .shepherdTake s = .next { s.lookQueues with
    todo := s.todo ++ [.ev .alarmClassB { a := (s.lookQueues.queue q).ctx, b := 0 }] } := by
  rw [shepherdTake_takes due choice, takeEntry_unbound ((lookQueues_keyBound s _).trans unbound), State.alarmB, lookQueues_todo]

variable (bound : s.keyBound (s.lookQueues.queue q).ctx = true)
  (read : s.vread (s.lookQueues.queue q).ctx ((s.lookQueues.queue q).slotVa ((s.lookQueues.queue q).taken.toNat + 1)) 64 = .ok bs)
include bound read

theorem shepherdTake_closed (closed : (s.ctx (s.lookQueues.queue q).ctx).closed = true) : exec .shepherdTake s =
    .next ((s.lookQueues.withTaken q l bs).complete (s.lookQueues.nextEntry q l bs) 9 2 0 0) := by
  rw [← lookQueues_keyBound] at bound
  rw [← lookQueues_vread] at read
  rw [← lookQueues_ctx] at closed
  rw [shepherdTake_takes due choice, takeEntry_closed bound read closed]

variable (open_ : (s.ctx (s.lookQueues.queue q).ctx).closed = false)
include open_

theorem shepherdTake_bad (bad : entryBad ((List.range 8).map (wordAt bs)) = true) : exec .shepherdTake s =
    .next ((s.lookQueues.withTaken q l bs).complete (s.lookQueues.nextEntry q l bs) 9 1 0 0) := by
  rw [← lookQueues_keyBound] at bound
  rw [← lookQueues_vread] at read
  rw [← lookQueues_ctx] at open_
  rw [shepherdTake_takes due choice, takeEntry_bad bound read open_ bad]

theorem shepherdTake_good {i : Instr} (good : entryBad ((List.range 8).map (wordAt bs)) = false)
    (row : opcRow ((((List.range 8).map (wordAt bs)).getD 0 0).toNat / 2 ^ 56) = some i) : exec .shepherdTake s =
    .next { s.lookQueues.withTaken q l bs with
      todo := .ev i { a := q, b := (s.lookQueues.queue q).taken.toNat + 1 } :: s.todo } := by
  rw [← lookQueues_keyBound] at bound
  rw [← lookQueues_vread] at read
  rw [← lookQueues_ctx] at open_
  rw [shepherdTake_takes due choice, takeEntry_good bound read open_ good row, lookQueues_todo]

end

/-- Settles O55, clause by clause: SHEPHERD_TAKE, the rows of one entry, and what guards them all. -/
theorem shepherdEntries : Obligations.ShepherdEntries := by
  unfold Obligations.ShepherdEntries
  intro s
  refine ⟨fun between => ⟨s, shepherdTake_between between, rfl⟩, fun q l choice => ?highest,
    fun q x sorted mem before now => lookQueues_starts sorted mem before now, fun due none_ => ⟨_, shepherdTake_none due none_, rfl⟩,
    fun q l bs due choice => ?takes, fun e work => ⟨?_, ?_, ?_, ?_, ?_, ?_, ?_, ?_, ?_, ?_, ?_⟩,
    fun q l due choice unbound => ⟨_, shepherdTake_unbound due choice unbound, rfl⟩, fun i row none_ => ?noEntry,
    fun i row e named => ⟨fun parked => ?parked, fun parked res unbound => ?unbound⟩⟩
  case highest =>
    obtain ⟨mem, most⟩ := chooseQueue_highest choice
    obtain ⟨⟨p, x⟩, hx, eligible, same⟩ := mem_candidates.1 mem
    obtain ⟨rfl, level⟩ := Prod.mk.inj same
    exact ⟨x, hx, eligible, level, fun y hy now => most _ (mem_candidates.2 ⟨y, hy, now, rfl⟩)⟩
  case takes =>
    dsimp only
    intro bound read
    refine ⟨fun closed => ⟨_, shepherdTake_closed due choice bound read ((closed_iff _).2 closed), ?_⟩, fun quar tearing en =>
      have open_ := not_closed quar tearing en
      ⟨fun bad => ⟨_, shepherdTake_bad due choice bound read open_ bad, ?_⟩,
        fun i good row => ⟨_, shepherdTake_good due choice bound read open_ good row, ?_⟩⟩⟩
    all_goals
      rw [withTaken_lookQueues]
      rfl
  · exact fun queue reached => ⟨_, wait_reached work queue reached, rfl⟩
  · exact fun queue below => ⟨_, wait_waits work queue below, rfl⟩
  · exact fun noQueue => ⟨_, wait_noQueue work noQueue, rfl⟩
  · exact fun misaligned => ⟨_, signal_misaligned work misaligned, rfl⟩
  · exact fun pl old t aligned places read write => ⟨_, signal_written work aligned places read write, rfl⟩
  · exact fun d phase done_ => ⟨_, table_committed work phase done_, rfl⟩
  · exact fun phase bad => ⟨_, table_bad work phase bad, rfl⟩
  · exact fun t phase count most chain_ first =>
      ⟨fun other => ⟨_, table_notOwn work phase count most chain_ other, rfl⟩,
        fun quar own idle items => table_commits work phase count most chain_ quar own idle first items⟩
  · exact fun phase other => ⟨_, teardown_other work phase other, rfl⟩
  · exact fun phase own quar => ⟨_, teardown_quarantined work phase own quar, rfl⟩
  · exact fun phase own quar => teardown_quarantines work phase own quar
  all_goals obtain ⟨f, step⟩ := exec_entryRows row
  case noEntry => exact ⟨s, (step s).trans (entryRow_none none_ f), rfl⟩
  case parked => exact ⟨s, (step s).trans (entryRow_parked named parked f), rfl⟩
  case unbound => exact ⟨_, (step s).trans ((entryRow_keyGuard named parked res f).trans (keyGuard_unbound unbound 0 _)), rfl⟩

end Sys2Proof.Machine
end

section
/-! PROOFS. How an instance is placed: its operators are read, and it gets one pen for each spot, in PID order (R327 to R329). -/

namespace Sys2Proof.Machine

open Sys2Proof

/-! ### Reading its operators -/

theorem storedOnly_readOp (s : State) (e : Entry) (im : Image) (va i : Nat) : StoredOnly s (s.readOp e im va i).1 := by
  unfold State.readOp
  extract_lets ti t who
  have fetched := storedOnly_fetchPlane s who (va + t.img) (t.rows * t.cols)
  split
  · next none_ => rwa [none_] at fetched
  · next some_ =>
    rw [some_] at fetched
    split
    · exact fetched
    · split <;> exact fetched

theorem storedOnly_readOps (s : State) (e : Entry) (im : Image) (va n i : Nat) : StoredOnly s (s.readOps e im va n i).1 := by
  induction n generalizing s i with
  | zero => exact .refl s
  | succ n ih =>
    have first := storedOnly_readOp s e im va i
    unfold State.readOps
    split
    · next u l here =>
      rw [here] at first
      have more := first.trans (ih u (i + 1))
      split <;> next there => rwa [there] at more
    · next here => rwa [here] at first

/-! ### What putting cores and memory in place leaves -/

/-- At most cores, memory with its marks, and loads in flight differ. -/
def BuiltOnly (s t : State) : Prop := t = { s with cores := t.cores, mem := t.mem, poison := t.poison, late := t.late }

theorem BuiltOnly.refl (s : State) : BuiltOnly s s := rfl

theorem BuiltOnly.trans {s t u : State} (a : BuiltOnly s t) (b : BuiltOnly t u) : BuiltOnly s u :=
  Eq.trans (b : u = _) (congrArg (fun x : State => { x with
    cores := u.cores, mem := u.mem, poison := u.poison, late := u.late }) (a : t = _) :)

theorem BuiltOnly.foldl {α : Type} {f : State → α → State} (hf : ∀ s x, BuiltOnly s (f s x)) (xs : List α) (s : State) :
    BuiltOnly s (xs.foldl f s) := by
  induction xs generalizing s with
  | nil => exact .refl s
  | cons x xs ih => exact (hf s x).trans (ih (f s x))

section
variable {s t : State} (h : BuiltOnly s t)
include h

theorem BuiltOnly.pens : t.pens = s.pens := (congrArg State.pens h :)

theorem BuiltOnly.entries : t.entries = s.entries := (congrArg State.entries h :)

end

section
variable (s : State)

theorem builtOnly_setCore (c : Nat) (k : Core) : BuiltOnly s (s.setCore c k) := rfl

theorem builtOnly_modCore (c : Nat) (f : Core → Core) : BuiltOnly s (s.modCore c f) := rfl

theorem builtOnly_nearWrite (addr : Nat) (bs : List Byte) : BuiltOnly s (s.nearWrite addr bs) := rfl

theorem builtOnly_cleanPlane (base : Nat) (cs : List Nat) : BuiltOnly s (s.cleanPlane base cs) := rfl

theorem builtOnly_assignEngines (cs : List Nat) : BuiltOnly s (s.assignEngines cs) := by
  refine .foldl (fun s d => ?_) _ s
  exact .foldl (fun s _ => builtOnly_modCore s _ _) _ s

/-- A live plane is put into the cores of a pen, and its record says so (R327). -/
theorem setLive_built (h : Nat) (l : Loaded) : ∃ u, BuiltOnly s u ∧
    s.setLive h l = u.modPen h (fun p => { p with n := l.n, lens := l.lens, liveStat := l.stat }) :=
  ⟨_, ((builtOnly_cleanPlane s _ _).trans (builtOnly_cleanPlane _ _ _)).trans (.foldl (fun s _ => builtOnly_modCore s _ _) _ _), rfl⟩

end

/-! ### One pen of an instance -/

/-- The pen is an instance's, at its spot, and is to start: the record PensPlaced asks for. -/
def Pen.standsAt (p : Pen) (e : Entry) (sp : Spot) (pid : Nat) : Prop :=
  p.live = true ∧ p.qid = e.qid ∧ p.seq = e.seq ∧ p.ctx = e.ctx ∧ p.pid = BitVec.ofNat 16 pid ∧ p.die = sp.die ∧
    p.row = sp.row ∧ p.col = sp.col ∧ p.frozen = .running ∧ p.inTick = false

/-- One pen has come to the others, and no entry has changed. -/
structure PenAdded (s : State) (e : Entry) (sp : Spot) (pid : Nat) (t : State) : Prop where
  entries : t.entries = s.entries
  length : t.pens.length = s.pens.length + 1
  old : ∀ j < s.pens.length, t.pen j = s.pen j
  new : (t.pen s.pens.length).standsAt e sp pid

section
variable {s t u : State} {e : Entry} {sp : Spot} {pid : Nat}

theorem penAdded_append {p : Pen} (stands : p.standsAt e sp pid) : PenAdded s e sp pid { s with pens := s.pens ++ [p] } where
  entries := rfl
  length := List.length_append
  old _ lt := List.getD_append _ _ _ _ lt
  new := by simpa [State.pen] using stands

theorem PenAdded.built (a : PenAdded s e sp pid t) (b : BuiltOnly t u) : PenAdded s e sp pid u where
  entries := b.entries.trans a.entries
  length := by rw [b.pens, a.length]
  old j lt := by rw [← a.old j lt, State.pen, b.pens, State.pen]
  new := by
    rw [State.pen, b.pens]
    exact a.new

/-- A change of the new pen that it still stands after. -/
theorem PenAdded.modPen (a : PenAdded s e sp pid t) {f : Pen → Pen} (keeps : ∀ p : Pen, p.standsAt e sp pid → (f p).standsAt e sp pid) :
    PenAdded s e sp pid (t.modPen s.pens.length f) where
  entries := a.entries
  length := (pens_length_modPen t _ f).trans a.length
  old j lt := (pen_modPen_of_ne t f (Nat.ne_of_lt lt)).trans (a.old j lt)
  new := by
    rw [pen_modPen_self t f (by rw [a.length]; exact Nat.lt_succ_self _)]
    exact keeps _ a.new

end

theorem penAdded_putPen (s : State) (e : Entry) (blk : List W64) (tdt : W64) (im : Image) (base pid : Nat) (sp : Spot) (l : Loaded)
    (pals : List Byte) (datas : List (Nat × List Byte)) : PenAdded s e sp pid (s.putPen e blk tdt im base pid sp l pals datas) := by
  unfold State.putPen
  extract_lets op t h ks p s1 s2 s3 s4
  have added : PenAdded s e sp pid s1 := penAdded_append ⟨rfl, rfl, rfl, rfl, rfl, rfl, rfl, rfl, rfl, rfl⟩
  have cores : BuiltOnly s1 s2 :=
    .foldl (fun s x => (builtOnly_setCore s _ _).trans (.foldl (fun s d => builtOnly_nearWrite s _ _) _ _)) _ _
  have windows : BuiltOnly s2 s3 :=
    .foldl (fun s o => .foldl (fun s q => .foldl (fun s t => builtOnly_nearWrite s _ _) _ s) _ s) _ _
  have live : PenAdded s e sp pid s4 := by
    obtain ⟨u, built, eq⟩ := setLive_built s3 h l
    dsimp only [s4]
    rw [eq]
    exact ((added.built (cores.trans windows)).built built).modPen (fun _ stands => stands)
  split
  · exact live.modPen (fun _ stands => stands)
  · exact live

/-! ### Every pen of an instance -/

/-- The pens of a placement, before its entry is told. -/
structure Placed (s : State) (e : Entry) (spots : List Spot) (t : State) : Prop where
  entries : t.entries = s.entries
  pens : PensPlaced s e spots t

theorem pensPlaced_iff {s t : State} {e : Entry} {spots : List Spot} : PensPlaced s e spots t ↔
    t.pens.length = s.pens.length + spots.length ∧ ∀ i (hi : i < spots.length), (t.pen (s.pens.length + i)).standsAt e spots[i] i :=
  Iff.rfl

/-- Steps that each add a pen leave one for each of them, in their order. -/
theorem foldl_penAdded {e : Entry} {f : State → Spot × Nat → State} (adds : ∀ s x, PenAdded s e x.1 x.2 (f s x)) (xs : List (Spot × Nat))
    (s : State) : (xs.foldl f s).entries = s.entries ∧ (xs.foldl f s).pens.length = s.pens.length + xs.length ∧
      (∀ j < s.pens.length, (xs.foldl f s).pen j = s.pen j) ∧
      ∀ i (hi : i < xs.length), ((xs.foldl f s).pen (s.pens.length + i)).standsAt e xs[i].1 xs[i].2 := by
  induction xs generalizing s with
  | nil => exact ⟨rfl, rfl, fun _ _ => rfl, nofun⟩
  | cons x xs ih =>
    have here := adds s x
    obtain ⟨entries, length, old, new⟩ := ih (f s x)
    rw [here.length] at length old new
    refine ⟨entries.trans here.entries, ?_, fun j lt => (old j (Nat.lt_succ_of_lt lt)).trans (here.old j lt), fun i hi => ?_⟩
    · rw [List.foldl_cons, length, List.length_cons]
      omega
    · cases i with
      | zero =>
        rw [List.foldl_cons, Nat.add_zero, old _ (Nat.lt_succ_self _)]
        exact here.new
      | succ i =>
        have later := new i (Nat.lt_of_succ_lt_succ hi)
        rwa [Nat.succ_add_eq_add_succ] at later

theorem placed_build (s : State) (e : Entry) (blk : List W64) (tdt : W64) (im : Image) (spots : List Spot) (ls : List OpLoad) :
    Placed s e spots (s.build e blk tdt im spots ls) := by
  let f := fun (t : State) (x : Spot × Nat) =>
    t.putPen e blk tdt im s.edges.length x.2 x.1 (ls.getD x.1.op {}).plane (ls.getD x.1.op {}).pals (ls.getD x.1.op {}).datas
  obtain ⟨entries, length, -, new⟩ := foldl_penAdded (f := f) (e := e) (fun s x => penAdded_putPen s e blk tdt im _ x.2 x.1 _ _ _) spots.zipIdx s
  have engines : ∃ es cs, s.build e blk tdt im spots ls = ({ spots.zipIdx.foldl f s with edges := es } : State).assignEngines cs := ⟨_, _, rfl⟩
  obtain ⟨es, cs, eq⟩ := engines
  have built := builtOnly_assignEngines { spots.zipIdx.foldl f s with edges := es } cs
  rw [← eq] at built
  have pen (h : Nat) : (s.build e blk tdt im spots ls).pen h = (spots.zipIdx.foldl f s).pen h := by rw [State.pen, built.pens]; rfl
  refine ⟨built.entries.trans entries, pensPlaced_iff.2 ⟨?_, fun i hi => ?_⟩⟩
  · rw [built.pens]
    simpa using length
  · have stands := new i (by simpa using hi)
    rw [pen]
    simpa using stands

/-! ### A command that the shepherd posts to a demand unit -/

/-- The command it posts for an entry. -/
def State.hostMsg (s : State) (e : Entry) (w : Instr) (h : Nat) (cmd a b : W64) : Cmd :=
  { id := s.fresh, pen := h, ctx := e.ctx, word := w, cmd := cmd, a := a, b := b, host := some (e.qid, e.seq), noTick := true }

section
variable (s : State) (e : Entry) (w : Instr) (cmd a b : W64)

theorem hostCmd_eq (h : Nat) : s.hostCmd e w h cmd a b = { s with fresh := s.fresh + 1 }.modPen h (fun p =>
    { p with du := { p.du with inbox := p.du.inbox ++ [s.hostMsg e w h cmd a b] } }) := rfl

theorem pens_length_hostCmd (h : Nat) : (s.hostCmd e w h cmd a b).pens.length = s.pens.length := pens_length_modPen _ h _

theorem pen_hostCmd_self {h : Nat} (lt : h < s.pens.length) : (s.hostCmd e w h cmd a b).pen h =
    { s.pen h with du := { (s.pen h).du with inbox := (s.pen h).du.inbox ++ [s.hostMsg e w h cmd a b] } } := by
  rw [hostCmd_eq, pen_modPen_self { s with fresh := s.fresh + 1 } _ lt]
  rfl

theorem pen_hostCmd_of_ne {h j : Nat} (ne : j ≠ h) : (s.hostCmd e w h cmd a b).pen j = s.pen j := by
  rw [hostCmd_eq, pen_modPen_of_ne _ _ ne]
  rfl

theorem pens_hostCmd_past {h : Nat} (past : s.pens.length ≤ h) : (s.hostCmd e w h cmd a b).pens = s.pens :=
  List.set_eq_of_length_le past

end

/-! ### What follows the placement -/

section
variable {s t u : State} {e : Entry} {spots : List Spot}

/-- A placement is one of the state its operators were read from. -/
theorem Placed.stored (stored : StoredOnly s t) (h : Placed t e spots u) : Placed s e spots u where
  entries := h.entries.trans stored.entries
  pens := by
    have pens := h.pens
    rwa [PensPlaced, stored.units.pens] at pens

/-- A command posted to a demand unit leaves each pen where it stands. -/
theorem standsAt_hostCmd {sp : Spot} {pid h j : Nat} (stands : (t.pen j).standsAt e sp pid) (x : Entry) (w : Instr) (cmd a b : W64) :
    ((t.hostCmd x w h cmd a b).pen j).standsAt e sp pid := by
  by_cases other : j ≠ h
  · rwa [pen_hostCmd_of_ne t x w cmd a b other]
  obtain rfl := not_not.1 other
  by_cases lt : j < t.pens.length
  · rw [pen_hostCmd_self t x w cmd a b lt]
    exact stands
  · rwa [State.pen, pens_hostCmd_past t x w cmd a b (Nat.not_lt.1 lt), ← State.pen]

theorem Placed.hostCmd (h : Placed s e spots t) (x : Entry) (w : Instr) (g : Nat) (cmd a b : W64) :
    Placed s e spots (t.hostCmd x w g cmd a b) := by
  obtain ⟨length, stands⟩ := pensPlaced_iff.1 h.pens
  exact ⟨h.entries, pensPlaced_iff.2 ⟨(pens_length_hostCmd ..).trans length, fun i hi => standsAt_hostCmd (stands i hi) x w cmd a b⟩⟩

/-- A replay's demand is posted after its placement (R331). -/
theorem Placed.replayDemand (h : Placed s e spots t) (x : Entry) : Placed s e spots (t.replayDemand x) := by
  unfold State.replayDemand
  split
  · exact h
  · exact h.hostCmd x _ _ _ _ _

/-- The entry waits for its pens. -/
theorem Placed.waits (h : Placed s e spots t) (named : s.entry? e.qid e.seq = some e) (some_ : spots ≠ []) :
    PensPlaced s e spots (t.placed e spots) ∧ (t.placed e spots).entry? e.qid e.seq = some { e with phase := 2, nums := [] } := by
  rw [State.placed, if_neg some_]
  refine ⟨h.pens, ?_⟩
  rw [entry_modEntry, entry_congr h.entries, named]
  · rfl
  · exact fun _ => ⟨rfl, rfl⟩

end

end Sys2Proof.Machine
end

section
/-! PROOFS. LAUNCH, REPLAY, PATCH, DEMAND, EXPORT and IMPORT: O56 (R322, R325, R327 to R329, R331). -/

namespace Sys2Proof.Machine

open Sys2Proof

/-! ### Placing a block for an entry (R325, R327, R328) -/

section
variable {s : State} {e : Entry} {blk : List W64} {im : Image} (tdt : W64) (after_ : State → State)
  (image : s.readImage e.ctx (blkW blk 0).toNat = .ok im)
include image

theorem launchWith_bad (bad : blkBad blk im = true) : s.launchWith e blk tdt after_ = s.complete e 9 1 0 0 := by
  simp only [State.launchWith, image, bad, if_true]

variable (good : blkBad blk im = false) (first : ∀ x ∈ s.entries, x.ctx = e.ctx → x.phase = 50 → x.level ≤ e.level)
include good first

/-- No casting of a higher level waits: the entry is placed, or its lack of room is dealt with. -/
theorem launchWith_unfit (none_ : placeAll im (s.coreFree e.ctx) (blkPlaces blk) = none) (noArea : (s.ctx e.ctx).w[4] = 0) :
    s.launchWith e blk tdt after_ = s.complete e 9 6 0 0 := by
  have none_waits : s.entries.any (fun x => x.ctx = e.ctx && x.phase = 50 && decide (e.level < x.level)) = false := by
    simpa [and_imp] using first
  simp [State.launchWith, image, good, none_waits, none_, noArea]

theorem launchWith_fits {spots : List Spot} {t : State} {ls : List OpLoad}
    (fits : placeAll im (s.coreFree e.ctx) (blkPlaces blk) = some spots)
    (read : s.readOps e im (blkW blk 0).toNat im.ops.length 0 = (t, .ok ls)) :
    s.launchWith e blk tdt after_ = (after_ (t.build e blk tdt im spots ls)).placed e spots := by
  have none_waits : s.entries.any (fun x => x.ctx = e.ctx && x.phase = 50 && decide (e.level < x.level)) = false := by
    simpa [and_imp] using first
  simp only [State.launchWith, image, good, none_waits, fits, read, Bool.false_eq_true, if_false]

/-- It gets its pens and waits for them, when what follows the placement leaves both alone. -/
theorem launchWith_places (named : s.entry? e.qid e.seq = some e) {spots : List Spot} {t : State} {ls : List OpLoad}
    (fits : placeAll im (s.coreFree e.ctx) (blkPlaces blk) = some spots) (some_ : spots ≠ [])
    (read : s.readOps e im (blkW blk 0).toNat im.ops.length 0 = (t, .ok ls))
    (keeps : ∀ u, Placed s e spots u → Placed s e spots (after_ u)) :
    PensPlaced s e spots (s.launchWith e blk tdt after_) ∧
      (s.launchWith e blk tdt after_).entry? e.qid e.seq = some { e with phase := 2, nums := [] } := by
  have stored := storedOnly_readOps s e im (blkW blk 0).toNat im.ops.length 0
  rw [read] at stored
  rw [launchWith_fits tdt after_ image good first fits read]
  exact (keeps _ ((placed_build t e blk tdt im spots ls).stored stored)).waits named some_

end

/-! ### LAUNCH (R327) -/

/-- A graph that is kept has version 0 with this instance bound to it (R331). -/
def State.keepGraph (s : State) (e : Entry) (blk : List W64) : State :=
  if bitAt (blkW blk 3).toNat 26 then
    { s with graphs := s.graphs.filter (fun g => !(g.qid = e.qid && g.seq = e.seq))
               ++ [{ qid := e.qid, seq := e.seq, ctx := e.ctx, blk := blk, bound := [(0, e.qid, e.seq)] }] }
  else s

theorem Placed.keepGraph {s u : State} {e : Entry} {spots : List Spot} (h : Placed s e spots u) (x : Entry) (blk : List W64) :
    Placed s e spots (u.keepGraph x blk) := by
  unfold State.keepGraph
  split
  · exact ⟨h.entries, h.pens⟩
  · exact h

section
variable {s : State} {e : Entry} (work : AtWork s e) (phase : e.phase = 0)
include work phase

theorem launch_misaligned (h : (e.word 1).toNat % 64 ≠ 0) : exec .launch s = .next (s.complete e 9 1 0 0) := by
  show execLaunch s = _
  rw [execLaunch, entryRow_atWork work]
  simp only [phase, Nat.zero_ne_one, if_false, bne_self_eq_false, Bool.false_eq_true, bne_iff_ne, ne_eq, h, not_false_iff, if_true]

theorem launch_block (aligned : (e.word 1).toNat % 64 = 0) {blk : List W64} (block : s.readBlock e.ctx (e.word 1).toNat = .ok blk) :
    exec .launch s = .next (s.launchWith e blk (blkW blk 1) (fun s => s.keepGraph e blk)) := by
  show execLaunch s = _
  rw [execLaunch, entryRow_atWork work]
  simp only [phase, Nat.zero_ne_one, if_false, bne_self_eq_false, Bool.false_eq_true, aligned, block]
  rfl

end

/-! ### REPLAY (R331) -/

/-- Of a replay that is still at work no version is let go. -/
def State.unbindDone (s : State) (e : Entry) : State :=
  if (s.entry? e.qid e.seq).all (fun x => x.res.isSome) then s.unbind e.qid e.seq else s

section
variable {s : State} {e : Entry} (fresh_ : ∀ d ∈ s.dones, d.cmd.host ≠ some (e.qid, e.seq))
include fresh_

/-- No answer of an earlier instance is left to drop. -/
theorem dones_kept : ({ s with dones := s.dones.filter (fun d => d.cmd.host != some (e.qid, e.seq)) } : State) = s := by
  have kept : s.dones.filter (fun d => d.cmd.host != some (e.qid, e.seq)) = s.dones :=
    List.filter_eq_self.2 (fun d hd => by simpa using fresh_ d hd)
  rw [kept]

variable (work : AtWork s e) (phase : e.phase = 0)
include work phase

theorem replay_noGraph (none_ : s.graphOf e = none) : exec .replay s = .next (s.complete e 9 1 0 0) := by
  show execReplay s = _
  rw [execReplay, entryRow_atWork work]
  simp only [dones_kept fresh_, phase, Nat.zero_ne_one, if_false, bne_self_eq_false, Bool.false_eq_true, none_]

theorem replay_bound {g : Graph} {v : Nat} {im : Image} (graph : s.graphOf e = some g)
    (bound : g.bound.find? (fun b => b.2 = (e.qid, e.seq)) = some (v, e.qid, e.seq))
    (image : s.readImage e.ctx (blkW g.blk 0).toNat = .ok im) (sink : sinkIn g.blk im (e.word 3) = true)
    (small4 : (e.word 4).toNat < 2 ^ 48) (small5 : (e.word 5).toNat < 2 ^ 48) :
    exec .replay s = .next ((s.launchWith e g.blk (g.table v) (fun s => s.replayDemand e)).unbindDone e) := by
  have high (w : W64) (h : w.toNat < 2 ^ 48) : bitsOf w 63 48 = 0 := by
    show w.toNat / 2 ^ 48 % 2 ^ 16 = 0
    omega
  show execReplay s = _
  rw [execReplay, entryRow_atWork work]
  simp only [dones_kept fresh_, phase, Nat.zero_ne_one, if_false, bne_self_eq_false, Bool.false_eq_true, graph, bound, image,
    sink, high _ small4, high _ small5, Option.isSome_some, if_true, Option.map_some, Option.getD_some, Bool.not_true, Bool.or_self]
  rfl

end

/-! ### PATCH (R331) -/

/-- No entry stands before the first one. -/
theorem takeWhile_first {s : State} {e : Entry} (head : s.entries.head? = some e) :
    s.entries.takeWhile (fun x => !(x.qid = e.qid && x.seq = e.seq)) = [] := by
  obtain ⟨rest, entries⟩ := List.head?_eq_some_iff.1 head
  rw [entries]
  simp

section
variable {s : State} {e : Entry} (work : AtWork s e)
include work

theorem patch_noGraph (none_ : s.graphOf e = none) : exec .patch s = .next (s.complete e 9 1 0 0) := by
  show execPatch s = _
  rw [execPatch, entryRow_atWork work]
  simp only [none_]

theorem patch_makes {g : Graph} {items tab tab' : List Byte} {t : State} (graph : s.graphOf e = some g) (head : s.entries.head? = some e)
    (count : e.word 4 ≠ 0) (free : ∀ x ∈ g.live, x = 0 ∨ x = g.newest ∨ x % 4 ≠ (g.newest + 1) % 4)
    (readItems : s.vread e.ctx (e.word 3).toNat (40 * (e.word 4).toNat) = .ok items)
    (readTable : s.vread e.ctx (g.table g.newest).toNat 131072 = .ok tab) (patched : patchTable tab (e.word 4).toNat items = some tab')
    (write : s.vwrite e.ctx (g.table (g.newest + 1)).toNat tab' = .ok t) :
    exec .patch s = .next (({ t with graphs := t.graphs.map (fun (x : Graph) =>
      if x.qid = g.qid ∧ x.seq = g.seq then { x with newest := g.newest + 1 } else x) } : State).complete e 0 0 (g.newest + 1) 0) := by
  have some_ : (e.word 4).toNat ≠ 0 := fun zero => count (BitVec.eq_of_toNat_eq zero)
  have open_ : g.live.any (fun x => x != 0 && x != g.newest && x % 4 = (g.newest + 1) % 4) = false := by
    rw [List.any_eq_false]
    intro x hx
    have := free x hx
    simp only [Bool.and_eq_true, bne_iff_ne, decide_eq_true_eq]
    tauto
  show execPatch s = _
  rw [execPatch, entryRow_atWork work]
  simp only [graph, some_, takeWhile_first head, List.any_nil, open_, readItems, readTable, patched, write, Bool.or_self, if_false,
    Bool.false_eq_true, Bool.and_eq_true, decide_eq_true_eq]

end

/-! ### DEMAND, EXPORT and IMPORT (R322) -/

/-- Each is a command for a demand unit, with its own operands. -/
theorem exec_unitEntry {i : Instr} {e : Entry} {w : Instr} {cmd a b : W64} (spec : unitSpec e i = some (w, cmd, a, b)) {s : State}
    (work : AtWork s e) : exec i s = .next (s.unitEntry e w (e.word 3) cmd a b) := by
  unfold unitSpec at spec
  split at spec <;> cases spec
  case h_1 => exact entryRow_atWork work (fun s e => s.unitEntry e .demand (e.word 3) (e.word 3) (e.word 4) (e.word 5))
  case h_2 => exact entryRow_atWork work (fun s e => s.unitEntry e .exportRec (e.word 3) (e.word 4) (e.word 3) 0)
  case h_3 => exact entryRow_atWork work (fun s e => s.unitEntry e .importRec (e.word 3) (e.word 4) (e.word 3) 0)

section
variable {s : State} {e : Entry} (w : Instr) (cmd a b : W64)

theorem unitEntry_noInstance (phase : e.phase = 0) (none_ : s.instOf e = none) :
    s.unitEntry e w (e.word 3) cmd a b = s.complete e 9 1 0 0 := by
  simp only [State.unitEntry, phase, none_, if_true]

section
variable (phase : e.phase = 0) {x : Entry} {h : Nat} (inst : s.instOf e = some x) (sink : s.instSink x.qid x.seq (e.word 3) = some h)
include phase inst sink

theorem unitEntry_full (full : 16 ≤ s.duLoad h) : s.unitEntry e w (e.word 3) cmd a b = s := by
  simp only [State.unitEntry, phase, inst, sink, full, if_true]

theorem unitEntry_posts (room : s.duLoad h < 16) : s.unitEntry e w (e.word 3) cmd a b =
    (s.hostCmd e w h cmd a b).modEntry e.qid e.seq (fun x => { x with phase := 1 }) := by
  simp only [State.unitEntry, phase, inst, sink, Nat.not_le.2 room, if_true, if_false]

end

section
variable (phase : e.phase = 1)
include phase

theorem unitEntry_waits (none_ : s.dones.find? (fun d => d.cmd.host = some (e.qid, e.seq)) = none) :
    s.unitEntry e w (e.word 3) cmd a b = s := by
  simp only [State.unitEntry, phase, none_, Nat.one_ne_zero, if_false]

theorem unitEntry_answered {d : Done} (done_ : s.dones.find? (fun d => d.cmd.host = some (e.qid, e.seq)) = some d) :
    s.unitEntry e w (e.word 3) cmd a b = s.complete e d.code (d.detail.toNat % 256) d.e4.toNat d.value := by
  simp only [State.unitEntry, phase, done_, Nat.one_ne_zero, if_false]

end

end

/-! ### The obligation -/

section
variable {s : State} {e : Entry} (work : AtWork s e)
include work

theorem launch_places (phase : e.phase = 0) (aligned : (e.word 1).toNat % 64 = 0) {blk : List W64} {im : Image}
    (block : s.readBlock e.ctx (e.word 1).toNat = .ok blk) (image : s.readImage e.ctx (blkW blk 0).toNat = .ok im)
    (good : blkBad blk im = false) (first : ∀ x ∈ s.entries, x.ctx = e.ctx → x.phase = 50 → x.level ≤ e.level)
    {spots : List Spot} {t : State} {ls : List OpLoad} (fits : placeAll im (s.coreFree e.ctx) (blkPlaces blk) = some spots)
    (some_ : spots ≠ []) (read : s.readOps e im (blkW blk 0).toNat im.ops.length 0 = (t, .ok ls)) :
    After (exec .launch s) (fun t => PensPlaced s e spots t ∧ (t.entry? e.qid e.seq).map (·.phase) = some 2) := by
  obtain ⟨pens, waits⟩ := launchWith_places (blkW blk 1) (fun s => s.keepGraph e blk) image good first work.named fits some_ read
    (fun _ placed => placed.keepGraph e blk)
  exact ⟨_, launch_block work phase aligned block, pens, by rw [waits]; rfl⟩

theorem replay_places (phase : e.phase = 0) {g : Graph} {v : Nat} {im : Image} (graph : s.graphOf e = some g)
    (fresh_ : ∀ d ∈ s.dones, d.cmd.host ≠ some (e.qid, e.seq))
    (bound : g.bound.find? (fun b => b.2 = (e.qid, e.seq)) = some (v, e.qid, e.seq))
    (image : s.readImage e.ctx (blkW g.blk 0).toNat = .ok im) (sink : sinkIn g.blk im (e.word 3) = true)
    (small4 : (e.word 4).toNat < 2 ^ 48) (small5 : (e.word 5).toNat < 2 ^ 48)
    (good : blkBad g.blk im = false) (first : ∀ x ∈ s.entries, x.ctx = e.ctx → x.phase = 50 → x.level ≤ e.level)
    {spots : List Spot} {t : State} {ls : List OpLoad} (fits : placeAll im (s.coreFree e.ctx) (blkPlaces g.blk) = some spots)
    (some_ : spots ≠ []) (read : s.readOps e im (blkW g.blk 0).toNat im.ops.length 0 = (t, .ok ls)) :
    After (exec .replay s) (fun t => PensPlaced s e spots t ∧ (t.entry? e.qid e.seq).map (·.phase) = some 2) := by
  obtain ⟨pens, waits⟩ := launchWith_places (g.table v) (fun s => s.replayDemand e) image good first work.named fits some_ read
    (fun _ placed => placed.replayDemand e)
  have stays : (s.launchWith e g.blk (g.table v) (fun s => s.replayDemand e)).unbindDone e =
      s.launchWith e g.blk (g.table v) (fun s => s.replayDemand e) := by
    obtain ⟨-, -, res, -⟩ := work
    rw [State.unbindDone, if_neg]
    simp [waits, res]
  exact ⟨_, (replay_bound fresh_ work phase graph bound image sink small4 small5).trans (congrArg _ stays), pens, by rw [waits]; rfl⟩

/-- The command stands in the demand unit's inbox, and the entry waits for its answer. -/
theorem unitEntry_posted (phase : e.phase = 0) (w : Instr) (cmd a b : W64) {x : Entry} {h : Nat} (inst : s.instOf e = some x)
    (sink : s.instSink x.qid x.seq (e.word 3) = some h) (lt : h < s.pens.length) (room : s.duLoad h < 16) :
    let t := s.unitEntry e w (e.word 3) cmd a b
    (t.entry? e.qid e.seq).map (·.phase) = some 1 ∧ t.mem = s.mem ∧
      ∃ m, (t.pen h).du.inbox = (s.pen h).du.inbox ++ [m] ∧ m.word = w ∧ m.cmd = cmd ∧ m.a = a ∧ m.b = b ∧ m.ctx = e.ctx ∧
        m.host = some (e.qid, e.seq) := by
  dsimp only
  rw [unitEntry_posts w cmd a b phase inst sink room]
  refine ⟨?_, rfl, s.hostMsg e w h cmd a b, ?_, rfl, rfl, rfl, rfl, rfl, rfl⟩
  · have entries : (s.hostCmd e w h cmd a b).entries = s.entries := rfl
    rw [entry_modEntry, entry_congr entries, work.named]
    · rfl
    · exact fun _ => ⟨rfl, rfl⟩
  · exact congrArg (fun p : Pen => p.du.inbox) (pen_hostCmd_self s e w cmd a b lt)

end

/-- Settles O56, command by command: LAUNCH and REPLAY by the pens they place, PATCH by its table, the others by their demand unit. -/
theorem instanceEntries : Obligations.InstanceEntries := by
  unfold Obligations.InstanceEntries
  intro s e work
  refine ⟨fun phase misaligned => ⟨_, launch_misaligned work phase misaligned, rfl⟩, fun blk im phase aligned block image => ?launch,
    fun phase none_ fresh_ => ⟨_, replay_noGraph fresh_ work phase none_, rfl⟩,
    fun g v im spots t ls phase graph fresh_ bound image sink small4 small5 good first fits some_ read =>
      replay_places work phase graph fresh_ bound image sink small4 small5 good first fits some_ read,
    fun none_ => ⟨_, patch_noGraph work none_, rfl⟩,
    fun g items tab tab' t graph head count free readItems readTable patched write =>
      ⟨_, patch_makes work graph head count free readItems readTable patched write, rfl⟩,
    fun i w cmd a b spec => ?unit⟩
  case launch =>
    have step := launch_block work phase aligned block
    refine ⟨fun bad => ⟨_, step.trans (congrArg _ (launchWith_bad _ _ image bad)), rfl⟩, fun good first => ⟨fun none_ noArea => ?_,
      fun spots t ls fits some_ read => launch_places work phase aligned block image good first fits some_ read⟩⟩
    exact ⟨_, step.trans (congrArg _ (launchWith_unfit _ _ image good first none_ noArea)), rfl⟩
  case unit =>
    have step := exec_unitEntry spec work
    refine ⟨fun phase none_ => ?_, fun x h phase inst sink lt => ⟨fun full => ?_, fun room => ?_⟩, fun phase none_ => ?_,
      fun d phase done_ => ?_⟩
    · exact ⟨_, step.trans (congrArg _ (unitEntry_noInstance w cmd a b phase none_)), rfl⟩
    · exact ⟨_, step.trans (congrArg _ (unitEntry_full w cmd a b phase inst sink full)), rfl⟩
    · exact ⟨_, step, unitEntry_posted work phase w cmd a b inst sink lt room⟩
    · exact ⟨_, step.trans (congrArg _ (unitEntry_waits w cmd a b phase none_)), rfl⟩
    · exact ⟨_, step.trans (congrArg _ (unitEntry_answered w cmd a b phase done_)), rfl⟩

end Sys2Proof.Machine
end

section
/-! PROOFS. Reset memory is in its canonical form, and why the statement about errors, alarms, power and resets fails: it overlooks the flits
that a function-level reset may send (R349, R363, R365, R367). -/

namespace Sys2Proof.Machine

open Sys2Proof

/-! ### Reset memory (logs 2, 3) -/

/-- Settles O8: no byte of reset memory has been written, so its list is empty. -/
theorem resetCanonical : Obligations.ResetCanonical := by
  have unwritten : State.reset.mem = [] := rfl
  rw [Obligations.ResetCanonical, State.MemCanonical, unwritten]
  rfl

/-! ### A function-level reset that sends flits (R320, R349, R365, R367) -/

/-- The statement lets a function-level reset change `scrubFirst` of the service state alone, so that no flit goes out. -/
theorem functionLevelReset_silent (h : Obligations.ServiceEvents) (s : State) :
    After (exec .functionLevelReset s) (fun t => t.svc.flitOut = s.svc.flitOut) := by
  obtain ⟨-, -, -, -, -, -, -, -, -, reset, -⟩ := h s
  obtain ⟨t, step, -, -, -, -, svc, -⟩ := reset
  exact ⟨t, step, (congrArg Service.flitOut svc :)⟩

/-- An enabled context, whose range entry maps its first page, for reads and writes, to the first page of member 1's memory (R339, R365). -/
def ctxAbroad : Ctx :=
  { w := (Vector.replicate 8 0).set 2 (BitVec.ofNat 64 (2 ^ 63)), ranges := [(0, 0x1000, 0x4010000000000, 0x800000000000000C)] }

/-- An enabled queue of context 0 with two slots, its ring at virtual address 0 and its completion word at 0x800 (R319), that has given out
its one entry. -/
def queueAbroad : Queue := { w1 := 0x800, w2 := BitVec.ofNat 64 (2 ^ 47 + 2 ^ 43), tail := 1, taken := 1 }

/-- The part in service, with that context and that queue, and the queue's entry 1 at work. -/
def ringAbroad : State :=
  { svc := { boot := 8 }, ctxs := [(0, ctxAbroad)], queues := [(0, queueAbroad)], entries := [{ qid := 0, seq := 1, ctx := 0, w := [] }] }

/-- The reset tears the context down, and its entry completes with ABORTED, detail 2 (R349): the status words, at byte 48 of the slot, and then
COMPSEQ leave for member 1 as writes on link 1 (R320, R321). -/
theorem functionLevelReset_ringAbroad : After (exec .functionLevelReset ringAbroad) (fun t =>
    t.svc.flitOut = [[1, flWrite, 0, 0, 0, 2 ^ 40 + 48] ++ List.replicate 14 0 ++ [2, 9],
      [1, flWrite, 0, 0, 0, 2 ^ 40 + 0x800, 1] ++ List.replicate 7 0]) :=
  ⟨_, rfl, by decide⟩

/-- Refutes O59: a function-level reset tears every enabled context down (R367), and where the ring of a queue lies in a member's memory the
status of an aborted entry is written there by flits, which the service state records as sent. The statement lets the reset change
`scrubFirst` of the service state and nothing else of it. In the state below two flits go out. -/
theorem not_serviceEvents : ¬ Obligations.ServiceEvents := by
  intro h
  obtain ⟨t, step, silent⟩ := functionLevelReset_silent h ringAbroad
  obtain ⟨t', step', sent⟩ := functionLevelReset_ringAbroad
  obtain rfl : t' = t := Host.Outcome.next.inj (step'.symm.trans step)
  have unsent : ringAbroad.svc.flitOut = [] := rfl
  rw [sent, unsent] at silent
  exact absurd silent (List.cons_ne_nil _ _)

end Sys2Proof.Machine
end

section
/-! PROOFS. FREEZE and THAW (R62, R322, R347), and a pre-empted instance that goes back (R325). -/

namespace Sys2Proof.Machine

open Sys2Proof

/-! ### One step for each of several pens -/

/-- Steps that each change one pen alike, and change it once, leave each pen named as one step does. -/
theorem pen_foldl_of_idem {f : State → Nat → State} {g : Pen → Pen} (length : ∀ s h, (f s h).pens.length = s.pens.length)
    (own : ∀ s h, h < s.pens.length → (f s h).pen h = g (s.pen h)) (others : ∀ s h j, j ≠ h → (f s h).pen j = s.pen j)
    (idem : ∀ p, g (g p) = g p) {hs : List Nat} {j : Nat} (hj : j ∈ hs) {s : State} (lt : j < s.pens.length) :
    (hs.foldl f s).pen j = g (s.pen j) := by
  induction hs generalizing s with
  | nil => cases hj
  | cons h hs ih =>
    have lt' : j < (f s h).pens.length := by rwa [length]
    rw [List.foldl_cons]
    rcases List.mem_cons.1 hj with rfl | later
    · by_cases again : j ∈ hs
      · rw [ih again lt', own s j lt, idem]
      · rw [pen_foldl_of_not_mem others again, own s j lt]
    · rw [ih later lt']
      by_cases same : j = h
      · rw [← same, own s j lt, idem]
      · rw [others s h j same]

/-- One byte of a string, as a number. -/
theorem leAt_one (bs : List Byte) (n : Nat) : leAt bs n 1 = (bs.getD n 0).toNat := by
  have head : bs.getD n 0 = (bs.drop n).headD 0 := by
    rw [List.getD_eq_getElem?_getD, ← List.head?_drop, List.headD_eq_head?_getD]
  rw [leAt, head]
  cases bs.drop n with
  | nil => rfl
  | cons b bs => exact Nat.add_zero b.toNat

theorem lt_of_mem_castPens {s : State} {q n h : Nat} (hh : h ∈ s.castPens q n) : h < s.pens.length :=
  (mem_instPens.1 (List.mem_of_mem_filter hh)).1

/-- The length of a casting, written out (R346). -/
theorem castingLen_eq (s : State) (hs : List Nat) (pad : Bool) : s.castingLen hs pad =
    hs.foldl (fun n h => n + 4096 + (s.pen h).h * (s.pen h).w * (0x37800 + if pad then 2 ^ 20 else 0)) 64 := by
  simp only [State.castingLen, Pen.castLen, castCoreLen, Nat.add_assoc]

/-! ### FREEZE (R62, R347) -/

/-- A pen that a freeze wave has reached. -/
def Pen.waved (p : Pen) : Pen := if p.frozen = .running then { p with frozen := .wave } else p

theorem waved_waved (p : Pen) : p.waved.waved = p.waved := by
  unfold Pen.waved
  split <;> simp_all

theorem sendWave_length (s : State) (h : Nat) : (s.sendWave h).pens.length = s.pens.length := by
  unfold State.sendWave
  split
  · exact pens_length_modPen s h _
  · rfl

theorem pen_sendWave_self (s : State) (h : Nat) (lt : h < s.pens.length) : (s.sendWave h).pen h = (s.pen h).waved := by
  unfold State.sendWave Pen.waved
  split
  · exact pen_modPen_self s _ lt
  · rfl

theorem pen_sendWave_of_ne (s : State) (h j : Nat) (hj : j ≠ h) : (s.sendWave h).pen j = s.pen j := by
  unfold State.sendWave
  split
  · exact pen_modPen_of_ne s _ hj
  · rfl

/-- The wave has been sent to some pens. -/
def State.wavedTo (s : State) (hs : List Nat) : State := hs.foldl State.sendWave s

theorem pen_wavedTo {s : State} {hs : List Nat} {h : Nat} (hh : h ∈ hs) (lt : h < s.pens.length) : (s.wavedTo hs).pen h = (s.pen h).waved :=
  pen_foldl_of_idem sendWave_length pen_sendWave_self pen_sendWave_of_ne waved_waved hh lt

theorem wavedTo_mem (s : State) (hs : List Nat) : (s.wavedTo hs).mem = s.mem := foldl_mem (fun s h => sendWave_mem s h) hs s

/-- A wave passes over pens that do not run. -/
theorem wavedTo_of_still {s : State} {hs : List Nat} (still : ∀ h ∈ hs, (s.pen h).frozen ≠ .running) : s.wavedTo hs = s := by
  unfold State.wavedTo
  induction hs with
  | nil => rfl
  | cons h hs ih =>
    have here : s.sendWave h = s := if_neg (still h List.mem_cons_self)
    rw [List.foldl_cons, here, ih fun g hg => still g (List.mem_cons_of_mem h hg)]

/-- A wave that reaches a pen in the middle of a slot has not captured it. -/
theorem not_captured_of_started {s : State} {h : Nat} (wave : (s.pen h).frozen = .wave) (started : (s.pen h).started = true) :
    s.captured h = false := by
  simp [State.captured, wave, started]

section
variable {s : State} {e : Entry} (work : AtWork s e)
include work

theorem exec_freeze_noInst (none_ : s.instOf e = none) : exec .freeze s = .next (s.complete e 9 1 0 0) := by
  show execFreeze s = _
  rw [execFreeze, entryRow_atWork work]
  simp only [none_]

variable {i : Entry} (inst : s.instOf e = some i)
include inst

theorem exec_freeze_bad (bad : (e.word 3).toNat % 4096 ≠ 0 ∨ 2 ≤ (e.word 4).toNat) : exec .freeze s = .next (s.complete e 9 1 0 0) := by
  show execFreeze s = _
  rw [execFreeze, entryRow_atWork work]
  simp only [inst]
  rw [if_pos (by simpa using bad)]

variable (aligned : (e.word 3).toNat % 4096 = 0) (small : (e.word 4).toNat < 2)
include aligned small

/-- A wave that has not captured every pen is all that a FREEZE does. -/
theorem exec_freeze_waves {h : Nat} (hh : h ∈ s.castPens i.qid i.seq)
    (free : (s.wavedTo (s.castPens i.qid i.seq)).captured h = false) : exec .freeze s = .next (s.wavedTo (s.castPens i.qid i.seq)) := by
  have some_ : (!(s.castPens i.qid i.seq).all (s.wavedTo (s.castPens i.qid i.seq)).captured) = true := by
    simpa using ⟨h, hh, free⟩
  show execFreeze s = _
  rw [execFreeze, entryRow_atWork work]
  simp only [inst]
  rw [if_neg (by simp [aligned]; omega)]
  exact congrArg Host.Outcome.next (if_pos some_)

/-- With every pen captured the casting is written, and the entry completes with its length. -/
theorem exec_freeze_casts {t : State} (still : ∀ h ∈ s.castPens i.qid i.seq, (s.pen h).frozen ≠ .running ∧ s.captured h = true)
    (cast : s.castInstance { e with qid := i.qid, seq := i.seq } (e.word 3).toNat ((e.word 4).getLsbD 0) = .ok t) :
    exec .freeze s = .next (t.complete e 0 0 0
      (BitVec.ofNat 64 (t.castingLen (s.castPens i.qid i.seq) ((e.word 4).getLsbD 0)))) := by
  have wave := wavedTo_of_still fun h hh => (still h hh).1
  unfold State.wavedTo at wave
  have all_ : (s.castPens i.qid i.seq).all s.captured = true := List.all_eq_true.2 fun h hh => (still h hh).2
  show execFreeze s = _
  rw [execFreeze, entryRow_atWork work]
  simp only [inst]
  rw [if_neg (by simp [aligned]; omega), wave, if_neg (by rw [all_]; decide), bitAt_toNat, cast]

end

/-- A casting of an instance is stored, and then each of its pens is cast. -/
theorem castInstance_ok {s t : State} {e : Entry} {va : Nat} {pad : Bool} (cast : s.castInstance e va pad = .ok t) :
    ∃ u : State, u.pens = s.pens ∧ t = (s.castPens e.qid e.seq).foldl (fun s h => s.castPen h pad) u := by
  unfold State.castInstance at cast
  dsimp only at cast
  split at cast <;> cases cast
  next u stored =>
  refine ⟨_, Eq.trans ?_ (sameUnits_vwriteBy stored).pens, rfl⟩
  exact (SameUnits.foldl (fun s _ => sameUnits_ueMet s _) _ (u.markPoison e.ctx va _)).pens

theorem modCores_pens (s : State) (cs : List Nat) (f : Core → Core) : (s.modCores cs f).pens = s.pens :=
  (congrArg State.pens (modCores_rest cs f s) :)

theorem castPen_length (s : State) (h : Nat) (pad : Bool) : (s.castPen h pad).pens.length = s.pens.length := by
  unfold State.castPen
  rw [pens_length_modPen, modCores_pens]

theorem pen_castPen_of_ne (s : State) (pad : Bool) (h j : Nat) (hj : j ≠ h) : (s.castPen h pad).pen j = s.pen j := by
  unfold State.castPen
  rw [pen_modPen_of_ne _ _ hj, State.pen, modCores_pens, State.pen]

theorem pen_castPen_self (s : State) (pad : Bool) (h : Nat) (lt : h < s.pens.length) :
    ((s.castPen h pad).pen h).frozen = .cast ∧ ((s.castPen h pad).pen h).live = !pad := by
  unfold State.castPen
  rw [pen_modPen_self _ _ (by rwa [modCores_pens])]
  exact ⟨rfl, rfl⟩

/-- The pens of a cast instance, whose cores are free where the casting holds their scratchpads (R62, R347). -/
theorem pen_castInstance {s t : State} {e : Entry} {va : Nat} {pad : Bool} (cast : s.castInstance e va pad = .ok t) {h : Nat}
    (hh : h ∈ s.castPens e.qid e.seq) : (t.pen h).frozen = .cast ∧ (t.pen h).live = !pad := by
  obtain ⟨u, pens, rfl⟩ := castInstance_ok cast
  exact pen_foldl_of_mem (P := fun p => p.frozen = .cast ∧ p.live = !pad) (fun s h => castPen_length s h pad)
    (fun s h => pen_castPen_self s pad h) (fun s => pen_castPen_of_ne s pad) hh (by rw [pens]; exact lt_of_mem_castPens hh)

/-! ### THAW (R62, R101, R347) -/

/-- A pen after a THAW where it stands. -/
def Pen.resumed (p : Pen) : Pen := if p.frozen = .reporting then p.thaw else p

theorem resumed_resumed (p : Pen) : p.resumed.resumed = p.resumed := by
  unfold Pen.resumed
  split <;> simp_all [Pen.thaw]

/-- A reporting pen goes on where it stands, and its waits are posted again. -/
def State.resume (s : State) (h : Nat) : State :=
  if (s.pen h).frozen = .reporting then (s.modPen h Pen.thaw).repostWaits h else s

theorem repostWaits_pens (s : State) (h : Nat) : (s.repostWaits h).pens = s.pens :=
  List.foldlRecOn (motive := fun t : State => t.pens = s.pens) _ _ rfl fun _ same _ _ => same

theorem pen_repostWaits (s : State) (h j : Nat) : (s.repostWaits h).pen j = s.pen j := by
  rw [State.pen, repostWaits_pens, State.pen]

theorem resume_length (s : State) (h : Nat) : (s.resume h).pens.length = s.pens.length := by
  unfold State.resume
  split
  · rw [repostWaits_pens, pens_length_modPen]
  · rfl

theorem pen_resume_self (s : State) (h : Nat) (lt : h < s.pens.length) : (s.resume h).pen h = (s.pen h).resumed := by
  unfold State.resume Pen.resumed
  split
  · rw [pen_repostWaits, pen_modPen_self s _ lt]
  · rfl

theorem pen_resume_of_ne (s : State) (h j : Nat) (hj : j ≠ h) : (s.resume h).pen j = s.pen j := by
  unfold State.resume
  split
  · rw [pen_repostWaits, pen_modPen_of_ne s _ hj]
  · rfl

section
variable {s : State} {e : Entry} (work : AtWork s e)
include work

theorem exec_thaw_noInst (none_ : s.instOf e = none) : exec .thaw s = .next (s.complete e 9 1 0 0) := by
  show execThaw s = _
  rw [execThaw, entryRow_atWork work]
  simp only [none_]

variable {i : Entry} (inst : s.instOf e = some i)
include inst

/-- An instance that reports and is not cast goes on where it stands (log 80). -/
theorem exec_thaw_reporting (some_ : s.castPens i.qid i.seq ≠ [])
    (reporting : ∀ h ∈ s.castPens i.qid i.seq, (s.pen h).frozen = .reporting) :
    exec .thaw s = .next (((s.castPens i.qid i.seq).foldl State.resume s).complete e 0 0 0 0) := by
  have uncast : (s.castPens i.qid i.seq).filter (fun h => decide ((s.pen h).frozen = .cast)) = [] := by
    rw [List.filter_eq_nil_iff]
    intro h hh
    rw [reporting h hh]
    decide
  have notAll : ¬ (s.castPens i.qid i.seq).all (fun h => decide ((s.pen h).frozen = .running)) = true := by
    obtain ⟨h, hh⟩ := List.exists_mem_of_ne_nil _ some_
    rw [List.all_eq_true]
    intro running
    have := running h hh
    rw [reporting h hh] at this
    exact absurd this (by decide)
  show execThaw s = _
  rw [execThaw, entryRow_atWork work]
  simp only [inst]
  rw [if_neg some_, uncast, if_pos rfl, if_neg notAll]
  rfl

/-- A casting whose header agrees with the instance is read, and put back onto the rectangles it came from (R347). -/
theorem exec_thaw_cast {hd bs : List Byte} {bad : List Nat} {plan : List (Nat × Nat × Nat × Nat)}
    (cast : ∃ h ∈ s.castPens i.qid i.seq, (s.pen h).frozen = .cast) (header : s.vread e.ctx (e.word 3).toNat 64 = .ok hd)
    (count : leNat (hd.take 2) = (s.castPens i.qid i.seq).length)
    (length : leNat ((hd.drop 8).take 8) = s.castingLen (s.castPens i.qid i.seq) ((hd.getD 2 0).getLsbD 0))
    (pad : (hd.getD 2 0).getLsbD 0 = (s.pen ((s.castPens i.qid i.seq).headD 0)).withPad) (home : e.word 4 = 0)
    (fits : s.thawPlan e (s.castPens i.qid i.seq) none = some plan)
    (read : s.castRead e.ctx (e.word 3).toNat (s.castPens i.qid i.seq) ((hd.getD 2 0).getLsbD 0) = .ok (bs, bad)) :
    exec .thaw s = .next ((s.thawAll plan ((hd.getD 2 0).getLsbD 0) bs bad).complete e 0 0 0 0) := by
  obtain ⟨h, hh, frozen⟩ := cast
  have some_ : s.castPens i.qid i.seq ≠ [] := List.ne_nil_of_mem hh
  have cast_ : (s.castPens i.qid i.seq).filter (fun h => decide ((s.pen h).frozen = .cast)) ≠ [] :=
    List.ne_nil_of_mem (List.mem_filter.2 ⟨hh, decide_eq_true frozen⟩)
  have flag : bitAt (leAt hd 2 1) 0 = (hd.getD 2 0).getLsbD 0 := by rw [leAt_one, bitAt_toNat]
  show execThaw s = _
  rw [execThaw, entryRow_atWork work]
  simp only [inst]
  rw [if_neg some_, if_neg cast_, header]
  simp only [flag]
  have agrees : (leAt hd 0 2 != (s.castPens i.qid i.seq).length
      || leAt hd 8 8 != s.castingLen (s.castPens i.qid i.seq) ((hd.getD 2 0).getLsbD 0)
      || ((hd.getD 2 0).getLsbD 0) != (s.pen ((s.castPens i.qid i.seq).headD 0)).withPad
      || (!((hd.getD 2 0).getLsbD 0) && e.word 4 != 0) || (e.word 4 != 0 && !nearOk (e.word 4))) = false := by
    rw [← pad]
    simp [leAt, count, length, home]
  rw [agrees, if_neg Bool.false_ne_true, if_pos home, fits]
  simp only [read]

end

end Sys2Proof.Machine
end

section
/-! PROOFS. A pre-empted instance goes back (R325), and the scrub of a quarantined context (R349, R350). -/

namespace Sys2Proof.Machine

open Sys2Proof

/-! ### PREEMPT_RESTORE (R325) -/

/-- Does an instance of the entry's context with a higher level wait, which could go back now (R325)? -/
def State.higherWaits (s : State) (e : Entry) : Bool :=
  s.entries.any (fun x => x.ctx = e.ctx && x.phase = 50 && decide (e.level < x.level)
    && (s.thawPlan x (s.castPens x.qid x.seq) none).isSome)

theorem higherWaits_iff (s : State) (e : Entry) : s.higherWaits e = true ↔ ∃ x ∈ s.entries,
    x.ctx = e.ctx ∧ x.phase = 50 ∧ e.level < x.level ∧ s.thawPlan x (s.castPens x.qid x.seq) none ≠ none := by
  simp [State.higherWaits, Option.isSome_iff_ne_none, and_assoc]

theorem exec_preemptRestore_noEntry {s : State} {n : Nat} (none_ : s.entries[n]? = none) : exec (.preemptRestore n) s = .next s := by
  show execPreemptRestore n s = _
  simp only [execPreemptRestore, none_]

theorem exec_preemptRestore_held {s : State} {n : Nat} {e : Entry} (named : s.entries[n]? = some e)
    (none_ : s.thawPlan e (s.castPens e.qid e.seq) none = none) : exec (.preemptRestore n) s = .next s := by
  show execPreemptRestore n s = _
  simp only [execPreemptRestore, named, none_, ite_self]

section
variable {s : State} {n : Nat} {e : Entry} (named : s.entries[n]? = some e) (phase : e.phase = 50) (parked : e.parked = none)
  (some_ : s.castPens e.qid e.seq ≠ []) {plan : List (Nat × Nat × Nat × Nat)}
  (fits : s.thawPlan e (s.castPens e.qid e.seq) none = some plan)
include named phase parked some_ fits

theorem exec_preemptRestore_yields (higher : s.higherWaits e = true) : exec (.preemptRestore n) s = .next s := by
  show execPreemptRestore n s = _
  simp only [execPreemptRestore, named, fits]
  rw [if_neg (by simp [phase, parked, some_])]
  exact if_pos higher

variable (highest : s.higherWaits e = false)
include highest

theorem exec_preemptRestore_restores {bs : List Byte} {bad : List Nat} (bound : s.keyBound e.ctx = true)
    (read : s.castRead e.ctx e.va (s.castPens e.qid e.seq) true = .ok (bs, bad)) : exec (.preemptRestore n) s =
      .next ((s.thawAll plan true bs bad).modEntry e.qid e.seq (fun x => { x with phase := 2 })) := by
  have first : ¬ s.higherWaits e = true := Bool.not_eq_true _ ▸ highest
  show execPreemptRestore n s = _
  simp only [execPreemptRestore, named, fits, read]
  rw [if_neg (by simp [phase, parked, some_])]
  exact (if_neg first).trans (keyGuard_bound bound 0 _)

theorem exec_preemptRestore_unbound (unbound : s.keyBound e.ctx = false) :
    exec (.preemptRestore n) s = .next (s.alarmB 0 e.ctx) := by
  have first : ¬ s.higherWaits e = true := Bool.not_eq_true _ ▸ highest
  show execPreemptRestore n s = _
  simp only [execPreemptRestore, named, fits]
  rw [if_neg (by simp [phase, parked, some_])]
  exact (if_neg first).trans (keyGuard_unbound unbound 0 _)

end

/-- Memory without poison gives a casting as it gives any bytes (R353). -/
theorem castRead_of_clean {s : State} (clean : s.poison = []) (ctx va : Nat) (hs : List Nat) (pad : Bool) :
    s.castRead ctx va hs pad = (s.vread ctx va (s.castingLen hs pad)).map (fun bs => (bs, [])) := by
  unfold State.castRead State.vread
  dsimp only
  cases s.places ctx va (s.castingLen hs pad) .rd with
  | error f => rfl
  | ok pl => simp [clean]

/-! ### SCRUB_COMPLETE (R349, R350) -/

theorem zeros_eq_cellsFrom (a n : Nat) : (List.range n).map (fun i => (a + i, (0 : Byte))) = cellsFrom a (List.replicate n 0) := by
  refine List.ext_getElem (by simp [cellsFrom]) fun i _ _ => ?_
  simp [cellsFrom]

theorem extentAt_of_past {es : List (Nat × Nat)} {pos : Nat} (past : (es.map (·.2)).sum ≤ pos) : extentAt es pos = none := by
  induction es generalizing pos with
  | nil => rfl
  | cons x es ih =>
    rw [List.map_cons, List.sum_cons] at past
    rw [extentAt, if_neg (by omega), ih (by omega)]

section
variable {s : State} {n : Nat}

theorem exec_scrubComplete_unquarantined (quar : (s.ctx n).quar = false) : exec (.scrubComplete n) s = .next s := by
  show execScrubComplete n s = _
  simp [execScrubComplete, quar]

variable (quar : (s.ctx n).quar = true)
include quar

/-- The scratchpad of a core is zeroed by 4 KiB (R350, log 64). -/
theorem exec_scrubComplete_near {k : Nat}
    (core : ((s.quarCores.filter (fun x => x.1 = n)).map (·.2))[(s.ctx n).scrubPos / 2 ^ 20]? = some k) :
    exec (.scrubComplete n) s = .next ((s.nearWrite (nearAddr k ((s.ctx n).scrubPos % 2 ^ 20)) (List.replicate 4096 0)).setCtx n
      { s.ctx n with scrubPos := (s.ctx n).scrubPos + 4096 }) := by
  obtain ⟨lt, -⟩ := List.getElem?_eq_some_iff.1 core
  rw [List.length_map] at lt
  have within : (s.ctx n).scrubPos < s.scrubNear n := by
    unfold State.scrubNear
    omega
  show execScrubComplete n s = _
  unfold execScrubComplete
  dsimp only
  rw [if_neg (by simp [quar]), if_pos within, List.getD_eq_getElem?_getD, core]
  rfl

/-- With no scratchpad to scrub, the first extent is zeroed by 4 KiB (R350, log 64). -/
theorem exec_scrubComplete_extent {pa len : Nat} {more : List (Nat × Nat)} (coreless : ∀ x ∈ s.quarCores, x.1 ≠ n)
    (extent : (s.ctx n).scrub = (pa, len) :: more) (within : (s.ctx n).scrubPos < len) :
    exec (.scrubComplete n) s = .next ((s.physWrite none 0 (cellsFrom (pa + (s.ctx n).scrubPos) (List.replicate 4096 0))).setCtx n
      { s.ctx n with scrubPos := (s.ctx n).scrubPos + 4096 }) := by
  have near : s.scrubNear n = 0 := by
    unfold State.scrubNear
    rw [List.filter_eq_nil_iff.2 (by simpa using coreless)]
    rfl
  show execScrubComplete n s = _
  unfold execScrubComplete
  dsimp only
  rw [if_neg (by simp [quar]), near, if_neg (Nat.not_lt_zero _), extent, Nat.sub_zero, extentAt, if_pos within]
  dsimp only
  rw [zeros_eq_cellsFrom]

/-- Once all is zero the quarantine ends (R349). -/
theorem exec_scrubComplete_end (past : (s.quarCores.filter (fun x => x.1 = n)).length * 2 ^ 20 +
    (s.ctx n).scrub.foldl (fun m x => m + x.2) 0 ≤ (s.ctx n).scrubPos) : exec (.scrubComplete n) s = .next (s.scrubEnd n) := by
  have total : (s.ctx n).scrub.foldl (fun m x => m + x.2) 0 = ((s.ctx n).scrub.map (·.2)).sum := by
    rw [List.sum_eq_foldl, List.foldl_map]
  rw [total, show (s.quarCores.filter (fun x => x.1 = n)).length * 2 ^ 20 = s.scrubNear n from rfl] at past
  have ended : extentAt (s.ctx n).scrub ((s.ctx n).scrubPos - s.scrubNear n) = none := extentAt_of_past (by omega)
  show execScrubComplete n s = _
  unfold execScrubComplete
  dsimp only
  rw [if_neg (by simp [quar]), if_neg (by omega), ended]

end

/-! ### The end of a quarantine (R349) -/

theorem vwriteBy_quarCores {s t : State} {w : Option Agent} {ctx va : Nat} {acc : Acc} {bs : List Byte}
    (h : s.vwriteBy w ctx va acc bs = .ok t) : t.quarCores = s.quarCores := (congrArg State.quarCores (storedOnly_vwriteBy h) :)

theorem recordFault_quarCores (s : State) (w : Who) (va : Nat) (x : XFault) (park : Bool) :
    (s.recordFault w va x park).1.quarCores = s.quarCores := (congrArg State.quarCores (storedOnly_recordFault s w va x park) :)

theorem ueMet_quarCores (s : State) (d : Nat) : (s.ueMet d).quarCores = s.quarCores := modDie_quarCores s d _

theorem ringAppend_quarCores {s t : State} {w : Option Agent} {ctx va size : Nat} {bs : List Byte} {r : Option RingFault}
    (h : s.ringAppend w id ctx va size bs = (t, r)) : t.quarCores = s.quarCores := by
  have slot : ∀ {u n}, s.ringSlot w ctx va size bs = .ok (u, n) → u.quarCores = s.quarCores := by
    intro u n hs
    grind [State.ringSlot, vwriteBy_quarCores]
  have bump : ∀ u n, (State.ringBump u w ctx va n).1.quarCores = u.quarCores := by
    intro u n
    grind [State.ringBump, vwriteBy_quarCores]
  grind [State.ringAppend]

theorem postEvent_quarCores (s : State) (ctx ty pid rel die : Nat) (payload : List W64) :
    (s.postEvent ctx ty pid rel die payload).quarCores = s.quarCores := by
  unfold State.postEvent
  dsimp only
  split
  · rfl
  split
  · rfl
  split
  · next ha => exact ringAppend_quarCores ha
  · next u _ fault ha =>
    refine Eq.trans ?_ (ringAppend_quarCores ha)
    cases fault with
    | none => rfl
    | some f =>
      refine (recordFault_quarCores _ _ _ _ _).trans ?_
      split
      · exact ueMet_quarCores u die
      · rfl

theorem finishEntry_quarCores (s : State) (e : Entry) (r : Nat × Nat × Nat × W64) : (s.finishEntry e r).quarCores = s.quarCores := by
  have met (u : State) (x : XFault) : (u.met 0 x).quarCores = u.quarCores := by
    unfold State.met
    split
    · exact ueMet_quarCores u 0
    · rfl
  unfold State.finishEntry
  extract_lets x put comp c
  have puts (u : State) (va : Nat) (bs : List Byte) : (put u va bs).1.quarCores = u.quarCores := by
    dsimp only [put]
    split
    · rfl
    split
    · next hw => exact vwriteBy_quarCores hw
    · split <;> exact (recordFault_quarCores _ _ _ _ _).trans (met u _)
  clear_value put
  split
  next code detail aux value =>
  extract_lets w7
  split
  next u p status =>
  have first : u.quarCores = s.quarCores := by
    have := puts s (x.slotVa e.seq + 48) (leBytes 8 value.toNat ++ leBytes 8 w7.toNat)
    rwa [status] at this
  split
  · exact first
  split
  next v p second =>
  have both : v.quarCores = s.quarCores := by
    split at second
    · cases second
      exact first
    · have := puts u x.w1.toNat (leBytes 8 c)
      rw [second] at this
      exact this.trans first
  split
  · exact both
  extract_lets
  split
  · exact (postEvent_quarCores ..).trans both
  · exact both

theorem complete_quarCores (s : State) (e : Entry) (code detail aux : Nat) (value : W64) :
    (s.complete e code detail aux value).quarCores = s.quarCores := by
  rw [complete_eq, finishEntry_quarCores]
  rfl

/-- A scrub that has ended: the context is disabled and free of quarantine, and holds no core. -/
theorem scrubEnd_effect (s : State) (n : Nat) : ((s.scrubEnd n).ctx n).quar = false ∧ ((s.scrubEnd n).ctx n).w[2].getLsbD 63 = false ∧
    (∀ x ∈ (s.scrubEnd n).quarCores, x.1 ≠ n) ∧ (s.scrubEnd n).pens = s.pens := by
  unfold State.scrubEnd
  extract_lets c u v c' w
  have completed : v.quarCores = u.quarCores ∧ v.pens = u.pens := by
    dsimp only [v]
    split
    · exact ⟨complete_quarCores .., (sameUnits_complete ..).pens⟩
    · exact ⟨rfl, rfl⟩
  refine ⟨?_, ?_, fun x hx => ?_, completed.2⟩
  · rw [ctx_setCtx_self]
  · rw [ctx_setCtx_self]
    simp
  · have held : x ∈ u.quarCores := completed.1 ▸ hx
    simpa [u] using (List.mem_filter.1 held).2

end Sys2Proof.Machine
end

section
/-! PROOFS. What `CastingEntries` comes to: all its clauses but one, and what that one says of the cipher (R348, R350, log 22). -/

namespace Sys2Proof.Machine

open Sys2Proof

/-! ### The bytes around a write in its data units -/

/-- Stores of what already stands change no byte. -/
theorem get_foldl_set_own {cs : List (Nat × Byte)} {m m' : Mem} (wf : m'.wf = true) (same : ∀ k, m'.get k = m.get k)
    (own : ∀ c ∈ cs, c.2 = m.get c.1) (k : Nat) : (cs.foldl (fun m c => Mem.set m c.1 c.2) m').get k = m.get k := by
  induction cs generalizing m' with
  | nil => exact same k
  | cons c cs ih =>
    refine ih (mem_wf_set wf c.1 c.2) (fun k => ?_) fun c hc => own c (List.mem_cons_of_mem _ hc)
    rw [mem_get_set wf]
    split
    · next hk => rw [hk, own c List.mem_cons_self]
    · exact same k

/-- Stores that agree on a byte, and of which one is to it, leave it at that. -/
theorem get_foldl_set_of_agree {cs : List (Nat × Byte)} {m : Mem} (wf : m.wf = true) {k : Nat} {b : Byte}
    (agree : ∀ c ∈ cs, c.1 = k → c.2 = b) (hit : m.get k = b ∨ ∃ c ∈ cs, c.1 = k) :
    (cs.foldl (fun m c => Mem.set m c.1 c.2) m).get k = b := by
  induction cs generalizing m with
  | nil => simpa using hit
  | cons c cs ih =>
    refine ih (mem_wf_set wf c.1 c.2) (fun c hc => agree c (List.mem_cons_of_mem _ hc)) ?_
    rw [mem_get_set wf]
    by_cases here : k = c.1
    · exact .inl (by rw [if_pos here, agree c List.mem_cons_self here.symm])
    · rw [if_neg here]
      refine hit.imp_right fun ⟨x, hx, hk⟩ => ⟨x, ?_, hk⟩
      exact (List.mem_cons.1 hx).resolve_left fun same => here (same ▸ hk.symm)

/-- What a write under no key stores around its own bytes: each data unit it touches that a key holds, in the clear (R348). -/
theorem mem_rekey {s : State} {cells : List (Nat × Byte)} {c : Nat × Byte} : c ∈ s.rekey 0 cells ↔
    ∃ x ∈ cells, paHost x.1 = false ∧ s.tagOf x.1 ≠ 0 ∧ ∃ i < (s.unitOf x.1).2, c = ((s.unitOf x.1).1 + i,
      (unitAs (s.tagOf (s.unitOf x.1).1) 0 (s.unitOf x.1).1
        ((List.range (s.unitOf x.1).2).map (fun i => s.mem.get ((s.unitOf x.1).1 + i)))).getD i 0) := by
  simp only [State.rekey, List.mem_flatMap, List.mem_eraseDups, List.mem_map, List.mem_filter, List.mem_range, Bool.and_eq_true,
    Bool.not_eq_true', bne_iff_ne]
  constructor
  · rintro ⟨u, ⟨x, ⟨hx, host, tag⟩, rfl⟩, i, hi, rfl⟩
    exact ⟨x, hx, host, tag, i, hi, rfl⟩
  · rintro ⟨x, hx, host, tag, i, hi, rfl⟩
    exact ⟨_, ⟨x, ⟨hx, host, tag⟩, rfl⟩, i, hi, rfl⟩

/-- Under a cipher that changes nothing, a data unit in the clear is the unit as it stands. -/
theorem rekey_own (plain : ∀ t u bs, Config.aesXts t u bs = bs) (s : State) (cells : List (Nat × Byte)) :
    ∀ c ∈ s.rekey 0 cells, c.2 = s.mem.get c.1 := by
  have clear_ (t u : Nat) (bs : List Byte) : unitAs t 0 u bs = bs := by
    unfold unitAs
    split
    · rfl
    · simp [plain]
  intro c hc
  obtain ⟨x, -, -, -, i, hi, rfl⟩ := mem_rekey.1 hc
  rw [clear_]
  simp [hi]

/-- A step of a scrub changes no byte but the 4 KiB that it zeroes, whatever keys hold the data units at their ends. -/
def ScrubSpares : Prop := ∀ (s : State) (pa : Nat), Mem.wf s.mem = true → ∀ a, ¬ (pa ≤ a ∧ a < pa + 4096) →
  (s.physWrite none 0 (cellsFrom pa (List.replicate 4096 0))).mem.get a = s.mem.get a

/-- What a step of a scrub leaves at each byte: its own zeroes, and outside them what the data units in the clear left. -/
theorem scrub_get {s : State} (wf : Mem.wf s.mem = true) (pa a : Nat) :
    (s.physWrite none 0 (cellsFrom pa (List.replicate 4096 0))).mem.get a = if pa ≤ a ∧ a < pa + 4096 then 0 else
      Mem.get ((s.rekey 0 (cellsFrom pa (List.replicate 4096 0))).foldl (fun m c => Mem.set m c.1 c.2) s.mem) a := by
  rw [(physWrite_frame s none 0 _).1, List.foldl_append, foldl_set_cellsFrom, mem_get_write (mem_wf_foldl wf _), List.length_replicate]
  split
  · next inside => rw [List.getD_replicate _ (by omega)]
  · rfl

theorem scrubSpares_of_plain (plain : ∀ t u bs, Config.aesXts t u bs = bs) : ScrubSpares := by
  intro s pa wf a outside
  rw [scrub_get wf, if_neg outside, get_foldl_set_own wf (fun _ => rfl) (rekey_own plain s _)]

/-! ### A data unit of which a scrub zeroes a part -/

/-- A state whose first data unit of memory is stored under a key. -/
def sealedState (t : Nat) (bs : List Byte) : State := { crypt := [(0, t)], mem := Mem.write [] 0 bs }

section
variable {t : Nat} {bs : List Byte}

theorem sealedState_wf : Mem.wf (sealedState t bs).mem = true := mem_wf_write rfl 0 bs

theorem sealedState_get (k : Nat) : (sealedState t bs).mem.get k = if k < bs.length then bs.getD k 0 else 0 := by
  have written := mem_get_write (m := []) rfl 0 k bs
  simp only [Nat.zero_le, Nat.zero_add, true_and, Nat.sub_zero] at written
  exact written

/-- Without compression a data unit is a sector of 32 bytes. -/
theorem sealedState_unitOf (k : Nat) : (sealedState t bs).unitOf k = (k / 32 * 32, 32) := by
  have hbase : (sealedState t bs).hbase = 0 := rfl
  simp [State.unitOf, hbase, bitAt]

theorem sealedState_tagOf (k : Nat) : (sealedState t bs).tagOf k = if k < 32 then t else 0 := by
  have crypt : (sealedState t bs).crypt = [(0, t)] := rfl
  rw [State.tagOf, sealedState_unitOf, crypt, Tab.find, Tab.find]
  by_cases first : k < 32
  · rw [if_pos (by omega), if_pos first, Option.getD_some]
  · rw [if_neg (by omega), if_neg first, Option.getD_none]

/-- A step of a scrub from byte 1 on leaves byte 0, which it does not zero, as the first byte of its unit in the clear. -/
theorem scrub_sealedState (ht : t ≠ 0) (length : bs.length = 32) :
    ((sealedState t bs).physWrite none 0 (cellsFrom 1 (List.replicate 4096 0))).mem.get 0 = (Config.aesXts t 0 bs).getD 0 0 := by
  have sector : (List.range 32).map (fun i => (sealedState t bs).mem.get (0 + i)) = bs := by
    refine List.ext_getElem (by simp [length]) fun i hi _ => ?_
    have lt : i < bs.length := by simpa [length] using hi
    simp [sealedState_get, lt]
  have clear_ : unitAs t 0 0 bs = Config.aesXts t 0 bs := by simp [unitAs, ht]
  rw [scrub_get sealedState_wf, if_neg (by omega)]
  refine get_foldl_set_of_agree sealedState_wf (fun c hc zero => ?_) (.inr ?_)
  · obtain ⟨x, -, -, tag, i, -, rfl⟩ := mem_rekey.1 hc
    simp only [sealedState_unitOf] at zero ⊢
    obtain ⟨first, rfl⟩ : x.1 / 32 * 32 = 0 ∧ i = 0 := by omega
    rw [first, sector, sealedState_tagOf, if_pos (by decide), clear_]
  · have cell : (1, 0) ∈ cellsFrom 1 (List.replicate 4096 0) := by
      rw [← zeros_eq_cellsFrom]
      exact List.mem_map.2 ⟨0, List.mem_range.2 (by decide), rfl⟩
    refine ⟨_, mem_rekey.2 ⟨_, cell, by decide, by simpa [sealedState_tagOf] using ht, 0, ?_, rfl⟩, ?_⟩
    · simp [sealedState_unitOf]
    · simp [sealedState_unitOf]

end

theorem firstByte_of_scrubSpares (spares : ScrubSpares) {t : Nat} (ht : t ≠ 0) {bs : List Byte} (length : bs.length = 32) :
    (Config.aesXts t 0 bs).getD 0 0 = bs.getD 0 0 := by
  have kept := spares (sealedState t bs) 1 sealedState_wf 0 (by omega)
  rwa [scrub_sealedState ht length, sealedState_get, if_pos (by omega)] at kept

/-! ### The clauses of `CastingEntries` -/

theorem castingEntries_of_scrubSpares (spares : ScrubSpares) : Obligations.CastingEntries := by
  unfold Obligations.CastingEntries
  intro s
  dsimp only
  simp only [← castingLen_eq]
  refine ⟨fun e work none_ => ⟨⟨_, exec_freeze_noInst work none_, rfl⟩, ⟨_, exec_thaw_noInst work none_, rfl⟩⟩,
    fun e i work inst bad => ⟨_, exec_freeze_bad work inst bad, rfl⟩,
    fun e i work inst aligned small => ⟨fun h hh running started => ?waves, fun t still cast => ?casts⟩,
    fun e i work inst some_ reporting => ⟨_, exec_thaw_reporting work inst some_ reporting, fun h hh => ?resumes⟩,
    fun e i hd bs bad plan work inst cast header count length pad home fits read =>
      ⟨_, exec_thaw_cast work inst cast header count length pad home fits read, rfl⟩,
    fun n none_ => ⟨s, exec_preemptRestore_noEntry none_, rfl⟩,
    fun n e named phase parked some_ => ⟨fun none_ => ⟨s, exec_preemptRestore_held named none_, rfl⟩,
      fun plan fits => ⟨fun higher => ⟨s, exec_preemptRestore_yields named phase parked some_ fits ((higherWaits_iff s e).2 higher), rfl⟩,
        fun highest bs bad bound read => ⟨_, exec_preemptRestore_restores named phase parked some_ fits ?highest bound read, rfl⟩⟩⟩,
    fun n quar => ⟨s, exec_scrubComplete_unquarantined quar, rfl⟩,
    fun n cs k quar hcs core => ⟨_, exec_scrubComplete_near quar (hcs ▸ core), ?scratchpad, ctx_setCtx_self ..⟩,
    fun n pa len more quar coreless extent within wf =>
      ⟨_, exec_scrubComplete_extent quar coreless extent within, fun a => ?zeroed, ctx_setCtx_self ..⟩,
    fun n quar past => ⟨_, exec_scrubComplete_end quar past, scrubEnd_effect s n⟩,
    fun ctx va hs pad clean => castRead_of_clean clean ctx va hs pad,
    fun n e plan named phase parked some_ fits highest unbound =>
      ⟨_, exec_preemptRestore_unbound named phase parked some_ fits ?level unbound, rfl⟩⟩
  case waves =>
    have wave (g : Nat) (hg : g ∈ s.castPens i.qid i.seq) (run : (s.pen g).frozen = .running) :
        (s.wavedTo (s.castPens i.qid i.seq)).pen g = { s.pen g with frozen := .wave } := by
      rw [pen_wavedTo hg (lt_of_mem_castPens hg), Pen.waved, if_pos run]
    have free := not_captured_of_started (s := s.wavedTo (s.castPens i.qid i.seq)) (h := h) (by rw [wave h hh running])
      (by rw [wave h hh running]; exact started)
    refine ⟨_, exec_freeze_waves work inst aligned small hh free, wavedTo_mem s _, fun g hg run => ?_⟩
    rw [wave g hg run]
    exact ⟨rfl, rfl⟩
  case casts =>
    refine ⟨_, exec_freeze_casts work inst aligned small still cast, fun h hh => ?_, rfl⟩
    rw [(sameUnits_complete ..).pen h]
    exact pen_castInstance cast hh
  case resumes =>
    rw [(sameUnits_complete ..).pen h, pen_foldl_of_idem resume_length pen_resume_self pen_resume_of_ne resumed_resumed hh
      (lt_of_mem_castPens hh), Pen.resumed, if_pos (reporting h hh)]
    exact ⟨rfl, rfl, rfl, rfl, rfl⟩
  case highest =>
    rw [← Bool.not_eq_true, higherWaits_iff]
    exact fun ⟨x, hx, waits⟩ => highest x hx waits
  case scratchpad => rw [setCtx_mem, nearWrite_mem]
  case zeroed =>
    rw [setCtx_mem]
    split
    · next inside => rw [scrub_get wf, if_pos inside]
    · next outside => exact spares s _ wf a outside
  case level =>
    rw [← Bool.not_eq_true, higherWaits_iff]
    rintro ⟨x, hx, own, waits, above, -⟩
    exact absurd (highest x hx own waits) (Nat.not_le.2 above)

/-- The state with context 0 in its scrub, and an extent from an address on. -/
def State.inScrub (s : State) (pa : Nat) : State :=
  { s with ctxs := [(0, { quar := true, scrub := [(pa, 4096)] })], quarCores := [] }

/-- A write of memory takes no account of the scrub. -/
theorem inScrub_physWrite_mem (s : State) (pa key : Nat) (cells : List (Nat × Byte)) :
    ((s.inScrub pa).physWrite none key cells).mem = (s.physWrite none key cells).mem := by
  rw [(physWrite_frame _ none key _).1, (physWrite_frame _ none key _).1]
  rfl

theorem scrubSpares_of_castingEntries (h : Obligations.CastingEntries) : ScrubSpares := by
  intro s pa wf a outside
  obtain ⟨-, -, -, -, -, -, -, -, -, extent, -⟩ := h (s.inScrub pa)
  have coreless : ∀ x ∈ (s.inScrub pa).quarCores, x.1 ≠ 0 := fun x hx => absurd hx List.not_mem_nil
  have pos : ((s.inScrub pa).ctx 0).scrubPos = 0 := rfl
  have within : ((s.inScrub pa).ctx 0).scrubPos < 4096 := by rw [pos]; decide
  obtain ⟨t, step, stated, -⟩ := extent 0 pa 4096 [] rfl coreless rfl within wf
  obtain rfl := Host.Outcome.next.inj (step.symm.trans (exec_scrubComplete_extent rfl coreless rfl within))
  have kept := stated a
  rw [pos, Nat.add_zero, if_neg outside, setCtx_mem, inScrub_physWrite_mem] at kept
  exact kept

/-- Why neither `CastingEntries` nor its negation is proved here. Its clause on the scrub of an extent lets no byte outside the 4 KiB change,
and puts no alignment on the extent's address. Where a data unit under a key straddles an end of the 4 KiB, what is left of it is stored in
the clear as `Config.aesXts` gives it (R348, log 22), which has no body: under a cipher that changes nothing the clause holds
(`scrubSpares_of_plain`), and under one that changes the first byte of a unit it fails (`firstByte_of_scrubSpares`). Every other clause holds. -/
theorem castingEntries_iff_scrubSpares : Obligations.CastingEntries ↔ ScrubSpares :=
  ⟨scrubSpares_of_castingEntries, castingEntries_of_scrubSpares⟩

end Sys2Proof.Machine
end
